-- ==== Sys2Proof/Word.lean ====
section
/-! DEFINITION. The word types of the Kamnak (R6, R64, R69) and their plainest arithmetic. -/

namespace Sys2Proof

/-- One byte of any memory. -/
abbrev Byte := BitVec 8
/-- A 32-bit word: a v register, an instruction word. -/
abbrev Word := BitVec 32
/-- A 64-bit value: a k register, a pair, a register address (R181). -/
abbrev Dword := BitVec 64
/-- A 7-bit register field (R69, R72). -/
abbrev Reg := BitVec 7
/-- A 4-bit predicate number (R29). -/
abbrev PReg := BitVec 4

/-- Bits hi:lo of a word, as R4 and R8 write x[hi:lo]. -/
abbrev bits {w : Nat} (x : BitVec w) (hi lo : Nat) : BitVec (hi - lo + 1) := x.extractLsb hi lo

/-- One bit of a word. -/
abbrev bit {w : Nat} (x : BitVec w) (i : Nat) : Bool := x.getLsbD i

end Sys2Proof
end

