-- ==== Sys2Proof/Syntax.lean ====
section
/-! DEFINITION. The instructions and events of the Kamnak: one constructor of `Instr` for each row of
spec/opcode_table.json, with the fields that the instruction words or the event carry. -/

namespace Sys2Proof

/-! ## Modifiers and forms -/

/-- The prefix word of R86. -/
structure Prefix where
  fk : Bool
  f : Reg
  rm : BitVec 3
  gz : Bool
  gn : Bool
  gp : PReg
  deriving DecidableEq, Repr

/-- Word 1 of the extended form (R74). -/
structure Word1 where
  dscl : BitVec 5
  clamp : BitVec 2
  rm : BitVec 3
  absC : Bool
  absB : Bool
  absA : Bool
  negC : Bool
  negB : Bool
  negA : Bool
  ak : Bool
  ck : Bool
  c : Reg
  gz : Bool
  gn : Bool
  gp : PReg
  deriving DecidableEq, Repr

/-- Where an instruction's modifiers come from: none (base form), a PFX before it (R86), or word 1 (R74). -/
inductive Mods where
  | base
  | pfx (p : Prefix)
  | ext (w : Word1)
  deriving DecidableEq, Repr

/-- The form of an instruction: its modifiers and its trailing literal (R65, R84). -/
structure Form where
  mods : Mods
  lit : Option Dword
  deriving DecidableEq, Repr

/-! ## Opcodes -/

/-- The 176 assigned opcodes (R91). -/
inductive Opc where
  | nop | pfx | bra | brp | jmpr | call | callr | ret | reform | exit | yield | trap | brk | kbra | role | tsync
  | mov | movl | add | sub | addc | subb | mul | mulhs | mulhu | madw | min | max | minu | maxu | and | or
  | xor | andn | shl | shr | sar | rotl | fshl | popc | clz | brev | bfe | bfi | sel | cmp | cmpu | lea
  | plop | ptov | vtop | sread | rng | cyc | divu | remu | fadd | fsub | fmul | ffma | fmin | fmax | fcmp | frnd
  | fcvt | fsf | fclass | hadd2 | hmul2 | hfma2 | hmax2 | hmin2 | pack2 | unpk2 | dadd | dmul | dfma | dcvt | fscl | fdiv
  | tshfl | tvote | tred | rdfl | tcoll | tscan | kmov | kadd | kmul | klea | kcmp | klog | kld | ksel | kst | tmatch
  | ld | st | atom | acas | accadd | accrd | accclr | fence | pref | lda | str | wsqry | cinv | cwb | zfill
  | bar | bara | barw | tarm | twait | tcopy | tdone | qfence | tidset | tidget | xltld | tstat | qwait | tcopyg | coll | collw
  | oclaim | orel | mma | mmas | accz | accld | accst | mwait | spcomp | cbset | mstat | mscl | acccvt | oqry
  | vins | vdel | vget | vset | deg | eins | edel | eget | epget | epset | efind | copen | cnext | cpeek | cclose | csave
  | crest | sinter | sdiff | ghome | vatom | gstat | crank
  | carry | go | home | whereAt | csrr | csrw | eret | sysc | tlbi | detchk | frec | space
  deriving DecidableEq, Repr

/-- What a literal supplies (R84): nothing, a 32-bit or 64-bit operand B, or a 64-bit offset. -/
inductive LitUse where
  | none | b32 | b64 | off
  deriving DecidableEq, Repr

/-- Which CLAMP values an instruction honours (R76, R77): none, 0x3 only, or all. -/
inductive ClampUse where
  | none | sat | any
  deriving DecidableEq, Repr

/-- One row of the form tables (R98, R138, R156, R197, R215, R254, R277, R308, R341, R377): the LEN values accepted,
what a literal supplies, which register fields are used, which may name k registers, and which word-1 fields are
honoured. -/
structure FormSpec where
  lens : List Nat
  lit : LitUse := .none
  useD : Bool := false
  useA : Bool := false
  useB : Bool := false
  ak : Bool := false
  kb : Bool := false
  useC : Bool := false
  ck : Bool := false
  naA : Bool := false
  naB : Bool := false
  naC : Bool := false
  rm : Bool := false
  dscl : Bool := false
  clamp : ClampUse := .none
  gz : Bool := false
  deriving DecidableEq, Repr

/-- Why a decoder refuses words (R90 steps 3 to 6): every reason raises 0x06. -/
inductive DecodeError where
  | truncated      -- fewer words than LEN names
  | unassigned     -- a reserved opcode (R91)
  | length         -- LEN not offered (step 4)
  | reservedBits   -- an unassigned bit is set (R71)
  | guard          -- GP = 0xF negated, or GZ without a destination (R75)
  | modifier       -- a word-1 field that the instruction does not honour (R76)
  | kSelect        -- a k register with bit 6 set, or a k flag on an operand that cannot be uniform (R72)
  | literal        -- the literal rules of R85
  | unusedField    -- a register field that the entry does not use (R71)
  | code           -- an invalid code of the instruction's own fields
  | prefixed       -- a PFX before an instruction that is not eligible (R87)
  deriving DecidableEq, Repr

/-! ## Base layouts (R69, R70) -/

/-- Form V3: three registers. -/
structure V3 where
  d : Reg
  a : Reg
  b : Reg
  kb : Bool
  fm : Form
  deriving DecidableEq, Repr

/-- Form V3 of the comparisons, whose D field holds a predicate and a condition (R145, R164). -/
structure CmpForm where
  pd : PReg
  cond : BitVec 3
  a : Reg
  b : Reg
  kb : Bool
  fm : Form
  deriving DecidableEq, Repr

/-- Form RI8: two registers and an 8-bit immediate. -/
structure RI8 where
  imm : BitVec 8
  a : Reg
  d : Reg
  fm : Form
  deriving DecidableEq, Repr

/-- Word-2 layout CY of ADDC, SUBB and MADW (R157). -/
structure CarryW2 where
  ciz : Bool
  po : PReg
  pi : PReg
  deriving DecidableEq, Repr

/-- The func22 layout of the uniform instructions (R170). -/
structure Uniform where
  fn : BitVec 4
  ub : BitVec 6
  ua : BitVec 6
  ud : BitVec 6
  fm : Form
  deriving DecidableEq, Repr

/-- Word 2 of TRED, TSCAN (R173). -/
structure TeamW2 where
  all : Bool
  w64 : Bool
  exc : Bool
  op : BitVec 4
  deriving DecidableEq, Repr

/-- Word 2 of the memory instructions (R198). -/
structure MemW2 where
  pd : PReg
  ret : Bool
  op : BitVec 4
  sem : BitVec 2
  scope : BitVec 3
  tag : BitVec 4
  sc : BitVec 3
  ix : BitVec 2
  sx : Bool
  sz : BitVec 3
  deriving DecidableEq, Repr

/-- A memory instruction: word 0 in form RI8 and the fields of word 2 (R197, R198). -/
structure MemForm where
  imm : BitVec 8
  a : Reg
  d : Reg
  fm : Form
  w2 : MemW2
  deriving DecidableEq, Repr

/-- Word 2 of the graph and cursor instructions (R342, R357). Bits 11:8 are a property word index, or flags. -/
structure GraphW2 where
  op : BitVec 4
  idx : BitVec 4
  fall : Bool
  mig : Bool
  dirn : BitVec 2
  pd : PReg
  deriving DecidableEq, Repr

/-- A graph or cursor instruction: word 0 in form V3 and the fields of word 2 (R341, R342). -/
structure GraphForm where
  v : V3
  w2 : GraphW2
  deriving DecidableEq, Repr

/-! ## What the events carry -/

/-- A bind record (R409), its zero bytes left out. -/
structure BindRecord where
  ctxn : BitVec 16
  launch : Word
  wgx : Word
  wgy : Word
  wgz : Word
  role : Byte
  cls : Byte
  gang : BitVec 16
  rbase : Word
  sbase : Word
  ssize : Word
  seq : Word
  valid : Bool
  tbase : Byte
  tcount : Byte
  deriving DecidableEq, Repr

/-- A hedge record (R412), its zero bytes left out. -/
structure HedgeRecord where
  /-- First local core and one past the last, for each die 0 to 3. -/
  cores : List (Nat × Nat)
  cmask : BitVec 16
  wsbase : Word
  wssize : Word
  quota : Dword
  rtgt : Word
  toos : Word
  gwt : Byte
  rcq : Byte
  pceil : Byte
  quant : Word
  drain : Word
  escal : Word
  pkgs : BitVec 256
  deriving DecidableEq, Repr

/-- The header of a Gnoip flit (R427): its packages, function and tag, and the port of this package by which it came. -/
structure FlitHdr where
  dpkg : Byte
  spkg : Byte
  vf : Byte
  tag : Dword
  port : Nat
  deriving DecidableEq, Repr

/-- What a Gnoip flit says: its VC, TYPE and payload (R427, R430 to R433). -/
inductive FlitBody where
  | read (addr : Dword) (len : Nat) (sem : BitVec 2)
  | write (addr : Dword) (sem : BitVec 2) (data : List Byte)
  | atomic (addr : Dword) (op : BitVec 4) (sz : BitVec 3) (ret : Bool) (sem : BitVec 2) (opnd : BitVec 128)
  | cell (addr : Dword) (op : BitVec 2) (fmt : BitVec 4) (sem : BitVec 2) (opnd : Dword)
  | graphop (insn w2 : Word) (a b c : Dword) (ctx : Nat) (cur0 cur1 : BitVec 128)
  | flush
  | data (off : Nat) (data : List Byte)
  | ack
  | neg (reason code : Byte)
  | graphres (pd : Bool) (d : BitVec 128) (cur0 cur1 : BitVec 128) (mref : Dword) (matched : Bool)
  | slotreq (ctx die : Nat)
  | slotgnt (core : Nat)
  | slotbsy
  | cont (part parts len : Nat) (data : List Byte)
  | recall (ctx : Nat) (wglin : Word) (tidx : Nat)
  | elem (gid op part off : Nat) (data : List Byte)
  | cells (gid op part off : Nat) (cells : List (BitVec 256))
  | codebook (gid op part : Nat) (cb : List (BitVec 16))
  | done (gid op part : Nat)
  deriving DecidableEq, Repr

/-- A Gnoip flit. -/
structure Flit where
  hdr : FlitHdr
  body : FlitBody
  deriving DecidableEq, Repr

/-- A flit as a port receives it (R427): bytes 0x00 to 0xF7 of one whose CRC holds. One whose CRC fails is FLIT_CRC_FAIL
(R428). -/
structure RawFlit where
  port : Nat
  bytes : List Byte
  deriving DecidableEq, Repr

/-- Who performs a write: the agents of R394, and the device itself, which writes its rings (entry 19). -/
inductive Writer where
  | thread (wg tidx : Nat)
  | engine (core op : Nat)
  | frontEnd (vf cmd : Nat)
  | host (vf : Nat)
  | peer (h : FlitHdr)
  | device
  deriving DecidableEq, Repr

/-- The outcome of the two signature checks of a firmware image (R441): the keys are fused, and the manual gives none. -/
structure SigVerdict where
  ecdsa : Bool
  lms : Bool
  deriving DecidableEq, Repr

/-- A page of 4,096 bytes of a function's host addresses, of a PASID where the host has enabled one, and the host page that is
behind it from now on (R423; entry 67). -/
structure AtsPage where
  pasid : Option Nat
  page : Nat
  target : Nat
  deriving DecidableEq, Repr

/-! ## Instructions and events -/

/-- One constructor for each row of the table of operations and events. -/
inductive Instr where
  -- 0x00-0x0F, control flow and calls (R98-R114, R213-R220)
  | pfx (p : Prefix) (w : Word) (lit : Option Dword)
  | bra (off : BitVec 22) (fm : Form)
  | brp (off : BitVec 17) (pn : Bool) (pp : PReg)
  | jmpr (f : V3)
  | call (off : BitVec 22) (fm : Form)
  | callr (f : V3)
  | ret (fm : Form)
  | reform (tag : BitVec 4)
  | exit (fm : Form)
  | yield (hold : BitVec 10) (fm : Form)
  | trap (code : BitVec 16) (fm : Form)
  | brk (bid : BitVec 16) (fm : Form)
  | kbra (off : BitVec 15) (kz : Bool) (kr : BitVec 6)
  | role (ent : Bool) (rid : BitVec 2) (pd : PReg)
  | tsync (f : V3)
  -- 0x10-0x37, integers and predicates (R156-R169)
  | mov (f : V3)
  | movl (f : V3)
  | add (f : V3)
  | sub (f : V3)
  | addc (f : V3) (cy : CarryW2)
  | subb (f : V3) (cy : CarryW2)
  | mul (f : V3)
  | mulhs (f : V3)
  | mulhu (f : V3)
  | madw (f : V3) (cy : CarryW2)
  | min (f : V3)
  | max (f : V3)
  | minu (f : V3)
  | maxu (f : V3)
  | and (f : V3)
  | or (f : V3)
  | xor (f : V3)
  | andn (f : V3)
  | shl (f : V3)
  | shr (f : V3)
  | sar (f : V3)
  | rotl (f : V3)
  | fshl (f : V3)
  | popc (f : V3)
  | clz (f : V3)
  | brev (f : V3)
  | bfe (f : V3) (sx : Bool)
  | bfi (f : V3)
  | sel (f : V3) (sn : Bool) (spr : PReg)
  | cmp (f : CmpForm)
  | cmpu (f : CmpForm)
  | lea (f : V3) (zx : Bool) (sh : BitVec 3)
  | plop (lut : BitVec 4) (pb pa pd : PReg) (fm : Form)
  | ptov (f : V3)
  | vtop (f : V3)
  | sread (f : RI8) (kd : Bool)
  | rng (f : V3)
  | cyc (f : V3)
  | divu (f : V3)
  | remu (f : V3)
  -- 0x38-0x4F, floating point (R138-R154)
  | fadd (f : V3)
  | fsub (f : V3)
  | fmul (f : V3)
  | ffma (f : V3)
  | fmin (f : V3)
  | fmax (f : V3)
  | fcmp (f : CmpForm)
  | frnd (f : V3)
  | fcvt (f : RI8)
  | fsf (f : RI8)
  | fclass (f : V3)
  | hadd2 (f : V3) (bf : Bool)
  | hmul2 (f : V3) (bf : Bool)
  | hfma2 (f : V3) (bf : Bool)
  | hmax2 (f : V3) (bf : Bool)
  | hmin2 (f : V3) (bf : Bool)
  | pack2 (f : V3) (bf : Bool)
  | unpk2 (f : RI8)
  | dadd (f : V3)
  | dmul (f : V3)
  | dfma (f : V3)
  | dcvt (f : RI8)
  | fscl (f : V3)
  | fdiv (f : V3)
  -- 0x50-0x5F, cross-thread and uniform instructions (R170-R179)
  | tshfl (f : V3) (all w64 : Bool) (mode : BitVec 2)
  | tvote (f : V3) (all sn : Bool) (spr : PReg) (op : BitVec 2)
  | tred (f : V3) (w : TeamW2)
  | rdfl (f : V3) (all : Bool) (pd : PReg) (w64 chk : Bool)
  | tcoll (f : V3) (all : Bool) (wid : BitVec 2)
  | tscan (f : V3) (w : TeamW2)
  | tmatch (f : V3) (all w64 : Bool)
  | kmov (f : Uniform)
  | kadd (f : Uniform)
  | kmul (f : Uniform)
  | klea (f : Uniform)
  | kcmp (f : Uniform)
  | klog (f : Uniform)
  | kld (f : Uniform)
  | ksel (f : Uniform)
  | kst (f : Uniform)
  -- 0x60-0x6E, memory (R197-R210)
  | ld (f : MemForm)
  | st (f : MemForm)
  | atom (f : MemForm)
  | acas (f : MemForm)
  | accadd (f : MemForm)
  | accrd (f : MemForm)
  | accclr (f : MemForm)
  | fence (kind : BitVec 2) (scope : BitVec 3) (pm : BitVec 7) (fm : Form)
  | pref (f : MemForm)
  | lda (f : MemForm)
  | str (f : MemForm)
  | wsqry (f : MemForm)
  | cinv (f : MemForm)
  | cwb (f : MemForm)
  | zfill (f : MemForm)
  -- 0x70-0x7F, barriers, tiles and engines (R254-R262)
  | bar (scope : BitVec 3) (id : BitVec 4) (fm : Form)
  | bara (scope : BitVec 3) (id : BitVec 4) (fm : Form)
  | barw (scope : BitVec 3) (id : BitVec 4) (fm : Form)
  | tarm (f : V3)
  | twait (ph phw : Bool) (tile : BitVec 6) (fm : Form)
  | tcopy (f : V3) (rel : BitVec 3)
  | tdone (tile : BitVec 6) (fm : Form)
  | qfence (qmask : BitVec 6) (fm : Form)
  | tidset (f : V3)
  | tidget (f : V3)
  | xltld (f : V3)
  | tstat (f : RI8) (kd : Bool)
  | qwait (n : BitVec 8) (q : BitVec 3) (fm : Form)
  | tcopyg (f : V3) (rel : BitVec 3)
  | coll (f : V3)
  | collw (f : V3)
  -- 0x80-0x8D, matrix unit and sparsity (R277-R286, R290-R296)
  | oclaim (f : RI8) (kd : Bool) (pd : PReg)
  | orel (f : RI8)
  | mma (f : V3)
  | mmas (f : V3)
  | accz (atl : BitVec 3) (fm : Form)
  | accld (f : RI8)
  | accst (f : RI8)
  | mwait (fm : Form)
  | spcomp (f : V3) (fmt : BitVec 4)
  | cbset (f : V3)
  | mstat (f : V3)
  | mscl (f : V3) (count : BitVec 9) (stag : BitVec 16)
  | acccvt (f : RI8) (src : Bool) (fmt : BitVec 4)
  | oqry (f : V3)
  -- 0x90-0xA6, graph space and cursors (R341-R347, R357-R360)
  | vins (f : GraphForm)
  | vdel (f : GraphForm)
  | vget (f : GraphForm)
  | vset (f : GraphForm)
  | deg (f : GraphForm)
  | eins (f : GraphForm)
  | edel (f : GraphForm)
  | eget (f : GraphForm)
  | epget (f : GraphForm)
  | epset (f : GraphForm)
  | efind (f : GraphForm)
  | copen (f : GraphForm)
  | cnext (f : GraphForm)
  | cpeek (f : GraphForm)
  | cclose (f : GraphForm)
  | csave (f : GraphForm)
  | crest (f : GraphForm)
  | sinter (f : GraphForm)
  | sdiff (f : GraphForm)
  | ghome (f : GraphForm)
  | vatom (f : GraphForm)
  | gstat (f : GraphForm)
  | crank (f : GraphForm)
  -- 0xB0-0xBB, migration, system, SPACE (R377-R380, R308-R316, R399)
  | carry (vb : Reg) (vn : BitVec 5) (ub : BitVec 6) (un : BitVec 4) (fm : Form)
  | go (f : V3) (vtx fall : Bool) (pd : PReg)
  | home (fm : Form)
  | whereAt (f : V3)
  | csrr (csr : BitVec 12) (d : Reg) (fm : Form)
  | csrw (sk : Bool) (csr : BitVec 12) (src : Reg) (fm : Form)
  | sysc (f : RI8)
  | tlbi (f : RI8)
  | detchk (req : Bool) (pd : PReg) (fm : Form)
  | frec (f : RI8)
  | space (f : V3)
  -- dispatch and scheduling events
  | bindRecordWrite (core slot : Nat) (r : BindRecord)
  | coreReload (core : Nat)
  | workgroupRetire (wg : Nat)
  | loadDataArrival (wg : Nat) (tidxs : List Nat)
  | binAgeDraw (core bin : Nat)
  | groupOverdue (group : Nat)
  | grantStall (core : Nat)
  | roleGrowGrant (core : Nat)
  | oclaimGrant (core : Nat)
  | yieldHoldEnd (wg tidx : Nat)
  | faultRecordPost (ctx : Nat)
  -- engine events
  | copyStart (core q : Nat)
  | copyComplete (core q : Nat)
  | mmaStart (core : Nat)
  | mmaComplete (core : Nat)
  | mqOpComplete (core : Nat)
  | collectiveComplete (id : Nat)
  | graphStreamStep (core op : Nat)
  | graphOpPerform (wg tidx : Nat)
  -- migration events
  | guestPlacement (wg tidx core : Nat)
  | homeArrival (wg tidx : Nat)
  | guestExitNotify (wg tidx : Nat)
  | guestRecall (wg tidx : Nat)
  | slotWaitExpiry (wg tidx : Nat)
  -- compressed memory events
  | topiaryWrite (w : Writer) (pa : Nat) (data : List Byte)
  | balloonPost (vf : Nat)
  | heldWriteExpiry (id : Nat)
  -- the shutter
  | quantumExpiry (ctx : Nat)
  | drainBudgetExpiry (ctx : Nat)
  | workgroupFreeze (wg : Nat)
  | workgroupSave (wg : Nat)
  | escalationDeadline (ctx : Nat)
  | workgroupRestore (wg core slot : Nat) (r : BindRecord)
  -- the front end
  | tail (vf : Nat) (val : Dword)
  | launch (vf : Nat)
  | copy (vf : Nat)
  | wait (vf : Nat)
  | eventWaitComplete (vf idx : Nat)
  | signal (vf : Nat)
  | checkpoint (vf : Nat)
  | replyResume (vf c : Nat) (seq : Word)
  | replyAbort (vf c : Nat) (seq : Word) (code : Byte)
  | grantGranules (vf die count : Nat)
  | grantReturn (vf die count : Nat)
  | ctxclr (vf : Nat) (mask : BitVec 16)
  | qctlClrq (vf : Nat)
  | rplend (vf : Nat) (val : Dword)
  | dbgsel (vf : Nat) (val : Dword)
  | dbgsstep (vf : Nat) (val : Word)
  | dbgwin (vf off : Nat) (val : Dword)
  | hedgeRecordWrite (vf : Nat) (r : HedgeRecord)
  | frameBack (vf : Nat) (cmp : Bool)
  | frameRelease (vf : Nat)
  | registerWrite (fn off : Nat) (val : Dword)
  -- the host link
  | hostRead (vf pa len : Nat)
  | hostWrite (vf pa : Nat) (data : List Byte)
  | atsInvalidation (vf : Nat) (p : AtsPage)
  | ucieModuleDown (m : Nat)
  | ideIntegrityFailure (m : Nat)
  | ideKm (m : Nat) (key : BitVec 256)
  -- the Gnoip fabric
  | flitCrcFail (port : Nat)
  -- management
  | sensorSample (vals : List Word) (eols : List (BitVec 16))
  | fwcmd (val : Word)
  | fwVerifyDone (ecdsa lms : Bool)
  | reservedOpcode (w : Word)
  | dieLinkDown (link : Nat)
  -- rows without fields: NOP (R98), ERET (R312), events, and the flits, whose contents are in `State.rx`
  | nop
  | eret
  | deviceReset
  | frameCommandDone
  | entriesDropped
  | gRead
  | gWrite
  | gAtomic
  | gCell
  | gGraphop
  | gFlush
  | gData
  | gAck
  | gNeg
  | gGraphres
  | gSlotreq
  | gSlotgnt
  | gSlotbsy
  | gCont
  | gRecall
  | gElem
  | gCells
  | gCodebook
  | gDone
  | malformedGnoipFlit
  deriving DecidableEq, Repr

end Sys2Proof
end

