-- ==== Sys2Proof/Machine/Forms.lean ====
section
/-! DEFINITION. The form tables of the manual (R98, R138, R156, R170, R173, R197, R215, R254, R277, R290, R308,
R341, R357, R377, R399) and the legality checks of decode steps 4 to 6 (R90) on an instruction term. -/

namespace Sys2Proof

/-! ## The opcode map -/

/-- The opcode map, row by row as R91 prints it. A short row ends in reserved cells. -/
def opcodeMap : List (List Opc) := [
  [.nop, .pfx, .bra, .brp, .jmpr, .call, .callr, .ret, .reform, .exit, .yield, .trap, .brk, .kbra, .role, .tsync],
  [.mov, .movl, .add, .sub, .addc, .subb, .mul, .mulhs, .mulhu, .madw, .min, .max, .minu, .maxu, .and, .or],
  [.xor, .andn, .shl, .shr, .sar, .rotl, .fshl, .popc, .clz, .brev, .bfe, .bfi, .sel, .cmp, .cmpu, .lea],
  [.plop, .ptov, .vtop, .sread, .rng, .cyc, .divu, .remu, .fadd, .fsub, .fmul, .ffma, .fmin, .fmax, .fcmp, .frnd],
  [.fcvt, .fsf, .fclass, .hadd2, .hmul2, .hfma2, .hmax2, .hmin2, .pack2, .unpk2, .dadd, .dmul, .dfma, .dcvt, .fscl, .fdiv],
  [.tshfl, .tvote, .tred, .rdfl, .tcoll, .tscan, .kmov, .kadd, .kmul, .klea, .kcmp, .klog, .kld, .ksel, .kst, .tmatch],
  [.ld, .st, .atom, .acas, .accadd, .accrd, .accclr, .fence, .pref, .lda, .str, .wsqry, .cinv, .cwb, .zfill],
  [.bar, .bara, .barw, .tarm, .twait, .tcopy, .tdone, .qfence, .tidset, .tidget, .xltld, .tstat, .qwait, .tcopyg, .coll, .collw],
  [.oclaim, .orel, .mma, .mmas, .accz, .accld, .accst, .mwait, .spcomp, .cbset, .mstat, .mscl, .acccvt, .oqry],
  [.vins, .vdel, .vget, .vset, .deg, .eins, .edel, .eget, .epget, .epset, .efind, .copen, .cnext, .cpeek, .cclose, .csave],
  [.crest, .sinter, .sdiff, .ghome, .vatom, .gstat, .crank],
  [.carry, .go, .home, .whereAt, .csrr, .csrw, .eret, .sysc, .tlbi, .detchk, .frec, .space]]

/-- The opcode that bits 9:2 of word 0 name, if it is assigned (R91). -/
def opcodeOf (code : Nat) : Option Opc := (opcodeMap[code / 16]?).bind (fun row => row[code % 16]?)

/-- The code of an opcode, bits 9:2 of word 0. -/
def Opc.code : Opc → Nat
  | .nop => 0x00  | .pfx => 0x01  | .bra => 0x02  | .brp => 0x03  | .jmpr => 0x04  | .call => 0x05
  | .callr => 0x06  | .ret => 0x07  | .reform => 0x08  | .exit => 0x09  | .yield => 0x0A  | .trap => 0x0B
  | .brk => 0x0C  | .kbra => 0x0D  | .role => 0x0E  | .tsync => 0x0F  | .mov => 0x10  | .movl => 0x11
  | .add => 0x12  | .sub => 0x13  | .addc => 0x14  | .subb => 0x15  | .mul => 0x16  | .mulhs => 0x17
  | .mulhu => 0x18  | .madw => 0x19  | .min => 0x1A  | .max => 0x1B  | .minu => 0x1C  | .maxu => 0x1D
  | .and => 0x1E  | .or => 0x1F  | .xor => 0x20  | .andn => 0x21  | .shl => 0x22  | .shr => 0x23
  | .sar => 0x24  | .rotl => 0x25  | .fshl => 0x26  | .popc => 0x27  | .clz => 0x28  | .brev => 0x29
  | .bfe => 0x2A  | .bfi => 0x2B  | .sel => 0x2C  | .cmp => 0x2D  | .cmpu => 0x2E  | .lea => 0x2F
  | .plop => 0x30  | .ptov => 0x31  | .vtop => 0x32  | .sread => 0x33  | .rng => 0x34  | .cyc => 0x35
  | .divu => 0x36  | .remu => 0x37  | .fadd => 0x38  | .fsub => 0x39  | .fmul => 0x3A  | .ffma => 0x3B
  | .fmin => 0x3C  | .fmax => 0x3D  | .fcmp => 0x3E  | .frnd => 0x3F  | .fcvt => 0x40  | .fsf => 0x41
  | .fclass => 0x42  | .hadd2 => 0x43  | .hmul2 => 0x44  | .hfma2 => 0x45  | .hmax2 => 0x46  | .hmin2 => 0x47
  | .pack2 => 0x48  | .unpk2 => 0x49  | .dadd => 0x4A  | .dmul => 0x4B  | .dfma => 0x4C  | .dcvt => 0x4D
  | .fscl => 0x4E  | .fdiv => 0x4F  | .tshfl => 0x50  | .tvote => 0x51  | .tred => 0x52  | .rdfl => 0x53
  | .tcoll => 0x54  | .tscan => 0x55  | .kmov => 0x56  | .kadd => 0x57  | .kmul => 0x58  | .klea => 0x59
  | .kcmp => 0x5A  | .klog => 0x5B  | .kld => 0x5C  | .ksel => 0x5D  | .kst => 0x5E  | .tmatch => 0x5F
  | .ld => 0x60  | .st => 0x61  | .atom => 0x62  | .acas => 0x63  | .accadd => 0x64  | .accrd => 0x65
  | .accclr => 0x66  | .fence => 0x67  | .pref => 0x68  | .lda => 0x69  | .str => 0x6A  | .wsqry => 0x6B
  | .cinv => 0x6C  | .cwb => 0x6D  | .zfill => 0x6E  | .bar => 0x70  | .bara => 0x71  | .barw => 0x72
  | .tarm => 0x73  | .twait => 0x74  | .tcopy => 0x75  | .tdone => 0x76  | .qfence => 0x77  | .tidset => 0x78
  | .tidget => 0x79  | .xltld => 0x7A  | .tstat => 0x7B  | .qwait => 0x7C  | .tcopyg => 0x7D  | .coll => 0x7E
  | .collw => 0x7F  | .oclaim => 0x80  | .orel => 0x81  | .mma => 0x82  | .mmas => 0x83  | .accz => 0x84
  | .accld => 0x85  | .accst => 0x86  | .mwait => 0x87  | .spcomp => 0x88  | .cbset => 0x89  | .mstat => 0x8A
  | .mscl => 0x8B  | .acccvt => 0x8C  | .oqry => 0x8D  | .vins => 0x90  | .vdel => 0x91  | .vget => 0x92
  | .vset => 0x93  | .deg => 0x94  | .eins => 0x95  | .edel => 0x96  | .eget => 0x97  | .epget => 0x98
  | .epset => 0x99  | .efind => 0x9A  | .copen => 0x9B  | .cnext => 0x9C  | .cpeek => 0x9D  | .cclose => 0x9E
  | .csave => 0x9F  | .crest => 0xA0  | .sinter => 0xA1  | .sdiff => 0xA2  | .ghome => 0xA3  | .vatom => 0xA4
  | .gstat => 0xA5  | .crank => 0xA6  | .carry => 0xB0  | .go => 0xB1  | .home => 0xB2  | .whereAt => 0xB3
  | .csrr => 0xB4  | .csrw => 0xB5  | .eret => 0xB6  | .sysc => 0xB7  | .tlbi => 0xB8  | .detchk => 0xB9
  | .frec => 0xBA  | .space => 0xBB

/-! ## Forms -/

/-- The opcode of an instruction term; none for an event. -/
def Instr.opc : Instr → Option Opc
  | .nop => some .nop | .pfx .. => some .pfx | .bra .. => some .bra | .brp .. => some .brp
  | .jmpr .. => some .jmpr | .call .. => some .call | .callr .. => some .callr | .ret .. => some .ret
  | .reform .. => some .reform | .exit .. => some .exit | .yield .. => some .yield | .trap .. => some .trap
  | .brk .. => some .brk | .kbra .. => some .kbra | .role .. => some .role | .tsync .. => some .tsync
  | .mov .. => some .mov | .movl .. => some .movl | .add .. => some .add | .sub .. => some .sub
  | .addc .. => some .addc | .subb .. => some .subb | .mul .. => some .mul | .mulhs .. => some .mulhs
  | .mulhu .. => some .mulhu | .madw .. => some .madw | .min .. => some .min | .max .. => some .max
  | .minu .. => some .minu | .maxu .. => some .maxu | .and .. => some .and | .or .. => some .or
  | .xor .. => some .xor | .andn .. => some .andn | .shl .. => some .shl | .shr .. => some .shr
  | .sar .. => some .sar | .rotl .. => some .rotl | .fshl .. => some .fshl | .popc .. => some .popc
  | .clz .. => some .clz | .brev .. => some .brev | .bfe .. => some .bfe | .bfi .. => some .bfi
  | .sel .. => some .sel | .cmp .. => some .cmp | .cmpu .. => some .cmpu | .lea .. => some .lea
  | .plop .. => some .plop | .ptov .. => some .ptov | .vtop .. => some .vtop | .sread .. => some .sread
  | .rng .. => some .rng | .cyc .. => some .cyc | .divu .. => some .divu | .remu .. => some .remu
  | .fadd .. => some .fadd | .fsub .. => some .fsub | .fmul .. => some .fmul | .ffma .. => some .ffma
  | .fmin .. => some .fmin | .fmax .. => some .fmax | .fcmp .. => some .fcmp | .frnd .. => some .frnd
  | .fcvt .. => some .fcvt | .fsf .. => some .fsf | .fclass .. => some .fclass | .hadd2 .. => some .hadd2
  | .hmul2 .. => some .hmul2 | .hfma2 .. => some .hfma2 | .hmax2 .. => some .hmax2 | .hmin2 .. => some .hmin2
  | .pack2 .. => some .pack2 | .unpk2 .. => some .unpk2 | .dadd .. => some .dadd | .dmul .. => some .dmul
  | .dfma .. => some .dfma | .dcvt .. => some .dcvt | .fscl .. => some .fscl | .fdiv .. => some .fdiv
  | .tshfl .. => some .tshfl | .tvote .. => some .tvote | .tred .. => some .tred | .rdfl .. => some .rdfl
  | .tcoll .. => some .tcoll | .tscan .. => some .tscan | .tmatch .. => some .tmatch
  | .kmov .. => some .kmov | .kadd .. => some .kadd | .kmul .. => some .kmul | .klea .. => some .klea
  | .kcmp .. => some .kcmp | .klog .. => some .klog | .kld .. => some .kld | .ksel .. => some .ksel
  | .kst .. => some .kst
  | .ld .. => some .ld | .st .. => some .st | .atom .. => some .atom | .acas .. => some .acas
  | .accadd .. => some .accadd | .accrd .. => some .accrd | .accclr .. => some .accclr | .fence .. => some .fence
  | .pref .. => some .pref | .lda .. => some .lda | .str .. => some .str | .wsqry .. => some .wsqry
  | .cinv .. => some .cinv | .cwb .. => some .cwb | .zfill .. => some .zfill
  | .bar .. => some .bar | .bara .. => some .bara | .barw .. => some .barw | .tarm .. => some .tarm
  | .twait .. => some .twait | .tcopy .. => some .tcopy | .tdone .. => some .tdone | .qfence .. => some .qfence
  | .tidset .. => some .tidset | .tidget .. => some .tidget | .xltld .. => some .xltld | .tstat .. => some .tstat
  | .qwait .. => some .qwait | .tcopyg .. => some .tcopyg | .coll .. => some .coll | .collw .. => some .collw
  | .oclaim .. => some .oclaim | .orel .. => some .orel | .mma .. => some .mma | .mmas .. => some .mmas
  | .accz .. => some .accz | .accld .. => some .accld | .accst .. => some .accst | .mwait .. => some .mwait
  | .spcomp .. => some .spcomp | .cbset .. => some .cbset | .mstat .. => some .mstat | .mscl .. => some .mscl
  | .acccvt .. => some .acccvt | .oqry .. => some .oqry
  | .vins .. => some .vins | .vdel .. => some .vdel | .vget .. => some .vget | .vset .. => some .vset
  | .deg .. => some .deg | .eins .. => some .eins | .edel .. => some .edel | .eget .. => some .eget
  | .epget .. => some .epget | .epset .. => some .epset | .efind .. => some .efind | .copen .. => some .copen
  | .cnext .. => some .cnext | .cpeek .. => some .cpeek | .cclose .. => some .cclose | .csave .. => some .csave
  | .crest .. => some .crest | .sinter .. => some .sinter | .sdiff .. => some .sdiff | .ghome .. => some .ghome
  | .vatom .. => some .vatom | .gstat .. => some .gstat | .crank .. => some .crank
  | .carry .. => some .carry | .go .. => some .go | .home .. => some .home | .whereAt .. => some .whereAt
  | .csrr .. => some .csrr | .csrw .. => some .csrw | .eret => some .eret | .sysc .. => some .sysc
  | .tlbi .. => some .tlbi | .detchk .. => some .detchk | .frec .. => some .frec | .space .. => some .space
  | _ => none

/-- Three sources in FP32 style arithmetic: D, A, B with literal, every modifier (R138). -/
def fpSpec : FormSpec :=
  { lens := [0, 1, 2, 3], lit := .b32, useD := true, useA := true, useB := true, ak := true, kb := true,
    naA := true, naB := true, rm := true, dscl := true, clamp := .any, gz := true }

/-- D, A, B integer forms without modifiers (R156). -/
def intSpec : FormSpec :=
  { lens := [0, 1, 2, 3], lit := .b32, useD := true, useA := true, useB := true, ak := true, kb := true, gz := true }

/-- One source, no literal (R138, R156). -/
def unarySpec : FormSpec := { lens := [0, 2], useD := true, useA := true, ak := true, gz := true }

/-- Z forms with an optional extended form that honours GP and GN only. -/
def zSpec : FormSpec := { lens := [0, 2] }

/-- Uniform instructions (R170). -/
def uniSpec : FormSpec := { lens := [0, 1, 2, 3], lit := .b64 }

/-- Memory instructions offered in the extended form only (R197). -/
def memSpec : FormSpec :=
  { lens := [2, 3], lit := .off, useD := true, useA := true, ak := true, useC := true, ck := true }

/-- Cross-thread instructions: LEN 0x2, mask in C (R173). -/
def teamSpec : FormSpec :=
  { lens := [2], useD := true, useA := true, ak := true, useC := true, ck := true, gz := true }

/-- Graph instructions: LEN 0x2 (R341). -/
def graphSpec : FormSpec := { lens := [2], useA := true, ak := true }

/-- The form table of every opcode. -/
def formSpec : Opc → FormSpec
  | .nop => { lens := [0] } | .pfx => { lens := [0] } | .bra => zSpec | .brp => { lens := [0] }
  | .jmpr => { lens := [0, 1, 2, 3], lit := .b64, useB := true, kb := true }
  | .call => zSpec
  | .callr => { lens := [0, 1, 2, 3], lit := .b64, useB := true, kb := true }
  | .ret => zSpec | .reform => { lens := [0] } | .exit => zSpec | .yield => zSpec | .trap => zSpec | .brk => zSpec
  | .kbra => { lens := [0] } | .role => { lens := [0] }
  | .tsync => { lens := [0, 1, 2, 3], lit := .b32, useB := true, kb := true }
  | .mov => { intSpec with useA := false, ak := false, naB := true }
  | .movl => { intSpec with useA := false, ak := false, lit := .b64 }
  | .add | .sub | .mul => { intSpec with naA := true, naB := true, clamp := .sat }
  | .addc | .subb => { intSpec with lens := [2, 3] }
  | .mulhs | .min | .max => { intSpec with naA := true, naB := true }
  | .mulhu | .minu | .maxu | .and | .or | .xor | .andn | .shl | .shr | .sar | .rotl | .bfe | .divu | .remu => intSpec
  | .madw => { intSpec with lens := [2, 3], useC := true, ck := true }
  | .fshl | .bfi => { intSpec with lens := [0, 2], lit := .none, useC := true, ck := true }
  | .popc | .clz | .brev => unarySpec
  | .sel => { intSpec with lens := [2, 3] }
  | .cmp => { intSpec with naA := true, naB := true }
  | .cmpu | .lea => intSpec
  | .plop => { lens := [0, 2], gz := true }
  | .ptov => { lens := [0, 2], useD := true, gz := true }
  | .vtop => { intSpec with useD := false }
  | .sread => { lens := [0, 2], useD := true, gz := true }
  | .rng => { intSpec with lens := [0, 2], lit := .none, ak := false }
  | .cyc => { lens := [0, 2], useD := true, gz := true }
  | .fadd | .fsub | .fmul | .fdiv => fpSpec
  | .ffma => { fpSpec with useC := true, ck := true, naC := true }
  | .fmin | .fmax => { fpSpec with rm := false, dscl := false }
  | .fcmp => { fpSpec with rm := false, dscl := false, clamp := .none }
  | .frnd => { unarySpec with naA := true, rm := true, clamp := .any }
  | .fcvt | .dcvt => { unarySpec with naA := true, rm := true, dscl := true, clamp := .any }
  | .fsf | .unpk2 => { unarySpec with naA := true, clamp := .any }
  | .fclass => unarySpec
  | .hadd2 | .hmul2 | .pack2 => fpSpec
  | .hfma2 => { fpSpec with useC := true, ck := true, naC := true }
  | .hmax2 | .hmin2 => { fpSpec with rm := false, dscl := false }
  | .dadd | .dmul => { fpSpec with lit := .b64 }
  | .dfma => { fpSpec with lit := .b64, useC := true, ck := true, naC := true }
  | .fscl => { fpSpec with naB := false, dscl := false }
  | .tshfl => { teamSpec with lens := [2, 3], lit := .b32, useB := true, kb := true }
  | .tvote => { teamSpec with useA := false, ak := false }
  | .tred | .tscan => { teamSpec with rm := true }
  | .rdfl => { teamSpec with gz := true }
  | .tcoll | .tmatch => teamSpec
  | .kmov | .kadd | .kmul | .klea | .kcmp | .klog | .ksel => uniSpec
  | .kld | .kst => { uniSpec with lit := .off }
  | .ld => { memSpec with lens := [0, 1, 2, 3], gz := true }
  | .st => { memSpec with lens := [0, 1, 2, 3] }
  | .atom | .acas | .accrd | .lda | .wsqry => { memSpec with gz := true }
  | .accadd | .str => memSpec
  | .accclr | .pref | .cinv | .cwb | .zfill => { memSpec with useD := false }
  | .fence => zSpec
  | .bar | .bara | .barw => zSpec
  | .tarm => { lens := [0, 1, 2, 3], lit := .b32, useD := true, useA := true, useB := true, ak := true, kb := true }
  | .twait => zSpec
  | .tcopy | .tcopyg => { lens := [0, 2], useD := true, useA := true, ak := true }
  | .tdone | .qfence => zSpec
  | .tidset | .tidget | .cbset =>
    { lens := [0, 1, 2, 3], lit := .b32, useA := true, useB := true, ak := true, kb := true }
  | .xltld | .coll | .collw | .mma => { lens := [0, 2], useA := true, ak := true }
  | .tstat => { lens := [0, 2], useD := true, gz := true }
  | .qwait => zSpec
  | .oclaim => { lens := [2], useD := true, gz := true }
  | .orel => { lens := [0, 2], useA := true, ak := true }
  | .mmas => { lens := [0, 2], useA := true, useB := true, ak := true, kb := true }
  | .accz => zSpec
  | .accld | .accst => { lens := [0, 2], useD := true, useA := true, ak := true }
  | .mwait => zSpec
  | .spcomp => { lens := [2], useD := true, useA := true, useC := true, gz := true }
  | .mstat | .oqry => { lens := [0, 2], useD := true, gz := true }
  | .mscl => { lens := [2], useD := true, useA := true, ak := true }
  | .acccvt =>
    { lens := [2], useD := true, useA := true, ak := true, rm := true, dscl := true, clamp := .any }
  | .vins | .vdel => { graphSpec with gz := true }
  | .vget | .deg | .ghome | .gstat => { graphSpec with useD := true, gz := true }
  | .vset | .vatom | .edel => { graphSpec with useB := true, kb := true, gz := true }
  | .eins | .eget | .epget | .efind => { graphSpec with useD := true, useB := true, kb := true, gz := true }
  | .epset => { graphSpec with useB := true, kb := true, useC := true, ck := true, gz := true }
  | .copen => { graphSpec with useD := true, useB := true, kb := true, gz := true }
  | .cnext | .cpeek | .crank => { lens := [2], useD := true, useA := true, gz := true }
  | .cclose => { lens := [2], useD := true }
  | .csave | .crest => { lens := [2], useD := true, useA := true, ak := true }
  | .sinter | .sdiff =>
    { lens := [2], useD := true, useA := true, useB := true, useC := true, ck := true, gz := true }
  | .carry => zSpec
  | .go => { lens := [2], useA := true, ak := true, gz := true }
  | .home => zSpec
  | .whereAt => { lens := [0, 2], useD := true, gz := true }
  | .csrr => { lens := [0, 2], gz := true }
  | .csrw => zSpec
  | .eret => { lens := [0] }
  | .sysc | .tlbi => { lens := [0, 2], useA := true, ak := true }
  | .detchk => { lens := [0, 2], gz := true }
  | .frec => { lens := [0, 2], useD := true, gz := true }
  | .space => { lens := [0, 2], useD := true, gz := true }

/-- The opcodes that an access slice may execute (R58). -/
def Opc.onSlice : Opc → Bool
  | .kmov | .kadd | .kmul | .klea | .kcmp | .klog | .ksel | .kbra | .kld | .kst | .tarm | .tcopy | .tcopyg | .twait
  | .tstat | .qfence | .oclaim | .orel | .xltld | .exit | .nop => true
  | _ => false

/-- The opcodes that a PFX may precede: 0x10 to 0x4F with a base form of LEN 0x0 or 0x1 (R87, R180). -/
def Opc.prefixable : Opc → Bool
  | .mov | .movl | .add | .sub | .mul | .mulhs | .mulhu | .min | .max | .minu | .maxu | .and | .or | .xor | .andn
  | .shl | .shr | .sar | .rotl | .fshl | .popc | .clz | .brev | .bfe | .bfi | .cmp | .cmpu | .lea | .plop | .ptov
  | .vtop | .sread | .rng | .cyc | .divu | .remu | .fadd | .fsub | .fmul | .ffma | .fmin | .fmax | .fcmp | .frnd
  | .fcvt | .fsf | .fclass | .hadd2 | .hmul2 | .hfma2 | .hmax2 | .hmin2 | .pack2 | .unpk2 | .dadd | .dmul | .dfma
  | .dcvt | .fscl | .fdiv => true
  | _ => false

/-- Is this successor word eligible for a PFX (R87)? Opcode 0x10 to 0x4F with a base form, LEN 0x0 or 0x1. -/
def prefixEligible (w : Word) : Bool :=
  match opcodeOf (bits w 9 2).toNat with
  | some o => o.prefixable && (bits w 1 0).toNat ≤ 1
  | none => false

/-- LEN of a form (R65); a prefixed form counts as the LEN of its base word. -/
def Form.len (f : Form) : Nat :=
  match f.mods, f.lit with
  | .ext _, none => 2
  | .ext _, some _ => 3
  | _, none => 0
  | _, some _ => 1

/-- Words of an instruction in this form, its PFX included (R65, R88). -/
def Form.words (f : Form) : Nat :=
  (match f.mods with | .base => 1 | .pfx _ => 2 | .ext _ => 3) + (if f.lit.isSome then 2 else 0)

/-- Is this an extended form? -/
def Form.isExt (f : Form) : Bool :=
  match f.mods with | .ext _ => true | _ => false

/-- The bare base form. -/
def Form.plain : Form := { mods := .base, lit := none }

/-- The form of an instruction term: its own field, or the bare base form. -/
def Instr.form : Instr → Form
  | .bra _ fm | .call _ fm | .ret fm | .exit fm | .yield _ fm | .trap _ fm | .brk _ fm | .plop _ _ _ _ fm
  | .fence _ _ _ fm | .bar _ _ fm | .bara _ _ fm | .barw _ _ fm | .twait _ _ _ fm | .tdone _ fm | .qfence _ fm
  | .qwait _ _ fm | .accz _ fm | .mwait fm | .carry _ _ _ _ fm | .home fm | .csrr _ _ fm | .csrw _ _ _ fm
  | .detchk _ _ fm => fm
  | .jmpr f | .callr f | .tsync f | .mov f | .movl f | .add f | .sub f | .addc f _ | .subb f _ | .mul f | .mulhs f
  | .mulhu f | .madw f _ | .min f | .max f | .minu f | .maxu f | .and f | .or f | .xor f | .andn f | .shl f | .shr f
  | .sar f | .rotl f | .fshl f | .popc f | .clz f | .brev f | .bfe f _ | .bfi f | .sel f _ _ | .lea f _ _ | .ptov f
  | .vtop f | .rng f | .cyc f | .divu f | .remu f | .fadd f | .fsub f | .fmul f | .ffma f | .fmin f | .fmax f
  | .frnd f | .fclass f | .hadd2 f _ | .hmul2 f _ | .hfma2 f _ | .hmax2 f _ | .hmin2 f _ | .pack2 f _ | .dadd f
  | .dmul f | .dfma f | .fscl f | .fdiv f | .tshfl f _ _ _ | .tvote f _ _ _ _ | .tred f _ | .rdfl f _ _ _ _
  | .tcoll f _ _ | .tscan f _ | .tmatch f _ _ | .tarm f | .tcopy f _ | .tidset f | .tidget f | .xltld f
  | .tcopyg f _ | .coll f | .collw f | .mma f | .mmas f | .spcomp f _ | .cbset f | .mstat f | .mscl f _ _ | .oqry f
  | .go f _ _ _ | .whereAt f | .space f => f.fm
  | .cmp f | .cmpu f | .fcmp f => f.fm
  | .sread f _ | .fcvt f | .fsf f | .unpk2 f | .dcvt f | .tstat f _ | .oclaim f _ _ | .orel f | .accld f | .accst f
  | .acccvt f _ _ | .sysc f | .tlbi f | .frec f => f.fm
  | .kmov f | .kadd f | .kmul f | .klea f | .kcmp f | .klog f | .kld f | .ksel f | .kst f => f.fm
  | .ld f | .st f | .atom f | .acas f | .accadd f | .accrd f | .accclr f | .pref f | .lda f | .str f | .wsqry f
  | .cinv f | .cwb f | .zfill f => f.fm
  | .vins f | .vdel f | .vget f | .vset f | .deg f | .eins f | .edel f | .eget f | .epget f | .epset f | .efind f
  | .copen f | .cnext f | .cpeek f | .cclose f | .csave f | .crest f | .sinter f | .sdiff f | .ghome f | .vatom f
  | .gstat f | .crank f => f.v.fm
  | _ => .plain

/-- The words an instruction takes, for the address of the next sequential instruction (R65). A PFX pair counts as
one instruction (R88). -/
def Instr.words : Instr → Nat
  | .pfx _ _ lit => 2 + (if lit.isSome then 2 else 0)
  | i => i.form.words

/-! ## Checks shared by all forms -/

/-- Word-2 default of LD and ST in the base form: 32 bits, no index (R197). -/
def MemW2.base : MemW2 :=
  { pd := 0, ret := false, op := 0, sem := 0, scope := 0, tag := 0, sc := 0, ix := 0, sx := false, sz := 2 }

/-- The guard of a prefix or of word 1: GP = 0xF is not negated, and GZ needs a destination (R75). -/
def guardOk (sp : FormSpec) (gp : PReg) (gn gz : Bool) : Bool :=
  !(gp == 15#4 && gn) && (sp.gz || !gz)

/-- Word 1 against the fields that the entry honours (R76). -/
def Word1.modifiersOk (sp : FormSpec) (w : Word1) : Bool :=
  (if sp.rm then w.rm.toNat ≤ 5 else w.rm == 0)
  && (sp.dscl || w.dscl == 0)
  && (match sp.clamp with | .none => w.clamp == 0 | .sat => w.clamp == 0 || w.clamp == 3 | .any => true)
  && (sp.naA || (!w.absA && !w.negA)) && (sp.naB || (!w.absB && !w.negB)) && (sp.naC || (!w.absC && !w.negC))
  && (sp.useC || w.c == 0)

/-- The k flags of word 1 (R72, R76). -/
def Word1.kOk (sp : FormSpec) (w : Word1) : Bool := (sp.ak || !w.ak) && (sp.ck || !w.ck) && !(w.ck && bit w.c 6)

/-- The fields of a prefix that the prefixed instruction must honour (R87). -/
def Prefix.ok (sp : FormSpec) (p : Prefix) : Option DecodeError :=
  if !guardOk sp p.gp p.gn p.gz then some .guard
  else if !(if sp.rm then p.rm.toNat ≤ 5 else p.rm == 0) then some .modifier
  else if !(sp.useC || (p.f == 0 && !p.fk)) then some .modifier
  else if p.fk && bit p.f 6 then some .kSelect
  else none

/-- The rules of a 32-bit literal: its high word is all zero or all equal to bit 31 (R85). -/
def literal32Ok (l : Dword) : Bool :=
  let hi := (l >>> 32).toNat
  hi == 0 || (hi == 0xFFFFFFFF && bit l 31)

/-- Modifiers and literal of a form against its table row (R76, R84, R85, R87). -/
def Form.check (sp : FormSpec) (f : Form) : Option DecodeError :=
  if !sp.lens.contains f.len then some .length
  else
    let m : Option DecodeError := match f.mods with
      | .base => none
      | .pfx p => p.ok sp
      | .ext w =>
        if !guardOk sp w.gp w.gn w.gz then some .guard
        else if !w.modifiersOk sp then some .modifier
        else if !w.kOk sp then some .kSelect
        else none
    match m with
    | some e => some e
    | none =>
      match f.lit, sp.lit with
      | none, _ => none
      | some _, .none => some .length
      | some l, .b32 => if literal32Ok l then none else some .literal
      | some _, _ => none

/-- Does word 1 make A a k register? -/
def Form.aIsK (f : Form) : Bool := match f.mods with | .ext w => w.ak | _ => false

/-- The register fields of word 0 in form V3 (R71, R72, R84). -/
def V3.check (sp : FormSpec) (f : V3) : Option DecodeError :=
  match f.fm.check sp with
  | some e => some e
  | none =>
    if !(sp.useD || f.d == 0) || !(sp.useA || f.a == 0) || !(sp.useB || (f.b == 0 && !f.kb)) then some .unusedField
    else if (f.kb && (!sp.kb || bit f.b 6)) || (f.fm.aIsK && bit f.a 6) then some .kSelect
    else if (f.fm.lit.isSome && (sp.lit == .b32 || sp.lit == .b64)) && !(f.b == 0 && !f.kb) then some .literal
    else none

/-- The register fields of word 0 in form RI8. -/
def RI8.check (sp : FormSpec) (f : RI8) : Option DecodeError :=
  match f.fm.check sp with
  | some e => some e
  | none =>
    if !(sp.useD || f.d == 0) || !(sp.useA || f.a == 0) then some .unusedField
    else if f.fm.aIsK && bit f.a 6 then some .kSelect
    else none

/-- A comparison's fields are those of V3 with D used. -/
def CmpForm.check (sp : FormSpec) (f : CmpForm) : Option DecodeError :=
  V3.check sp { d := 0, a := f.a, b := f.b, kb := f.kb, fm := f.fm }

/-- Uniform instructions: a literal takes the place of UB (R170). -/
def Uniform.check (sp : FormSpec) (f : Uniform) : Option DecodeError :=
  match f.fm.check sp with
  | some e => some e
  | none => if f.fm.lit.isSome && f.ub != 0 then some .literal else none

/-- Keep a code check as a decode error. -/
def codeIf (b : Bool) : Option DecodeError := if b then none else some .code

/-- First error of two. -/
def firstError (a b : Option DecodeError) : Option DecodeError := match a with | some e => some e | none => b

/-! ## Codes of the single instructions -/

/-- The SZ codes that R197 accepts for an opcode. -/
def szAccepted : Opc → List Nat
  | .ld | .st => [0, 1, 2, 3, 4]
  | .atom | .acas => [2, 3]
  | .lda | .str => [0, 1, 2, 3]
  | .cinv | .cwb => [0, 1, 2]
  | .zfill => [0, 1]
  | _ => [0]

/-- The word-2 rules of R197 and R199. -/
def MemForm.codesOk (o : Opc) (f : MemForm) : Bool :=
  let w := f.w2
  let idxOff : Bool := match f.fm.mods with | .ext x => x.c == 0 && !x.ck | _ => true
  let hasSem : Bool := o == .atom || o == .acas || o == .accadd || o == .accrd || o == .accclr
  (f.fm.isExt || w == MemW2.base)
  && (szAccepted o).contains w.sz.toNat
  && w.ix != 3
  && (w.ix != 0 || (w.sc == 0 && idxOff))
  && (!w.sx || (o == .ld && w.sz.toNat ≤ 1))
  && (o == .ld || w.tag == 0)
  && (o == .atom || !w.ret)
  && (o == .acas || w.pd == 0)
  && (match o with
      | .atom => w.op.toNat ≤ 8
      | .accadd | .accrd => w.op == 0 || w.op == 7 || w.op == 8
      | _ => w.op == 0)
  && (if hasSem then w.scope.toNat ≤ 5 && ((w.sem == 0) == (w.scope == 0)) else w.sem == 0)
  && (match o with
      | .accadd | .accclr => w.sem == 0 || w.sem == 2
      | .accrd => w.sem == 0 || w.sem == 1
      | .atom => w.ret || !(w.sem == 1 || w.sem == 3)
      | _ => true)
  && (match o with
      | .lda | .str => 1 ≤ w.scope.toNat && w.scope.toNat ≤ 5
      | .cinv => w.scope == 3 || w.scope == 4
      | .atom | .acas | .accadd | .accrd | .accclr => true
      | _ => w.scope == 0)
  && (f.fm.lit.isNone || f.imm == 0)
  && (match f.fm.mods with
      | .ext x => !x.gz || !(o == .atom && !w.ret)
      | _ => true)

/-- Word 0, word 1 and word 2 of a memory instruction. -/
def MemForm.check (o : Opc) (f : MemForm) : Option DecodeError :=
  firstError (RI8.check (formSpec o) { imm := f.imm, a := f.a, d := f.d, fm := f.fm }) (codeIf (f.codesOk o))

/-- Is this operand a plain cursor name c0 to c7 (R357)? -/
def cursorField (r : Reg) : Bool := r.toNat ≤ 7

/-- The word-2 fields that R341, R342 and R357 list for an opcode, and the cursor operands. -/
def GraphForm.codesOk (o : Opc) (f : GraphForm) : Bool :=
  let w := f.w2
  let dirn : Bool := o == .deg || o == .edel || o == .eget || o == .epget || o == .epset || o == .efind || o == .copen
  let idx : Bool := o == .vget || o == .vset || o == .epget || o == .epset || o == .vatom
  let nopd : Bool := o == .ghome || o == .gstat || o == .cclose || o == .csave || o == .crest || o == .sinter || o == .sdiff
  let nomig : Bool := o == .ghome || o == .gstat || o == .cclose || o == .csave || o == .crest
  (!nopd || w.pd == 0)
  && (if dirn then w.dirn.toNat ≤ 1 else w.dirn == 0)
  && (!nomig || (!w.mig && !w.fall)) && (w.mig || !w.fall)
  && (if o == .vatom then w.op.toNat ≤ 8 else w.op == 0)
  && (idx || (match o with
      | .sinter | .sdiff => w.idx.toNat ≤ 3
      | .copen => w.idx.toNat ≤ 1
      | _ => w.idx == 0))
  && (match o with
      | .copen => cursorField f.v.d && (bit w.idx 0 || (f.v.b == 0 && !f.v.kb))
      | .cclose | .csave | .crest => cursorField f.v.d
      | .cnext | .cpeek | .crank => cursorField f.v.a
      | .sinter | .sdiff =>
        cursorField f.v.a && cursorField f.v.b
        && (bit w.idx 0 || (match f.v.fm.mods with | .ext x => x.c == 0 && !x.ck | _ => true))
      | _ => true)

/-- A graph or cursor instruction. -/
def GraphForm.check (o : Opc) (f : GraphForm) : Option DecodeError :=
  firstError (V3.check (formSpec o) f.v) (codeIf (f.codesOk o))

/-- RM, C and ALL of a cross-thread instruction (R173). -/
def teamOk (f : V3) (all : Bool) (rmOk : Bool) : Bool :=
  match f.fm.mods with
  | .ext x => (!all || (x.c == 0 && !x.ck)) && (rmOk || x.rm == 0)
  | _ => false

/-- Format codes of FCVT and DCVT (R140) and the modifiers that depend on them (R149, R155). -/
def cvtOk (f : RI8) (isD : Bool) : Bool :=
  let dst := (bits f.imm 7 4).toNat
  let src := (bits f.imm 3 0).toNat
  let codes : Bool :=
    if isD then [0, 6, 7, 8].contains dst && [0, 6, 7, 8].contains src && (7 ≤ dst || 7 ≤ src)
    else dst ≤ 6 && (src ≤ 6 || src == 10)
  let intDst : Bool := 5 ≤ dst && dst ≤ 7
  codes && (match f.fm.mods with
    | .ext w => (!intDst || w.dscl == 0) && (src != 10 || (!w.absA && !w.negA))
    | _ => true)

/-- Legality of an instruction term: decode steps 4 to 6 of R90. `none` means legal; an event has no words. -/
def Instr.illegal : Instr → Option DecodeError
  | .nop => none
  | .pfx _ _ _ => none
  | .bra _ fm => fm.check zSpec
  | .brp _ pn pp => codeIf !(pp == 15#4 && pn)
  | .jmpr f => f.check (formSpec .jmpr)
  | .call _ fm => fm.check zSpec
  | .callr f => f.check (formSpec .callr)
  | .ret fm => fm.check zSpec
  | .reform _ => none
  | .exit fm => fm.check zSpec
  | .yield _ fm => fm.check zSpec
  | .trap _ fm => fm.check zSpec
  | .brk _ fm => fm.check zSpec
  | .kbra _ _ _ => none
  | .role _ _ _ => none
  | .tsync f => f.check (formSpec .tsync)
  | .mov f => f.check (formSpec .mov)
  | .movl f => f.check (formSpec .movl)
  | .add f => f.check (formSpec .add)
  | .sub f => f.check (formSpec .sub)
  | .addc f cy => firstError (f.check (formSpec .addc)) (codeIf (!cy.ciz || cy.pi == 0))
  | .subb f cy => firstError (f.check (formSpec .subb)) (codeIf (!cy.ciz || cy.pi == 0))
  | .mul f => f.check (formSpec .mul)
  | .mulhs f => f.check (formSpec .mulhs)
  | .mulhu f => f.check (formSpec .mulhu)
  | .madw f cy => firstError (f.check (formSpec .madw)) (codeIf (!cy.ciz || cy.pi == 0))
  | .min f => f.check (formSpec .min)
  | .max f => f.check (formSpec .max)
  | .minu f => f.check (formSpec .minu)
  | .maxu f => f.check (formSpec .maxu)
  | .and f => f.check (formSpec .and)
  | .or f => f.check (formSpec .or)
  | .xor f => f.check (formSpec .xor)
  | .andn f => f.check (formSpec .andn)
  | .shl f => f.check (formSpec .shl)
  | .shr f => f.check (formSpec .shr)
  | .sar f => f.check (formSpec .sar)
  | .rotl f => f.check (formSpec .rotl)
  | .fshl f => f.check (formSpec .fshl)
  | .popc f => f.check (formSpec .popc)
  | .clz f => f.check (formSpec .clz)
  | .brev f => f.check (formSpec .brev)
  | .bfe f sx => firstError (f.check (formSpec .bfe)) (codeIf (f.fm.isExt || !sx))
  | .bfi f => f.check (formSpec .bfi)
  | .sel f _ _ => f.check (formSpec .sel)
  | .cmp f => firstError (f.check (formSpec .cmp)) (codeIf (f.cond.toNat ≤ 5))
  | .cmpu f => firstError (f.check (formSpec .cmpu)) (codeIf (f.cond.toNat ≤ 5))
  | .lea f zx sh => firstError (f.check (formSpec .lea)) (codeIf (f.fm.isExt || (!zx && sh == 0)))
  | .plop _ _ _ _ fm => fm.check (formSpec .plop)
  | .ptov f => f.check (formSpec .ptov)
  | .vtop f => f.check (formSpec .vtop)
  | .sread f kd => firstError (f.check (formSpec .sread))
      (codeIf (f.imm.toNat ≤ 15 && (!kd || (f.fm.isExt && 3 ≤ f.imm.toNat && !bit f.d 6))))
  | .rng f => f.check (formSpec .rng)
  | .cyc f => f.check (formSpec .cyc)
  | .divu f => f.check (formSpec .divu)
  | .remu f => f.check (formSpec .remu)
  | .fadd f => f.check (formSpec .fadd)
  | .fsub f => f.check (formSpec .fsub)
  | .fmul f => f.check (formSpec .fmul)
  | .ffma f => f.check (formSpec .ffma)
  | .fmin f => f.check (formSpec .fmin)
  | .fmax f => f.check (formSpec .fmax)
  | .fcmp f => f.check (formSpec .fcmp)
  | .frnd f => f.check (formSpec .frnd)
  | .fcvt f => firstError (f.check (formSpec .fcvt)) (codeIf (cvtOk f false))
  | .fsf f => firstError (f.check (formSpec .fsf)) (codeIf (f.imm.toNat ≤ 6))
  | .fclass f => f.check (formSpec .fclass)
  | .hadd2 f bf => firstError (f.check (formSpec .hadd2)) (codeIf (f.fm.isExt || !bf))
  | .hmul2 f bf => firstError (f.check (formSpec .hmul2)) (codeIf (f.fm.isExt || !bf))
  | .hfma2 f bf => firstError (f.check (formSpec .hfma2)) (codeIf (f.fm.isExt || !bf))
  | .hmax2 f bf => firstError (f.check (formSpec .hmax2)) (codeIf (f.fm.isExt || !bf))
  | .hmin2 f bf => firstError (f.check (formSpec .hmin2)) (codeIf (f.fm.isExt || !bf))
  | .pack2 f bf => firstError (f.check (formSpec .pack2)) (codeIf (f.fm.isExt || !bf))
  | .unpk2 f => firstError (f.check (formSpec .unpk2)) (codeIf (f.imm.toNat ≤ 3))
  | .dadd f => f.check (formSpec .dadd)
  | .dmul f => f.check (formSpec .dmul)
  | .dfma f => f.check (formSpec .dfma)
  | .dcvt f => firstError (f.check (formSpec .dcvt)) (codeIf (cvtOk f true))
  | .fscl f => f.check (formSpec .fscl)
  | .fdiv f => f.check (formSpec .fdiv)
  | .tshfl f all _ _ => firstError (f.check (formSpec .tshfl)) (codeIf (teamOk f all false))
  | .tvote f all _ _ op => firstError (f.check (formSpec .tvote))
      (codeIf (teamOk f all false && (op == 0 || f.d.toNat ≤ 15)))
  | .tred f w => firstError (f.check (formSpec .tred)) (codeIf (teamOk f w.all (w.op == 8)
      && w.op.toNat ≤ 10 && !(w.w64 && 8 ≤ w.op.toNat) && !w.exc))
  | .rdfl f all pd _ chk => firstError (f.check (formSpec .rdfl))
      (codeIf (teamOk f all false && (chk || pd == 0) && !bit f.d 6))
  | .tcoll f all _ => firstError (f.check (formSpec .tcoll)) (codeIf (teamOk f all false && !bit f.d 6))
  | .tscan f w => firstError (f.check (formSpec .tscan)) (codeIf (teamOk f w.all (w.op == 8)
      && w.op.toNat ≤ 10 && !(w.w64 && 8 ≤ w.op.toNat)))
  | .tmatch f all _ => firstError (f.check (formSpec .tmatch)) (codeIf (teamOk f all false))
  | .kmov f => firstError (f.check uniSpec) (codeIf (f.ua == 0 && (match f.fn.toNat with
      | 0 => true
      | 1 => f.fm.lit.isNone && 3 ≤ f.ub.toNat && f.ub.toNat ≤ 15
      | _ => false)))
  | .kadd f => firstError (f.check uniSpec) (codeIf (f.fn.toNat ≤ 1))
  | .kmul f => firstError (f.check uniSpec) (codeIf (f.fn.toNat ≤ 2))
  | .klea f => firstError (f.check uniSpec) (codeIf (f.fn.toNat ≤ 7))
  | .kcmp f => firstError (f.check uniSpec) (codeIf (f.fn.toNat ≤ 9))
  | .klog f => firstError (f.check uniSpec) (codeIf (f.fn.toNat ≤ 7))
  | .kld f => firstError (f.check (formSpec .kld)) (codeIf (f.fn.toNat ≤ 6))
  | .ksel f => firstError (f.check uniSpec) (codeIf (f.fn.toNat ≤ 1))
  | .kst f => firstError (f.check (formSpec .kst)) (codeIf (f.fn.toNat ≤ 3))
  | .ld f => f.check .ld
  | .st f => f.check .st
  | .atom f => f.check .atom
  | .acas f => f.check .acas
  | .accadd f => f.check .accadd
  | .accrd f => f.check .accrd
  | .accclr f => f.check .accclr
  | .fence k sc pm fm => firstError (fm.check zSpec) (codeIf (sc.toNat ≤ 5 && pm != 0 && !(k == 3 && sc == 0)))
  | .pref f => f.check .pref
  | .lda f => f.check .lda
  | .str f => f.check .str
  | .wsqry f => f.check .wsqry
  | .cinv f => f.check .cinv
  | .cwb f => f.check .cwb
  | .zfill f => f.check .zfill
  | .bar sc id fm => firstError (fm.check zSpec) (codeIf (1 ≤ sc.toNat && sc.toNat ≤ 5 && (sc == 1 || id.toNat ≤ 3)))
  | .bara sc id fm => firstError (fm.check zSpec) (codeIf (1 ≤ sc.toNat && sc.toNat ≤ 5 && (sc == 1 || id.toNat ≤ 3)))
  | .barw sc id fm => firstError (fm.check zSpec) (codeIf (1 ≤ sc.toNat && sc.toNat ≤ 5 && (sc == 1 || id.toNat ≤ 3)))
  | .tarm f => firstError (f.check (formSpec .tarm)) (codeIf !bit f.d 6)
  | .twait ph phw _ fm => firstError (fm.check zSpec) (codeIf (phw || !ph))
  | .tcopy f rel => firstError (f.check (formSpec .tcopy))
      (codeIf (f.d.toNat ≤ 3 && (f.fm.isExt || rel == 0) && (rel == 0 || (3 ≤ rel.toNat && rel.toNat ≤ 5))))
  | .tdone _ fm => fm.check zSpec
  | .qfence m fm => firstError (fm.check zSpec) (codeIf (m != 0))
  | .tidset f => f.check (formSpec .tidset)
  | .tidget f => f.check (formSpec .tidget)
  | .xltld f => f.check (formSpec .xltld)
  | .tstat f kd => firstError (f.check (formSpec .tstat))
      (codeIf (f.imm.toNat ≤ 63 && (!kd || (f.fm.isExt && !bit f.d 6))))
  | .qwait _ q fm => firstError (fm.check zSpec) (codeIf (q.toNat ≤ 5))
  | .tcopyg f rel => firstError (f.check (formSpec .tcopyg))
      (codeIf (f.d.toNat ≤ 3 && (f.fm.isExt || rel == 0) && (rel == 0 || (3 ≤ rel.toNat && rel.toNat ≤ 5))))
  | .coll f => f.check (formSpec .coll)
  | .collw f => f.check (formSpec .collw)
  | .oclaim f kd _ => firstError (f.check (formSpec .oclaim)) (codeIf (f.imm.toNat % 128 != 0 && (!kd || !bit f.d 6)))
  | .orel f => firstError (f.check (formSpec .orel))
      (codeIf (if bit f.imm 7 then f.imm.toNat % 128 == 0 else f.imm.toNat % 128 != 0))
  | .mma f => f.check (formSpec .mma)
  | .mmas f => firstError (f.check (formSpec .mmas)) (codeIf f.kb)
  | .accz _ fm => fm.check zSpec
  | .accld f => firstError (f.check (formSpec .accld)) (codeIf (f.d.toNat ≤ 7 && f.imm.toNat ≤ 63))
  | .accst f => firstError (f.check (formSpec .accst)) (codeIf (f.d.toNat ≤ 7 && f.imm.toNat ≤ 63))
  | .mwait fm => fm.check zSpec
  | .spcomp f fmt => firstError (f.check (formSpec .spcomp)) (codeIf (fmt == 2 || fmt == 5))
  | .cbset f => f.check (formSpec .cbset)
  | .mstat f => f.check (formSpec .mstat)
  | .mscl f count _ => firstError (f.check (formSpec .mscl))
      (codeIf (!bit f.d 6 && 1 ≤ count.toNat && count.toNat ≤ 256 && f.fm.aIsK))
  | .acccvt f _ fmt => firstError (f.check (formSpec .acccvt)) (codeIf (f.d.toNat ≤ 7 && f.imm.toNat ≤ 63
      && 1 ≤ fmt.toNat && fmt.toNat ≤ 5
      && (fmt != 5 || (match f.fm.mods with | .ext w => w.dscl == 0 | _ => true))))
  | .oqry f => f.check (formSpec .oqry)
  | .vins f => f.check .vins
  | .vdel f => f.check .vdel
  | .vget f => f.check .vget
  | .vset f => f.check .vset
  | .deg f => f.check .deg
  | .eins f => f.check .eins
  | .edel f => f.check .edel
  | .eget f => f.check .eget
  | .epget f => f.check .epget
  | .epset f => f.check .epset
  | .efind f => f.check .efind
  | .copen f => f.check .copen
  | .cnext f => f.check .cnext
  | .cpeek f => f.check .cpeek
  | .cclose f => f.check .cclose
  | .csave f => f.check .csave
  | .crest f => f.check .crest
  | .sinter f => f.check .sinter
  | .sdiff f => f.check .sdiff
  | .ghome f => f.check .ghome
  | .vatom f => f.check .vatom
  | .gstat f => f.check .gstat
  | .crank f => f.check .crank
  | .carry vb vn ub un fm => firstError (fm.check zSpec) (codeIf (vn.toNat ≤ 24 && un.toNat ≤ 8
      && (vn != 0 || vb == 0) && (un != 0 || ub == 0)))
  | .go f _ _ _ => f.check (formSpec .go)
  | .home fm => fm.check zSpec
  | .whereAt f => f.check (formSpec .whereAt)
  | .csrr _ _ fm => fm.check (formSpec .csrr)
  | .csrw sk _ src fm => firstError (fm.check zSpec) (codeIf !(sk && bit src 6))
  | .eret => none
  | .sysc f => f.check (formSpec .sysc)
  | .tlbi f => firstError (f.check (formSpec .tlbi)) (codeIf (f.imm.toNat ≤ 2 && (f.imm != 2 || (f.a == 0 && !f.fm.aIsK))))
  | .detchk req pd fm => firstError (fm.check (formSpec .detchk)) (codeIf ((!req || pd == 0)
      && (match fm.mods with | .ext w => !(req && w.gz) | _ => true)))
  | .frec f => firstError (f.check (formSpec .frec)) (codeIf (f.imm.toNat ≤ 7))
  | .space f => f.check (formSpec .space)
  | _ => none

end Sys2Proof
end

