-- ==== Sys2Proof/WellFormed.lean ====
section
/-! DEFINITION. Which instruction terms are well formed: those that some words of the manual's encoding stand for. -/

namespace Sys2Proof

/-- Is the instruction's own form written by a PFX? Such a term stands only inside `Instr.pfx`. -/
def Form.isPrefixed (f : Form) : Bool := match f.mods with | .pfx _ => true | _ => false

/-- A well-formed instruction: it passes decode steps 4 to 6 (R90). A `pfx` holds its successor's literal exactly when
the successor is eligible with LEN 0x1 (R87, R107). A `reservedOpcode` holds a word whose opcode R91 leaves out.
Events carry no words and are not well formed in this sense. -/
def Instr.wf : Instr → Bool
  | .pfx _ w lit => lit.isSome == (prefixEligible w && (bits w 1 0).toNat == 1)
  | .reservedOpcode w => (opcodeOf (bits w 9 2).toNat).isNone
  | i => i.opc.isSome && i.illegal.isNone && !i.form.isPrefixed

/-- The proposition that an instruction is well formed. -/
abbrev Instr.WF (i : Instr) : Prop := i.wf = true

end Sys2Proof
end

