-- ==== Sys2Proof/Decode.lean ====
section
/-! DEFINITION. The decoder, total on any words, and the encoder it is checked against (R64 to R91, with the word-2
layouts of the instruction chapters). Every refusal carries its reason; every reason raises 0x06. -/

namespace Sys2Proof

/-! ## Reading fields -/

/-- The words of one instruction, split by LEN (R65). -/
structure Words where
  w0 : Word
  ext : Option (Word × Word)
  lit : Option Dword
  deriving DecidableEq, Repr

/-- A trailing literal: its low word comes first (R84). -/
def literalOf (lo hi : Word) : Dword := hi ++ lo

/-- Split words by the LEN field of the first. -/
def splitWords : List Word → Except DecodeError Words
  | [] => .error .truncated
  | w0 :: ws =>
    match (bits w0 1 0).toNat, ws with
    | 0, _ => .ok { w0, ext := none, lit := none }
    | 1, l :: h :: _ => .ok { w0, ext := none, lit := some (literalOf l h) }
    | 2, w1 :: w2 :: _ => .ok { w0, ext := some (w1, w2), lit := none }
    | 3, w1 :: w2 :: l :: h :: _ => .ok { w0, ext := some (w1, w2), lit := some (literalOf l h) }
    | _, _ => .error .truncated

/-- Word 1 of the extended form (R74). -/
def word1Of (w : Word) : Word1 :=
  { dscl := bits w 30 26, clamp := bits w 25 24, rm := bits w 23 21,
    absC := bit w 20, absB := bit w 19, absA := bit w 18,
    negC := bit w 17, negB := bit w 16, negA := bit w 15,
    ak := bit w 14, ck := bit w 13, c := bits w 12 6,
    gz := bit w 5, gn := bit w 4, gp := bits w 3 0 }

/-- The prefix word (R86). -/
def prefixOf (w : Word) : Prefix :=
  { fk := bit w 26, f := bits w 25 19, rm := bits w 18 16, gz := bit w 15, gn := bit w 14, gp := bits w 13 10 }

/-- The form that split words stand for. -/
def Words.form (x : Words) : Form :=
  { mods := match x.ext with | some (w1, _) => .ext (word1Of w1) | none => .base, lit := x.lit }

/-- Word 2, zero where there is none. -/
def Words.w2 (x : Words) : Word := match x.ext with | some (_, w) => w | none => 0

/-- Layout V3 (R69). -/
def Words.v3 (x : Words) : V3 :=
  { d := bits x.w0 16 10, a := bits x.w0 23 17, b := bits x.w0 30 24, kb := bit x.w0 31, fm := x.form }

/-- Layout V3 of a comparison (R145, R164). -/
def Words.cmpForm (x : Words) : CmpForm :=
  { pd := bits x.w0 13 10, cond := bits x.w0 16 14, a := bits x.w0 23 17, b := bits x.w0 30 24, kb := bit x.w0 31,
    fm := x.form }

/-- Layout RI8 (R70). -/
def Words.ri8 (x : Words) : RI8 :=
  { imm := bits x.w0 31 24, a := bits x.w0 23 17, d := bits x.w0 16 10, fm := x.form }

/-- Layout of the uniform instructions (R170). -/
def Words.uniform (x : Words) : Uniform :=
  { fn := bits x.w0 31 28, ub := bits x.w0 27 22, ua := bits x.w0 21 16, ud := bits x.w0 15 10, fm := x.form }

/-- Word-2 layout CY (R157). -/
def Words.carry (x : Words) : CarryW2 := { ciz := bit x.w2 8, po := bits x.w2 7 4, pi := bits x.w2 3 0 }

/-- Word-2 layout of TRED and TSCAN (R173). -/
def Words.team (x : Words) : TeamW2 :=
  { all := bit x.w2 31, w64 := bit x.w2 5, exc := bit x.w2 4, op := bits x.w2 3 0 }

/-- Memory word 2 (R198); the base form stands for 32 bits without an index (R197). -/
def Words.mem (x : Words) : MemForm :=
  { imm := bits x.w0 31 24, a := bits x.w0 23 17, d := bits x.w0 16 10, fm := x.form,
    w2 := match x.ext with
      | none => MemW2.base
      | some (_, w) =>
        { pd := bits w 26 23, ret := bit w 22, op := bits w 21 18, sem := bits w 17 16, scope := bits w 15 13,
          tag := bits w 12 9, sc := bits w 8 6, ix := bits w 5 4, sx := bit w 3, sz := bits w 2 0 } }

/-- Graph word 2 (R342). -/
def Words.graph (x : Words) : GraphForm :=
  { v := x.v3,
    w2 := { op := bits x.w2 15 12, idx := bits x.w2 11 8, fall := bit x.w2 7, mig := bit x.w2 6,
            dirn := bits x.w2 5 4, pd := bits x.w2 3 0 } }

/-- The instruction that words with this opcode stand for, before any check. -/
def extract (o : Opc) (x : Words) : Instr :=
  match o with
  | .nop => .nop
  | .pfx => .pfx (prefixOf x.w0) 0 none
  | .bra => .bra (bits x.w0 31 10) x.form
  | .brp => .brp (bits x.w0 31 15) (bit x.w0 14) (bits x.w0 13 10)
  | .jmpr => .jmpr x.v3
  | .call => .call (bits x.w0 31 10) x.form
  | .callr => .callr x.v3
  | .ret => .ret x.form
  | .reform => .reform (bits x.w0 13 10)
  | .exit => .exit x.form
  | .yield => .yield (bits x.w0 19 10) x.form
  | .trap => .trap (bits x.w0 25 10) x.form
  | .brk => .brk (bits x.w0 25 10) x.form
  | .kbra => .kbra (bits x.w0 31 17) (bit x.w0 16) (bits x.w0 15 10)
  | .role => .role (bit x.w0 16) (bits x.w0 15 14) (bits x.w0 13 10)
  | .tsync => .tsync x.v3
  | .mov => .mov x.v3
  | .movl => .movl x.v3
  | .add => .add x.v3
  | .sub => .sub x.v3
  | .addc => .addc x.v3 x.carry
  | .subb => .subb x.v3 x.carry
  | .mul => .mul x.v3
  | .mulhs => .mulhs x.v3
  | .mulhu => .mulhu x.v3
  | .madw => .madw x.v3 x.carry
  | .min => .min x.v3
  | .max => .max x.v3
  | .minu => .minu x.v3
  | .maxu => .maxu x.v3
  | .and => .and x.v3
  | .or => .or x.v3
  | .xor => .xor x.v3
  | .andn => .andn x.v3
  | .shl => .shl x.v3
  | .shr => .shr x.v3
  | .sar => .sar x.v3
  | .rotl => .rotl x.v3
  | .fshl => .fshl x.v3
  | .popc => .popc x.v3
  | .clz => .clz x.v3
  | .brev => .brev x.v3
  | .bfe => .bfe x.v3 (bit x.w2 0)
  | .bfi => .bfi x.v3
  | .sel => .sel x.v3 (bit x.w2 4) (bits x.w2 3 0)
  | .cmp => .cmp x.cmpForm
  | .cmpu => .cmpu x.cmpForm
  | .lea => .lea x.v3 (bit x.w2 3) (bits x.w2 2 0)
  | .plop => .plop (bits x.w0 25 22) (bits x.w0 21 18) (bits x.w0 17 14) (bits x.w0 13 10) x.form
  | .ptov => .ptov x.v3
  | .vtop => .vtop x.v3
  | .sread => .sread x.ri8 (bit x.w2 0)
  | .rng => .rng x.v3
  | .cyc => .cyc x.v3
  | .divu => .divu x.v3
  | .remu => .remu x.v3
  | .fadd => .fadd x.v3
  | .fsub => .fsub x.v3
  | .fmul => .fmul x.v3
  | .ffma => .ffma x.v3
  | .fmin => .fmin x.v3
  | .fmax => .fmax x.v3
  | .fcmp => .fcmp x.cmpForm
  | .frnd => .frnd x.v3
  | .fcvt => .fcvt x.ri8
  | .fsf => .fsf x.ri8
  | .fclass => .fclass x.v3
  | .hadd2 => .hadd2 x.v3 (bit x.w2 0)
  | .hmul2 => .hmul2 x.v3 (bit x.w2 0)
  | .hfma2 => .hfma2 x.v3 (bit x.w2 0)
  | .hmax2 => .hmax2 x.v3 (bit x.w2 0)
  | .hmin2 => .hmin2 x.v3 (bit x.w2 0)
  | .pack2 => .pack2 x.v3 (bit x.w2 0)
  | .unpk2 => .unpk2 x.ri8
  | .dadd => .dadd x.v3
  | .dmul => .dmul x.v3
  | .dfma => .dfma x.v3
  | .dcvt => .dcvt x.ri8
  | .fscl => .fscl x.v3
  | .fdiv => .fdiv x.v3
  | .tshfl => .tshfl x.v3 (bit x.w2 31) (bit x.w2 5) (bits x.w2 1 0)
  | .tvote => .tvote x.v3 (bit x.w2 31) (bit x.w2 8) (bits x.w2 7 4) (bits x.w2 1 0)
  | .tred => .tred x.v3 x.team
  | .rdfl => .rdfl x.v3 (bit x.w2 31) (bits x.w2 9 6) (bit x.w2 5) (bit x.w2 4)
  | .tcoll => .tcoll x.v3 (bit x.w2 31) (bits x.w2 1 0)
  | .tscan => .tscan x.v3 x.team
  | .kmov => .kmov x.uniform
  | .kadd => .kadd x.uniform
  | .kmul => .kmul x.uniform
  | .klea => .klea x.uniform
  | .kcmp => .kcmp x.uniform
  | .klog => .klog x.uniform
  | .kld => .kld x.uniform
  | .ksel => .ksel x.uniform
  | .kst => .kst x.uniform
  | .tmatch => .tmatch x.v3 (bit x.w2 31) (bit x.w2 5)
  | .ld => .ld x.mem
  | .st => .st x.mem
  | .atom => .atom x.mem
  | .acas => .acas x.mem
  | .accadd => .accadd x.mem
  | .accrd => .accrd x.mem
  | .accclr => .accclr x.mem
  | .fence => .fence (bits x.w0 21 20) (bits x.w0 19 17) (bits x.w0 16 10) x.form
  | .pref => .pref x.mem
  | .lda => .lda x.mem
  | .str => .str x.mem
  | .wsqry => .wsqry x.mem
  | .cinv => .cinv x.mem
  | .cwb => .cwb x.mem
  | .zfill => .zfill x.mem
  | .bar => .bar (bits x.w0 16 14) (bits x.w0 13 10) x.form
  | .bara => .bara (bits x.w0 16 14) (bits x.w0 13 10) x.form
  | .barw => .barw (bits x.w0 16 14) (bits x.w0 13 10) x.form
  | .tarm => .tarm x.v3
  | .twait => .twait (bit x.w0 17) (bit x.w0 16) (bits x.w0 15 10) x.form
  | .tcopy => .tcopy x.v3 (bits x.w2 2 0)
  | .tdone => .tdone (bits x.w0 15 10) x.form
  | .qfence => .qfence (bits x.w0 15 10) x.form
  | .tidset => .tidset x.v3
  | .tidget => .tidget x.v3
  | .xltld => .xltld x.v3
  | .tstat => .tstat x.ri8 (bit x.w2 0)
  | .qwait => .qwait (bits x.w0 20 13) (bits x.w0 12 10) x.form
  | .tcopyg => .tcopyg x.v3 (bits x.w2 2 0)
  | .coll => .coll x.v3
  | .collw => .collw x.v3
  | .oclaim => .oclaim x.ri8 (bit x.w2 4) (bits x.w2 3 0)
  | .orel => .orel x.ri8
  | .mma => .mma x.v3
  | .mmas => .mmas x.v3
  | .accz => .accz (bits x.w0 12 10) x.form
  | .accld => .accld x.ri8
  | .accst => .accst x.ri8
  | .mwait => .mwait x.form
  | .spcomp => .spcomp x.v3 (bits x.w2 3 0)
  | .cbset => .cbset x.v3
  | .mstat => .mstat x.v3
  | .mscl => .mscl x.v3 (bits x.w2 24 16) (bits x.w2 15 0)
  | .acccvt => .acccvt x.ri8 (bit x.w2 4) (bits x.w2 3 0)
  | .oqry => .oqry x.v3
  | .vins => .vins x.graph
  | .vdel => .vdel x.graph
  | .vget => .vget x.graph
  | .vset => .vset x.graph
  | .deg => .deg x.graph
  | .eins => .eins x.graph
  | .edel => .edel x.graph
  | .eget => .eget x.graph
  | .epget => .epget x.graph
  | .epset => .epset x.graph
  | .efind => .efind x.graph
  | .copen => .copen x.graph
  | .cnext => .cnext x.graph
  | .cpeek => .cpeek x.graph
  | .cclose => .cclose x.graph
  | .csave => .csave x.graph
  | .crest => .crest x.graph
  | .sinter => .sinter x.graph
  | .sdiff => .sdiff x.graph
  | .ghome => .ghome x.graph
  | .vatom => .vatom x.graph
  | .gstat => .gstat x.graph
  | .crank => .crank x.graph
  | .carry => .carry (bits x.w0 31 25) (bits x.w0 24 20) (bits x.w0 19 14) (bits x.w0 13 10) x.form
  | .go => .go x.v3 (bit x.w2 8) (bit x.w2 7) (bits x.w2 3 0)
  | .home => .home x.form
  | .whereAt => .whereAt x.v3
  | .csrr => .csrr (bits x.w0 28 17) (bits x.w0 16 10) x.form
  | .csrw => .csrw (bit x.w0 29) (bits x.w0 28 17) (bits x.w0 16 10) x.form
  | .eret => .eret
  | .sysc => .sysc x.ri8
  | .tlbi => .tlbi x.ri8
  | .detchk => .detchk (bit x.w0 14) (bits x.w0 13 10) x.form
  | .frec => .frec x.ri8
  | .space => .space x.v3

/-! ## The encoder -/

/-- A Bool as one bit of a word, at position `i`. -/
def at1 (b : Bool) (i : Nat) : Word := if b then (1 : Word) <<< i else 0

/-- A field as bits of a word, from position `i` up. -/
def at_ {n : Nat} (x : BitVec n) (i : Nat) : Word := (x.setWidth 32) <<< i

/-- Word 1 (R74). -/
def Word1.encode (w : Word1) : Word :=
  at_ w.dscl 26 ||| at_ w.clamp 24 ||| at_ w.rm 21 ||| at1 w.absC 20 ||| at1 w.absB 19 ||| at1 w.absA 18
  ||| at1 w.negC 17 ||| at1 w.negB 16 ||| at1 w.negA 15 ||| at1 w.ak 14 ||| at1 w.ck 13 ||| at_ w.c 6
  ||| at1 w.gz 5 ||| at1 w.gn 4 ||| at_ w.gp 0

/-- The prefix word (R86). -/
def Prefix.encode (p : Prefix) : Word :=
  at1 p.fk 26 ||| at_ p.f 19 ||| at_ p.rm 16 ||| at1 p.gz 15 ||| at1 p.gn 14 ||| at_ p.gp 10 ||| 4#32

/-- OPC and LEN of word 0 (R69). -/
def head (o : Opc) (f : Form) : Word := (BitVec.ofNat 32 o.code) <<< 2 ||| BitVec.ofNat 32 f.len

/-- The words after word 0: words 1 and 2 of the extended form, then the literal (R65). -/
def Form.tailWords (f : Form) (w2 : Word) : List Word :=
  (match f.mods with | .ext w => [w.encode, w2] | _ => [])
  ++ (match f.lit with | some l => [l.setWidth 32, (l >>> 32).setWidth 32] | none => [])

/-- Layout V3. -/
def V3.encode (o : Opc) (f : V3) (w2 : Word) : List Word :=
  (head o f.fm ||| at_ f.d 10 ||| at_ f.a 17 ||| at_ f.b 24 ||| at1 f.kb 31) :: f.fm.tailWords w2

/-- Layout V3 of a comparison. -/
def CmpForm.encode (o : Opc) (f : CmpForm) : List Word :=
  (head o f.fm ||| at_ f.pd 10 ||| at_ f.cond 14 ||| at_ f.a 17 ||| at_ f.b 24 ||| at1 f.kb 31) :: f.fm.tailWords 0

/-- Layout RI8. -/
def RI8.encode (o : Opc) (f : RI8) (w2 : Word) : List Word :=
  (head o f.fm ||| at_ f.d 10 ||| at_ f.a 17 ||| at_ f.imm 24) :: f.fm.tailWords w2

/-- Layout of the uniform instructions. -/
def Uniform.encode (o : Opc) (f : Uniform) : List Word :=
  (head o f.fm ||| at_ f.ud 10 ||| at_ f.ua 16 ||| at_ f.ub 22 ||| at_ f.fn 28) :: f.fm.tailWords 0

/-- Form Z with the function bits given. -/
def encodeZ (o : Opc) (fm : Form) (func : Word) : List Word := (head o fm ||| func) :: fm.tailWords 0

/-- Word-2 layout CY. -/
def CarryW2.encode (c : CarryW2) : Word := at1 c.ciz 8 ||| at_ c.po 4 ||| at_ c.pi 0

/-- Word-2 layout of TRED and TSCAN. -/
def TeamW2.encode (t : TeamW2) : Word := at1 t.all 31 ||| at1 t.w64 5 ||| at1 t.exc 4 ||| at_ t.op 0

/-- Memory word 2. -/
def MemW2.encode (w : MemW2) : Word :=
  at_ w.pd 23 ||| at1 w.ret 22 ||| at_ w.op 18 ||| at_ w.sem 16 ||| at_ w.scope 13 ||| at_ w.tag 9 ||| at_ w.sc 6
  ||| at_ w.ix 4 ||| at1 w.sx 3 ||| at_ w.sz 0

/-- A memory instruction. -/
def MemForm.encode (o : Opc) (f : MemForm) : List Word :=
  RI8.encode o { imm := f.imm, a := f.a, d := f.d, fm := f.fm } f.w2.encode

/-- Graph word 2. -/
def GraphW2.encode (w : GraphW2) : Word :=
  at_ w.op 12 ||| at_ w.idx 8 ||| at1 w.fall 7 ||| at1 w.mig 6 ||| at_ w.dirn 4 ||| at_ w.pd 0

/-- A graph or cursor instruction. -/
def GraphForm.encode (o : Opc) (f : GraphForm) : List Word := f.v.encode o f.w2.encode

/-- The words of an instruction; an event has none. -/
def encode : Instr → List Word
  | .nop => [0]
  | .pfx p w lit => p.encode :: w :: (match lit with | some l => [l.setWidth 32, (l >>> 32).setWidth 32] | none => [])
  | .bra off fm => encodeZ .bra fm (at_ off 10)
  | .brp off pn pp => encodeZ .brp .plain (at_ off 15 ||| at1 pn 14 ||| at_ pp 10)
  | .jmpr f => f.encode .jmpr 0
  | .call off fm => encodeZ .call fm (at_ off 10)
  | .callr f => f.encode .callr 0
  | .ret fm => encodeZ .ret fm 0
  | .reform tag => encodeZ .reform .plain (at_ tag 10)
  | .exit fm => encodeZ .exit fm 0
  | .yield hold fm => encodeZ .yield fm (at_ hold 10)
  | .trap code fm => encodeZ .trap fm (at_ code 10)
  | .brk bid fm => encodeZ .brk fm (at_ bid 10)
  | .kbra off kz kr => encodeZ .kbra .plain (at_ off 17 ||| at1 kz 16 ||| at_ kr 10)
  | .role ent rid pd => encodeZ .role .plain (at1 ent 16 ||| at_ rid 14 ||| at_ pd 10)
  | .tsync f => f.encode .tsync 0
  | .mov f => f.encode .mov 0
  | .movl f => f.encode .movl 0
  | .add f => f.encode .add 0
  | .sub f => f.encode .sub 0
  | .addc f cy => f.encode .addc cy.encode
  | .subb f cy => f.encode .subb cy.encode
  | .mul f => f.encode .mul 0
  | .mulhs f => f.encode .mulhs 0
  | .mulhu f => f.encode .mulhu 0
  | .madw f cy => f.encode .madw cy.encode
  | .min f => f.encode .min 0
  | .max f => f.encode .max 0
  | .minu f => f.encode .minu 0
  | .maxu f => f.encode .maxu 0
  | .and f => f.encode .and 0
  | .or f => f.encode .or 0
  | .xor f => f.encode .xor 0
  | .andn f => f.encode .andn 0
  | .shl f => f.encode .shl 0
  | .shr f => f.encode .shr 0
  | .sar f => f.encode .sar 0
  | .rotl f => f.encode .rotl 0
  | .fshl f => f.encode .fshl 0
  | .popc f => f.encode .popc 0
  | .clz f => f.encode .clz 0
  | .brev f => f.encode .brev 0
  | .bfe f sx => f.encode .bfe (at1 sx 0)
  | .bfi f => f.encode .bfi 0
  | .sel f sn spr => f.encode .sel (at1 sn 4 ||| at_ spr 0)
  | .cmp f => f.encode .cmp
  | .cmpu f => f.encode .cmpu
  | .lea f zx sh => f.encode .lea (at1 zx 3 ||| at_ sh 0)
  | .plop lut pb pa pd fm => encodeZ .plop fm (at_ lut 22 ||| at_ pb 18 ||| at_ pa 14 ||| at_ pd 10)
  | .ptov f => f.encode .ptov 0
  | .vtop f => f.encode .vtop 0
  | .sread f kd => f.encode .sread (at1 kd 0)
  | .rng f => f.encode .rng 0
  | .cyc f => f.encode .cyc 0
  | .divu f => f.encode .divu 0
  | .remu f => f.encode .remu 0
  | .fadd f => f.encode .fadd 0
  | .fsub f => f.encode .fsub 0
  | .fmul f => f.encode .fmul 0
  | .ffma f => f.encode .ffma 0
  | .fmin f => f.encode .fmin 0
  | .fmax f => f.encode .fmax 0
  | .fcmp f => f.encode .fcmp
  | .frnd f => f.encode .frnd 0
  | .fcvt f => f.encode .fcvt 0
  | .fsf f => f.encode .fsf 0
  | .fclass f => f.encode .fclass 0
  | .hadd2 f bf => f.encode .hadd2 (at1 bf 0)
  | .hmul2 f bf => f.encode .hmul2 (at1 bf 0)
  | .hfma2 f bf => f.encode .hfma2 (at1 bf 0)
  | .hmax2 f bf => f.encode .hmax2 (at1 bf 0)
  | .hmin2 f bf => f.encode .hmin2 (at1 bf 0)
  | .pack2 f bf => f.encode .pack2 (at1 bf 0)
  | .unpk2 f => f.encode .unpk2 0
  | .dadd f => f.encode .dadd 0
  | .dmul f => f.encode .dmul 0
  | .dfma f => f.encode .dfma 0
  | .dcvt f => f.encode .dcvt 0
  | .fscl f => f.encode .fscl 0
  | .fdiv f => f.encode .fdiv 0
  | .tshfl f all w64 mode => f.encode .tshfl (at1 all 31 ||| at1 w64 5 ||| at_ mode 0)
  | .tvote f all sn spr op => f.encode .tvote (at1 all 31 ||| at1 sn 8 ||| at_ spr 4 ||| at_ op 0)
  | .tred f w => f.encode .tred w.encode
  | .rdfl f all pd w64 chk => f.encode .rdfl (at1 all 31 ||| at_ pd 6 ||| at1 w64 5 ||| at1 chk 4)
  | .tcoll f all wid => f.encode .tcoll (at1 all 31 ||| at_ wid 0)
  | .tscan f w => f.encode .tscan w.encode
  | .kmov f => f.encode .kmov
  | .kadd f => f.encode .kadd
  | .kmul f => f.encode .kmul
  | .klea f => f.encode .klea
  | .kcmp f => f.encode .kcmp
  | .klog f => f.encode .klog
  | .kld f => f.encode .kld
  | .ksel f => f.encode .ksel
  | .kst f => f.encode .kst
  | .tmatch f all w64 => f.encode .tmatch (at1 all 31 ||| at1 w64 5)
  | .ld f => f.encode .ld
  | .st f => f.encode .st
  | .atom f => f.encode .atom
  | .acas f => f.encode .acas
  | .accadd f => f.encode .accadd
  | .accrd f => f.encode .accrd
  | .accclr f => f.encode .accclr
  | .fence k sc pm fm => encodeZ .fence fm (at_ k 20 ||| at_ sc 17 ||| at_ pm 10)
  | .pref f => f.encode .pref
  | .lda f => f.encode .lda
  | .str f => f.encode .str
  | .wsqry f => f.encode .wsqry
  | .cinv f => f.encode .cinv
  | .cwb f => f.encode .cwb
  | .zfill f => f.encode .zfill
  | .bar sc id fm => encodeZ .bar fm (at_ sc 14 ||| at_ id 10)
  | .bara sc id fm => encodeZ .bara fm (at_ sc 14 ||| at_ id 10)
  | .barw sc id fm => encodeZ .barw fm (at_ sc 14 ||| at_ id 10)
  | .tarm f => f.encode .tarm 0
  | .twait ph phw t fm => encodeZ .twait fm (at1 ph 17 ||| at1 phw 16 ||| at_ t 10)
  | .tcopy f rel => f.encode .tcopy (at_ rel 0)
  | .tdone t fm => encodeZ .tdone fm (at_ t 10)
  | .qfence m fm => encodeZ .qfence fm (at_ m 10)
  | .tidset f => f.encode .tidset 0
  | .tidget f => f.encode .tidget 0
  | .xltld f => f.encode .xltld 0
  | .tstat f kd => f.encode .tstat (at1 kd 0)
  | .qwait n q fm => encodeZ .qwait fm (at_ n 13 ||| at_ q 10)
  | .tcopyg f rel => f.encode .tcopyg (at_ rel 0)
  | .coll f => f.encode .coll 0
  | .collw f => f.encode .collw 0
  | .oclaim f kd pd => f.encode .oclaim (at1 kd 4 ||| at_ pd 0)
  | .orel f => f.encode .orel 0
  | .mma f => f.encode .mma 0
  | .mmas f => f.encode .mmas 0
  | .accz t fm => encodeZ .accz fm (at_ t 10)
  | .accld f => f.encode .accld 0
  | .accst f => f.encode .accst 0
  | .mwait fm => encodeZ .mwait fm 0
  | .spcomp f fmt => f.encode .spcomp (at_ fmt 0)
  | .cbset f => f.encode .cbset 0
  | .mstat f => f.encode .mstat 0
  | .mscl f count stag => f.encode .mscl (at_ count 16 ||| at_ stag 0)
  | .acccvt f src fmt => f.encode .acccvt (at1 src 4 ||| at_ fmt 0)
  | .oqry f => f.encode .oqry 0
  | .vins f => f.encode .vins
  | .vdel f => f.encode .vdel
  | .vget f => f.encode .vget
  | .vset f => f.encode .vset
  | .deg f => f.encode .deg
  | .eins f => f.encode .eins
  | .edel f => f.encode .edel
  | .eget f => f.encode .eget
  | .epget f => f.encode .epget
  | .epset f => f.encode .epset
  | .efind f => f.encode .efind
  | .copen f => f.encode .copen
  | .cnext f => f.encode .cnext
  | .cpeek f => f.encode .cpeek
  | .cclose f => f.encode .cclose
  | .csave f => f.encode .csave
  | .crest f => f.encode .crest
  | .sinter f => f.encode .sinter
  | .sdiff f => f.encode .sdiff
  | .ghome f => f.encode .ghome
  | .vatom f => f.encode .vatom
  | .gstat f => f.encode .gstat
  | .crank f => f.encode .crank
  | .carry vb vn ub un fm => encodeZ .carry fm (at_ vb 25 ||| at_ vn 20 ||| at_ ub 14 ||| at_ un 10)
  | .go f vtx fall pd => f.encode .go (at1 vtx 8 ||| at1 fall 7 ||| at_ pd 0)
  | .home fm => encodeZ .home fm 0
  | .whereAt f => f.encode .whereAt 0
  | .csrr csr d fm => encodeZ .csrr fm (at_ csr 17 ||| at_ d 10)
  | .csrw sk csr src fm => encodeZ .csrw fm (at1 sk 29 ||| at_ csr 17 ||| at_ src 10)
  | .eret => encodeZ .eret .plain 0
  | .sysc f => f.encode .sysc 0
  | .tlbi f => f.encode .tlbi 0
  | .detchk req pd fm => encodeZ .detchk fm (at1 req 14 ||| at_ pd 10)
  | .frec f => f.encode .frec 0
  | .space f => f.encode .space 0
  | .reservedOpcode w => [w]
  | _ => []

/-! ## The decoder -/

/-- Decode a PFX and its successor (R86, R87, R107): the literal is taken only from an eligible successor. -/
def decodePrefix (w0 : Word) (ws : List Word) : Except DecodeError Instr :=
  if (bits w0 1 0).toNat != 0 then .error .length
  else if bits w0 31 27 != 0 then .error .reservedBits
  else
    match ws with
    | [] => .error .truncated
    | s :: rest =>
      if prefixEligible s && (bits s 1 0).toNat == 1 then
        match rest with
        | l :: h :: _ => .ok (.pfx (prefixOf w0) s (some (literalOf l h)))
        | _ => .error .truncated
      else .ok (.pfx (prefixOf w0) s none)

/-- Decode an instruction whose opcode is assigned and is no PFX: read the fields, refuse set bits that no field
assigns (the words are then not the encoding of what was read), and make the checks of decode steps 4 to 6. -/
def decodePlain (o : Opc) (ws : List Word) : Except DecodeError Instr :=
  match splitWords ws with
  | .error e => .error e
  | .ok x =>
    let i := extract o x
    if !(formSpec o).lens.contains (bits x.w0 1 0).toNat then .error .length
    else if !(encode i).isPrefixOf ws then .error .reservedBits
    else match i.illegal with
      | some e => .error e
      | none => .ok i

/-- Decode the words at a PC. A reserved opcode decodes to its own row of the table. -/
def decode (ws : List Word) : Except DecodeError Instr :=
  match ws with
  | [] => .error .truncated
  | w0 :: rest =>
    match opcodeOf (bits w0 9 2).toNat with
    | none => .ok (.reservedOpcode w0)
    | some .pfx => decodePrefix w0 rest
    | some o => decodePlain o ws

/-- Words that word 0 alone asks to be fetched (R65, R90 step 2): for a PFX, its successor's word 0. A reserved opcode
is fetched by its LEN as any other. -/
def wordsOf (w0 : Word) : Nat :=
  if opcodeOf (bits w0 9 2).toNat = some .pfx ∧ (bits w0 1 0).toNat = 0 then 2
  else match (bits w0 1 0).toNat with | 0 => 1 | 1 => 3 | 2 => 3 | _ => 5

/-- Replace the form. -/
def V3.mapForm (g : Form → Form) (f : V3) : V3 := { f with fm := g f.fm }
/-- Replace the form. -/
def CmpForm.mapForm (g : Form → Form) (f : CmpForm) : CmpForm := { f with fm := g f.fm }
/-- Replace the form. -/
def RI8.mapForm (g : Form → Form) (f : RI8) : RI8 := { f with fm := g f.fm }

/-- Replace the form of an instruction that a PFX may precede. -/
def Instr.mapForm (g : Form → Form) : Instr → Instr
  | .mov f => .mov (f.mapForm g)
  | .movl f => .movl (f.mapForm g)
  | .add f => .add (f.mapForm g)
  | .sub f => .sub (f.mapForm g)
  | .mul f => .mul (f.mapForm g)
  | .mulhs f => .mulhs (f.mapForm g)
  | .mulhu f => .mulhu (f.mapForm g)
  | .min f => .min (f.mapForm g)
  | .max f => .max (f.mapForm g)
  | .minu f => .minu (f.mapForm g)
  | .maxu f => .maxu (f.mapForm g)
  | .and f => .and (f.mapForm g)
  | .or f => .or (f.mapForm g)
  | .xor f => .xor (f.mapForm g)
  | .andn f => .andn (f.mapForm g)
  | .shl f => .shl (f.mapForm g)
  | .shr f => .shr (f.mapForm g)
  | .sar f => .sar (f.mapForm g)
  | .rotl f => .rotl (f.mapForm g)
  | .fshl f => .fshl (f.mapForm g)
  | .popc f => .popc (f.mapForm g)
  | .clz f => .clz (f.mapForm g)
  | .brev f => .brev (f.mapForm g)
  | .bfi f => .bfi (f.mapForm g)
  | .ptov f => .ptov (f.mapForm g)
  | .vtop f => .vtop (f.mapForm g)
  | .rng f => .rng (f.mapForm g)
  | .cyc f => .cyc (f.mapForm g)
  | .divu f => .divu (f.mapForm g)
  | .remu f => .remu (f.mapForm g)
  | .fadd f => .fadd (f.mapForm g)
  | .fsub f => .fsub (f.mapForm g)
  | .fmul f => .fmul (f.mapForm g)
  | .ffma f => .ffma (f.mapForm g)
  | .fmin f => .fmin (f.mapForm g)
  | .fmax f => .fmax (f.mapForm g)
  | .frnd f => .frnd (f.mapForm g)
  | .fclass f => .fclass (f.mapForm g)
  | .dadd f => .dadd (f.mapForm g)
  | .dmul f => .dmul (f.mapForm g)
  | .dfma f => .dfma (f.mapForm g)
  | .fscl f => .fscl (f.mapForm g)
  | .fdiv f => .fdiv (f.mapForm g)
  | .hadd2 f bf => .hadd2 (f.mapForm g) bf
  | .hmul2 f bf => .hmul2 (f.mapForm g) bf
  | .hfma2 f bf => .hfma2 (f.mapForm g) bf
  | .hmax2 f bf => .hmax2 (f.mapForm g) bf
  | .hmin2 f bf => .hmin2 (f.mapForm g) bf
  | .pack2 f bf => .pack2 (f.mapForm g) bf
  | .bfe f sx => .bfe (f.mapForm g) sx
  | .lea f zx sh => .lea (f.mapForm g) zx sh
  | .cmp f => .cmp (f.mapForm g)
  | .cmpu f => .cmpu (f.mapForm g)
  | .fcmp f => .fcmp (f.mapForm g)
  | .fcvt f => .fcvt (f.mapForm g)
  | .fsf f => .fsf (f.mapForm g)
  | .unpk2 f => .unpk2 (f.mapForm g)
  | .dcvt f => .dcvt (f.mapForm g)
  | .sread f kd => .sread (f.mapForm g) kd
  | .plop l pb pa pd fm => .plop l pb pa pd (g fm)
  | i => i

/-- The instruction that a PFX pair executes (R87): the successor read in its base form, with the fields of the PFX as
its modifiers; none where a check of steps 4 to 6 fails. -/
def prefixedInstr (p : Prefix) (w : Word) (lit : Option Dword) : Option Instr :=
  if !prefixEligible w then none
  else
    match opcodeOf (bits w 9 2).toNat with
    | none => none
    | some o =>
      let i := extract o { w0 := w, ext := none, lit }
      if (encode i).head? ≠ some w then none
      else
        let j := i.mapForm (fun f => { f with mods := .pfx p })
        match j.illegal with
        | some _ => none
        | none => some j

/-- The `k`-th 32-bit word of a number, the first at bit 0. -/
def wordAt (w k : Nat) : Word := BitVec.ofNat 32 (w >>> (32 * k))

/-- The instruction that the decoder reads from an instruction whose table bits are `w`, the bits above `nbits` zero:
five words, the longest instruction. -/
def decodeTableWord (nbits w : Nat) : Option Instr :=
  let v := w % 2 ^ nbits
  match decode [wordAt v 0, wordAt v 1, wordAt v 2, wordAt v 3, wordAt v 4] with
  | .ok i => some i
  | .error _ => none

end Sys2Proof
end

