-- ==== Sys2Proof/Config.lean ====
section
/-! DEFINITION. The values that the manual leaves open, as constants without a body: nothing can be proved of one
that its type does not say. Each is named in a log entry. -/

namespace Sys2Proof.Config

/-- Cycles that pass between two reads of a counter, less one (R23, R169; entry 4). -/
opaque elapsed : Nat → BitVec 64

/-- The raw result of special function `fn` on the bits of x (R151; entry 10). -/
opaque fsf : Nat → BitVec 32 → BitVec 32

/-- The payload tokens of a block's encoding, as the part chooses them (R388; entry 11). -/
opaque encodeBlock : List (BitVec 8) → List (BitVec 8)

/-- The handle that a new edge takes, by context, graph, endpoints, how many edges have joined them, and a try (R318, R335;
entry 12). -/
opaque handle : Nat → Nat → Nat → Nat → Nat → Nat → BitVec 64

/-- What a graph agent reads of another package's memory for its copies (R331; entry 25): a byte by a fresh count and its
address, or a refusal. -/
opaque elsewhere : Nat → Nat → Option (BitVec 8)

/-- Has a hedge cores on a die of another package (R367)? By package, die and hedge (entry 29). -/
opaque hedgeThere : Nat → Nat → Nat → Bool

/-- What the origin of a guest from another package holds and no message brings: by the guest's stand-in workgroup and what is
asked (R167, R372; entry 26). -/
opaque origin : Nat → Nat → BitVec 64

/-- The region page that a graph operation needs and finds not present, if any: the layout is the agent's own
(R333, R339; entry 13). By a fresh count, 0 in deterministic mode (R318), the context, the graph and the vertex. -/
opaque graphPage : Nat → Nat → Nat → Nat → Option Nat

/-- Does an operation need more store than the agent has free (R340; entry 13)? By count, graph, vertex and bytes held. -/
opaque graphFull : Nat → Nat → Nat → Nat → Bool

/-- The guest core among those free that a Wicket port takes (R366; entry 9). -/
opaque guestCore : Nat → Nat

/-- The bytes of a saved workgroup in the save area (R322; entry 20): the layout is not given. -/
opaque saveSize : Nat → Nat
/-- A byte of a saved workgroup's image, by a fresh count and its place (entry 20). -/
opaque saveByte : Nat → Nat → BitVec 8

/-- What another package holds and no message of this model brings; the argument is a fresh count (entries 21 and 29). -/
opaque free64 : Nat → BitVec 64

/-- The board power in watts that the management complex measures at a sample (R439): no sensor entry gives it (entry 38). -/
opaque boardPower : Nat → Nat

/-- DETAIL of an event log entry from its code and the values that R440 names: their layout is not given (entry 22). -/
opaque logDetail : Nat → List Nat → BitVec 128

/-- What the part does of itself at a moment that no rule fixes: a kind, which store, line or context, where, and an address
(R191, R225, R232, R234; entries 3 and 14). -/
opaque unseen : Nat → Nat × Nat × Nat × Nat

/-- Have the participants of a POD gang on other packages arrived at a barrier (R15, R257; entry 2)? -/
opaque podArrived : Nat → Bool

/-- A soft error that the part corrects at a moment that no rule fixes: its unit, die and address (R443; entry 68). -/
opaque corrected : Nat → Option (Nat × Nat × Nat)

/-- Are the members of a POD gang on other packages bound (R36; entry 2)? -/
opaque podBound : Nat → Bool

/-- What a thread that comes home from another package brings beyond its continuation, by a fresh count and what is asked (R375,
R376; entry 29). -/
opaque returned : Nat → Nat → BitVec 64

/-- Has another thread of the origin written a scratchpad byte that a guest of another package stored (R372; entry 29)? -/
opaque originWrote : Nat → Bool

/-- The CRC-64 of a flit (R427): the polynomial is not given (entry 66). -/
opaque crc64 : List (BitVec 8) → BitVec 64

/-- Has the host enabled PASID in a function (R423)? It does so in the configuration space, whose layout is not given (entry 67). -/
opaque pasidOn : Nat → Bool

/-- The carried set and HOPS as DBGWIN shows them, and a write of that word: the layout is not given (entry 23). -/
opaque dbgCarry : Nat → Nat → Nat → Nat → Nat → BitVec 64
opaque dbgUncarry : BitVec 64 → Nat × Nat × Nat × Nat × Nat

end Sys2Proof.Config
end

