-- ==== Sys2Proof/Machine/State.lean ====
section
/-! DEFINITION. The state of one Kamnak package as plain data: every piece of state that the manual names, the values
after reset, and the reasons why a step can stop. -/

namespace Sys2Proof.Machine

/-! ## Memory -/

/-- Bytes by address: addresses strictly rising and no zero byte listed, so that equal contents are equal lists. An
address that is not listed reads as zero (R414: a backed frame reads as zero; entries 6 to 8). -/
abbrev Memory := List Host.Cell

/-- A Vector of registers. -/
abbrev VRegs := Vector Word 128
/-- A bank of uniform registers. -/
abbrev KRegs := Vector Dword 64

/-! ## Threads -/

/-- A thread's name: its workgroup and TIDX (R31); the access slice has TIDX 0xFFFF (R59). -/
structure Key where
  wg : Nat
  tidx : Nat
  deriving DecidableEq, Repr

/-- What the fault that a thread takes reports (R300, R304). -/
structure Raise where
  code : Byte
  /-- SPACE and ADDR of the record. -/
  space : Byte := 0
  addr : BitVec 128 := 0
  /-- The access size in AUX, for a resolvable fault of a memory access. -/
  size : Nat := 0
  /-- ARG of TRAPCAUSE. -/
  arg : BitVec 16 := 0
  /-- EPC, when it is not the PC of the record. -/
  epc : Option Dword := none
  /-- PC and word 0 of the record, when they are not those of the instruction being executed (R195, R394). -/
  site : Option (Dword × Word) := none
  /-- The held write behind a late 0x0B (R394). -/
  held : Option Nat := none
  /-- A SYSC: resolvable, and RESUME continues after the instruction (R314). -/
  sysc : Option Dword := none
  deriving DecidableEq, Repr

/-- Why a thread is parked (R303, R304, R314, R325). -/
inductive ParkKind where
  /-- A resolvable fault: RESUME files the thread at its PC. -/
  | resolve
  /-- A SYSC: RESUME continues at the PC given. -/
  | sysc (next : Dword)
  /-- Held for the debugger: RESUME continues at EPC. -/
  | debug (epc : Dword)
  /-- A held write given up at its deadline: RESUME attempts it again (R394). -/
  | held (id : Nat)
  /-- A trapping fault whose record still waits for room: it is delivered after the write (R304). -/
  | trap
  /-- For good. -/
  | forever
  deriving DecidableEq, Repr

/-- A parked thread: its fault and, once its record is written, the record's SEQ (R302). -/
structure Park where
  kind : ParkKind
  fault : Raise
  /-- The first 60 bytes of its record, for FREC (R304). -/
  body : List Byte
  seq : Option Word
  deriving DecidableEq, Repr

/-- A condition that a gate waits for (R241, R251, R253, R258, R274, R281, R349). -/
inductive Gate where
  | queueRoom (core q : Nat)
  | tilesReady (ts : List Nat)
  | notDraining (t : Nat)
  | fifoFree
  | noXlt
  | unused (slots accs : List Nat)
  /-- The turns of threads of a lower TIDX, at the instruction at this PC (R256, R274). -/
  | turn (keys : List Key) (pc : Dword)
  deriving DecidableEq, Repr

/-- A name of a barrier: scope, the workgroup or gang that owns it, the instance of the scope, and the id (R37). -/
structure BarKey where
  scope : Nat
  owner : Nat × Nat × Nat
  inst : Nat
  id : Nat
  deriving DecidableEq, Repr

/-- What a blocked thread waits for (R49). -/
inductive Wait where
  /-- Arrived at a cross-thread instruction with this mask, as an active member or not (R50). -/
  | team (op : Instr) (mask : Word) (active : Bool)
  /-- BAR and BARW: a generation of a barrier; then the thread continues at `next` (R257). -/
  | barrier (b : BarKey) (gen : Nat) (next : Dword)
  /-- TWAIT: READY, or the phase given (R260); then `next`. -/
  | tile (t : Nat) (phase : Option Bool) (next : Dword)
  /-- A gate: the instruction is issued again once it holds. -/
  | gate (g : Gate)
  /-- QWAIT (R252). -/
  | queue (q n : Nat) (next : Dword)
  /-- QFENCE and MWAIT: the operations that must have completed (R252, R284). -/
  | ops (ids : List Nat) (next : Dword)
  /-- Arrived at a ROLE (R112). -/
  | role (rid : Nat) (ent : Bool) (pd : PReg) (next : Dword)
  /-- A pending OCLAIM (R280). -/
  | oclaim (req : Nat)
  /-- YIELD (R109). -/
  | yield (next : Dword)
  /-- SINTER or SDIFF: the operation on gq (R349). -/
  | stream (op : Nat)
  deriving DecidableEq, Repr

/-- What a thread in a data wait waits for (R49): no save-safe state. -/
inductive DataWait where
  /-- The data of a tagged load (R40). -/
  | load
  /-- A graph operation performed at its home on another die (R350): the instruction, and the group that issued it, whose
  later threads wait behind it (R337). -/
  | graph (i : Instr) (group : Nat)
  /-- A transaction with another package (R430); `alone`: the thread goes on as soon as its own has come, as after a
  tagged load (R40), and not with the other threads of its group. -/
  | txn (tag : Dword) (alone : Bool)
  /-- The words of an instruction, from another package (R66, R425). -/
  | fetch (tag : Dword)
  /-- Its part of the group's instruction is done, and other threads of the group wait for a transaction (R40). -/
  | mates
  /-- A held write, at the space point of a thread of the group with this id (R395). -/
  | held (id group : Nat)
  /-- A k register that a KLD of another package has still to write (R61): bank, register, and the group that waits. -/
  | kdata (slice : Bool) (k group : Nat)
  /-- A guest slot on another die (R367). -/
  | slot (die : Nat)
  /-- TLBI: queued operations, held writes and transactions that were translated before it, and the group (R315). -/
  | flight (ids : List Nat) (tags : List Dword) (group : Nat)
  deriving DecidableEq, Repr

/-- The scheduling state of a thread (R42, R49, R303, R366). -/
inductive Status where
  /-- In a ready issue group. -/
  | ready
  /-- Filed in a bin or in the overflow queue. -/
  | filed
  | data (w : DataWait)
  | blocked (w : Wait)
  | parked (p : Park)
  /-- On the way to another core; `done` is the PC of the GO or HOME that this completes (R326). -/
  | transit (pkg core : Nat) (done : Option Dword)
  /-- On another package. -/
  | gone
  | exited
  /-- Exited on a guest core; its origin has not been notified (R374). -/
  | exiting
  deriving DecidableEq, Repr

/-- A guest's place and its snapshot of k registers (R365, R370). -/
structure Away where
  core : Nat
  pkg : Nat
  snap : List Dword
  deriving DecidableEq, Repr

/-- A late fault that waits for its point (R195, R395, R453): the access's site and destinations. -/
structure Late where
  fault : Raise
  /-- First destination register and how many, and a predicate destination. -/
  dest : Nat × Nat
  pd : Option PReg
  /-- A k destination, of a KLD: then one record serves the threads of the group (R301). -/
  kd : Option Nat := none
  /-- A cursor destination, of a CREST (R360). -/
  cd : Option Nat := none
  deriving DecidableEq, Repr

/-- A tagged load whose data has not been written (R40). -/
structure LoadPending where
  /-- The issue group that issued it. -/
  group : Nat
  dest : Nat
  data : List Word
  deriving DecidableEq, Repr

/-- A thread, or an access slice (R29, R58, R306, R363). -/
structure Thread where
  wg : Nat
  tidx : Nat
  pc : Dword
  v : VRegs
  p : BitVec 16
  cur : Vector (BitVec 128) 8
  /-- Call window, oldest entry first (R213). -/
  win : List Dword
  stkbase : Dword
  stklim : Dword
  stktop : Dword
  trapvec : Dword
  trapcause : Dword
  epc : Dword
  srkey0 : Word
  srkey1 : Word
  srctr0 : Word
  srctr1 : Word
  hnd : Bool
  frec : BitVec 512
  tag : BitVec 4
  /-- The tag of the REFORM at which a debugger holds the thread: it is filed with it (R44, R326). -/
  ftag : BitVec 4
  vb : Nat
  vn : Nat
  ub : Nat
  un : Nat
  hops : Nat
  away : Option Away
  /-- The shutter of its origin recalls it (R376). -/
  recalled : Bool
  status : Status
  loads : List LoadPending
  late : List Late
  /-- Word 0 of the instruction at which it last began to wait. -/
  insn : Word
  /-- Set while it waits at a gate, or issues its instruction again after one: the bytes read before the wait. -/
  seen : Option (List Byte)
  /-- Barriers at which the thread has arrived by BARA and not yet waited, with the generation (R257). -/
  arrived : List (BarKey × Nat)
  /-- It takes the branch, the call or the return that its group executes (R40, R218). -/
  took : Bool
  /-- The fault of its instruction, while others of its group wait (R301). -/
  pend : Option Raise
  /-- Writes of DBGWIN that RESUME will take up (R420): offset and value, oldest first. -/
  dbg : List (Nat × Dword)
  deriving DecidableEq, Repr

/-! ## Workgroups -/

/-- Tile states (R239). -/
inductive TileState where
  | empty | filling | ready | draining
  deriving DecidableEq, Repr

/-- What a tile covers (R239). -/
inductive TileKind where
  | spad | slots | fifo
  deriving DecidableEq, Repr

/-- A tile table entry (R239). -/
structure Tile where
  oor : Nat
  arrived : Nat
  claimed : Nat
  expected : Nat
  phase : Bool
  state : TileState
  err : Nat
  kind : TileKind
  size : Nat
  base : Nat
  deriving DecidableEq, Repr

/-- A scale packet of a FIFO tile, in the order of completion (R271). -/
structure Packet where
  tile : Nat
  tag : BitVec 16
  bytes : List Byte
  /-- The matrix operation that reserved it. -/
  reserved : Option Nat
  deriving DecidableEq, Repr

/-- A role of the kernel (R53, R408). -/
structure RoleDesc where
  regs : Nat
  cls : Nat
  entry : Nat
  deriving DecidableEq, Repr

/-- A kernel descriptor (R408). -/
structure Kernel where
  code : Dword
  spad : Nat
  age : Nat
  nroles : Nat
  det : Bool
  slice : Bool
  tiles : Nat
  roles : List RoleDesc
  sentry : Nat
  gang : Nat
  hops : Nat
  gsize : Nat
  stack : Dword
  stkz : Dword
  pmask : Dword
  deriving DecidableEq, Repr

/-- A workgroup that is bound to a core (R32), or the stand-in for the origin of a guest from another package. -/
structure Workgroup where
  id : Nat
  core : Nat
  slot : Nat
  ctxn : Nat
  launch : Word
  seq : Nat
  gang : Nat
  wgx : Word
  wgy : Word
  wgz : Word
  nwgx : Word
  nwgy : Word
  nwgz : Word
  nthr : Nat
  kernel : Kernel
  role : Nat
  k : KRegs
  /-- The slice's own bank (R58). -/
  ks : KRegs
  spad : Memory
  spadSize : Nat
  /-- Bytes of its scratchpad with an uncorrectable error (R443). -/
  spadErr : List Nat
  tiles : List Tile
  xlt : List (BitVec 16)
  packets : List Packet
  mmas : Nat
  sstepEn : Bool
  sstepFrz : Bool
  /-- Its threads have been filed: the whole gang is bound (R36). -/
  started : Bool
  frozen : Bool
  /-- Collectives that it has issued, per GID (R262). -/
  colls : List Nat
  /-- The package that owns it, when it is the stand-in for a guest's origin. -/
  foreign : Option Nat
  /-- Bytes of the origin's scratchpad that guests here have stored, the newest first (R372). -/
  own : List (Nat × Byte)
  deriving DecidableEq, Repr

/-! ## Issue -/

/-- A ready issue group (R39): its threads, ascending, and whether it is overdue (R45). -/
structure Group where
  id : Nat
  core : Nat
  threads : List Key
  overdue : Bool
  deriving DecidableEq, Repr

/-- A bin (R43): its threads in the order of filing, and the tag of a tagged REFORM (R44). -/
structure Bin where
  id : Nat
  core : Nat
  wg : Nat
  pc : Dword
  threads : List Key
  tag : BitVec 4
  deriving DecidableEq, Repr

/-- A thread in a core's overflow queue (R43). -/
structure Overflow where
  core : Nat
  key : Key
  pc : Dword
  tag : BitVec 4
  deriving DecidableEq, Repr

/-- The issue group at execution: its id, where it runs, its threads in ascending TIDX, and word 0 of its instruction
(the prefixed instruction's word after a PFX, R300). -/
structure Issue where
  id : Nat
  core : Nat
  pkg : Nat
  keys : List Key
  insn : Word
  deriving DecidableEq, Repr

/-- A group of which some threads wait for a transaction with another package (R40): those, and the others, which have
executed the instruction. `faulty` are those that it has faulted in: their records stand together (R301). -/
structure Join where
  core : Nat
  waiting : List Key
  mates : List Key
  faulty : List Key
  deriving DecidableEq, Repr

/-- A KLD whose data another package has still to send (R61): its bank and register, the threads that issued it, and its
address, from the sources at its issue. -/
structure KPending where
  wg : Nat
  slice : Bool
  k : Nat
  keys : List Key
  ea : Dword
  deriving DecidableEq, Repr

/-! ## Engines -/

/-- A place of bytes that an engine reads or writes (R184 to R186, R247, R397). -/
inductive Loc where
  | main (pa : Nat)
  /-- Main memory of another die, read on the ROD path (R184). -/
  | rod (pa : Nat)
  /-- Host memory as a context reaches it (R423). -/
  | host (ctxn pa : Nat)
  | remote (pkg pa : Nat)
  | spad (off : Nat)
  | wst (die off : Nat)
  | slot (off : Nat)
  | fifo
  /-- The RAW data and metadata windows of local frames (R397). -/
  | rawData (pa : Nat)
  | rawMeta (pa : Nat)
  /-- A device register page (R401). -/
  | reg (off : Nat)
  /-- Bytes that a response has brought. -/
  | lit (data : List Byte)
  deriving DecidableEq, Repr

/-- One element of a copy (R248): its source, or padding, or none where it is skipped; half selects one nibble. -/
structure Move where
  src : Option Loc
  pad : Nat
  dst : Option Loc
  size : Nat
  srcHalf : Option Bool
  dstHalf : Option Bool
  deriving DecidableEq, Repr

/-- A scale operand of a matrix operation: its packet's bytes and block (R272). -/
structure ScaleRef where
  bytes : List Byte
  blk : Nat
  deriving DecidableEq, Repr

/-- The parameters that MMA and MMAS capture at issue (R273, R274, R293). -/
structure MmaOp where
  fmtA : Nat
  fmtB : Nat
  aslot : Nat
  bslot : Nat
  atile : Nat
  btile : Nat
  acc : Nat
  ovw : Bool
  kch : Nat
  scaleA : Option ScaleRef
  scaleB : Option ScaleRef
  stile : Option Nat
  ctile : Nat
  cbA : List (BitVec 16)
  cbB : List (BitVec 16)
  /-- MMAS: the strip ROW0 and the captured keep-masks (R293, R295). -/
  sparse : Option (Nat × List Byte)
  deriving DecidableEq, Repr

/-- What a queued operation does. -/
inductive OpBody where
  | copy (moves : List Move) (xlt : Option (List (BitVec 16))) (dtile ctile : Nat) (out scl : Bool) (stag : BitVec 16)
      (bytes oor : Nat)
  | mma (m : MmaOp)
  | accz (atl : Nat)
  | accld (atl tile doff : Nat)
  | accst (atl tile doff : Nat)
  | acccvt (atl tile doff : Nat) (src : Bool) (fmt : BitVec 4) (dscl : BitVec 5) (clamp : BitVec 2) (rm : BitVec 3)
      (key0 key1 ctr0 ctr1 : Word)
  /-- SINTER and SDIFF: cursors, whether LB holds, the bound, OUT and the destination pair (R347). -/
  | stream (diff : Bool) (ca cb : Nat) (lb : Option Dword) (out : Bool) (d : Nat)
  deriving DecidableEq, Repr

/-- An operation on a queue of a core: q0 to q3, mq (4), gq (5) (R251, R276, R349). -/
structure Op where
  id : Nat
  core : Nat
  q : Nat
  wg : Nat
  issuer : Nat
  started : Bool
  /-- The ERR that its completion will give to its tile (R242). -/
  err : Nat
  body : OpBody
  /-- Nibbles of a copy that have arrived at its tile (R242). -/
  counted : Nat := 0
  deriving DecidableEq, Repr

/-- A pending claim (R55, R268): slots or tiles, the destination and predicate, and the threads that block with it. -/
structure Claim where
  id : Nat
  core : Nat
  wg : Nat
  acc : Bool
  count : Nat
  kd : Bool
  d : Nat
  pd : PReg
  keys : List Key
  next : Dword
  deriving DecidableEq, Repr

/-- A workgroup in the save area (R287, R322): its own state, its threads, its slots and accumulator tiles with their
contents, and its pending claims. -/
structure Saved where
  wg : Workgroup
  threads : List Thread
  slots : List (Nat × List Byte)
  accs : List (Nat × List Byte)
  claims : List Claim
  /-- Its bytes in the save area. -/
  size : Nat
  deriving DecidableEq, Repr

/-- A pending ROLE grow (R55): the workgroup and its target. -/
structure Grow where
  id : Nat
  core : Nat
  wg : Nat
  rid : Nat
  deriving DecidableEq, Repr

/-- A barrier: its generation and the threads arrived at it (R37). -/
structure Barrier where
  key : BarKey
  gen : Nat
  arrived : List Key
  deriving DecidableEq, Repr

/-- The shape of a tensor and its sharding (R243, R245). -/
structure Shape where
  ext : List Nat
  gext : List Nat
  shard : List Nat
  part : List Nat
  deriving DecidableEq, Repr

/-- One participant's part in a collective (R261, R262). Its operation on queue 6 reads the source, and `writes` are
the places of its destination. -/
structure CollPart where
  wg : Nat
  index : Nat
  die : Nat
  op : Nat
  fmt : Nat
  root : Nat
  engine : Nat
  src : Shape
  dst : Shape
  dstFmt : Nat
  writes : List Move
  dstTid : Nat
  cb : List (BitVec 16)
  /-- Its contribution has gone to the other packages. -/
  sent : Bool
  deriving DecidableEq, Repr

/-- A collective in progress: function, launch, gang, GID and sequence, the number of participants, and those of this package
that have issued it. -/
structure Coll where
  id : Nat
  gang : Nat × Nat × Nat
  gid : Nat
  k : Nat
  size : Nat
  parts : List CollPart
  /-- In-fabric contexts taken (R434). -/
  fabric : Bool
  deriving DecidableEq, Repr

/-- What has arrived of a participant on another package (R433). -/
structure CollRx where
  vf : Nat
  gid : Nat
  op : Nat
  part : Nat
  pkg : Nat
  die : Nat
  /-- Elements and partial sums, by element offset. -/
  data : List (Nat × List Byte)
  cells : List (Nat × List (BitVec 256))
  cb : List (BitVec 16)
  done : Bool
  deriving DecidableEq, Repr

/-! ## Cores -/

/-- A core (R16): its loaded context, slot table, holders of operand slots and accumulator tiles, cycle counter. -/
structure Core where
  no : Nat
  loaded : Option Nat
  /-- A reload in progress to this context (R411). -/
  reload : Option Nat
  slots : List (Nat × BindRecord × Nat)
  /-- Binds that wait for the reload. -/
  waiting : List (Nat × BindRecord)
  /-- One above the highest SEQ bound on the core (R410). -/
  seqMax : Nat
  slotHolder : List (Nat × Nat)
  accHolder : List (Nat × Nat)
  cyc : Dword
  /-- Issues since a class below the highest took a turn, and the class that took it (R46). -/
  floor : Nat
  floorCls : Nat
  /-- The affine address engine (R59): the workgroup whose slice issued last, and whether the issue ports had the last
  turn. -/
  sliceLast : Nat
  portLast : Bool
  deriving DecidableEq, Repr

/-! ## Compressed memory -/

/-- What a write does to the bytes at its place (R203 to R205, R208). -/
inductive MemOp where
  | store (data : List Byte)
  | atom (op : Nat) (n : Nat) (d : Dword)
  | cas (n : Nat) (expected new : Dword)
  | cellAdd (fmt : Nat) (v : Dword)
  | cellClear
  | zero (n : Nat)
  /-- A write of one nibble of a byte (R248). -/
  | nibble (hi : Bool) (v : Nat)
  /-- The part of a copy that falls in one block: pieces by offset, each whole bytes or one nibble (R454). -/
  | patch (l : List (Nat × Option Bool × List Byte))
  /-- A RAW write of a block's metadata word, or of granule bytes from an offset of the block (R398). -/
  | setMeta (w : Word)
  | setGran (off : Nat) (data : List Byte)
  deriving DecidableEq, Repr

/-- Where the old value of a held read-modify-write goes. -/
structure RmwDest where
  key : Key
  d : Nat
  n : Nat
  pd : Option PReg
  deriving DecidableEq, Repr

/-- A write held for want of granules (R392): its writer, place and effect. -/
structure Held where
  id : Nat
  vf : Nat
  die : Nat
  by' : Writer
  /-- The threads that wait for it at their space points: those that the writing instruction acted for (R301, R395). -/
  keys : List Key
  pa : Nat
  op : MemOp
  dest : Option RmwDest
  /-- The writing instruction's PC, word 0 and 80-bit address, for the record (R394). -/
  site : Dword × Word × BitVec 128
  /-- Granules needed; 0 while it waits behind a held write to the same block (R393). -/
  need : Nat
  /-- Given up at its deadline; it waits for the driver. -/
  expired : Bool
  deriving DecidableEq, Repr

/-- A store that other agents may not see yet (R225, R234): in the FIFO store queue of the thread or slice `by'`, or, with
none, in the order of its core and no wider. `group` is the issue group of its instruction (R202), and `out` tells that a
release at DIE scope or wider of its thread covers it (R234). -/
structure Queued where
  core : Nat
  by' : Option Key
  vf : Nat
  loc : Loc
  data : List Byte
  group : Nat
  out : Bool
  deriving DecidableEq, Repr

/-- A ROD replica of a 64-byte line in the L2 of a die (R184, R232). -/
structure Replica where
  die : Nat
  line : Nat
  data : List Byte
  deriving DecidableEq, Repr

/-- A block as the memory controller has it while its lines in the L2 are modified (R207, R231): what a RAW read finds. -/
structure Image where
  block : Nat
  word : Word
  granules : List Byte
  deriving DecidableEq, Repr

/-- A cached leaf (R16, R17, R191): of the TLB of a core, or of the shared TLB of a die. The page holds 2^size bytes. -/
structure Cached where
  die : Nat
  core : Option Nat
  ctxn : Nat
  page : Nat
  size : Nat
  entry : Dword
  deriving DecidableEq, Repr

/-- A cached region-bounds entry (R191, R315). -/
structure CachedBounds where
  die : Nat
  ctxn : Nat
  region : Nat
  entry : BitVec 128
  deriving DecidableEq, Repr

/-- A run of backed frames (R414). -/
structure FrameRun where
  first : Nat
  count : Nat
  vf : Nat
  cmp : Bool
  deriving DecidableEq, Repr

/-! ## Contexts and graphs -/

/-- A context descriptor as the front end last read it (R403). -/
structure CtxDesc where
  flags : Dword
  ptroot : Nat
  rbt : Nat
  tit : Nat
  gtab : Nat
  fqbase : Nat
  fqlog : Nat
  save : Nat
  savesz : Nat
  deriving DecidableEq, Repr

/-- A fault record that waits for room in the ring (R302): its first 60 bytes and its threads. -/
structure Record where
  body : List Byte
  keys : List Key
  deriving DecidableEq, Repr

/-- The shutter of a context (R320). -/
inductive Shutter where
  | opened
  | draining
  /-- The drain budget has ended: workgroups freeze and are saved. -/
  | closing
  deriving DecidableEq, Repr

/-- A context (R403). -/
structure Context where
  ctxn : Nat
  desc : Option CtxDesc
  fqseq : Nat
  waiting : List Record
  faulted : Bool
  lost : Bool
  shutter : Shutter
  /-- A clearing by CTXCLR is in progress (R415). -/
  clearing : Bool
  debug : Bool
  deriving DecidableEq, Repr

/-- A graph descriptor and its partition table, as the agents hold them (R329 to R331). -/
structure GraphDesc where
  ctxn : Nat
  /-- The die whose agent holds this copy. -/
  die : Nat
  g : Nat
  directed : Bool
  multi : Bool
  idw : Nat
  vpw : Nat
  epw : Nat
  ranges : Bool
  /-- FIRST, die and package of each part. -/
  parts : List (Nat × Nat × Nat)
  sbase : BitVec 80
  ssize : Nat
  deriving DecidableEq, Repr

/-- A present vertex (R334). -/
structure Vertex where
  ctxn : Nat
  g : Nat
  id : Nat
  props : List Word
  deriving DecidableEq, Repr

/-- An edge (R335, R336). -/
structure Edge where
  ctxn : Nat
  g : Nat
  u : Nat
  v : Nat
  handle : Dword
  props : List Word
  deriving DecidableEq, Repr

/-- A handle that an EINS has issued, with the endpoints that its edge joined (R335, R355). -/
structure Issued where
  ctxn : Nat
  g : Nat
  u : Nat
  v : Nat
  handle : Dword
  deriving DecidableEq, Repr

/-! ## Front ends -/

/-- A command that has started, read from the ring or replayed (R404, R418). -/
structure Command where
  id : Nat
  /-- Its position in the ring or in the log, counted from the first. -/
  idx : Nat
  bytes : List Byte
  replay : Bool
  /-- The status that it will take, as far as it is known (R394, R396, R407). -/
  status : Nat
  /-- What remains of a Copy, or the store of a Signal. -/
  moves : List Move
  /-- Its effects are done, and this STATUS is still to be written (R405). -/
  ended : Option Nat := none
  deriving DecidableEq, Repr

/-- A launch in progress (R404, R407). -/
structure Launch where
  vf : Nat
  no : Word
  ctxn : Nat
  cmd : Nat
  kernel : Kernel
  nthr : Nat
  nwgx : Nat
  nwgy : Nat
  nwgz : Nat
  params : List Dword
  bound : List Nat
  retired : Nat
  /-- Unbound workgroups that CTXCLR or a force-reset has cancelled (R415, R320). -/
  cancelled : Bool
  status : Nat
  deriving DecidableEq, Repr

/-- A virtual function: its register page, front end and hedge (R402, R405, R412, R391). -/
structure Vf where
  no : Nat
  /-- TAIL and HEAD, counted from the first command; the registers show them modulo 2^QLOG. -/
  tail : Nat
  head : Nat
  qbase : Dword
  qlog : Word
  qerr : Bool
  migok : Bool
  rpl : Bool
  ctxbase : Dword
  reply : Dword
  grant : Dword
  brbase : Dword
  brlog : Word
  brcons : Dword
  logbase : Dword
  loglog : Word
  dbgsel : Dword
  dbgsstep : Word
  rplpos : Dword
  rplend : Dword
  /-- The next entry to replay. -/
  rplcur : Nat
  fqcons : Vector Dword 16
  hedge : HedgeRecord
  used : Nat
  reserve : List Nat
  /-- Balloon requests posted, and those that wait for an entry (R455). -/
  brprod : Nat
  brwait : List (List Byte)
  /-- Entries written to the command log, and how many of them the last checkpoint cleared (R416). -/
  logpos : Nat
  logstart : Nat
  cmds : List Command
  /-- Commands taken from the ring so far. -/
  taken : Nat
  nextLaunch : Word
  deriving DecidableEq, Repr

/-! ## Links and management -/

/-- Whose step of SINTER or SDIFF looks at a list on another package (R347, R349): an operation on gq, or a peer's GRAPHOP, by
its package and tag. -/
inductive PeekBy where
  | op (id : Nat)
  | peer (pkg : Nat) (tag : Dword)
  deriving DecidableEq, Repr

/-- What another package has answered to such a look, at cursor a or b. -/
structure Peek where
  who : PeekBy
  second : Bool
  body : FlitBody
  deriving DecidableEq, Repr

/-- What an operation at another package changes at the end of an edge that is homed here (R336, R337). -/
inductive EndChange where
  /-- A new edge with `n` property words; the answer brings its handle. -/
  | insert (u v n : Nat)
  | remove (h : Dword)
  | prop (h : Dword) (i : Nat) (x : Word)
  deriving DecidableEq, Repr

/-- What an outstanding Gnoip transaction serves (R430). -/
inductive TxnBy where
  /-- A thread's access: the response goes to `replies` and the thread takes its instruction up again. -/
  | reply (key : Key)
  /-- The fetch of an instruction word. -/
  | fetch (key : Key) (at' : Nat)
  /-- A step of SINTER or SDIFF, or a look at one of its lists. -/
  | stream (op : Nat)
  | peek (who : PeekBy) (second : Bool)
  /-- A read of a copy, by the place of its move, or a write of an operation. -/
  | engine (op : Nat) (move : Option Nat) (nibs : Nat)
  /-- A write of one nibble of an operation: the read of its aligned word, or the compare and swap from the word given (R248). -/
  | nibble (op pa : Nat) (hi : Bool) (val : Nat) (old : Option Word)
  /-- A RAW read of a copy: the granule or metadata word at an address, for every move that takes bytes of it (R398). -/
  | granule (op pa n : Nat)
  /-- A read of a Copy command, by the place of its move, and of one byte of it where the whole could not be read (R406), or a
  write of it. -/
  | command (vf cmd : Nat) (move byte : Option Nat)
  /-- A SLOTREQ, and the parts of a continuation: of a departure, or of a guest's return home (R432). -/
  | slot (key : Key)
  | cont (key : Key) (home : Bool)
  deriving DecidableEq, Repr

/-- An outstanding transaction of this package. -/
structure Txn where
  tag : Dword
  pkg : Nat
  by' : TxnBy
  /-- Vertices of this package, by context and graph, whose lists or edges an operation at the other package changes, and how
(R337). -/
  ends : List (Nat × Nat × Nat) := []
  change : Option (Nat × Nat × EndChange) := none
  deriving DecidableEq, Repr

/-- A response to a thread's request (R431). -/
structure Reply where
  key : Key
  body : FlitBody
  deriving DecidableEq, Repr

/-- What the device sends out, in order (R422, R426, R430). -/
inductive Out where
  | msix (fn vector : Nat)
  /-- The 256 bytes of a flit that leaves by a port (R427). -/
  | flit (port : Nat) (bytes : List Byte)
  /-- The completion of a host invalidation (R423). -/
  | invalidated (fn page : Nat)
  | readDone (fn : Nat) (data : List Byte)
  | error (fn : Nat)
  deriving DecidableEq, Repr

/-- A continuation whose parts are arriving (R432). -/
structure ContIn where
  spkg : Nat
  tag : Dword
  parts : List (Nat × List Byte)
  /-- The guest core held for it. -/
  core : Option Nat
  deriving DecidableEq, Repr

/-- The physical function and the management complex (R414, R436 to R442). -/
structure Mgmt where
  faddr : Dword
  fcount : Word
  fcmd : Word
  fstat : Word
  /-- The status that a running frame command will leave in FSTAT (R414). -/
  fnext : Word
  mlbase : Dword
  mllog : Word
  mlprod : Dword
  mlcons : Dword
  plim : Word
  fwaddr : Dword
  fwcmd : Word
  fwstat : Word
  sens : Vector Dword 32
  dropped : Nat
  /-- The dies that are throttled, with the cause (R439). -/
  throttled : List (Nat × Nat)
  /-- Staged image and rollback floor, for targets 1 and 2 (R442). -/
  staged : List (Nat × Word)
  floors : List (Nat × Word)
  deriving DecidableEq, Repr

/-- The links (R11, R421, R424, R428). -/
structure Links where
  ucieUp : List Bool
  ideKeys : List (Option (BitVec 256))
  dieUp : List Bool
  portUp : List Bool
  replays : List Nat
  /-- The SEQ of the next flit that leaves by a port, and of the next that may come (R427, R428). -/
  txSeq : List Nat
  rxSeq : List Nat
  deriving DecidableEq, Repr

/-! ## The machine -/

/-- A place with an uncorrectable error (R443): weight store, operand or accumulator memory, tile table, host memory, and the
registers of threads and workgroups (`slice` for the slice's bank). Main memory has its own list, and a scratchpad too. -/
inductive Ecc where
  | wst (a : Nat)
  | slot (a : Nat)
  | acc (a : Nat)
  /-- An entry of a workgroup's tile table. -/
  | tile (wg t : Nat)
  | host (a : Nat)
  | vreg (key : Key) (n : Nat)
  | pred (key : Key) (n : Nat)
  | kreg (wg : Nat) (slice : Bool) (n : Nat)
  deriving DecidableEq, Repr

/-- A host translation as its IOMMU holds it (R423): a page of 4,096 bytes of a function, and of a PASID where the access carries
one, and the host page behind it. -/
structure HostPage where
  fn : Nat
  pasid : Option Nat
  page : Nat
  target : Nat
  deriving DecidableEq, Repr

/-- An event that comes next: its row and, for a Gnoip flit, the flit. -/
structure Event where
  op : Instr
  flit : Option RawFlit
  deriving DecidableEq, Repr

/-- One Kamnak package. -/
structure State where
  /-- Main memory by package physical address (R20): plain frames. -/
  mem : Memory
  /-- Granule bytes of compressible frames, by physical address of the block plus 64 times the granule (R385). -/
  gran : Memory
  /-- Metadata words of blocks with NG above 0 or malformed, by block number (R385). -/
  bmeta : List (Nat × Word)
  hostMem : Memory
  /-- The host's translations; a page that is not listed is its own (R423). -/
  hostMap : List HostPage
  /-- Weight stores: die times 2^29 plus the address (R17). -/
  wst : Memory
  /-- Operand memory: core times 2^20 plus slot times 16,384 plus the byte (R266). -/
  opmem : Memory
  /-- Accumulator memory: core times 2^18 plus tile times 32,768 plus the byte (R266). -/
  accmem : Memory
  /-- Main-memory bytes with an uncorrectable error (R195). -/
  poison : List Nat
  /-- Other places with an uncorrectable error (R443). -/
  ecc : List Ecc
  pkg : Nat
  threads : List Thread
  wgs : List Workgroup
  saved : List Saved
  groups : List Group
  bins : List Bin
  overflow : List Overflow
  cur : Issue
  cores : List Core
  ops : List Op
  claims : List Claim
  grows : List Grow
  bars : List Barrier
  colls : List Coll
  collRx : List CollRx
  dieCyc : Vector Dword 4
  pools : List Nat
  frames : List FrameRun
  held : List Held
  /-- Stores that are not yet performed for every agent, oldest first (R225, R234). -/
  queue : List Queued
  replicas : List Replica
  images : List Image
  tlb : List Cached
  bounds : List CachedBounds
  joins : List Join
  kloads : List KPending
  ctxs : List Context
  graphs : List GraphDesc
  verts : List Vertex
  edges : List Edge
  issued : List Issued
  vfs : List Vf
  launches : List Launch
  mgmt : Mgmt
  links : Links
  txns : List Txn
  replies : List Reply
  conts : List ContIn
  /-- Answers to looks at lists on other packages (R347). -/
  peeks : List Peek
  /-- GRAPHOP requests that wait for a vertex that an operation at another package is changing (R337). -/
  graphq : List Flit
  /-- FLUSH requests, and requests with release, that wait for earlier requests of their hedge (R430, R431). -/
  flushes : List Flit
  /-- Host writes that wait behind a held one of their function, oldest first (R426). -/
  hostq : List (Nat × Nat × List Byte)
  flits : Nat
  out : List Out
  agenda : List Event
  rx : Option RawFlit
  /-- Instruction words read from other packages (R66, R68), by package times 2^52 plus the address. -/
  fetched : List (Nat × Word)
  /-- An event of the device itself comes before the next issue. -/
  turn : Bool
  /-- How many of the device's own events have been taken: the search for the next begins there. -/
  nextDue : Nat
  /-- The next identifier of a workgroup, group, bin, operation, claim or held write. -/
  fresh : Nat
  /-- The next argument of a free value. -/
  freeN : Nat
  deriving DecidableEq, Repr

/-! ## Reasons to stop -/

/-- The manual names no condition that stops the machine: every fault of R298 is taken by a thread, and the machine
goes on. No reason is left. -/
inductive Fault where
  deriving DecidableEq, Repr

/-- Why an instruction has no meaning. -/
inductive Refusal where
  /-- Raised by the dispatcher for an instruction without a meaning. Safe. -/
  | notModelled (mnemonic : String)
  deriving DecidableEq, Repr

/-! ## Reset -/

/-- Management registers after reset (R436, R438). -/
def Mgmt.reset : Mgmt :=
  { faddr := 0, fcount := 0, fcmd := 0, fstat := 0, fnext := 0, mlbase := 0, mllog := 0, mlprod := 0, mlcons := 0,
    plim := 2200, fwaddr := 0, fwcmd := 0, fwstat := 0,
    sens := Vector.ofFn (fun i => if 3 ≤ i.val % 8 ∧ i.val % 8 ≤ 5 then (0xFFFF#64) <<< 32 else 0),
    dropped := 0, throttled := [], staged := [], floors := [(1, 0), (2, 0)] }

/-- The links after reset: all up, no keys. -/
def Links.reset : Links :=
  { ucieUp := [true, true], ideKeys := [none, none], dieUp := List.replicate 4 true,
    portUp := List.replicate 18 true, replays := List.replicate 18 0, txSeq := List.replicate 18 0,
    rxSeq := List.replicate 18 0 }

/-- A hedge record of zeros (entry 16). -/
def hedgeZero : HedgeRecord :=
  { cores := [(0, 0), (0, 0), (0, 0), (0, 0)], cmask := 0, wsbase := 0, wssize := 0, quota := 0, rtgt := 0, toos := 0,
    gwt := 0, rcq := 0, pceil := 0, quant := 0, drain := 0, escal := 0, pkgs := 0 }

/-- A virtual function with every register zero (entry 16). -/
def Vf.zero (no : Nat) : Vf :=
  { no, tail := 0, head := 0, qbase := 0, qlog := 0, qerr := false, migok := false, rpl := false, ctxbase := 0,
    reply := 0, grant := 0, brbase := 0, brlog := 0, brcons := 0, logbase := 0, loglog := 0, dbgsel := 0,
    dbgsstep := 0, rplpos := 0, rplend := 0, rplcur := 0, fqcons := Vector.replicate 16 0, hedge := hedgeZero, used := 0,
    reserve := [0, 0, 0, 0], brprod := 0, brwait := [], logpos := 0, logstart := 0, cmds := [], taken := 0, nextLaunch := 0 }

/-- No issue in progress. -/
def Issue.none : Issue := { id := 0, core := 0, pkg := 0, keys := [], insn := 0 }

/-- The package after reset: no workgroup, no context, memory with nothing listed. Cores, virtual functions and
contexts that are not listed hold their reset values. -/
def State.reset : State :=
  { mem := [], gran := [], bmeta := [], hostMem := [], hostMap := [], wst := [], opmem := [], accmem := [], poison := [],
    ecc := [], pkg := 0,
    threads := [], wgs := [], saved := [], groups := [], bins := [], overflow := [], cur := Issue.none, cores := [],
    ops := [], claims := [], grows := [], bars := [], colls := [], collRx := [], dieCyc := Vector.replicate 4 0,
    pools := List.replicate 4 4294967296, frames := [], held := [], queue := [], replicas := [], images := [], tlb := [],
    bounds := [], joins := [], kloads := [], ctxs := [], graphs := [], verts := [], edges := [],
    issued := [], vfs := [], launches := [], mgmt := Mgmt.reset, links := Links.reset, txns := [], replies := [],
    conts := [], peeks := [], graphq := [], flushes := [], hostq := [],
    flits := 0, out := [], agenda := [], rx := Option.none, fetched := [], turn := false, nextDue := 0, fresh := 0, freeN := 0 }

end Sys2Proof.Machine
end

