-- ==== Sys2Proof/Machine/Memory.lean ====
section
/-! DEFINITION. Bytes: the canonical memory, little-endian values (R6), and the blocks of compressible frames (R385
to R388). -/

namespace Sys2Proof.Machine

/-! ## The canonical memory -/

/-- One byte of a memory. -/
def memGet : Memory → Nat → Byte
  | [], _ => 0
  | (k, b) :: r, a => if a = k then b else memGet r a

/-- Store one byte, keeping the canonical form. -/
def memSet : Memory → Nat → Byte → Memory
  | [], a, v => if v = 0 then [] else [(a, v)]
  | (k, b) :: r, a, v =>
    if a < k then (if v = 0 then (k, b) :: r else (a, v) :: (k, b) :: r)
    else if a = k then (if v = 0 then r else (a, v) :: r)
    else (k, b) :: memSet r a v

/-- Addresses above `lo` rise strictly and no zero byte is listed. -/
def memWfFrom : Option Nat → Memory → Bool
  | _, [] => true
  | lo, (k, b) :: r => (match lo with | none => true | some l => l < k) && b != 0 && memWfFrom (some k) r

/-- The canonical form. -/
def Memory.wf (m : Memory) : Bool := memWfFrom none m

/-- `n` bytes from address `a` up. -/
def memGetN (m : Memory) (a : Nat) : Nat → List Byte
  | 0 => []
  | n + 1 => memGet m a :: memGetN m (a + 1) n

/-- Store bytes from address `a` up. -/
def memSetN (m : Memory) (a : Nat) : List Byte → Memory
  | [] => m
  | b :: r => memSetN (memSet m a b) (a + 1) r

/-- Remove the bytes of a range. -/
def memDrop (m : Memory) (lo n : Nat) : Memory := m.filter (fun c => c.1 < lo || lo + n ≤ c.1)

/-! ## Little-endian values -/

/-- The number that bytes hold, the first lowest (R6). -/
def leNat : List Byte → Nat
  | [] => 0
  | b :: r => b.toNat + 256 * leNat r

/-- The lowest `n` bytes of a number, the lowest first. -/
def natLe : Nat → Nat → List Byte
  | 0, _ => []
  | n + 1, x => BitVec.ofNat 8 x :: natLe n (x / 256)

/-- The field of `n` bytes at an offset of an image. -/
def field (b : List Byte) (off n : Nat) : Nat := leNat ((b.drop off).take n)

/-- All bytes of a range of an image are zero. -/
def zeroAt (b : List Byte) (off n : Nat) : Bool := ((b.drop off).take n).all (· == 0)

/-- Put bytes at an offset of an image. -/
def putAt (b : List Byte) (off : Nat) (x : List Byte) : List Byte := b.take off ++ x ++ b.drop (off + x.length)

/-- The words of a little-endian byte string. -/
def bytesToWords : Nat → List Byte → List Word
  | 0, _ => []
  | n + 1, b => BitVec.ofNat 32 (leNat (b.take 4)) :: bytesToWords n (b.drop 4)

/-- The bytes of words. -/
def wordsToBytes (ws : List Word) : List Byte := ws.flatMap (fun w => natLe 4 w.toNat)

/-! ## Blocks of compressible frames -/

/-- The CRC-32 of IEEE 802.3, one bit (R386). -/
def crcBits : Nat → BitVec 32 → BitVec 32
  | 0, c => c
  | n + 1, c => crcBits n (if c.getLsbD 0 then (c >>> 1) ^^^ 0xEDB88320#32 else c >>> 1)

/-- The CRC-32 register over bytes. -/
def crcBytes (c : BitVec 32) : List Byte → BitVec 32
  | [] => c
  | b :: r => crcBytes (crcBits 8 (c ^^^ b.setWidth 32)) r

/-- The CRC-32 of a byte string (R386). -/
def crc32 (b : List Byte) : BitVec 32 := crcBytes 0xFFFFFFFF#32 b ^^^ 0xFFFFFFFF#32

/-- Copy `n` bytes from `d` positions back, byte by byte; `out` holds the bytes produced, last first (R387). -/
def matchCopy (d : Nat) : Nat → List Byte → List Byte
  | 0, out => out
  | n + 1, out => matchCopy d n ((out.getD (d - 1) 0) :: out)

/-- Expand a payload: `out` holds the bytes produced, last first; `fuel` bounds the tokens (R387). -/
def expandTokens : Nat → List Byte → List Byte → Option (List Byte)
  | 0, _, _ => none
  | fuel + 1, pay, out =>
    if 1024 < out.length then none
    else match pay with
    | [] => none
    | h :: rest =>
      let x := h.toNat
      if x = 0xFF then some out
      else if 0xC0 ≤ x then none
      else if x < 0x40 then
        if rest.length < x + 1 then none
        else expandTokens fuel (rest.drop (x + 1)) ((rest.take (x + 1)).reverse ++ out)
      else if x < 0x80 then
        match rest with
        | lo :: hi :: rest' =>
          let d := lo.toNat + 256 * hi.toNat
          if d = 0 || out.length < d then none
          else expandTokens fuel rest' (matchCopy d (x - 0x3D) out)
        | _ => none
      else expandTokens fuel rest (List.replicate (x - 0x7F) 0 ++ out)

/-- The 1,024 bytes of a METHOD 0x1 block with these granule bytes, if it is not malformed (R386, R387). -/
def expandStream (g : List Byte) : Option (List Byte) :=
  let l := g.length - 4
  match expandTokens (l + 1) (g.take l) [] with
  | none => none
  | some out =>
    if out.length = 1024 && (crc32 out.reverse).toNat == leNat (g.drop l) then some out.reverse else none

/-- Fields of a metadata word (R385). -/
def metaNg (w : Word) : Nat := (bits w 4 0).toNat
/-- METHOD, when the word is a valid pair (R385). -/
def metaValid (w : Word) : Bool :=
  bits w 31 8 == 0
  && (match (bits w 7 5).toNat with
      | 0 => metaNg w == 0 || metaNg w == 16
      | 1 => 1 ≤ metaNg w && metaNg w ≤ 15
      | _ => false)

/-- Expand a block from its metadata word and the bytes of its granules (R385, R387). -/
def expandBlock (w : Word) (granules : List Byte) : Option (List Byte) :=
  if !metaValid w then none
  else match (bits w 7 5).toNat with
    | 0 => if metaNg w == 0 then some (List.replicate 1024 0) else some granules
    | _ => expandStream granules

/-- The encoding of a block's contents: metadata word and granule bytes. An all-zero block takes no granules; another
takes the tokens of `Config.encodeBlock` where they expand to the contents in at most 15 granules, and is stored
verbatim otherwise (R385, R388; entry 11). -/
def encodeContents (b : List Byte) : Word × List Byte :=
  if b.all (· == 0) then (0, [])
  else
    let t := Config.encodeBlock b
    let ng := (t.length + 4 + 63) / 64
    let g := t ++ List.replicate (64 * ng - 4 - t.length) 0 ++ natLe 4 (crc32 b).toNat
    if 1 ≤ ng && ng ≤ 15 && expandStream g == some b then (BitVec.ofNat 32 (0x20 + ng), g)
    else (16, b)

end Sys2Proof.Machine
end

