-- ==== Sys2Proof/Machine/Number.lean ====
section
/-! DEFINITION. Number formats, Round, Clamp, Philox and accumulation cells (R116 to R137). -/

namespace Sys2Proof.Machine

/-- An exact extended real; a finite value is `num / den` with a sign, which a zero keeps (R124 step 2). -/
inductive Num where
  | nan
  | inf (neg : Bool)
  | fin (neg : Bool) (num den : Nat)
  deriving DecidableEq, Repr

/-- A floating-point format (R116): exponent and fraction bits, bias, and whether it has infinities. -/
structure Fmt where
  ebits : Nat
  fbits : Nat
  bias : Nat
  hasInf : Bool
  deriving DecidableEq, Repr

def Fmt.fp64 : Fmt := ⟨11, 52, 1023, true⟩
def Fmt.fp32 : Fmt := ⟨8, 23, 127, true⟩
def Fmt.fp16 : Fmt := ⟨5, 10, 15, true⟩
def Fmt.bf16 : Fmt := ⟨8, 7, 127, true⟩
def Fmt.e4m3 : Fmt := ⟨4, 3, 7, false⟩
def Fmt.e5m2 : Fmt := ⟨5, 2, 15, true⟩

/-- Bits of an encoding, less one: the place of the sign. -/
def Fmt.signPos (f : Fmt) : Nat := f.ebits + f.fbits
/-- The canonical NaN (R116). -/
def Fmt.canon (f : Fmt) : Nat :=
  if f.hasInf then (2 ^ f.ebits - 1) * 2 ^ f.fbits + 2 ^ (f.fbits - 1) else 0x7F
/-- The largest exponent of a finite value. -/
def Fmt.emax (f : Fmt) : Int := if f.hasInf then (2 ^ f.ebits - 2 : Int) - f.bias else (2 ^ f.ebits - 1 : Int) - f.bias
/-- The smallest exponent of a normal value. -/
def Fmt.emin (f : Fmt) : Int := 1 - (f.bias : Int)
/-- The mantissa of the largest finite value. -/
def Fmt.mmax (f : Fmt) : Nat := if f.hasInf then 2 ^ (f.fbits + 1) - 1 else 2 ^ (f.fbits + 1) - 2
/-- The encoding of the largest finite magnitude. -/
def Fmt.maxBits (f : Fmt) : Nat :=
  if f.hasInf then (2 ^ f.ebits - 1) * 2 ^ f.fbits - 1 else 2 ^ (f.ebits + f.fbits) - 2
/-- The encoding of 1. -/
def Fmt.oneBits (f : Fmt) : Nat := f.bias * 2 ^ f.fbits
/-- A sign as a bit of an encoding. -/
def Fmt.sign (f : Fmt) (neg : Bool) : Nat := if neg then 2 ^ f.signPos else 0

/-- `num / den` times 2 to an integer power. -/
def scale2 (num den : Nat) (e : Int) : Nat × Nat :=
  if 0 ≤ e then (num * 2 ^ e.toNat, den) else (num, den * 2 ^ (-e).toNat)

/-- The value of an encoding (R117). -/
def Fmt.decode (f : Fmt) (b : Nat) : Num :=
  let s := b / 2 ^ f.signPos % 2 == 1
  let e := b / 2 ^ f.fbits % 2 ^ f.ebits
  let fr := b % 2 ^ f.fbits
  if !f.hasInf && e == 2 ^ f.ebits - 1 && fr == 2 ^ f.fbits - 1 then .nan
  else if f.hasInf && e == 2 ^ f.ebits - 1 then (if fr == 0 then .inf s else .nan)
  else if e == 0 then
    let r := scale2 fr 1 (1 - (f.bias : Int) - f.fbits)
    .fin s r.1 r.2
  else
    let r := scale2 (2 ^ f.fbits + fr) 1 ((e : Int) - f.bias - f.fbits)
    .fin s r.1 r.2

/-- Floor of the base-2 logarithm of `num / den`, both nonzero. -/
def ilog2 (num den : Nat) : Int :=
  let e : Int := (Nat.log2 num : Int) - Nat.log2 den
  let r := scale2 num den (-e)
  if r.1 < r.2 then e - 1 else e

/-- Does the mode choose the candidate of larger magnitude? The value lies `rem / quo` of the way up from the smaller
one, whose mantissa is `m` (R124 step 4, R127). -/
def roundsUp (rm : BitVec 3) (neg : Bool) (m rem quo : Nat) (r : Word) : Bool :=
  match rm.toNat with
  | 0 => decide (quo < 2 * rem) || (decide (2 * rem = quo) && m % 2 == 1)
  | 1 => false
  | 2 => neg
  | 3 => !neg
  | 4 => decide (quo ≤ 2 * rem)
  | _ => if neg then !decide (r.toNat < (quo - rem) * 4294967296 / quo) else decide (r.toNat < rem * 4294967296 / quo)

/-- A rounded value before it is encoded: infinities of E4M3 still stand (R124 step 5). -/
inductive Rounded where
  | nan
  | inf (neg : Bool)
  | fin (neg : Bool) (mag : Nat)
  deriving DecidableEq, Repr

/-- Round to a floating-point format (R124): the magnitude of a finite result as its encoding. -/
def Fmt.round (f : Fmt) (rm : BitVec 3) (r : Word) : Num → Rounded
  | .nan => .nan
  | .inf s => .inf s
  | .fin s num den =>
    if num == 0 then .fin s 0
    else
      let e := ilog2 num den
      let q : Int := max (min e f.emax) f.emin - f.fbits
      let x := scale2 num den (-q)
      let m := x.1 / x.2
      let rem := x.1 % x.2
      let top : Bool := q == f.emax - f.fbits
      let beyond : Bool := top && (f.mmax + 1 < m || (m == f.mmax + 1 && rem != 0))
      let u :=
        if beyond then
          (match rm.toNat with
           | 1 => f.mmax
           | 2 => if s then f.mmax + 1 else f.mmax
           | 3 => if s then f.mmax else f.mmax + 1
           | _ => f.mmax + 1)
        else if rem == 0 then m
        else if roundsUp rm s m rem x.2 r then m + 1 else m
      if top && f.mmax + 1 ≤ u then .inf s
      else if u < 2 ^ f.fbits then .fin s u
      else .fin s ((q + f.fbits + f.bias).toNat * 2 ^ f.fbits + (u - 2 ^ f.fbits))

/-- Clamp (R78) and encode. -/
def Fmt.clampEncode (f : Fmt) (clamp : BitVec 2) (y : Rounded) : Nat :=
  match clamp.toNat with
  | 0 => (match y with
      | .nan => f.canon
      | .inf s => if f.hasInf then f.sign s + (2 ^ f.ebits - 1) * 2 ^ f.fbits else f.canon
      | .fin s m => f.sign s + m)
  | 3 => (match y with
      | .nan => f.canon
      | .inf s => f.sign s + f.maxBits
      | .fin s m => f.sign s + m)
  | 1 => (match y with
      | .nan => 0
      | .inf s => if s || !f.hasInf then 0 else f.oneBits
      | .fin s m => if s then 0 else min m f.oneBits)
  | _ => (match y with
      | .nan => 0
      | .inf s => if !f.hasInf then 0 else f.sign s + f.oneBits
      | .fin s m => f.sign s + min m f.oneBits)

/-- Round to an integer, before saturation (R125). -/
def roundInt (rm : BitVec 3) (r : Word) (s : Bool) (num den : Nat) : Int :=
  let m := num / den
  let rem := num % den
  let u := if rem == 0 then m else if roundsUp rm s m rem den r then m + 1 else m
  if s then -(u : Int) else u

/-- Saturate to a two's complement integer of `w` bits. -/
def satInt (w : Nat) (x : Int) : Int := max (-(2 ^ (w - 1) : Int)) (min x ((2 ^ (w - 1) : Int) - 1))

/-- Round to an integer format and saturate (R125). -/
def toIntFmt (w : Nat) (rm : BitVec 3) (r : Word) : Num → Int
  | .nan => 0
  | .inf s => if s then -(2 ^ (w - 1) : Int) else (2 ^ (w - 1) : Int) - 1
  | .fin s n d => satInt w (roundInt rm r s n d)

/-- Clamp of an integer result (R78). -/
def clampInt (clamp : BitVec 2) (y : Int) : Int :=
  match clamp.toNat with
  | 1 => min (max y 0) 1
  | 2 => min (max y (-1)) 1
  | _ => y

/-! ## Exact arithmetic on the extended reals (R143) -/

/-- Flip the sign (R77). -/
def Num.neg : Num → Num
  | .nan => .nan
  | .inf s => .inf !s
  | .fin s n d => .fin (!s) n d

/-- Clear the sign (R77). -/
def Num.abs : Num → Num
  | .nan => .nan
  | .inf _ => .inf false
  | .fin _ n d => .fin false n d

/-- An exact integer. -/
def Num.ofInt (x : Int) : Num := .fin (x < 0) x.natAbs 1

/-- Multiply by a power of two (R77, R147). -/
def Num.scale (e : Int) : Num → Num
  | .fin s n d => let r := scale2 n d e; .fin s r.1 r.2
  | x => x

/-- Sum; a zero result follows R124 step 2 and R143. -/
def Num.add (rdn : Bool) : Num → Num → Num
  | .nan, _ => .nan
  | _, .nan => .nan
  | .inf s, .inf t => if s == t then .inf s else .nan
  | .inf s, _ => .inf s
  | _, .inf t => .inf t
  | .fin s n d, .fin t m e =>
    let x : Int := (if s then -1 else 1) * (n * e : Nat)
    let y : Int := (if t then -1 else 1) * (m * d : Nat)
    if x + y ≠ 0 then .fin (x + y < 0) (x + y).natAbs (d * e)
    else if n == 0 && s == t then .fin s 0 1
    else .fin rdn 0 1

/-- Product. -/
def Num.mul : Num → Num → Num
  | .nan, _ => .nan
  | _, .nan => .nan
  | .inf s, .inf t => .inf (s != t)
  | .inf s, .fin t m _ => if m == 0 then .nan else .inf (s != t)
  | .fin s n _, .inf t => if n == 0 then .nan else .inf (s != t)
  | .fin s n d, .fin t m e => .fin (s != t) (n * m) (d * e)

/-- Quotient. -/
def Num.div : Num → Num → Num
  | .nan, _ => .nan
  | _, .nan => .nan
  | .inf _, .inf _ => .nan
  | .inf s, .fin t _ _ => .inf (s != t)
  | .fin s _ _, .inf t => .fin (s != t) 0 1
  | .fin s n d, .fin t m e =>
    if m == 0 then (if n == 0 then .nan else .inf (s != t)) else .fin (s != t) (n * e) (d * m)

/-- Is x below y, both not NaN, −0 and +0 equal (R145)? -/
def Num.lt : Num → Num → Bool
  | .nan, _ => false
  | _, .nan => false
  | .inf s, .inf t => s && !t
  | .inf s, _ => s
  | _, .inf t => !t
  | .fin s n d, .fin t m e => (if s then -1 else 1) * (n * e : Nat) < (if t then -1 else (1 : Int)) * (m * d : Nat)

/-- Equal as reals (R145). -/
def Num.eqv (x y : Num) : Bool := x != .nan && y != .nan && !x.lt y && !y.lt x

/-! ## Philox (R128) -/

/-- High and low word of the product of two words. -/
def mulHiLo (a b : Word) : Word × Word :=
  let p := a.toNat * b.toNat
  (BitVec.ofNat 32 (p / 4294967296), BitVec.ofNat 32 p)

/-- Rounds of Philox-4x32; the key rises before each round but the first. -/
def philoxRounds : Nat → Bool → Word → Word → Word → Word → Word → Word → List Word
  | 0, _, c0, c1, c2, c3, _, _ => [c0, c1, c2, c3]
  | n + 1, first, c0, c1, c2, c3, k0, k1 =>
    let k0' := if first then k0 else k0 + 0x9E3779B9#32
    let k1' := if first then k1 else k1 + 0xBB67AE85#32
    let a := mulHiLo 0xD2511F53#32 c0
    let b := mulHiLo 0xCD9E8D57#32 c2
    philoxRounds n false (b.1 ^^^ c1 ^^^ k0') b.2 (a.1 ^^^ c3 ^^^ k1') a.2 k0' k1'

/-- The four words of Philox-4x32-10. -/
def philox (c0 c1 c2 c3 k0 k1 : Word) : List Word := philoxRounds 10 true c0 c1 c2 c3 k0 k1

/-! ## Formats by selector code (R82) -/

/-- The floating-point format of a selector code. -/
def fpFmt : Nat → Option Fmt
  | 0 => some .fp32
  | 1 => some .fp16
  | 2 => some .bf16
  | 3 => some .e4m3
  | 4 => some .e5m2
  | 8 => some .fp64
  | _ => none

/-- Bits of an element of a format (R82); CB4 counts 4. -/
def fmtBits : Nat → Nat
  | 0 => 32 | 1 => 16 | 2 => 16 | 3 => 8 | 4 => 8 | 5 => 8 | 6 => 32 | 7 => 64 | 8 => 64 | 9 => 4 | _ => 8

/-- The value of an E8M0 scale (R120). -/
def e8m0 (b : Nat) : Num := if b % 256 == 255 then .nan else Num.scale ((b % 256 : Nat) - 127) (.fin false 1 1)

/-- The value of an element of a format; CB4 reads its codebook (R121). -/
def elemValue (fmt : Nat) (cb : List (BitVec 16)) (b : Nat) : Num :=
  match fpFmt fmt with
  | some f => f.decode b
  | none =>
    match fmt with
    | 5 => Num.ofInt (BitVec.ofNat 8 b).toInt
    | 6 => Num.ofInt (BitVec.ofNat 32 b).toInt
    | 7 => Num.ofInt (BitVec.ofNat 64 b).toInt
    | 9 => Fmt.bf16.decode (cb.getD (b % 16) 0).toNat
    | _ => e8m0 b

/-! ## Accumulation cells (R133 to R136) -/

/-- N of a cell. -/
def cellN (c : BitVec 256) : Int := (bits c 255 8).toInt
/-- A cell from N, NV and OV. -/
def cellOf (n : Int) (nv ov : Bool) : BitVec 256 :=
  (BitVec.ofInt 248 n).setWidth 256 <<< 8 ||| (if nv then 2 else 0) ||| (if ov then 1 else 0)

/-- The integer that a finite addend adds: truncated toward zero (R134). -/
def cellAddend (s : Bool) (n d : Nat) : Int :=
  let m : Int := (n * 2 ^ 120 / d : Nat)
  if s then -m else m

/-- CellAdd (R134). -/
def cellAdd (c : BitVec 256) (x : Num) : BitVec 256 :=
  match x with
  | .nan => cellOf (cellN c) true (bit c 0)
  | x =>
    let a : Int := match x with
      | .inf s => if s then -(2 ^ 250 : Int) else 2 ^ 250
      | .fin s n d => cellAddend s n d
      | .nan => 0
    let s := cellN c + a
    if (2 ^ 247 : Int) - 1 < s then cellOf ((2 ^ 247 : Int) - 1) (bit c 1) true
    else if s < -(2 ^ 247 : Int) then cellOf (-(2 ^ 247 : Int)) (bit c 1) true
    else cellOf s (bit c 1) (bit c 0)

/-- The reading of a cell in a format: FP32, BF16, INT64 or FP64 (R136). -/
def cellRead (c : BitVec 256) (fmt : Nat) : Nat :=
  match fpFmt fmt with
  | some f =>
    if bit c 1 then f.canon
    else if bit c 0 then f.clampEncode 0 (.inf (cellN c < 0))
    else f.clampEncode 0 (f.round 0 0 (.fin (cellN c < 0) (cellN c).natAbs (2 ^ 120)))
  | none =>
    if bit c 1 then 0
    else (BitVec.ofInt 64 (satInt 64 (if cellN c < 0 then -((cellN c).natAbs / 2 ^ 120 : Nat) else ((cellN c).natAbs / 2 ^ 120 : Nat)))).toNat

end Sys2Proof.Machine
end

