-- ==== Sys2Proof/Machine/Access.lean ====
section
/-! DEFINITION. Named reads and writes of the parts of the state, physical memory with its compressible frames (R385
to R393), and the checks of a data access (R181 to R194). -/

namespace Sys2Proof.Machine

/-! ## Parts of the state -/

/-- A thread's name. -/
def Thread.key (t : Thread) : Key := ⟨t.wg, t.tidx⟩

/-- The thread of a name. -/
def State.thread (s : State) (k : Key) : Option Thread := s.threads.find? (fun t => t.key == k)

/-- Put a thread back under its name. -/
def State.setThread (s : State) (t : Thread) : State :=
  { s with threads := s.threads.map (fun u => if u.key == t.key then t else u) }

/-- The workgroup of an id. -/
def State.wg (s : State) (id : Nat) : Option Workgroup := s.wgs.find? (fun w => w.id == id)

/-- Put a workgroup back under its id. -/
def State.setWg (s : State) (w : Workgroup) : State :=
  { s with wgs := s.wgs.map (fun u => if u.id == w.id then w else u) }

/-- Change a workgroup. -/
def State.modWg (s : State) (id : Nat) (f : Workgroup → Workgroup) : State :=
  { s with wgs := s.wgs.map (fun u => if u.id == id then f u else u) }

/-- A core that nothing has used. -/
def Core.fresh (no : Nat) : Core :=
  { no, loaded := none, reload := none, slots := [], waiting := [], seqMax := 0, slotHolder := [], accHolder := [],
    cyc := 0, floor := 0, floorCls := 0, sliceLast := 0, portLast := false }

/-- A core. -/
def State.core (s : State) (no : Nat) : Core := (s.cores.find? (fun c => c.no == no)).getD (Core.fresh no)

/-- Put a core back. -/
def State.setCore (s : State) (c : Core) : State :=
  { s with cores :=
      if s.cores.any (fun u => u.no == c.no) then s.cores.map (fun u => if u.no == c.no then c else u)
      else s.cores ++ [c] }

/-- A virtual function, 1 to 64. -/
def State.vf (s : State) (no : Nat) : Vf := (s.vfs.find? (fun v => v.no == no)).getD (Vf.zero no)

/-- Put a virtual function back. -/
def State.setVf (s : State) (v : Vf) : State :=
  { s with vfs :=
      if s.vfs.any (fun u => u.no == v.no) then s.vfs.map (fun u => if u.no == v.no then v else u)
      else s.vfs ++ [v] }

/-- Cores of a hedge on a die (R412). -/
def State.hedgeCores (s : State) (vf die : Nat) : List Nat :=
  let r := (s.vf vf).hedge.cores.getD die (0, 0)
  (List.range (min r.2 64 - r.1)).map (fun i => 64 * die + r.1 + i)

/-- A context that nothing has used. -/
def Context.fresh (ctxn : Nat) : Context :=
  { ctxn, desc := none, fqseq := 0, waiting := [], faulted := false, lost := false, shutter := .opened,
    clearing := false, debug := false }

/-- A context by its number (R403). -/
def State.ctx (s : State) (n : Nat) : Context := (s.ctxs.find? (fun c => c.ctxn == n)).getD (Context.fresh n)

/-- Put a context back. -/
def State.setCtx (s : State) (c : Context) : State :=
  { s with ctxs :=
      if s.ctxs.any (fun u => u.ctxn == c.ctxn) then s.ctxs.map (fun u => if u.ctxn == c.ctxn then c else u)
      else s.ctxs ++ [c] }

/-- The virtual function that owns a context number (R403). -/
def vfOfCtx (ctxn : Nat) : Nat := ctxn / 16 + 1

/-- Change an element of a list of numbers. -/
def listSet (l : List Nat) (i : Nat) (f : Nat → Nat) : List Nat := l.set i (f (l.getD i 0))

/-- A fresh count for a free value. -/
def State.bump (s : State) : State := { s with freeN := s.freeN + 1 }

/-- A fresh identifier. -/
def State.bumpId (s : State) : State := { s with fresh := s.fresh + 1 }

/-- Change a tile entry of a workgroup. -/
def State.modTile (s : State) (wg t : Nat) (f : Tile → Tile) : State :=
  s.modWg wg (fun w => { w with tiles := w.tiles.modify t f })

/-- An entry that becomes READY (R240). -/
def Tile.makeReady (t : Tile) : Tile := { t with state := .ready, phase := !t.phase }

/-- Bytes arrive (R240, R242). -/
def Tile.arrive (t : Tile) (n : Nat) : Tile :=
  let t := { t with arrived := t.arrived + n }
  if t.state == .filling && t.expected ≤ t.arrived then t.makeReady else t

/-- The ERR of a tile or an operation after another event: the newest stands (R242; entry 60). -/
def nextErr (old new : Nat) : Nat := if new == 0 then old else new

/-- Bytes of an operation arrive at a tile, with its ERR (R242). -/
def State.arrive (s : State) (wg tile bytes err : Nat) : State :=
  s.modTile wg tile (fun t => { t.arrive bytes with err := nextErr t.err err })

/-- Put an operation back. -/
def State.setOp (s : State) (o : Op) : State := { s with ops := s.ops.map (fun x => if x.id == o.id then o else x) }

/-- A part of an operation's writes has been performed, skipped or given up: its bytes arrive at the operation's tile, with ERR
(R242). Half a byte waits for the other half. -/
def State.opArrives (s : State) (id nibs err : Nat) : State :=
  match s.ops.find? (fun o => o.id == id) with
  | none => s
  | some o =>
    match o.body with
    | .copy _ _ _ ctile _ _ _ bytes _ =>
      let n := min (2 * bytes) (o.counted + nibs)
      (s.setOp { o with counted := n, err := nextErr o.err err }).arrive o.wg ctile (n / 2 - o.counted / 2) err
    | _ => s.setOp { o with err := nextErr o.err err }

/-- The die of a core (R13). -/
def dieOf (core : Nat) : Nat := core / 64

/-- The core on which a thread executes: its guest core when it is away. -/
def State.coreOf (s : State) (t : Thread) : Nat :=
  match t.away with | some a => a.core | none => ((s.wg t.wg).map (·.core)).getD 0

/-! ## Uncorrectable errors (R443) -/

/-- Does a range of places hold an error? -/
def State.eccAt (s : State) (f : Nat → Ecc) (a n : Nat) : Bool :=
  !s.ecc.isEmpty && (List.range n).any (fun i => s.ecc.contains (f (a + i)))

/-- A write to a range ends its errors. -/
def State.eccClear (s : State) (f : Nat → Ecc) (a n : Nat) : State :=
  { s with ecc := s.ecc.filter (fun e => !((List.range n).any (fun i => e == f (a + i)))) }

/-- Does a range of the scratchpad hold an error? -/
def Workgroup.spadBad (w : Workgroup) (off n : Nat) : Bool := w.spadErr.any (fun a => off ≤ a && a < off + n)

/-- Store bytes in the scratchpad. -/
def Workgroup.spadPut (w : Workgroup) (off : Nat) (b : List Byte) : Workgroup :=
  { w with spad := memSetN w.spad off b, spadErr := w.spadErr.filter (fun a => a < off || off + b.length ≤ a) }

/-! ## The die links (R11, R428) -/

/-- Is the link between two neighbouring dies up? -/
def Links.joined (l : Links) (a b : Nat) : Bool :=
  match min a b, max a b with
  | 0, 1 => l.dieUp.getD 0 false
  | 0, 2 => l.dieUp.getD 1 false
  | 1, 3 => l.dieUp.getD 2 false
  | 2, 3 => l.dieUp.getD 3 false
  | _, _ => false

/-- Is there a way from one die to another over the links that are up? DESIGN CHOICE (entry 53): R12 gives the route, and
no re-routing; the model takes any way of up to three hops over links that are up, and the route is otherwise without effect. -/
def State.reaches (s : State) (a b : Nat) : Bool :=
  a == b || s.links.joined a b || (List.range 4).any (fun c => s.links.joined a c
    && (s.links.joined c b || (List.range 4).any (fun d => s.links.joined c d && s.links.joined d b)))

/-- The die of a Gnoip port (R19): ports 0 to 4 on die 0, 5 to 8 on die 1, 9 to 12 on die 2, 13 to 17 on die 3. -/
def portDie (port : Nat) : Nat := if port < 5 then 0 else if port < 9 then 1 else if port < 13 then 2 else 3

/-- Does a die reach a port whose link is up (R19, R428)? -/
def State.portsFrom (s : State) (die : Nat) : Bool :=
  (List.range 18).any (fun p => s.links.portUp.getD p false && s.reaches die (portDie p))

/-- The port by which a request of a die leaves: the lowest that it reaches. DESIGN CHOICE (entry 66): the manual names none. -/
def State.portFor (s : State) (die : Nat) : Nat :=
  ((List.range 18).find? (fun p => s.links.portUp.getD p false && s.reaches die (portDie p))).getD 0

/-- Does a die reach a host module whose link is up (R19, R421)? Module 0 is on die 0, module 1 on die 1. -/
def State.hostFrom (s : State) (die : Nat) : Bool :=
  (List.range 2).any (fun m => s.links.ucieUp.getD m false && s.reaches die m)

/-! ## Host memory (R422, R423) -/

/-- The function of a host access of a context, and its PASID: the context number where the host has enabled it (R423). -/
def hostAs (ctxn : Nat) : Nat × Option Nat :=
  (vfOfCtx ctxn, if Config.pasidOn (vfOfCtx ctxn) then some ctxn else none)

/-- The host address behind an address that the IOMMU receives for a function (R423). -/
def State.hostPa (s : State) (x : Nat × Option Nat) (pa : Nat) : Nat :=
  match s.hostMap.find? (fun h => h.fn == x.1 && h.pasid == x.2 && h.page == pa / 4096) with
  | some h => 4096 * h.target + pa % 4096
  | none => pa

/-- Bytes of host memory. -/
def State.hostBytes (s : State) (x : Nat × Option Nat) (pa n : Nat) : List Byte :=
  if s.hostMap.isEmpty then memGetN s.hostMem pa n else (List.range n).map (fun i => memGet s.hostMem (s.hostPa x (pa + i)))

/-- Does a range of host memory hold an uncorrectable error? -/
def State.hostBad (s : State) (x : Nat × Option Nat) (pa n : Nat) : Bool :=
  !s.ecc.isEmpty && (List.range n).any (fun i => s.ecc.contains (.host (s.hostPa x (pa + i))))

/-- What a context reads of host memory from a die; none for an error completion (R425). -/
def State.readHost (s : State) (die ctxn pa n : Nat) : Option (List Byte) :=
  if s.hostFrom die && !s.hostBad (hostAs ctxn) pa n then some (s.hostBytes (hostAs ctxn) pa n) else none

/-- Store bytes in host memory. -/
def State.putHost (s : State) (x : Nat × Option Nat) (pa : Nat) (b : List Byte) : State :=
  if s.hostMap.isEmpty then { s.eccClear .host pa b.length with hostMem := memSetN s.hostMem pa b }
  else (List.range b.length).foldl (fun s i =>
    { s.eccClear .host (s.hostPa x (pa + i)) 1 with hostMem := memSet s.hostMem (s.hostPa x (pa + i)) (b.getD i 0) }) s

/-! ## Physical memory -/

/-- The run of backed frames that holds an address. -/
def State.frameOf (s : State) (pa : Nat) : Option FrameRun :=
  s.frames.find? (fun r => r.first ≤ pa / 65536 && pa / 65536 < r.first + r.count)

/-- Is the frame of an address compressible? -/
def State.isCmp (s : State) (pa : Nat) : Bool := match s.frameOf pa with | some r => r.cmp | none => false

/-- The home die of a main-memory address (R21). -/
def homeDie (pa : Nat) : Nat := pa / 2 ^ 39 % 4

/-- The metadata word of a block. -/
def State.metaOf (s : State) (b : Nat) : Word := ((s.bmeta.find? (fun e => e.1 == b)).map (·.2)).getD 0

/-- The granule bytes of a block. -/
def State.granules (s : State) (b : Nat) : List Byte := memGetN s.gran (1024 * b) (64 * min 16 (metaNg (s.metaOf b)))

/-- The expanded contents of a block; none when it is malformed (R385, R396). -/
def State.block (s : State) (b : Nat) : Option (List Byte) := expandBlock (s.metaOf b) (s.granules b)

/-- The contents of consecutive blocks. -/
def State.blocks (s : State) (b : Nat) : Nat → Option (List Byte)
  | 0 => some []
  | n + 1 => (s.block b).bind (fun x => (State.blocks s (b + 1) n).map (x ++ ·))

/-- Does a range hold an uncorrectable error (R195)? -/
def State.poisonAt (s : State) (pa n : Nat) : Bool := s.poison.any (fun a => pa ≤ a && a < pa + n)

/-- `n` bytes within one frame; none where data is uncorrectable or a block malformed (R195, R389). -/
def State.physPiece (s : State) (pa n : Nat) : Option (List Byte) :=
  if s.poisonAt pa n then none
  else if s.isCmp pa then
    (s.blocks (pa / 1024) ((pa % 1024 + n + 1023) / 1024)).map (fun b => (b.drop (pa % 1024)).take n)
  else some (memGetN s.mem pa n)

/-- `n` bytes, the frames that they touch one after another. -/
def State.physFrames (s : State) (pa n : Nat) : Nat → Option (List Byte)
  | 0 => some []
  | fuel + 1 =>
    let k := min n (65536 - pa % 65536)
    if n == 0 then some []
    else (s.physPiece pa k).bind (fun b => (State.physFrames s (pa + k) (n - k) fuel).map (b ++ ·))

/-- `n` bytes at a physical address, each frame in its own form (R195, R389). -/
def State.physRead (s : State) (pa n : Nat) : Option (List Byte) :=
  if pa % 65536 + n ≤ 65536 then s.physPiece pa n else s.physFrames pa n (n / 65536 + 2)

/-- Bytes with unreadable ones taken as zero: for the device's own tables. -/
def State.physNat (s : State) (pa n : Nat) : Nat := leNat ((s.physRead pa n).getD [])

/-- Put a metadata word, keeping the canonical form: block numbers rise, and no zero word is listed. -/
def metaSet : List (Nat × Word) → Nat → Word → List (Nat × Word)
  | [], b, w => if w = 0 then [] else [(b, w)]
  | (k, x) :: r, b, w =>
    if b < k then (if w = 0 then (k, x) :: r else (b, w) :: (k, x) :: r)
    else if b = k then (if w = 0 then r else (b, w) :: r)
    else (k, x) :: metaSet r b w

/-- The canonical form of metadata words. -/
def metaWfFrom : Option Nat → List (Nat × Word) → Bool
  | _, [] => true
  | lo, (k, w) :: r => (match lo with | none => true | some l => l < k) && w != 0 && metaWfFrom (some k) r

/-- Store a block's metadata word and granules. -/
def State.putBlock (s : State) (b : Nat) (w : Word) (g : List Byte) : State :=
  { s with
    bmeta := metaSet s.bmeta b w
    gran := memSetN (memDrop s.gran (1024 * b) 1024) (1024 * b) g }

/-- How many bytes a write touches. -/
def MemOp.len : MemOp → Nat
  | .store d => d.length
  | .atom _ n _ => n
  | .cas n _ _ => n
  | .cellAdd _ _ => 32
  | .cellClear => 32
  | .zero n => n
  | .nibble _ _ => 1
  | .patch _ => 1024
  | .setMeta _ => 4
  | .setGran _ d => d.length

/-- The result of an ATOM operation on values of `n` bytes (R203). -/
def atomResult (op n : Nat) (old d : Nat) : Nat :=
  let w := 8 * n
  let so := (BitVec.ofNat w old).toInt
  let sd := (BitVec.ofNat w d).toInt
  match op with
  | 0 => (old + d) % 2 ^ w
  | 1 => if so ≤ sd then old else d
  | 2 => if so ≥ sd then old else d
  | 3 => min old d
  | 4 => max old d
  | 5 => old &&& d
  | 6 => old ||| d
  | 7 => old ^^^ d
  | _ => d

/-- The value of a cell addend in its format (R134, R205). -/
def addendValue (fmt : Nat) (v : Dword) : Num := elemValue fmt [] v.toNat

/-- A byte with one nibble replaced. -/
def withNibble (hi : Bool) (old v : Nat) : Byte :=
  BitVec.ofNat 8 (if hi then old % 16 + 16 * (v % 16) else old / 16 * 16 + v % 16)

/-- Apply the pieces of a patch in order. -/
def patched (old : List Byte) (l : List (Nat × Option Bool × List Byte)) : List Byte :=
  l.foldl (fun b x => match x.2.1 with
    | some hi => putAt b x.1 [withNibble hi (field b x.1 1) (leNat x.2.2)]
    | none => putAt b x.1 x.2.2) old

/-- The bytes that a write leaves, from the bytes it finds; `none` where it writes nothing (R204). -/
def MemOp.apply (op : MemOp) (old : List Byte) : Option (List Byte) :=
  match op with
  | .store d => some d
  | .atom o n d => some (natLe n (atomResult o n (leNat old) (d.toNat % 2 ^ (8 * n))))
  | .cas n e w => if leNat old == e.toNat % 2 ^ (8 * n) then some (natLe n w.toNat) else none
  | .cellAdd f v => some (natLe 32 (Sys2Proof.Machine.cellAdd (BitVec.ofNat 256 (leNat old)) (addendValue f v)).toNat)
  | .cellClear => some (List.replicate 32 0)
  | .zero n => some (List.replicate n 0)
  | .nibble hi v => some [withNibble hi (leNat old) v]
  | .patch l => some (patched old l)
  | .setMeta _ => some old
  | .setGran _ _ => some old

/-- The ranges, from its place, whose data a write consumes (R195). -/
def MemOp.consumes : MemOp → List (Nat × Nat)
  | .store _ => []
  | .zero _ => []
  | .cellClear => []
  | .setMeta _ => []
  | .setGran _ _ => []
  | .patch l => l.filterMap (fun x => x.2.1.map (fun _ => (x.1, 1)))
  | op => [(0, op.len)]

/-- The ranges, from its place, that a write fills. -/
def MemOp.covers : MemOp → List (Nat × Nat)
  | .setMeta _ => []
  | .setGran _ _ => []
  | .patch l => l.map (fun x => (x.1, x.2.2.length))
  | op => [(0, op.len)]

/-- Does a write consume the bytes that it finds? -/
def MemOp.reads (op : MemOp) : Bool := !op.consumes.isEmpty

/-- Move granules: the block's hedge gains or loses `new - old` of them (R390, R392). -/
def State.account (s : State) (vf die old new : Nat) : State :=
  let v := s.vf vf
  if old ≤ new then
    s.setVf { v with used := v.used + (new - old), reserve := listSet v.reserve die (· - (new - old)) }
  else
    let freed := old - new
    let room := v.hedge.rtgt.toNat - v.reserve.getD die 0
    let s' := s.setVf { v with used := v.used - freed, reserve := listSet v.reserve die (· + min freed room) }
    { s' with pools := listSet s'.pools die (· + (freed - min freed room)) }

/-- The outcome of a write to physical memory. -/
inductive WriteRes where
  /-- Performed, with the bytes that it found. -/
  | done (s : State) (old : List Byte)
  /-- Not performed: the data is uncorrectable or the block malformed (R195, R396). -/
  | bad (s : State)
  /-- It needs this many granules more than it may take now (R392). -/
  | needs (delta : Nat)

/-- New metadata word and granules of a block under a write at `off`; none when the block is malformed and the write does not
cover it, and for a RAW write to a granule at or above NG (R396, R398). A write that stores nothing leaves the block's encoding
(R204). -/
def State.newBlock (s : State) (b off : Nat) (op : MemOp) : Option (List Byte × Word × List Byte) :=
  match op with
  | .setMeta w =>
    let ng := min 16 (metaNg w)
    some ([], w, (s.granules b).take (64 * ng) ++ List.replicate (64 * ng - (s.granules b).length) 0)
  | .setGran o d =>
    if metaNg (s.metaOf b) ≤ o / 64 then none else some ([], s.metaOf b, putAt (s.granules b) o d)
  | op =>
    match s.block b with
    | some x =>
      let old := (x.drop off).take op.len
      (match op.apply old with
       | some n =>
         let e := encodeContents (putAt x off n)
         some (old, e.1, e.2)
       | none => some (old, s.metaOf b, s.granules b))
    | none => match op with
      | .zero 1024 => some ([], 0, [])
      | _ => none

/-- A write over a range ends its uncorrectable errors (R195). -/
def State.heal (s : State) (pa n : Nat) : State := { s with poison := s.poison.filter (fun a => a < pa || pa + n ≤ a) }

/-- The ranges that a write fills hold good data. -/
def State.healOp (s : State) (pa : Nat) (op : MemOp) : State := op.covers.foldl (fun s x => s.heal (pa + x.1) x.2) s

/-- Does a write at a place consume uncorrectable data (R195)? -/
def State.badFor (s : State) (pa : Nat) (op : MemOp) : Bool := op.consumes.any (fun x => s.poisonAt (pa + x.1) x.2)

/-- Remember a block as the memory controller has it, before its lines in the L2 are modified (R207, R231). -/
def State.keepImage (s : State) (b : Nat) : State :=
  if s.images.any (fun i => i.block == b) then s
  else { s with images := s.images ++ [{ block := b, word := s.metaOf b, granules := s.granules b }] }

/-- Does a write go past the L2 to the memory controller? RAW writes do (R398). -/
def MemOp.isRaw : MemOp → Bool
  | .setMeta _ => true
  | .setGran _ _ => true
  | _ => false

/-- Is a thread's write that of an entry of the tensor table, by TIDSET or CBSET, which ends before the thread issues again (R246,
R285)? No other of its stores has as many bytes. -/
def MemOp.whole : MemOp → Bool
  | .store d => 32 ≤ d.length
  | _ => false

/-- The modified lines of a block have been written back (R207). -/
def State.writeBack (s : State) (b : Nat) : State := { s with images := s.images.filter (fun i => i.block != b) }

/-- Put a block's new contents: a RAW write in the memory controller, another in the L2. -/
def State.setBlock (s : State) (vf pa : Nat) (op : MemOp) (w : Word) (g : List Byte) : State :=
  let b := pa / 1024
  let s := if op.isRaw then s.writeBack b else s.keepImage b
  ((s.account vf (homeDie pa) (metaNg (s.metaOf b)) (metaNg w)).putBlock b w g).healOp pa op

/-- Write inside one block of a compressible frame. `now` takes the granules that a grant serves (R390, R392). -/
def State.cmpWrite (s : State) (vf pa : Nat) (op : MemOp) (now : Bool) : WriteRes :=
  if s.badFor pa op then .bad s
  else match s.newBlock (pa / 1024) (pa % 1024) op with
    | none => .bad s
    | some (old, w, g) =>
      let ng := metaNg (s.metaOf (pa / 1024))
      let ng' := metaNg w
      if (op.apply old).isNone then .done s old
      else if ng' ≤ ng || (now && ng' - ng ≤ (s.vf vf).reserve.getD (homeDie pa) 0) then .done (s.setBlock vf pa op w g) old
      else .needs (ng' - ng)

/-- Write inside a plain frame. An operation that takes no data from the place acts on an uncorrectable one too (R195). -/
def State.plainWrite (s : State) (pa : Nat) (op : MemOp) : WriteRes :=
  match op with
  | .zero n => .done ({ s with mem := memDrop s.mem pa n }.heal pa n) []
  | op =>
    if s.badFor pa op then .bad s
    else
      let old := memGetN s.mem pa op.len
      match op.apply old with
      | some n => .done ({ s with mem := memSetN s.mem pa n }.healOp pa op) old
      | none => .done s old

/-- Write inside one block or one plain range. -/
def State.physWrite (s : State) (vf pa : Nat) (op : MemOp) (now : Bool) : WriteRes :=
  if s.isCmp pa || op.isRaw then s.cmpWrite vf pa op now else s.plainWrite pa op

/-- Cut a write at block boundaries (R454). -/
def blockPieces : Nat → Nat → List Byte → List (Nat × List Byte)
  | 0, _, _ => []
  | fuel + 1, pa, b =>
    if b.isEmpty then []
    else
      let n := min b.length (1024 - pa % 1024)
      (pa, b.take n) :: blockPieces fuel (pa + n) (b.drop n)

/-! ## Translation (R188 to R192) -/

/-- A leaf, with the physical address of the byte that was translated. -/
structure Leaf where
  pa : Nat
  pkg : Nat
  region : Nat
  graph : Bool
  host : Bool
  cmp : Bool
  ord : Bool
  x : Bool
  w : Bool
  deriving DecidableEq, Repr

/-- A page-table entry as a bit vector. -/
def State.pte (s : State) (table idx : Nat) : Dword := BitVec.ofNat 64 (s.physNat (table + 8 * idx) 8)

/-- The leaf of an entry whose page holds `2^size` bytes; none where R190 refuses it. -/
def leafOf (e : Dword) (size : Nat) (va : BitVec 80) : Option Leaf :=
  let frame := (bits e 51 16).toNat
  let host := bit e 5
  let ord := bit e 3
  if bits e 63 60 != 0 || frame % 2 ^ (size - 16) != 0 || (host && bits e 59 52 != 0xFF)
      || (ord && (bit e 4 || bit e 6)) then none
  else some
    { pa := frame * 65536 + va.toNat % 2 ^ size, pkg := (bits e 59 52).toNat, region := (bits e 15 8).toNat,
      graph := bit e 6, host, cmp := bit e 4, ord, x := bit e 2, w := bit e 1 }

/-- Walk the levels, each with the place of its index and its leaf size, if it may hold a leaf: the leaf entry and the
size of its page (R188, R190). -/
def State.walkFrom (s : State) (va : BitVec 80) : List (Nat × Option Nat) → Nat → Option (Dword × Nat)
  | [], _ => none
  | (lo, size) :: rest, table =>
    let e := s.pte table (va.toNat / 2 ^ lo % 8192)
    if !bit e 0 then none
    else if bit e 7 then size.map (fun n => (e, n))
    else if rest.isEmpty then none
    else if bits e 63 60 != 0 || bits e 6 1 != 0 || bits e 15 8 != 0 || bits e 59 52 != 0 then none
    else State.walkFrom s va rest ((bits e 51 16).toNat * 65536)

/-- The leaf entry that a walk of the context's page table finds. -/
def State.walkEntry (s : State) (root : Nat) (va : BitVec 80) : Option (Dword × Nat) :=
  s.walkFrom va [(55, none), (42, some 42), (29, some 29), (16, some 16)] root

/-- Walk the context's page table. -/
def State.walk (s : State) (root : Nat) (va : BitVec 80) : Option Leaf :=
  (s.walkEntry root va).bind (fun e => leafOf e.1 e.2 va)

/-- Where an access is translated: on a die, through the TLB of a core or by an agent without one (R16, R17). -/
structure Site where
  die : Nat
  core : Option Nat
  deriving DecidableEq, Repr

/-- A core's place. -/
def atCore (core : Nat) : Site := { die := dieOf core, core := some core }
/-- The place of an agent of a die. -/
def atDie (die : Nat) : Site := { die, core := none }

/-- May a cached leaf serve a translation here? -/
def Cached.serves (c : Cached) (x : Site) (ctxn : Nat) (va : BitVec 80) : Bool :=
  c.ctxn == ctxn && (match c.core with | none => c.die == x.die | some n => x.core == some n)
  && va.toNat / 2 ^ c.size == c.page

/-- The leaf entry of an address: a cached one, or that in memory now (R191). -/
def State.leafEntry (s : State) (x : Site) (ctxn root : Nat) (va : BitVec 80) : Option (Dword × Nat) :=
  match s.tlb.find? (fun c => c.serves x ctxn va) with
  | some c => some (c.entry, c.size)
  | none => s.walkEntry root va

/-- The leaf of an address (R188 to R191). -/
def State.leaf (s : State) (x : Site) (ctxn root : Nat) (va : BitVec 80) : Option Leaf :=
  (s.leafEntry x ctxn root va).bind (fun e => leafOf e.1 e.2 va)

/-- A region-bounds entry in memory (R192). -/
def State.boundsEntry (s : State) (d : CtxDesc) (g : Nat) : BitVec 128 := BitVec.ofNat 128 (s.physNat (d.rbt + 16 * g) 16)

/-- The region-bounds entry that an access uses: a cached one, or that in memory now (R191, R192). -/
def State.boundsOf (s : State) (x : Site) (ctxn : Nat) (d : CtxDesc) (g : Nat) : BitVec 128 :=
  match s.bounds.find? (fun c => c.die == x.die && c.ctxn == ctxn && c.region == g) with
  | some c => c.entry
  | none => s.boundsEntry d g

/-- The region bounds check (R192), for the first and the last byte. -/
def State.regionOk (s : State) (x : Site) (ctxn : Nat) (d : CtxDesc) (va : BitVec 80) (n : Nat) : Bool :=
  let g := (bits va 75 68).toNat
  if g == 0 && bit d.flags 1 then true
  else
    let e := s.boundsOf x ctxn d g
    let a := va.toNat % 2 ^ 68
    bits e 127 116 == 0 && bit e 63 && bits e 62 52 == 0
    && (bits e 51 0).toNat ≤ a / 65536 && (a + n - 1) / 65536 ≤ (bits e 115 64).toNat

/-! ## The checks of an access (R183, R193, R194) -/

/-- What an access needs: its size and alignment, the paths its instruction accepts, whether it is write-type, whether
a ROD or WST address is a permission fault (R183), whether an ORD leaf accepts it (R193), and whether it fetches. -/
structure AccessKind where
  n : Nat
  align : Nat
  paths : List Nat
  write : Bool := false
  strict : Bool := false
  ordOk : Bool := false
  fetch : Bool := false
  deriving DecidableEq, Repr

/-- Where an access lands: its place, and the attributes of its leaf. -/
structure Target where
  loc : Loc
  ord : Bool
  deriving DecidableEq, Repr

/-- The virtual address of a register address (R181). -/
def vaOf (ea : Dword) : BitVec 80 := ((bits ea 63 52).setWidth 80) <<< 68 ||| (bits ea 51 0).setWidth 80

/-- The path of a register address (R181). -/
def eaPath (ea : Dword) : Nat := (bits ea 63 60).toNat

/-- A fault of a data access (R300). -/
def dataFault (code : Byte) (va : BitVec 80) (n : Nat) (fetch : Bool) : Raise :=
  { code, space := if fetch then 2 else 1, addr := va.setWidth 128, size := if code == 1 && !fetch then n else 0 }

/-- First address of the device register space (R20). -/
def regBase : Nat := 0xFFF0000000000

/-- Is a frame backed for a hedge in the form that the leaf says (R384, R414)? -/
def State.frameOk (s : State) (vf pa : Nat) (cmp : Bool) : Bool :=
  match s.frameOf pa with
  | some r => r.vf == vf && r.cmp == cmp
  | none => false

/-- Is a physical address reserved (R20)? -/
def reservedPa (pa : Nat) : Bool := 2 ^ 41 ≤ pa && decide (pa < regBase)

/-- The place behind a leaf after step 9, if the access is permitted there (R20, R193, R384, R401, R414). -/
def State.placeOf (s : State) (ctxn : Nat) (k : AccessKind) (acc : Bool) (l : Leaf) : Option Loc :=
  if l.graph || (k.write && !l.w) || (k.fetch && !l.x) || (acc && l.host) || (l.ord && !k.ordOk) then none
  else if l.host then (if l.cmp then none else some (.host ctxn l.pa))
  else if reservedPa l.pa then none
  else if l.pkg != 0xFF && l.pkg != s.pkg then some (.remote l.pkg l.pa)
  else if regBase ≤ l.pa then (if l.ord then some (.reg (l.pa - regBase)) else none)
  else if l.pa < 2 ^ 41 && s.frameOk (vfOfCtx ctxn) l.pa l.cmp then some (.main l.pa)
  else none

/-- Steps 3 to 9 of R194 on an 80-bit address. `x` is where the access is made. -/
def State.checkVa (s : State) (w : Workgroup) (x : Site) (k : AccessKind) (va : BitVec 80) : Except Raise Target :=
  let path := (bits va 79 76).toNat
  let a := va.toNat % 2 ^ 68
  let vf := vfOfCtx w.ctxn
  let fail (c : Byte) : Except Raise Target := .error (dataFault c va k.n k.fetch)
  if k.fetch && path != 0 then fail 2
  else if 6 ≤ path then fail 4
  else if !k.paths.contains path then
    (if path == 5 then fail 0x16 else if k.strict && (path == 1 || path == 3) then fail 2 else fail 4)
  else if a % k.align != 0 then fail 5
  else if path == 2 then
    (if (bits va 75 68) != 0 || w.spadSize < a + k.n then fail 3 else .ok { loc := .spad a, ord := false })
  else if path == 3 then
    let h := (s.vf vf).hedge
    (if (bits va 75 68) != 0 || h.wssize.toNat * 65536 < a + k.n then fail 3
     else .ok { loc := .wst x.die (h.wsbase.toNat * 65536 + a), ord := false })
  else
    match (s.ctx w.ctxn).desc with
    | none => fail 1
    | some d =>
      if !s.regionOk x w.ctxn d va k.n then fail (if k.fetch then 2 else 3)
      else match s.leaf x w.ctxn d.ptroot va with
        | none => fail 1
        | some l =>
          if l.region != (bits va 75 68).toNat then fail (if k.fetch then 2 else 3)
          else match s.placeOf w.ctxn { k with ordOk := k.ordOk && path == 0 } (path == 4) l with
            | none => fail 2
            | some p => .ok { loc := p, ord := l.ord }

/-- Who a front end is to the checks of R194. -/
def agentWg (ctxn : Nat) : Workgroup :=
  { id := 0, core := 0, slot := 0, ctxn, launch := 0, seq := 0, gang := 0, wgx := 0, wgy := 0, wgz := 0, nwgx := 0
    nwgy := 0, nwgz := 0, nthr := 0
    kernel := { code := 0, spad := 0, age := 0, nroles := 0, det := false, slice := false, tiles := 0, roles := [], sentry := 0
                gang := 0, hops := 0, gsize := 0, stack := 0, stkz := 0, pmask := 0 }
    role := 0, k := Vector.replicate 64 0, ks := Vector.replicate 64 0, spad := [], spadSize := 0, spadErr := [], tiles := [], xlt := []
    packets := [], mmas := 0, sstepEn := false, sstepFrz := false, started := false, frozen := false, colls := []
    foreign := none, own := [] }

/-- R194 on a register address formed from a base (R182): step 2, then the others. -/
def State.checkEa (s : State) (w : Workgroup) (x : Site) (k : AccessKind) (base ea : Dword) : Except Raise Target :=
  if bits ea 63 52 != bits base 63 52 then .error (dataFault 3 (vaOf ea) k.n false)
  else s.checkVa w x k (vaOf ea)

end Sys2Proof.Machine
end

