-- ==== Sys2Proof/Machine/Order.lean ====
section
/-! DEFINITION. What other agents do not see yet: the FIFO store queues of threads and slices and the order of a core
(R222, R225, R226, R234), ROD replicas (R184, R232), modified lines of the L2 (R207, R231), and cached translations
(R191, R315). What becomes visible of itself, and when, is a free value (entry 3, entry 14). -/

namespace Sys2Proof.Machine

/-! ## Store queues -/

/-- Bytes at `a` with those of a store at `x` over them. -/
def layer (a : Nat) (b : List Byte) (x : Nat) (data : List Byte) : List Byte :=
  (List.range b.length).map (fun i => if x ≤ a + i && a + i < x + data.length then data.getD (a + i - x) 0 else b.getD i 0)

/-- Is a queued store in main memory, and where? -/
def Queued.mainAt (q : Queued) : Option Nat := match q.loc with | .main pa => some pa | _ => none

/-- A store enters the queue of its thread or slice (R225). -/
def State.enqueue (s : State) (core : Nat) (k : Key) (vf : Nat) (loc : Loc) (data : List Byte) : State :=
  { s with queue := s.queue ++ [{ core, by' := some k, vf, loc, data, group := s.cur.id, out := false }] }

/-- A store is performed for every agent. -/
def State.perform (s : State) (q : Queued) : State :=
  match q.loc with
  | .main pa => (match s.physWrite q.vf pa (.store q.data) false with | .done s _ => s | _ => s)
  | .spad off => (match q.by' with | some k => s.modWg k.wg (fun w => w.spadPut off q.data) | none => s)
  | _ => s

/-- A store leaves the queue of its thread: a SPAD store is performed, a GEN store enters the order of its core (R225). -/
def State.commit (s : State) (q : Queued) : State :=
  let s := { s with queue := s.queue.erase q }
  match q.mainAt with
  | none => s.perform q
  | some _ => { s with queue := s.queue ++ [{ q with by' := none }] }

/-- The stores in the queue of a thread or slice. -/
def State.queueOf (s : State) (k : Key) : List Queued := s.queue.filter (fun q => q.by' == some k)

/-- The stores in the order of a core. -/
def State.coreOrder (s : State) (core : Nat) : List Queued := s.queue.filter (fun q => q.by'.isNone && q.core == core)

/-- Where a store lies, as a kind of place and an address. -/
def Queued.place (q : Queued) : Nat × Nat :=
  match q.loc with
  | .main pa => (0, pa)
  | .spad off => ((q.by'.map (·.wg)).getD 0 + 1, off)
  | _ => (0, 0)

/-- Do two stores share a byte? -/
def Queued.meets (x y : Queued) : Bool :=
  x.place.1 == y.place.1 && x.place.2 < y.place.2 + y.data.length && y.place.2 < x.place.2 + x.data.length

/-- Must the older store x leave its queue before y: is it of the same queue, or of the same instruction, by a lower TIDX, and to
a byte of y (R202, R225)? -/
def Queued.before (x y : Queued) : Bool :=
  x.core == y.core && x.by'.isSome == y.by'.isSome
  && (x.by' == y.by' || (x.by'.isSome && x.group == y.group && x.meets y))

/-- The stores that go before those that `p` names, and these, oldest first. -/
def ahead (p : Queued → Bool) : List Queued → List Queued
  | [] => []
  | x :: r => if p x || (ahead p r).any x.before then x :: ahead p r else ahead p r

/-- Drain the queue of a thread or slice, in its order, with the stores that come before (R202). -/
def State.drainQueue (s : State) (k : Key) : State := (ahead (fun q => q.by' == some k) s.queue).foldl State.commit s

/-- A release of a thread at DIE scope or wider covers its stores, and those that it has observed on its core (R226, R234). -/
def State.markOut (s : State) (core : Nat) (k : Key) : State :=
  { s with queue := s.queue.map (fun q =>
      if q.by' == some k || (q.by'.isNone && q.core == core) then { q with out := true } else q) }

/-- Perform the stores in the order of a core for every agent. -/
def State.flushCore (s : State) (core : Nat) : State :=
  (s.coreOrder core).foldl (fun s q => State.perform { s with queue := s.queue.erase q } q) s

/-- What an asynchronous operation of a thread must find (R234): its stores in the order of its core, and performed as far as a
release at DIE scope or wider covers them. -/
def State.meetEngine (s : State) (core : Nat) (k : Key) : State :=
  let s := s.drainQueue k
  ((s.coreOrder core).reverse.dropWhile (fun q => !q.out)).reverse.foldl
    (fun s q => State.perform { s with queue := s.queue.erase q } q) s

/-- A release of a thread at a scope wider than its core (R226, R227): its stores, and those that it has observed on its
core, are performed for every agent. -/
def State.release (s : State) (core : Nat) (k : Key) : State := (s.drainQueue k).flushCore core

/-- Every store is performed for every agent. -/
def State.flushAll (s : State) : State :=
  let s := (s.queue.filter (fun q => q.by'.isSome)).foldl State.commit s
  s.queue.foldl (fun s q => State.perform { s with queue := s.queue.erase q } q) s

/-- Main memory as a thread sees it: the order of its core, then its own stores (R202, R225). -/
def State.coreView (s : State) (core : Nat) (k : Key) (pa : Nat) (b : List Byte) : List Byte :=
  (s.coreOrder core ++ s.queueOf k).foldl (fun b q => match q.loc with | .main x => layer pa b x q.data | _ => b) b

/-- The scratchpad as a thread sees it. -/
def State.spadView (s : State) (k : Key) (off : Nat) (b : List Byte) : List Byte :=
  (s.queueOf k).foldl (fun b q => match q.loc with | .spad x => layer off b x q.data | _ => b) b

/-! ## ROD replicas -/

/-- A ROD point (R232): no replica is left on these dies, of a range. -/
def State.dropReplicas (s : State) (dies : List Nat) (pa n : Nat) : State :=
  { s with replicas := s.replicas.filter (fun r => !(dies.contains r.die && pa < 64 * r.line + 64 && 64 * r.line < pa + n)) }

/-- A ROD point for every location. -/
def State.rodPoint (s : State) : State := { s with replicas := [] }

/-- The replica of a line on a die. -/
def State.replica (s : State) (die line : Nat) : Option Replica := s.replicas.find? (fun r => r.die == die && r.line == line)

/-- Bytes of a line homed on another die, as a ROD read on a die finds them: those of its replica, which the read makes
where there is none (R184, R232). The bytes lie in one line; an error in its other bytes makes none (R195). -/
def State.rodRead (s : State) (die pa n : Nat) : Option (State × List Byte) :=
  match s.replica die (pa / 64) with
  | some r => some (s, (r.data.drop (pa % 64)).take n)
  | none => match s.physRead (pa / 64 * 64) 64 with
    | some b => some ({ s with replicas := s.replicas ++ [{ die, line := pa / 64, data := b }] }, (b.drop (pa % 64)).take n)
    | none => (s.physRead pa n).map (fun b => (s, b))

/-! ## Modified lines -/

/-- The metadata word of a block as RAW reads find it (R231, R397). -/
def State.rawWord (s : State) (b : Nat) : Word := ((s.images.find? (fun i => i.block == b)).map (·.word)).getD (s.metaOf b)

/-- The 1,024 granule bytes of a block as RAW reads find them: granules at or above NG read as zero (R231, R397). -/
def State.rawGranules (s : State) (b : Nat) : List Byte :=
  let g := ((s.images.find? (fun i => i.block == b)).map (·.granules)).getD (s.granules b)
  g ++ List.replicate (1024 - g.length) 0

/-- The modified lines of a range are written back (R207). -/
def State.cleanRange (s : State) (pa n : Nat) : State :=
  { s with images := s.images.filter (fun i => !(pa < 1024 * i.block + 1024 && 1024 * i.block < pa + n)) }

/-! ## Cached translations -/

/-- The newest `n` of a list. -/
def newest {α : Type} (n : Nat) (l : List α) : List α := l.drop (l.length - n)

/-- Cache the leaf of an address: 2,048 in the TLB of a core, 32,768 in the shared TLB of a die (R16, R17). -/
def State.cacheLeaf (s : State) (x : Site) (ctxn : Nat) (va : BitVec 80) : State :=
  match (s.ctx ctxn).desc.bind (fun d => s.walkEntry d.ptroot va) with
  | none => s
  | some e =>
    let mine (c : Cached) : Bool := match x.core with | some n => c.core == some n | none => c.core.isNone && c.die == x.die
    let new : Cached := { die := x.die, core := x.core, ctxn, page := va.toNat / 2 ^ e.2, size := e.2, entry := e.1 }
    if s.tlb.any (fun c => mine c && c.ctxn == ctxn && c.page == new.page && c.size == new.size) then s
    else
      { s with tlb := s.tlb.filter (fun c => !mine c)
          ++ newest (if x.core.isSome then 2047 else 32767) (s.tlb.filter mine) ++ [new] }

/-- Cache a region-bounds entry (R191). -/
def State.cacheBounds (s : State) (die ctxn g : Nat) : State :=
  match (s.ctx ctxn).desc with
  | none => s
  | some d =>
    if s.bounds.any (fun c => c.die == die && c.ctxn == ctxn && c.region == g) then s
    else { s with bounds := s.bounds ++ [{ die, ctxn, region := g, entry := s.boundsEntry d g }] }

/-- No cached translation of a context is left. -/
def State.dropTranslations (s : State) (ctxn : Nat) : State :=
  { s with tlb := s.tlb.filter (fun c => c.ctxn != ctxn), bounds := s.bounds.filter (fun c => c.ctxn != ctxn) }

/-! ## What happens of itself -/

/-- The element of a list at a number taken modulo its length. -/
def pickAt {α : Type} (l : List α) (n : Nat) : Option α := l[n % max l.length 1]?

/-- The stores that may go on next: those that no older one must go before. -/
def State.heads (s : State) : List Queued :=
  s.queue.filter (fun q => !(s.queue.takeWhile (· != q)).any (fun x => x.before q))

/-- A store goes one level on. -/
def State.goOn (s : State) (q : Queued) : State :=
  if q.by'.isSome then s.commit q else State.perform { s with queue := s.queue.erase q } q

/-- What the part does of itself between two steps, and no rule fixes: a store goes on, a replica or a modified line
leaves the L2, a translation is cached or dropped. The choice is a free value (entries 3 and 14). -/
def State.unseen (s : State) : State :=
  let x := Config.unseen s.freeN
  let n := x.2.1
  let s := s.bump
  match x.1 % 8 with
  | 0 => (match pickAt s.heads n with | some q => s.goOn q | none => s)
  | 1 => (match pickAt s.replicas n with | some r => { s with replicas := s.replicas.erase r } | none => s)
  | 2 => (match pickAt s.images n with | some i => s.writeBack i.block | none => s)
  | 3 => (match pickAt s.tlb n with | some c => { s with tlb := s.tlb.erase c } | none => s)
  | 4 => (match pickAt s.bounds n with | some c => { s with bounds := s.bounds.erase c } | none => s)
  | 5 => (match pickAt s.ctxs n with | some c => s.cacheLeaf (atCore (x.2.2.1 % 256)) c.ctxn (BitVec.ofNat 80 x.2.2.2) | none => s)
  | 6 => (match pickAt s.ctxs n with | some c => s.cacheLeaf (atDie (x.2.2.1 % 4)) c.ctxn (BitVec.ofNat 80 x.2.2.2) | none => s)
  | _ => (match pickAt s.ctxs n with | some c => s.cacheBounds (x.2.2.1 % 4) c.ctxn (x.2.2.2 % 256) | none => s)

end Sys2Proof.Machine
end

