-- ==== Sys2Proof/Machine/Device.lean ====
section
/-! DEFINITION. Writes that wait for granules (R392, R393, R455), the event log (R440), and the writes of the device itself to
rings, STATUS words, records and table entries. -/

namespace Sys2Proof.Machine

/-! ## Waiting for granules -/

/-- KIND of a balloon request (R455). -/
def writerKind : Writer → Nat
  | .thread _ _ => 0
  | .engine _ _ => 1
  | .frontEnd _ _ => 1
  | .host _ => 2
  | .peer _ => 3
  | .device => 1

/-- Post a balloon request, or let it wait for an entry (R392, R455); its SEQ is given when it is posted. -/
def State.balloon (s : State) (vf : Nat) (w : Writer) (pa need : Nat) : State :=
  let v := s.vf vf
  s.setVf { v with brwait := v.brwait ++
    [natLe 1 (homeDie pa) ++ natLe 1 (writerKind w) ++ natLe 2 need ++ natLe 8 (pa / 1024 * 1024)] }

/-- Does an earlier held write of the hedge wait on this die (R392 step 1)? -/
def State.waitsOn (s : State) (vf die : Nat) : Bool :=
  s.held.any (fun h => h.vf == vf && h.die == die && h.need != 0 && !h.expired)

/-- Does a held write wait on this block (R393)? -/
def State.blockHeld (s : State) (pa : Nat) : Bool := s.held.any (fun h => h.pa / 1024 == pa / 1024 && !h.expired)

/-- A new write of an agent. -/
def State.newHeld (s : State) (vf : Nat) (w : Writer) (keys : List Key) (pa : Nat) (op : MemOp) (dest : Option RmwDest)
    (site : Dword × Word × BitVec 128) : Held :=
  { id := s.fresh, vf, die := homeDie pa, by' := w, keys, pa, op, dest, site, need := 0, expired := false }

/-! ## The device's own writes -/

/-- A write of the device itself inside one block: it waits for granules as a front end's does, and a malformed block takes
nothing (R391 to R393, R396; entry 19). It tells whether the write was refused. -/
def State.devPiece (s : State) (vf pa : Nat) (d : List Byte) : State × Bool :=
  let own := ((s.frameOf pa).map (·.vf)).getD vf
  let h := s.newHeld own .device [] pa (.store d) none (0, 0, 0)
  if s.isCmp pa && s.blockHeld pa then ({ s.bumpId with held := s.held ++ [h] }, false)
  else match s.physWrite own pa (.store d) (!s.waitsOn own (homeDie pa)) with
    | .done s _ => (s, false)
    | .bad s => (s, true)
    | .needs n => ({ s.bumpId with held := s.held ++ [{ h with need := n }] }.balloon own .device pa n, false)

/-- A write of the device to the event log: nothing is logged of it. -/
def State.quietStore (s : State) (vf pa : Nat) (d : List Byte) : State :=
  (blockPieces (d.length + 1) pa d).foldl (fun s x => (s.devPiece vf x.1 x.2).1) s

/-! ## The event log (R440) -/

/-- Send an MSI-X vector of a function (R422). -/
def State.msix (s : State) (fn vector : Nat) : State := { s with out := s.out ++ [.msix fn vector] }

/-- Advance a die's counter by a free amount, at least 1 (R23; entry 4). -/
def State.tickDie (s : State) (d : Nat) : State :=
  ({ s with dieCyc := Vector.ofFn (fun i : Fin 4 =>
      if i.val == d then s.dieCyc[i] + 1 + Config.elapsed s.freeN else s.dieCyc[i]) }).bump

/-- A die's counter. -/
def State.dieNow (s : State) (d : Nat) : Dword := s.dieCyc.toList.getD d 0

/-- Is there room in the event log (R440)? A ring whose size is not set has none. -/
def Mgmt.room (m : Mgmt) : Bool :=
  8 ≤ m.mllog.toNat && m.mllog.toNat ≤ 16 && m.mlprod.toNat < m.mlcons.toNat + 2 ^ m.mllog.toNat

/-- Write an event log entry at the next position (R440); vector 3 tells the function concerned (R422). A ring in host memory is
out of reach while no module of the host link is up. -/
def State.writeLog (s : State) (code die vf : Nat) (detail : List Nat) : State :=
  let m := s.mgmt
  let base := (bits m.mlbase 51 0).toNat + 32 * (m.mlprod.toNat % 2 ^ m.mllog.toNat)
  let s := s.tickDie die
  let body := natLe 4 m.mlprod.toNat ++ natLe 2 code ++ natLe 1 die ++ natLe 1 vf ++ natLe 8 (s.dieNow die).toNat
    ++ natLe 16 (Config.logDetail code detail).toNat
  let s := if bit m.mlbase 63 then s.putHost (0, none) base body else s.quietStore 0 base body
  { s with mgmt := { s.mgmt with mlprod := m.mlprod + 1 } }.msix vf 3

/-- Can the log be written: does it lie in the package, or is a module of the host link up (R421, R439)? -/
def State.logReachable (s : State) : Bool := !bit s.mgmt.mlbase 63 || s.links.ucieUp.any id

/-- Once room has returned, one entry with code 0x0C and the count of dropped events comes first (R440). -/
def State.logDropped (s : State) : State :=
  if s.mgmt.dropped != 0 && s.mgmt.room && s.logReachable then
    let n := s.mgmt.dropped
    ({ s with mgmt := { s.mgmt with dropped := 0 } }).writeLog 0x0C 0 0 [n]
  else s

/-- Log an event, or count it where the log has no room or is out of reach (R440). -/
def State.logEvent (s : State) (code die vf : Nat) (detail : List Nat) : State :=
  let s := s.logDropped
  if s.mgmt.dropped == 0 && s.mgmt.room && s.logReachable then s.writeLog code die vf detail
  else { s with mgmt := { s.mgmt with dropped := s.mgmt.dropped + 1 } }

/-- The units of R443, as DETAIL of 0x01 and 0x02 names them (entry 22). -/
inductive EccUnit where
  | lpddr | spad | operand | accum | tile | wst | l2 | regs | ucie | gnoip | dieLink
  deriving DecidableEq, Repr

/-- A number for each unit, for the free layout of DETAIL. -/
def EccUnit.code : EccUnit → Nat
  | .lpddr => 0 | .spad => 1 | .operand => 2 | .accum => 3 | .tile => 4 | .wst => 5 | .l2 => 6 | .regs => 7 | .ucie => 8
  | .gnoip => 9 | .dieLink => 10

/-- Log an uncorrectable error that was consumed (R440, R443). -/
def State.logEcc (s : State) (u : EccUnit) (die vf addr : Nat) : State := s.logEvent 0x02 die vf [u.code, addr]

/-- Log an error that was corrected (R440, R443). -/
def State.logSoft (s : State) (u : EccUnit) (die addr : Nat) : State := s.logEvent 0x01 die 0 [u.code, addr]

/-- A soft error that the part corrects of itself, if it meets one (R443; entry 68). -/
def State.corrected (s : State) : State :=
  match Config.corrected s.freeN with
  | some (u, die, addr) => s.bump.logEvent 0x01 (die % 4) 0 [u, addr]
  | none => s.bump

/-- Log data that could not be read: a malformed block, or an uncorrectable error (R396, R443). -/
def State.logBad (s : State) (vf pa : Nat) : State :=
  if s.poison.any (fun a => a / 1024 == pa / 1024) || !s.isCmp pa then s.logEcc .lpddr (homeDie pa) vf pa
  else s.logEvent 0x03 (homeDie pa) vf [pa / 1024 * 1024]

/-- The parts of a range that lie in one block each. -/
def blockRanges : Nat → Nat → Nat → List (Nat × Nat)
  | 0, _, _ => []
  | fuel + 1, pa, n =>
    if n == 0 then [] else let k := min n (1024 - pa % 1024); (pa, k) :: blockRanges fuel (pa + k) (n - k)

/-- Log what of a range cannot be read (R396, R440). -/
def State.logRange (s : State) (vf pa n : Nat) : State :=
  if (s.physRead pa n).isSome then s
  else (blockRanges (n / 1024 + 2) pa n).foldl (fun s x => if (s.physRead x.1 x.2).isNone then s.logBad vf x.1 else s) s

/-- A write of the device itself to a ring, a STATUS word, a record or an entry; a malformed block is logged (R396). -/
def State.devStore (s : State) (vf pa : Nat) (d : List Byte) : State :=
  (blockPieces (d.length + 1) pa d).foldl (fun s x =>
    let y := s.devPiece vf x.1 x.2
    if y.2 then y.1.logBad vf x.1 else y.1) s

/-- A write to a ring that lies in host memory when its base has bit 63 set (R402, R436). -/
def State.ringStore (s : State) (vf : Nat) (host : Bool) (pa : Nat) (d : List Byte) : State :=
  if host then s.putHost (vf, none) pa d else s.devStore vf pa d

/-! ## Tables that cannot be read -/

/-- The table entries that the walk of an address reads. -/
def State.walkPlaces (s : State) (va : BitVec 80) : List Nat → Nat → List Nat
  | [], _ => []
  | lo :: rest, table =>
    let at' := table + 8 * (va.toNat / 2 ^ lo % 8192)
    let e : Dword := BitVec.ofNat 64 (s.physNat at' 8)
    at' :: (if !bit e 0 || bit e 7 then [] else State.walkPlaces s va rest ((bits e 51 16).toNat * 65536))

/-- Log what the translation of an address could not read of its tables, where it read them (R188, R192, R396). -/
def State.logTables (s : State) (x : Site) (ctxn : Nat) (va : BitVec 80) : State :=
  match (s.ctx ctxn).desc with
  | none => s
  | some d =>
    let g := (bits va 75 68).toNat
    let vf := vfOfCtx ctxn
    let s' := if s.tlb.any (fun c => c.serves x ctxn va) then s
      else (s.walkPlaces va [55, 42, 29, 16] d.ptroot).foldl (fun s a => s.logRange vf a 8) s
    if s.bounds.any (fun c => c.die == x.die && c.ctxn == ctxn && c.region == g) then s'
    else s'.logRange vf (d.rbt + 16 * g) 16

end Sys2Proof.Machine
end

