-- ==== Sys2Proof/Machine/Operands.lean ====
section
/-! DEFINITION. The registers that an instruction names (R72, R73, R139, R158), the checks of decode step 8 on them
(R30, R370), and reading and writing operands. -/


namespace Sys2Proof.Machine

/-- A run of registers that an instruction names: k or v, first number, how many, and the alignment it needs. -/
structure RegRef where
  k : Bool
  n : Nat
  count : Nat
  align : Nat
  deriving DecidableEq, Repr

/-- What an instruction reads and writes in registers and predicates. -/
structure Uses where
  reads : List RegRef := []
  writes : List RegRef := []
  preds : List PReg := []
  deriving DecidableEq, Repr

/-- A v group of `c` registers. -/
def vref (n : Reg) (c : Nat) : RegRef := { k := false, n := n.toNat, count := c, align := c }
/-- k registers. -/
def kref (n c : Nat) : RegRef := { k := true, n, count := c, align := 1 }
/-- A source field with its k flag: a k register supplies the whole operand. -/
def srcRef (isK : Bool) (n : Reg) (c : Nat) : RegRef := if isK then kref n.toNat 1 else vref n c

end Sys2Proof.Machine

namespace Sys2Proof
open Machine

/-- Operand C of a form whose D field is `d`: from D, the prefix or word 1 (R73). -/
def Form.cField (f : Form) (d : Reg) : Bool × Reg :=
  match f.mods with
  | .base => (false, d)
  | .pfx p => (p.fk, p.f)
  | .ext w => (w.ck, w.c)

/-- Registers of a V3 instruction, from its form table row and the widths of D, A, B and C. -/
def V3.uses (o : Opc) (f : V3) (wd wa wb wc : Nat) : Uses :=
  let sp := formSpec o
  let c := f.fm.cField f.d
  { reads := (if sp.useA then [srcRef f.fm.aIsK f.a wa] else [])
      ++ (if sp.useB && f.fm.lit.isNone then [srcRef f.kb f.b wb] else [])
      ++ (if sp.useC then [srcRef c.1 c.2 wc] else [])
    writes := if sp.useD then [vref f.d wd] else [] }

/-- Registers of a comparison. -/
def CmpForm.uses (f : CmpForm) : Uses :=
  { reads := srcRef f.fm.aIsK f.a 1 :: (if f.fm.lit.isNone then [srcRef f.kb f.b 1] else []), preds := [f.pd] }

/-- The member mask register of a cross-thread instruction (R173). -/
def V3.maskRef (f : V3) (all : Bool) : List RegRef :=
  if all then [] else let c := f.fm.cField f.d; [srcRef c.1 c.2 1]

/-- Registers that a memory operand reads: the base and the index (R182). -/
def MemForm.addrRefs (f : MemForm) : List RegRef :=
  srcRef f.fm.aIsK f.a 2 :: (if f.w2.ix == 0 then [] else let c := f.fm.cField f.d; [srcRef c.1 c.2 1])

end Sys2Proof

namespace Sys2Proof.Machine

/-- v registers of a value of size code SZ (R197). -/
def szRegs (sz : BitVec 3) : Nat := match sz.toNat with | 3 => 2 | 4 => 4 | _ => 1

/-- Registers of a value of an FCVT or DCVT format. -/
def cvtRegs (fmt : Nat) : Nat := if fmt == 7 || fmt == 8 then 2 else 1

end Sys2Proof.Machine

namespace Sys2Proof
open Machine

/-- Registers of a graph instruction from the widths of D and B, and of C where it is used. -/
def GraphForm.uses (o : Opc) (f : GraphForm) (wd wb wc : Nat) : Uses :=
  { f.v.uses o wd 2 wb wc with preds := [f.w2.pd] }

end Sys2Proof

namespace Sys2Proof.Machine

/-- k registers that TCOLL writes (R177). -/
def tcollRegs (wid : BitVec 2) : Nat := match wid.toNat with | 0 => 1 | 1 => 2 | 2 => 4 | _ => 8

end Sys2Proof.Machine

namespace Sys2Proof
open Machine

/-- The registers of an instruction. Events name none. -/
def Instr.uses : Instr → Uses
  | .jmpr f => f.uses .jmpr 1 1 2 1
  | .callr f => f.uses .callr 1 1 2 1
  | .tsync f => f.uses .tsync 1 1 1 1
  | .kbra _ _ kr => { reads := [kref kr.toNat 1] }
  | .brp _ _ _ => {}
  | .role _ _ pd => { preds := [pd] }
  | .mov f => f.uses .mov 1 1 1 1
  | .movl f => f.uses .movl 2 1 2 1
  | .add f => f.uses .add 1 1 1 1
  | .sub f => f.uses .sub 1 1 1 1
  | .addc f cy => { f.uses .addc 1 1 1 1 with preds := [cy.po] }
  | .subb f cy => { f.uses .subb 1 1 1 1 with preds := [cy.po] }
  | .mul f => f.uses .mul 1 1 1 1
  | .mulhs f => f.uses .mulhs 1 1 1 1
  | .mulhu f => f.uses .mulhu 1 1 1 1
  | .madw f cy => { f.uses .madw 2 1 1 2 with preds := [cy.po] }
  | .min f => f.uses .min 1 1 1 1
  | .max f => f.uses .max 1 1 1 1
  | .minu f => f.uses .minu 1 1 1 1
  | .maxu f => f.uses .maxu 1 1 1 1
  | .and f => f.uses .and 1 1 1 1
  | .or f => f.uses .or 1 1 1 1
  | .xor f => f.uses .xor 1 1 1 1
  | .andn f => f.uses .andn 1 1 1 1
  | .shl f => f.uses .shl 1 1 1 1
  | .shr f => f.uses .shr 1 1 1 1
  | .sar f => f.uses .sar 1 1 1 1
  | .rotl f => f.uses .rotl 1 1 1 1
  | .fshl f => f.uses .fshl 1 1 1 1
  | .popc f => f.uses .popc 1 1 1 1
  | .clz f => f.uses .clz 1 1 1 1
  | .brev f => f.uses .brev 1 1 1 1
  | .bfe f _ => f.uses .bfe 1 1 1 1
  | .bfi f => f.uses .bfi 1 1 1 1
  | .sel f _ _ => f.uses .sel 1 1 1 1
  | .cmp f => f.uses
  | .cmpu f => f.uses
  | .lea f _ _ => f.uses .lea 2 2 1 1
  | .plop _ _ _ pd _ => { preds := [pd] }
  | .ptov f => f.uses .ptov 1 1 1 1
  | .vtop f => f.uses .vtop 1 1 1 1
  | .sread f kd => { writes := [if kd then kref f.d.toNat 1 else vref f.d 1] }
  | .rng f => f.uses .rng 4 4 2 1
  | .cyc f => f.uses .cyc 2 1 1 1
  | .divu f => f.uses .divu 1 1 1 1
  | .remu f => f.uses .remu 1 1 1 1
  | .fadd f => f.uses .fadd 1 1 1 1
  | .fsub f => f.uses .fsub 1 1 1 1
  | .fmul f => f.uses .fmul 1 1 1 1
  | .ffma f => f.uses .ffma 1 1 1 1
  | .fmin f => f.uses .fmin 1 1 1 1
  | .fmax f => f.uses .fmax 1 1 1 1
  | .fcmp f => f.uses
  | .frnd f => f.uses .frnd 1 1 1 1
  | .fcvt f => { reads := [srcRef f.fm.aIsK f.a 1], writes := [vref f.d 1] }
  | .fsf f => { reads := [srcRef f.fm.aIsK f.a 1], writes := [vref f.d 1] }
  | .fclass f => f.uses .fclass 1 1 1 1
  | .hadd2 f _ => f.uses .hadd2 1 1 1 1
  | .hmul2 f _ => f.uses .hmul2 1 1 1 1
  | .hfma2 f _ => f.uses .hfma2 1 1 1 1
  | .hmax2 f _ => f.uses .hmax2 1 1 1 1
  | .hmin2 f _ => f.uses .hmin2 1 1 1 1
  | .pack2 f _ => f.uses .pack2 1 1 1 1
  | .unpk2 f => { reads := [srcRef f.fm.aIsK f.a 1], writes := [vref f.d 1] }
  | .dadd f => f.uses .dadd 2 2 2 1
  | .dmul f => f.uses .dmul 2 2 2 1
  | .dfma f => f.uses .dfma 2 2 2 2
  | .dcvt f => { reads := [srcRef f.fm.aIsK f.a (cvtRegs (bits f.imm 3 0).toNat)],
                 writes := [vref f.d (cvtRegs (bits f.imm 7 4).toNat)] }
  | .fscl f => f.uses .fscl 1 1 1 1
  | .fdiv f => f.uses .fdiv 1 1 1 1
  | .tshfl f all w64 _ =>
    { reads := srcRef f.fm.aIsK f.a (if w64 then 2 else 1)
        :: (if f.fm.lit.isNone then [srcRef f.kb f.b 1] else []) ++ f.maskRef all,
      writes := [vref f.d (if w64 then 2 else 1)] }
  | .tvote f all _ _ op =>
    { reads := f.maskRef all, writes := if op == 0 then [vref f.d 1] else [],
      preds := if op == 0 then [] else [f.d.setWidth 4] }
  | .tred f w => { reads := srcRef f.fm.aIsK f.a (if w.w64 then 2 else 1) :: f.maskRef w.all,
                   writes := [vref f.d (if w.w64 then 2 else 1)] }
  | .rdfl f all pd w64 chk => { reads := srcRef f.fm.aIsK f.a (if w64 then 2 else 1) :: f.maskRef all,
                                writes := [kref f.d.toNat 1], preds := if chk then [pd] else [] }
  | .tcoll f all wid => { reads := srcRef f.fm.aIsK f.a 1 :: f.maskRef all, writes := [kref f.d.toNat (tcollRegs wid)] }
  | .tscan f w => { reads := srcRef f.fm.aIsK f.a (if w.w64 then 2 else 1) :: f.maskRef w.all,
                    writes := [vref f.d (if w.w64 then 2 else 1)] }
  | .tmatch f all w64 => { reads := srcRef f.fm.aIsK f.a (if w64 then 2 else 1) :: f.maskRef all,
                           writes := [vref f.d 1] }
  | .kmov f => { reads := if f.fm.lit.isSome || f.fn == 1 then [] else [kref f.ub.toNat 1],
                 writes := [kref f.ud.toNat 1] }
  | .kadd f | .kmul f | .klea f | .kcmp f | .klog f | .ksel f | .kld f =>
    { reads := kref f.ua.toNat 1 :: (if f.fm.lit.isSome then [] else [kref f.ub.toNat 1]),
      writes := [kref f.ud.toNat 1] }
  | .kst f => { reads := kref f.ud.toNat 1 :: kref f.ua.toNat 1
                  :: (if f.fm.lit.isSome then [] else [kref f.ub.toNat 1]) }
  | .ld f => { reads := f.addrRefs, writes := [vref f.d (szRegs f.w2.sz)] }
  | .lda f => { reads := f.addrRefs, writes := [vref f.d (szRegs f.w2.sz)] }
  | .st f => { reads := vref f.d (szRegs f.w2.sz) :: f.addrRefs }
  | .str f => { reads := vref f.d (szRegs f.w2.sz) :: f.addrRefs }
  | .atom f => { reads := vref f.d (szRegs f.w2.sz) :: f.addrRefs,
                 writes := if f.w2.ret then [vref f.d (szRegs f.w2.sz)] else [] }
  | .acas f => { reads := vref f.d (2 * szRegs f.w2.sz) :: f.addrRefs, writes := [vref f.d (szRegs f.w2.sz)],
                 preds := [f.w2.pd] }
  | .accadd f => { reads := vref f.d (if f.w2.op == 0 then 1 else 2) :: f.addrRefs }
  | .accrd f => { reads := f.addrRefs, writes := [vref f.d (if f.w2.op == 0 then 1 else 2)] }
  | .accclr f | .pref f | .cinv f | .cwb f | .zfill f => { reads := f.addrRefs }
  | .wsqry f => { reads := f.addrRefs, writes := [vref f.d 2] }
  | .tarm f => { f.uses .tarm 1 1 1 1 with writes := [] }
  | .tcopy f _ | .tcopyg f _ => { reads := [srcRef f.fm.aIsK f.a 1] }
  | .tidset f => f.uses .tidset 1 1 1 1
  | .tidget f => f.uses .tidget 1 1 1 1
  | .cbset f => f.uses .cbset 1 1 1 1
  | .xltld f => f.uses .xltld 1 1 1 1
  | .coll f => f.uses .coll 1 1 1 1
  | .collw f => f.uses .collw 1 1 1 1
  | .mma f => f.uses .mma 1 1 1 1
  | .mmas f => { reads := [srcRef f.fm.aIsK f.a 1] }
  | .mscl f count _ => { reads := [kref f.a.toNat ((count.toNat + 7) / 8)] }
  | .tstat f kd => { writes := [if kd then { kref f.d.toNat 2 with align := 2 } else vref f.d 4] }
  | .oclaim f kd pd => { writes := [if kd then kref f.d.toNat 1 else vref f.d 1], preds := [pd] }
  | .orel f => { reads := [srcRef f.fm.aIsK f.a 1] }
  | .accld f | .accst f | .acccvt f _ _ => { reads := [srcRef f.fm.aIsK f.a 1] }
  | .spcomp f fmt =>
    let c := f.fm.cField f.d
    { reads := [vref f.a (if fmt == 5 then 2 else 4)], writes := [vref f.d (if fmt == 5 then 1 else 2), vref c.2 1] }
  | .mstat f => f.uses .mstat 1 1 1 1
  | .oqry f => f.uses .oqry 1 1 1 1
  | .vins f => f.uses .vins 1 1 1
  | .vdel f => f.uses .vdel 1 1 1
  | .vget f => f.uses .vget 1 1 1
  | .vset f => f.uses .vset 1 1 1
  | .deg f => f.uses .deg 1 1 1
  | .eins f => f.uses .eins 2 2 1
  | .edel f => f.uses .edel 1 2 1
  | .eget f => f.uses .eget 4 1 1
  | .epget f => f.uses .epget 1 2 1
  | .epset f => f.uses .epset 1 2 1
  | .efind f => f.uses .efind 1 2 1
  | .ghome f => { f.uses .ghome 1 1 1 with preds := [] }
  | .gstat f => { f.uses .gstat 4 1 1 with preds := [] }
  | .vatom f => f.uses .vatom 1 1 1
  | .copen f => { reads := srcRef f.v.fm.aIsK f.v.a 2 :: (if bit f.w2.idx 0 then [srcRef f.v.kb f.v.b 2] else []),
                  preds := [f.w2.pd] }
  | .cnext f | .cpeek f | .crank f => { writes := [vref f.v.d 4], preds := [f.w2.pd] }
  | .csave f | .crest f => { reads := [srcRef f.v.fm.aIsK f.v.a 1] }
  | .sinter f | .sdiff f =>
    let c := f.v.fm.cField f.v.d
    { reads := vref f.v.d 2 :: (if bit f.w2.idx 0 then [srcRef c.1 c.2 2] else []), writes := [vref f.v.d 2] }
  | .go f _ _ pd => { reads := [srcRef f.fm.aIsK f.a 2], preds := [pd] }
  | .whereAt f => f.uses .whereAt 1 1 1 1
  | .csrr _ d _ => { writes := [vref d 2] }
  | .csrw sk _ src _ => { reads := [srcRef sk src 2] }
  | .sysc f => { reads := [srcRef f.fm.aIsK f.a 2] }
  | .tlbi f => { reads := if f.imm == 2 then [] else [srcRef f.fm.aIsK f.a 2] }
  | .detchk req pd _ => { preds := if req then [] else [pd] }
  | .frec f => { writes := [vref f.d 2] }
  | .space f => f.uses .space 4 1 1 1
  | _ => {}
/-! ## Guards (R75) -/

/-- GP, GN and GZ of a form. -/
def Form.guard (f : Form) : PReg × Bool × Bool :=
  match f.mods with
  | .base => (15, false, false)
  | .pfx p => (p.gp, p.gn, p.gz)
  | .ext w => (w.gp, w.gn, w.gz)

/-- RM of a form (R139). -/
def Form.rm (f : Form) : BitVec 3 :=
  match f.mods with | .base => 0 | .pfx p => p.rm | .ext w => w.rm

/-- CLAMP of a form. -/
def Form.clamp (f : Form) : BitVec 2 := match f.mods with | .ext w => w.clamp | _ => 0
/-- DSCL of a form. -/
def Form.dscl (f : Form) : Int := match f.mods with | .ext w => w.dscl.toInt | _ => 0
/-- ABS and NEG of A. -/
def Form.modA (f : Form) : Bool × Bool := match f.mods with | .ext w => (w.absA, w.negA) | _ => (false, false)
/-- ABS and NEG of B. -/
def Form.modB (f : Form) : Bool × Bool := match f.mods with | .ext w => (w.absB, w.negB) | _ => (false, false)
/-- ABS and NEG of C. -/
def Form.modC (f : Form) : Bool × Bool := match f.mods with | .ext w => (w.absC, w.negC) | _ => (false, false)

end Sys2Proof

namespace Sys2Proof.Machine

/-- A predicate; p15 reads true (R29). -/
def Thread.pred (t : Thread) (n : PReg) : Bool := n == 15#4 || bit t.p n.toNat

/-- Write a predicate; p15 discards (R29). -/
def Thread.setPred (t : Thread) (n : PReg) (b : Bool) : Thread :=
  if n == 15#4 then t
  else { t with p := if b then t.p ||| (1#16 <<< n.toNat) else t.p &&& ~~~(1#16 <<< n.toNat) }

/-- Is the guard of a form true for a thread (R75)? Every slice guard counts as true (R170, R256). -/
def Thread.guard (t : Thread) (f : Form) : Bool :=
  t.tidx == 0xFFFF || (t.pred f.guard.1 != f.guard.2.1)
/-! ## Registers -/

/-- A v register. -/
def Thread.reg (t : Thread) (n : Nat) : Word := t.v.toList.getD n 0

/-- Write a v register. -/
def Thread.setReg (t : Thread) (n : Nat) (x : Word) : Thread :=
  if h : n < 128 then { t with v := t.v.set n x h } else t

/-- The pair from register `n`: bits 31:0 in the first (R6). -/
def Thread.pair (t : Thread) (n : Nat) : Dword := t.reg (n + 1) ++ t.reg n

/-- Write a pair. -/
def Thread.setPair (t : Thread) (n : Nat) (x : Dword) : Thread :=
  (t.setReg n (x.setWidth 32)).setReg (n + 1) ((x >>> 32).setWidth 32)

/-- Write consecutive registers. -/
def Thread.setRegs (t : Thread) (n : Nat) : List Word → Thread
  | [] => t
  | x :: r => Thread.setRegs (t.setReg n x) (n + 1) r

/-- Consecutive registers. -/
def Thread.regs (t : Thread) (n c : Nat) : List Word := (List.range c).map (fun i => t.reg (n + i))

/-- A k register as a thread reads it: the slice's bank, the workgroup's, or the snapshot (R58, R370). -/
def kread (w : Workgroup) (t : Thread) (n : Nat) : Dword :=
  match t.away with
  | some a => a.snap.getD (n - t.ub) 0
  | none => if t.tidx == 0xFFFF then w.ks.toList.getD n 0 else w.k.toList.getD n 0

/-- Write a k register of the bank that a thread uses. -/
def kwrite (w : Workgroup) (slice : Bool) (n : Nat) (x : Dword) : Workgroup :=
  if h : n < 64 then (if slice then { w with ks := w.ks.set n x h } else { w with k := w.k.set n x h }) else w

/-- A 32-bit source: a v register, or bits 31:0 of a k register (R139). -/
def src32 (w : Workgroup) (t : Thread) (isK : Bool) (n : Reg) : Word :=
  if isK then (kread w t n.toNat).setWidth 32 else t.reg n.toNat

/-- A 64-bit source: a pair, or a k register. -/
def src64 (w : Workgroup) (t : Thread) (isK : Bool) (n : Reg) : Dword :=
  if isK then kread w t n.toNat else t.pair n.toNat

end Sys2Proof.Machine

namespace Sys2Proof
open Machine

/-- Operand A, 32 bits. -/
def V3.srcA (f : V3) (w : Workgroup) (t : Thread) : Word := src32 w t f.fm.aIsK f.a
/-- Operand A, 64 bits. -/
def V3.srcA64 (f : V3) (w : Workgroup) (t : Thread) : Dword := src64 w t f.fm.aIsK f.a
/-- Operand B, 32 bits, or the literal (R84, R85). -/
def V3.srcB (f : V3) (w : Workgroup) (t : Thread) : Word :=
  match f.fm.lit with | some l => l.setWidth 32 | none => src32 w t f.kb f.b
/-- Operand B, 64 bits, or the literal. -/
def V3.srcB64 (f : V3) (w : Workgroup) (t : Thread) : Dword :=
  match f.fm.lit with | some l => l | none => src64 w t f.kb f.b
/-- Operand C, 32 bits (R73). -/
def V3.srcC (f : V3) (w : Workgroup) (t : Thread) : Word :=
  let c := f.fm.cField f.d; src32 w t c.1 c.2
/-- Operand C, 64 bits. -/
def V3.srcC64 (f : V3) (w : Workgroup) (t : Thread) : Dword :=
  let c := f.fm.cField f.d; src64 w t c.1 c.2
/-- Operand A of an RI8 form. -/
def RI8.srcA (f : RI8) (w : Workgroup) (t : Thread) : Word := src32 w t f.fm.aIsK f.a
/-- Operand A of an RI8 form, 64 bits. -/
def RI8.srcA64 (f : RI8) (w : Workgroup) (t : Thread) : Dword := src64 w t f.fm.aIsK f.a
/-- Operand A of a comparison. -/
def CmpForm.srcA (f : CmpForm) (w : Workgroup) (t : Thread) : Word := src32 w t f.fm.aIsK f.a
/-- Operand B of a comparison. -/
def CmpForm.srcB (f : CmpForm) (w : Workgroup) (t : Thread) : Word :=
  match f.fm.lit with | some l => l.setWidth 32 | none => src32 w t f.kb f.b

end Sys2Proof

namespace Sys2Proof.Machine

/-! ## Decode step 8 -/

/-- Registers that the current role grants (R30). -/
def Workgroup.allot (w : Workgroup) : Nat := ((w.kernel.roles[w.role]?).map (·.regs)).getD 0

end Sys2Proof.Machine

namespace Sys2Proof
open Machine

/-- The instructions of R371: executed away, they first take the thread home. -/
def Opc.homeFirst (o : Opc) : Bool :=
  let c := o.code
  o == .role || o == .tsync || o == .call || o == .callr || o == .ret
  || (0x50 ≤ c && c ≤ 0x55) || c == 0x5F || (0x70 ≤ c && c ≤ 0x8D) || (0xB4 ≤ c && c ≤ 0xBA)

end Sys2Proof

namespace Sys2Proof.Machine

/-- Does one run of registers pass step 8 (R30, R72, R370)? DEDUCED (entry 56): a slice names its operands as k registers
(R58, R256) and has no v register, so that a v register lies outside its allotment. -/
def regOk (w : Workgroup) (t : Thread) (dest : Bool) (r : RegRef) : Bool :=
  r.n % r.align == 0 && (r.k || t.tidx != 0xFFFF)
  && (match t.away with
      | some _ =>
        if r.k then !dest && t.ub ≤ r.n && r.n + r.count ≤ t.ub + t.un
        else t.vb ≤ r.n && r.n + r.count ≤ t.vb + t.vn
      | none => if r.k then r.n + r.count ≤ 64 else r.n + r.count ≤ w.allot)

end Sys2Proof.Machine

namespace Sys2Proof
open Machine

/-- Decode step 8 for a guard-true thread: 0x07 unless every operand may be named. -/
def Instr.step8 (i : Instr) (w : Workgroup) (t : Thread) : Bool :=
  i.uses.reads.all (regOk w t false) && i.uses.writes.all (regOk w t true)
  && (match i with | .carry .. | .kst _ => t.away.isNone | _ => true)
  && (match i with
      | .spcomp f fmt => let c := (f.fm.cField f.d).2.toNat
          !(f.d.toNat ≤ c && c < f.d.toNat + (if fmt == 5 then 1 else 2))
      | _ => true)

/-- Predicate destinations of an instruction for a thread: VTOP's are those that its mask names (R166; entry 42). -/
def Instr.predDests (i : Instr) (w : Workgroup) (t : Thread) : List PReg :=
  match i with
  | .vtop f => ((List.range 15).filter (fun n => bit (f.srcB w t) n)).map (BitVec.ofNat 4)
  | i => i.uses.preds

/-- What GZ writes for a guard-false thread: zero in every register destination that it may name, false in every
predicate destination (R75; entry 42). -/
def Instr.zeroDest (i : Instr) (w : Workgroup) (t : Thread) : Thread :=
  if !i.form.guard.2.2 then t
  else
    let u := i.uses.writes.foldl (fun u r =>
      if r.k || !regOk w t true r then u else u.setRegs r.n (List.replicate r.count 0)) t
    (i.predDests w t).foldl (fun u p => u.setPred p false) u


end Sys2Proof
end

