-- ==== Sys2Proof/Machine/Ops.lean ====
section
/-! DEFINITION. The shared operations: filing and drawing (R42 to R44), fault records (R300 to R302), taking a fault
(R303, R304) and returning from one (R312), and running an instruction for the threads of an issue group (R75, R90). -/

namespace Sys2Proof.Machine

/-! ## Places -/

/-- Linear workgroup index (R128). -/
def Workgroup.lin (w : Workgroup) : Word := w.wgx + w.nwgx * (w.wgy + w.nwgy * w.wgz)

/-- Is this key an access slice's (R59)? -/
def Key.isSlice (k : Key) : Bool := k.tidx == 0xFFFF

/-- Insert a key in ascending TIDX. -/
def insertKey (k : Key) : List Key → List Key
  | [] => [k]
  | x :: r => if k.tidx < x.tidx then k :: x :: r else x :: insertKey k r

/-- Keys in ascending TIDX (R202, R256). -/
def sortKeys (l : List Key) : List Key := l.foldr insertKey []

/-! ## Filing and drawing -/

/-- Make the threads of a list one ready group (R40, R44). -/
def State.formGroup (s : State) (core : Nat) (keys : List Key) : State :=
  if keys.isEmpty then s
  else
    { s with
      groups := s.groups ++ [{ id := s.fresh, core, threads := sortKeys keys, overdue := false }]
      threads := s.threads.map (fun t => if keys.contains t.key then { t with status := .ready } else t)
      fresh := s.fresh + 1 }

/-- Give the free bins of a core to the keys of its oldest overflow threads (R43); a bin of 32 threads is drawn at once
(R44). -/
def State.refillBins (s : State) (core : Nat) : Nat → State
  | 0 => s
  | fuel + 1 =>
    if 64 ≤ (s.bins.filter (fun b => b.core == core)).length then s
    else match s.overflow.find? (fun o => o.core == core) with
      | none => s
      | some o =>
        let same := (s.overflow.filter (fun x => x.core == core && x.key.wg == o.key.wg && x.pc == o.pc)).take 32
        let keys := same.map (·.key)
        let s := { s with overflow := s.overflow.filter (fun x => !keys.contains x.key) }
        if keys.length == 32 then State.refillBins (s.formGroup core keys) core fuel
        else
          State.refillBins
            { s with bins := s.bins ++ [{ id := s.fresh, core, wg := o.key.wg, pc := o.pc, threads := keys,
                                          tag := same.foldl (fun a x => if x.tag == 0 then a else x.tag) 0 }],
                     fresh := s.fresh + 1 } core fuel

/-- Bins of a core have been freed (R43). -/
def State.refill (s : State) (core : Nat) : State := s.refillBins core s.overflow.length

/-- Bins may have been freed on several cores. -/
def State.refillAll (s : State) : State := ((s.overflow.map (·.core)).dedup).foldl State.refill s

/-- Draw a bin: its threads become a ready group and the bin is free (R44). -/
def State.drawBin (s : State) (b : Bin) : State :=
  let s := { s with bins := s.bins.filter (fun x => x.id != b.id) }
  (s.formGroup b.core b.threads).refill b.core

/-- Put a thread, its next PC in `pc`, into a bin of the core where it is (R43); a full bin is drawn at once (R44). A
slice is ready at once (R59). -/
def State.fileThread (s : State) (t : Thread) (tag : BitVec 4) : State :=
  let core := s.coreOf t
  if t.tidx == 0xFFFF then (s.setThread { t with took := false }).formGroup core [t.key]
  else
    let s := s.setThread { t with status := .filed, took := false }
    match s.bins.find? (fun b => b.core == core && b.wg == t.wg && b.pc == t.pc && decide (b.threads.length < 32)) with
    | some b =>
      let b' := { b with threads := b.threads ++ [t.key], tag := if tag == 0 then b.tag else tag }
      if b'.threads.length == 32 then s.drawBin b'
      else { s with bins := s.bins.map (fun x => if x.id == b.id then b' else x) }
    | none =>
      if (s.bins.filter (fun b => b.core == core)).length < 64 then
        { s with bins := s.bins ++ [{ id := s.fresh, core, wg := t.wg, pc := t.pc, threads := [t.key], tag }],
                 fresh := s.fresh + 1 }
      else { s with overflow := s.overflow ++ [{ core, key := t.key, pc := t.pc, tag }] }

/-- Leave the groups, bins and the overflow queue; a bin that this frees is given away (R43). -/
def State.unqueue (s : State) (k : Key) : State :=
  ({ s with
    groups := (s.groups.map (fun g => { g with threads := g.threads.filter (· != k) })).filter (fun g => !g.threads.isEmpty)
    bins := (s.bins.map (fun b => { b with threads := b.threads.filter (· != k) })).filter (fun b => !b.threads.isEmpty)
    overflow := s.overflow.filter (fun o => o.key != k) } : State).refillAll

/-- Is every live thread of a workgroup filed, parked or blocked, one that is away counting as blocked (R44 rule 3,
R372)? -/
def State.wgQuiet (s : State) (wg : Nat) : Bool :=
  (s.threads.filter (fun t => t.wg == wg && t.tidx != 0xFFFF)).all (fun t =>
    t.away.isSome || (match t.status with
      | .filed | .parked _ | .blocked _ | .exited | .transit .. | .gone => true
      | _ => false))

/-- Draw every bin of the workgroups that rule 3 of R44 makes eligible, oldest first. -/
def State.drawQuiet (s : State) : State :=
  let due := s.bins.filter (fun b => s.wgQuiet b.wg && ((s.wg b.wg).map (fun w => !w.frozen)).getD false)
  due.foldl (fun s b => s.drawBin b) s

/-! ## Fault records -/

/-- Bytes 0x00 to 0x3B of a fault record (R300). -/
def recordBody (w : Workgroup) (tidx core pkg flags : Nat) (pc : Dword) (insn : Word) (r : Raise) : List Byte :=
  [r.code, r.space, BitVec.ofNat 8 flags, 0]
    ++ natLe 4 w.lin.toNat ++ natLe 2 tidx ++ natLe 2 core ++ natLe 2 w.core ++ natLe 1 pkg ++ [0]
    ++ natLe 8 pc.toNat ++ natLe 4 insn.toNat ++ natLe 4 w.launch.toNat ++ natLe 16 r.addr.toNat
    ++ natLe 8 r.size ++ natLe 4 0

/-- Is there room in a context's fault ring (R302)? -/
def State.ringRoom (s : State) (c : Context) : Bool :=
  match c.desc with
  | none => false
  | some d => decide (c.fqseq < ((s.vf (vfOfCtx c.ctxn)).fqcons.toList.getD (c.ctxn % 16) 0).toNat + 2 ^ d.fqlog)

/-- Write a record at the next position of the ring; its SEQ goes last (R302). -/
def State.writeRecord (s : State) (c : Context) (body : List Byte) : State :=
  match c.desc with
  | none => s
  | some d =>
    let s := s.devStore (vfOfCtx c.ctxn) (d.fqbase + 64 * (c.fqseq % 2 ^ d.fqlog)) (body ++ natLe 4 c.fqseq)
    (s.setCtx { s.ctx c.ctxn with fqseq := c.fqseq + 1 }).msix (vfOfCtx c.ctxn) 1

/-- Post a record: its SEQ, or none when it waits for room (R302). -/
def State.postRecord (s : State) (ctxn : Nat) (body : List Byte) (keys : List Key) : State × Option Word :=
  let c := s.ctx ctxn
  if c.waiting.isEmpty && s.ringRoom c then (s.writeRecord c body, some (BitVec.ofNat 32 c.fqseq))
  else (s.setCtx { c with waiting := c.waiting ++ [{ body, keys }] }, none)

/-- The record as FREC reads it (R313). -/
def latchOf (body : List Byte) (seq : Word) : BitVec 512 := BitVec.ofNat 512 (leNat (body ++ natLe 4 seq.toNat))

/-! ## Taking a fault -/

/-- Mark a context faulted (R305). -/
def State.markFaulted (s : State) (ctxn : Nat) : State := s.setCtx { s.ctx ctxn with faulted := true }

/-- Take a thread home, with every effect of R373: its registers, predicates, cursors and SR CSRs are those that it
holds, and HOPS becomes 0. -/
def Thread.atHome (t : Thread) : Thread := { t with away := none, hops := 0 }

/-- A guest sets out for its origin (R373): its store queue drains first (R236), and HOPS becomes 0. `done` is the PC of the
HOME that this completes. -/
def State.sendHome (s : State) (w : Workgroup) (t : Thread) (done : Option Dword) : State :=
  (s.release (s.coreOf t) t.key).setThread
    { t with status := .transit (w.foreign.getD s.pkg) w.core done, hops := 0, seen := none }

/-- A thread enters its handler (R304): none for a slice, for a fault in the handler, and where TRAPVEC is 0 or
misaligned. -/
def Thread.enter (t : Thread) (r : Raise) (latch : BitVec 512) : Option Thread :=
  if t.tidx == 0xFFFF || t.hnd || t.trapvec == 0 || bits t.trapvec 1 0 != 0 then none
  else some
    { t with
      epc := r.epc.getD t.pc
      trapcause := (r.arg.setWidth 64 <<< 16) ||| r.code.setWidth 64
      frec := latch
      hnd := true
      pc := t.trapvec }

/-- A thread that is parked for good. -/
def Thread.parkForever (t : Thread) (r : Raise) : Thread :=
  { t with status := .parked { kind := .forever, fault := r, body := [], seq := none } }

/-- Deliver a trapping fault (R304): the one place where a thread enters its handler. Where it cannot, it parks for good
and the context is marked faulted. A guest goes home first (R375): at once within the package, and to another package with
its continuation, which brings nothing of the fault (entry 29). -/
def State.deliver (s : State) (w : Workgroup) (t : Thread) (r : Raise) (latch : BitVec 512) : State :=
  if w.foreign.isSome then s.sendHome w t none
  else
    let s := if t.away.isSome then s.release (s.coreOf t) t.key else s
    match t.atHome.enter r latch with
    | none => (s.setThread (t.atHome.parkForever r)).markFaulted w.ctxn
    | some t => s.fileThread t 0

/-- Does a fault wait for the driver's reply (R298, R314)? -/
def Raise.resolvable (r : Raise) : Bool :=
  r.sysc.isSome || r.code == 0x01 || (r.code == 0x0B && r.space != 0x04)

/-- Why a thread that takes a resolvable fault is parked. -/
def Raise.parkKind (r : Raise) : ParkKind :=
  match r.sysc with
  | some n => .sysc n
  | none => match r.held with | some h => .held h | none => .resolve

/-- Park or deliver one thread of a fault whose record has been posted (R301, R303, R304, R325, R375). -/
def State.settleFault (s : State) (debug : Bool) (r : Raise) (body : List Byte) (seq : Option Word) (k : Key) : State :=
  match s.thread k, s.wg k.wg with
  | some t, some w =>
    let t := { t with insn := BitVec.ofNat 32 (field body 0x18 4), seen := none }
    let park (t : Thread) (kind : ParkKind) : State :=
      s.setThread { t with status := .parked { kind, fault := r, body, seq } }
    if r.resolvable then park t r.parkKind
    else if debug then park t (.debug (r.epc.getD t.pc))
    else
      match seq with
      | none => park t .trap
      | some q => s.deliver w t r (latchOf body q)
  | _, _ => s

/-- Log what a fault could not read: the tables of its address, or of its region page (R188, R192, R339, R396), and the operand or
the tile entry with an error that the instruction itself reads (R195, R443; entry 37). -/
def State.logFault (s : State) (core : Nat) (w : Workgroup) (r : Raise) : State :=
  let ctxn := w.ctxn
  let path := (bits r.addr 79 76).toNat
  if 1 ≤ r.code.toNat && r.code.toNat ≤ 3 && (r.space == 1 || r.space == 2) && path != 2 && path != 3 then
    s.logTables (atCore core) ctxn (r.addr.setWidth 80)
  else if r.code == 1 && r.space == 3 then
    (match s.graphs.find? (fun d => d.ctxn == ctxn && d.die == dieOf core && d.g == (bits r.addr 15 0).toNat) with
      | some d => s.logTables (atDie (dieOf core)) ctxn (d.sbase + BitVec.ofNat 80 (65536 * (bits r.addr 63 16).toNat))
      | none => s)
  else if r.code == 0x0C && r.space == 1 && path == 2 && r.site.isNone then
    s.logEcc .spad (dieOf w.core) (vfOfCtx ctxn) (r.addr.toNat % 2 ^ 68)
  else if r.code == 0x0C && r.space == 4 && r.site.isNone && s.ecc.contains (.tile w.id r.addr.toNat) then
    s.logEcc .tile (dieOf w.core) (vfOfCtx ctxn) r.addr.toNat
  else s

/-- Raise a fault for the threads of `keys`, with one record that names the first (R301). `core` and `pkg` are where
the instruction executed. -/
def State.raise (s : State) (core pkg : Nat) (insn : Word) (keys : List Key) (r : Raise) : State :=
  match keys.head?.bind s.thread, keys.head?.bind (fun k => s.wg k.wg) with
  | some t, some w =>
    let s := s.logFault core w r
    let debug := (r.code == 0x11 || r.code == 0x12) && (s.ctx w.ctxn).debug
    let flags := (if r.resolvable || debug then 1 else 0) + (if t.hnd then 2 else 0)
      + (if t.tidx == 0xFFFF then 4 else 0) + (if t.away.isSome then 8 else 0) + (if debug then 16 else 0)
    let site := r.site.getD (t.pc, insn)
    let body := recordBody w t.tidx core pkg flags site.1 site.2 r
    let p := s.postRecord w.ctxn body keys
    keys.foldl (fun s k => s.settleFault debug r body p.2 k) p.1
  | _, _ => s

/-- Raise a fault for one thread of the issuing group. -/
def State.raiseCur (s : State) (k : Key) (r : Raise) : State := s.raise s.cur.core s.cur.pkg s.cur.insn [k] r

/-- A plain trapping fault without an address. -/
def trapOf (code : Byte) : Raise := { code }

/-- Return from the handler (R312): none where it faults. -/
def Thread.eret (t : Thread) : Except Raise Thread :=
  if !t.hnd then .error (trapOf 0x07)
  else if bits t.epc 1 0 != 0 then .error (trapOf 0x05)
  else .ok { t with pc := t.epc, hnd := false }

/-! ## Running an instruction for the threads of a group -/

/-- What an instruction does for one guard-true thread. -/
inductive Res where
  /-- It completes and the thread goes on with its group; its PC is set. -/
  | go (s : State) (t : Thread)
  /-- It completes and the thread is filed (R42), at a REFORM with this tag. -/
  | file (s : State) (t : Thread) (tag : BitVec 4)
  /-- The thread waits: its new status is set. -/
  | hold (s : State) (t : Thread)
  /-- It faults. -/
  | fault (s : State) (r : Raise)
  /-- It sets out for its origin, where it will execute the instruction (R371). -/
  | left (s : State)

/-- The PC after an instruction of `n` words (R65). -/
def pcAfter (pc : Dword) (n : Nat) : Dword := pc + BitVec.ofNat 64 (4 * n)

/-- Does the debugger step this workgroup (R325, R326)? -/
def State.steps (s : State) (w : Workgroup) : Bool := w.sstepEn && (s.ctx w.ctxn).debug

/-- The single-step fault of a thread whose instruction at `pc` has completed (R326). -/
def stepFault (pc : Dword) (insn : Word) (next : Dword) : Raise :=
  { code := 0x12, epc := some next, site := some (pc, insn) }

/-- Do two threads of a group go on together: at one PC, both by the branch that they took or both past it (R40, R103, R218)? -/
def State.goesWith (s : State) (t : Thread) (g : List Key) : Bool :=
  (g.head?.bind s.thread).any (fun u => u.pc == t.pc && u.took == t.took)

/-- Split keys by where their threads go on, in order of first appearance (R40, R103). -/
def State.splitByPc (s : State) (keys : List Key) : List (List Key) :=
  keys.foldl (fun acc k =>
    match s.thread k with
    | none => acc
    | some t =>
      if acc.any (s.goesWith t) then acc.map (fun g => if s.goesWith t g then g ++ [k] else g)
      else acc ++ [[k]]) []

/-- Does a thread wait, at its instruction, together with the others of its group (R40): for a transaction, for the home of
a graph operation, for the accesses before a TLBI, or for the data of a KLD? -/
def Thread.together (t : Thread) : Bool :=
  match t.status with
  | .data (.txn _ false) => true
  | .data (.graph _ _) => true
  | .data (.flight _ _ _) => true
  | .data (.kdata _ _ _) => true
  | _ => false

/-- Threads leave the branch that they took behind. -/
def State.untake (s : State) (keys : List Key) : State :=
  { s with threads := s.threads.map (fun t => if keys.contains t.key then { t with took := false } else t) }

/-- Threads make ready groups, one for each PC and way (R40). -/
def State.formGroups (s : State) (core : Nat) (keys : List Key) : State :=
  (s.splitByPc keys).foldl (fun s g => s.formGroup core g) (s.untake keys)

/-- A fault that waits for the other threads of its group (R301). -/
def State.putOff (s : State) (t : Thread) (r : Raise) : State :=
  s.setThread { t with status := .data .mates, pend := some r, insn := s.cur.insn }

/-- Raise the faults that have waited, in ascending TIDX (R301). -/
def State.raisePut (s : State) (core : Nat) (keys : List Key) : State :=
  (sortKeys keys).foldl (fun s k => match s.thread k with
    | some t => (match t.pend with
      | some r => (s.setThread { t with pend := none }).raise core s.pkg t.insn [k] r
      | none => s)
    | none => s) s

/-- The join of the group at execution, if it belongs to one. -/
def State.joinOf (s : State) : Option Join := s.joins.find? (fun j => s.cur.keys.any j.waiting.contains)

/-- The group at execution leaves its join. -/
def State.leaveJoin (s : State) : State × Join :=
  match s.joinOf with
  | none => (s, { core := s.cur.core, waiting := [], mates := [], faulty := [] })
  | some j => ({ s with joins := s.joins.erase j }, j)

/-- Threads of a group that have executed the instruction, or faulted, wait for others of it. -/
def State.joinLater (s : State) (late mates faulty : List Key) : State :=
  { s with
    joins := s.joins ++ [{ core := s.cur.core, waiting := late, mates, faulty }]
    threads := s.threads.map (fun t => if mates.contains t.key then { t with status := .data .mates } else t) }

/-- The threads that go on continue as one group for each next PC, once every thread of the group has what it waits for:
nothing else splits a group here (R40). Those whose faults have waited fault then. -/
def State.meetUp (s : State) (keys faulty : List Key) : State :=
  let x := s.leaveJoin
  let late := (s.cur.keys ++ x.2.waiting.filter (fun k => !s.cur.keys.contains k)).filter
    (fun k => !keys.contains k && (s.thread k).any Thread.together)
  if late.isEmpty then (x.1.raisePut s.cur.core (x.2.faulty ++ faulty)).formGroups s.cur.core (keys ++ x.2.mates)
  else x.1.joinLater late (keys ++ x.2.mates) (x.2.faulty ++ faulty)

/-- The same where the instruction has put no fault off. -/
def State.goOnTogether (s : State) (keys : List Key) : State := s.meetUp keys []

/-- The single-step faults of threads whose instruction at `pc` has completed (R326). -/
def State.stepFaults (s : State) (pc : Dword) (keys : List Key) : State :=
  keys.foldl (fun s k =>
    match s.thread k with
    | none => s
    | some t => s.raiseCur k (stepFault pc s.cur.insn t.pc)) s

/-- End of an instruction: the threads that go on form one ready group for each next PC (R40), or take the single-step
fault (R326). `pc` is where the instruction stood. -/
def State.finish (s : State) (pc : Dword) (keys : List Key) : State :=
  match keys.head?.bind (fun k => s.wg k.wg) with
  | none => s.goOnTogether []
  | some w =>
    if s.steps w && keys.all (fun k => !k.isSlice) then (s.stepFaults pc keys).goOnTogether []
    else s.goOnTogether keys

/-- Does a thread wait for a transaction that has ended? -/
def State.replied (s : State) (t : Thread) : Bool :=
  (match t.status with | .data (.txn _ false) => true | _ => false) && !s.txns.any (fun x => x.by' == .reply t.key)

/-- A join whose waiting threads have all gone (a fault has taken them) or all have their responses: the threads that
remain form their group. -/
def State.settleJoin (s : State) (j : Join) : State :=
  let live := j.waiting.filter (fun k => (s.thread k).any (fun t => match t.status with | .data _ | .ready => true | _ => false))
  let mates := j.mates.filter (fun k => (s.thread k).any (fun t => t.status == .data .mates))
  if live.isEmpty then (({ s with joins := s.joins.erase j }).raisePut j.core j.faulty).formGroups j.core mates
  else if live.all (fun k => (s.thread k).any s.replied) then s.formGroup j.core live
  else s

/-- Joins that need wait no longer. -/
def State.settleJoins (s : State) : State := s.joins.foldl State.settleJoin s

/-- A thread has completed the group's instruction: it goes on with its group, or takes the single-step fault (R326), in
its place in ascending TIDX (R301). -/
def State.passOn (s : State) (w : Workgroup) (ks : List Key) (pc : Dword) (t : Thread) : State × List Key :=
  if s.steps w && !t.key.isSlice then ((s.setThread t).raiseCur t.key (stepFault pc s.cur.insn t.pc), ks)
  else (s.setThread t, ks ++ [t.key])

/-- What the step of one thread is: guard, home first, decode step 8, then the body. -/
def State.stepOf (s : State) (i : Instr) (body : State → Workgroup → Thread → Res) (w : Workgroup) (t : Thread) : Res :=
  if !t.guard i.form then .go s { i.zeroDest w t with pc := pcAfter t.pc i.words }
  else if t.away.isSome && (i.opc.map Opc.homeFirst).getD false then .left (s.sendHome w t none)
  else if !i.step8 w t then .fault s (trapOf 0x07)
  else body s w t

/-- The step of one thread, which faults at once. -/
def State.stepThread (i : Instr) (body : State → Workgroup → Thread → Res) (acc : State × List Key) (k : Key) :
    State × List Key :=
  match acc.1.thread k, acc.1.wg k.wg with
  | some t, some w =>
    match acc.1.stepOf i body w t with
    | .go s u => s.passOn w acc.2 t.pc u
    | .file s u tag =>
      if s.steps w && !k.isSlice then
        ((s.setThread { u with ftag := tag }).raiseCur k (stepFault t.pc s.cur.insn u.pc), acc.2)
      else (s.fileThread u tag, acc.2)
    | .hold s u => (s.setThread { u with insn := s.cur.insn }, acc.2)
    | .fault s r => (s.raiseCur k r, acc.2)
    | .left s => (s, acc.2)
  | _, _ => acc

/-- The step of one thread, whose fault waits (R301): the threads that go on, and those whose fault waits. -/
def State.stepLater (i : Instr) (body : State → Workgroup → Thread → Res) (acc : State × List Key × List Key) (k : Key) :
    State × List Key × List Key :=
  match acc.1.thread k, acc.1.wg k.wg with
  | some t, some w =>
    match acc.1.stepOf i body w t with
    | .go s u =>
      if s.steps w && !k.isSlice then (s.putOff u (stepFault t.pc s.cur.insn u.pc), acc.2.1, acc.2.2 ++ [k])
      else (s.setThread u, acc.2.1 ++ [k], acc.2.2)
    | .file s u tag =>
      if s.steps w && !k.isSlice then
        (s.putOff { u with ftag := tag } (stepFault t.pc s.cur.insn u.pc), acc.2.1, acc.2.2 ++ [k])
      else (s.fileThread u tag, acc.2)
    | .hold s u => (s.setThread { u with insn := s.cur.insn }, acc.2)
    | .fault s r => ((match s.thread k with | some t => s.putOff t r | none => s), acc.2.1, acc.2.2 ++ [k])
    | .left s => (s, acc.2)
  | _, _ => acc

/-- The PC of the issuing group. -/
def State.curPc (s : State) : Dword := ((s.cur.keys.head?.bind s.thread).map (·.pc)).getD 0

/-- Does a thread of the group wait together with the others, now or since the instruction was issued before (R40)? Then its
records wait for one another too (R301). -/
def State.parted (s : State) (r : State × List Key) : Bool :=
  s.joinOf.isSome || s.cur.keys.any (fun k => !r.2.contains k && (r.1.thread k).any Thread.together)

/-- Run an instruction for every thread of the issuing group in ascending TIDX (R202, R256, R337). -/
def State.forThreads (s : State) (i : Instr) (body : State → Workgroup → Thread → Res) : State :=
  let r := s.cur.keys.foldl (State.stepThread i body) (s, [])
  if s.parted r then
    let x := s.cur.keys.foldl (State.stepLater i body) (s, [], [])
    x.1.meetUp x.2.1 x.2.2
  else r.1.finish s.curPc r.2

/-- The outcome of a meaning that goes on. -/
abbrev Out1 := Host.Outcome State Fault Refusal

/-- An instruction that only changes the thread's own registers and predicates and goes on (R158). -/
def State.alu (s : State) (i : Instr) (f : Workgroup → Thread → Thread) : Out1 :=
  .next (s.forThreads i (fun s w t => .go s { f w t with pc := pcAfter t.pc i.words }))

/-- A thread goes on at the next instruction. -/
def Thread.onward (t : Thread) (i : Instr) : Thread := { t with pc := pcAfter t.pc i.words }

/-- A fault code for every thread of the group, whatever their guards (R90 steps 1 to 6). -/
def State.raiseAll (s : State) (r : Raise) : State := s.cur.keys.foldl (fun s k => s.raiseCur k r) s

/-- What an instruction that acts once for its group does (R172, R280, R286). -/
inductive Once where
  /-- Every guard-true thread takes this step; one whose status is no longer ready waits. -/
  | all (s : State) (f : Thread → Thread)
  /-- One fault for the guard-true threads, with one record (R301). -/
  | fault (s : State) (r : Raise)

/-- One fault for the guard-true threads of a group (R301); the others go on. With the debugger stepping, the records
stand in ascending TIDX. -/
def State.faultOnce (s : State) (pc : Dword) (gt gf : List Key) (r : Raise) : State :=
  let raise (s : State) : State := s.raise s.cur.core s.cur.pkg s.cur.insn gt r
  match gt.head?.bind (fun k => s.wg k.wg) with
  | some w =>
    if s.steps w then
      let first := gf.filter (fun k => gt.head?.any (fun g => k.tidx < g.tidx))
      (raise (s.stepFaults pc first)).finish pc (gf.filter (fun k => !first.contains k))
    else (raise s).finish pc gf
  | none => s.finish pc gf

/-- Run an instruction that acts once for its group, as its lowest guard-true thread or the slice. -/
def State.onceForGroup (s : State) (i : Instr) (body : State → Workgroup → Thread → Once) : State :=
  let pc := s.curPc
  let gt := s.cur.keys.filter (fun k => (s.thread k).any (fun t => t.guard i.form))
  let gf := s.cur.keys.filter (fun k => !gt.contains k)
  let s := gf.foldl (fun s k => match s.thread k, s.wg k.wg with
    | some t, some w => s.setThread { i.zeroDest w t with pc := pcAfter t.pc i.words }
    | _, _ => s) s
  match gt.head?.bind s.thread, gt.head?.bind (fun k => s.wg k.wg) with
  | some t, some w =>
    if t.away.isSome && (i.opc.map Opc.homeFirst).getD false then
      (gt.foldl (fun s k => match s.thread k with | some t => s.sendHome w t none | none => s) s).finish pc gf
    else if !i.step8 w t then s.faultOnce pc gt gf (trapOf 0x07)
    else match body s w t with
      | .fault s r => s.faultOnce pc gt gf r
      | .all s f =>
        let s : State := { s with threads := s.threads.map (fun (u : Thread) =>
          if gt.contains u.key then { f u with insn := s.cur.insn } else u) }
        s.finish pc (s.cur.keys.filter (fun k =>
          gf.contains k || (s.thread k).any (fun (u : Thread) => u.status == .ready)))
  | _, _ => s.finish pc gf

/-- Leave a blocked state or a data wait: the instruction has completed and the thread is filed at `next` (R42), or
takes the single-step fault (R326). -/
def State.wake (s : State) (t : Thread) (next : Dword) : State :=
  match s.wg t.wg with
  | none => s
  | some w =>
    let t' := { t with pc := next }
    if s.steps w && t.tidx != 0xFFFF then
      (s.setThread t').raise (s.coreOf t) s.pkg t.insn [t.key] (stepFault t.pc t.insn next)
    else s.fileThread t' 0

/-- A thread waits at a gate (R241): it keeps its PC and what it has read. -/
def Thread.gated (t : Thread) (g : Gate) (seen : List Byte) : Thread :=
  { t with status := .blocked (.gate g), seen := some seen }

/-- Does a thread still stand before its gated instruction at a PC: at a gate, or past one and about to issue it again? -/
def Thread.before (t : Thread) (pc : Dword) : Bool :=
  t.pc == pc && (match t.status with
    | .blocked (.gate _) => true
    | .ready => t.seen.isSome
    | _ => false)

/-- The threads of the group, of a lower TIDX, that wait at a gate of the instruction: a later thread waits behind them, so that
the instruction acts for its threads in ascending TIDX (R256, R274). -/
def State.behind (s : State) (t : Thread) : List Key :=
  s.cur.keys.filter (fun k => k.tidx < t.tidx && (s.thread k).any (fun u => u.seen.isSome && u.before t.pc))

/-- A gated instruction completes: after a wait the thread is filed (R42). -/
def Thread.done (t : Thread) (s : State) (i : Instr) : Res :=
  if t.seen.isSome then .file s ({ t with seen := none }.onward i) 0 else .go s (t.onward i)

/-- The first guard-true thread of the issuing group, for instructions that act once for a group (R60, R172). -/
def State.leader (s : State) (f : Form) : Option Key :=
  s.cur.keys.find? (fun k => (s.thread k).any (fun t => t.guard f))

/-- Guard-true threads of the issuing group. -/
def State.guardTrue (s : State) (f : Form) : List Key :=
  s.cur.keys.filter (fun k => (s.thread k).any (fun t => t.guard f))

/-- Move every thread of a list on by an instruction. -/
def State.advance (s : State) (keys : List Key) (n : Nat) : State :=
  { s with threads := s.threads.map (fun t => if keys.contains t.key then { t with pc := pcAfter t.pc n } else t) }

end Sys2Proof.Machine
end

