-- ==== Sys2Proof/Machine/Points.lean ====
section
/-! DEFINITION. May-fault instructions (R41), the points at which late faults are taken (R195, R395, R453), and the
fetch of an instruction (R66, R90 steps 1 and 2). -/

namespace Sys2Proof.Machine

/-- May-fault opcodes (R41, and the form tables of each chapter). -/
def opcMayFault : Opc → Bool
  | .jmpr | .call | .callr | .ret | .trap | .brk | .cyc | .sread | .kld | .kst
  | .ld | .st | .atom | .acas | .accadd | .accrd | .accclr | .lda | .str | .wsqry | .cinv | .cwb | .zfill
  | .twait | .tcopy | .tidset | .tidget | .xltld | .tstat | .tcopyg | .coll | .collw
  | .oclaim | .orel | .mma | .mmas | .accz | .accld | .accst | .cbset | .acccvt | .oqry
  | .vins | .vdel | .vget | .vset | .deg | .eins | .edel | .eget | .epget | .epset | .efind | .copen | .cnext | .cpeek
  | .csave | .crest | .sinter | .sdiff | .ghome | .vatom | .gstat | .crank
  | .go | .whereAt | .csrr | .csrw | .eret | .sysc | .tlbi | .detchk | .space => true
  | _ => false

/-- Is an instruction may-fault for a thread? KMOV of a placement value is, in deterministic mode (R171). -/
def mayFault (w : Workgroup) (i : Instr) : Bool :=
  (i.opc.map opcMayFault).getD false
  || (match i with | .kmov f => w.kernel.det && f.fn == 1 && 9 ≤ f.ub.toNat && f.ub.toNat ≤ 13 | _ => false)

/-- Instructions that enter a blocked state (R49). -/
def opcBlocks : Opc → Bool
  | .tshfl | .tvote | .tred | .rdfl | .tcoll | .tscan | .tmatch | .tsync | .bar | .barw | .qwait | .qfence | .mwait
  | .role | .yield | .tarm => true
  | _ => false

/-- Instructions that drain the store queue or release (R236, R395), beyond the may-fault ones. -/
def opcDrains : Opc → Bool
  | .fence | .bara | .home => true
  | _ => false

/-- Predicates that an instruction reads, its guard's first. -/
def predReads (i : Instr) : List PReg :=
  i.form.guard.1 :: (match i with
    | .brp _ _ pp => [pp]
    | .sel _ _ q => [q]
    | .plop _ pb pa _ _ => [pa, pb]
    | .tvote _ _ _ q _ => [q]
    | .addc _ c | .subb _ c | .madw _ c => [c.pi]
    | .ptov _ => (List.range 15).map (BitVec.ofNat 4)
    | _ => [])

/-- The places of a register run of a thread. -/
def regPlaces (r : RegRef) (t : Thread) : List Ecc :=
  (List.range r.count).filterMap (fun j =>
    if r.k then (if t.away.isSome then none else some (.kreg t.wg (t.tidx == 0xFFFF) (r.n + j))) else some (.vreg t.key (r.n + j)))

/-- Does an instruction read a register whose parity has failed (R443)? -/
def State.parityBad (s : State) (i : Instr) (t : Thread) : Bool :=
  !s.ecc.isEmpty && (i.uses.reads.flatMap (fun r => regPlaces r t) ++ (predReads i).map (fun p => Ecc.pred t.key p.toNat)).any s.ecc.contains

/-- Does a thread fault for parity at an instruction: its guard's predicate is bad, or, with the guard true and the registers in
order, another that it reads (R75, R90, R443)? -/
def State.parityFault (s : State) (w : Workgroup) (i : Instr) (t : Thread) : Bool :=
  !s.ecc.isEmpty && (s.ecc.contains (.pred t.key i.form.guard.1.toNat) || (t.guard i.form && i.step8 w t && s.parityBad i t))

/-- Registers that an instruction writes hold good parity again. -/
def State.parityEnd (s : State) (i : Instr) (t : Thread) : State :=
  let l := i.uses.writes.flatMap (fun r => regPlaces r t) ++ i.uses.preds.map (fun p => Ecc.pred t.key p.toNat)
  { s with ecc := s.ecc.filter (fun e => !l.contains e) }

/-- Does an instruction read or write a predicate that a late fault's access was to write? p15 is no destination (R29). -/
def touchesPred (w : Workgroup) (t : Thread) (i : Instr) (p : PReg) : Bool :=
  p != 15#4 && (i.uses.preds.contains p || (i.predDests w t).contains p || (predReads i).contains p)

/-- Does an instruction name a register of a late fault's destinations (R195, R395)? -/
def touches (w : Workgroup) (t : Thread) (i : Instr) (l : Late) : Bool :=
  (i.uses.reads ++ i.uses.writes).any (fun r =>
    if r.k then l.kd.any (fun k => r.n ≤ k && k < r.n + r.count)
    else l.dest.2 != 0 && r.n < l.dest.1 + l.dest.2 && l.dest.1 < r.n + r.count)
  || l.pd.any (touchesPred w t i)
  || l.cd.any (fun c => match i with | .cclose f => f.v.d.toNat == c | _ => false)

/-- Does an instruction of this opcode, executed away, take its thread home (R371)? The return drains the store queue (R373). -/
def Thread.goesHome (t : Thread) (o : Option Opc) : Bool := t.away.isSome && (o.map Opc.homeFirst).getD false

/-- Is a fault of a thread a point of a held write: away, it goes home for it, and its stores drain first (R236, R375, R395)? -/
def goesForFault (t : Thread) (l : Late) : Bool := t.away.isSome && l.fault.code == 0x0B

/-- Is an instruction the point of a pending late fault (R195, R395)? -/
def isPoint (w : Workgroup) (i : Instr) (t : Thread) (l : Late) : Bool :=
  touches w t i l || mayFault w i || i.opc == some .exit
  || (i.opc.map opcBlocks).getD false
  || (l.fault.code == 0x0B && ((i.opc.map opcDrains).getD false || t.goesHome i.opc))
  || (goesForFault t l && t.guard i.form && !i.step8 w t)

/-- The same of an instruction of which only word 0 can be read, or whose words decode to none: its opcode, and the register
numbers in the places of D, A and B (R453). -/
def isPointWord (w0 : Word) (t : Thread) (l : Late) : Bool :=
  let o := opcodeOf (bits w0 9 2).toNat
  let names (r : Nat) : Bool := l.dest.1 ≤ r && r < l.dest.1 + l.dest.2
  (o.map opcMayFault).getD false || o == some .exit || (o.map opcBlocks).getD false
  || names (bits w0 16 10).toNat || names (bits w0 23 17).toNat || names (bits w0 30 24).toNat
  || (l.fault.code == 0x0B && ((o.map opcDrains).getD false || t.goesHome o))

/-- The late fault that a thread takes at an instruction, if any: an 0x0C first, then an 0x0B (R453). `q` tells the points. -/
def lateAt (q : Thread → Late → Bool) (t : Thread) : Option Late :=
  match t.late.find? (fun l => l.fault.code == 0x0C && q t l) with
  | some l => some l
  | none => t.late.find? (fun l => l.fault.code != 0x0C && q t l)

/-- Does a thread wait at this instruction for a held write of its own (R395)? After a TIDSET
or CBSET it does at any (R246, R285). -/
def State.heldAt (s : State) (q : Thread → Late → Bool) (t : Thread) : Option Nat :=
  (s.held.find? (fun h => h.keys.contains t.key && !h.expired && (h.op.whole || q t {
      fault := trapOf 0x0B, dest := h.dest.elim (0, 0) (fun d => (d.d, (d.n + 3) / 4)), pd := h.dest.bind (·.pd) }))).map (·.id)

/-! ## Fetch -/

/-- Why a fetch does not give its word: a fault; data that cannot be read, at this physical address of the package, if it
lies in main memory; or a word of another package, asked for by its package times 2^52 plus its address. -/
inductive FetchStop where
  | fault (r : Raise)
  | bad (r : Raise) (pa : Option Nat)
  | ask (place : Nat)

/-- The record of an instruction word whose data cannot be read (R66, R195). -/
def fetchBad (va : BitVec 80) : Raise := { dataFault 0x0C va 4 true with size := 0 }

/-- Fetch one instruction word at an offset of the PC (R182, R194). DESIGN CHOICE (entry 54): a word of this package that was
stored to during the launch is fetched with its new contents, once the store is performed for every agent; R68 leaves open
which contents a fetch gives. -/
def State.fetchWord (s : State) (w : Workgroup) (x : Site) (pc : Dword) (i : Nat) : Except FetchStop Word :=
  let a := pc + BitVec.ofNat 64 (4 * i)
  if bits a 63 52 != bits pc 63 52 then .error (.fault (dataFault 0x02 (vaOf a) 4 true))
  else match s.checkVa w x { n := 4, align := 1, paths := [0], fetch := true } (vaOf a) with
    | .error r => .error (.fault r)
    | .ok p => match p.loc with
      | .main pa =>
        (match (if s.reaches x.die (homeDie pa) then s.physRead pa 4 else none) with
          | some b => .ok (BitVec.ofNat 32 (leNat b))
          | none => .error (.bad (fetchBad (vaOf a)) (if s.reaches x.die (homeDie pa) then some pa else none)))
      | .host c pa => (match s.readHost x.die c pa 4 with
          | some b => .ok (BitVec.ofNat 32 (leNat b))
          | none => .error (.bad (fetchBad (vaOf a)) none))
      | .remote pkg pa => (match s.fetched.find? (fun e => e.1 == pkg * 2 ^ 52 + pa) with
          | some e => .ok e.2
          | none => .error (.ask (pkg * 2 ^ 52 + pa)))
      | _ => .error (.fault (dataFault 0x02 (vaOf a) 4 true))

/-- Fetch words `i` to `i + n - 1`. -/
def State.fetchWords (s : State) (w : Workgroup) (x : Site) (pc : Dword) (i : Nat) : Nat → Except FetchStop (List Word)
  | 0 => .ok []
  | n + 1 =>
    match s.fetchWord w x pc i with
    | .error r => .error r
    | .ok v => match State.fetchWords s w x pc (i + 1) n with
      | .error r => .error r
      | .ok r => .ok (v :: r)

/-- Is a PFX pair, told by its two words, to be fetched further: its checks of steps 3 to 6 pass, and the successor has a
literal (R87, R90, R107)? -/
def pairFetches (slice : Bool) (w0 x : Word) : Bool :=
  !slice && bits w0 31 27 == 0 && (bits x 1 0).toNat == 1 && (prefixedInstr (prefixOf w0) x (some 0)).isSome

/-- The words after word 0, or why they cannot be had, with word 0 of the record (R66, R107, R300). DESIGN CHOICE (entry 54):
INSN is 0 where word 0 itself cannot be fetched, as R300 gives no value for a word that was not read; the caller gives it. -/
def State.fetchRest (s : State) (w : Workgroup) (x : Site) (pc : Dword) (slice : Bool) (w0 : Word) :
    Except (FetchStop × Word) (List Word) :=
  match s.fetchWords w x pc 1 (wordsOf w0 - 1) with
  | .error r => .error (r, w0)
  | .ok ws =>
    match opcodeOf (bits w0 9 2).toNat, ws with
    | some .pfx, v :: _ =>
      if (bits w0 1 0).toNat == 0 && pairFetches slice w0 v then
        match s.fetchWords w x pc 2 2 with
        | .error r => .error (r, v)
        | .ok l => .ok (w0 :: v :: l)
      else .ok (w0 :: ws)
    | _, _ => .ok (w0 :: ws)

/-- Word 0 of a record for fetched words: the successor's after a PFX (R300). -/
def insnWord (ws : List Word) : Word :=
  match ws with
  | w0 :: x :: _ => if opcodeOf (bits w0 9 2).toNat == some .pfx && (bits w0 1 0).toNat == 0 then x else w0
  | w0 :: _ => w0
  | [] => 0

end Sys2Proof.Machine
end

