-- ==== Sys2Proof/Machine/Wire.lean ====
section
/-! DEFINITION. Gnoip flits on the wire (R427, R430 to R432): the bytes of a flit that leaves, and what a flit that comes
says, or why it is malformed. -/

namespace Sys2Proof

open Machine

/-! ## Payloads -/

/-- A byte of a number. -/
def byteOf (n : Nat) : Byte := BitVec.ofNat 8 n

/-- The channel and the TYPE of a flit (R430). -/
def FlitBody.code : FlitBody → Nat × Nat
  | .read .. => (0, 1)
  | .write .. => (0, 2)
  | .atomic .. => (0, 3)
  | .cell .. => (0, 4)
  | .graphop .. => (0, 5)
  | .flush => (0, 6)
  | .data .. => (1, 1)
  | .ack => (1, 2)
  | .neg .. => (1, 3)
  | .graphres .. => (1, 4)
  | .slotreq .. => (2, 1)
  | .slotgnt .. => (2, 2)
  | .slotbsy => (2, 3)
  | .cont .. => (2, 4)
  | .recall .. => (2, 5)
  | .elem .. => (3, 1)
  | .cells .. => (3, 2)
  | .codebook .. => (3, 3)
  | .done .. => (3, 4)

/-- The header of collective flits (R430). -/
def collHead (gid op part off : Nat) : List Byte := [byteOf gid, byteOf op] ++ natLe 2 part ++ natLe 4 off

/-- The payload of a flit (R430 to R432). -/
def FlitBody.payload : FlitBody → List Byte
  | .read a n sem => natLe 8 a.toNat ++ natLe 4 n ++ [sem.setWidth 8, 0, 0, 0]
  | .write a sem d => natLe 8 a.toNat ++ natLe 2 d.length ++ [sem.setWidth 8, 0, 0, 0, 0, 0] ++ d
  | .atomic a op sz ret sem x =>
    natLe 8 a.toNat ++ [op.setWidth 8, sz.setWidth 8, if ret then 1 else 0, sem.setWidth 8, 0, 0, 0, 0] ++ natLe 16 x.toNat
  | .cell a op fmt sem x =>
    natLe 8 a.toNat ++ [op.setWidth 8, fmt.setWidth 8, sem.setWidth 8, 0, 0, 0, 0, 0] ++ natLe 8 x.toNat
  | .graphop i w2 a b c ctx c0 c1 =>
    natLe 4 i.toNat ++ natLe 4 w2.toNat ++ natLe 8 a.toNat ++ natLe 8 b.toNat ++ natLe 8 c.toNat ++ natLe 4 ctx ++ [0, 0, 0, 0]
      ++ natLe 16 c0.toNat ++ natLe 16 c1.toNat
  | .flush => []
  | .data off d => natLe 2 off ++ [0, 0, 0, 0, 0, 0] ++ d
  | .ack => []
  | .neg r c => [r, c]
  | .graphres pd d c0 c1 m hit =>
    [if pd then 1 else 0, 0, 0, 0, 0, 0, 0, 0] ++ natLe 16 d.toNat ++ natLe 16 c0.toNat ++ natLe 16 c1.toNat ++ natLe 8 m.toNat
      ++ [if hit then 1 else 0]
  | .slotreq ctx die => natLe 4 ctx ++ [byteOf die]
  | .slotgnt core => natLe 2 core
  | .slotbsy => []
  | .cont part parts len d => [byteOf part, byteOf parts] ++ natLe 2 len ++ [0, 0, 0, 0] ++ d
  | .recall ctx lin tidx => natLe 4 ctx ++ natLe 4 lin.toNat ++ natLe 2 tidx
  | .elem gid op part off d => collHead gid op part off ++ d
  | .cells gid op part off l => collHead gid op part off ++ l.flatMap (fun c => natLe 32 c.toNat)
  | .codebook gid op part cb => collHead gid op part 0 ++ cb.flatMap (fun x => natLe 2 x.toNat)
  | .done gid op part => collHead gid op part 0

/-- Bytes 0x00 to 0xF7 of a flit (R427). -/
def Flit.image (f : Flit) (seq : Nat) : List Byte :=
  let p := f.body.payload
  [byteOf f.body.code.1, byteOf f.body.code.2, f.hdr.dpkg, f.hdr.spkg, f.hdr.vf, byteOf p.length] ++ natLe 2 (seq % 4096)
    ++ natLe 8 f.hdr.tag.toNat ++ p ++ List.replicate (232 - p.length) 0

/-- The 256 bytes of a flit: its CRC-64 covers the others (R427; entry 66). -/
def Flit.wire (f : Flit) (seq : Nat) : List Byte := f.image seq ++ natLe 8 (Config.crc64 (f.image seq)).toNat

/-! ## Reading a flit -/

/-- SEQ of a flit, and the rest of its two bytes. -/
def RawFlit.seq (r : RawFlit) : Nat := field r.bytes 6 2 % 4096
/-- VC and TYPE. -/
def RawFlit.vc (r : RawFlit) : Nat := field r.bytes 0 1
def RawFlit.ty (r : RawFlit) : Nat := field r.bytes 1 1
/-- LEN. -/
def RawFlit.len (r : RawFlit) : Nat := field r.bytes 5 1
/-- The 232 bytes of PAYLOAD. -/
def RawFlit.payload (r : RawFlit) : List Byte := (r.bytes.drop 16).take 232

/-- The header of a flit. -/
def RawFlit.hdr (r : RawFlit) : FlitHdr :=
  { dpkg := byteOf (field r.bytes 2 1), spkg := byteOf (field r.bytes 3 1), vf := byteOf (field r.bytes 4 1)
    tag := BitVec.ofNat 64 (field r.bytes 8 8), port := r.port }

/-- The bytes that LEN counts from an offset of the payload. -/
def RawFlit.tail (r : RawFlit) (off : Nat) : List Byte := (r.payload.take r.len).drop off

/-- Is the place of a READ or WRITE well formed: no bit of ADDR that is 0 is set (R431)? -/
def addrOk (b : List Byte) (plain : Bool) : Bool :=
  field b 0 8 / 2 ^ 52 % 1024 == 0 && (!plain || field b 0 8 / 2 ^ 62 == 0)

/-- A request of VC 0x0 (R430, R431): none where LEN exceeds what the TYPE uses, a reserved byte is not zero, or a field holds
a value that its row does not list (entry 66). -/
def RawFlit.request (r : RawFlit) : Option FlitBody :=
  let b := r.payload
  let a : Dword := BitVec.ofNat 64 (field b 0 8)
  let sem (i : Nat) : BitVec 2 := BitVec.ofNat 2 (field b i 1)
  match r.ty with
  | 1 =>
    if r.len ≤ 16 && addrOk b false && zeroAt b 13 3 && field b 12 1 < 4 && 1 ≤ field b 8 4 && field b 8 4 ≤ 4096 then
      some (.read a (field b 8 4) (sem 12))
    else none
  | 2 =>
    let n := field b 8 2
    if r.len ≤ 16 + n && addrOk b false && zeroAt b 11 5 && field b 10 1 < 4 && 1 ≤ n && n ≤ 216 then
      some (.write a (sem 10) ((b.drop 16).take n))
    else none
  | 3 =>
    if r.len ≤ 32 && addrOk b true && zeroAt b 12 4 && field b 8 1 ≤ 9 && (field b 9 1 == 2 || field b 9 1 == 3)
        && field b 10 1 ≤ 1 && field b 11 1 < 4 then
      some (.atomic a (BitVec.ofNat 4 (field b 8 1)) (BitVec.ofNat 3 (field b 9 1)) (field b 10 1 == 1) (sem 11)
        (BitVec.ofNat 128 (field b 16 16)))
    else none
  | 4 =>
    if r.len ≤ 24 && addrOk b true && zeroAt b 11 5 && field b 8 1 ≤ 2 && [0, 7, 8].contains (field b 9 1) && field b 10 1 < 4 then
      some (.cell a (BitVec.ofNat 2 (field b 8 1)) (BitVec.ofNat 4 (field b 9 1)) (sem 10) (BitVec.ofNat 64 (field b 16 8)))
    else none
  | 5 =>
    if r.len ≤ 72 && zeroAt b 0x24 4 then
      some (.graphop (BitVec.ofNat 32 (field b 0 4)) (BitVec.ofNat 32 (field b 4 4)) (BitVec.ofNat 64 (field b 8 8))
        (BitVec.ofNat 64 (field b 16 8)) (BitVec.ofNat 64 (field b 24 8)) (field b 0x20 4) (BitVec.ofNat 128 (field b 0x28 16))
        (BitVec.ofNat 128 (field b 0x38 16)))
    else none
  | 6 => if r.len == 0 then some .flush else none
  | _ => none

/-- A response of VC 0x1. -/
def RawFlit.response (r : RawFlit) : Option FlitBody :=
  let b := r.payload
  match r.ty with
  | 1 => if r.len ≤ 232 && zeroAt b 2 6 then some (.data (field b 0 2) (r.tail 8)) else none
  | 2 => if r.len == 0 then some .ack else none
  | 3 =>
    if r.len ≤ 232 && zeroAt b 2 230 && (field b 1 1 == 0 || field b 0 1 == 1) then
      some (.neg (byteOf (field b 0 1)) (byteOf (field b 1 1)))
    else none
  | 4 =>
    if r.len ≤ 65 && zeroAt b 1 7 && field b 0 1 ≤ 1 && field b 0x40 1 ≤ 1 then
      some (.graphres (field b 0 1 == 1) (BitVec.ofNat 128 (field b 8 16)) (BitVec.ofNat 128 (field b 0x18 16))
        (BitVec.ofNat 128 (field b 0x28 16)) (BitVec.ofNat 64 (field b 0x38 8)) (field b 0x40 1 == 1))
    else none
  | _ => none

/-- A flit of VC 0x2 (R432). -/
def RawFlit.continuation (r : RawFlit) : Option FlitBody :=
  let b := r.payload
  match r.ty with
  | 1 => if r.len ≤ 5 then some (.slotreq (field b 0 4) (field b 4 1)) else none
  | 2 => if r.len ≤ 2 then some (.slotgnt (field b 0 2)) else none
  | 3 => if r.len == 0 then some .slotbsy else none
  | 4 =>
    if r.len ≤ 232 && zeroAt b 4 4 && field b 0 1 < field b 1 1 && field b 1 1 ≤ 2 then
      some (.cont (field b 0 1) (field b 1 1) (field b 2 2) (r.tail 8))
    else none
  | 5 => if r.len ≤ 10 then some (.recall (field b 0 4) (BitVec.ofNat 32 (field b 4 4)) (field b 8 2)) else none
  | _ => none

/-- A flit of VC 0x3 (R433). -/
def RawFlit.collective (r : RawFlit) : Option FlitBody :=
  let b := r.payload
  let gid := field b 0 1
  let op := field b 1 1
  let part := field b 2 2
  match r.ty with
  | 1 => if r.len ≤ 232 then some (.elem gid op part (field b 4 4) (r.tail 8)) else none
  | 2 =>
    if r.len ≤ 232 then
      some (.cells gid op part (field b 4 4) ((List.range ((r.len - 8) / 32)).map (fun i => BitVec.ofNat 256 (field b (8 + 32 * i) 32))))
    else none
  | 3 =>
    if r.len ≤ 40 then some (.codebook gid op part ((List.range 16).map (fun i => BitVec.ofNat 16 (field b (8 + 2 * i) 2)))) else none
  | 4 => if r.len ≤ 8 then some (.done gid op part) else none
  | _ => none

/-- What a flit says; none for a malformed one (R430). Bits 15:12 of SEQ are reserved too. -/
def RawFlit.body (r : RawFlit) : Option FlitBody :=
  if field r.bytes 6 2 / 4096 != 0 then none
  else match r.vc with
    | 0 => r.request
    | 1 => r.response
    | 2 => r.continuation
    | 3 => r.collective
    | _ => none

/-- The flit of an image as a port receives it. -/
def Flit.raw (f : Flit) (seq : Nat) : RawFlit := { port := f.hdr.port, bytes := f.image seq }

end Sys2Proof
end

