-- ==== Sys2Proof/Machine/Held.lean ====
section
/-! DEFINITION. Writes of compressible frames that may have to wait (R390 to R395), and requests
to other packages (R430, R431). -/

namespace Sys2Proof.Machine

/-! ## Messages to other packages -/

/-- Send a flit by a port, with its next SEQ (R427); a port that is down sends nothing. -/
def State.send (s : State) (dpkg vf : Nat) (tag : Dword) (port : Nat) (b : FlitBody) : State :=
  if s.links.portUp.getD port false then
    let f : Flit := ⟨⟨BitVec.ofNat 8 dpkg, BitVec.ofNat 8 s.pkg, BitVec.ofNat 8 vf, tag, port⟩, b⟩
    let seq := s.links.txSeq.getD port 0
    { s with out := s.out ++ [.flit port (f.wire seq)]
             links := { s.links with txSeq := s.links.txSeq.set port ((seq + 1) % 4096) } }
  else s

/-- A new TAG: die and port of the sender, and a count (R430). -/
def State.newTag (s : State) (die port : Nat) : Dword :=
  BitVec.ofNat 64 (die % 256 * 2 ^ 56 + port % 256 * 2 ^ 48 + s.flits % 2 ^ 48)

/-- Start a transaction of a die with another package: a fresh tag (R430), its flit, and what it serves. DESIGN CHOICE (entry
66): it leaves by the lowest port that the die reaches, which its TAG names. -/
def State.request (s : State) (dpkg vf die : Nat) (b : FlitBody) (by' : TxnBy) : State × Dword :=
  let port := s.portFor die
  let tag := s.newTag die port
  (({ s with flits := s.flits + 1, txns := s.txns ++ [({ tag, pkg := dpkg, by' } : Txn)] } : State).send dpkg vf tag port b, tag)

/-- The port by which a further flit of a transaction leaves: that of its TAG, or another that its die reaches (entry 66). -/
def State.tagPort (s : State) (tag : Dword) : Nat :=
  let p := (bits tag 55 48).toNat
  if s.links.portUp.getD p false then p else s.portFor (bits tag 63 56).toNat

/-- The port by which the answer to a request leaves: the one by which it came, or another that its die reaches (entry 66). -/
def State.answerPort (s : State) (h : FlitHdr) : Nat :=
  if s.links.portUp.getD h.port false then h.port else s.portFor (portDie h.port)

/-- Answer a peer's request. -/
def State.answer (s : State) (h : FlitHdr) (b : FlitBody) : State :=
  s.send h.spkg.toNat h.vf.toNat h.tag (s.answerPort h) b

/-! ## Writes that may wait -/

/-- The outcome of an attempted write. -/
inductive WOut where
  | done (s : State) (old : List Byte)
  | bad (s : State)
  | held (s : State) (id : Nat)

/-- Log a write that a malformed block or bad data refuses (R396); a RAW write is refused for its place alone (R398). -/
def State.logRefused (s : State) (h : Held) : State := if h.op.isRaw then s else s.logBad h.vf h.pa

/-- Attempt a write inside one block (R390, R392, R393). -/
def State.attempt (s : State) (h : Held) : WOut :=
  if s.isCmp h.pa && s.blockHeld h.pa then .held { s with held := s.held ++ [{ h with need := 0, expired := false }] } h.id
  else match s.physWrite h.vf h.pa h.op (!s.waitsOn h.vf h.die) with
    | .done s old => .done s old
    | .bad s => .bad (s.logRefused h)
    | .needs d =>
      .held ({ s with held := s.held ++ [{ h with need := d, expired := false }] }.balloon h.vf h.by' h.pa d) h.id

/-- The value that a held read-modify-write returns to its thread (R203, R204). -/
def Thread.rmwResult (t : Thread) (d : RmwDest) (op : MemOp) (old : List Byte) : Thread :=
  let x := leNat (old.take d.n)
  let t := if d.n == 0 then t
    else if d.n ≤ 4 then t.setReg d.d (BitVec.ofNat 32 x) else t.setPair d.d (BitVec.ofNat 64 x)
  match d.pd, op with
  | some p, .cas n e _ => t.setPred p (x == e.toNat % 2 ^ (8 * n))
  | _, _ => t

/-- The groups whose threads wait in a data wait of a kind, with what each waits for: `p` gives the group of a wait. -/
def State.waitGroups (s : State) (p : DataWait → Option Nat) : List (List Key) :=
  let l := s.threads.filterMap (fun t => match t.status with | .data w => (p w).map (fun g => (g, t.key)) | _ => none)
  (l.map (·.1)).dedup.map (fun g => (l.filter (fun x => x.1 == g)).map (·.2))

/-- Groups take their instruction up again as they were (R40). -/
def State.regroup (s : State) (gs : List (List Key)) : State :=
  gs.foldl (fun s ks => match ks.head?.bind s.thread with | some t => s.formGroup (s.coreOf t) ks | none => s) s

/-- Does a thread wait for this held write? -/
def DataWait.onHeld (id : Nat) : DataWait → Option Nat
  | .held i g => if i == id then some g else none
  | _ => none

/-- Ready the groups that wait for this held write at their space points (R395). -/
def State.readyHeld (s : State) (h : Held) : State := s.regroup (s.waitGroups (DataWait.onHeld h.id))

/-- The response to a peer whose write has been performed (R431). -/
def peerDone (op : MemOp) (dest : Option RmwDest) (old : List Byte) : FlitBody :=
  match dest, op with
  | some d, .cas n e _ => .data 0 (old.take d.n ++ natLe 1 (if leNat old == e.toNat % 2 ^ (8 * n) then 1 else 0))
  | some d, _ => .data 0 (old.take d.n)
  | none, _ => .ack

/-- Change a thread, resident or saved. -/
def State.modThread (s : State) (k : Key) (f : Thread → Thread) : State :=
  let g (l : List Thread) : List Thread := l.map (fun t => if t.key == k then f t else t)
  { s with threads := g s.threads, saved := s.saved.map (fun x => { x with threads := g x.threads }) }

/-! ## The command log -/

/-- Does an entry still lie in the log (R416, R417)? -/
def Vf.logFull (v : Vf) : Bool := decide (2 ^ v.loglog.toNat ≤ v.logpos - v.logstart)

/-- Write a log entry at the next position (R417). -/
def State.putLog (s : State) (vf kind : Nat) (payload : List Byte) : State :=
  let v := s.vf vf
  let s := s.devStore vf ((bits v.logbase 51 0).toNat + 64 * (v.logpos % 2 ^ v.loglog.toNat))
    (natLe 1 kind ++ natLe 1 payload.length ++ natLe 2 0 ++ natLe 4 v.logpos ++ payload
      ++ List.replicate (56 - payload.length) 0)
  s.setVf { s.vf vf with logpos := v.logpos + 1 }

/-- MIGOK becomes 0 (R416). -/
def State.clearMigok (s : State) (vf : Nat) : State := s.setVf { s.vf vf with migok := false }

/-- MIGOK becomes 0 when the log ring is full (R416). -/
def State.logRoom (s : State) (vf : Nat) : State := if (s.vf vf).logFull then s.clearMigok vf else s

/-- Log what takes effect while MIGOK is set; the log that this fills clears MIGOK (R416). A replay logs nothing. -/
def State.logAppend (s : State) (vf kind : Nat) (payload : List Byte) : State :=
  let v := s.vf vf
  if !v.migok || v.rpl then s
  else if v.logFull then s.clearMigok vf
  else (s.putLog vf kind payload).logRoom vf

/-- Pieces of a host write of at most 32 bytes. -/
def hostEntries : Nat → Nat → List Byte → List (Nat × List Byte)
  | 0, _, _ => []
  | fuel + 1, pa, b => if b.isEmpty then [] else (pa, b.take 32) :: hostEntries fuel (pa + 32) (b.drop 32)

/-- Log a host write (R416). -/
def State.logHost (s : State) (vf pa : Nat) (b : List Byte) : State :=
  (hostEntries (b.length + 1) pa b).foldl (fun s x => s.logAppend vf 4 (natLe 8 x.1 ++ x.2)) s

/-- Nibbles of an engine's write, for ARRIVED (R242); a metadata word is counted at the end of its copy. -/
def MemOp.nibbles : MemOp → Nat
  | .patch l => (l.map (fun x => if x.2.1.isSome then 1 else 2 * x.2.2.length)).sum
  | .nibble _ _ => 1
  | .setMeta _ => 0
  | op => 2 * op.len

/-- A held part of a peer's write has ended, with the reason of a NEG, or 0. The response goes with the last part, and tells of
any that was not performed (R394, R430, R454): until then a part still to come keeps the reason. -/
def State.peerEnd (s : State) (p : FlitHdr) (h : Held) (reason : Nat) (b : FlitBody) : State :=
  let r := if reason == 0 then h.site.1.toNat else reason
  if s.held.any (fun x => x.by' == .peer p) then
    { s with held := s.held.map (fun x =>
        if x.by' == .peer p && r != 0 then { x with site := (BitVec.ofNat 64 r, x.site.2) } else x) }
  else s.answer p (if r == 0 then b else .neg (BitVec.ofNat 8 r) 0)

/-! ## The end of a command (R405) -/

/-- The place of a ring slot; bit 63 of QBASE puts the ring in host memory (R402). -/
def Vf.slot (v : Vf) (idx : Nat) : Bool × Nat :=
  (bit v.qbase 63, (bits v.qbase 51 0).toNat + 64 * (idx % 2 ^ v.qlog.toNat))

/-- A command of a function. -/
def State.command (s : State) (vf id : Nat) : Option Command := (s.vf vf).cmds.find? (fun c => c.id == id)

/-- Change a command. -/
def State.modCmd (s : State) (vf id : Nat) (f : Command → Command) : State :=
  let v := s.vf vf
  s.setVf { v with cmds := v.cmds.map (fun c => if c.id == id then f c else c) }

/-- The oldest command that is not complete: HEAD. -/
def Vf.oldest (v : Vf) (rest : List Command) : Nat := (((rest.filter (fun x => !x.replay)).head?).map (·.idx)).getD v.taken

/-- A command whose STATUS has been written is complete, and HEAD advances (R405). -/
def State.retireCmd (s : State) (vf id : Nat) : State :=
  let v := s.vf vf
  let rest := v.cmds.filter (fun x => x.id != id)
  (s.setVf { v with cmds := rest, head := v.oldest rest }).msix vf 0

/-- Write the STATUS of a command; a write that must wait for granules leaves the command incomplete (R392, R405). -/
def State.writeStatus (s : State) (vf : Nat) (c : Command) (st : Nat) : State :=
  let a := (s.vf vf).slot c.idx
  if a.1 then (s.putHost (vf, none) (a.2 + 0x3C) (natLe 4 st)).retireCmd vf c.id
  else
    let s := s.modCmd vf c.id (fun c => { c with ended := some st, moves := [] })
    let own := ((s.frameOf (a.2 + 0x3C)).map (·.vf)).getD vf
    match s.attempt (s.newHeld own (.frontEnd vf c.id) [] (a.2 + 0x3C) (.store (natLe 4 st)) none (0, 0, 0)) with
    | .done s _ => s.retireCmd vf c.id
    | .bad s => s.retireCmd vf c.id
    | .held s _ => s.bumpId

/-- The write of a STATUS that was held has ended: the command is complete. -/
def State.statusDone (s : State) (vf id : Nat) : State :=
  if (s.command vf id).any (fun c => c.ended.isSome) then s.retireCmd vf id else s

/-- What follows once a held write has been performed. -/
def State.heldDone (s : State) (h : Held) (old : List Byte) : State :=
  match h.by' with
  | .thread wg tidx =>
    let s := match h.dest with
      | some d => s.modThread ⟨wg, tidx⟩ (fun t => t.rmwResult d h.op old)
      | none => s
    s.readyHeld h
  | .engine _ op => s.opArrives op h.op.nibbles 0
  | .frontEnd vf c => s.statusDone vf c
  | .host vf => s.logHost vf h.pa (match h.op with | .store d => d | _ => [])
  | .device => s
  | .peer p => (s.clearMigok h.vf).peerEnd p h 0 (peerDone h.op h.dest old)

/-- The late fault of a write that was not performed (R195, R394); that of a TIDSET names no address. -/
def Thread.addLate (t : Thread) (code : Byte) (h : Held) : Thread :=
  { t with late := t.late ++ [{
      fault := { code, space := if h.op.whole then 0 else 1, addr := (h.site.2.2).setWidth 128,
                 size := if code == 0x0B then h.op.len else 0, site := some (h.site.1, h.site.2.1),
                 held := if code == 0x0B then some h.id else none }
      dest := h.dest.elim (0, 0) (fun d => (d.d, (d.n + 3) / 4)), pd := h.dest.bind (·.pd),
      kd := if h.keys.length == 1 then none else some 64 }] }

/-- The status of a command after another finding: a refusal, 0x6, stands, and 0x8 goes before 0x7 (R407). -/
def worse (old st : Nat) : Nat := if old == 6 || st == 6 then 6 else max old st

/-- A command meets bad data, or a write of it is given up or refused (R407). -/
def State.worsen (s : State) (vf cmd st : Nat) : State := s.modCmd vf cmd (fun c => { c with status := worse c.status st })

/-- A held write that is refused when its turn comes: its block has become malformed (R396), or a RAW write has no granule there
(R398). -/
def State.heldBad (s : State) (h : Held) : State :=
  match h.by' with
  | .thread _ _ =>
    (h.keys.foldl (fun s k => s.modThread k (fun t => t.addLate 0x0C h)) s).readyHeld h
  | .engine _ op => s.opArrives op h.op.nibbles 1
  | .frontEnd vf c => (s.worsen vf c 7).statusDone vf c
  | .host vf => { s with out := s.out ++ [.error vf] }
  | .peer p => s.peerEnd p h (if h.op.isRaw then 3 else 4) .ack
  | .device => s

/-- The writes that waited behind a held write to the same block (R393): each is attempted in turn until one is held
itself. -/
def State.settleBlock (s : State) (b : Nat) : Nat → State
  | 0 => s
  | fuel + 1 =>
    match s.held.find? (fun h => h.pa / 1024 == b && !h.expired) with
    | none => s
    | some h =>
      if h.need != 0 then s
      else
        let s := { s with held := s.held.filter (fun x => x.id != h.id) }
        match s.physWrite h.vf h.pa h.op (!s.waitsOn h.vf h.die) with
        | .done s old => State.settleBlock (s.heldDone h old) b fuel
        | .bad s => State.settleBlock ((s.logRefused h).heldBad h) b fuel
        | .needs d =>
          let same := s.held.filter (fun x => x.pa / 1024 == b)
          let others := s.held.filter (fun x => x.pa / 1024 != b)
          ({ s with held := others ++ { h with need := d } :: same }).balloon h.vf h.by' h.pa d

/-- Serve the held writes of a hedge on a die in the order in which they were held (R392 step 3). -/
def State.serve (s : State) (vf die : Nat) : Nat → State
  | 0 => s
  | fuel + 1 =>
    match s.held.find? (fun h => h.vf == vf && h.die == die && h.need != 0 && !h.expired) with
    | none => s
    | some h =>
      match ({ s with held := s.held.filter (fun x => x.id != h.id) }).physWrite h.vf h.pa h.op true with
      | .done s old => State.serve ((s.heldDone h old).settleBlock (h.pa / 1024) s.held.length) vf die fuel
      | .bad s => State.serve (((s.logRefused h).heldBad h).settleBlock (h.pa / 1024) s.held.length) vf die fuel
      | .needs _ => s

/-- Serve as many as there are. -/
def State.serveAll (s : State) (vf die : Nat) : State := s.serve vf die s.held.length

/-! ## The order of a host's writes (R426) -/

/-- Is a write of a function held (R392)? -/
def State.hostBlocked (s : State) (vf : Nat) : Bool := s.held.any (fun h => h.by' == .host vf && !h.expired)

/-- Must a further write of a function wait? -/
def State.hostWaits (s : State) (vf : Nat) : Bool := s.hostBlocked vf || s.hostq.any (fun x => x.1 == vf)

/-! ## Bytes as a thread sees them -/

/-- A thread's own held stores over the bytes of memory (R202, R393). -/
def State.overlay (s : State) (w : Writer) (pa : Nat) (b : List Byte) : List Byte :=
  (s.held.filter (fun h => h.by' == w)).foldl (fun b h => match h.op with
    | .store d => layer pa b h.pa d
    | .zero n => layer pa b h.pa (List.replicate n 0)
    | _ => b) b

end Sys2Proof.Machine
end

