-- ==== Sys2Proof/Machine/Command.lean ====
section
/-! DEFINITION. What every command shares: its slot in the ring, its completion (R405, R407) and the command log (R416,
R417). -/

namespace Sys2Proof.Machine

/-- The bytes of a command slot. -/
def State.slotBytes (s : State) (v : Vf) (idx : Nat) : List Byte :=
  let a := v.slot idx
  if a.1 then s.hostBytes (v.no, none) a.2 64 else (s.physRead a.2 64).getD (List.replicate 64 0xFF)

/-- Log a slot that cannot be read (R396). -/
def State.logSlot (s : State) (v : Vf) (idx : Nat) : State :=
  if (v.slot idx).1 then s else s.logRange v.no (v.slot idx).2 64

/-- The effects of a command are done: STATUS is written, then HEAD advances (R405). A replayed command writes none, and a
status other than 0x0 stops the replay and sets QERR (R418). -/
def State.finishCommand (s : State) (vf id st : Nat) : State :=
  let v := s.vf vf
  match v.cmds.find? (fun c => c.id == id) with
  | none => s
  | some c =>
    if c.replay then
      let rest := v.cmds.filter (fun x => x.id != id)
      s.setVf { v with cmds := rest, rpl := v.rpl && st == 0, qerr := v.qerr || st != 0 }
    else s.writeStatus vf c st

/-- A launch ends once every workgroup has retired, or was cancelled before it was bound (R406, R407, R415). -/
def State.settleLaunch (s : State) (vf : Nat) (no : Word) : State :=
  match s.launches.find? (fun l => l.vf == vf && l.no == no) with
  | none => s
  | some l =>
    if l.retired == l.bound.length && (l.cancelled || l.bound.length == l.nwgx * l.nwgy * l.nwgz) then
      let c := s.ctx l.ctxn
      let st := if l.status != 0 then l.status else if c.lost then 5 else if c.faulted then 4 else 0
      { s with launches := s.launches.filter (fun x => !(x.vf == vf && x.no == no)) }.finishCommand vf l.cmd st
    else s

/-- Change a launch. -/
def State.modLaunch (s : State) (vf : Nat) (no : Word) (f : Launch → Launch) : State :=
  { s with launches := s.launches.map (fun l => if l.vf == vf && l.no == no then f l else l) }

/-- A workgroup of a launch has retired. -/
def State.countRetired (s : State) (vf : Nat) (no : Word) : State :=
  (s.modLaunch vf no (fun l => { l with retired := l.retired + 1 })).settleLaunch vf no

end Sys2Proof.Machine
end

