-- ==== Sys2Proof/Machine/Flags.lean ====
section
/-! DEFINITION. The predicates that instructions compute: comparisons (R145, R164, R171), carries (R162), truth tables
(R165), saturation (R158), and the source modifiers of R77. -/

namespace Sys2Proof.Machine

/-- CMP conditions on two integers (R164). -/
def cmpHolds (cond : BitVec 3) (a b : Int) : Bool :=
  match cond.toNat with
  | 0 => a == b
  | 1 => a != b
  | 2 => decide (a < b)
  | 3 => decide (a ≤ b)
  | 4 => decide (b < a)
  | _ => decide (b ≤ a)

/-- FCMP conditions (R145). -/
def fcmpHolds (cond : BitVec 3) (a b : Num) : Bool :=
  let un := a == .nan || b == .nan
  match cond.toNat with
  | 0 => a.eqv b
  | 1 => un || !a.eqv b
  | 2 => a.lt b
  | 3 => !un && !b.lt a
  | 4 => b.lt a
  | 5 => !un && !a.lt b
  | 6 => !un
  | _ => un

/-- KCMP conditions on 64-bit values (R171). -/
def kcmpHolds (fn : Nat) (a b : Dword) : Bool :=
  match fn with
  | 0 => a == b
  | 1 => a != b
  | 2 => decide (a.toInt < b.toInt)
  | 3 => decide (a.toInt ≤ b.toInt)
  | 4 => decide (b.toInt < a.toInt)
  | 5 => decide (b.toInt ≤ a.toInt)
  | 6 => decide (a.toNat < b.toNat)
  | 7 => decide (a.toNat ≤ b.toNat)
  | 8 => decide (b.toNat < a.toNat)
  | _ => decide (b.toNat ≤ a.toNat)

/-- The carry-in of ADDC, SUBB and MADW (R162). -/
def carryIn (c : CarryW2) (t : Thread) : Nat := if c.ciz then 0 else if t.pred c.pi then 1 else 0

/-- The result of a truth table (R165). -/
def lutBit (lut : BitVec 4) (a b : Bool) : Bool := bit lut ((if a then 2 else 0) + (if b then 1 else 0))

/-- ABS, then NEG, on an INT32 source: modulo 2^32, the most negative value unchanged by ABS (R77). -/
def modInt (m : Bool × Bool) (x : Word) : Word :=
  let y := if m.1 && bit x 31 then -x else x
  if m.2 then -y else y

/-- ABS, then NEG, on an exact value (R77). -/
def modNum (m : Bool × Bool) (x : Num) : Num :=
  let y := if m.1 then x.abs else x
  if m.2 then y.neg else y

/-- An exact signed result, reduced modulo 2^32 or saturated to INT32 under CLAMP 0x3 (R158). -/
def narrow32 (clamp : BitVec 2) (e : Int) : Word :=
  if clamp == 3 then BitVec.ofInt 32 (satInt 32 e) else BitVec.ofInt 32 e

end Sys2Proof.Machine
end

