-- ==== Sys2Proof/Machine/Float.lean ====
section
/-! DEFINITION. Opcodes 0x38 to 0x4F: floating point (R138 to R155). -/

namespace Sys2Proof.Machine

/-- The four random words of a thread's next block (R128). -/
def srWords (w : Workgroup) (t : Thread) : List Word :=
  philox t.srctr0 t.srctr1 (BitVec.ofNat 32 t.tidx) w.lin t.srkey0 t.srkey1

/-- Advance the 64-bit counter SRCTR1:SRCTR0 (R128). -/
def Thread.srAdvance (t : Thread) (n : Nat) : Thread :=
  let c : Dword := (t.srctr1 ++ t.srctr0) + BitVec.ofNat 64 n
  { t with srctr0 := c.setWidth 32, srctr1 := (c >>> 32).setWidth 32 }

/-- An instruction that rounds: under RM 0x5 it uses one block and the counter advances by 1 (R128). `g` gets the
words of the block. -/
def State.rounding (s : State) (i : Instr) (g : Workgroup → Thread → List Word → Thread) : Out1 :=
  s.alu i (fun w t =>
    if i.form.rm == 5 then (g w t (srWords w t)).srAdvance 1 else g w t [])

/-- DSCL, Round and Clamp of an exact result (R77). -/
def finishNum (fmt : Fmt) (f : Form) (r : Word) (e : Num) : Nat :=
  fmt.clampEncode f.clamp (fmt.round f.rm r (e.scale f.dscl))

/-- Is the mode toward −∞, which decides the sign of a cancelled sum (R124)? -/
def isRdn (f : Form) : Bool := f.rm == 2

/-- FP32 operand A, B or C with its modifiers. -/
def V3.numA (f : V3) (w : Workgroup) (t : Thread) : Num := modNum f.fm.modA (Fmt.fp32.decode (f.srcA w t).toNat)
/-- FP32 operand B. -/
def V3.numB (f : V3) (w : Workgroup) (t : Thread) : Num := modNum f.fm.modB (Fmt.fp32.decode (f.srcB w t).toNat)
/-- FP32 operand C. -/
def V3.numC (f : V3) (w : Workgroup) (t : Thread) : Num := modNum f.fm.modC (Fmt.fp32.decode (f.srcC w t).toNat)

/-- An FP32 arithmetic instruction (R143). -/
def State.fp32 (s : State) (i : Instr) (f : V3) (e : Workgroup → Thread → Num) : Out1 :=
  s.rounding i (fun w t r => t.setReg f.d.toNat (BitVec.ofNat 32 (finishNum .fp32 f.fm (r.getD 0 0) (e w t))))

/-- FADD (R143). -/
def execFadd (f : V3) (s : State) : Out1 :=
  s.fp32 (.fadd f) f (fun w t => Num.add (isRdn f.fm) (V3.numA f w t) (V3.numB f w t))
/-- FSUB (R143). -/
def execFsub (f : V3) (s : State) : Out1 :=
  s.fp32 (.fsub f) f (fun w t => Num.add (isRdn f.fm) (V3.numA f w t) (V3.numB f w t).neg)
/-- FMUL (R143). -/
def execFmul (f : V3) (s : State) : Out1 :=
  s.fp32 (.fmul f) f (fun w t => Num.mul (V3.numA f w t) (V3.numB f w t))
/-- FFMA (R143): the product is not rounded. -/
def execFfma (f : V3) (s : State) : Out1 :=
  s.fp32 (.ffma f) f (fun w t =>
    Num.add (isRdn f.fm) (Num.mul (V3.numA f w t) (V3.numB f w t)) (V3.numC f w t))
/-- FDIV (R143). -/
def execFdiv (f : V3) (s : State) : Out1 :=
  s.fp32 (.fdiv f) f (fun w t => Num.div (V3.numA f w t) (V3.numB f w t))

/-- FMIN and FMAX of two values, −0 below +0 (R144). -/
def selectMinMax (isMax : Bool) (a b : Num) : Num :=
  match a, b with
  | .nan, .nan => .nan
  | .nan, _ => b
  | _, .nan => a
  | _, _ =>
    let below : Bool := a.lt b || (!b.lt a && (match a, b with | .fin x _ _, .fin y _ _ => x && !y | _, _ => false))
    if below != isMax then a else b

/-- Clamp alone on a value that the format holds (R144, R151, R153). -/
def clampOnly (fmt : Fmt) (f : Form) (x : Num) : Nat := fmt.clampEncode f.clamp (fmt.round 0 0 x)

/-- FMIN (R144). -/
def execFmin (f : V3) (s : State) : Out1 :=
  s.alu (.fmin f) (fun w t =>
    t.setReg f.d.toNat (BitVec.ofNat 32 (clampOnly .fp32 f.fm (selectMinMax false (V3.numA f w t) (V3.numB f w t)))))
/-- FMAX (R144). -/
def execFmax (f : V3) (s : State) : Out1 :=
  s.alu (.fmax f) (fun w t =>
    t.setReg f.d.toNat (BitVec.ofNat 32 (clampOnly .fp32 f.fm (selectMinMax true (V3.numA f w t) (V3.numB f w t)))))
/-- FCMP (R145). -/
def execFcmp (f : CmpForm) (s : State) : Out1 :=
  s.alu (.fcmp f) (fun w t =>
    t.setPred f.pd (fcmpHolds f.cond (modNum f.fm.modA (Fmt.fp32.decode (f.srcA w t).toNat))
      (modNum f.fm.modB (Fmt.fp32.decode (f.srcB w t).toNat))))

/-- Round to an integer value, keeping the sign of a zero (R146). -/
def roundIntegral (rm : BitVec 3) (r : Word) : Num → Num
  | .fin s n d => .fin s (roundInt rm r s n d).natAbs 1
  | x => x

/-- FRND (R146). -/
def execFrnd (f : V3) (s : State) : Out1 :=
  s.rounding (.frnd f) (fun w t r =>
    t.setReg f.d.toNat
      (BitVec.ofNat 32 (clampOnly .fp32 f.fm (roundIntegral f.fm.rm (r.getD 0 0) (V3.numA f w t)))))

/-- A conversion source with its modifiers: an INT8 is sign-extended first, and an INT32 or INT64 takes ABS and NEG
modulo its width (R77, R139, R149). -/
def cvtSource (fmt : Nat) (m : Bool × Bool) (x : Nat) : Num :=
  match fmt with
  | 5 => Num.ofInt (modInt m ((BitVec.ofNat 8 x).signExtend 32)).toInt
  | 6 => Num.ofInt (modInt m (BitVec.ofNat 32 x)).toInt
  | 7 =>
    let y := BitVec.ofNat 64 x
    let y := if m.1 && bit y 63 then -y else y
    Num.ofInt (if m.2 then -y else y).toInt
  | _ => modNum m (elemValue fmt [] (x % 2 ^ fmtBits fmt))

/-- The converted encoding (R149, R150). -/
def cvtResult (dst : Nat) (f : Form) (r : Word) (x : Num) : Nat :=
  match fpFmt dst with
  | some fmt => finishNum fmt f r x
  | none =>
    let w := fmtBits dst
    (BitVec.ofInt w (clampInt f.clamp (toIntFmt w f.rm r x))).toNat

/-- FCVT (R149). -/
def execFcvt (f : RI8) (s : State) : Out1 :=
  s.rounding (.fcvt f) (fun w t r =>
    t.setReg f.d.toNat (BitVec.ofNat 32 (cvtResult (bits f.imm 7 4).toNat f.fm (r.getD 0 0)
      (cvtSource (bits f.imm 3 0).toNat f.fm.modA (f.srcA w t).toNat))))

/-- DCVT (R150). -/
def execDcvt (f : RI8) (s : State) : Out1 :=
  s.rounding (.dcvt f) (fun w t r =>
    let src := (bits f.imm 3 0).toNat
    let dst := (bits f.imm 7 4).toNat
    let a := if cvtRegs src == 2 then (f.srcA64 w t).toNat else (f.srcA w t).toNat
    let y := cvtResult dst f.fm (r.getD 0 0) (cvtSource src f.fm.modA a)
    if cvtRegs dst == 2 then t.setPair f.d.toNat (BitVec.ofNat 64 y) else t.setReg f.d.toNat (BitVec.ofNat 32 y))

/-- The special values of FSF, and the points where a result is exact (R151): none elsewhere. -/
def fsfSpecial (fn : Nat) (a : Num) : Option Num :=
  match a with
  | .nan => some .nan
  | .inf s =>
    match fn with
    | 0 => some (.fin s 0 1)
    | 1 => some (if s then .nan else .fin false 0 1)
    | 2 => some (if s then .fin false 0 1 else .inf false)
    | 3 => some (if s then .nan else .inf false)
    | 6 => some (.fin s 1 1)
    | _ => some .nan
  | .fin s n d =>
    if n == 0 then
      match fn with
      | 0 => some (.inf s)
      | 1 => some (.inf s)
      | 2 => some (.fin false 1 1)
      | 3 => some (.inf true)
      | 5 => some (.fin false 1 1)
      | _ => some (.fin s 0 1)
    else
      match fn with
      | 1 => if s then some .nan else none
      | 3 => if s then some .nan else if n == d then some (.fin false 0 1) else none
      | _ => none

/-! ### The bounds of FSF (R151)

The exact result is enclosed by fixed-point arithmetic whose error lies far below the bounds. -/

/-- One, in fixed point with 160 fraction bits. -/
def fxOne : Nat := 2 ^ 160

/-- A product of complex numbers in fixed point. -/
def fxMul (x y : Int × Int) : Int × Int :=
  ((x.1 * y.1 - x.2 * y.2) / (fxOne : Int), (x.1 * y.2 + x.2 * y.1) / (fxOne : Int))

/-- The exponential series of a small complex number, from its term `j` on. -/
def fxSeries (z : Int × Int) : Nat → Nat → Int × Int
  | 0, _ => (fxOne, 0)
  | k + 1, j =>
    let r := fxMul z (fxSeries z k (j + 1))
    ((fxOne : Int) + r.1 / (j : Int), r.2 / (j : Int))

/-- Square again and again. -/
def fxSquares : Nat → Int × Int → Int × Int
  | 0, z => z
  | k + 1, z => fxSquares k (fxMul z z)

/-- The exponential of a complex number whose parts lie below 2^17. -/
def fxExp (re im : Int) : Int × Int := fxSquares 24 (fxSeries (re / 2 ^ 24, im / 2 ^ 24) 22 1)

/-- `acc` times 2 to the fraction `f / 2^80`, bit by bit, where `root` is 2 to the weight of the bit before. -/
def fxExp2 : Nat → Nat → Nat → Nat → Nat
  | 0, _, _, acc => acc
  | k + 1, f, root, acc =>
    let r := Nat.sqrt (root * fxOne)
    if 2 ^ 79 ≤ f then fxExp2 k (2 * f - 2 ^ 80) r (acc * r / fxOne) else fxExp2 k (2 * f) r acc

/-- The next `k` bits of the base-2 logarithm of `m`, which lies in [1, 2). -/
def fxLog2 : Nat → Nat → Nat → Nat
  | 0, _, acc => acc
  | k + 1, m, acc =>
    let q := m * m / fxOne
    if 2 * fxOne ≤ q then fxLog2 k (q / 2) (2 * acc + 1) else fxLog2 k q (2 * acc)

/-- A fraction. -/
abbrev Frac : Type := Int × Nat

/-- Is one fraction at most another? -/
def Frac.le (x y : Frac) : Bool := decide (x.1 * y.2 ≤ y.1 * x.2)

/-- What the error of `fxExp` cannot exceed: 2^−110. -/
def fxErr : Int := 2 ^ 50

/-- Where 2^a lies, for the numerator `n` and the denominator `d` of a: between the powers of two on its two sides. -/
def ex2Between (n : Int) (d : Nat) : Frac × Frac :=
  let v : Int := n * 2 ^ 80 / (d : Int)
  if v < -(160 * 2 ^ 80) then ((0, 1), (1, 2 ^ 160))
  else if 129 * 2 ^ 80 ≤ v then ((2 ^ 129, 1), (2 ^ 130, 1))
  else
    let e := v / 2 ^ 80
    let f := (v % 2 ^ 80).toNat
    let lo := max fxOne (fxExp2 80 f (2 * fxOne) fxOne - 2 ^ 20)
    let hi :=
      if f == 0 && v * (d : Int) == n * 2 ^ 80 then fxOne
      else if f + 1 == 2 ^ 80 then 2 * fxOne
      else min (2 * fxOne) (fxExp2 80 (f + 1) (2 * fxOne) fxOne + 2 ^ 20)
    let x := scale2 lo fxOne e
    let y := scale2 hi fxOne e
    ((x.1, x.2), (y.1, y.2))

/-- Where log2 of `n / d` lies. -/
def lg2Between (n d : Nat) : Frac × Frac :=
  let e := ilog2 n d
  let r := scale2 n d (-e)
  let m := r.1 * fxOne / r.2
  let a : Int := fxLog2 70 m 0
  ((e * 2 ^ 70 + a, 2 ^ 70), (if m == fxOne then e * 2 ^ 70 else min ((e + 1) * 2 ^ 70) (e * 2 ^ 70 + a + 2), 2 ^ 70))

/-- Where tanh of `a / 2^160` lies: below a, and below 1. -/
def tanhBetween (a : Nat) : Frac × Frac :=
  let one : Int := fxOne
  let t := (fxExp (-(min (2 * a) (64 * fxOne) : Nat)) 0).1
  let lo : Frac := (max 0 (one - t - fxErr), (one + t + fxErr).toNat)
  let hi : Frac := if 64 * fxOne ≤ 2 * a then (1, 1) else (one - t + fxErr, (one + t - fxErr).toNat)
  let top : Frac := (min a fxOne, fxOne)
  (lo, if Frac.le hi top then hi else top)

/-- An interval that holds the exact result of FSF for the value `n / d` with sign `s`: a point where the result is exact,
else one whose length lies far below the bounds, and which a result that comes close to a simple value does not cross. -/
def fsfBetween (fn : Nat) (s : Bool) (n d : Nat) : Frac × Frac :=
  let one : Int := fxOne
  let a := n * fxOne / d
  match fn with
  | 0 => let x : Frac := (if s then -(d : Int) else d, n); (x, x)
  | 1 =>
    let r := Nat.sqrt (d * 2 ^ 480 / n)
    ((r, 2 ^ 240), (if r * r * n == d * 2 ^ 480 then r else r + 1, 2 ^ 240))
  | 2 => ex2Between (if s then -(n : Int) else n) d
  | 3 => lg2Between n d
  | 4 =>
    let x := (fxExp 0 a).2
    let small := decide (a < 3 * fxOne)
    ((max (if small then 0 else -one) (x - fxErr), fxOne), (min (if small then min (a : Int) one else one) (x + fxErr), fxOne))
  | 5 =>
    let x := (fxExp 0 a).1
    ((max (-one) (x - fxErr), fxOne), (min one (x + fxErr), fxOne))
  | _ => tanhBetween a

/-- One unit in the last place of an FP32 value of magnitude `n / d`. -/
def ulp32 (n d : Nat) : Nat × Nat := scale2 1 1 ((if n == 0 then -126 else max (ilog2 n d) (-126)) - 23)

/-- The bound of the table of R151 on the distance from an exact result of the magnitude of `x`, for the value `n / d`. A
magnitude of `.tanh` lies below 1, where 2 ulp are at most 2^−23. -/
def fsfBound (fn : Nat) (n d : Nat) (x : Int × Nat) : Nat × Nat :=
  let u := ulp32 x.1.natAbs x.2
  match fn with
  | 0 => u
  | 1 | 2 => (2 * u.1, u.2)
  | 3 => if d ≤ 2 * n && n ≤ 2 * d then (1, 2 ^ 22) else (2 * u.1, u.2)
  | 6 => (1, 2 ^ 23)
  | _ => (1, 2 ^ 21)

/-- Of two fractions, the one of smaller magnitude. -/
def Frac.nearer (x y : Frac) : Frac := if x.1.natAbs * y.2 ≤ y.1.natAbs * x.2 then x else y

/-- Does `v` lie within `b` of every value between two? -/
def closeTo (v : Frac) (x : Frac × Frac) (b : Nat × Nat) : Bool :=
  decide ((v.1 * x.1.2 - x.1.1 * v.2) * b.2 ≤ b.1 * (v.2 * x.1.2)) && decide ((x.2.1 * v.2 - v.1 * x.2.2) * b.2 ≤ b.1 * (v.2 * x.2.2))

/-- Has FSF no stated error: `.sin` and `.cos` of a magnitude above 131,072? -/
def fsfFar (fn n d : Nat) : Bool := (fn == 4 || fn == 5) && decide (131072 * d < n)

/-- Does an FP32 encoding lie within the bound of the function for the value `n / d` with sign `s` (R151)? An infinity
stands for 2^128 and for all beyond it. -/
def fsfAllowed (fn : Nat) (s : Bool) (n d c : Nat) : Bool :=
  let x := fsfBetween fn s n d
  let b := fsfBound fn n d (Frac.nearer x.1 x.2)
  match Fmt.fp32.decode c with
  | .nan => false
  | .inf sc =>
    !fsfFar fn n d && (closeTo (if sc then -(2 ^ 128) else 2 ^ 128, 1) x b
      || (if sc then Frac.le x.2 (-(2 ^ 128), 1) else Frac.le (2 ^ 128, 1) x.1))
  | .fin sc cn cd => if fsfFar fn n d then decide (cn ≤ cd) else closeTo (if sc then -(cn : Int) else cn, cd) x b

/-- The value taken where a candidate is not allowed: the result rounded to nearest; 0 where no error is stated. -/
def fsfFallback (fn : Nat) (s : Bool) (n d : Nat) : Nat :=
  if fsfFar fn n d then 0
  else
    let x := (fsfBetween fn s n d).1
    Fmt.fp32.clampEncode 0 (Fmt.fp32.round 0 0 (.fin (decide (x.1 < 0)) x.1.natAbs x.2))

/-- FSF on a value, as an FP32 encoding: the special values exactly, elsewhere a free value that keeps the symmetries
(`.sin` and `.tanh` odd, `.cos` even) and the bound of the function (R151; entry 10). -/
def fsfResult (fn : Nat) (a : Num) : Nat :=
  match fsfSpecial fn a with
  | some y => Fmt.fp32.clampEncode 0 (Fmt.fp32.round 0 0 y)
  | none =>
    match a with
    | .fin s n d =>
      let even : Bool := fn == 4 || fn == 5 || fn == 6
      let s' := s && !even
      let c := (Config.fsf fn (BitVec.ofNat 32 (Fmt.fp32.clampEncode 0 (Fmt.fp32.round 0 0 (.fin s' n d))))).toNat
      let y := if fsfAllowed fn s' n d c then c else fsfFallback fn s' n d
      if s && (fn == 4 || fn == 6) then (y + 2 ^ 31) % 2 ^ 32 else y
    | _ => Fmt.fp32.canon

/-- FSF (R151). -/
def execFsf (f : RI8) (s : State) : Out1 :=
  s.alu (.fsf f) (fun w t =>
    let a := modNum f.fm.modA (Fmt.fp32.decode (f.srcA w t).toNat)
    t.setReg f.d.toNat (BitVec.ofNat 32 (clampOnly .fp32 f.fm (Fmt.fp32.decode (fsfResult f.imm.toNat a)))))

/-- The class mask of an FP32 encoding (R148). -/
def classMask (x : Word) : Nat :=
  let e := x.toNat / 2 ^ 23 % 256
  let fr := x.toNat % 2 ^ 23
  let s := bit x 31
  if e == 255 then (if fr != 0 then 256 else if s then 1 else 128)
  else if e == 0 then (if fr == 0 then (if s then 8 else 16) else if s then 4 else 32)
  else if s then 2 else 64

/-- FCLASS (R148). -/
def execFclass (f : V3) (s : State) : Out1 :=
  s.alu (.fclass f) (fun w t => t.setReg f.d.toNat (BitVec.ofNat 32 (classMask (f.srcA w t))))

/-! ## Packed pairs (R152, R153) -/

/-- The element format of a packed instruction. -/
def packedFmt (bf : Bool) : Fmt := if bf then .bf16 else .fp16

/-- Element 0 or 1 of a packed source with its modifiers. -/
def packedElem (fmt : Fmt) (m : Bool × Bool) (x : Word) (hi : Bool) : Num :=
  modNum m (fmt.decode (if hi then x.toNat / 65536 else x.toNat % 65536))

/-- Two elements in one register (R122). -/
def packPair (lo hi : Nat) : Word := BitVec.ofNat 32 (lo + 65536 * hi)

/-- A packed arithmetic instruction: element i draws word i (R152). -/
def State.packed (s : State) (i : Instr) (f : V3) (bf : Bool) (e : Num → Num → Num → Num) : Out1 :=
  let fmt := packedFmt bf
  s.rounding i (fun w t r =>
    let one (hi : Bool) : Nat :=
      finishNum fmt f.fm (r.getD (if hi then 1 else 0) 0)
        (e (packedElem fmt f.fm.modA (f.srcA w t) hi) (packedElem fmt f.fm.modB (f.srcB w t) hi)
          (packedElem fmt f.fm.modC (f.srcC w t) hi))
    t.setReg f.d.toNat (packPair (one false) (one true)))

/-- HADD2 (R152). -/
def execHadd2 (f : V3) (bf : Bool) (s : State) : Out1 :=
  s.packed (.hadd2 f bf) f bf (fun a b _ => Num.add (isRdn f.fm) a b)
/-- HMUL2 (R152). -/
def execHmul2 (f : V3) (bf : Bool) (s : State) : Out1 := s.packed (.hmul2 f bf) f bf (fun a b _ => Num.mul a b)
/-- HFMA2 (R152). -/
def execHfma2 (f : V3) (bf : Bool) (s : State) : Out1 :=
  s.packed (.hfma2 f bf) f bf (fun a b c => Num.add (isRdn f.fm) (Num.mul a b) c)

/-- HMAX2 and HMIN2 (R152). -/
def State.packedSelect (s : State) (i : Instr) (f : V3) (bf isMax : Bool) : Out1 :=
  let fmt := packedFmt bf
  s.alu i (fun w t =>
    let one (hi : Bool) : Nat :=
      clampOnly fmt f.fm (selectMinMax isMax (packedElem fmt f.fm.modA (f.srcA w t) hi)
        (packedElem fmt f.fm.modB (f.srcB w t) hi))
    t.setReg f.d.toNat (packPair (one false) (one true)))

/-- HMAX2 (R152). -/
def execHmax2 (f : V3) (bf : Bool) (s : State) : Out1 := s.packedSelect (.hmax2 f bf) f bf true
/-- HMIN2 (R152). -/
def execHmin2 (f : V3) (bf : Bool) (s : State) : Out1 := s.packedSelect (.hmin2 f bf) f bf false

/-- PACK2 (R153). -/
def execPack2 (f : V3) (bf : Bool) (s : State) : Out1 :=
  let fmt := packedFmt bf
  s.rounding (.pack2 f bf) (fun w t r =>
    t.setReg f.d.toNat (packPair (finishNum fmt f.fm (r.getD 0 0) (V3.numA f w t))
      (finishNum fmt f.fm (r.getD 1 0) (V3.numB f w t))))

/-- UNPK2 (R153). -/
def execUnpk2 (f : RI8) (s : State) : Out1 :=
  s.alu (.unpk2 f) (fun w t =>
    t.setReg f.d.toNat (BitVec.ofNat 32
      (clampOnly .fp32 f.fm (packedElem (packedFmt (bit f.imm 1)) f.fm.modA (f.srcA w t) (bit f.imm 0)))))

/-! ## FP64 (R154) -/

/-- An FP64 arithmetic instruction. -/
def State.fp64 (s : State) (i : Instr) (f : V3) (e : Num → Num → Num → Num) : Out1 :=
  s.rounding i (fun w t r =>
    let a := modNum f.fm.modA (Fmt.fp64.decode (f.srcA64 w t).toNat)
    let b := modNum f.fm.modB (Fmt.fp64.decode (f.srcB64 w t).toNat)
    let c := modNum f.fm.modC (Fmt.fp64.decode (f.srcC64 w t).toNat)
    t.setPair f.d.toNat (BitVec.ofNat 64 (finishNum .fp64 f.fm (r.getD 0 0) (e a b c))))

/-- DADD (R154). -/
def execDadd (f : V3) (s : State) : Out1 := s.fp64 (.dadd f) f (fun a b _ => Num.add (isRdn f.fm) a b)
/-- DMUL (R154). -/
def execDmul (f : V3) (s : State) : Out1 := s.fp64 (.dmul f) f (fun a b _ => Num.mul a b)
/-- DFMA (R154). -/
def execDfma (f : V3) (s : State) : Out1 :=
  s.fp64 (.dfma f) f (fun a b c => Num.add (isRdn f.fm) (Num.mul a b) c)

/-- FSCL (R147): n is B as INT32, limited to −512 to 511. -/
def execFscl (f : V3) (s : State) : Out1 :=
  s.rounding (.fscl f) (fun w t r =>
    let n := max (-512) (min (f.srcB w t).toInt 511)
    t.setReg f.d.toNat (BitVec.ofNat 32
      (Fmt.fp32.clampEncode f.fm.clamp (Fmt.fp32.round f.fm.rm (r.getD 0 0) ((V3.numA f w t).scale n)))))

end Sys2Proof.Machine
end

