-- ==== Sys2Proof/Machine/Load.lean ====
section
/-! DEFINITION. The register pages as reads see them (R401, R402, R414, R415, R420, R436), and the accesses of a
thread to the places behind its addresses (R184 to R186, R202, R389, R393, R425, R431). -/

namespace Sys2Proof.Machine

/-! ## Register pages -/

/-- A register: offset, size and whether it accepts writes. -/
structure RegRow where
  off : Nat
  size : Nat
  w : Bool
  deriving DecidableEq, Repr

/-- The registers of a virtual function but FQCONS and DBGWIN (R402). HEAD accepts a write while a replay runs alone: R418 has
the driver set it, where R402 marks it as read only (entry 69). -/
def vfRegs : List RegRow :=
  [⟨0x000, 8, true⟩, ⟨0x008, 8, true⟩, ⟨0x010, 8, true⟩, ⟨0x018, 4, true⟩, ⟨0x01C, 4, false⟩, ⟨0x020, 8, true⟩,
   ⟨0x030, 8, true⟩, ⟨0x038, 8, true⟩, ⟨0x040, 8, true⟩, ⟨0x048, 4, true⟩, ⟨0x050, 8, true⟩, ⟨0x058, 8, true⟩,
   ⟨0x060, 4, true⟩, ⟨0x080, 8, true⟩, ⟨0x088, 4, true⟩, ⟨0x090, 4, false⟩, ⟨0x098, 4, true⟩, ⟨0x0A0, 8, true⟩,
   ⟨0x0A8, 8, true⟩]

/-- The registers of the physical function but the hedge records, QCTL and SENS (R414, R436). -/
def pfRegs : List RegRow :=
  [⟨0x3800, 8, true⟩, ⟨0x3808, 4, true⟩, ⟨0x380C, 4, true⟩, ⟨0x3810, 4, false⟩, ⟨0x4000, 8, true⟩,
   ⟨0x4008, 4, true⟩, ⟨0x4010, 8, false⟩, ⟨0x4018, 8, true⟩, ⟨0x4020, 4, true⟩, ⟨0x4028, 8, true⟩,
   ⟨0x4030, 4, true⟩, ⟨0x4034, 4, false⟩]

/-- The fields of a hedge record as registers, by their offset in the record (R412): those of more than 8 bytes in parts of 8. -/
def hedgeRow (off o : Nat) : Option RegRow :=
  if 0x38 ≤ o then (if o % 8 == 0 then some ⟨off, 8, true⟩ else none)
  else (([(0, 2), (2, 2), (4, 2), (6, 2), (8, 2), (0x0C, 4), (0x10, 4), (0x18, 8), (0x20, 4), (0x24, 4), (0x28, 1), (0x29, 1),
      (0x2A, 1), (0x2C, 4), (0x30, 4), (0x34, 4)] : List (Nat × Nat)).find? (fun x => x.1 == o)).map (fun x => ⟨off, x.2, true⟩)

/-- The register at an offset of a function's page: 0 is the physical function. An access names a register by its
offset and covers it whole (entry 24). -/
def regRow (fn off : Nat) : Option RegRow :=
  if fn == 0 then
    if 0x3000 ≤ off && off < 0x3200 && off % 8 == 0 then some ⟨off, 8, true⟩
    else if 0x4100 ≤ off && off < 0x4200 && off % 8 == 0 then some ⟨off, 8, false⟩
    else if 0x1000 ≤ off && off < 0x3000 then hedgeRow off (off % 128)
    else pfRegs.find? (fun r => r.off == off)
  else if 0x100 ≤ off && off < 0x180 && off % 8 == 0 then some ⟨off, 8, true⟩
  else if 0x800 ≤ off && off < 0x1000 && off % 8 == 0 then some ⟨off, 8, true⟩
  else vfRegs.find? (fun r => r.off == off)

/-- The CSRs that DBGWIN shows, in ascending number (R420). -/
def csrList : List Nat := [0x000, 0x001, 0x002, 0x010, 0x011, 0x012, 0x020, 0x021, 0x022, 0x023, 0x030, 0x040]

/-- The value of a CSR of R306; none for an unlisted number. -/
def csrValue (w : Workgroup) (t : Thread) (n : Nat) : Option Dword :=
  match n with
  | 0x000 => some t.trapvec
  | 0x001 => some t.trapcause
  | 0x002 => some t.epc
  | 0x010 => some t.stkbase
  | 0x011 => some t.stklim
  | 0x012 => some t.stktop
  | 0x020 => some (t.srkey0.setWidth 64)
  | 0x021 => some (t.srkey1.setWidth 64)
  | 0x022 => some (t.srctr0.setWidth 64)
  | 0x023 => some (t.srctr1.setWidth 64)
  | 0x030 => some (if w.kernel.det then 1 else 0)
  | 0x040 => some ((if w.sstepEn then 1 else 0) + (if w.sstepFrz then 2 else 0))
  | _ => none

/-- The thread that DBGSEL selects, while it is held for the debugger, in a core or in the save area (R419, R420). -/
def State.debugged (s : State) (v : Vf) : Option (Workgroup × Thread) :=
  let ctxn := 16 * (v.no - 1) + (bits v.dbgsel 51 48).toNat
  match (s.wgs ++ s.saved.map (·.wg)).find? (fun w => w.ctxn == ctxn && w.foreign.isNone && w.lin == bits v.dbgsel 47 16) with
  | none => none
  | some w =>
    match (s.threads ++ s.saved.flatMap (·.threads)).find? (fun t => t.key == ⟨w.id, (bits v.dbgsel 15 0).toNat⟩) with
    | none => none
    | some t => match t.status with
      | .parked { kind := .debug _, .. } => some (w, t)
      | _ => none

/-- The 8 bytes of DBGWIN at an offset (R420). -/
def debugWord (w : Workgroup) (t : Thread) (off : Nat) : Dword :=
  if off == 0 then (match t.status with | .parked { kind := .debug e, .. } => e | _ => t.pc)
  else if off == 8 then (t.p &&& 0x7FFF#16).setWidth 64
  else if off < 0x80 then ((csrList[(off - 0x10) / 8]?).bind (csrValue w t)).getD 0
  else if off == 0x100 then Config.dbgCarry t.vb t.vn t.ub t.un t.hops
  else if 0x400 ≤ off && off < 0x600 then
    let n := (off - 0x400) / 4
    (if n + 1 < w.allot then t.reg (n + 1) else 0) ++ (if n < w.allot then t.reg n else 0)
  else 0

/-- STATUS of a virtual function (R402). -/
def State.vfStatus (s : State) (v : Vf) : Nat :=
  let mine := s.ctxs.filter (fun c => vfOfCtx c.ctxn == v.no)
  (if v.qerr then 1 else 0) + (if v.migok then 2 else 0) + (if mine.any (·.faulted) then 4 else 0)
    + (if mine.any (·.lost) then 8 else 0) + (if v.rpl then 16 else 0)

/-- CTXSTAT (R402). -/
def State.ctxstat (s : State) (v : Vf) : Nat :=
  ((List.range 16).map (fun c =>
    let x := s.ctx (16 * (v.no - 1) + c)
    (if x.faulted then 2 ^ c else 0) + (if x.lost then 2 ^ (16 + c) else 0))).sum

/-- The 128 bytes of a hedge record (R412). -/
def hedgeImage (r : HedgeRecord) : List Byte :=
  r.cores.flatMap (fun c => natLe 1 c.1 ++ natLe 1 c.2) ++ natLe 4 r.cmask.toNat ++ natLe 4 r.wsbase.toNat
    ++ natLe 8 r.wssize.toNat ++ natLe 8 r.quota.toNat ++ natLe 4 r.rtgt.toNat ++ natLe 4 r.toos.toNat
    ++ natLe 1 r.gwt.toNat ++ natLe 1 r.rcq.toNat ++ natLe 2 r.pceil.toNat ++ natLe 4 r.quant.toNat
    ++ natLe 4 r.drain.toNat ++ natLe 12 r.escal.toNat ++ natLe 64 r.pkgs.toNat

/-- The resident workgroup that DBGSEL names (R402). -/
def State.selected (s : State) (v : Vf) : Option Workgroup :=
  s.wgs.find? (fun w => w.ctxn == 16 * (v.no - 1) + (bits v.dbgsel 51 48).toNat && w.foreign.isNone
    && w.lin == bits v.dbgsel 47 16)

/-- DBGSSTEP: SSTEP of the workgroup that DBGSEL selects now (R402). DESIGN CHOICE (entry 55): with none selected it reads
what was written last. -/
def State.sstepOf (s : State) (v : Vf) : Word :=
  match s.selected v with
  | some w => (if w.sstepEn then 1 else 0) + (if w.sstepFrz then 2 else 0)
  | none => v.dbgsstep

/-- The value of a register. -/
def State.regValue (s : State) (fn off : Nat) : Dword :=
  let m := s.mgmt
  if fn == 0 then
    match off with
    | 0x3800 => m.faddr | 0x3808 => m.fcount.setWidth 64 | 0x380C => m.fcmd.setWidth 64
    | 0x3810 => m.fstat.setWidth 64 | 0x4000 => m.mlbase | 0x4008 => m.mllog.setWidth 64 | 0x4010 => m.mlprod
    | 0x4018 => m.mlcons | 0x4020 => m.plim.setWidth 64 | 0x4028 => m.fwaddr | 0x4030 => m.fwcmd.setWidth 64
    | 0x4034 => m.fwstat.setWidth 64
    | _ =>
      if 0x4100 ≤ off && off < 0x4200 then m.sens.toList.getD ((off - 0x4100) / 8) 0
      else if 0x1000 ≤ off && off < 0x3000 then
        BitVec.ofNat 64 (field (hedgeImage (s.vf ((off - 0x1000) / 128 + 1)).hedge) (off % 128) 8)
      else 0
  else
    let v := s.vf fn
    match off with
    | 0x000 => BitVec.ofNat 64 (v.tail % 2 ^ v.qlog.toNat)
    | 0x008 => BitVec.ofNat 64 (v.head % 2 ^ v.qlog.toNat) | 0x010 => v.qbase
    | 0x018 => v.qlog.setWidth 64 | 0x01C => BitVec.ofNat 64 (s.vfStatus v) | 0x020 => v.ctxbase | 0x030 => v.reply
    | 0x038 => v.grant | 0x040 => v.brbase | 0x048 => v.brlog.setWidth 64 | 0x050 => v.brcons | 0x058 => v.logbase
    | 0x060 => v.loglog.setWidth 64 | 0x080 => v.dbgsel | 0x088 => (s.sstepOf v).setWidth 64
    | 0x090 => BitVec.ofNat 64 (s.ctxstat v) | 0x0A0 => v.rplpos | 0x0A8 => v.rplend
    | _ =>
      if 0x100 ≤ off && off < 0x180 then v.fqcons.toList.getD ((off - 0x100) / 8) 0
      else if 0x800 ≤ off then
        (match s.debugged v with | some x => debugWord x.1 x.2 (off - 0x800) | none => 0)
      else 0

/-- Read a register; none where the access is refused (R401). -/
def State.regRead (s : State) (fn off n : Nat) : Option (List Byte) :=
  match regRow fn off with
  | some r => if r.size == n then some (natLe n (s.regValue fn off).toNat) else none
  | none => none

/-! ## A thread's accesses -/

/-- What becomes of an access. -/
inductive Acc where
  /-- Performed: the bytes read. -/
  | got (s : State) (b : List Byte)
  /-- A held write: the thread runs on (R394). -/
  | later (s : State)
  /-- The thread waits, with this status, and takes the instruction up again. -/
  | hold (s : State) (st : Status)
  /-- Uncorrectable or error completion (R195, R425). -/
  | bad (s : State)
  /-- Refused at the other package for want of a backed frame (R414). -/
  | deny (s : State)

/-- What the responses to a thread's requests bring, once they are there. -/
def State.takeReplies (s : State) (k : Key) : Option Acc :=
  let mine := s.replies.filter (fun r => r.key == k)
  if mine.isEmpty then none
  else
    let s := { s with replies := s.replies.filter (fun r => r.key != k) }
    let neg := mine.filterMap (fun r => match r.body with | .neg n _ => some n.toNat | _ => none)
    some (if neg.contains 6 then .deny s
      else if !neg.isEmpty then .bad s
      else .got s (mine.flatMap (fun r => match r.body with | .data _ d => d | _ => [])))

/-- Send the requests of a thread's access and let it wait (R430); with no port in reach the access fails (R428). -/
def State.remote (s : State) (t : Thread) (pkg vf die : Nat) (bodies : List FlitBody) : Acc :=
  if !s.portsFrom die then .bad s
  else
    let r := bodies.foldl (fun a b => a.1.request pkg vf die b (.reply t.key)) (s, (0 : Dword))
    .hold r.1 (.data (.txn r.2 false))

/-- An access of a thread: what its earlier requests have brought, or the checks, and the access at the place that they
find. A thread that takes its instruction up again does not translate anew: the requests that it has sent are its access. -/
def State.access (s : State) (k : Key) (check : Except Raise Target) (go : Target → Acc) : Except Raise Acc :=
  match s.takeReplies k with
  | some a => .ok a
  | none => match check with
    | .error r => .error r
    | .ok g => .ok (go g)

/-- Read main memory on a path: GEN as the thread sees it, ROD from a replica of a line homed on another die, or from memory
(R184, R202, R225, R232, R393). -/
def State.readMain (s : State) (t : Thread) (vf pa n : Nat) (rod : Bool) : Acc :=
  let core := s.coreOf t
  if !s.reaches (dieOf core) (homeDie pa) then .bad s
  else if rod && homeDie pa != dieOf core then
    match s.rodRead (dieOf core) pa n with
    | some x => .got x.1 x.2
    | none => .bad (s.logBad vf pa)
  else match s.physRead pa n with
    | some b => .got s (if rod then b else s.overlay (.thread t.wg t.tidx) pa (s.coreView core t.key pa b))
    | none => .bad (s.logBad vf pa)

/-- Bytes that a guest reads of the scratchpad of its origin, on another package: what a guest here has stored, where no other
thread of the origin has written since, else a free value (R372; entry 29). -/
def State.originBytes (s : State) (w : Workgroup) (off n : Nat) : List Byte :=
  (List.range n).map (fun i => match w.own.find? (fun x => x.1 == off + i) with
    | some x => if Config.originWrote (s.freeN + i) then (Config.free64 (s.freeN + i)).setWidth 8 else x.2
    | none => (Config.free64 (s.freeN + i)).setWidth 8)

/-- Bytes that a guest stores in the scratchpad of its origin, on another package (R372; entry 29). -/
def State.originPut (s : State) (wg off : Nat) (b : List Byte) : State :=
  let new := (List.range b.length).map (fun i => (off + i, b.getD i 0))
  s.modWg wg (fun w => { w with own := new ++ (w.own.filter (fun x => !(decide (off ≤ x.1) && decide (x.1 < off + b.length)))) })

/-- The scratchpad as a thread reads it; none where a byte that it consumes cannot be read: its own store in the queue covers
one (R195, R202). -/
def State.spadRead (s : State) (w : Workgroup) (k : Key) (off n : Nat) : Option (List Byte) :=
  let covered (a : Nat) : Bool := (s.queueOf k).any (fun q => match q.loc with
    | .spad x => x ≤ a && a < x + q.data.length
    | _ => false)
  if w.spadErr.any (fun a => off ≤ a && a < off + n && !covered a) then none
  else some (s.spadView k off (memGetN w.spad off n))

/-- Read `n` bytes at a place, on the ROD path or another. -/
def State.readLoc (s : State) (w : Workgroup) (t : Thread) (loc : Loc) (n : Nat) (sem : BitVec 2) (rod : Bool) : Acc :=
  let vf := vfOfCtx w.ctxn
  let die := dieOf (s.coreOf t)
  match loc with
  | .main pa => s.readMain t vf pa n rod
  | .host c pa => (match s.readHost die c pa n with | some b => .got s b | none => .bad s)
  | .remote pkg pa => s.remote t pkg vf die [.read (BitVec.ofNat 64 pa) n sem]
  | .spad off =>
    if w.foreign.isSome then .got { s with freeN := s.freeN + n } (s.originBytes w off n)
    else (match s.spadRead w t.key off n with | some b => .got s b | none => .bad (s.logEcc .spad (dieOf w.core) vf off))
  | .wst die off =>
    if s.eccAt .wst (die * 2 ^ 29 + off) n then .bad (s.logEcc .wst die vf off) else .got s (memGetN s.wst (die * 2 ^ 29 + off) n)
  | .reg off =>
    if off / 65536 == vf && s.reaches die 0 then (match s.regRead vf (off % 65536) n with | some b => .got s b | none => .bad s)
    else .bad s
  | _ => .bad s

/-- Pieces of a range of zeros, at most 128 bytes each. -/
def zeroFlits (pa n : Nat) : List FlitBody :=
  (List.range ((n + 127) / 128)).map (fun i =>
    FlitBody.write (BitVec.ofNat 64 (pa + 128 * i)) 0 (List.replicate (min 128 (n - 128 * i)) 0))

/-- SZ of an atomic of `n` bytes. -/
def szOf (n : Nat) : BitVec 3 := if n == 8 then 3 else 2

/-- The request flits of a write at another package (R431). -/
def MemOp.flits (op : MemOp) (pa : Nat) (sem : BitVec 2) (ret : Bool) : List FlitBody :=
  let a : Dword := BitVec.ofNat 64 pa
  match op with
  | .store d => [.write a sem d]
  | .atom o n d => [.atomic a (BitVec.ofNat 4 o) (szOf n) ret sem (d.setWidth 128)]
  | .cas n e x => [.atomic a 9 (szOf n) true sem (BitVec.ofNat 128 (leNat (natLe n e.toNat ++ natLe n x.toNat)))]
  | .cellAdd f v => [.cell a 0 (BitVec.ofNat 4 f) sem v]
  | .cellClear => [.cell a 2 0 sem 0]
  | .zero n => zeroFlits pa n
  | .nibble _ _ => []
  | .patch l => l.map (fun x => .write (BitVec.ofNat 64 (pa + x.1)) sem x.2.2)
  | .setMeta w => [.write a sem (natLe 4 w.toNat)]
  | .setGran _ d => [.write a sem d]

/-- May a store wait in a store queue: is the place plain, so that it is not held (R392), and without an error? -/
def State.queues (s : State) (pa : Nat) (op : MemOp) : Option (List Byte) :=
  match op with
  | .store d => if s.isCmp pa || s.poisonAt pa d.length then none else some d
  | _ => none

/-- Does SEM release (R226)? -/
def releases (sem : BitVec 2) : Bool := bit sem 1

/-- Is a write one of a cell, which is not ordered with GEN stores unless fenced (R231)? -/
def MemOp.isCell : MemOp → Bool
  | .cellAdd _ _ => true
  | .cellClear => true
  | _ => false

/-- Write main memory at its home now, after the thread's stores that wait before it (R202, R223, R225, R390). -/
def State.writeHome (s : State) (t : Thread) (vf pa : Nat) (op : MemOp) (dest : Option RmwDest) (va : BitVec 80)
    (keys : List Key) : Acc :=
  match s.bumpId.attempt (s.newHeld vf (.thread t.wg t.tidx) keys pa op dest (t.pc, s.cur.insn, va.setWidth 128)) with
  | .done s old => .got s old
  | .bad s => .bad s
  | .held s _ => .later s

/-- Write main memory: a store to a plain frame enters the thread's store queue; another write is performed at the home,
after the stores that wait before it (R202, R223, R225, R390). -/
def State.writeMain (s : State) (t : Thread) (vf pa : Nat) (op : MemOp) (sem : BitVec 2) (dest : Option RmwDest) (va : BitVec 80)
    (keys : List Key) : Acc :=
  let core := s.coreOf t
  if !s.reaches (dieOf core) (homeDie pa) then .bad s
  else match s.queues pa op with
    | some d => .got (s.enqueue core t.key vf (.main pa) d) []
    | none =>
      (if op.isCell && !releases sem then s else s.release core t.key).writeHome t vf pa op dest va keys

/-- Write the scratchpad: a store enters the thread's store queue (R225). -/
def State.writeSpad (s : State) (w : Workgroup) (t : Thread) (off : Nat) (op : MemOp) : Acc :=
  match op with
  | .store d => .got (s.enqueue (s.coreOf t) t.key (vfOfCtx w.ctxn) (.spad off) d) []
  | op =>
    let s := s.drainQueue t.key
    let w := (s.wg w.id).getD w
    if op.reads && w.spadBad off op.len then .bad (s.logEcc .spad (dieOf w.core) (vfOfCtx w.ctxn) off)
    else
      let old := memGetN w.spad off op.len
      .got (s.modWg w.id (fun w => (op.apply old).elim w (w.spadPut off))) old

/-- Is a place of the GEN path one that no store queue serves: host memory, another package or a register page? A store there
comes after the thread's earlier GEN stores, and those that it has observed on its core (R225, R237; entry 3). -/
def Loc.direct : Loc → Bool
  | .host _ _ => true
  | .remote _ _ => true
  | .reg _ => true
  | _ => false

/-- Write at a place inside one block: `dest` is where a held read-modify-write will put its old value. A release, and a GEN
store, to a place that no store queue serves comes after the thread's earlier stores (R225, R226, R233). -/
def State.writeLoc (s : State) (w : Workgroup) (t : Thread) (loc : Loc) (op : MemOp) (sem : BitVec 2)
    (dest : Option RmwDest) (va : BitVec 80) (keys : List Key) : Acc :=
  let vf := vfOfCtx w.ctxn
  let die := dieOf (s.coreOf t)
  let r := if releases sem || (loc.direct && !op.isCell) then s.release (s.coreOf t) t.key else s
  match loc with
  | .main pa => s.writeMain t vf pa op sem dest va keys
  | .host c pa =>
    if !s.hostFrom die || (op.reads && s.hostBad (hostAs c) pa op.len) then .bad s
    else
      let old := r.hostBytes (hostAs c) pa op.len
      .got ((op.apply old).elim r (r.putHost (hostAs c) pa)) old
  | .remote pkg pa => r.remote t pkg vf die (op.flits pa sem dest.isSome)
  | .spad off =>
    if w.foreign.isSome then
      let old := s.originBytes w off op.len
      let s : State := { s with freeN := s.freeN + op.len }
      .got ((op.apply old).elim s (s.originPut w.id off)) old
    else s.writeSpad w t off op
  | .reg off =>
    match op, regRow (off / 65536) (off % 65536) with
    | .store d, some row =>
      if off / 65536 == vf && row.size == d.length && s.reaches die 0 then
        .got { r with agenda := r.agenda ++ [Event.mk (.registerWrite vf (off % 65536) (BitVec.ofNat 64 (leNat d))) none] } []
      else .bad s
    | _, _ => .bad s
  | _ => .bad s

/-- Read at the place of a leaf: an ORD one is read at its home, past the stores that wait in the core (R196). -/
def State.readAt (s : State) (w : Workgroup) (t : Thread) (g : Target) (n : Nat) (sem : BitVec 2) (rod : Bool) : Acc :=
  (if g.ord then s.release (s.coreOf t) t.key else s).readLoc w t g.loc n sem rod

/-- Write at the place of a leaf: an ORD store enters no store queue (R196). -/
def State.writeAt (s : State) (w : Workgroup) (t : Thread) (g : Target) (op : MemOp) (sem : BitVec 2) (dest : Option RmwDest)
    (va : BitVec 80) (keys : List Key) : Acc :=
  match g.ord, g.loc with
  | true, .main pa =>
    if !s.reaches (dieOf (s.coreOf t)) (homeDie pa) then .bad s
    else (s.release (s.coreOf t) t.key).writeHome t (vfOfCtx w.ctxn) pa op dest va keys
  | _, loc => s.writeLoc w t loc op sem dest va keys

/-- The late 0x0C of an access that met uncorrectable data (R195). -/
def Thread.poisoned (t : Thread) (insn : Word) (va : BitVec 80) (dest : Nat × Nat) (pd : Option PReg) : Thread :=
  { t with late := t.late ++ [{ fault := { code := 0x0C, space := 1, addr := va.setWidth 128, site := some (t.pc, insn) },
                                dest, pd }] }

/-- The step of a thread from what becomes of its access; `dest` and `pd` are its destinations. -/
def Acc.res (a : Acc) (i : Instr) (t : Thread) (va : BitVec 80) (n : Nat) (dest : Nat × Nat) (pd : Option PReg)
    (f : List Byte → Thread) : Res :=
  match a with
  | .got s b => .go s ((f b).onward i)
  | .later s => .go s (t.onward i)
  | .hold s st => .hold s { t with status := st }
  | .bad s => .go s ((t.poisoned s.cur.insn va dest pd).onward i)
  | .deny s => .fault s (dataFault 0x02 va n false)

end Sys2Proof.Machine
end

