-- ==== Sys2Proof/Machine/Team.lean ====
section
/-! DEFINITION. Cross-thread instructions: arrival, the member masks, and completion (R50 to R52, R63, R114, R173 to
R179). Opcodes 0x50 to 0x55 and 0x5F. -/

namespace Sys2Proof.Machine

/-! ## Masks -/

/-- The register that holds the member mask (R114, R173). -/
def teamMaskRefs : Instr → List RegRef
  | .tsync f => if f.fm.lit.isNone then [srcRef f.kb f.b 1] else []
  | .tshfl f all _ _ => V3.maskRef f all
  | .tvote f all _ _ _ => V3.maskRef f all
  | .tred f x => V3.maskRef f x.all
  | .rdfl f all _ _ _ => V3.maskRef f all
  | .tcoll f all _ => V3.maskRef f all
  | .tscan f x => V3.maskRef f x.all
  | .tmatch f all _ => V3.maskRef f all
  | _ => []

/-- A mask from C, or all lanes (R173). -/
def maskC (f : V3) (all : Bool) (w : Workgroup) (t : Thread) : Word := if all then 0xFFFFFFFF#32 else V3.srcC f w t

/-- The member mask that a thread presents. -/
def teamMask (w : Workgroup) (t : Thread) : Instr → Word
  | .tsync f => V3.srcB f w t
  | .tshfl f all _ _ => maskC f all w t
  | .tvote f all _ _ _ => maskC f all w t
  | .tred f x => maskC f x.all w t
  | .rdfl f all _ _ _ => maskC f all w t
  | .tcoll f all _ => maskC f all w t
  | .tscan f x => maskC f x.all w t
  | .tmatch f all _ => maskC f all w t
  | _ => 0

/-! ## Results -/

/-- LANE of a thread (R31). -/
def Thread.lane (t : Thread) : Nat := t.tidx % 32

/-- Operand A of a cross-thread instruction, 32 or 64 bits. -/
def teamA (f : V3) (w64 : Bool) (w : Workgroup) (t : Thread) : Dword :=
  if w64 then V3.srcA64 f w t else (V3.srcA f w t).setWidth 64

/-- Write a 32-bit or a 64-bit destination. -/
def Thread.setWide (t : Thread) (w64 : Bool) (n : Nat) (x : Dword) : Thread :=
  if w64 then t.setPair n x else t.setReg n (x.setWidth 32)

/-- The lane that TSHFL reads (R174). -/
def shflSrc (mode : BitVec 2) (lane n : Nat) : Int :=
  match mode.toNat with
  | 0 => n
  | 1 => (lane : Int) - n
  | 2 => (lane : Int) + n
  | _ => (lane ^^^ n : Nat)

/-- What TSHFL gives a member (R174). -/
def shflResult (f : V3) (w64 : Bool) (mode : BitVec 2) (w : Workgroup) (mask : Word) (act : List Thread) (t : Thread) :
    Dword :=
  let src := shflSrc mode t.lane ((V3.srcB f w t).toNat % 32)
  if src < 0 || 31 < src || !bit mask src.toNat then teamA f w64 w t
  else match act.find? (fun u => u.lane == src.toNat) with
    | none => 0
    | some u => teamA f w64 w u

/-- The integer operations of TRED and TSCAN on `n`-bit values, as those of R203. -/
def redOp (op n : Nat) (a b : Nat) : Nat := atomResult op n a b

/-- The identity of an exclusive scan (R176). -/
def redIdentity (op bytes : Nat) : Nat :=
  let m := 2 ^ (8 * bytes)
  match op with
  | 1 => m / 2 - 1
  | 2 => m / 2
  | 3 => m - 1
  | 5 => m - 1
  | 9 => 0x7F800000
  | 10 => 0xFF800000
  | _ => 0

/-- The reduction of a list of values; `r` is the random word under SR (R176). -/
def redValue (op bytes : Nat) (rm : BitVec 3) (r : Word) (l : List Nat) : Nat :=
  match l with
  | [] => redIdentity op bytes
  | x :: rest =>
    if op < 8 then rest.foldl (redOp op bytes) x
    else if op == 8 then
      Fmt.fp32.clampEncode 0 (Fmt.fp32.round rm r
        (rest.foldl (fun a b => Num.add (rm == 2) a (Fmt.fp32.decode b)) (Fmt.fp32.decode x)))
    else
      Fmt.fp32.clampEncode 0 (Fmt.fp32.round 0 0
        (rest.foldl (fun a b => selectMinMax (op == 10) a (Fmt.fp32.decode b)) (Fmt.fp32.decode x)))

/-- TRED or TSCAN for one member over the values of `from'`: under SR the counter of the member advances (R176). -/
def redMember (f : V3) (x : TeamW2) (w : Workgroup) (from' : List Thread) (t : Thread) : Thread :=
  let sr : Bool := x.op == 8 && f.fm.rm == 5
  let r := if sr then (srWords w t).getD 0 0 else 0
  let vals := from'.map (fun u => (teamA f x.w64 w u).toNat)
  let y := redValue x.op.toNat (if x.w64 then 8 else 4) f.fm.rm r vals
  let t := t.setWide x.w64 f.d.toNat (BitVec.ofNat 64 y)
  if sr then t.srAdvance 1 else t

/-- The ballot of a vote (R175). -/
def ballot (sn : Bool) (spr : PReg) (act : List Thread) : Word :=
  act.foldl (fun b u => if u.pred spr != sn then b ||| (1#32 <<< u.lane) else b) 0

/-- The outcome of a vote other than a ballot (R175). -/
def voteHolds (op : BitVec 2) (sn : Bool) (spr : PReg) (act : List Thread) : Bool :=
  match op.toNat with
  | 1 => act.all (fun u => u.pred spr != sn)
  | 2 => act.any (fun u => u.pred spr != sn)
  | _ => act.all (fun u => u.pred spr != sn) || act.all (fun u => u.pred spr == sn)

/-- The string of TCOLL as a number (R177). -/
def collString (f : V3) (wid : BitVec 2) (w : Workgroup) (act : List Thread) : Nat :=
  let b := match wid.toNat with | 0 => 1 | 1 => 4 | 2 => 8 | _ => 16
  (act.map (fun u => (V3.srcA f w u).toNat % 2 ^ b * 2 ^ (u.lane * b))).sum

/-- What completion does to one active member's own registers. -/
def teamMember (w : Workgroup) (mask : Word) (act : List Thread) (t : Thread) : Instr → Thread
  | .tshfl f _ w64 mode => t.setWide w64 f.d.toNat (shflResult f w64 mode w mask act t)
  | .tvote f _ sn spr op =>
    if op == 0 then t.setReg f.d.toNat (ballot sn spr act) else t.setPred (f.d.setWidth 4) (voteHolds op sn spr act)
  | .tred f x => redMember f x w act t
  | .tscan f x => redMember f x w (act.filter (fun u => u.lane < t.lane || (!x.exc && u.lane == t.lane))) t
  | .tmatch f _ w64 =>
    t.setReg f.d.toNat (act.foldl (fun b u =>
      if teamA f w64 w u == teamA f w64 w t then b ||| (1#32 <<< u.lane) else b) 0)
  | .rdfl f _ pd w64 chk =>
    if chk then t.setPred pd (act.all (fun u => teamA f w64 w u == teamA f w64 w t)) else t
  | _ => t

/-- What completion does to the workgroup: the k destinations of RDFL and TCOLL (R63, R177). -/
def teamShared (w : Workgroup) (act : List Thread) : Instr → Workgroup
  | .rdfl f _ _ w64 _ => kwrite w false f.d.toNat ((act.head?.map (teamA f w64 w)).getD 0)
  | .tcoll f _ wid =>
    (List.range (tcollRegs wid)).foldl (fun x j =>
      kwrite x false (f.d.toNat + j) (BitVec.ofNat 64 (collString f wid w act / 2 ^ (64 * j)))) w
  | _ => w

/-- What completion does to an inactive member: merge or zero (R50). Where no member is active, RDFL with CHK sets the
predicate true all the same (R63). DESIGN CHOICE (entry 72): the 'true' that R175 gives all and uni then reaches no predicate, as
no member of a vote is active to be given it. -/
def teamInactive (w : Workgroup) (none : Bool) (i : Instr) (t : Thread) : Thread :=
  let u := i.zeroDest w t
  match i with
  | .rdfl _ _ pd _ chk => if none && chk then u.setPred pd true else u
  | _ => u

/-! ## Arrival and completion -/

/-- Insert a thread in ascending TIDX. -/
def insertThread (t : Thread) : List Thread → List Thread
  | [] => [t]
  | x :: r => if t.tidx < x.tidx then t :: x :: r else x :: insertThread t r

/-- The threads that have arrived at a cross-thread instruction, in ascending LANE. -/
def State.teamArrived (s : State) (wg team : Nat) (pc : Dword) : List Thread :=
  (s.threads.filter (fun t => t.wg == wg && t.tidx / 32 == team && t.pc == pc && t.tidx != 0xFFFF
    && (match t.status with | .blocked (.team ..) => true | _ => false))).foldr insertThread []

/-- The instruction, mask and activity with which a thread has arrived. -/
def Thread.teamWait (t : Thread) : Option (Instr × Word × Bool) :=
  match t.status with
  | .blocked (.team i m a) => some (i, m, a)
  | _ => none

/-- Has a thread exited, as far as others count (R50, R374)? -/
def Thread.isExited (t : Thread) : Bool := t.status == .exited

/-- Has every lane of the mask arrived or exited (R50)? -/
def State.teamFull (s : State) (wg team : Nat) (mask : Word) (arr : List Thread) : Bool :=
  (List.range 32).all (fun l =>
    !bit mask l || arr.any (fun t => t.lane == l)
    || (match s.thread ⟨wg, team * 32 + l⟩ with | none => true | some t => t.isExited))

/-- Complete an arrived member: its new registers, then it is filed at the next instruction (R42). -/
def State.teamLeave (s : State) (i : Instr) (t : Thread) : State := s.wake t (pcAfter t.pc i.words)

/-- Masks that differ (R51): 0x07 for the guard-true members, and the guard-false ones complete. -/
def State.teamConflict (s : State) (arr : List Thread) : State :=
  arr.foldl (fun s t =>
    match t.teamWait, s.wg t.wg with
    | some (i, _, true), _ => s.raise (s.coreOf t) s.pkg ((encode i).headD 0) [t.key] (trapOf 0x07)
    | some (i, _, false), some w => s.teamLeave i (teamInactive w false i t)
    | _, _ => s) s

/-- The instruction acts once for all members (R50). DESIGN CHOICE (entry 58): R173 has a k register source both 'read at
completion' and 'the value it held on arrival'; the model reads it at completion. -/
def State.teamComplete (s : State) (i : Instr) (mask : Word) (arr : List Thread) : State :=
  match arr.head?.bind (fun t => s.wg t.wg) with
  | none => s
  | some w =>
    let act := arr.filter (fun t => (t.teamWait.map (·.2.2)).getD false)
    let s := s.setWg (teamShared w act i)
    arr.foldl (fun s t =>
      s.teamLeave i (if act.contains t then teamMember w mask act t i else teamInactive w act.isEmpty i t)) s

/-- Is the data of a KLD still to come to a k register that an instruction reads or writes (R61)? -/
def State.kpending (s : State) (wg : Nat) (slice : Bool) (i : Instr) : Option KPending :=
  s.kloads.find? (fun x => x.wg == wg && x.slice == slice && !s.cur.keys.any x.keys.contains
    && (i.uses.reads ++ i.uses.writes).any (fun r => r.k && r.n ≤ x.k && x.k < r.n + r.count))

/-- Complete a cross-thread instruction if it can be: when masks differ, or every member has arrived and no KLD has still to write
a k register of it (R61). -/
def State.settleTeam (s : State) (wg team : Nat) (pc : Dword) : State :=
  let arr := s.teamArrived wg team pc
  match arr.head?.bind Thread.teamWait with
  | none => s
  | some (i, mask, _) =>
    if arr.any (fun t => (t.teamWait.map (·.2.1)) != some mask) then s.teamConflict arr
    else if s.teamFull wg team mask arr && (s.kpending wg false i).isNone then s.teamComplete i mask arr
    else s

/-- One thread reaches a cross-thread instruction (R50 to R52). -/
def State.teamArrive (i : Instr) (acc : State × List Key) (k : Key) : State × List Key :=
  let s := acc.1
  match s.thread k, s.wg k.wg with
  | some t, some w =>
    let m := teamMask w t i
    let own := bit m t.lane
    if t.away.isSome then (s.sendHome w t none, acc.2)
    else if !t.guard i.form then
      if (teamMaskRefs i).all (regOk w t false) && own then
        (s.setThread { t with status := .blocked (.team i m false), insn := s.cur.insn }, acc.2)
      else
        let u := i.zeroDest w t
        s.passOn w acc.2 t.pc { u with pc := pcAfter t.pc i.words }
    else if !i.step8 w t || !own then (s.raiseCur k (trapOf 0x07), acc.2)
    else (s.setThread { t with status := .blocked (.team i m true), insn := s.cur.insn }, acc.2)
  | _, _ => acc

/-- Run a cross-thread instruction: the threads of the group arrive, and it acts where every member has. -/
def State.execTeam (s : State) (i : Instr) : Out1 :=
  let pc := s.curPc
  let r := s.cur.keys.foldl (State.teamArrive i) (s, [])
  let teams := (s.cur.keys.map (fun k => (k.wg, k.tidx / 32))).dedup
  .next ((teams.foldl (fun s x => s.settleTeam x.1 x.2 pc) r.1).finish pc r.2)

/-- TSHFL (R174). -/
def execTshfl (f : V3) (all w64 : Bool) (mode : BitVec 2) (s : State) : Out1 := s.execTeam (.tshfl f all w64 mode)
/-- TVOTE (R175). -/
def execTvote (f : V3) (all sn : Bool) (spr : PReg) (op : BitVec 2) (s : State) : Out1 :=
  s.execTeam (.tvote f all sn spr op)
/-- TRED (R176). -/
def execTred (f : V3) (w : TeamW2) (s : State) : Out1 := s.execTeam (.tred f w)
/-- RDFL (R63, R179). -/
def execRdfl (f : V3) (all : Bool) (pd : PReg) (w64 chk : Bool) (s : State) : Out1 :=
  s.execTeam (.rdfl f all pd w64 chk)
/-- TCOLL (R177). -/
def execTcoll (f : V3) (all : Bool) (wid : BitVec 2) (s : State) : Out1 := s.execTeam (.tcoll f all wid)
/-- TSCAN (R176). -/
def execTscan (f : V3) (w : TeamW2) (s : State) : Out1 := s.execTeam (.tscan f w)
/-- TMATCH (R178). -/
def execTmatch (f : V3) (all w64 : Bool) (s : State) : Out1 := s.execTeam (.tmatch f all w64)

end Sys2Proof.Machine
end

