-- ==== Sys2Proof/Machine/Barriers.lean ====
section
/-! DEFINITION. Barriers (R36, R37, R257), role changes (R53 to R56, R112, R113) and what an exit completes. Opcodes
0x70 to 0x72. -/

namespace Sys2Proof.Machine

/-! ## Barriers -/

/-- The instance of a scope to which a core belongs (R222). -/
def scopeInst (scope core pkg : Nat) : Nat :=
  match scope with
  | 2 => core / 4
  | 3 => core / 64
  | 4 => pkg
  | _ => 0

/-- The barrier that a thread names (R36, R37): 0x07 where the launch names no gang scope of that width. -/
def State.barKey (s : State) (w : Workgroup) (scope id : Nat) : Option BarKey :=
  if scope == 1 then some { scope, owner := (w.id, 0, 0), inst := 0, id }
  else if scope ≤ w.kernel.gang then
    some { scope, owner := (vfOfCtx w.ctxn, w.launch.toNat, w.gang), inst := scopeInst scope w.core s.pkg, id }
  else none

/-- The barrier of a key. -/
def State.bar (s : State) (k : BarKey) : Barrier :=
  (s.bars.find? (fun b => b.key == k)).getD { key := k, gen := 0, arrived := [] }

/-- Put a barrier back. -/
def State.setBar (s : State) (b : Barrier) : State :=
  { s with bars := (s.bars.filter (fun x => x.key != b.key)) ++ [b] }

/-- The workgroups that take part in a barrier (R37). -/
def State.barWgs (s : State) (k : BarKey) : List Workgroup :=
  if k.scope == 1 then s.wgs.filter (fun w => w.id == k.owner.1)
  else s.wgs.filter (fun w => w.foreign.isNone && vfOfCtx w.ctxn == k.owner.1 && w.launch.toNat == k.owner.2.1
    && w.gang == k.owner.2.2 && scopeInst k.scope w.core s.pkg == k.inst)

/-- The live threads of a workgroup, its slice apart. -/
def State.live (s : State) (wg : Nat) : List Thread :=
  s.threads.filter (fun t => t.wg == wg && t.tidx != 0xFFFF && !t.isExited)

/-- Is a participant of a barrier saved (R320, R322)? -/
def State.barSaved (s : State) (k : BarKey) : Bool :=
  s.saved.any (fun x => if k.scope == 1 then x.wg.id == k.owner.1
    else (vfOfCtx x.wg.ctxn, x.wg.launch.toNat, x.wg.gang) == k.owner)

/-- Workgroups of a gang that have been bound here, those that have retired among them, by their linear indices. -/
def Launch.gangBound (l : Launch) (gang : Nat) : List Nat := l.bound.filter (fun n => n / l.kernel.gsize == gang)

/-- Workgroups of a gang of a launch: the last may be short (R36). -/
def Launch.gangSize (l : Launch) (gang : Nat) : Nat := min l.kernel.gsize (l.nwgx * l.nwgy * l.nwgz - gang * l.kernel.gsize)

/-- Does a barrier have participants on other packages: is it one of POD scope whose gang is larger than what of it has been bound
here (R15, R37)? -/
def State.barAbroad (s : State) (k : BarKey) : Bool :=
  k.scope == 5 && s.launches.any (fun l => l.vf == k.owner.1 && l.no.toNat == k.owner.2.1
    && decide ((l.gangBound k.owner.2.2).length < l.gangSize k.owner.2.2))

/-- Has every participant on this package arrived, and at least one thread (R37, R257)? -/
def State.barFull (s : State) (b : Barrier) : Bool :=
  !b.arrived.isEmpty && !s.barSaved b.key && (s.barWgs b.key).all (fun w => (s.live w.id).all (fun t => b.arrived.contains t.key))

/-- A thread forgets an arrival. -/
def Thread.unarrive (t : Thread) (k : BarKey) : Thread := { t with arrived := t.arrived.filter (fun a => a.1 != k) }

/-- Complete a generation: its waiting threads go on (R257). -/
def State.barComplete (s : State) (b : Barrier) : State :=
  let s := s.setBar { b with gen := b.gen + 1, arrived := [] }
  s.threads.foldl (fun s t =>
    match t.status with
    | .blocked (.barrier k g next) => if k == b.key && g == b.gen then s.wake (t.unarrive k) next else s
    | _ => s) s

/-- Complete a barrier that is full. Whether the participants on other packages have arrived over the pod's network is a free
value (R15; entry 2). -/
def State.settleBar (s : State) (b : Barrier) : State :=
  if !s.barFull b then s
  else if s.barAbroad b.key then (if Config.podArrived s.freeN then s.bump.barComplete b else s.bump)
  else s.barComplete b

/-- Complete every barrier that is full. -/
def State.settleBars (s : State) : State := s.bars.foldl (fun s b => s.settleBar (s.bar b.key)) s

/-- The outstanding arrival of a thread on a scope and id (R257). -/
def Thread.outstanding (t : Thread) (scope id : Nat) : Option (BarKey × Nat) :=
  t.arrived.find? (fun a => a.1.scope == scope && a.1.id == id)

/-- Arrive at a barrier; none where R257 or R36 refuses it. -/
def State.barArrive (s : State) (w : Workgroup) (t : Thread) (scope id : Nat) : Option (State × Thread × BarKey × Nat) :=
  match s.barKey w scope id with
  | none => none
  | some k =>
    if (t.outstanding scope id).isSome then none
    else
      let b := s.bar k
      some (s.setBar { b with arrived := b.arrived ++ [t.key] }, { t with arrived := t.arrived ++ [(k, b.gen)] }, k, b.gen)

/-- BAR (R257): BARA, then BARW. -/
def execBar (scope : BitVec 3) (id : BitVec 4) (fm : Form) (s : State) : Out1 :=
  let i : Instr := .bar scope id fm
  .next (s.forThreads i (fun s w t =>
    match s.barArrive w t scope.toNat id.toNat with
    | none => .fault s (trapOf 0x07)
    | some (s, t, k, g) =>
      .hold s { t with status := .blocked (.barrier k g (pcAfter t.pc i.words)) })).settleBars

/-- BARA (R257). -/
def execBara (scope : BitVec 3) (id : BitVec 4) (fm : Form) (s : State) : Out1 :=
  let i : Instr := .bara scope id fm
  .next (s.forThreads i (fun s w t =>
    match s.barArrive w t scope.toNat id.toNat with
    | none => .fault s (trapOf 0x07)
    | some (s, t, _, _) => .go s (t.onward i))).settleBars

/-- BARW (R257): a wait that holds already does not block. -/
def execBarw (scope : BitVec 3) (id : BitVec 4) (fm : Form) (s : State) : Out1 :=
  let i : Instr := .barw scope id fm
  .next (s.forThreads i (fun s w t =>
    match s.barKey w scope.toNat id.toNat, t.outstanding scope.toNat id.toNat with
    | some _, some (k, g) =>
      if g < (s.bar k).gen then .go s ((t.unarrive k).onward i)
      else .hold s { t with status := .blocked (.barrier k g (pcAfter t.pc i.words)) }
    | _, _ => .fault s (trapOf 0x07)))

/-! ## Roles -/

/-- Registers of a role. -/
def Workgroup.roleRegs (w : Workgroup) (rid : Nat) : Nat := ((w.kernel.roles[rid]?).map (·.regs)).getD 0

/-- The entry of a role (R408): CODE plus its word offset. -/
def Workgroup.roleEntry (w : Workgroup) (rid : Nat) : Dword :=
  w.kernel.code + BitVec.ofNat 64 (4 * ((w.kernel.roles[rid]?).map (·.entry)).getD 0)

/-- Registers of a core that resident workgroups hold (R38, R53). -/
def State.regsUsed (s : State) (core : Nat) : Nat :=
  ((s.wgs.filter (fun w => w.core == core && w.foreign.isNone)).map (fun w => w.allot * w.nthr)).sum

/-- Write the data of a thread's outstanding loads (R112, R321, R366). -/
def Thread.landLoads (t : Thread) : Thread :=
  let u := t.loads.foldl (fun t l => t.setRegs l.dest l.data) t
  { u with loads := [] }

/-- Registers at or above `n` become zero (R54). -/
def Thread.clearFrom (t : Thread) (n : Nat) : Thread :=
  { t with v := Vector.ofFn (fun i : Fin 128 => if i.val < n then t.v[i] else 0) }

/-- The threads that have arrived at a ROLE. -/
def State.roleArrived (s : State) (wg : Nat) : List Thread :=
  (s.live wg).filter (fun t => match t.status with | .blocked (.role ..) => true | _ => false)

/-- The target that a thread names at a ROLE. -/
def Thread.roleTarget (t : Thread) : Option Nat :=
  match t.status with | .blocked (.role rid _ _ _) => some rid | _ => none

/-- A thread leaves a ROLE that has completed, or failed (R56, R112). -/
def State.roleLeave (s : State) (w : Workgroup) (ok : Bool) (t : Thread) : State :=
  match t.status with
  | .blocked (.role rid ent pd next) =>
    let t := t.landLoads
    let t := if ok then t.clearFrom (min w.allot (w.roleRegs rid)) else t
    s.wake (t.setPred pd ok) (if ok && ent then w.roleEntry rid else next)
  | _ => s

/-- Complete a ROLE (R54). `w` is the workgroup with its old role. -/
def State.roleComplete (s : State) (w : Workgroup) (rid : Nat) : State :=
  let s := s.modWg w.id (fun w => { w with role := rid })
  let s := { s with grows := s.grows.filter (fun g => g.wg != w.id) }
  (s.roleArrived w.id).foldl (fun s t => s.roleLeave w true t) s

/-- Are there enough free registers for a grow (R55)? -/
def State.roleFits (s : State) (w : Workgroup) (rid : Nat) : Bool :=
  decide (s.regsUsed w.core + w.roleRegs rid * w.nthr ≤ 262144 + w.allot * w.nthr)

/-- Settle the ROLE of a workgroup: 0x07 where the targets differ, completion where every live thread has arrived, and
a place in the queue where a grow must wait (R54, R55). -/
def State.settleRole (s : State) (w : Workgroup) : State :=
  let arr := s.roleArrived w.id
  match arr.head?.bind Thread.roleTarget with
  | none => s
  | some rid =>
    if arr.any (fun t => t.roleTarget != some rid) then
      arr.foldl (fun s t => s.raise (s.coreOf t) s.pkg t.insn [t.key] (trapOf 0x07)) s
    else if arr.length != (s.live w.id).length then s
    else if s.grows.any (fun g => g.wg == w.id) then s
    else if w.roleRegs rid ≤ w.allot then s.roleComplete w rid
    else if s.grows.any (fun g => g.core == w.core) || !s.roleFits w rid then
      { s with grows := s.grows ++ [{ id := s.fresh, core := w.core, wg := w.id, rid }], fresh := s.fresh + 1 }
    else s.roleComplete w rid

/-- Settle the roles of every workgroup. -/
def State.settleRoles (s : State) : State := s.wgs.foldl (fun s w => match s.wg w.id with
  | some w => s.settleRole w
  | none => s) s

/-! ## Completions that an exit brings about -/

/-- Settle every cross-thread instruction. -/
def State.settleTeams (s : State) : State :=
  (s.threads.filterMap (fun t => t.teamWait.map (fun _ => (t.wg, t.tidx / 32, t.pc)))).dedup.foldl
    (fun s x => s.settleTeam x.1 x.2.1 x.2.2) s

/-- A slice ends at once, and a pending claim of it. -/
def State.stopSlice (s : State) (t : Thread) : State :=
  let s := (s.unqueue t.key).setThread { t with status := .exited }
  { s with claims := s.claims.filter (fun c => !c.keys.contains t.key) }

/-- The slices whose workgroup's last thread has exited stop (R38). -/
def State.stopSlices (s : State) : State :=
  s.threads.foldl (fun s t =>
    if t.tidx == 0xFFFF && !t.isExited && (s.live t.wg).isEmpty then s.stopSlice t else s) s

/-- Complete what waits for threads that have exited (R38, R110). -/
def State.settleArrivals (s : State) : State := s.settleTeams.settleBars.settleRoles.stopSlices

end Sys2Proof.Machine
end

