-- ==== Sys2Proof/Machine/Control.lean ====
section
/-! DEFINITION. Control flow, opcodes 0x00 and 0x02 to 0x0F (R98 to R115), and calls (R213 to R220). -/

namespace Sys2Proof.Machine

/-- NOP (R106). -/
def execNop (s : State) : Out1 := s.alu .nop (fun _ t => t)

/-- The target of a branch: words from the PC (R70, R102). -/
def branchTo {n : Nat} (t : Thread) (off : BitVec n) : Dword := t.pc + (off.signExtend 64 <<< 2)

/-- A thread goes on at an address. -/
def Thread.jump (t : Thread) (pc : Dword) : Thread := { t with pc }

/-- Run a branch, a call or a return for the threads of the group: those that take it leave the others, though both may go on
at one PC (R40, R103, R218). -/
def State.forBranch (s : State) (i : Instr) (takes : Thread → Bool) (body : State → Workgroup → Thread → Res) : State :=
  s.forThreads i (fun s w t => body s w { t with took := takes t })

/-- BRA (R102). -/
def execBra (off : BitVec 22) (fm : Form) (s : State) : Out1 :=
  .next (s.forBranch (.bra off fm) (fun _ => true) (fun s _ t => .go s (t.jump (branchTo t off))))

/-- BRP (R102). -/
def execBrp (off : BitVec 17) (pn : Bool) (pp : PReg) (s : State) : Out1 :=
  let i : Instr := .brp off pn pp
  .next (s.forBranch i (fun t => t.pred pp != pn) (fun s _ t =>
    .go s (if t.pred pp != pn then t.jump (branchTo t off) else t.onward i)))

/-- JMPR (R102): a misaligned target raises 0x05 (R67). -/
def execJmpr (f : V3) (s : State) : Out1 :=
  .next (s.forBranch (.jmpr f) (fun _ => true) (fun s w t =>
    let tgt := V3.srcB64 f w t
    if bits tgt 1 0 != 0 then .fault s (trapOf 0x05) else .go s (t.jump tgt)))

/-- KBRA (R102, R105). -/
def execKbra (off : BitVec 15) (kz : Bool) (kr : BitVec 6) (s : State) : Out1 :=
  let i : Instr := .kbra off kz kr
  .next (s.forThreads i (fun s w t =>
    .go s (if (kread w t kr.toNat != 0) != kz then t.jump (branchTo t off) else t.onward i)))

/-- REFORM (R42, R108): the thread is filed, and a matching tag clears its pending tag. -/
def execReform (tag : BitVec 4) (s : State) : Out1 :=
  let i : Instr := .reform tag
  .next (s.forThreads i (fun s _ t =>
    .file s ({ t with tag := if tag != 0 && t.tag == tag then 0 else t.tag }.onward i) tag))

/-- A thread that has ended (R110): loads are discarded, cursors closed, the call stack and tag released. -/
def Thread.ended (t : Thread) : Thread :=
  { t with status := if t.away.isSome then .exiting else .exited, loads := [], tag := 0,
           cur := Vector.replicate 8 0, win := [] }

/-- EXIT (R59, R110, R374). -/
def execExit (fm : Form) (s : State) : Out1 :=
  .next (s.forThreads (.exit fm) (fun s _ t => .hold s t.ended)).settleArrivals

/-- YIELD (R109): blocked until its hold ends. -/
def execYield (hold : BitVec 10) (fm : Form) (s : State) : Out1 :=
  let i : Instr := .yield hold fm
  .next (s.forThreads i (fun s _ t =>
    .hold s { t with status := .blocked (.yield (pcAfter t.pc i.words)) }))

/-- TRAP (R111): EPC is the next instruction. -/
def execTrap (code : BitVec 16) (fm : Form) (s : State) : Out1 :=
  let i : Instr := .trap code fm
  .next (s.forThreads i (fun s _ t =>
    .fault s { code := 0x10, arg := code, epc := some (pcAfter t.pc i.words) }))

/-- BRK (R111): EPC is the BRK itself. -/
def execBrk (bid : BitVec 16) (fm : Form) (s : State) : Out1 :=
  .next (s.forThreads (.brk bid fm) (fun s _ _ => .fault s { code := 0x11, arg := bid }))

/-- ROLE (R54, R112, R113). -/
def execRole (ent : Bool) (rid : BitVec 2) (pd : PReg) (s : State) : Out1 :=
  let i : Instr := .role ent rid pd
  .next (s.forThreads i (fun s w t =>
    if w.kernel.nroles ≤ rid.toNat then .fault s (trapOf 0x07)
    else .hold s { t with status := .blocked (.role rid.toNat ent pd (pcAfter t.pc i.words)) })).settleRoles

/-- TSYNC (R114): a release and an acquire at CORE scope; the stores of its threads enter the order of their core before it
executes (State.orderStores). -/
def execTsync (f : V3) (s : State) : Out1 := s.execTeam (.tsync f)

/-! ## Calls (R213 to R220) -/

/-- The access of a spill or a refill (R216). -/
def spillKind (write : Bool) : AccessKind := { n := 8, align := 8, paths := [0], write }

/-- The checks of a spill or a refill at `ea` (R194, R216): the path is that of STKTOP, and 0x04 where it is not GEN. DESIGN
CHOICE (entry 57): step 2 of R194 takes the address itself as the base, so that a refill address that borrows from RGN raises
no 0x03; the records of 0x0D, and of 0x05 for a misaligned refilled address, have SPACE 0 and ADDR 0. -/
def State.spillCheck (s : State) (w : Workgroup) (t : Thread) (write : Bool) (ea : Dword) : Except Raise Target :=
  if eaPath t.stktop != 0 then .error (dataFault 0x04 (vaOf ea) 8 false)
  else s.checkEa w (atCore (s.coreOf t)) (spillKind write) ea ea

/-- Push a return address on a full window: the oldest entry is spilled (R216). -/
def State.spill (s : State) (w : Workgroup) (t : Thread) (i : Instr) (tgt : Dword) : Res :=
  let ret := pcAfter t.pc i.words
  let push (t : Thread) : Thread := { t with win := t.win ++ [ret], pc := tgt }
  if t.win.length < 4 then .go s (push t)
  else if t.stktop.toNat < t.stkbase.toNat || t.stklim.toNat < t.stktop.toNat + 8 then .fault s (trapOf 0x0D)
  else
    match s.access t.key (s.spillCheck w t true t.stktop)
        (fun g => s.writeAt w t g (.store (natLe 8 (t.win.headD 0).toNat)) 0 none (vaOf t.stktop) [t.key]) with
    | .error r => .fault s r
    | .ok a =>
      let after := { t with win := t.win.drop 1, stktop := t.stktop + 8 }
      match a with
      | .got s _ => .go s (push after)
      | .later s => .go s (push after)
      | .hold s st => .hold s { t with status := st }
      | .bad s => .go s (push (after.poisoned s.cur.insn (vaOf t.stktop) (0, 0) none))
      | .deny s => .fault s (dataFault 0x02 (vaOf t.stktop) 8 false)

/-- CALL (R216). -/
def execCall (off : BitVec 22) (fm : Form) (s : State) : Out1 :=
  let i : Instr := .call off fm
  .next (s.forBranch i (fun _ => true) (fun s w t => s.spill w t i (branchTo t off)))

/-- CALLR (R216). -/
def execCallr (f : V3) (s : State) : Out1 :=
  let i : Instr := .callr f
  .next (s.forBranch i (fun _ => true) (fun s w t =>
    let tgt := V3.srcB64 f w t
    if bits tgt 1 0 != 0 then .fault s (trapOf 0x05) else s.spill w t i tgt))

/-- Pop a return address; with an empty window, the newest spilled entry is refilled (R216). -/
def State.popReturn (s : State) (w : Workgroup) (t : Thread) : Res :=
  match t.win.getLast? with
  | some ra => if bits ra 1 0 != 0 then .fault s (trapOf 0x05) else .go s { t with win := t.win.dropLast, pc := ra }
  | none =>
    if t.stktop.toNat < t.stkbase.toNat + 8 || t.stklim.toNat < t.stktop.toNat then .fault s (trapOf 0x0D)
    else
      let ea := t.stktop - 8
      match s.access t.key (s.spillCheck w t false ea) (fun g => s.readAt w t g 8 0 false) with
      | .error r => .fault s r
      | .ok (.got s b) =>
        let ra : Dword := BitVec.ofNat 64 (leNat b)
        if bits ra 1 0 != 0 then .fault s (trapOf 0x05) else .go s { t with stktop := ea, pc := ra }
      | .ok (.hold s st) => .hold s { t with status := st }
      | .ok (.later s) => .go s t
      | .ok (.bad s) => .fault s { code := 0x0C, space := 1, addr := (vaOf ea).setWidth 128 }
      | .ok (.deny s) => .fault s (dataFault 0x02 (vaOf ea) 8 false)

/-- RET (R216). -/
def execRet (fm : Form) (s : State) : Out1 :=
  .next (s.forBranch (.ret fm) (fun _ => true) (fun s w t => s.popReturn w t))

end Sys2Proof.Machine
end

