-- ==== Sys2Proof/Machine/Integer.lean ====
section
/-! DEFINITION. Opcodes 0x10 to 0x37 but for the floating-point ones: integers, predicates and special values (R156 to
R169). -/

namespace Sys2Proof.Machine

/-- A two-source integer instruction: D := f a b, the sources modified under R77. -/
def State.alu2 (s : State) (i : Instr) (f : V3) (g : Word → Word → Word) : Out1 :=
  s.alu i (fun w t => t.setReg f.d.toNat (g (modInt f.fm.modA (f.srcA w t)) (modInt f.fm.modB (f.srcB w t))))

/-- MOV (R161). -/
def execMov (f : V3) (s : State) : Out1 := s.alu2 (.mov f) f (fun _ b => b)
/-- MOVL (R161). -/
def execMovl (f : V3) (s : State) : Out1 :=
  s.alu (.movl f) (fun w t => t.setPair f.d.toNat (f.srcB64 w t))
/-- ADD (R161). -/
def execAdd (f : V3) (s : State) : Out1 :=
  s.alu2 (.add f) f (fun a b => narrow32 f.fm.clamp (a.toInt + b.toInt))
/-- SUB (R161). -/
def execSub (f : V3) (s : State) : Out1 :=
  s.alu2 (.sub f) f (fun a b => narrow32 f.fm.clamp (a.toInt - b.toInt))
/-- ADDC (R162). -/
def execAddc (f : V3) (cy : CarryW2) (s : State) : Out1 :=
  s.alu (.addc f cy) (fun w t =>
    let x := (f.srcA w t).toNat + (f.srcB w t).toNat + carryIn cy t
    (t.setReg f.d.toNat (BitVec.ofNat 32 x)).setPred cy.po (decide (2 ^ 32 ≤ x)))
/-- SUBB (R162). -/
def execSubb (f : V3) (cy : CarryW2) (s : State) : Out1 :=
  s.alu (.subb f cy) (fun w t =>
    let x : Int := (f.srcA w t).toNat - (f.srcB w t).toNat - carryIn cy t
    (t.setReg f.d.toNat (BitVec.ofInt 32 x)).setPred cy.po (decide (x < 0)))
/-- MUL (R161). -/
def execMul (f : V3) (s : State) : Out1 :=
  s.alu2 (.mul f) f (fun a b => narrow32 f.fm.clamp (a.toInt * b.toInt))
/-- MULHS (R161). -/
def execMulhs (f : V3) (s : State) : Out1 :=
  s.alu2 (.mulhs f) f (fun a b => BitVec.ofInt 32 (a.toInt * b.toInt / 2 ^ 32))
/-- MULHU (R161). -/
def execMulhu (f : V3) (s : State) : Out1 :=
  s.alu2 (.mulhu f) f (fun a b => BitVec.ofNat 32 (a.toNat * b.toNat / 2 ^ 32))
/-- MADW (R162). -/
def execMadw (f : V3) (cy : CarryW2) (s : State) : Out1 :=
  s.alu (.madw f cy) (fun w t =>
    let x := (f.srcA w t).toNat * (f.srcB w t).toNat + (f.srcC64 w t).toNat + carryIn cy t
    (t.setPair f.d.toNat (BitVec.ofNat 64 x)).setPred cy.po (decide (2 ^ 64 ≤ x)))
/-- MIN (R161). -/
def execMin (f : V3) (s : State) : Out1 := s.alu2 (.min f) f (fun a b => if a.toInt ≤ b.toInt then a else b)
/-- MAX (R161). -/
def execMax (f : V3) (s : State) : Out1 := s.alu2 (.max f) f (fun a b => if b.toInt ≤ a.toInt then a else b)
/-- MINU (R161). -/
def execMinu (f : V3) (s : State) : Out1 := s.alu2 (.minu f) f (fun a b => if a.toNat ≤ b.toNat then a else b)
/-- MAXU (R161). -/
def execMaxu (f : V3) (s : State) : Out1 := s.alu2 (.maxu f) f (fun a b => if b.toNat ≤ a.toNat then a else b)
/-- AND (R161). -/
def execAnd (f : V3) (s : State) : Out1 := s.alu2 (.and f) f (fun a b => a &&& b)
/-- OR (R161). -/
def execOr (f : V3) (s : State) : Out1 := s.alu2 (.or f) f (fun a b => a ||| b)
/-- XOR (R161). -/
def execXor (f : V3) (s : State) : Out1 := s.alu2 (.xor f) f (fun a b => a ^^^ b)
/-- ANDN (R161). -/
def execAndn (f : V3) (s : State) : Out1 := s.alu2 (.andn f) f (fun a b => a &&& ~~~b)
/-- SHL (R163): a count is bits 5:0, and 32 or more gives 0. -/
def execShl (f : V3) (s : State) : Out1 := s.alu2 (.shl f) f (fun a b => a <<< (b.toNat % 64))
/-- SHR (R163). -/
def execShr (f : V3) (s : State) : Out1 := s.alu2 (.shr f) f (fun a b => a >>> (b.toNat % 64))
/-- SAR (R163). -/
def execSar (f : V3) (s : State) : Out1 := s.alu2 (.sar f) f (fun a b => a.sshiftRight (min (b.toNat % 64) 31))
/-- ROTL (R163). -/
def execRotl (f : V3) (s : State) : Out1 := s.alu2 (.rotl f) f (fun a b => a.rotateLeft (b.toNat % 32))
/-- FSHL (R163). -/
def execFshl (f : V3) (s : State) : Out1 :=
  s.alu (.fshl f) (fun w t =>
    let x : Dword := f.srcA w t ++ f.srcB w t
    t.setReg f.d.toNat (bits (x <<< ((f.srcC w t).toNat % 32)) 63 32))

/-- Set bits among bits `n - 1` to 0. -/
def popBits (a : Word) : Nat → Nat
  | 0 => 0
  | n + 1 => popBits a n + (if bit a n then 1 else 0)

/-- Leading zero bits from bit `n - 1` down (R161). -/
def leadZeros (a : Word) : Nat → Nat
  | 0 => 0
  | n + 1 => if bit a n then 0 else leadZeros a n + 1

/-- POPC (R161). -/
def execPopc (f : V3) (s : State) : Out1 := s.alu2 (.popc f) f (fun a _ => BitVec.ofNat 32 (popBits a 32))
/-- CLZ (R161). -/
def execClz (f : V3) (s : State) : Out1 := s.alu2 (.clz f) f (fun a _ => BitVec.ofNat 32 (leadZeros a 32))
/-- BREV (R161). -/
def execBrev (f : V3) (s : State) : Out1 := s.alu2 (.brev f) f (fun a _ => a.reverse)

/-- Position and length of a bit field: b[4:0] and b[13:8], the length cut off at bit 31 (R163). -/
def fieldOf (b : Word) : Nat × Nat :=
  let pos := b.toNat % 32
  (pos, min (b.toNat / 256 % 64) (32 - pos))

/-- The field of BFE (R163). -/
def bfeResult (sx : Bool) (a b : Word) : Word :=
  let p := fieldOf b
  let x := a.toNat / 2 ^ p.1 % 2 ^ p.2
  if sx && p.2 != 0 && x.testBit (p.2 - 1) then BitVec.ofInt 32 ((x : Int) - 2 ^ p.2) else BitVec.ofNat 32 x

/-- BFE (R163). -/
def execBfe (f : V3) (sx : Bool) (s : State) : Out1 := s.alu2 (.bfe f sx) f (bfeResult sx)

/-- The result of BFI (R163). -/
def bfiResult (a b c : Word) : Word :=
  let p := fieldOf b
  let mask : Word := BitVec.ofNat 32 ((2 ^ p.2 - 1) * 2 ^ p.1)
  (c &&& ~~~mask) ||| ((a <<< p.1) &&& mask)

/-- BFI (R163). -/
def execBfi (f : V3) (s : State) : Out1 :=
  s.alu (.bfi f) (fun w t => t.setReg f.d.toNat (bfiResult (f.srcA w t) (f.srcB w t) (f.srcC w t)))
/-- SEL (R164). -/
def execSel (f : V3) (sn : Bool) (spr : PReg) (s : State) : Out1 :=
  s.alu (.sel f sn spr) (fun w t =>
    t.setReg f.d.toNat (if t.pred spr != sn then f.srcA w t else f.srcB w t))
/-- CMP (R164). -/
def execCmp (f : CmpForm) (s : State) : Out1 :=
  s.alu (.cmp f) (fun w t =>
    t.setPred f.pd (cmpHolds f.cond (modInt f.fm.modA (f.srcA w t)).toInt (modInt f.fm.modB (f.srcB w t)).toInt))
/-- CMPU (R164). -/
def execCmpu (f : CmpForm) (s : State) : Out1 :=
  s.alu (.cmpu f) (fun w t => t.setPred f.pd (cmpHolds f.cond (f.srcA w t).toNat (f.srcB w t).toNat))
/-- LEA (R161). -/
def execLea (f : V3) (zx : Bool) (sh : BitVec 3) (s : State) : Out1 :=
  s.alu (.lea f zx sh) (fun w t =>
    let b := f.srcB w t
    let e : Dword := if zx then b.setWidth 64 else b.signExtend 64
    t.setPair f.d.toNat (f.srcA64 w t + (e <<< sh.toNat)))
/-- PLOP (R165). -/
def execPlop (lut : BitVec 4) (pb pa pd : PReg) (fm : Form) (s : State) : Out1 :=
  s.alu (.plop lut pb pa pd fm) (fun _ t => t.setPred pd (lutBit lut (t.pred pa) (t.pred pb)))
/-- PTOV (R166): bit 15 reads 1. -/
def execPtov (f : V3) (s : State) : Out1 :=
  s.alu (.ptov f) (fun _ t => t.setReg f.d.toNat ((t.p ||| 0x8000#16).setWidth 32))
/-- VTOP (R166): p15 is never written. -/
def execVtop (f : V3) (s : State) : Out1 :=
  s.alu (.vtop f) (fun w t =>
    let m : BitVec 16 := (f.srcB w t).setWidth 16 &&& 0x7FFF#16
    { t with p := (t.p &&& ~~~m) ||| ((f.srcA w t).setWidth 16 &&& m) })

/-- Grid extents, threads and role of a guest's origin on another package, which no message tells; the coordinates follow from
WGLIN (R128, R167; entry 26). -/
def originSel (w : Workgroup) (sel : Nat) : Nat :=
  let o (n : Nat) : Nat := (Config.origin w.id n).toNat
  let nx := 1 + o 6 % (2 ^ 32 - 1)
  let ny := 1 + o 7 % (2 ^ 32 - 1)
  let z := w.lin.toNat / nx / ny
  match sel with
  | 3 => w.lin.toNat % nx
  | 4 => w.lin.toNat / nx % ny
  | 5 => z
  | 6 => nx
  | 7 => ny
  | 8 => min (2 ^ 32 - 1) (z + 1 + o 8 % 2 ^ 32)
  | 14 => 1 + o 14 % 1024
  | _ => o 15 % 4

/-- The value of an SREAD selector (R167). `core` is where the thread executes. -/
def special (s : State) (w : Workgroup) (t : Thread) (sel : Nat) : Nat :=
  let core := s.coreOf t
  if w.foreign.isSome && ((3 ≤ sel && sel ≤ 8) || 14 ≤ sel) then originSel w sel
  else match sel with
  | 0 => t.tidx
  | 1 => t.tidx / 32
  | 2 => t.tidx % 32
  | 3 => w.wgx.toNat
  | 4 => w.wgy.toNat
  | 5 => w.wgz.toNat
  | 6 => w.nwgx.toNat
  | 7 => w.nwgy.toNat
  | 8 => w.nwgz.toNat
  | 9 => core
  | 10 => core / 4
  | 11 => core / 64
  | 12 => s.pkg
  | 13 => w.core
  | 14 => w.nthr
  | _ => w.role

/-- Selectors that depend on placement, refused in deterministic mode (R167). -/
def placementSel (sel : Nat) : Bool := 9 ≤ sel && sel ≤ 13

/-- SREAD (R167): per thread, or once for the group when D names a k register. -/
def execSread (f : RI8) (kd : Bool) (s : State) : Out1 :=
  let i : Instr := .sread f kd
  let sel := f.imm.toNat
  let lead := s.leader f.fm
  .next (s.forThreads i (fun s w t =>
    if w.kernel.det && placementSel sel then .fault s (trapOf 0x13)
    else if kd then
      let s := if lead == some t.key then
          s.modWg w.id (fun w => kwrite w false f.d.toNat (BitVec.ofNat 64 (special s w t sel)))
        else s
      .go s (t.onward i)
    else .go s ((t.setReg f.d.toNat (BitVec.ofNat 32 (special s w t sel))).onward i)))

/-- RNG (R168). -/
def execRng (f : V3) (s : State) : Out1 :=
  s.alu (.rng f) (fun w t =>
    let a := f.a.toNat
    let key := f.srcB64 w t
    t.setRegs f.d.toNat
      (philox (t.reg a) (t.reg (a + 1)) (t.reg (a + 2)) (t.reg (a + 3)) (key.setWidth 32) ((key >>> 32).setWidth 32)))

/-- Advance a core's cycle counter by a free amount, at least 1 (R23; entry 4). -/
def State.tickCore (s : State) (core : Nat) : State :=
  let c := s.core core
  (s.setCore { c with cyc := c.cyc + 1 + Config.elapsed s.freeN }).bump

/-- CYC (R169): every thread of the group reads the same value. -/
def execCyc (f : V3) (s : State) : Out1 :=
  let i : Instr := .cyc f
  let s := s.tickCore s.cur.core
  let now := (s.core s.cur.core).cyc
  .next (s.forThreads i (fun s w t =>
    if w.kernel.det then .fault s (trapOf 0x13) else .go s ((t.setPair f.d.toNat now).onward i)))

/-- DIVU (R161). -/
def execDivu (f : V3) (s : State) : Out1 :=
  s.alu2 (.divu f) f (fun a b => if b == 0 then 0xFFFFFFFF#32 else BitVec.ofNat 32 (a.toNat / b.toNat))
/-- REMU (R161). -/
def execRemu (f : V3) (s : State) : Out1 :=
  s.alu2 (.remu f) f (fun a b => if b == 0 then a else BitVec.ofNat 32 (a.toNat % b.toNat))

end Sys2Proof.Machine
end

