-- ==== Sys2Proof/Machine/MemInstr.lean ====
section
/-! DEFINITION. Memory instructions, opcodes 0x60 to 0x6E (R197 to R212). -/

namespace Sys2Proof.Machine

/-- The base of a memory operand. -/
def memBase (f : MemForm) (w : Workgroup) (t : Thread) : Dword := src64 w t f.fm.aIsK f.a

/-- The index, scaled (R182). -/
def memIndex (f : MemForm) (w : Workgroup) (t : Thread) : Dword :=
  let c := f.fm.cField f.d
  let x := src32 w t c.1 c.2
  match f.w2.ix.toNat with
  | 1 => x.signExtend 64 <<< f.w2.sc.toNat
  | 2 => x.setWidth 64 <<< f.w2.sc.toNat
  | _ => 0

/-- The offset: the literal, or imm8 in units (R182, R197). -/
def memOffset (f : MemForm) (unit : Nat) : Dword :=
  match f.fm.lit with
  | some l => l
  | none => f.imm.signExtend 64 * BitVec.ofNat 64 unit

/-- The effective register address (R182). -/
def memEa (f : MemForm) (unit : Nat) (w : Workgroup) (t : Thread) : Dword :=
  memBase f w t + memIndex f w t + memOffset f unit

/-- Bytes that SZ names (R198). -/
def memBytes (f : MemForm) : Nat := 2 ^ f.w2.sz.toNat

/-- The checks of R194 on a memory operand. -/
def State.memCheck (s : State) (f : MemForm) (unit : Nat) (w : Workgroup) (t : Thread) (k : AccessKind) :
    Except Raise Target :=
  s.checkEa w (atCore (s.coreOf t)) k (memBase f w t) (memEa f unit w t)

/-- The 80-bit address of a memory operand. -/
def memVa (f : MemForm) (unit : Nat) (w : Workgroup) (t : Thread) : BitVec 80 := vaOf (memEa f unit w t)

/-- The register words of a load (R201). -/
def loadWords (sx : Bool) (n : Nat) (b : List Byte) : List Word :=
  let x := leNat (b.take n)
  if n < 4 then
    [if sx && x.testBit (8 * n - 1) then BitVec.ofInt 32 ((x : Int) - 2 ^ (8 * n)) else BitVec.ofNat 32 x]
  else bytesToWords (n / 4) b

/-- A thread's access through its memory operand (R194, R202): `unit` scales the offset, and `go` is the access at the place
that the checks find. -/
def State.memAccess (s : State) (f : MemForm) (unit : Nat) (w : Workgroup) (t : Thread) (k : AccessKind)
    (go : Target → Acc) : Except Raise Acc :=
  s.access t.key (s.memCheck f unit w t k) go

/-- The effect of a load on its thread once the data is there: written, or outstanding under a run-ahead tag until its
arrival (R40, R201; entry 15). -/
def Thread.loaded (t : Thread) (i : Instr) (f : MemForm) (group : Nat) (later : Bool) (b : List Byte) : Thread :=
  let x := loadWords f.w2.sx (memBytes f) b
  if later then
    Thread.onward { t with loads := t.loads ++ [⟨group, f.d.toNat, x⟩], status := .data .load } i
  else (t.setRegs f.d.toNat x).onward i

/-- Does this thread take the run-ahead tag of a load (R40)? A thread with a pending tag takes none. -/
def Thread.takesTag (t : Thread) (f : MemForm) : Bool := f.w2.tag != 0 && t.tag == 0

/-- Does a thread of the group pass decode step 8, or have a false guard? -/
def State.passes (s : State) (i : Instr) (t : Thread) : Bool :=
  !t.guard i.form || (s.wg t.wg).any (fun w => i.step8 w t)

/-- A tagged load's tag is taken by every thread of its group that holds none, whatever its guard (R40). -/
def State.tagGroup (s : State) (i : Instr) (f : MemForm) : State :=
  if f.w2.tag == 0 then s
  else { s with threads := s.threads.map (fun t =>
      if s.cur.keys.contains t.key && t.tag == 0 && s.passes i t then { t with tag := f.w2.tag } else t) }

/-- Threads of the group that do not hold a pending tag before the load. -/
def State.untagged (s : State) : List Key := s.cur.keys.filter (fun k => (s.thread k).any (fun t => t.tag == 0))

/-- A load of either kind: its data is written at issue, or waits for its arrival under a run-ahead tag (R40, R201;
entry 15). A thread that takes the tag waits for its own data only, another with its group. -/
def State.load (s : State) (i : Instr) (f : MemForm) (k : AccessKind) (sem : BitVec 2) : Out1 :=
  let n := memBytes f
  let runs (w : Workgroup) (s0 : State) (t : Thread) : Bool := f.w2.tag != 0 && s0.untagged.contains t.key && !s0.steps w
  let x := s.tagGroup i f
  .next (x.forThreads i (fun y w t =>
    match y.memAccess f n w t k (fun g => y.readAt w t g n sem (eaPath (memEa f n w t) == 1)) with
    | .error r => .fault (y.modThread t.key (fun u => { u with tag := ((s.thread t.key).map (·.tag)).getD 0 })) r
    | .ok (.got y b) =>
      if runs w s t then .hold y (t.loaded i f y.cur.id true b) else .go y (t.loaded i f y.cur.id false b)
    | .ok (.hold y (.data (.txn tag _))) => .hold y { t with status := .data (.txn tag (runs w s t)) }
    | .ok a => a.res i t (memVa f n w t) n (f.d.toNat, szRegs f.w2.sz) none (fun _ => t)))

/-- LD (R201). -/
def execLd (f : MemForm) (s : State) : Out1 :=
  s.load (.ld f) f { n := memBytes f, align := memBytes f, paths := [0, 1, 2, 3],
                     ordOk := memBytes f == 4 || memBytes f == 8 } 0
/-- LDA: a load with acquire (R201). -/
def execLda (f : MemForm) (s : State) : Out1 :=
  s.load (.lda f) f { n := memBytes f, align := memBytes f, paths := [0, 2],
                      ordOk := memBytes f == 4 || memBytes f == 8 } 1

/-- The bytes of a register group. -/
def Thread.groupBytes (t : Thread) (d n : Nat) : List Byte := (wordsToBytes (t.regs d 4)).take n

/-- A store with release at DIE scope or wider covers the stores of its thread (R226, R234). -/
def Acc.covers (a : Acc) (f : MemForm) (sem : BitVec 2) (core : Nat) (k : Key) : Acc :=
  match a with
  | .got s b => if releases sem && 3 ≤ f.w2.scope.toNat then .got (s.markOut core k) b else .got s b
  | a => a

/-- A store of either kind (R201). -/
def State.store (s : State) (i : Instr) (f : MemForm) (sem : BitVec 2) : Out1 :=
  let n := memBytes f
  .next (s.forThreads i (fun s w t =>
    let va := memVa f n w t
    match s.memAccess f n w t { n, align := n, paths := [0, 2], write := true, strict := true, ordOk := n == 4 || n == 8 }
        (fun g => s.writeAt w t g (.store (t.groupBytes f.d.toNat n)) sem none va [t.key]) with
    | .error r => .fault s r
    | .ok a => (a.covers f sem (s.coreOf t) t.key).res i t va n (0, 0) none (fun _ => t)))

/-- ST (R201). -/
def execSt (f : MemForm) (s : State) : Out1 := s.store (.st f) f 0
/-- STR: a store with release (R201). -/
def execStr (f : MemForm) (s : State) : Out1 := s.store (.str f) f 2

/-- A read-modify-write with its destination (R203, R204). -/
def State.rmw (s : State) (i : Instr) (f : MemForm) (w : Workgroup) (t : Thread) (op : MemOp) (dest : Option RmwDest) :
    Res :=
  let n := memBytes f
  let va := memVa f n w t
  match s.memAccess f n w t { n, align := n, paths := [0, 2], write := true, strict := true }
      (fun g => s.writeLoc w t g.loc op f.w2.sem dest va [t.key]) with
  | .error r => .fault s r
  | .ok a => a.res i t va n
      (f.d.toNat, if dest.isSome then szRegs f.w2.sz else 0) (dest.bind (·.pd))
      (fun old => match dest with | some d => t.rmwResult d op old | none => t)

/-- ATOM (R203, R211). -/
def execAtom (f : MemForm) (s : State) : Out1 :=
  let i : Instr := .atom f
  .next (s.forThreads i (fun s w t =>
    if w.kernel.det && f.w2.ret then .fault s (trapOf 0x13)
    else
      let n := memBytes f
      let d : Dword := if n == 8 then t.pair f.d.toNat else (t.reg f.d.toNat).setWidth 64
      s.rmw i f w t (.atom f.w2.op.toNat n d)
        (if f.w2.ret then some { key := t.key, d := f.d.toNat, n, pd := none } else none)))

/-- ACAS (R204, R211). -/
def execAcas (f : MemForm) (s : State) : Out1 :=
  let i : Instr := .acas f
  .next (s.forThreads i (fun s w t =>
    if w.kernel.det then .fault s (trapOf 0x13)
    else
      let n := memBytes f
      let d := f.d.toNat
      let e : Dword := if n == 8 then t.pair d else (t.reg d).setWidth 64
      let x : Dword := if n == 8 then t.pair (d + 2) else (t.reg (d + 1)).setWidth 64
      s.rmw i f w t (.cas n e x) (some { key := t.key, d, n, pd := some f.w2.pd })))

/-- The access of a cell instruction (R193, R205). -/
def cellKind (write : Bool) : AccessKind := { n := 32, align := 32, paths := [4], write }

/-- A write of a cell (R205). -/
def State.cellWrite (s : State) (i : Instr) (f : MemForm) (op : Thread → MemOp) : Out1 :=
  .next (s.forThreads i (fun s w t =>
    let va := memVa f 32 w t
    match s.memAccess f 32 w t (cellKind true) (fun g => s.writeLoc w t g.loc (op t) f.w2.sem none va [t.key]) with
    | .error r => .fault s r
    | .ok a => a.res i t va 32 (0, 0) none (fun _ => t)))

/-- ACCADD (R134, R205). -/
def execAccadd (f : MemForm) (s : State) : Out1 :=
  s.cellWrite (.accadd f) f (fun t =>
    .cellAdd f.w2.op.toNat (if f.w2.op == 0 then (t.reg f.d.toNat).setWidth 64 else t.pair f.d.toNat))

/-- ACCCLR (R205). -/
def execAccclr (f : MemForm) (s : State) : Out1 := s.cellWrite (.accclr f) f (fun _ => .cellClear)

/-- The read of a cell: a CELL request at another package (R431), the bytes of the cell here. -/
def State.readCell (s : State) (w : Workgroup) (t : Thread) (f : MemForm) (l : Loc) : Acc :=
  let r := if releases f.w2.sem then s.release (s.coreOf t) t.key else s
  match l with
  | .remote pkg pa => r.remote t pkg (vfOfCtx w.ctxn) (dieOf (s.coreOf t)) [.cell (BitVec.ofNat 64 pa) 1 f.w2.op f.w2.sem 0]
  | .main pa =>
    if !s.reaches (dieOf (s.coreOf t)) (homeDie pa) then .bad s
    else (match r.physRead pa 32 with
      | some b => .got r (r.overlay (.thread t.wg t.tidx) pa b)
      | none => .bad (r.logBad (vfOfCtx w.ctxn) pa))
  | _ => .bad s

/-- ACCRD (R136, R205): a cell is read at its home, past the stores that wait in the core (R231). -/
def execAccrd (f : MemForm) (s : State) : Out1 :=
  let i : Instr := .accrd f
  .next (s.forThreads i (fun s w t =>
    match s.memAccess f 32 w t (cellKind false) (fun g => s.readCell w t f g.loc) with
    | .error r => .fault s r
    | .ok a =>
      a.res i t (memVa f 32 w t) 32 (f.d.toNat, if f.w2.op == 0 then 1 else 2) none (fun b =>
        let x := cellRead (BitVec.ofNat 256 (leNat (b.take 32))) f.w2.op.toNat
        if f.w2.op == 0 then t.setReg f.d.toNat (BitVec.ofNat 32 x) else t.setPair f.d.toNat (BitVec.ofNat 64 x))))

/-- Does a path mask name a path (R80)? -/
def namesPath (pm : BitVec 7) (path : Nat) : Bool := bit pm path

/-- The order that a FENCE of a thread makes (R228, R230, R231): a kind that releases has the thread's stores performed, for
its core where scope and mask ask no more, else for every agent; one that names ROD is a ROD point, as an acquire there is
(R232), so that the thread's ROD reads find its own earlier GEN writes. -/
def State.fence (s : State) (core : Nat) (k : Key) (kind : BitVec 2) (scope : BitVec 3) (pm : BitVec 7) : State :=
  let others := (List.range 7).any (fun p => p != 0 && p != 2 && namesPath pm p)
  let s := if others || (kind != 0 && 2 ≤ scope.toNat) then s.release core k else if kind == 0 then s else s.drainQueue k
  if namesPath pm 1 then s.rodPoint else s

/-- FENCE (R210, R228): loads have been performed when it executes; the stores that wait are performed as it asks. -/
def execFence (kind : BitVec 2) (scope : BitVec 3) (pm : BitVec 7) (fm : Form) (s : State) : Out1 :=
  let i : Instr := .fence kind scope pm fm
  .next (s.forThreads i (fun s _ t => .go (s.fence (s.coreOf t) t.key kind scope pm) (t.onward i)))

/-- PREF (R206): no architectural effect and no fault. DESIGN CHOICE (entry 14): the replica that it may bring into the L2 is not
made; only a ROD read makes one. -/
def execPref (f : MemForm) (s : State) : Out1 := s.alu (.pref f) (fun _ t => t)

/-- The refresh times of a weight-store bank (R187, R209). -/
def wsqryResult (now : Dword) (off : Nat) : Word × Word :=
  let b := off / 2 ^ 25 % 16
  let t := (now.toNat + 65536 * 16 - b * 4096) % 65536
  if t < 2048 then (0, BitVec.ofNat 32 (2048 - t)) else (BitVec.ofNat 32 (65536 - t), 2048)

/-- WSQRY (R209, R211). -/
def execWsqry (f : MemForm) (s : State) : Out1 :=
  let i : Instr := .wsqry f
  let die := dieOf s.cur.core
  let s := s.tickDie die
  .next (s.forThreads i (fun s w t =>
    if w.kernel.det then .fault s (trapOf 0x13)
    else match s.memCheck f 4 w t { n := 1, align := 1, paths := [3] } with
      | .error r => .fault s r
      | .ok g => match g.loc with
        | .wst _ off =>
          let x := wsqryResult (s.dieNow die) off
          .go s (((t.setReg f.d.toNat x.1).setReg (f.d.toNat + 1) x.2).onward i)
        | _ => .go s (t.onward i)))

/-- Bytes of a maintenance range (R198). -/
def rangeBytes (f : MemForm) : Nat := match f.w2.sz.toNat with | 0 => 64 | 1 => 1024 | _ => 65536

/-- CINV or CWB on a range that has passed its checks: `act` is what it does at a place of main memory (R207). -/
def State.maintain (s : State) (i : Instr) (f : MemForm) (path : Nat) (act : State → Thread → Nat → State) : Out1 :=
  .next (s.forThreads i (fun s w t =>
    match s.memCheck f 64 w t { n := rangeBytes f, align := rangeBytes f, paths := [path] } with
    | .error r => .fault s r
    | .ok g => match g.loc with
      | .main pa => .go (act s t pa) (t.onward i)
      | _ => .go s (t.onward i)))

/-- CINV (R207): no replica of the range is left in the L2 of the executing die, or of every die. It is a ROD point of the
threads there (R232), whose own stores, and those of their core, the next ROD reads find: those that wait are performed
(entry 3). -/
def execCinv (f : MemForm) (s : State) : Out1 :=
  s.maintain (.cinv f) f 1 (fun s t pa =>
    s.flushAll.dropReplicas (if f.w2.scope == 4 then List.range 4 else [dieOf (s.coreOf t)]) pa (rangeBytes f))

/-- CWB (R207): the modified lines of the range, the stores that wait in the core among them, reach the memory controllers. -/
def execCwb (f : MemForm) (s : State) : Out1 :=
  s.maintain (.cwb f) f 0 (fun s t pa => (s.release (s.coreOf t) t.key).cleanRange pa (rangeBytes f))

/-- Zero the blocks of a range in turn (R208, R454); none where the home cannot be reached. -/
def State.zeroBlocks (s : State) (w : Workgroup) (t : Thread) (va : BitVec 80) (pa : Nat) : Nat → Acc
  | 0 => .got s []
  | n + 1 =>
    match s.writeLoc w t (.main pa) (.zero 1024) 0 none va [t.key] with
    | .got s _ => State.zeroBlocks s w t (va + 1024) (pa + 1024) n
    | .later s => State.zeroBlocks s w t (va + 1024) (pa + 1024) n
    | a => a

/-- ZFILL at the place of its range (R208). -/
def State.zeroRange (s : State) (w : Workgroup) (t : Thread) (va : BitVec 80) (n : Nat) (l : Loc) : Acc :=
  match l with
  | .main pa =>
    if n != 64 && s.isCmp pa then s.zeroBlocks w t va pa (n / 1024) else s.writeLoc w t l (.zero n) 0 none va [t.key]
  | l => s.writeLoc w t l (.zero n) 0 none va [t.key]

/-- ZFILL (R208). -/
def execZfill (f : MemForm) (s : State) : Out1 :=
  let i : Instr := .zfill f
  let n := rangeBytes f
  .next (s.forThreads i (fun s w t =>
    let va := memVa f 64 w t
    match s.memAccess f 64 w t { n, align := n, paths := [0, 2], write := true, strict := true } (fun g => s.zeroRange w t va n g.loc) with
    | .error r => .fault s r
    | .ok a => a.res i t va n (0, 0) none (fun _ => t)))

end Sys2Proof.Machine
end

