-- ==== Sys2Proof/Machine/Tensor.lean ====
section
/-! DEFINITION. Tensor identifier entries (R243 to R245), the RAW view (R397), and copy descriptors turned into the
elements that a copy moves (R247 to R250). -/

namespace Sys2Proof.Machine

/-- A tensor identifier entry (R243). -/
structure Tensor where
  fmt : Nat
  rank : Nat
  sblk : Nat
  sdim : Nat
  scl : Bool
  scaletid : Nat
  base : BitVec 80
  ext : List Nat
  stride : List Nat
  cb : List (BitVec 16)
  gext : List Nat
  shard : List Nat
  part : List Nat
  deriving DecidableEq, Repr

/-- Fields of `n` bytes at ascending places. -/
def fields (b : List Byte) (off n : Nat) (count : Nat) : List Nat := (List.range count).map (fun i => field b (off + n * i) n)

/-- The codebook of an entry (R121). -/
def codebookOf (b : List Byte) : List (BitVec 16) := (fields b 0x78 2 16).map (BitVec.ofNat 16)

/-- Is VALID set in an entry's image? -/
def tidValidBit (b : List Byte) : Bool := (field b 0 8).testBit 14

/-- The fields of an image. -/
def tensorFields (b : List Byte) : Tensor :=
  let h := field b 0 8
  { fmt := h % 16, rank := h / 16 % 16, sblk := 16 * 2 ^ (h / 256 % 4), sdim := h / 1024 % 8, scl := h.testBit 13,
    scaletid := h / 65536 % 4096, base := BitVec.ofNat 80 (field b 8 10), ext := fields b 0x18 4 8,
    stride := fields b 0x38 8 8, cb := codebookOf b, gext := fields b 0x98 4 8, shard := fields b 0xB8 1 8,
    part := fields b 0xC0 4 8 }

/-- The rules of R244 on one dimension. -/
def dimOk (t : Tensor) (i : Nat) : Bool :=
  let e := t.ext.getD i 0
  let g := t.gext.getD i 0
  let sh := t.shard.getD i 0
  let p := t.part.getD i 0
  1 ≤ e && sh ≤ 3
  && (i < t.rank || (e == 1 && t.stride.getD i 0 == 0 && g == 1 && sh == 0))
  && (if sh == 0 then g == e else e ≤ p && g ≤ p * 65536)

/-- Is the image of an entry with VALID = 1 valid (R244)? -/
def tensorOk (b : List Byte) : Bool :=
  let h := field b 0 8
  let t := tensorFields b
  h / 2 ^ 28 == 0 && !h.testBit 15 && zeroAt b 0x12 6 && zeroAt b 0xE0 32
  && (t.fmt ≤ 6 || t.fmt == 9 || t.fmt == 10) && 1 ≤ t.rank && t.rank ≤ 8
  && t.stride.getD 0 0 == 1 && t.base.toNat % 16 == 0
  && (List.range 8).all (dimOk t)
  && (t.fmt != 9 || (List.range 8).all (fun i => i == 0 || t.stride.getD i 0 % 2 == 0))
  && (!t.scl || t.fmt == 3 || t.fmt == 4 || t.fmt == 9)

/-- The tensor of an image; none when it is invalid. -/
def parseTensor (b : List Byte) : Option Tensor :=
  if tidValidBit b && tensorOk b then some (tensorFields b) else none

/-- The place of a context's entry (R243). -/
def State.titAddr (s : State) (w : Workgroup) (tid : Nat) : Nat :=
  (((s.ctx w.ctxn).desc.map (·.tit)).getD 0) + 256 * (tid % 4096)

/-- A context's entry: 0x0F where it is invalid, and 0x0C where it cannot be read (R244, R396; entry 62). -/
def State.tensor (s : State) (w : Workgroup) (tid : Nat) : Except Raise Tensor :=
  match s.physRead (s.titAddr w tid) 256 with
  | none => .error (trapOf 0x0C)
  | some b => match parseTensor b with
    | none => .error (trapOf 0x0F)
    | some t => .ok t

/-- Two entries, of operands or of a source and a destination; one that cannot be read goes before one that is invalid. -/
def State.tensorPair (s : State) (w : Workgroup) (a b : Nat) : Except Raise (Tensor × Tensor) :=
  match s.tensor w a, s.tensor w b with
  | .ok x, .ok y => .ok (x, y)
  | .error r, .ok _ => .error r
  | .ok _, .error r => .error r
  | .error r, .error q => .error (if r.code == 0x0C then r else q)

/-- Log an entry that could not be read (R396). -/
def State.logTensor (s : State) (w : Workgroup) (tid : Nat) : State :=
  let a := s.titAddr w tid
  if (s.physRead a 256).isNone then s.logBad (vfOfCtx w.ctxn) a else s

/-- Bytes of an element; CB4 counts as one. -/
def elemBytes (fmt : Nat) : Nat := if fmt == 9 then 1 else fmtBits fmt / 8

/-- Σ xi × STRIDE[i]. -/
def strideSum (t : Tensor) (x : List Nat) : Nat := ((List.zip x t.stride).map (fun p => p.1 * p.2)).sum

/-- The byte of an element, and for CB4 whether it is the high nibble (R122, R244). -/
def elemAddr (t : Tensor) (x : List Nat) : BitVec 80 × Option Bool :=
  let n := strideSum t x
  if t.fmt == 9 then (t.base + BitVec.ofNat 80 (n / 2), some (n % 2 == 1))
  else (t.base + BitVec.ofNat 80 (n * elemBytes t.fmt), none)

/-! ## The RAW view -/

/-- The GEN address that a RAW address names, and the byte of the metadata word where it names one (R397). -/
def rawGen (va : BitVec 80) : Option (BitVec 80 × Option Nat) :=
  let rgn : BitVec 80 := (bits va 75 68).setWidth 80 <<< 68
  let a := va.toNat % 2 ^ 68
  if !bit va 51 then some (rgn ||| BitVec.ofNat 80 a, none)
  else
    let m := a % 2 ^ 51
    let g := m / 4 * 1024
    if 2 ^ 52 ≤ a || 2 ^ 51 ≤ g then none else some (rgn ||| BitVec.ofNat 80 g, some (m % 4))

/-- The place of a RAW byte behind a leaf: 0x02 where the leaf does not match its frame or the access is not permitted, and 0x16
on a plain frame, as every frame of host memory is (R384, R397, R398, R400). -/
def State.rawPlace (s : State) (vf : Nat) (write : Bool) (l : Leaf) (sub : Option Nat) : Except Byte Loc :=
  if l.graph || l.ord || (write && !l.w) then .error 0x02
  else if l.host then .error (if l.cmp then 0x02 else 0x16)
  else if 2 ^ 41 ≤ l.pa then .error 0x02
  else if l.pkg != 0xFF && l.pkg != s.pkg then
    if l.cmp then .ok (.remote l.pkg (l.pa + 2 ^ 63 + (match sub with | some r => 2 ^ 62 + r | none => 0))) else .error 0x16
  else match s.frameOf l.pa with
    | none => .error 0x02
    | some r =>
      if r.vf != vf || r.cmp != l.cmp then .error 0x02
      else if !l.cmp then .error 0x16
      else .ok (match sub with | some r => .rawMeta (l.pa + r) | none => .rawData l.pa)

/-- The place of a RAW byte under the checks of R194 through its GEN address (R397, R398). -/
def State.rawLoc (s : State) (w : Workgroup) (x : Site) (write : Bool) (va : BitVec 80) : Except Raise Loc :=
  let fail (c : Byte) : Except Raise Loc := .error (dataFault c va 1 false)
  match rawGen va, (s.ctx w.ctxn).desc with
  | none, _ => fail 0x16
  | _, none => fail 0x01
  | some (g, sub), some d =>
    if !s.regionOk x w.ctxn d g 1 then fail 0x03
    else match s.leaf x w.ctxn d.ptroot g with
      | none => fail 0x01
      | some l =>
        if l.region != (bits g 75 68).toNat then fail 0x03
        else match s.rawPlace (vfOfCtx w.ctxn) write l sub with
          | .error c => fail c
          | .ok p => .ok p

/-- The place as an agent on a die reaches it by a path: ROD finds main memory of another die in replicas (R184). -/
def Loc.onPath (l : Loc) (path die : Nat) : Loc :=
  match l with
  | .main pa => if path == 1 && homeDie pa != die then .rod pa else .main pa
  | l => l

/-- The place of a tensor element of a copy, under the checks of R194 (R249). -/
def State.elemLoc (s : State) (w : Workgroup) (write raw : Bool) (n : Nat) (va : BitVec 80) : Except Raise Loc :=
  let path := (bits va 79 76).toNat
  if raw && path == 5 then s.rawLoc w (atCore w.core) write va
  else match s.checkVa w (atCore w.core)
      { n, align := n, paths := if write then [0, 2] else [0, 1, 2, 3], write, strict := write } va with
    | .error r => .error r
    | .ok g => .ok (g.loc.onPath path (dieOf w.core))

/-! ## Copy descriptors -/

/-- A copy descriptor (R247). -/
structure CopyDesc where
  start : List Int
  box : List Nat
  tid : Nat
  dtile : Nat
  tr : Bool
  tr16 : Bool
  xlt : Bool
  raw : Bool
  scl : Bool
  out : Bool
  pad : Nat
  doff : Nat
  stag : BitVec 16
  ctile : Nat
  /-- Reserved bits are zero. -/
  clean : Bool
  deriving DecidableEq, Repr

/-- Read a descriptor's fields. -/
def copyDesc (b : List Byte) : CopyDesc :=
  let m := field b 0x33 1
  { start := (fields b 0 4 8).map (fun x => (BitVec.ofNat 32 x).toInt), box := fields b 0x20 2 8,
    tid := field b 0x30 2 % 4096, dtile := field b 0x32 1, tr := m.testBit 0, tr16 := m.testBit 1,
    xlt := m.testBit 2, raw := m.testBit 3, scl := m.testBit 4, out := m.testBit 5, pad := field b 0x34 4,
    doff := field b 0x38 4, stag := BitVec.ofNat 16 (field b 0x3C 2), ctile := field b 0x3E 1,
    clean := field b 0x30 2 < 4096 && field b 0x32 1 < 64 && m < 64 && field b 0x3F 1 == 0 }

/-- The rules of R247 and R248 that need the descriptor alone. -/
def CopyDesc.ok (d : CopyDesc) : Bool :=
  d.clean && d.box.all (fun b => 1 ≤ b) && (if d.out then d.ctile < 64 else d.ctile == 0xFF)
  && ([d.tr, d.tr16, d.xlt, d.raw, d.scl].filter id).length ≤ 1 && !(d.xlt && d.out) && !(d.scl && d.out)

/-- The rules that need the tensor and the data tile too. Operand memory is reached only into slot tiles (R266). -/
def CopyDesc.fits (d : CopyDesc) (t : Tensor) (k : TileKind) : Bool :=
  (List.range 8).all (fun i => i < t.rank || d.box.getD i 0 == 1)
  && (!d.tr || fmtBits t.fmt == 8) && (!d.tr16 || fmtBits t.fmt == 16) && (!d.xlt || fmtBits t.fmt == 8)
  && (!d.raw || (t.fmt == 5 && t.rank == 1 && k == .spad && (bits t.base 79 76).toNat == 5))
  && (if d.scl then k == .fifo && t.fmt == 10 else k != .fifo)
  && (t.fmt != 9 || d.box.getD 0 0 % 2 == 0)
  && (!d.out || k == .spad)

/-- The size of a copy in nibbles (R248). -/
def CopyDesc.nibbles (d : CopyDesc) (t : Tensor) : Nat :=
  d.box.prod * (if d.xlt then 4 else if t.fmt == 9 then 1 else fmtBits t.fmt / 4)

/-- The places of a box in row-major order, the first dimension innermost (R248). -/
def boxPlaces : List Nat → List (List Nat)
  | [] => [[]]
  | b :: r => (boxPlaces r).flatMap (fun y => (List.range b).map (fun j => j :: y))

/-- Exchange the first two entries. -/
def swap01 {α : Type} : List α → List α
  | a :: b :: r => b :: a :: r
  | l => l

/-- The index of a place in row-major order, the first dimension innermost. -/
def placeIndex : List Nat → List Nat → Nat
  | b :: bs, j :: js => j + b * placeIndex bs js
  | _, _ => 0

/-- The index of a box's place in the tile: TR8 and TR16 exchange dimensions 0 and 1 there (R248). -/
def CopyDesc.tileIndex (d : CopyDesc) (p : List Nat) : Nat :=
  if d.tr || d.tr16 then placeIndex (swap01 d.box) (swap01 p) else placeIndex d.box p

/-- The coordinates of a place. -/
def CopyDesc.coords (d : CopyDesc) (p : List Nat) : List Int := List.zipWith (fun s j => s + (j : Int)) d.start p

/-- Coordinates inside the extents, as naturals (R248). -/
def inside (t : Tensor) (c : List Int) : Option (List Nat) :=
  if (List.zip c t.ext).all (fun p => 0 ≤ p.1 && p.1 < (p.2 : Int)) then some (c.map Int.toNat) else none

/-- The byte of a tile's range that lies `n` bytes from its start (R239). -/
def tileLoc (t : Tile) (n : Nat) : Loc :=
  match t.kind with
  | .spad => .spad (64 * t.base + n)
  | .slots => .slot (16384 * t.base + n)
  | .fifo => .fifo

/-- Bytes of a tile's range (R239, R258). -/
def Tile.bytes (t : Tile) : Nat :=
  match t.kind with
  | .spad => 64 * t.size
  | .slots => 16384 * t.size
  | .fifo => 8192

/-- The element at the `k`-th place of the tile range, with its tensor coordinates; `zero` is a bad index (R250). -/
def State.oneMove (s : State) (w : Workgroup) (d : CopyDesc) (t : Tensor) (tl : Tile) (k : Nat)
    (c : List Int) (zero : Bool) : Except Raise Move :=
  let tsize := if d.xlt then 2 else elemBytes t.fmt
  let tl' : Loc × Option Bool :=
    if t.fmt == 9 then (tileLoc tl (d.doff + k / 2), some (k % 2 == 1)) else (tileLoc tl (d.doff + k * tsize), none)
  let pad := if zero then 0 else d.pad % 2 ^ (if d.xlt then 16 else fmtBits t.fmt)
  match (if zero then none else inside t c) with
  | none =>
    .ok (if d.out then { src := some tl'.1, pad, dst := none, size := elemBytes t.fmt, srcHalf := tl'.2, dstHalf := none }
         else { src := none, pad, dst := some tl'.1, size := elemBytes t.fmt, srcHalf := none, dstHalf := tl'.2 })
  | some x =>
    let a := elemAddr t x
    match s.elemLoc w d.out d.raw (elemBytes t.fmt) a.1 with
    | .error r => .error r
    | .ok l =>
      .ok (if d.out then { src := some tl'.1, pad, dst := some l, size := elemBytes t.fmt, srcHalf := tl'.2, dstHalf := a.2 }
           else { src := some l, pad, dst := some tl'.1, size := elemBytes t.fmt, srcHalf := a.2, dstHalf := tl'.2 })

/-- Check and list every element in order; the first failing check decides (R249). -/
def State.movesFrom (s : State) (w : Workgroup) (d : CopyDesc) (t : Tensor) (tl : Tile) :
    List (Nat × List Int × Bool) → Except Raise (List Move)
  | [] => .ok []
  | (k, c, zero) :: r =>
    match s.oneMove w d t tl k c zero with
    | .error e => .error e
    | .ok m => match State.movesFrom s w d t tl r with
      | .error e => .error e
      | .ok ms => .ok (m :: ms)

/-- The offset of a metadata word's next byte, for joining the bytes of one word. -/
def Loc.next : Loc → Nat → Loc
  | .main a, n => .main (a + n)
  | .rod a, n => .rod (a + n)
  | .host v a, n => .host v (a + n)
  | .remote p a, n => .remote p (a + n)
  | .spad a, n => .spad (a + n)
  | .wst d a, n => .wst d (a + n)
  | .slot a, n => .slot (a + n)
  | .rawData a, n => .rawData (a + n)
  | .rawMeta a, n => .rawMeta (a + n)
  | .reg a, n => .reg (a + n)
  | .fifo, _ => .fifo
  | .lit d, _ => .lit d

/-- Is a place a byte of a metadata word? -/
def isMeta : Loc → Option Nat
  | .rawMeta a => some a
  | .remote _ a => if a.testBit 62 then some a else none
  | _ => none

/-- Join consecutive bytes of one metadata word into one write (R398). -/
def joinMeta : List Move → List Move
  | [] => []
  | m :: r =>
    match joinMeta r with
    | [] => [m]
    | x :: r' =>
      match m.dst, x.dst, m.src, x.src with
      | some d, some e, some a, some b =>
        (match isMeta d with
         | some p => if e == d.next m.size && b == a.next m.size && p % 4 + m.size + x.size ≤ 4
             then { m with size := m.size + x.size } :: r' else m :: x :: r'
         | none => m :: x :: r')
      | _, _, _, _ => m :: x :: r'

end Sys2Proof.Machine
end

