-- ==== Sys2Proof/Machine/Tiles.lean ====
section
/-! DEFINITION. Tile table entries (R238 to R242), copy issue (R247 to R251) and the waits on engines. Opcodes 0x73 to
0x7D. -/

namespace Sys2Proof.Machine

/-! ## Tile entries -/

/-- An entry at the start of a workgroup (R238). -/
def Tile.fresh : Tile :=
  { oor := 0, arrived := 0, claimed := 0, expected := 0, phase := false, state := .empty, err := 0, kind := .spad,
    size := 0, base := 0 }

/-- Code of a state (R239). -/
def TileState.code : TileState → Nat
  | .empty => 0 | .filling => 1 | .ready => 2 | .draining => 3

/-- Code of a kind (R239). -/
def TileKind.code : TileKind → Nat
  | .spad => 0 | .slots => 1 | .fifo => 2

/-- The 128-bit image of an entry (R239). -/
def Tile.image (t : Tile) : BitVec 128 :=
  BitVec.ofNat 128 (t.base + t.size * 2 ^ 16 + t.kind.code * 2 ^ 30 + t.err * 2 ^ 44 + t.state.code * 2 ^ 46
    + (if t.phase then 2 ^ 48 else 0) + t.expected * 2 ^ 49 + t.claimed * 2 ^ 70 + t.arrived * 2 ^ 91 + t.oor * 2 ^ 112)

/-- An entry that becomes EMPTY (R240). -/
def Tile.makeEmpty (t : Tile) : Tile := { t with state := .empty, arrived := 0, claimed := 0 }

/-- The entry of a tile number (R238). -/
def Workgroup.tile (w : Workgroup) (n : Nat) : Option Tile := w.tiles[n]?

/-- Is a tile in a state? -/
def Workgroup.tileIs (w : Workgroup) (n : Nat) (st : TileState) : Bool := (w.tile n).any (fun t => t.state == st)

/-- Does an operation read a tile, for TDONE (R240, R248, R275, R283)? -/
def OpBody.readsTile (b : OpBody) (n : Nat) : Bool :=
  match b with
  | .copy _ _ dtile _ out _ _ _ _ => out && dtile == n
  | .mma m => m.atile == n || m.btile == n || m.stile == some n
  | .accld _ tile _ => tile == n
  | _ => false

/-- Do queued operations of a workgroup read a tile? -/
def State.tileRead (s : State) (wg n : Nat) : Bool := s.ops.any (fun o => o.wg == wg && o.body.readsTile n)

/-- A tile enters EMPTY: the unreserved packets of a FIFO tile are discarded (R240, R271). -/
def State.emptyTile (s : State) (wg n : Nat) : State :=
  (s.modTile wg n Tile.makeEmpty).modWg wg (fun w =>
    { w with packets := w.packets.filter (fun p => !(p.tile == n && p.reserved.isNone)) })

/-- The fault that ERR records (R242): trapping whatever its code. -/
def tileFault (n : Nat) (err : Nat) : Raise :=
  { code := match err with | 1 => 0x0C | 2 => 0x0B | _ => 0x07, space := 4, addr := BitVec.ofNat 128 n }

/-- Has a tile's entry an uncorrectable error (R443)? -/
def State.tileBad (s : State) (w : Workgroup) (n : Nat) : Bool := s.ecc.contains (.tile w.id n)

/-- The fault of the first of some tiles whose ERR is set, or whose entry cannot be read (R242, R443). -/
def State.tileErr (s : State) (w : Workgroup) (ts : List Nat) : Option Raise :=
  ts.findSome? (fun n => if s.tileBad w n then some (tileFault n 1)
    else (w.tile n).bind (fun t => if t.err == 0 then none else some (tileFault n t.err)))

/-- An entry that is written whole is good again (R443). -/
def State.healTile (s : State) (wg n : Nat) : State := { s with ecc := s.ecc.filter (· != .tile wg n) }

/-! ## Queues -/

/-- Operations on a queue of a core. -/
def State.queueLen (s : State) (core q : Nat) : Nat := (s.ops.filter (fun o => o.core == core && o.q == q)).length

/-- Operations of a workgroup on a set of queues. -/
def State.opsOn (s : State) (wg : Nat) (qs : Nat → Bool) : List Op := s.ops.filter (fun o => o.wg == wg && qs o.q)

/-- Is an operation on a queue a conversion copy (R253)? -/
def OpBody.isXlt : OpBody → Bool
  | .copy _ x _ _ _ _ _ _ _ => x.isSome
  | _ => false

/-- Slots that an operation uses (R281). -/
def State.opSlots (s : State) (o : Op) : List Nat :=
  let covered (n : Nat) : List Nat :=
    match (s.wg o.wg).bind (fun w => w.tile n) with
    | some t => if t.kind == .slots then (List.range t.size).map (· + t.base) else []
    | none => []
  match o.body with
  | .copy _ _ dtile _ out _ _ _ _ => if out then [] else covered dtile
  | .mma m => [m.aslot, m.bslot, m.bslot + 1]
  | .acccvt _ tile _ _ _ _ _ _ _ _ _ _ => covered tile
  | _ => []

/-- The accumulator tile that an operation names (R281). -/
def OpBody.acc : OpBody → Option Nat
  | .mma m => some m.acc
  | .accz a => some a
  | .accld a _ _ => some a
  | .accst a _ _ => some a
  | .acccvt a _ _ _ _ _ _ _ _ _ _ _ => some a
  | _ => none

/-- Does a queued operation of a workgroup use one of these slots or accumulator tiles (R281)? -/
def State.inUse (s : State) (wg : Nat) (slots accs : List Nat) : Bool :=
  s.ops.any (fun o => o.wg == wg && ((s.opSlots o).any slots.contains || (o.body.acc.any accs.contains)))

/-- Does a gate hold for a thread of a workgroup (R241, R251, R253, R258, R274, R281)? -/
def State.gateHolds (s : State) (w : Workgroup) : Gate → Bool
  | .queueRoom core q => decide (s.queueLen core q < (if q == 4 then 16 else 32))
  | .tilesReady ts => ts.all (fun n => w.tileIs n .ready)
  | .notDraining n => !w.tileIs n .draining
  | .fifoFree => !(s.wgs.any (fun u => u.id != w.id && u.core == w.core
      && u.tiles.any (fun t => t.kind == .fifo && t.state != .empty)))
  | .noXlt => !(s.ops.any (fun o => o.wg == w.id && o.body.isXlt))
  | .unused slots accs => !s.inUse w.id slots accs
  | .turn keys pc => !keys.any (fun k => (s.thread k).any (fun t => t.before pc))

/-- A step of a gated instruction that acts for its threads in ascending TIDX (R256, R274): behind earlier threads that wait. -/
def State.inTurn (s : State) (t : Thread) (go : Res) : Res :=
  let l := s.behind t
  if l.isEmpty then go else .hold s (t.gated (.turn l t.pc) (t.seen.getD []))

/-! ## Scratchpad operands -/

/-- A fault of an operand in the scratchpad (R246, R249). -/
def spadFault (code : Byte) (off : Nat) : Raise :=
  { code, space := 1, addr := BitVec.ofNat 128 (2 * 2 ^ 76 + off) }

/-- Check an operand of `n` bytes of the allotment: a multiple of `align` (0x05) that lies within (0x03). -/
def Workgroup.spadWord (w : Workgroup) (off n align : Nat) : Except Raise (List Byte) :=
  if off % align != 0 then .error (spadFault 0x05 off)
  else if w.spadSize < off + n then .error (spadFault 0x03 off)
  else .ok (memGetN w.spad off n)

/-- Read such an operand: 0x0C where it holds an uncorrectable error (R195; entry 37). -/
def Workgroup.spadRead (w : Workgroup) (off n align : Nat) : Except Raise (List Byte) :=
  match w.spadWord off n align with
  | .ok b => if w.spadBad off n then .error (spadFault 0x0C off) else .ok b
  | .error r => .error r

/-! ## TARM, TWAIT, TDONE, TSTAT -/

/-- The kind of a placement word; none where it is malformed (R239, R258). -/
def placement (a : Word) : Option (TileKind × Nat × Nat) :=
  let kind := (bits a 31 30).toNat
  let size := (bits a 29 16).toNat
  let base := (bits a 12 0).toNat
  if bits a 15 13 != 0 then none
  else match kind with
    | 0 => if 1 ≤ size && size ≤ 8192 then some (.spad, size, base) else none
    | 1 => if 1 ≤ size && size ≤ 64 && base ≤ 63 && base + size ≤ 64 then some (.slots, size, base) else none
    | 2 => if size == 0 && base == 0 then some (.fifo, size, base) else none
    | _ => none

/-- Slots that a workgroup holds on its core (R266). -/
def State.heldSlots (s : State) (w : Workgroup) : List Nat :=
  ((s.core w.core).slotHolder.filter (fun p => p.2 == w.id)).map (·.1)

/-- Accumulator tiles that a workgroup holds. -/
def State.heldAccs (s : State) (w : Workgroup) : List Nat :=
  ((s.core w.core).accHolder.filter (fun p => p.2 == w.id)).map (·.1)

/-- The entry that a placement word arms. -/
def armTile (t : Tile) (p : TileKind × Nat × Nat) (b : Nat) : Tile :=
  let t := { t with oor := 0, arrived := 0, claimed := 0, expected := b, err := 0, kind := p.1, size := p.2.1, base := p.2.2 }
  if b == 0 then t.makeReady else { t with state := .filling }

/-- TARM for one thread (R258). -/
def State.tarm (s : State) (i : Instr) (w : Workgroup) (t : Thread) (n : Nat) (a : Word) (b : Nat) : Res :=
  match w.tile n, placement a with
  | some old, some p =>
    let new := armTile old p b
    if new.bytes < b || (p.1 == .spad && w.spadSize < (p.2.1 + p.2.2) * 64)
        || (p.1 == .slots && !(List.range p.2.1).all (fun j => (s.heldSlots w).contains (p.2.2 + j))) then
      .fault s (trapOf 0x07)
    else if old.state == .draining then .hold s (t.gated (.notDraining n) (natLe 4 a.toNat ++ natLe 4 b))
    else if old.state != .empty then .fault s (trapOf 0x07)
    else if p.1 == .fifo && !s.gateHolds w .fifoFree then .hold s (t.gated .fifoFree (natLe 4 a.toNat ++ natLe 4 b))
    else t.done ((s.modTile w.id n (fun _ => new)).healTile w.id n) i
  | _, _ => .fault s (trapOf 0x07)

/-- TARM (R258). -/
def execTarm (f : V3) (s : State) : Out1 :=
  let i : Instr := .tarm f
  .next (s.forThreads i (fun s w t => s.inTurn t (
    match t.seen with
    | some (x :: l) => s.tarm i w t f.d.toNat (BitVec.ofNat 32 (field (x :: l) 0 4)) (field (x :: l) 4 4)
    | _ => s.tarm i w t f.d.toNat (V3.srcA f w t) (V3.srcB f w t).toNat)))

/-- The condition of a TWAIT (R255, R260). -/
def Tile.waitHolds (t : Tile) : Option Bool → Bool
  | none => t.state == .ready
  | some ph => t.phase == ph

/-- TWAIT (R260): blocks until its condition holds, then delivers ERR (R242). -/
def execTwait (ph phw : Bool) (tile : BitVec 6) (fm : Form) (s : State) : Out1 :=
  let i : Instr := .twait ph phw tile fm
  let c : Option Bool := if phw then some ph else none
  .next (s.forThreads i (fun s w t =>
    match w.tile tile.toNat with
    | none => .fault s (trapOf 0x07)
    | some e =>
      if e.waitHolds c then
        (match s.tileErr w [tile.toNat] with | some r => .fault s r | none => .go s (t.onward i))
      else .hold s { t with status := .blocked (.tile tile.toNat c (pcAfter t.pc i.words)) }))

/-- TDONE (R240, R259). -/
def execTdone (tile : BitVec 6) (fm : Form) (s : State) : Out1 :=
  let i : Instr := .tdone tile fm
  let n := tile.toNat
  .next (s.forThreads i (fun s w t =>
    if !w.tileIs n .ready then .fault s (trapOf 0x07)
    else if s.tileRead w.id n then .go (s.modTile w.id n (fun e => { e with state := .draining })) (t.onward i)
    else .go (s.emptyTile w.id n) (t.onward i)))

/-- The late 0x0C of a TSTAT whose entry cannot be read (R195, R443). -/
def Thread.tstatLate (t : Thread) (insn : Word) (n d : Nat) (kd : Bool) : Thread :=
  { t with late := t.late ++ [{ fault := { tileFault n 1 with site := some (t.pc, insn) },
                                dest := if kd then (0, 0) else (d, 4), pd := none, kd := if kd then some d else none }] }

/-- TSTAT (R256, R260). -/
def execTstat (f : RI8) (kd : Bool) (s : State) : Out1 :=
  let i : Instr := .tstat f kd
  .next (s.forThreads i (fun s w t =>
    if t.tidx == 0xFFFF && !kd then .fault s (trapOf 0x06)
    else if w.kernel.det then .fault s (trapOf 0x13)
    else match w.tile f.imm.toNat with
      | none => .fault s (trapOf 0x07)
      | some e =>
        let x := e.image
        let d := f.d.toNat
        if s.tileBad w f.imm.toNat then
          .go (s.logEcc .tile (dieOf w.core) (vfOfCtx w.ctxn) f.imm.toNat) ((t.tstatLate s.cur.insn f.imm.toNat d kd).onward i)
        else if kd then
          .go (s.modWg w.id (fun w =>
            kwrite (kwrite w (t.tidx == 0xFFFF) d (x.setWidth 64)) (t.tidx == 0xFFFF) (d + 1) ((x >>> 64).setWidth 64)))
            (t.onward i)
        else .go s (((t.setPair d (x.setWidth 64)).setPair (d + 2) ((x >>> 64).setWidth 64)).onward i)))

/-! ## QFENCE, QWAIT, XLTLD -/

/-- QFENCE (R252). -/
def execQfence (qmask : BitVec 6) (fm : Form) (s : State) : Out1 :=
  let i : Instr := .qfence qmask fm
  .next (s.forThreads i (fun s w t =>
    let ids := (s.opsOn w.id (fun q => bit qmask q)).map (·.id)
    if ids.isEmpty then .go s (t.onward i)
    else .hold s { t with status := .blocked (.ops ids (pcAfter t.pc i.words)) }))

/-- QWAIT (R252). -/
def execQwait (n : BitVec 8) (q : BitVec 3) (fm : Form) (s : State) : Out1 :=
  let i : Instr := .qwait n q fm
  .next (s.forThreads i (fun s w t =>
    if (s.opsOn w.id (fun x => x == q.toNat)).length ≤ n.toNat then .go s (t.onward i)
    else .hold s { t with status := .blocked (.queue q.toNat n.toNat (pcAfter t.pc i.words)) }))

/-- XLTLD (R253). -/
def execXltld (f : V3) (s : State) : Out1 :=
  let i : Instr := .xltld f
  .next (s.forThreads i (fun s w t => s.inTurn t (
    if !s.gateHolds w .noXlt then .hold s (t.gated .noXlt [])
    else match w.spadRead (V3.srcA f w t).toNat 512 64 with
      | .error r => .fault s r
      | .ok b => t.done (s.modWg w.id (fun w => { w with xlt := (fields b 0 2 256).map (BitVec.ofNat 16) })) i)))

/-! ## TIDSET and TIDGET -/

/-- The entry that TIDSET, TIDGET and CBSET name: A[31:12] zero, or 0x0F (R246, R285). -/
def tidOf (a : Word) : Option Nat := if bits a 31 12 == 0 then some a.toNat else none

/-- The write of an entry: of the thread, in one piece (R246). Where it waits for granules the thread issues nothing until it has
ended (MemOp.whole), and a malformed block raises 0x0C as for TIDGET (R396; entry 62). -/
def State.writeEntry (s : State) (i : Instr) (w : Workgroup) (t : Thread) (pa : Nat) (b : List Byte) : Res :=
  let vf := vfOfCtx w.ctxn
  let own := ((s.frameOf pa).map (·.vf)).getD vf
  match s.bumpId.attempt (s.newHeld own (.thread t.wg t.tidx) [t.key] pa (.store b) none (t.pc, s.cur.insn, 0)) with
  | .done s _ => .go s (t.onward i)
  | .held s _ => .go s (t.onward i)
  | .bad s => .fault s (trapOf 0x0C)

/-- TIDSET (R246). -/
def execTidset (f : V3) (s : State) : Out1 :=
  let i : Instr := .tidset f
  .next (s.forThreads i (fun s w t =>
    match tidOf (V3.srcA f w t) with
    | none => .fault s (trapOf 0x0F)
    | some tid => match w.spadRead (V3.srcB f w t).toNat 256 16 with
      | .error r => .fault s r
      | .ok b =>
        if tidValidBit b && !tensorOk b then .fault s (trapOf 0x0F)
        else s.writeEntry i w t (s.titAddr w tid) b))

/-- TIDGET (R246). -/
def execTidget (f : V3) (s : State) : Out1 :=
  let i : Instr := .tidget f
  .next (s.forThreads i (fun s w t =>
    match tidOf (V3.srcA f w t) with
    | none => .fault s (trapOf 0x0F)
    | some tid =>
      let off := (V3.srcB f w t).toNat
      match w.spadWord off 256 16 with
      | .error r => .fault s r
      | .ok _ => match s.physRead (s.titAddr w tid) 256 with
        | none => .fault (s.logBad (vfOfCtx w.ctxn) (s.titAddr w tid)) (trapOf 0x0C)
        | some b => .go ((s.drainQueue t.key).modWg w.id (fun w => w.spadPut off b)) (t.onward i)))

/-! ## TCOPY and TCOPYG -/

/-- The elements of a copy in ascending order of the box: each with its place in the tile, its coordinates, and whether an index
was bad (R248, R250). `idx` is the index array of a gather. -/
def copyCoords (d : CopyDesc) (t : Tensor) (idx : Option (List Int)) : List (Nat × List Int × Bool) :=
  let k := t.rank - 1
  (boxPlaces d.box).map (fun p =>
    (d.tileIndex p, match idx with
      | none => (d.coords p, false)
      | some l =>
        let x := l.getD (p.getD k 0) 0
        ((d.coords p).set k x, x < 0 || (t.ext.getD k 0 : Int) ≤ x)))

/-- The index array of a TCOPYG (R250). -/
def gatherIndices (w : Workgroup) (d : CopyDesc) (t : Tensor) : Except Raise (List Int) :=
  let k := t.rank - 1
  let off := d.start.getD k 0
  if off % 4 != 0 then .error (spadFault 0x05 (BitVec.ofInt 32 off).toNat)
  else if off < 0 then .error (spadFault 0x03 (BitVec.ofInt 32 off).toNat)
  else match w.spadRead off.toNat (4 * d.box.getD k 0) 4 with
    | .error r => .error r
    | .ok b => .ok ((fields b 0 4 (d.box.getD k 0)).map (fun x => (BitVec.ofNat 32 x).toInt))

/-- Bad indices of a gather. -/
def badIndices (t : Tensor) (l : List Int) : Nat :=
  (l.filter (fun x => x < 0 || (t.ext.getD (t.rank - 1) 0 : Int) ≤ x)).length

/-- Queue a copy that has passed its checks; one that moves nothing completes at once (R249). DESIGN CHOICE (entry 63): OOR grows
when the copy ends. -/
def State.queueCopy (s : State) (w : Workgroup) (t : Thread) (q : Nat) (d : CopyDesc) (n oor : Nat) (ms : List Move) : State :=
  let ct := if d.out then d.ctile else d.dtile
  let s := s.modTile w.id ct (fun e => { e with claimed := e.claimed + n })
  if d.out && ms.all (fun m => m.dst.isNone) then
    (s.modTile w.id ct (fun e => e.arrive n)).modTile w.id d.dtile (fun e => { e with oor := min 0xFFFF (e.oor + oor) })
  else
    { s with
      ops := s.ops ++ [{ id := s.fresh, core := w.core, q, wg := w.id, issuer := t.tidx, started := false, err := 0,
                         body := .copy (joinMeta ms) (if d.xlt then some w.xlt else none) d.dtile ct d.out d.scl d.stag n oor }]
      fresh := s.fresh + 1 }

/-- The part of a copy's issue after the descriptor and its gate (R249, R250). DESIGN CHOICE (entry 61): the rules of MODE that
need the tensor or the tile come after the check of the tensor's entry, and the index array of a gather is read between the two.
An entry that cannot be read is uncorrectable data that the copy consumes (R195, R396; entry 62). -/
def State.copyChecks (s : State) (i : Instr) (w : Workgroup) (t : Thread) (q : Nat) (gather : Bool) (d : CopyDesc) : Res :=
  match s.tensor w d.tid with
  | .error r => .fault (s.logTensor w d.tid) r
  | .ok x =>
    match (if gather then (gatherIndices w d x).map some else Except.ok none) with
    | .error r => .fault s r
    | .ok idx =>
      match w.tile d.dtile with
      | none => .fault s (trapOf 0x07)
      | some dt =>
        let n := d.nibbles x / 2
        let ctn := if d.out then d.ctile else d.dtile
        if !d.fits x dt.kind || dt.bytes < d.doff + n then .fault s (trapOf 0x07)
        else match w.tile ctn with
          | none => .fault s (trapOf 0x07)
          | some ct =>
            if ct.state != .filling || ct.expected < ct.claimed + n then .fault s (trapOf 0x07)
            else match s.movesFrom w d x dt (copyCoords d x idx) with
              | .error r => .fault s r
              | .ok ms => t.done (s.queueCopy w t q d n (idx.elim 0 (badIndices x)) ms) i

/-- TCOPY or TCOPYG for one thread (R249): first room on the queue, then the descriptor, and for OUT the gate of the
data tile. DESIGN CHOICE (entry 61): one whose DTILE is at or above the kernel's tiles passes the gate, so that its 0x07 comes
after 0x0F with the tile's others. -/
def State.copyIssue (s : State) (i : Instr) (w : Workgroup) (t : Thread) (q : Nat) (gather : Bool) (a : Nat) : Res :=
  if !s.gateHolds w (.queueRoom w.core q) then .hold s (t.gated (.queueRoom w.core q) (t.seen.getD []))
  else
    match (match t.seen with | some (b :: l) => Except.ok (b :: l) | _ => w.spadRead a 64 64) with
    | .error r => .fault s r
    | .ok b =>
      let d := copyDesc b
      if !d.ok then .fault s (trapOf 0x07)
      else if d.out && (w.tile d.dtile).any (fun e => e.state != .ready) then .hold s (t.gated (.tilesReady [d.dtile]) b)
      else match (if d.out then s.tileErr w [d.dtile] else none) with
        | some r => .fault s r
        | none => s.copyChecks i w t q gather d

/-- TCOPY (R247 to R249); the release of REL comes before it executes (R234). -/
def execTcopy (f : V3) (rel : BitVec 3) (s : State) : Out1 :=
  let i : Instr := .tcopy f rel
  .next (s.forThreads i (fun s w t => s.inTurn t (s.copyIssue i w t f.d.toNat false (V3.srcA f w t).toNat)))

/-- TCOPYG (R250). -/
def execTcopyg (f : V3) (rel : BitVec 3) (s : State) : Out1 :=
  let i : Instr := .tcopyg f rel
  .next (s.forThreads i (fun s w t => s.inTurn t (s.copyIssue i w t f.d.toNat true (V3.srcA f w t).toNat)))

end Sys2Proof.Machine
end

