-- ==== Sys2Proof/Machine/Coll.lean ====
section
/-! DEFINITION. Issue of collectives, opcodes 0x7E and 0x7F (R245, R261, R262). -/

namespace Sys2Proof.Machine

/-- A collective descriptor (R261). -/
structure CollDesc where
  op : Nat
  fmt : Nat
  scope : Nat
  gid : Nat
  root : Nat
  src : Nat
  dst : Nat
  ctile : Nat
  clean : Bool
  deriving DecidableEq, Repr

/-- Read a descriptor's fields. -/
def collDesc (b : List Byte) : CollDesc :=
  { op := field b 0 1, fmt := field b 1 1, scope := field b 2 1, gid := field b 3 1, root := field b 4 2,
    src := field b 6 2, dst := field b 8 2, ctile := field b 10 1, clean := zeroAt b 11 53 }

/-- Does a collective reduce (R262)? -/
def isReduce (op : Nat) : Bool := op == 3 || op == 4

/-- Workgroups in a launch (R34). -/
def Workgroup.gridSize (w : Workgroup) : Nat := w.nwgx.toNat * w.nwgy.toNat * w.nwgz.toNat

/-- Workgroups in a workgroup's gang; the last gang may be shorter (R36). -/
def Workgroup.gangSize (w : Workgroup) : Nat := min w.kernel.gsize (w.gridSize - w.gang * w.kernel.gsize)

/-- A workgroup's participant index: its position in the gang (R262). -/
def Workgroup.collIndex (w : Workgroup) : Nat := w.lin.toNat - w.gang * w.kernel.gsize

/-- The workgroups of a gang that this package holds. -/
def State.gangHere (s : State) (w : Workgroup) : List Workgroup :=
  s.wgs.filter (fun u => u.foreign.isNone && u.ctxn == w.ctxn && u.launch == w.launch && u.gang == w.gang)

/-- The rules of R261 and R262 on a descriptor alone: 0x07. -/
def CollDesc.ok (d : CollDesc) (w : Workgroup) : Bool :=
  d.clean && d.op ≤ 4 && d.gid ≤ 3 && d.src < 4096 && d.dst < 4096 && d.ctile < 64
  && 3 ≤ d.scope && d.scope ≤ 5 && w.kernel.gang == d.scope
  && ((d.op != 1 && d.op != 2) || d.root < w.gangSize)
  && (if isReduce d.op then d.fmt == 0 || d.fmt == 2 else [0, 1, 2, 3, 4, 5, 9].contains d.fmt)

/-- The formats that a collective accepts: the wire format is the source's, and the destination's too unless the
collective reduces (R137, R262, R433). -/
def CollDesc.fits (d : CollDesc) (src dst : Tensor) : Bool :=
  src.fmt == d.fmt && (if isReduce d.op then dst.fmt == 0 || dst.fmt == 2 else dst.fmt == d.fmt)
  && src.rank == dst.rank

/-- The shape of a tensor. -/
def Tensor.shape (t : Tensor) : Shape := { ext := t.ext, gext := t.gext, shard := t.shard, part := t.part }

/-- The element at some coordinates as a move with only its source, or only its destination. -/
def State.wholeMove (s : State) (w : Workgroup) (t : Tensor) (write : Bool) (c : List Nat) : Except Raise Move :=
  let a := elemAddr t c
  match s.elemLoc w write false (elemBytes t.fmt) a.1 with
  | .error r => .error r
  | .ok l =>
    .ok (if write then { src := none, pad := 0, dst := some l, size := elemBytes t.fmt, srcHalf := none, dstHalf := a.2 }
         else { src := some l, pad := 0, dst := none, size := elemBytes t.fmt, srcHalf := a.2, dstHalf := none })

/-- Check and list the elements at the places given; the first failing check decides (R249). -/
def State.wholeMoves (s : State) (w : Workgroup) (t : Tensor) (write : Bool) : List (List Nat) → Except Raise (List Move)
  | [] => .ok []
  | c :: r =>
    match s.wholeMove w t write c with
    | .error e => .error e
    | .ok m => match State.wholeMoves s w t write r with
      | .error e => .error e
      | .ok ms => .ok (m :: ms)

/-- Bytes of a whole tensor. -/
def Tensor.bytes (t : Tensor) : Nat := t.ext.prod * (if t.fmt == 9 then 1 else 2 * elemBytes t.fmt) / 2

/-- The participants of a collective on this package, by index: the workgroups of its gang that have been bound here (R262). -/
def State.collHere (s : State) (c : Coll) : List Nat :=
  match s.launches.find? (fun l => l.vf == c.gang.1 && l.no.toNat == c.gang.2.1) with
  | some l => (l.gangBound c.gang.2.2).map (fun n => n - c.gang.2.2 * l.kernel.gsize)
  | none => c.parts.map (·.index)

/-- The collective of a gang and GID that a workgroup joins as its k-th (R262). -/
def State.collOf (s : State) (w : Workgroup) (gid k : Nat) : Coll :=
  let g := (vfOfCtx w.ctxn, w.launch.toNat, w.gang)
  (s.colls.find? (fun c => c.gang == g && c.gid == gid && c.k == k)).getD
    { id := s.fresh, gang := g, gid, k, size := w.gangSize, parts := [], fabric := false }

/-- Join a collective, with the operation that reads the source. -/
def State.joinColl (s : State) (w : Workgroup) (t : Thread) (d : CollDesc) (src dst : Tensor) (reads writes : List Move) : State :=
  let k := w.colls.getD d.gid 0
  let c := s.collOf w d.gid k
  let free := (s.colls.filter (fun x => x.gang.1 == vfOfCtx w.ctxn && x.fabric)).length < (s.vf (vfOfCtx w.ctxn)).hedge.rcq.toNat
  let c := if c.parts.isEmpty then { c with fabric := isReduce d.op && d.scope != 3 && free } else c
  let o : Op := { id := s.fresh + 1, core := w.core, q := 6, wg := w.id, issuer := t.tidx, started := false, err := 0,
                  body := .copy reads none d.ctile d.ctile false false 0 dst.bytes 0 }
  let p : CollPart := { wg := w.id, index := w.collIndex, die := dieOf w.core, op := d.op, fmt := d.fmt, root := d.root,
                        engine := o.id, src := src.shape, dst := dst.shape, dstFmt := dst.fmt, writes, dstTid := d.dst, cb := src.cb,
                        sent := false }
  let s := s.modTile w.id d.ctile (fun e => { e with claimed := e.claimed + dst.bytes })
  let s := s.modWg w.id (fun w => { w with colls := listSet w.colls d.gid (· + 1) })
  { s with
    colls := (s.colls.filter (fun x => x.id != c.id)) ++ [{ c with parts := c.parts ++ [p] }]
    ops := s.ops ++ [o]
    fresh := s.fresh + 2 }

/-- Issue of a collective by one thread (R261, R262). -/
def State.collIssue (s : State) (w : Workgroup) (t : Thread) (a : Nat) : Except Raise (State × Nat) :=
  match w.spadRead a 64 64 with
  | .error r => .error r
  | .ok b =>
    let d := collDesc b
    if !d.ok w then .error (trapOf 0x07)
    else match s.tensorPair w d.src d.dst with
      | .error r => .error r
      | .ok (src, dst) =>
        if !d.fits src dst then .error (trapOf 0x07)
        else match w.tile d.ctile with
          | none => .error (trapOf 0x07)
          | some ct =>
            if ct.state != .filling || ct.expected < ct.claimed + dst.bytes then .error (trapOf 0x07)
            else match s.wholeMoves w src false (boxPlaces src.ext) with
              | .error r => .error r
              | .ok reads => match s.wholeMoves w dst true (boxPlaces dst.ext) with
                | .error r => .error r
                | .ok writes => .ok (s.joinColl w t d src dst reads writes, d.ctile)

/-- A fault at the issue of a collective: an entry that could not be read is logged (R396). -/
def State.collFault (s : State) (w : Workgroup) (a : Nat) (r : Raise) : Res :=
  let d := collDesc (memGetN w.spad a 64)
  .fault (if r.code == 0x0C && r.space == 0 then (s.logTensor w d.src).logTensor w d.dst else s) r

/-- COLL (R262). -/
def execColl (f : V3) (s : State) : Out1 :=
  let i : Instr := .coll f
  .next (s.forThreads i (fun s w t =>
    match s.collIssue w t (V3.srcA f w t).toNat with
    | .error r => s.collFault w (V3.srcA f w t).toNat r
    | .ok x => .go x.1 (t.onward i)))

/-- COLLW (R262): COLL, then blocked until the tile is READY. -/
def execCollw (f : V3) (s : State) : Out1 :=
  let i : Instr := .collw f
  .next (s.forThreads i (fun s w t =>
    match s.collIssue w t (V3.srcA f w t).toNat with
    | .error r => s.collFault w (V3.srcA f w t).toNat r
    | .ok x => .hold x.1 { t with status := .blocked (.tile x.2 none (pcAfter t.pc i.words)) }))

end Sys2Proof.Machine
end

