-- ==== Sys2Proof/Machine/Matrix.lean ====
section
/-! DEFINITION. The matrix unit (R266 to R288) and structured sparsity (R289 to R297): claims, issue of matrix-queue
operations, codebooks and scale packets. Opcodes 0x80 to 0x8D. -/

namespace Sys2Proof.Machine

/-! ## Claims (R55 to R57, R268, R280, R281) -/

/-- Slots of a core that nobody holds. -/
def State.freeSlots (s : State) (core : Nat) : List Nat :=
  (List.range 64).filter (fun n => !((s.core core).slotHolder.any (fun p => p.1 == n)))

/-- Accumulator tiles of a core that nobody holds. -/
def State.freeAccs (s : State) (core : Nat) : List Nat :=
  (List.range 8).filter (fun n => !((s.core core).accHolder.any (fun p => p.1 == n)))

/-- What a request would be granted now: the lowest run of free slots, or the lowest free tiles (R268). -/
def State.grantOf (s : State) (core : Nat) (acc : Bool) (n : Nat) : Option (List Nat) :=
  if acc then
    let l := (s.freeAccs core).take n
    if l.length == n then some l else none
  else
    let fr := s.freeSlots core
    ((List.range 64).find? (fun b => (List.range n).all (fun j => fr.contains (b + j)))).map
      (fun b => (List.range n).map (· + b))

/-- The result of a grant: the first slot, or the mask of the tiles (R280). -/
def grantValue (acc : Bool) (l : List Nat) : Nat := if acc then (l.map (2 ^ ·)).sum else l.headD 0

/-- Hold resources, set to zero; the write ends their errors (R268; entry 48). -/
def State.takeGrant (s : State) (core wg : Nat) (acc : Bool) (l : List Nat) : State :=
  let c := s.core core
  let new := l.map (fun n => (n, wg))
  let at' (n : Nat) : Nat := if acc then core * 2 ^ 18 + 32768 * n else core * 2 ^ 20 + 16384 * n
  if acc then
    let s := l.foldl (fun s n => s.eccClear .acc (at' n) 32768) s
    { s.setCore { c with accHolder := c.accHolder ++ new } with accmem := l.foldl (fun m n => memDrop m (at' n) 32768) s.accmem }
  else
    let s := l.foldl (fun s n => s.eccClear .slot (at' n) 16384) s
    { s.setCore { c with slotHolder := c.slotHolder ++ new } with opmem := l.foldl (fun m n => memDrop m (at' n) 16384) s.opmem }

/-- Release resources. -/
def State.freeGrant (s : State) (core : Nat) (slots accs : List Nat) : State :=
  let c := s.core core
  s.setCore { c with slotHolder := c.slotHolder.filter (fun p => !slots.contains p.1),
                     accHolder := c.accHolder.filter (fun p => !accs.contains p.1) }

/-- Does a request exceed the core, counted with the workgroup's holdings (R57, R280)? -/
def State.overClaim (s : State) (w : Workgroup) (acc : Bool) (n : Nat) : Bool :=
  if acc then 8 < n + (s.heldAccs w).length else 64 < n + (s.heldSlots w).length

/-- The claims that wait on a core, oldest first. -/
def State.claimsOn (s : State) (core : Nat) : List Claim := s.claims.filter (fun c => c.core == core)

/-- A grant without waiting (R55): none where earlier requests wait or resources lack. -/
def State.grantNow (s : State) (w : Workgroup) (acc : Bool) (n : Nat) : Option (List Nat) :=
  if (s.claimsOn w.core).isEmpty then s.grantOf w.core acc n else none

/-- A new claim. -/
def State.newClaim (s : State) (w : Workgroup) (acc : Bool) (n : Nat) (kd : Bool) (d : Nat) (pd : PReg) (keys : List Key)
    (next : Dword) : State :=
  { s with
    claims := s.claims ++ [{ id := s.fresh, core := w.core, wg := w.id, acc, count := n, kd, d, pd, keys, next }]
    fresh := s.fresh + 1 }

/-- OCLAIM (R280). -/
def execOclaim (f : RI8) (kd : Bool) (pd : PReg) (s : State) : Out1 :=
  let i : Instr := .oclaim f kd pd
  let acc := bit f.imm 7
  let n := (bits f.imm 6 0).toNat
  let d := f.d.toNat
  let keys := s.guardTrue f.fm
  if kd then
    .next (s.onceForGroup i (fun s w t =>
      if s.overClaim w acc n then .fault s (trapOf 0x14)
      else match s.grantNow w acc n with
        | some l =>
          let s := s.takeGrant w.core w.id acc l
          .all (s.modWg w.id (fun w => kwrite w (t.tidx == 0xFFFF) d (BitVec.ofNat 64 (grantValue acc l))))
            (fun t => (t.setPred pd true).onward i)
        | none =>
          .all (s.newClaim w acc n true d pd keys (pcAfter t.pc i.words))
            (fun t => { t with status := .blocked (.oclaim s.fresh) })))
  else
    .next (s.forThreads i (fun s w t =>
      if t.tidx == 0xFFFF then .fault s (trapOf 0x06)
      else if s.overClaim w acc n then .fault s (trapOf 0x14)
      else match s.grantNow w acc n with
        | some l =>
          .go (s.takeGrant w.core w.id acc l) (((t.setReg d (BitVec.ofNat 32 (grantValue acc l))).setPred pd true).onward i)
        | none =>
          .hold (s.newClaim w acc n false d pd [t.key] (pcAfter t.pc i.words))
            { t with status := .blocked (.oclaim s.fresh) }))

/-- A claim ends: its threads learn the outcome and go on (R56, R280). -/
def State.endClaim (s : State) (c : Claim) (got : Option (List Nat)) : State :=
  let s : State := { s with claims := s.claims.filter (fun x => x.id != c.id) }
  let s := match got with
    | some l =>
      let s := s.takeGrant c.core c.wg c.acc l
      if c.kd then
        s.modWg c.wg (fun w => kwrite w (c.keys.any Key.isSlice) c.d (BitVec.ofNat 64 (grantValue c.acc l)))
      else s
    | none => s
  c.keys.foldl (fun s k =>
    match s.thread k with
    | none => s
    | some t =>
      let t := match got with
        | some l => if c.kd then t else t.setReg c.d (BitVec.ofNat 32 (grantValue c.acc l))
        | none => t
      s.wake (t.setPred c.pd got.isSome) c.next) s

/-- Is a slot covered by a tile entry that is not EMPTY (R281)? -/
def Workgroup.covers (w : Workgroup) (slots : List Nat) : Bool :=
  w.tiles.any (fun t => t.kind == .slots && t.state != .empty
    && slots.any (fun n => t.base ≤ n && n < t.base + t.size))

/-- OREL for one thread: A is a base or a mask (R281). -/
def State.orel (s : State) (i : Instr) (w : Workgroup) (t : Thread) (acc : Bool) (n a : Nat) : Res :=
  let slots := if acc then [] else (List.range n).map (· + a)
  let accs := if acc then (List.range 8).filter (fun j => a.testBit j) else []
  if (if acc then 256 ≤ a else 64 < a + n) then .fault s (trapOf 0x07)
  else if !(slots.all (s.heldSlots w).contains && accs.all (s.heldAccs w).contains) then .fault s (trapOf 0x07)
  else if w.covers slots then .fault s (trapOf 0x07)
  else if s.inUse w.id slots accs then .hold s (t.gated (.unused slots accs) (natLe 4 a))
  else t.done (s.freeGrant w.core slots accs) i

/-- OREL (R281). -/
def execOrel (f : RI8) (s : State) : Out1 :=
  let i : Instr := .orel f
  .next (s.forThreads i (fun s w t =>
    let a := match t.seen with | some (x :: l) => leNat (x :: l) | _ => (RI8.srcA f w t).toNat
    s.orel i w t (bit f.imm 7) (bits f.imm 6 0).toNat a))

/-! ## The parameter block (R273, R293) -/

/-- A parameter block. -/
structure MmaBlock where
  atid : Nat
  btid : Nat
  aslot : Nat
  bslot : Nat
  atile : Nat
  btile : Nat
  acc : Nat
  ovw : Bool
  asc : Bool
  bsc : Bool
  kch : Nat
  blkA : Nat
  blkB : Nat
  stile : Nat
  stag : BitVec 16
  ascnt : Nat
  bscnt : Nat
  ctile : Nat
  row0 : Nat
  /-- Reserved bits are zero and the codes are in range. -/
  clean : Bool
  deriving DecidableEq, Repr

/-- Read a block's fields. -/
def mmaBlock (sparse : Bool) (b : List Byte) : MmaBlock :=
  let acc := field b 8 1
  let blk := field b 0xA 1
  let asc := acc.testBit 4
  let bsc := acc.testBit 5
  { atid := field b 0 2, btid := field b 2 2, aslot := field b 4 1, bslot := field b 5 1, atile := field b 6 1,
    btile := field b 7 1, acc := acc % 8, ovw := acc.testBit 3, asc, bsc, kch := field b 9 1,
    blkA := 16 * 2 ^ (blk % 4), blkB := 16 * 2 ^ (blk / 4 % 4), stile := field b 0xB 1,
    stag := BitVec.ofNat 16 (field b 0xC 2), ascnt := field b 0xE 2, bscnt := field b 0x10 2, ctile := field b 0x12 1,
    row0 := if sparse then field b 0x13 1 else 0,
    clean := field b 0 2 < 4096 && field b 2 2 < 4096 && field b 4 1 ≤ 63 && field b 5 1 ≤ 62 && field b 6 1 < 64
      && field b 7 1 < 64 && acc < 64 && blk < 16 && field b 0x12 1 < 64
      && (asc || (blk % 4 == 0 && field b 0xE 2 == 0)) && (bsc || (blk / 4 == 0 && field b 0x10 2 == 0))
      && (if asc || bsc then field b 0xB 1 < 64 else field b 0xB 1 == 0xFF)
      && (if sparse then acc < 16 && field b 0xC 2 == 0 && field b 0x13 1 < 4 && zeroAt b 0x14 108
          else zeroAt b 0x13 109) }

/-- Chunks of 16 that a pairing admits at most (R269); none where the formats do not pair. -/
def mmaLimit (fa fb : Nat) : Option Nat :=
  if (fa == 1 || fa == 2) && (fb == 1 || fb == 2) then some 8
  else if (fa == 3 || fa == 4) && (fb == 3 || fb == 4) then some 16
  else if fa == 5 && fb == 5 then some 16
  else if fa == 9 && fb == 9 then some 32
  else none

/-- May a format be scaled (R272)? -/
def scalable (f : Nat) : Bool := f == 3 || f == 4 || f == 9

/-- The pairing, KCH and scaled formats (R269, R272, R293). -/
def MmaBlock.pairs (p : MmaBlock) (sparse : Bool) (fa fb : Nat) : Bool :=
  match mmaLimit fa fb with
  | none => false
  | some m =>
    if sparse then (m == 8 || fa == 5) && 1 ≤ p.kch && p.kch ≤ 16
    else 1 ≤ p.kch && p.kch ≤ m && (!p.asc || scalable fa) && (!p.bsc || scalable fb)

/-- Is a tile a slot tile that covers these slots? -/
def Workgroup.slotTile (w : Workgroup) (n : Nat) (slots : List Nat) : Bool :=
  (w.tile n).any (fun t => t.kind == .slots && slots.all (fun x => t.base ≤ x && x < t.base + t.size))

/-- The checks of R274 from the holdings to the packet counts: 0x07. -/
def State.mmaHolds (s : State) (w : Workgroup) (p : MmaBlock) : Bool :=
  (s.heldAccs w).contains p.acc && [p.aslot, p.bslot, p.bslot + 1].all (s.heldSlots w).contains
  && w.slotTile p.atile [p.aslot] && w.slotTile p.btile [p.bslot, p.bslot + 1]
  && (!(p.asc || p.bsc) || (w.tile p.stile).any (fun t => t.kind == .fifo))
  && (!p.asc || p.ascnt == 64 * ((16 * p.kch + p.blkA - 1) / p.blkA))
  && (!p.bsc || p.bscnt == 128 * ((16 * p.kch + p.blkB - 1) / p.blkB))

/-- The tiles that gate an MMA. -/
def MmaBlock.gate (p : MmaBlock) : List Nat := [p.atile, p.btile] ++ (if p.asc || p.bsc then [p.stile] else [])

/-- Take the next packet of a queue if an operand is scaled; none where R274 raises 0x08. -/
def nextPacket (scaled : Bool) (stag : BitVec 16) (count : Nat) (q : List Packet) : Option (Option Packet × List Packet) :=
  if !scaled then some (none, q)
  else match q with
    | [] => none
    | x :: r => if x.tag == stag && x.bytes.length == count then some (some x, r) else none

/-- Mark the first `n` unreserved packets of a tile as an operation's. -/
def reserveFirst (tile op : Nat) : Nat → List Packet → List Packet
  | 0, l => l
  | _, [] => []
  | n + 1, x :: r =>
    if x.tile == tile && x.reserved.isNone then { x with reserved := some op } :: reserveFirst tile op n r
    else x :: reserveFirst tile op (n + 1) r

/-- The codebook of an entry as an operation captures it; none where the entry cannot be read. -/
def State.codebook (s : State) (w : Workgroup) (tid : Nat) : Option (List (BitVec 16)) :=
  (s.physRead (s.titAddr w tid) 256).map codebookOf

/-- The last steps of R274: packets, the completion tile, capture and append. `fa` and `fb` are the formats of the operands. -/
def State.mmaAppend (s : State) (i : Instr) (w : Workgroup) (t : Thread) (p : MmaBlock) (fa fb : Nat)
    (sparse : Option (Nat × List Byte)) : Res :=
  let q := w.packets.filter (fun x => x.tile == p.stile && x.reserved.isNone)
  match nextPacket p.asc p.stag p.ascnt q with
  | none => .fault s (trapOf 0x08)
  | some (pa, q1) => match nextPacket p.bsc p.stag p.bscnt q1 with
    | none => .fault s (trapOf 0x08)
    | some (pb, _) => match w.tile p.ctile with
      | none => .fault s (trapOf 0x07)
      | some ct =>
        if ct.state != .filling || ct.expected < ct.claimed + 64 then .fault s (trapOf 0x07)
        else match s.codebook w p.atid, s.codebook w p.btid with
          | some cbA, some cbB =>
            let n := (if p.asc then 1 else 0) + (if p.bsc then 1 else 0)
            let m : MmaOp :=
              { fmtA := fa, fmtB := fb, aslot := p.aslot, bslot := p.bslot, atile := p.atile, btile := p.btile,
                acc := p.acc, ovw := p.ovw, kch := p.kch, scaleA := pa.map (fun x => ⟨x.bytes, p.blkA⟩),
                scaleB := pb.map (fun x => ⟨x.bytes, p.blkB⟩), stile := if n == 0 then none else some p.stile,
                ctile := p.ctile, cbA, cbB, sparse }
            let o : Op := { id := s.fresh, core := w.core, q := 4, wg := w.id, issuer := t.tidx, started := false, err := 0,
                            body := .mma m }
            let s := s.modWg w.id (fun w => { w with packets := reserveFirst p.stile o.id n w.packets, mmas := w.mmas + 1 })
            let s := s.modTile w.id p.ctile (fun e => { e with claimed := e.claimed + 64 })
            t.done { s with ops := s.ops ++ [o], fresh := s.fresh + 1 } i
          | _, _ => .fault ((s.logTensor w p.atid).logTensor w p.btid) (trapOf 0x0C)

/-- The keep-masks of MMAS in the k registers from `kb` (R294, R295). -/
def metaBytes (w : Workgroup) (t : Thread) (kb g : Nat) : List Byte :=
  ((List.range (2 * g)).flatMap (fun j => natLe 8 (kread w t (kb + j)).toNat)).take (16 * g)

/-- Bits set in a byte. -/
def popByte (b : Byte) : Nat := ((List.range 8).filter (fun i => bit b i)).length

/-- The wait on the tiles of R274, and the steps after it. `read` is what the thread has read and checked before it: the block,
the two formats, and the keep-masks of an MMAS. -/
def State.mmaReady (s : State) (i : Instr) (w : Workgroup) (t : Thread) (sparse : Bool) (read : List Byte) : Res :=
  let p := mmaBlock sparse (read.take 128)
  if !s.gateHolds w (.tilesReady p.gate) then .hold s (t.gated (.tilesReady p.gate) read)
  else match s.tileErr w p.gate with
    | some r => .fault s r
    | none => s.mmaAppend i w t p (field read 128 1) (field read 129 1) (if sparse then some (p.row0, read.drop 130) else none)

/-- The k registers of an MMAS's keep-masks are there: no KLD has still to write one (R61), and their parity holds (R443). -/
def State.metaReady (s : State) (w : Workgroup) (t : Thread) (kb n : Nat) (go : Res) : Res :=
  let slice := t.key.isSlice
  match s.kloads.find? (fun x => x.wg == w.id && x.slice == slice && kb ≤ x.k && x.k < kb + n),
      (List.range n).find? (fun j => s.ecc.contains (.kreg w.id slice (kb + j))) with
  | some x, _ => .hold s { t with status := .data (.kdata slice x.k s.cur.id) }
  | none, some j => .fault (s.logEcc .regs (dieOf w.core) (vfOfCtx w.ctxn) (kb + j)) (trapOf 0x0C)
  | none, none => go

/-- The steps of R274 and R295 from the checks of the parameter block on; `kb` is the first metadata register of an MMAS. DESIGN
CHOICE (entry 70): the metadata checks of R295, which it puts after the tensor and pairing checks and before the wait, come after
the holdings too. -/
def State.mmaIssue (s : State) (i : Instr) (w : Workgroup) (t : Thread) (kb : Option Nat) (blk : List Byte) : Res :=
  let p := mmaBlock kb.isSome blk
  if !p.clean then .fault s (trapOf 0x07)
  else match s.tensorPair w p.atid p.btid with
    | .error r => .fault ((s.logTensor w p.atid).logTensor w p.btid) r
    | .ok (a, b) =>
      let read (l : List Byte) : List Byte := blk ++ natLe 1 a.fmt ++ natLe 1 b.fmt ++ l
      if !p.pairs kb.isSome a.fmt b.fmt then .fault s (trapOf 0x07)
      else if !s.mmaHolds w p then .fault s (trapOf 0x07)
      else match kb with
        | none => s.mmaReady i w t false (read [])
        | some k =>
          if 63 < k + 2 * p.kch - 1 then .fault s (trapOf 0x07)
          else s.metaReady w t k (2 * p.kch) (
            let l := metaBytes w t k p.kch
            if l.any (fun x => popByte x != 4) then .fault s (trapOf 0x09) else s.mmaReady i w t true (read l))

/-- MMA and MMAS for one thread (R274, R295): its turn, room on mq, then the block; after the wait on the tiles, what follows it.
DESIGN CHOICE (entry 70): room on mq, which R276 limits, is awaited again after that wait. -/
def State.mmaStart (s : State) (i : Instr) (w : Workgroup) (t : Thread) (kb : Option Nat) (a : Nat) : Res :=
  s.inTurn t (
    if !s.gateHolds w (.queueRoom w.core 4) then .hold s (t.gated (.queueRoom w.core 4) (t.seen.getD []))
    else match t.seen with
      | some (x :: l) => s.mmaReady i w t kb.isSome (x :: l)
      | _ => match w.spadRead a 128 128 with
        | .error r => .fault s r
        | .ok b => s.mmaIssue i w t kb b)

/-- MMA (R274). -/
def execMma (f : V3) (s : State) : Out1 :=
  let i : Instr := .mma f
  .next (s.forThreads i (fun s w t => s.mmaStart i w t none (V3.srcA f w t).toNat))

/-- MMAS (R293 to R296). -/
def execMmas (f : V3) (s : State) : Out1 :=
  let i : Instr := .mmas f
  .next (s.forThreads i (fun s w t => s.mmaStart i w t (some f.b.toNat) (V3.srcA f w t).toNat))

/-! ## Accumulator movement (R283) -/

/-- Queue a matrix-queue operation. -/
def State.queueMq (s : State) (w : Workgroup) (t : Thread) (b : OpBody) : State :=
  { s with
    ops := s.ops ++ [{ id := s.fresh, core := w.core, q := 4, wg := w.id, issuer := t.tidx, started := false, err := 0, body := b }]
    fresh := s.fresh + 1 }

/-- ACCZ (R283). -/
def execAccz (atl : BitVec 3) (fm : Form) (s : State) : Out1 :=
  let i : Instr := .accz atl fm
  .next (s.forThreads i (fun s w t =>
    if !s.gateHolds w (.queueRoom w.core 4) then .hold s (t.gated (.queueRoom w.core 4) [])
    else if !(s.heldAccs w).contains atl.toNat then .fault s (trapOf 0x07)
    else t.done (s.queueMq w t (.accz atl.toNat)) i))

/-- The offset operand: as it was read before a wait, or now. -/
def offsetOf (f : RI8) (w : Workgroup) (t : Thread) : Nat :=
  match t.seen with
  | some (x :: l) => leNat (x :: l)
  | _ => (RI8.srcA f w t).toNat

/-- ACCLD (R283): its source tile gates it. -/
def execAccld (f : RI8) (s : State) : Out1 :=
  let i : Instr := .accld f
  let atl := f.d.toNat
  let n := f.imm.toNat
  .next (s.forThreads i (fun s w t =>
    let off := offsetOf f w t
    if !s.gateHolds w (.queueRoom w.core 4) then .hold s (t.gated (.queueRoom w.core 4) (t.seen.getD []))
    else if !(s.heldAccs w).contains atl then .fault s (trapOf 0x07)
    else if off % 64 != 0 then .fault s (trapOf 0x05)
    else match w.tile n with
      | none => .fault s (trapOf 0x07)
      | some e =>
        if e.state != .ready then .hold s (t.gated (.tilesReady [n]) (natLe 4 off))
        else if e.kind != .spad || e.bytes < off + 32768 then .fault s (trapOf 0x07)
        else match s.tileErr w [n] with
          | some r => .fault s r
          | none => t.done (s.queueMq w t (.accld atl n off)) i))

/-- The checks of an operation with a destination tile (R283); none where they raise a fault. -/
def State.accDest (s : State) (w : Workgroup) (atl n off bytes : Nat) (slots : Bool) : Option Raise :=
  if !(s.heldAccs w).contains atl then some (trapOf 0x07)
  else if off % 64 != 0 then some (trapOf 0x05)
  else match w.tile n with
    | none => some (trapOf 0x07)
    | some e =>
      if e.state != .filling || e.expected < e.claimed + bytes || e.bytes < off + bytes
          || !(e.kind == .spad || (slots && e.kind == .slots)) then some (trapOf 0x07)
      else none

/-- Claim bytes of a tile. -/
def State.claim (s : State) (wg n bytes : Nat) : State := s.modTile wg n (fun e => { e with claimed := e.claimed + bytes })

/-- ACCST (R283). -/
def execAccst (f : RI8) (s : State) : Out1 :=
  let i : Instr := .accst f
  let atl := f.d.toNat
  let n := f.imm.toNat
  .next (s.forThreads i (fun s w t =>
    let off := (RI8.srcA f w t).toNat
    if !s.gateHolds w (.queueRoom w.core 4) then .hold s (t.gated (.queueRoom w.core 4) [])
    else match s.accDest w atl n off 32768 false with
      | some r => .fault s r
      | none => t.done ((s.claim w.id n 32768).queueMq w t (.accst atl n off)) i))

/-- ACCCVT (R283); under SR the thread's counter advances by 2,048 at issue. -/
def execAcccvt (f : RI8) (src : Bool) (fmt : BitVec 4) (s : State) : Out1 :=
  let i : Instr := .acccvt f src fmt
  let atl := f.d.toNat
  let n := f.imm.toNat
  let bytes := 8192 * elemBytes fmt.toNat
  .next (s.forThreads i (fun s w t =>
    let off := (RI8.srcA f w t).toNat
    if !s.gateHolds w (.queueRoom w.core 4) then .hold s (t.gated (.queueRoom w.core 4) [])
    else match s.accDest w atl n off bytes true with
      | some r => .fault s r
      | none =>
        let b : OpBody := .acccvt atl n off src fmt (match f.fm.mods with | .ext x => x.dscl | _ => 0) f.fm.clamp f.fm.rm
          t.srkey0 t.srkey1 t.srctr0 t.srctr1
        (if f.fm.rm == 5 then t.srAdvance 2048 else t).done ((s.claim w.id n bytes).queueMq w t b) i))

/-- MWAIT (R284). -/
def execMwait (fm : Form) (s : State) : Out1 :=
  let i : Instr := .mwait fm
  .next (s.forThreads i (fun s w t =>
    let ids := (s.opsOn w.id (· == 4)).map (·.id)
    if ids.isEmpty then .go s (t.onward i)
    else .hold s { t with status := .blocked (.ops ids (pcAfter t.pc i.words)) }))

/-! ## Structured sparsity (R289 to R292) -/

/-- The magnitude by which SPCOMP ranks an element: every NaN ranks above infinity (R292). -/
def spMag (fmt : BitVec 4) (x : Nat) : Nat :=
  if fmt == 5 then (BitVec.ofNat 8 x).toInt.natAbs else min (x % 32768) 0x7F81

/-- The eight elements of a source group (R122, R292). -/
def spElems (fmt : BitVec 4) (t : Thread) (a : Nat) : List Nat :=
  let b := wordsToBytes (t.regs a 4)
  if fmt == 5 then fields b 0 1 8 else fields b 0 2 8

/-- The indices that SPCOMP keeps (R292). -/
def spKeep (m : List Nat) : List Nat :=
  (List.range 8).filter (fun j =>
    ((List.range 8).filter (fun i => m.getD j 0 < m.getD i 0 || (m.getD i 0 == m.getD j 0 && i < j))).length < 4)

/-- A kept element as it is packed: a NaN becomes canonical. -/
def spPack (fmt : BitVec 4) (x : Nat) : Nat := if fmt != 5 && 0x7F80 < x % 32768 then 0x7FC0 else x

/-- SPCOMP (R292). -/
def execSpcomp (f : V3) (fmt : BitVec 4) (s : State) : Out1 :=
  s.alu (.spcomp f fmt) (fun _ t =>
    let e := spElems fmt t f.a.toNat
    let keep := spKeep (e.map (spMag fmt))
    let bytes := keep.flatMap (fun j => natLe (if fmt == 5 then 1 else 2) (spPack fmt (e.getD j 0)))
    (t.setRegs f.d.toNat (bytesToWords (bytes.length / 4) bytes)).setReg (f.fm.cField f.d).2.toNat
      (BitVec.ofNat 32 ((keep.map (2 ^ ·)).sum)))

/-! ## CBSET, MSTAT, MSCL, OQRY -/

/-- CBSET (R285): one indivisible change of the entry. -/
def execCbset (f : V3) (s : State) : Out1 :=
  let i : Instr := .cbset f
  .next (s.forThreads i (fun s w t =>
    match tidOf (V3.srcA f w t) with
    | none => .fault s (trapOf 0x0F)
    | some tid => match s.tensor w tid with
      | .error r => .fault (s.logTensor w tid) r
      | .ok x =>
        if x.fmt != 9 then .fault s (trapOf 0x0F)
        else match w.spadRead (V3.srcB f w t).toNat 32 32 with
          | .error r => .fault s r
          | .ok b => s.writeEntry i w t (s.titAddr w tid + 0x78) b))

/-- The word of MSTAT (R282). -/
def State.mstatWord (s : State) (w : Workgroup) : Word :=
  BitVec.ofNat 32 (((s.heldAccs w).map (2 ^ ·)).sum + 256 * (s.heldSlots w).length + 65536 * (w.mmas % 65536))

/-- MSTAT (R282). -/
def execMstat (f : V3) (s : State) : Out1 :=
  let i : Instr := .mstat f
  .next (s.forThreads i (fun s w t => .go s ((t.setReg f.d.toNat (s.mstatWord w)).onward i)))

/-- MSCL (R286): one complete packet for the group. -/
def execMscl (f : V3) (count : BitVec 9) (stag : BitVec 16) (s : State) : Out1 :=
  let i : Instr := .mscl f count stag
  let n := count.toNat
  let d := f.d.toNat
  .next (s.onceForGroup i (fun s w t =>
    let regs := (n + 7) / 8
    match w.tile d with
    | none => .fault s (trapOf 0x07)
    | some e =>
      if e.kind != .fifo || e.state != .filling || e.expected < e.claimed + n || 63 < f.a.toNat + regs - 1 then
        .fault s (trapOf 0x07)
      else
        let bytes := ((List.range regs).flatMap (fun j => natLe 8 (kread w t (f.a.toNat + j)).toNat)).take n
        let s := s.modWg w.id (fun w => { w with packets := w.packets ++ [⟨d, stag, bytes, none⟩] })
        .all ((s.claim w.id d n).modTile w.id d (fun e => e.arrive n)) (fun t => t.onward i)))

/-- The longest run of consecutive numbers in an ascending list. -/
def longestRun (l : List Nat) : Nat :=
  (l.foldl (fun (a : Nat × Nat × Nat) n =>
    let len := if a.2.1 == n then a.2.2 + 1 else 1
    (max a.1 len, n + 1, len)) (0, 64, 0)).1

/-- The word of OQRY (R282). -/
def State.oqryWord (s : State) (core : Nat) : Word :=
  let fr := s.freeSlots core
  BitVec.ofNat 32 (fr.length + 256 * longestRun fr + 65536 * (s.freeAccs core).length)

/-- OQRY (R282). -/
def execOqry (f : V3) (s : State) : Out1 :=
  let i : Instr := .oqry f
  .next (s.forThreads i (fun s w t =>
    if w.kernel.det then .fault s (trapOf 0x13)
    else .go s ((t.setReg f.d.toNat (s.oqryWord w.core)).onward i)))

end Sys2Proof.Machine
end

