-- ==== Sys2Proof/Machine/Graph.lean ====
section
/-! DEFINITION. Graph space (R329 to R340, R345, R346) and cursors (R354 to R356, R359): descriptors, homes, and the
operations of a graph agent on its vertices. -/

namespace Sys2Proof.Machine

/-! ## Descriptors and their copies (R329 to R331) -/

/-- Read bytes of another package: what it answers is a free value (R331; entry 25). -/
def State.readElsewhere (s : State) (pkg pa n : Nat) : Option (List Byte) :=
  (List.range n).mapM (fun i => Config.elsewhere s.freeN (pkg * 2 ^ 52 + pa + i))

/-- Read bytes at a GEN register address as the context would, for the agent of a die; none where a check fails or the data is
uncorrectable (R331). -/
def State.genRead (s : State) (ctxn die : Nat) (ea : Dword) (n : Nat) : Option (List Byte) :=
  match s.checkVa (agentWg ctxn) (atDie die) { n, align := 1, paths := [0] } (vaOf ea) with
  | .error _ => none
  | .ok g => match g.loc with
    | .main pa => if s.reaches die (homeDie pa) then s.physRead pa n else none
    | .host c pa => s.readHost die c pa n
    | .remote pkg pa => if s.portsFrom die then s.readElsewhere pkg pa n else none
    | _ => none

/-- Read the entries of a partition table: FIRST, die and package of each; none where it is malformed or cannot be
read (R330). -/
def State.readParts (s : State) (ctxn at' : Nat) (ranges : Bool) (pmap : Dword) (i : Nat) : Nat → Option (List (Nat × Nat × Nat))
  | 0 => some []
  | n + 1 =>
    let sz := if ranges then 16 else 2
    match s.genRead ctxn at' (pmap + BitVec.ofNat 64 (sz * i)) sz with
    | none => none
    | some b =>
      let o := if ranges then 8 else 0
      let die := field b o 1
      if 4 ≤ die || (ranges && !zeroAt b 10 6) then none
      else (State.readParts s ctxn at' ranges pmap (i + 1) n).map
        (fun r => (if ranges then field b 0 8 else i, die, field b (o + 1) 1) :: r)

/-- FIRST strictly ascends from 0 (R330). -/
def partsOk (ranges : Bool) (l : List (Nat × Nat × Nat)) : Bool :=
  !ranges || ((l.map (·.1)).head? == some 0
    && (List.zip l (l.drop 1)).all (fun p => p.1.1 < p.2.1))

/-- Read a graph's descriptor and partition table for a die's agent; none where the graph is invalid (R329, R331). -/
def State.readGraph (s : State) (ctxn die g : Nat) : Option GraphDesc :=
  match (s.ctx ctxn).desc.bind (fun d => s.physRead (d.gtab + 64 * g) 64) with
  | none => none
  | some b =>
    let h := field b 0 8
    let idw := h / 8 % 64
    let vpw := h / 512 % 16
    let epw := h / 8192 % 4
    let ranges := h.testBit 15
    let np := h / 65536 % 1024 + 1
    let pmap : Dword := BitVec.ofNat 64 (field b 0x28 8)
    if !(h.testBit 0 && h / 2 ^ 26 == 0 && 1 ≤ idw && idw ≤ 40 && vpw ≤ 8 && epw ≤ 2 && zeroAt b 8 8
        && zeroAt b 0x1A 6 && field b 0x10 10 % 65536 == 0 && field b 0x20 8 != 0 && field b 0x20 8 % 65536 == 0
        && pmap.toNat % 16 == 0 && zeroAt b 0x30 16) then none
    else match s.readParts ctxn die ranges pmap 0 np with
      | none => none
      | some l =>
        if !partsOk ranges l then none
        else some { ctxn, die, g, directed := h.testBit 1, multi := h.testBit 2, idw, vpw, epw, ranges, parts := l,
                    sbase := BitVec.ofNat 80 (field b 0x10 10), ssize := field b 0x20 8 }

/-- Log the bytes at a GEN register address that an agent could not read, or the tables of the address (R331, R396). -/
def State.logGen (s : State) (ctxn die : Nat) (ea : Dword) (n : Nat) : State :=
  match s.checkVa (agentWg ctxn) (atDie die) { n, align := 1, paths := [0] } (vaOf ea) with
  | .ok g => (match g.loc with | .main pa => s.logRange (vfOfCtx ctxn) pa n | _ => s)
  | .error _ => s.logTables (atDie die) ctxn (vaOf ea)

/-- Log what an agent could not read of a graph's descriptor or of its partition table, which it reads up to there (R331,
R396). -/
def State.logGraph (s : State) (ctxn die g : Nat) : State :=
  match (s.ctx ctxn).desc with
  | none => s
  | some c =>
    match s.physRead (c.gtab + 64 * g) 64 with
    | none => s.logRange (vfOfCtx ctxn) (c.gtab + 64 * g) 64
    | some b =>
      let h := field b 0 8
      let sz := if h.testBit 15 then 16 else 2
      let entry (i : Nat) : Dword := BitVec.ofNat 64 (field b 0x28 8 + sz * i)
      match (List.range (if h.testBit 0 then h / 65536 % 1024 + 1 else 0)).find? (fun i => (s.genRead ctxn die (entry i) sz).isNone) with
      | some i => s.logGen ctxn die (entry i) sz
      | none => s

/-- Graph numbers whose descriptors may be valid or unreadable: those of which some byte of the table is listed. -/
def State.graphNumbers (s : State) (gtab : Nat) : List Nat :=
  ((s.mem.filter (fun c => gtab ≤ c.1 && c.1 < gtab + 4194304)).map (fun c => (c.1 - gtab) / 64)
    ++ (s.bmeta.filter (fun e => gtab ≤ 1024 * e.1 && 1024 * e.1 < gtab + 4194304)).flatMap
        (fun e => (List.range 16).map (· + (1024 * e.1 - gtab) / 64))
    ++ (s.poison.filter (fun a => gtab ≤ a && a < gtab + 4194304)).map (fun a => (a - gtab) / 64)).dedup

/-- A die's agent takes its copies of a context's valid graphs (R331). -/
def State.copyGraphs (s : State) (ctxn die : Nat) : State :=
  let gs := s.graphNumbers (((s.ctx ctxn).desc.map (·.gtab)).getD 0)
  gs.foldl (fun s g => s.logGraph ctxn die g)
    { s.bump with graphs := s.graphs.filter (fun d => !(d.ctxn == ctxn && d.die == die)) ++ gs.filterMap (s.readGraph ctxn die) }

/-- Dies on which a context is loaded. -/
def State.loadedDies (s : State) (ctxn : Nat) : List Nat :=
  (List.range 4).filter (fun d => s.cores.any (fun c => c.loaded == some ctxn && dieOf c.no == d))

/-- A core of a die is about to load a context: the agents of that die, and of the dies that have not loaded it, take
their copies (R331; entry 43). -/
def State.loadGraphs (s : State) (ctxn die : Nat) : State :=
  ((List.range 4).filter (fun d => d == die || !(s.loadedDies ctxn).contains d)).foldl
    (fun s d => s.copyGraphs ctxn d) s

/-- The copy of a graph that an agent holds. -/
def State.graph (s : State) (ctxn die g : Nat) : Option GraphDesc :=
  s.graphs.find? (fun d => d.ctxn == ctxn && d.die == die && d.g == g)

/-! ## References and homes (R330, R332) -/

/-- A vertex reference. -/
def refOf (g id : Nat) : Dword := BitVec.ofNat 64 (g * 2 ^ 40 + id)
/-- GRAPH and ID of a reference. -/
def refGraph (r : Dword) : Nat := (bits r 55 40).toNat
def refId (r : Dword) : Nat := (bits r 39 0).toNat

/-- A fault with SPACE 0x3 (R300). -/
def graphFault (code : Byte) (g id page : Nat) : Raise :=
  { code, space := 3, addr := BitVec.ofNat 128 (g + page * 65536 + id * 2 ^ 64) }

/-- The graph of a vertex operand; 0x0E where it or the reference is invalid (R329, R332, R344). -/
def State.vertexGraph (s : State) (ctxn die : Nat) (r : Dword) : Except Raise GraphDesc :=
  match s.graph ctxn die (refGraph r) with
  | none => .error (graphFault 0x0E (refGraph r) (refId r) 0)
  | some d => if bits r 63 56 != 0 || 2 ^ d.idw ≤ refId r then .error (graphFault 0x0E d.g (refId r) 0) else .ok d

/-- The part of a vertex (R330). -/
def GraphDesc.part (d : GraphDesc) (v : Nat) : Nat × Nat × Nat :=
  if d.ranges then (d.parts.filter (fun p => p.1 ≤ v)).getLast?.getD (0, 0, 0)
  else d.parts.getD (v * 0x9E3779B97F4A7C15 % 2 ^ 64 / 2 ^ 32 % d.parts.length) (0, 0, 0)

/-- The home of a vertex: package and die (R330). -/
def State.vertexHome (s : State) (d : GraphDesc) (v : Nat) : Nat × Nat :=
  let p := d.part v
  (if p.2.2 == 0xFF then s.pkg else p.2.2, p.2.1)

/-! ## Lists (R334 to R336) -/

/-- A present vertex. -/
def State.vertex (s : State) (ctxn g id : Nat) : Option Vertex :=
  s.verts.find? (fun v => v.ctxn == ctxn && v.g == g && v.id == id)

/-- Put a vertex back. -/
def State.setVertex (s : State) (v : Vertex) : State :=
  { s with verts := s.verts.map (fun u => if u.ctxn == v.ctxn && u.g == v.g && u.id == v.id then v else u) }

/-- Order of list entries (R335). -/
def entryLt (x y : Nat × Dword) : Bool := x.1 < y.1 || (x.1 == y.1 && x.2.toNat < y.2.toNat)

/-- Insert an entry into a sorted list. -/
def insertEntry (x : Nat × Dword) : List (Nat × Dword) → List (Nat × Dword)
  | [] => [x]
  | y :: r => if entryLt x y then x :: y :: r else y :: insertEntry x r

/-- Edges of a graph. -/
def State.edgesOf (s : State) (d : GraphDesc) : List Edge := s.edges.filter (fun e => e.ctxn == d.ctxn && e.g == d.g)

/-- The entries of a list in order: the out-list or the only list, or the in-list (R335, R336). -/
def State.adj (s : State) (d : GraphDesc) (id : Nat) (inList : Bool) : List (Nat × Dword) :=
  ((s.edgesOf d).filterMap (fun e =>
    if d.directed then
      (if inList then (if e.v == id then some (e.u, e.handle) else none)
       else if e.u == id then some (e.v, e.handle) else none)
    else if e.u == id then some (e.v, e.handle)
    else if e.v == id then some (e.u, e.handle)
    else none)).foldr insertEntry []

/-- The edge of a handle in a list. -/
def State.edgeIn (s : State) (d : GraphDesc) (id : Nat) (inList : Bool) (h : Dword) : Option Edge :=
  if (s.adj d id inList).any (fun x => x.2 == h) then (s.edgesOf d).find? (fun e => e.handle == h) else none

/-- Do an edge's endpoints join u to v (R336)? -/
def endsJoin (directed : Bool) (a b u v : Nat) : Bool := (a == u && b == v) || (!directed && a == v && b == u)

/-! ## The agent's store (R339, R340) -/

/-- Bytes of store that the present vertices of one home take at most (R340). -/
def State.storeBound (s : State) (d : GraphDesc) (home : Nat × Nat) : Nat :=
  ((s.verts.filter (fun v => v.ctxn == d.ctxn && v.g == d.g && s.vertexHome d v.id == home)).map (fun v =>
    64 + 4 * d.vpw + (16 + 4 * d.epw) * ((s.adj d v.id false).length + (if d.directed then (s.adj d v.id true).length else 0)))).sum

/-- The leaf entry of a region page, as an agent finds it, and the size of its page. -/
def State.regionEntry (s : State) (d : GraphDesc) (die p : Nat) : Option (Dword × Nat) :=
  (s.ctx d.ctxn).desc.bind (fun c => s.leafEntry (atDie die) d.ctxn c.ptroot (d.sbase + BitVec.ofNat 80 (65536 * p)))

/-- A region page as the agent of a die finds it (R333, R339). -/
inductive StorePage where
  /-- Not present. -/
  | absent
  /-- Its leaf lacks GRAPH or is marked ORD. -/
  | refused
  /-- Present; `mine`: its frame is homed at the agent's die, so that the agent stores in it. -/
  | present (mine : Bool)
  deriving DecidableEq, Repr

/-- What an agent finds at a region page. The GRAPH and ORD bits are looked at before the rest of the leaf (R339, R353). DESIGN
CHOICE (entry 13): a leaf whose REGION is not that of SBASE is taken as not present, and the bounds entry of the region is not
looked at: R339 names codes for neither. -/
def State.storePage (s : State) (d : GraphDesc) (die p : Nat) : StorePage :=
  match s.regionEntry d die p with
  | none => .absent
  | some e =>
    if !bit e.1 6 || bit e.1 3 then .refused
    else match leafOf e.1 e.2 (d.sbase + BitVec.ofNat 80 (65536 * p)) with
      | none => .absent
      | some l =>
        if l.region != (bits d.sbase 75 68).toNat then .absent
        else .present (!l.host && (l.pkg == 0xFF || l.pkg == s.pkg) && homeDie l.pa == die
          && s.frameOk (vfOfCtx d.ctxn) l.pa l.cmp)

/-- Pages of the region in which an agent stores (R333, R340). -/
def State.storePages (s : State) (d : GraphDesc) (die : Nat) : Nat :=
  ((List.range (d.ssize / 65536)).filter (fun p => s.storePage d die p == .present true)).length

/-- Is the agent's store full for `adds` more bytes (R340)? Below the bound it is a free value, and where the agent has no page
at all the store is full (entry 13). -/
def State.storeFull (s : State) (n : Nat) (d : GraphDesc) (id adds : Nat) : Bool :=
  let home := s.vertexHome d id
  let pages := s.storePages d home.2
  adds != 0 && pages * 65536 < 65536 + s.storeBound d home + adds
    && (pages == 0 || Config.graphFull n d.g id (s.storeBound d home))

/-- What an agent needs for an operation: its pages, and store for `adds` more bytes (R339, R340; entry 13). In deterministic
mode, `det`, the answer does not change with the count of free values (R318). -/
def State.agentNeeds (s : State) (det : Bool) (d : GraphDesc) (id adds : Nat) : Except Raise State :=
  let home := s.vertexHome d id
  let n := if det then 0 else s.freeN
  if home.1 != s.pkg then .ok s
  else
    let page := (Config.graphPage n d.ctxn d.g id).filter (fun p => p < d.ssize / 65536)
    match page, page.map (s.storePage d home.2) with
    | some p, some .absent => .error (graphFault 0x01 d.g id p)
    | some p, some .refused => .error (graphFault 0x02 d.g id p)
    | _, _ => if s.storeFull n d id adds then .error (graphFault 0x0B d.g id 0) else .ok s.bump

/-! ## Handles (R335, R355; entry 12) -/

/-- The first of some candidates that satisfies a test, or the least number that does. -/
def pickFresh (cands : List Nat) (bound : Nat) (ok : Nat → Bool) : Option Nat :=
  match cands.find? ok with
  | some x => some x
  | none => (List.range bound).find? ok

/-- The handle of a new edge: bits 63:28 are those of the pair in a multigraph, else new; none where 2^28 edges have
joined the pair. It is a free value of the pair and of how many edges have joined it, so that it does not depend on the order of
issue (R318), but where such a value has been issued before. -/
def State.newHandle (s : State) (d : GraphDesc) (u v : Nat) : Option Dword :=
  let mine := s.issued.filter (fun e => e.ctxn == d.ctxn)
  let pair := mine.filter (fun e => e.g == d.g && endsJoin d.directed e.u e.v u v)
  let same := if d.multi then pair else []
  let cand (k : Nat) : Nat := (Config.handle d.ctxn d.g u v pair.length k).toNat
  let hi := match same.head? with
    | some e => some (e.handle.toNat / 2 ^ 28)
    | none => pickFresh ((List.range 4).map (fun k => cand k / 2 ^ 28)) (min (2 ^ 36) (mine.length + 1))
        (fun x => !mine.any (fun e => e.handle.toNat / 2 ^ 28 == x))
  let lo := pickFresh ((List.range 4).map (fun k => cand k % 2 ^ 28)) (min (2 ^ 28) (same.length + 1))
    (fun x => !same.any (fun e => e.handle.toNat % 2 ^ 28 == x))
  match hi, lo with
  | some h, some l => some (BitVec.ofNat 64 (h * 2 ^ 28 + l))
  | _, _ => none

/-! ## Cursors (R354 to R356, R359) -/

/-- Fields of a cursor image. -/
def curOpen (c : BitVec 128) : Bool := bit c 0
def curDir (c : BitVec 128) : Bool := bit c 1
def curHas (c : BitVec 128) : Bool := bit c 2
def curIncl (c : BitVec 128) : Bool := bit c 3
def curTie (c : BitVec 128) : Nat := (bits c 31 4).toNat
def curLast (c : BitVec 128) : Nat := (bits c 71 32).toNat
def curId (c : BitVec 128) : Nat := (bits c 111 72).toNat
def curGraph (c : BitVec 128) : Nat := (bits c 127 112).toNat

/-- The vertex reference of a cursor. -/
def curRef (c : BitVec 128) : Dword := refOf (curGraph c) (curId c)

/-- A malformed image (R354). -/
def curMalformed (c : BitVec 128) : Bool :=
  (!curOpen c && c != 0) || (curHas c && curIncl c) || (curTie c != 0 && !curHas c)

/-- An image from its fields. -/
def curImage (g id last tie : Nat) (incl has dir : Bool) : BitVec 128 :=
  BitVec.ofNat 128 (g * 2 ^ 112 + id * 2 ^ 72 + last * 2 ^ 32 + tie * 16 + (if incl then 8 else 0) + (if has then 4 else 0)
    + (if dir then 2 else 0) + 1)

/-- Does an entry lie before a cursor's key (R356, R359)? -/
def beforeKey (c : BitVec 128) (x : Nat × Dword) : Bool :=
  if curHas c then x.1 < curLast c || (x.1 == curLast c && x.2.toNat % 2 ^ 28 < curTie c)
  else if curIncl c then x.1 < curLast c
  else false

/-- Is an entry the one that a cursor last returned? In a simple graph TIE is 0 and the neighbour decides. -/
def isLast (multi : Bool) (c : BitVec 128) (x : Nat × Dword) : Bool :=
  curHas c && x.1 == curLast c && (!multi || x.2.toNat % 2 ^ 28 == curTie c)

/-- Entries of a list that lie before a cursor's key. In a simple graph the key is the neighbour alone. -/
def keyRank (multi : Bool) (c : BitVec 128) (l : List (Nat × Dword)) : Nat :=
  (l.filter (fun x => if multi then beforeKey c x else ((curHas c || curIncl c) && x.1 < curLast c))).length

/-- The successor of a cursor among the entries of its list (R356). DESIGN CHOICE (entry 71): on a simple graph the key is the
neighbour alone, so that TIE of an image that CREST has restored is ignored; R356 gives such an image no order. -/
def successor (multi : Bool) (c : BitVec 128) (l : List (Nat × Dword)) : Option (Nat × Dword) :=
  l.find? (fun x => !(if multi then beforeKey c x else ((curHas c || curIncl c) && x.1 < curLast c)) && !isLast multi c x)

/-- The entries of a cursor's list; none where its vertex is absent. DESIGN CHOICE (entry 71): on an undirected graph a cursor
with DIR 1, which only CREST can bring, walks the only list; R359 does not check it. -/
def State.curList (s : State) (d : GraphDesc) (c : BitVec 128) : List (Nat × Dword) :=
  if (s.vertex d.ctxn d.g (curId c)).isSome then s.adj d (curId c) (curDir c) else []

/-- A cursor that has returned an entry (R359). -/
def curAdvance (multi : Bool) (c : BitVec 128) (x : Nat × Dword) : BitVec 128 :=
  curImage (curGraph c) (curId c) x.1 (if multi then x.2.toNat % 2 ^ 28 else 0) false true (curDir c)

/-! ## The operations (R345, R346, R359) -/

/-- A result: the D group, PD, and the updated cursor. -/
structure GRes where
  d : BitVec 128
  pd : Bool
  cur : BitVec 128
  deriving DecidableEq, Repr

/-- A result of one value. -/
def gval (x : Nat) (pd : Bool) : GRes := { d := BitVec.ofNat 128 x, pd, cur := 0 }

/-- A vertex's property word. -/
def Vertex.prop (v : Vertex) (i : Nat) : Word := v.props.getD i 0
/-- Change a property word. -/
def Vertex.setProp (v : Vertex) (i : Nat) (x : Word) : Vertex := { v with props := v.props.set i x }

/-- Presence of an endpoint of EINS; one homed on another package is present or not as nothing here says (entry 21). -/
def State.endPresent (s : State) (d : GraphDesc) (id : Nat) : Bool :=
  if (s.vertexHome d id).1 == s.pkg then (s.vertex d.ctxn d.g id).isSome else (Config.free64 s.freeN).getLsbD 0

/-- EINS at its instant (R346). -/
def State.einsAt (s : State) (det : Bool) (d : GraphDesc) (u v : Nat) : Except Raise (State × GRes) :=
  if !(s.endPresent d u && s.endPresent d v) then .ok (s.bump, gval 0 false)
  else match (if d.multi then none else (s.edgesOf d).find? (fun e => endsJoin d.directed e.u e.v u v)) with
    | some e => .ok (s, gval e.handle.toNat false)
    | none =>
      if 4294967295 ≤ (s.adj d u false).length || 4294967295 ≤ (s.adj d v d.directed).length then .ok (s, gval 0 false)
      else match s.newHandle d u v with
        | none => .ok (s, gval 0 false)
        | some h =>
          let adds := 16 + 4 * d.epw
          let both := s.vertexHome d u == s.vertexHome d v && (d.directed || u != v)
          match (s.agentNeeds det d u (if both then 2 * adds else adds)) with
          | .error r => .error r
          | .ok s => match s.agentNeeds det d v adds with
            | .error r => .error r
            | .ok s =>
              .ok ({ s with edges := s.edges ++ [⟨d.ctxn, d.g, u, v, h, List.replicate d.epw 0⟩],
                            issued := s.issued ++ [⟨d.ctxn, d.g, u, v, h⟩] }, gval h.toNat true)

/-- The other operations on a vertex that is present. -/
def State.vertexOp (s : State) (d : GraphDesc) (o : Opc) (w2 : GraphW2) (v : Vertex) (b c : Dword) : State × GRes :=
  let i := w2.idx.toNat
  let inList := w2.dirn == 1
  let l := s.adj d v.id inList
  match o with
  | .vdel =>
    if l.isEmpty && (s.adj d v.id true).isEmpty && (s.adj d v.id false).isEmpty then
      ({ s with verts := s.verts.filter (fun x => x != v) }, gval 0 true)
    else (s, gval 0 false)
  | .vget => (s, gval (v.prop i).toNat true)
  | .vset => (s.setVertex (v.setProp i (b.setWidth 32)), gval 0 true)
  | .vatom =>
    (s.setVertex (v.setProp i (BitVec.ofNat 32 (atomResult w2.op.toNat 4 (v.prop i).toNat (b.toNat % 2 ^ 32)))), gval 0 true)
  | .deg => (s, gval l.length true)
  | .eget => match l[b.toNat % 2 ^ 32]? with
    | some x => (s, gval ((refOf d.g x.1).toNat + x.2.toNat * 2 ^ 64) true)
    | none => (s, gval 0 false)
  | .epget => match s.edgeIn d v.id inList b with
    | some e => (s, gval (e.props.getD i 0).toNat true)
    | none => (s, gval 0 false)
  | .epset => match s.edgeIn d v.id inList b with
    | some e =>
      ({ s with edges := s.edges.map (fun x => if x == e then { x with props := x.props.set i (c.setWidth 32) } else x) }, gval 0 true)
    | none => (s, gval 0 false)
  | .efind => (s, gval (l.filter (fun x => x.1 < refId b)).length (l.any (fun x => x.1 == refId b)))
  | .edel => match s.edgeIn d v.id inList b with
    | some e => ({ s with edges := s.edges.filter (fun x => x != e) }, gval 0 true)
    | none => (s, gval 0 false)
  | _ => (s, gval 0 false)

/-- COPEN, CNEXT, CPEEK and CRANK at their instant (R359). `a` is COPEN's vertex and `b` its start id. -/
def State.cursorOp (s : State) (d : GraphDesc) (o : Opc) (w2 : GraphW2) (a b : Dword) (cur : BitVec 128) : GRes :=
  let l := s.curList d cur
  match o with
  | .copen =>
    let st := bit w2.idx 0
    { d := 0, pd := (s.vertex d.ctxn d.g (refId a)).isSome,
      cur := curImage d.g (refId a) (if st then (bits b 39 0).toNat else 0) 0 st false (bit w2.dirn 0) }
  | .crank =>
    let h := (l.find? (isLast d.multi cur)).map (·.2)
    { d := BitVec.ofNat 128 (keyRank d.multi cur l % 2 ^ 32 + ((h.map (·.toNat)).getD 0) * 2 ^ 64), pd := h.isSome, cur }
  | _ => match successor d.multi cur l with
    | none => { d := 0, pd := false, cur }
    | some x =>
      { d := BitVec.ofNat 128 ((refOf d.g x.1).toNat + x.2.toNat * 2 ^ 64), pd := true,
        cur := if o == .cnext then curAdvance d.multi cur x else cur }

/-! ## Edges with an end on another package (R336, R337) -/

/-- Is a vertex's list being changed by an operation at another package, whose answer has not come? -/
def State.locked (s : State) (ctxn g v : Nat) : Bool := s.txns.any (fun x => x.ends.contains (ctxn, g, v))

/-- The vertices of this package whose lists, or whose edge, an EINS, EDEL or EPSET at another package changes: the other end
(R335, R336). -/
def State.endsHere (s : State) (d : GraphDesc) (o : Opc) (a b : Dword) : List (Nat × Nat × Nat) :=
  let ids := match o with
    | .eins => [refId b]
    | .edel | .epset => ((s.edgesOf d).find? (fun (e : Edge) => e.handle == b)).elim [] (fun e => [e.u, e.v].filter (· != refId a))
    | _ => []
  (ids.filter (fun v => (s.vertexHome d v).1 == s.pkg)).map (fun v => (d.ctxn, d.g, v))

/-- What such an operation changes here. -/
def endChange (d : GraphDesc) (o : Opc) (w2 : GraphW2) (a b c : Dword) : Option EndChange :=
  match o with
  | .eins => some (.insert (refId a) (refId b) d.epw)
  | .edel => some (.remove b)
  | .epset => some (.prop b w2.idx.toNat (c.setWidth 32))
  | _ => none

/-- What the agents of those ends need, before the operation is sent: where a page is missing, or the store full, it has changed
nothing (R339, R340). -/
def State.endNeeds (s : State) (det : Bool) (d : GraphDesc) (o : Opc) (a b : Dword) : Except Raise State :=
  (s.endsHere d o a b).foldlM (fun s e => s.agentNeeds det d e.2.2 (if o == .eins then 16 + 4 * d.epw else 0)) s

/-- The operation has taken effect at the other package: the end homed here changes at the same instant, before any other
operation on it (R235, R336, R337). -/
def State.endChanged (s : State) (x : Txn) (b : FlitBody) : State :=
  match x.change, b with
  | some (ctxn, g, ch), .graphres true r _ _ _ _ =>
    let is (e : Edge) (h : Dword) : Bool := e.ctxn == ctxn && e.g == g && e.handle == h
    (match ch with
     | .insert u v n =>
       { s with edges := s.edges ++ [⟨ctxn, g, u, v, r.setWidth 64, List.replicate n 0⟩],
                issued := s.issued ++ [⟨ctxn, g, u, v, r.setWidth 64⟩] }
     | .remove h => { s with edges := s.edges.filter (fun e => !is e h) }
     | .prop h i y => { s with edges := s.edges.map (fun e => if is e h then { e with props := e.props.set i y } else e) })
  | _, _ => s

/-- Vertices of a graph homed on other packages: are there any? -/
def State.spans (s : State) (d : GraphDesc) : Bool := d.parts.any (fun p => p.2.2 != 0xFF && p.2.2 != s.pkg)

/-- GSTAT (R345): counts over the packages of the graph; what other packages hold is a free value (entry 21). -/
def State.gstatOp (s : State) (d : GraphDesc) : State × GRes :=
  let n := (s.verts.filter (fun v => v.ctxn == d.ctxn && v.g == d.g)).length
  let m := (s.edgesOf d).length
  if s.spans d then
    ((s.bump).bump, gval ((n + (Config.free64 s.freeN).toNat) % 2 ^ 64 + (m + (Config.free64 (s.freeN + 1)).toNat) % 2 ^ 64 * 2 ^ 64) true)
  else (s, gval (n + m * 2 ^ 64) true)

/-- A graph or cursor operation performed at its home's agent, at one instant (R337, R344). -/
def State.graphOp (s : State) (det : Bool) (d : GraphDesc) (o : Opc) (w2 : GraphW2) (a b c : Dword) (cur : BitVec 128) :
    Except Raise (State × GRes) :=
  match o with
  | .eins => s.einsAt det d (refId a) (refId b)
  | .copen | .cnext | .cpeek | .crank =>
    (match s.agentNeeds det d (if o == .copen then refId a else curId cur) 0 with
     | .error r => .error r
     | .ok s => .ok (s, s.cursorOp d o w2 a b cur))
  | o =>
    match s.vertex d.ctxn d.g (refId a) with
    | some v =>
      (match s.agentNeeds det d v.id 0 with
       | .error r => .error r
       | .ok s => .ok (s.vertexOp d o w2 v b c))
    | none =>
      if o == .vins then
        (match s.agentNeeds det d (refId a) (64 + 4 * d.vpw) with
         | .error r => .error r
         | .ok s => .ok ({ s with verts := s.verts ++ [⟨d.ctxn, d.g, refId a, List.replicate d.vpw 0⟩] }, gval 0 true))
      else .ok (s, gval 0 false)

end Sys2Proof.Machine
end

