-- ==== Sys2Proof/Machine/Migrate.lean ====
section
/-! DEFINITION. Thread migration (R362 to R383): continuations, departures, guests and returns. Opcodes 0xB0 to 0xB3
and the migration events. -/

namespace Sys2Proof.Machine

/-! ## Guests -/

/-- Threads that hold a guest slot of a core, and parts of continuations that wait for one (R16, R432). A guest that exits
leaves its slot at once (R374). -/
def State.guests (s : State) (core : Nat) : Nat :=
  (s.threads.filter (fun t => t.away.any (fun a => a.core == core && a.pkg == s.pkg)
    && (match t.status with | .exited => false | .exiting => false | .gone => false | _ => true))).length
  + (s.conts.filter (fun c => c.core == some core)).length

/-- Cores of a hedge on a die with a free guest slot. -/
def State.freeGuestCores (s : State) (vf die : Nat) : List Nat :=
  (s.hedgeCores vf die).filter (fun c => s.guests c < 256)

/-- The core that a Wicket port takes (R366; entry 9). -/
def State.guestCore (s : State) (vf die : Nat) : Option Nat :=
  let l := s.freeGuestCores vf die
  l[Config.guestCore s.freeN % max l.length 1]?

/-- Drop a guest from another package, and its stand-in workgroup with its last guest. -/
def State.dropGuest (s : State) (k : Key) : State :=
  let s := s.unqueue k
  let ts := s.threads.filter (fun t => t.key != k)
  { s with
    threads := ts
    wgs := s.wgs.filter (fun w => !(w.id == k.wg && w.foreign.isSome && !(ts.any (fun t => t.wg == k.wg)))) }

/-! ## The continuation (R365) -/

/-- Numbers of the open cursors. -/
def Thread.openCursors (t : Thread) : List Nat := (List.range 8).filter (fun i => curOpen (t.cur.toList.getD i 0))

/-- Size of a continuation. -/
def Thread.contSize (t : Thread) : Nat := 48 + 16 * t.openCursors.length + 8 * t.un + 4 * t.vn

/-- The snapshot: taken when the thread leaves its origin core (R366). -/
def snapshotOf (w : Workgroup) (t : Thread) : List Dword :=
  match t.away with
  | some a => a.snap
  | none => (List.range t.un).map (fun i => kread w t (t.ub + i))

/-- Pack a thread (R365). -/
def State.contBytes (s : State) (w : Workgroup) (t : Thread) : List Byte :=
  natLe 8 t.pc.toNat ++ natLe 4 w.lin.toNat ++ natLe 2 t.tidx ++ natLe 2 w.core ++ natLe 1 (w.foreign.getD s.pkg)
    ++ natLe 1 t.hops ++ natLe 1 w.kernel.hops ++ natLe 1 (if w.kernel.det then 1 else 0)
    ++ natLe 2 (t.p.toNat % 32768) ++ natLe 1 t.vb ++ natLe 1 t.vn ++ natLe 1 t.ub ++ natLe 1 t.un
    ++ natLe 1 ((t.openCursors.map (2 ^ ·)).sum) ++ [0] ++ natLe 4 w.ctxn
    ++ natLe 4 t.srkey0.toNat ++ natLe 4 t.srkey1.toNat ++ natLe 4 t.srctr0.toNat ++ natLe 4 t.srctr1.toNat
    ++ t.openCursors.flatMap (fun i => natLe 16 (t.cur.toList.getD i 0).toNat)
    ++ (snapshotOf w t).flatMap (fun x => natLe 8 x.toNat)
    ++ wordsToBytes (t.regs t.vb t.vn)

/-- Put what a continuation carries into a thread (R366, R373). -/
def Thread.unpack (t : Thread) (b : List Byte) : Thread :=
  let vb := field b 0x16 1
  let vn := field b 0x17 1
  let un := field b 0x19 1
  let open' := (List.range 8).filter (fun i => (field b 0x1A 1).testBit i)
  let regs := 48 + 16 * open'.length + 8 * un
  let t := { t with
    pc := BitVec.ofNat 64 (field b 0 8), p := BitVec.ofNat 16 (field b 0x14 2), vb, vn, ub := field b 0x18 1, un
    hops := field b 0x11 1
    srkey0 := BitVec.ofNat 32 (field b 0x20 4), srkey1 := BitVec.ofNat 32 (field b 0x24 4)
    srctr0 := BitVec.ofNat 32 (field b 0x28 4), srctr1 := BitVec.ofNat 32 (field b 0x2C 4)
    cur := Vector.ofFn (fun i : Fin 8 =>
      match open'.findIdx? (· == i.val) with
      | some j => BitVec.ofNat 128 (field b (48 + 16 * j) 16)
      | none => 0) }
  t.setRegs vb (bytesToWords vn (b.drop regs))

/-- The flits of a continuation: one or two parts (R432). -/
def contFlits (b : List Byte) : List FlitBody :=
  if b.length ≤ 224 then [.cont 0 1 b.length b]
  else [.cont 0 2 b.length (b.take 224), .cont 1 2 b.length (b.drop 224)]

/-! ## Departing (R366 to R369) -/

/-- What becomes of a departure. -/
inductive Departure where
  /-- Already at the home. -/
  | here
  /-- The thread has left or waits: its status is set. -/
  | left (s : State) (t : Thread)
  /-- Refused by a check of R367. -/
  | refused (s : State) (check : Nat)

/-- Does a queued operation that the thread issued remain (R367 check 2)? -/
def State.issued? (s : State) (t : Thread) : Bool :=
  s.ops.any (fun o => o.wg == t.wg && o.issuer == t.tidx && (match o.body with | .stream .. => false | _ => true))

/-- Departure for another package: the port asks for a guest slot, sends the continuation on the grant and lets the
thread go on the acknowledgement (R432). Its answers wait in `replies`. A guest of a third package is no longer here then. -/
def State.departPkg (s : State) (w : Workgroup) (t : Thread) (pkg die : Nat) (after : Thread → Thread) : Departure :=
  let vf := vfOfCtx w.ctxn
  let here := dieOf (s.coreOf t)
  let mine := s.replies.filter (fun r => r.key == t.key)
  let s' : State := { s with replies := s.replies.filter (fun r => r.key != t.key) }
  let gone := after t
  let packed := { gone.landLoads with hops := t.hops + 1 }
  match (mine.head?.map Reply.body : Option FlitBody) with
  | none =>
    if !s.portsFrom here then .refused s 5
    else
      let r := s.request pkg vf here (.slotreq w.ctxn die) (.slot t.key)
      .left r.1 { t with status := .data (.txn r.2 true) }
  | some (.slotgnt _) =>
    (match s.txns.find? (fun x => x.by' == TxnBy.cont t.key false) with
     | none => .refused s' 5
     | some x =>
       .left ((contFlits (s.contBytes w packed)).foldl (fun s b => s.send pkg vf x.tag (s.tagPort x.tag) b) (s'.release (s.coreOf t) t.key))
         { t with status := .data (.txn x.tag true) })
  | some .ack =>
    if w.foreign.isSome then .left (s'.dropGuest t.key) t
    else .left s' { packed with status := .gone, away := some ⟨0, pkg, snapshotOf w t⟩, seen := none }
  | some _ => .refused s' 5

/-- Has the hedge no core on the destination die, or is the package none of the context's (R367 check 4)? The hedge's cores on
another package are a property of that package (entry 29). -/
def State.noPlace (s : State) (w : Workgroup) (pkg die : Nat) : Bool :=
  let vf := vfOfCtx w.ctxn
  if pkg == s.pkg then (s.hedgeCores vf die).isEmpty
  else !(pkg == w.foreign.getD s.pkg || bit (s.vf vf).hedge.pkgs pkg) || !Config.hedgeThere pkg die vf

/-- A departure for a home (R366, R367). `after` is the thread as its continuation holds it; `done` is the PC of a GO, which
the arrival completes (R326). -/
def State.departure (s : State) (w : Workgroup) (t : Thread) (home : Nat × Nat) (after : Thread → Thread) (done : Option Dword) :
    Departure :=
  let pkg := home.1
  let die := home.2
  let vf := vfOfCtx w.ctxn
  if pkg == s.pkg && die == dieOf (s.coreOf t) then .here
  else if pkg == w.foreign.getD s.pkg && die == dieOf w.core then
    .left (s.release (s.coreOf t) t.key)
      { (after t).landLoads with status := .transit pkg w.core done, hops := 0, seen := none }
  else if w.kernel.hops < t.hops + 1 then .refused s 1
  else if t.tag != 0 || s.issued? t then .refused s 2
  else if 256 < t.contSize then .refused s 3
  else if s.noPlace w pkg die then .refused s 4
  else if t.seen == some [5] || (pkg == s.pkg && !s.reaches (dieOf (s.coreOf t)) die) then .refused s 5
  else if pkg != s.pkg then s.departPkg w t pkg die after
  else match s.guestCore vf die with
    | none => .left s { t with status := .data (.slot die) }
    | some c =>
      .left (s.release (s.coreOf t) t.key).bump { (after t).landLoads with
        hops := t.hops + 1, away := some ⟨c, s.pkg, snapshotOf w t⟩, status := .transit s.pkg c done, seen := none }

/-- Is a refusal under a check silent in deterministic mode (R369)? -/
def silent (w : Workgroup) (check : Nat) : Bool := w.kernel.det && (check == 1 || check == 2 || check == 5)

/-! ## The instructions -/

/-- CARRY (R363, R364). -/
def execCarry (vb : Reg) (vn : BitVec 5) (ub : BitVec 6) (un : BitVec 4) (fm : Form) (s : State) : Out1 :=
  let i : Instr := .carry vb vn ub un fm
  .next (s.forThreads i (fun s w t =>
    if w.allot < vb.toNat + vn.toNat || 64 < ub.toNat + un.toNat then .fault s (trapOf 0x07)
    else .go s (Thread.onward { t with vb := vb.toNat, vn := vn.toNat, ub := ub.toNat, un := un.toNat } i)))

/-- The home that GO's operand names; none on a HOST leaf (R362, R379). -/
def State.goHome (s : State) (w : Workgroup) (t : Thread) (vtx : Bool) (a : Dword) : Except Raise (Option (Nat × Nat)) :=
  let die := dieOf (s.coreOf t)
  if vtx then
    match s.vertexGraph w.ctxn die a with
    | .error r => .error r
    | .ok d => .ok (some (s.vertexHome d (refId a)))
  else
    match s.checkEa w (atCore (s.coreOf t)) { n := 1, align := 1, paths := [0, 1, 4] } a a with
    | .error r => .error r
    | .ok g => match g.loc with
      | .main pa => .ok (some (s.pkg, homeDie pa))
      | .remote pkg pa => .ok (some (pkg, homeDie pa))
      | _ => .ok none

/-- The fault of a refused GO names the vertex, or the address, to which it would have moved (R300; entry 44). -/
def refusedMove (vtx : Bool) (a : Dword) : Raise :=
  if vtx then graphFault 0x0A (refGraph a) (refId a) 0 else dataFault 0x0A (vaOf a) 0 false

/-- GO (R366 to R369, R379). -/
def execGo (f : V3) (vtx fall : Bool) (pd : PReg) (s : State) : Out1 :=
  let i : Instr := .go f vtx fall pd
  .next (s.forThreads i (fun s w t =>
    let stay (b : Bool) : Thread := Thread.onward { t.setPred pd b with seen := none } i
    match s.goHome w t vtx (V3.srcA64 f w t) with
    | .error r => .fault s r
    | .ok none => .go s (stay true)
    | .ok (some h) => match s.departure w t h (fun t => (t.setPred pd true).onward i) (some t.pc) with
      | .here => .go s (stay true)
      | .left s t => .hold s t
      | .refused s c =>
        if silent w c then .go s (stay true)
        else if fall then .go s (stay false)
        else .fault (s.setThread { t with seen := none }) (refusedMove vtx (V3.srcA64 f w t))))

/-- HOME (R373): at the origin it changes nothing. -/
def execHome (fm : Form) (s : State) : Out1 :=
  let i : Instr := .home fm
  .next (s.forThreads i (fun s w t =>
    if t.away.isNone then .go s (t.onward i)
    else .hold (s.release (s.coreOf t) t.key)
      { (t.onward i).landLoads with status := .transit (w.foreign.getD s.pkg) w.core (some t.pc), hops := 0, seen := none }))

/-- The word of WHERE (R380). -/
def State.whereWord (s : State) (t : Thread) : Word :=
  BitVec.ofNat 32 (s.coreOf t % 256 + 256 * s.pkg + 65536 * t.hops + (if t.away.isSome then 2 ^ 24 else 0))

/-- WHERE (R380). -/
def execWhereAt (f : V3) (s : State) : Out1 :=
  let i : Instr := .whereAt f
  .next (s.forThreads i (fun s w t =>
    if w.kernel.det then .fault s (trapOf 0x13)
    else .go s ((t.setReg f.d.toNat (s.whereWord t)).onward i)))

/-! ## Events -/

/-- A thread has come to a core: it is filed there (R42, R366), and the GO or HOME that brought it has completed (R326). -/
def State.cameTo (s : State) (t : Thread) (done : Option Dword) : State :=
  match done, s.wg t.wg with
  | some pc, some w =>
    if s.steps w then (s.setThread t).raise (s.coreOf t) s.pkg t.insn [t.key] (stepFault pc t.insn t.pc) else s.fileThread t 0
  | _, _ => s.fileThread t 0

/-- GUEST_PLACEMENT (R366): the port files the thread on a core of the context's hedge on the die. -/
def execGuestPlacement (wg tidx core : Nat) (s : State) : Out1 :=
  .next (match s.thread ⟨wg, tidx⟩ with
    | none => s
    | some t => match t.status, t.away with
      | .transit pkg c done, some a =>
        if pkg == s.pkg && a.core == c && (core == c || (s.wg wg).any (fun w =>
            (s.freeGuestCores (vfOfCtx w.ctxn) (dieOf c)).contains core)) then
          s.cameTo { t with away := some { a with core } } done
        else s
      | _, _ => s)

/-- A guest's continuation goes to its origin, on another package (R432). -/
def State.sendCont (s : State) (w : Workgroup) (t : Thread) (p : Nat) : State :=
  let die := dieOf (s.coreOf t)
  match contFlits (s.contBytes w t), s.portsFrom die with
  | b :: rest, true =>
    let r := s.request p (vfOfCtx w.ctxn) die b (.cont t.key true)
    (rest.foldl (fun s b => s.send p (vfOfCtx w.ctxn) r.2 (s.tagPort r.2) b) r.1).setThread { t with status := .data (.txn r.2 true) }
  | _, _ => s

/-- HOME_ARRIVAL (R373): the thread goes on at its origin. For a guest of another package it is the sending of its
continuation (R432). -/
def execHomeArrival (wg tidx : Nat) (s : State) : Out1 :=
  .next (match s.thread ⟨wg, tidx⟩, s.wg wg with
    | some t, some w => (match t.status, w.foreign with
      | .transit pkg c done, none =>
        if c == w.core && pkg == s.pkg then s.cameTo { t with away := none, recalled := false } done else s
      | .transit pkg c _, some p => if c == w.core && pkg == p then s.sendCont w t p else s
      | _, _ => s)
    | _, _ => s)

/-- GUEST_EXIT_NOTIFY (R374): the thread counts as exited from now. -/
def execGuestExitNotify (wg tidx : Nat) (s : State) : Out1 :=
  .next (match s.thread ⟨wg, tidx⟩, s.wg wg with
    | some t, some w =>
      let ends : State := (s.setThread { t.atHome.ended with recalled := false }).settleArrivals
      (match t.status with
      | .exiting => if w.foreign.isSome then s.dropGuest t.key else ends
      | .gone => ends
      | _ => s)
    | _, _ => s)

/-- A recalled guest sets out for its origin, where it goes on at `pc`: its store queue drains, and its hop count is that of
the place where it is recalled (R236, R376, R382). -/
def State.recallFrom (s : State) (w : Workgroup) (t : Thread) (pc : Dword) (done : Option Dword) : State :=
  ((s.unqueue t.key).release (s.coreOf t) t.key).setThread
    { t.landLoads with pc, status := .transit (w.foreign.getD s.pkg) w.core done, seen := none }

/-- An operation leaves gq, and what other packages have answered for it with it. -/
def State.endStream (s : State) (op : Nat) : State :=
  { s with ops := s.ops.filter (fun x => x.id != op), peeks := s.peeks.filter (fun p => p.who != .op op) }

/-- Is a step of an operation on gq, or a thread's access, in progress at another package (R376)? -/
def State.asksAway (s : State) (t : Thread) : Bool :=
  s.replies.any (fun r => r.key == t.key)
  || (match t.status with
    | .blocked (.stream op) => s.txns.any (fun x => x.by' == .stream op || x.by' == .peek (.op op) false || x.by' == .peek (.op op) true)
    | _ => false)

/-- The message that recalls a guest on another package (R376, R430). -/
def State.sendRecall (s : State) (w : Workgroup) (t : Thread) (pkg : Nat) : State :=
  let port := s.portFor (dieOf w.core)
  { s.send pkg (vfOfCtx w.ctxn) (s.newTag (dieOf w.core) port) port (.recall w.ctxn w.lin t.tidx) with flits := s.flits + 1 }

/-- A guest that is ready, filed or blocked goes home, with the PC that R376 gives. -/
def State.recallNow (s : State) (w : Workgroup) (t : Thread) : State :=
  match t.status with
  | .blocked (.yield next) => s.recallFrom w t next (some t.pc)
  | .blocked (.stream op) => (s.recallFrom w t t.pc none).endStream op
  | .parked _ =>
    if w.foreign.isNone then (s.release (s.coreOf t) t.key).setThread { t with away := none } else s.recallFrom w t t.pc none
  | _ => s.recallFrom w t t.pc none

/-- Recall a guest (R376), once its writes have been performed and its accesses answered (R236, R395). Its stores drain, which
is the point of a held write that has been given up (R394, R395). A thread on another package is recalled by message, once. -/
def State.recall (s : State) (w : Workgroup) (t : Thread) : State :=
  let mayGo := match t.status with
    | .ready | .filed | .parked _ | .blocked (.yield _) | .blocked (.stream _) | .blocked (.gate _) => true
    | _ => false
  match t.status, t.away with
  | .gone, some a => if t.recalled then s else (s.sendRecall w t a.pkg).setThread { t with recalled := true }
  | _, _ =>
    if !mayGo || s.asksAway t || s.held.any (fun h => h.keys.contains t.key && !h.expired) then s
    else match t.late.find? (fun l => l.fault.code == 0x0B), t.status with
      | some _, .parked _ => s.recallNow w t
      | some l, _ =>
        ((s.unqueue t.key).setThread { t with late := t.late.erase l, seen := none }).raise (s.coreOf t) s.pkg t.insn [t.key] l.fault
      | none, _ => s.recallNow w t

/-- GUEST_RECALL (R376). -/
def execGuestRecall (wg tidx : Nat) (s : State) : Out1 :=
  .next (match s.thread ⟨wg, tidx⟩, s.wg wg with
    | some t, some w => if t.away.isSome then s.recall w t else s
    | _, _ => s)

/-- SLOT_WAIT_EXPIRY (R367 check 5): the instruction is taken up again and is refused. -/
def execSlotWaitExpiry (wg tidx : Nat) (s : State) : Out1 :=
  .next (match s.thread ⟨wg, tidx⟩ with
    | none => s
    | some t =>
      let mine := s.txns.any (fun x => x.by' == TxnBy.slot t.key)
      let waits := match t.status with
        | .data (.slot _) => true
        | .data (.txn ..) => mine
        | _ => false
      if waits then
        ({ s with txns := s.txns.filter (fun x => x.by' != TxnBy.slot t.key) }.setThread { t with seen := some [5] }).formGroup
          (s.coreOf t) [t.key]
      else s)

end Sys2Proof.Machine
end

