-- ==== Sys2Proof/Machine/Bind.lean ====
section
/-! DEFINITION. Binding workgroups to cores (R33, R36, R409 to R411), their start and their retirement (R38). -/

namespace Sys2Proof.Machine

/-! ## Starting -/

/-- A thread at the start of its workgroup (R29, R214, R306). A slice starts at the slice entry (R58). -/
def Thread.fresh (w : Workgroup) (tidx : Nat) : Thread :=
  let k := w.kernel
  let base : Dword := k.stack + k.stkz * (BitVec.ofNat 64 (w.lin.toNat * w.nthr + tidx))
  { wg := w.id, tidx, pc := if tidx == 0xFFFF then k.code + BitVec.ofNat 64 k.sentry else w.roleEntry 0
    v := Vector.replicate 128 0, p := 0, cur := Vector.replicate 8 0, win := [], stkbase := base, stklim := base + k.stkz
    stktop := base, trapvec := 0, trapcause := 0, epc := 0, srkey0 := 0, srkey1 := 0, srctr0 := 0, srctr1 := 0
    hnd := false, frec := 0, tag := 0, ftag := 0, vb := 0, vn := 0, ub := 0, un := 0, hops := 0, away := none, recalled := false, status := .filed
    loads := [], late := [], insn := 0, seen := none, arrived := [], took := false, pend := none, dbg := [] }

/-- The k registers of a new workgroup: those that PMASK names hold the parameter words (R33). -/
def paramRegs (k : Kernel) (params : List Dword) : KRegs :=
  Vector.ofFn (fun i : Fin 64 => if bit k.pmask i.val then params.getD i.val 0 else 0)

/-- A workgroup as it is bound: nothing of it has started. -/
def Workgroup.bound (id core slot : Nat) (r : BindRecord) (l : Launch) : Workgroup :=
  let k := paramRegs l.kernel l.params
  let w : Workgroup :=
    { id, core, slot, ctxn := r.ctxn.toNat, launch := r.launch, seq := r.seq.toNat, gang := 0, wgx := r.wgx, wgy := r.wgy
      wgz := r.wgz, nwgx := BitVec.ofNat 32 l.nwgx, nwgy := BitVec.ofNat 32 l.nwgy, nwgz := BitVec.ofNat 32 l.nwgz
      nthr := l.nthr, kernel := l.kernel, role := 0, k, ks := k, spad := [], spadSize := r.ssize.toNat, spadErr := []
      tiles := List.replicate l.kernel.tiles Tile.fresh, xlt := List.replicate 256 0, packets := [], mmas := 0
      sstepEn := false, sstepFrz := false, started := false, frozen := false, colls := [0, 0, 0, 0], foreign := none, own := [] }
  { w with gang := if l.kernel.gang == 0 then 0 else w.lin.toNat / l.kernel.gsize }

/-- A workgroup starts: its threads are filed and its slice is ready (R33, R42, R58). -/
def State.startWg (s : State) (w : Workgroup) : State :=
  let ts := (List.range w.nthr).map (Thread.fresh w) ++ (if w.kernel.slice then [Thread.fresh w 0xFFFF] else [])
  let s : State := { s with threads := s.threads ++ ts }
  ts.foldl (fun s t => s.fileThread t 0) (s.modWg w.id (fun w => { w with started := true }))

/-- Start the workgroups of a gang that are bound here. -/
def State.startHere (s : State) (w : Workgroup) : State :=
  ((s.gangHere w).filter (fun u => !u.started)).foldl (fun s u => s.startWg u) s

/-- May a gang start: is all of it bound, or has it started (R36)? -/
def State.gangReady (s : State) (w : Workgroup) : Bool :=
  w.kernel.gang == 0 || (s.gangHere w).length == w.gangSize || (s.gangHere w).any (·.started)

/-- Start a workgroup and its gang once all of it is bound (R36). -/
def State.startGang (s : State) (w : Workgroup) : State :=
  if !s.gangReady w then s
  else if w.kernel.gang == 0 then s.startWg w
  else s.startHere w

/-- May a gang have members on other packages: is its scope POD, and does PKGS name one (R36, R412)? -/
def State.gangSpans (s : State) (w : Workgroup) : Bool :=
  let pkgs := (s.vf (vfOfCtx w.ctxn)).hedge.pkgs
  w.kernel.gang == 5 && w.foreign.isNone && pkgs &&& ~~~(1#256 <<< s.pkg) != 0

/-- The POD gangs of which a part is bound here start once the rest is bound on the other packages, which is a free value (R36;
entry 2). -/
def State.settleGangs (s : State) : State :=
  (s.wgs.filter (fun w => !w.started && s.gangSpans w)).foldl
    (fun s w => if Config.podBound s.freeN then s.bump.startHere w else s.bump) s

/-! ## Binding -/

/-- The launch that a record names. -/
def State.launchOf (s : State) (r : BindRecord) : Option Launch :=
  s.launches.find? (fun l => l.ctxn == r.ctxn.toNat && l.no == r.launch)

/-- Do two ranges share a place? -/
def rangesMeet (a n b m : Nat) : Bool := a < b + m && b < a + n && n != 0 && m != 0

/-- Registers that a new workgroup takes (R53). -/
def Launch.regs (l : Launch) : Nat := ((l.kernel.roles.head?).map (·.regs)).getD 0 * l.nthr

/-- The valid records of a core with the registers that each holds now. -/
def State.recordsOf (s : State) (c : Core) : List (BindRecord × Nat) :=
  c.slots.map (fun x => (x.2.1, ((s.wg x.2.2).map (fun w => w.allot * w.nthr)).getD 0))
    ++ c.waiting.map (fun x => (x.2, ((s.launchOf x.2).map Launch.regs).getD 0))

/-- Threads that the workgroups of a core hold, bound or waiting to be (R16). -/
def State.threadsOn (s : State) (c : Core) : Nat :=
  (c.slots.map (fun x => ((s.wg x.2.2).map (·.nthr)).getD 0)).sum
    + (c.waiting.map (fun x => ((s.launchOf x.2).map (·.nthr)).getD 0)).sum

/-- Does a record meet another in registers, scratchpad or tile entries, or leave the core (R410)? -/
def State.rangesBad (s : State) (c : Core) (r : BindRecord) (regs tiles : Nat) : Bool :=
  262144 < r.rbase.toNat + regs || 524288 < r.sbase.toNat + r.ssize.toNat
  || 64 < r.tbase.toNat + r.tcount.toNat || r.tcount.toNat != tiles
  || (s.recordsOf c).any (fun x =>
      rangesMeet r.rbase.toNat regs x.1.rbase.toNat x.2
      || rangesMeet r.sbase.toNat r.ssize.toNat x.1.sbase.toNat x.1.ssize.toNat
      || rangesMeet r.tbase.toNat r.tcount.toNat x.1.tbase.toNat x.1.tcount.toNat)

/-- Is the core's hedge that of the record's context, and free of other contexts (R410, R411)? -/
def State.coreBad (s : State) (core : Nat) (r : BindRecord) : Bool :=
  let ctxn := r.ctxn.toNat
  1024 ≤ ctxn || !(s.hedgeCores (vfOfCtx ctxn) (dieOf core)).contains core
  || s.wgs.any (fun w => w.core == core && w.foreign.isNone && w.ctxn != ctxn)
  || (s.core core).reload.any (· != ctxn) || r.seq.toNat < (s.core core).seqMax

/-- Does the record name no workgroup that waits to be bound (R320 step 1, R415; entry 30)? -/
def State.nothingToBind (s : State) (r : BindRecord) (l : Launch) : Bool :=
  let lin := r.wgx.toNat + l.nwgx * (r.wgy.toNat + l.nwgy * r.wgz.toNat)
  l.nwgx ≤ r.wgx.toNat || l.nwgy ≤ r.wgy.toNat || l.nwgz ≤ r.wgz.toNat || l.bound.contains lin || l.cancelled
  || r.role != 0 || (s.ctx l.ctxn).shutter != .opened

/-- Why dispatch hardware rejects a record, if it does (R410). A core has 2,048 resident threads at most (R16); a record that
would exceed them is rejected as one whose ranges leave the core (entry 59). -/
def State.bindReason (s : State) (core : Nat) (r : BindRecord) : Option Nat :=
  if s.coreBad core r then some 1
  else match s.launchOf r with
    | none => some 3
    | some l =>
      if s.rangesBad (s.core core) r l.regs l.kernel.tiles || 2048 < s.threadsOn (s.core core) + l.nthr then some 2
      else if s.nothingToBind r l then some 3
      else none

/-- The record takes effect. -/
def State.bindNow (s : State) (core slot : Nat) (r : BindRecord) : State :=
  match s.launchOf r with
  | none => s
  | some l =>
    let w := Workgroup.bound s.fresh core slot r l
    let c := s.core core
    let s := s.setCore { c with slots := c.slots ++ [(slot, r, w.id)] }
    let s := s.modLaunch l.vf l.no (fun l => { l with bound := l.bound ++ [w.lin.toNat] })
    ({ s with wgs := s.wgs ++ [w], fresh := s.fresh + 1 }).startGang w

/-- A record that waited for the reload takes effect, unless the shutter has been closed meanwhile or its launch has been
cancelled: then no workgroup of the context is bound, and the slot stays free (R320 step 1, R415; entry 30). -/
def State.bindOpen (s : State) (core slot : Nat) (r : BindRecord) : State :=
  match s.launchOf r with
  | none => s
  | some l =>
    if (s.ctx l.ctxn).shutter != .opened || l.cancelled then
      s.logEvent 0x04 (dieOf core) (vfOfCtx l.ctxn) [core, slot, 3]
    else s.bindNow core slot r

/-- Is a slot of a core taken? -/
def Core.taken (c : Core) (slot : Nat) : Bool := c.slots.any (·.1 == slot) || c.waiting.any (·.1 == slot)

/-- Bind at once on a core whose context is loaded, or after the reload (R411). -/
def State.acceptBind (s : State) (core slot : Nat) (r : BindRecord) : State :=
  let c := { s.core core with seqMax := r.seq.toNat + 1 }
  if c.loaded == some r.ctxn.toNat && c.reload.isNone then (s.setCore c).bindNow core slot r
  else s.setCore { c with reload := some r.ctxn.toNat, waiting := c.waiting ++ [(slot, r)] }

/-- BIND_RECORD_WRITE (R409, R410): only a change of VALID from 0 to 1 binds. -/
def execBindRecordWrite (core slot : Nat) (r : BindRecord) (s : State) : Out1 :=
  .next (
    if !r.valid || 256 ≤ core || 16 ≤ slot || (s.core core).taken slot then s
    else match s.bindReason core r with
      | some n =>
        s.logEvent 0x04 (dieOf core) (if r.ctxn.toNat < 1024 then vfOfCtx r.ctxn.toNat else 0) [core, slot, n]
      | none => s.acceptBind core slot r)

/-- Is a core idle for a reload (R411 step 2)? -/
def State.coreIdle (s : State) (core : Nat) : Bool :=
  !(s.wgs.any (fun w => w.core == core && w.foreign.isNone)) && !(s.ops.any (fun o => o.core == core))
  && s.guests core == 0

/-- CORE_RELOAD (R331, R411): the context's tables and the agent's graph tables are read; then the binds that waited
take effect. -/
def execCoreReload (core : Nat) (s : State) : Out1 :=
  let c := s.core core
  .next (match c.reload with
    | none => s
    | some ctxn =>
      if !s.coreIdle core then s
      else
        let s := s.loadGraphs ctxn (dieOf core)
        let s := { s.setCore { c with loaded := some ctxn, reload := none, waiting := [] } with
          tlb := s.tlb.filter (fun x => x.core != some core) }
        c.waiting.foldl (fun s x => s.bindOpen core x.1 x.2) s)

/-! ## Retiring -/

/-- Free what a workgroup holds on its core, and forget its threads, waits and barriers (R38, R266). -/
def State.removeWg (s : State) (w : Workgroup) : State :=
  let s := (s.flushAll.freeGrant w.core (s.heldSlots w) (s.heldAccs w))
  let c := s.core w.core
  let s := s.setCore { c with slots := c.slots.filter (fun x => x.2.2 != w.id) }
  let mine (k : Key) : Bool := k.wg == w.id
  let s : State := { s with
    groups := (s.groups.map (fun g => { g with threads := g.threads.filter (!mine ·) })).filter (!·.threads.isEmpty)
    bins := s.bins.filter (fun b => b.wg != w.id)
    overflow := s.overflow.filter (fun o => !mine o.key)
    claims := s.claims.filter (fun x => x.wg != w.id)
    grows := s.grows.filter (fun x => x.wg != w.id)
    kloads := s.kloads.filter (fun x => x.wg != w.id)
    joins := s.joins.filter (fun j => !(j.waiting ++ j.mates ++ j.faulty).any mine)
    bars := (s.bars.filter (fun b => !(b.key.scope == 1 && b.key.owner.1 == w.id))).map (fun b =>
      { b with arrived := b.arrived.filter (!mine ·) })
    threads := s.threads.filter (fun t => t.wg != w.id)
    wgs := s.wgs.filter (fun x => x.id != w.id) }
  let s := s.refillAll
  if s.wgs.any (fun u => u.foreign.isNone && u.ctxn == w.ctxn && u.launch == w.launch && u.gang == w.gang) then s
  else { s with bars := s.bars.filter (fun b => b.key.owner != (vfOfCtx w.ctxn, w.launch.toNat, w.gang)) }

/-- May a workgroup retire: has its last thread exited, and have its queued operations completed (R38)? -/
def State.canRetire (s : State) (w : Workgroup) : Bool :=
  w.started && w.foreign.isNone && (s.live w.id).isEmpty && !(s.ops.any (fun o => o.wg == w.id))

/-- WORKGROUP_RETIRE (R38, R407). -/
def execWorkgroupRetire (wg : Nat) (s : State) : Out1 :=
  .next (match s.wg wg with
    | none => s
    | some w =>
      if s.canRetire w then ((s.removeWg w).countRetired (vfOfCtx w.ctxn) w.launch).settleArrivals
      else s)

end Sys2Proof.Machine
end

