-- ==== Sys2Proof/Machine/Engine.lean ====
section
/-! DEFINITION. The engines at work: copies (R242, R248, R251, R397, R398), the matrix array (R130 to R132, R275, R296)
and the other operations of the matrix queue (R283). -/

namespace Sys2Proof.Machine

/-! ## Moving bytes -/

/-- Who moves bytes: the writer of its writes, its function, core and workgroup, its conversion table, and the SEM of its
requests to other packages. A front end stands on die 0 (R19). -/
structure Mover where
  writer : Writer
  vf : Nat
  core : Nat
  wg : Option Nat
  xlt : Option (List (BitVec 16))
  sem : BitVec 2 := 0

/-- What a transaction of a mover serves: the read of a move, or a write of some nibbles. -/
def Mover.txn (m : Mover) (move : Option Nat) (nibs : Nat) : TxnBy :=
  match m.writer with
  | .engine _ op => .engine op move nibs
  | .frontEnd vf c => .command vf c move none
  | _ => .engine 0 move nibs

/-- Bytes at a place; none where they cannot be read (R242, R396, R425, R443). -/
def State.readPlace (s : State) (m : Mover) (loc : Loc) (n : Nat) : Option (List Byte) :=
  let die := dieOf m.core
  match loc with
  | .main pa => if s.reaches die (homeDie pa) then s.physRead pa n else none
  | .rod pa =>
    if s.reaches die (homeDie pa) || (s.replica die (pa / 64)).isSome then (s.rodRead die pa n).map (·.2) else none
  | .host c pa => s.readHost die c pa n
  | .spad off => (m.wg.bind s.wg).bind (fun w => if w.spadBad off n then none else some (memGetN w.spad off n))
  | .wst d off => if s.eccAt .wst (d * 2 ^ 29 + off) n then none else some (memGetN s.wst (d * 2 ^ 29 + off) n)
  | .slot off =>
    if s.eccAt .slot (m.core * 2 ^ 20 + off) n then none else some (memGetN s.opmem (m.core * 2 ^ 20 + off) n)
  | .rawData pa => if s.poisonAt pa n then none else some (((s.rawGranules (pa / 1024)).drop (pa % 1024)).take n)
  | .rawMeta pa => some (((natLe 4 (s.rawWord (pa / 1024)).toNat).drop (pa % 1024)).take n)
  | .lit d => some d
  | _ => none

/-- Log the bytes that a mover could not read (R396, R440, R443). -/
def State.logPlace (s : State) (m : Mover) : Loc → State
  | .main pa => if s.reaches (dieOf m.core) (homeDie pa) then s.logBad m.vf pa else s
  | .rod pa => if s.reaches (dieOf m.core) (homeDie pa) then s.logBad m.vf pa else s
  | .rawData pa => s.logBad m.vf pa
  | .spad off => s.logEcc .spad (dieOf m.core) m.vf off
  | .wst d off => s.logEcc .wst d m.vf off
  | .slot off => s.logEcc .operand (dieOf m.core) m.vf off
  | _ => s

/-- What a move makes of the bytes of its source: a table entry, a nibble, or the bytes (R248). -/
def Mover.convert (m : Mover) (mv : Move) (b : List Byte) : List Byte :=
  let x := leNat b
  match m.xlt, mv.srcHalf with
  | some t, _ => natLe 2 (t.getD x 0).toNat
  | none, some hi => [BitVec.ofNat 8 (if hi then x / 16 else x % 16)]
  | none, none => b

/-- The bytes of a source of which some cannot be read: those are zero (R242, R406). -/
def State.patchy (s : State) (m : Mover) (loc : Loc) (n : Nat) : List Byte :=
  (List.range n).map (fun i => ((s.readPlace m (loc.next i) 1).bind (·[0]?)).getD 0)

/-- The value that a move writes, and whether its source could not be read whole. -/
def State.moveValue (s : State) (m : Mover) (mv : Move) : List Byte × Bool :=
  match mv.src with
  | none => (natLe (if m.xlt.isSome then 2 else mv.size) mv.pad, false)
  | some loc =>
    match s.readPlace m loc mv.size with
    | some b => (m.convert mv b, false)
    | none => (if m.xlt.isSome then [0, 0] else m.convert mv (s.patchy m loc mv.size), true)

/-- Nibbles that a move writes, or skips (R242, R248). -/
def Mover.nibs (m : Mover) (mv : Move) : Nat :=
  if m.xlt.isSome then 4 else if mv.srcHalf.isSome || mv.dstHalf.isSome then 1 else 2 * mv.size

/-- What a write of a mover came to: the state, the ERR it causes (0 none), and whether its outcome is still to come: it is
held, or its request is on its way. -/
structure Put where
  s : State
  err : Nat := 0
  later : Bool := false

/-- The write of a value: whole bytes, or one nibble. -/
def moveOp (half : Option Bool) (b : List Byte) : MemOp :=
  match half with
  | some hi => .nibble hi (leNat b)
  | none => .store b

/-- A write inside a block that may be held (R392, R394). -/
def State.putMain (s : State) (m : Mover) (pa : Nat) (op : MemOp) : Put :=
  if !s.reaches (dieOf m.core) (homeDie pa) then { s, err := 1 }
  else match s.bumpId.attempt (s.newHeld m.vf m.writer [] pa op none (0, 0, 0)) with
  | .done s _ => { s }
  | .bad s => { s, err := 1 }
  | .held s _ => { s, later := true }

/-- Apply a write to bytes of a memory. -/
def putBytes (mem : Memory) (a : Nat) (op : MemOp) : Memory :=
  (op.apply (memGetN mem a op.len)).elim mem (memSetN mem a)

/-- The metadata word with some of its bytes replaced (R398). -/
def State.metaWith (s : State) (pa : Nat) (b : List Byte) : Word :=
  BitVec.ofNat 32 (leNat (putAt (natLe 4 (s.metaOf (pa / 1024)).toNat) (pa % 1024) b))

/-- Request a write at another package. One of a nibble reads the aligned word of its byte, and then compares and swaps it
until it has been the only writer (R248; entry 31). -/
def State.putRemote (s : State) (m : Mover) (pkg pa nibs : Nat) (half : Option Bool) (b : List Byte) : Put :=
  let die := dieOf m.core
  if !s.portsFrom die then { s, err := 1 }
  else match half, m.writer with
    | some hi, .engine _ op =>
      { s := (s.request pkg m.vf die (.read (BitVec.ofNat 64 (pa / 4 * 4)) 4 0) (.nibble op pa hi (leNat b) none)).1, later := true }
    | _, _ => { s := (s.request pkg m.vf die (.write (BitVec.ofNat 64 pa) m.sem b) (m.txn none nibs)).1, later := true }

/-- Write at a place a value of some nibbles. -/
def State.putPlace (s : State) (m : Mover) (loc : Loc) (nibs : Nat) (half : Option Bool) (b : List Byte) : Put :=
  let op := moveOp half b
  match loc with
  | .main pa => s.putMain m pa op
  | .host c pa =>
    if s.hostFrom (dieOf m.core) then
      { s := (op.apply (s.hostBytes (hostAs c) pa op.len)).elim s (s.putHost (hostAs c) pa) }
    else { s, err := 1 }
  | .remote pkg pa => s.putRemote m pkg pa nibs half b
  | .spad off => (match m.wg with
      | some w => { s := s.modWg w (fun w => (op.apply (memGetN w.spad off op.len)).elim w (w.spadPut off)) }
      | none => { s })
  | .wst die off =>
    if !s.reaches (dieOf m.core) die then { s, err := 1 }
    else { s := { s.eccClear .wst (die * 2 ^ 29 + off) op.len with wst := putBytes s.wst (die * 2 ^ 29 + off) op } }
  | .slot off => { s := { s.eccClear .slot (m.core * 2 ^ 20 + off) op.len with opmem := putBytes s.opmem (m.core * 2 ^ 20 + off) op } }
  | .rawData pa => s.putMain m (pa / 1024 * 1024) (.setGran (pa % 1024) b)
  | .rawMeta pa => s.putMain m (pa / 1024 * 1024) (.setMeta (s.metaWith pa b))
  | _ => { s }

/-! ## A copy, write by write -/

/-- The compressible block that a move writes. -/
def State.blockOf (s : State) (mv : Move) : Option Nat :=
  match mv.dst with
  | some (.main pa) => if s.isCmp pa then some (pa / 1024) else none
  | _ => none

/-- Does a move belong to the write that `a` begins? The moves to one block are one write (R454), and the two nibbles of a
byte are one (R248). -/
def State.sameWrite (s : State) (a b : Move) : Bool :=
  match s.blockOf a with
  | some n => s.blockOf b == some n
  | none => a.dstHalf == some false && b.dstHalf == some true && a.dst.isSome && a.dst == b.dst

/-- Does a move replace a nibble of a byte that cannot be read? The whole byte is then written, as zero (R242). -/
def State.lostByte (s : State) (m : Mover) (mv : Move) : Bool :=
  mv.dstHalf.isSome && (match mv.dst with
    | some (.remote _ _) => false
    | some l => (s.readPlace m l 1).isNone
    | none => false)

/-- What a move writes: whole bytes, or one nibble. -/
def State.written (s : State) (m : Mover) (mv : Move) : Option Bool × List Byte :=
  if s.lostByte m mv then (none, [0]) else (mv.dstHalf, (s.moveValue m mv).1)

/-- A piece of a patch. -/
def State.piece (s : State) (m : Mover) (mv : Move) : Nat × Option Bool × List Byte :=
  (match mv.dst with | some (.main pa) => pa % 1024 | _ => 0, s.written m mv)

/-- Read the source of a move: a replica is made where the ROD path needs one (R184), and what cannot be read is logged, with
ERR 0x1 (R242, R396). -/
def State.readSource (s : State) (m : Mover) (mv : Move) : State × Nat :=
  let r : State := match mv.src with
    | some (.rod pa) => ((s.rodRead (dieOf m.core) pa mv.size).map (·.1)).getD s
    | _ => s
  if (s.moveValue m mv).2 then (r.logPlace m (mv.src.getD .fifo), 1) else (r, 0)

/-- Read the sources of moves. -/
def State.readSources (s : State) (m : Mover) (ms : List Move) : State × Nat :=
  ms.foldl (fun (a : State × Nat) mv => let x := a.1.readSource m mv; (x.1, nextErr a.2 x.2)) (s, 0)

/-- What a mover's write, or what it could not read, comes to at once: bytes arrive at an engine's tile, and a command ends
badly (R242, R394, R406, R407). -/
def State.moved (s : State) (m : Mover) (nibs err : Nat) : State :=
  match m.writer with
  | .engine _ op => s.opArrives op nibs err
  | .frontEnd vf c => if err == 0 then s else s.worsen vf c 7
  | _ => s

/-- Perform one write of a copy, the moves that it consists of given (R242, R248, R454). A skipped element only counts. -/
def State.onePart (s : State) (m : Mover) (part : List Move) : State :=
  match part with
  | [] => s
  | mv :: rest =>
    let nibs := (part.map m.nibs).sum
    match mv.dst with
    | none => s.moved m nibs 0
    | some loc =>
      let r := s.readSources m part
      let p : Put := match s.blockOf mv, rest with
        | some b, _ => r.1.putMain m (1024 * b) (.patch (part.map (s.piece m)))
        | none, [x] => r.1.putPlace m loc nibs none
            [BitVec.ofNat 8 (leNat (s.moveValue m mv).1 % 16 + 16 * (leNat (s.moveValue m x).1 % 16))]
        | none, _ => r.1.putPlace m loc nibs (s.written m mv).1 (s.written m mv).2
      let lost := ((s.blockOf mv).isSome || rest.isEmpty) && part.any (s.lostByte m)
      p.s.moved m (if p.later then 0 else nibs) (nextErr (if lost then 1 else r.2) p.err)

/-- Perform moves in order, write by write: one that is held delays no other (R454). `fuel` bounds the writes. -/
def State.runMoves (m : Mover) : Nat → State → List Move → State
  | 0, s, _ => s
  | _, s, [] => s
  | fuel + 1, s, mv :: r =>
    let n := if (s.blockOf mv).isSome then (r.takeWhile (s.sameWrite mv)).length else ((r.take 1).takeWhile (s.sameWrite mv)).length
    State.runMoves m fuel (s.onePart m (mv :: r.take n)) (r.drop n)

/-- Perform all of a list of moves. -/
def State.moveAll (s : State) (m : Mover) (ms : List Move) : State := State.runMoves m ms.length s ms

/-- Is an address of another package one of its RAW windows (R397, R431)? -/
def rawPa (pa : Nat) : Bool := pa.testBit 63

/-- The granule, or the metadata word, of an address in a RAW window (R397, R398): its place and size. -/
def rawUnit (pa : Nat) : Nat × Nat := if pa.testBit 62 then (pa / 4 * 4, 4) else (pa / 64 * 64, 64)

/-- The RAW granules and metadata words of other packages that moves of an operation read, each once: one read of such a unit is
one access (R398). -/
def rawUnits (ms : List Move) : List (Nat × Nat × Nat) :=
  (ms.filterMap (fun mv => match mv.src with
    | some (.remote pkg pa) => if rawPa pa then some (pkg, rawUnit pa) else none
    | _ => none)).dedup

/-- Ask for a source on another package. -/
def State.askMove (s : State) (m : Mover) (i : Nat) (mv : Move) : State :=
  match mv.src, m.writer with
  | some (.remote pkg pa), .engine _ _ =>
    if rawPa pa then s else (s.request pkg m.vf (dieOf m.core) (.read (BitVec.ofNat 64 pa) mv.size m.sem) (m.txn (some i) 0)).1
  | some (.remote pkg pa), _ => (s.request pkg m.vf (dieOf m.core) (.read (BitVec.ofNat 64 pa) mv.size m.sem) (m.txn (some i) 0)).1
  | _, _ => s

/-- Ask for the sources on other packages; with no port in reach they are unreadable (R425, R428, R430, R431). -/
def State.requestMoves (s : State) (m : Mover) (ms : List Move) : State :=
  if !s.portsFrom (dieOf m.core) then s
  else
    let s := (ms.foldl (fun (a : State × Nat) mv => (a.1.askMove m a.2 mv, a.2 + 1)) (s, 0)).1
    match m.writer with
    | .engine _ op => (rawUnits ms).foldl (fun s u =>
        (s.request u.1 m.vf (dieOf m.core) (.read (BitVec.ofNat 64 u.2.1) u.2.2 m.sem) (.granule op u.2.1 u.2.2)).1) s
    | _ => s

/-- Have the sources on other packages been asked for, or do they remain to be? -/
def needRemote (ms : List Move) : Bool := ms.any (fun mv => match mv.src with | some (.remote _ _) => true | _ => false)

/-! ## Operations of a queue -/

/-- The oldest operation on a queue of a core (R251, R276). -/
def State.headOp (s : State) (core q : Nat) : Option Op := s.ops.find? (fun o => o.core == core && o.q == q)

/-- Does a transaction serve an operation of a queue? -/
def TxnBy.serves (b : TxnBy) (id : Nat) : Bool :=
  match b with
  | .engine op _ _ => op == id
  | .nibble op _ _ _ _ => op == id
  | .granule op _ _ => op == id
  | _ => false

/-- Does an operation wait for another package or for a held write? -/
def State.opWaits (s : State) (o : Op) : Bool :=
  s.txns.any (fun t => t.by'.serves o.id)
  || s.held.any (fun h => h.by' == .engine o.core o.id)

/-- The function of an operation. -/
def State.opFn (s : State) (o : Op) : Nat := ((s.wg o.wg).map (fun w => vfOfCtx w.ctxn)).getD 0

/-- The mover of an operation. -/
def Op.mover (o : Op) (ctxn : Nat) (x : Option (List (BitVec 16))) : Mover :=
  { writer := .engine o.core o.id, vf := vfOfCtx ctxn, core := o.core, wg := some o.wg, xlt := x }

/-- An operation has completed: a DRAINING tile that nothing reads any more becomes EMPTY (R240). -/
def State.endOp (s : State) (o : Op) (reads : List Nat) : State :=
  let s : State := { s with ops := s.ops.filter (fun x => x.id != o.id) }
  reads.foldl (fun s n =>
    if (s.wg o.wg).any (fun w => w.tileIs n .draining) && !s.tileRead o.wg n then s.emptyTile o.wg n else s) s

/-- Start an operation, and ask for what it reads on other packages. -/
def State.startOp (s : State) (o : Op) : State :=
  let s := s.setOp { o with started := true }
  match o.body, s.wg o.wg with
  | .copy ms x _ _ _ _ _ _ _, some w => s.requestMoves (o.mover w.ctxn x) ms
  | _, _ => s

/-- Room in the scale FIFO of a core (R16, R248). -/
def State.fifoRoom (s : State) (core n : Nat) : Bool :=
  decide (((s.wgs.filter (fun w => w.core == core)).flatMap (fun w => w.packets.map (fun p => p.bytes.length))).sum + n ≤ 8192)

/-- A copy ends: OOR grows (R250; DESIGN CHOICE entry 63: at the end, not by occurrence), and the bytes that have not been
counted arrive (R242, R248). -/
def State.endCopy (s : State) (o : Op) (err dtile ctile : Nat) (out : Bool) (bytes oor : Nat) : State :=
  let s := s.modTile o.wg dtile (fun t => { t with oor := min 0xFFFF (t.oor + oor) })
  (s.arrive o.wg ctile (bytes - o.counted / 2) err).endOp o (if out then [dtile] else [])

/-- A copy with SCL pushes its packet whole, once there is room (R248, R271). -/
def State.pushPacket (s : State) (o : Op) (m : Mover) (ms : List Move) (tile : Nat) (stag : BitVec 16) (bytes oor : Nat) : State :=
  if !s.fifoRoom o.core bytes then s
  else
    let r := s.readSources m ms
    let b := ms.flatMap (fun mv => (s.moveValue m mv).1)
    let s := r.1.modWg o.wg (fun w => { w with packets := w.packets ++ [⟨tile, stag, b, none⟩] })
    s.endCopy o (nextErr o.err r.2) tile tile false bytes oor

/-- Run a copy that has started and waits for nothing: each of its writes is attempted, and it ends once none is still to
come. -/
def State.runCopy (s : State) (o : Op) : State :=
  match o.body, s.wg o.wg with
  | .copy ms x dtile ctile out scl stag bytes oor, some w =>
    let m := o.mover w.ctxn x
    if scl then s.pushPacket o m ms dtile stag bytes oor
    else
      let s := (s.setOp { o with body := .copy [] x dtile ctile out scl stag bytes oor }).moveAll m ms
      match s.ops.find? (fun y => y.id == o.id) with
      | some o => if s.opWaits o then s else s.endCopy o 0 dtile ctile out bytes oor
      | none => s
  | _, _ => s

/-- COPY_START (R251). -/
def execCopyStart (core q : Nat) (s : State) : Out1 :=
  .next (if 4 ≤ q then s
    else match s.headOp core q with
      | some o => if o.started then s else s.startOp o
      | none => s)

/-- The copy that COPY_COMPLETE acts on: the head of q0 to q3, or a collective's that still has writes (queue 6). -/
def State.dueCopy (s : State) (core q : Nat) : Option Op :=
  if q < 4 then (s.headOp core q).filter (fun o => o.started && !s.opWaits o)
  else if q == 6 then s.ops.find? (fun o => o.core == core && o.q == 6 && o.started && !s.opWaits o)
  else none

/-- COPY_COMPLETE (R242). -/
def execCopyComplete (core q : Nat) (s : State) : Out1 :=
  .next (match s.dueCopy core q with
    | some o => s.runCopy o
    | none => s)

/-! ## The matrix array -/

/-- Floor(|v| / 2^e) with the sign of v (R131). -/
def windowTerm (e : Int) : Num → Int
  | .fin s n d =>
    let x := scale2 n d (-e)
    let m : Int := (x.1 / x.2 : Nat)
    if s then -m else m
  | _ => 0

/-- The largest exponent of the nonzero addends. -/
def maxExp : List Num → Option Int
  | [] => none
  | .fin _ n d :: r =>
    if n == 0 then maxExp r
    else some (match maxExp r with | some e => max e (ilog2 n d) | none => ilog2 n d)
  | _ :: r => maxExp r

/-- Is an addend an infinity of a sign? -/
def isInf (neg : Bool) (x : Num) : Bool := x == .inf neg

/-- The sum of a chunk (R131), as FP32 bits. -/
def chunkSum (l : List Num) : Nat :=
  if l.any (· == .nan) || (l.any (isInf true) && l.any (isInf false)) then Fmt.fp32.canon
  else if l.any (isInf true) then 0xFF800000
  else if l.any (isInf false) then 0x7F800000
  else match maxExp l with
    | none => 0
    | some e =>
      let w := (l.map (windowTerm (e - 49))).sum
      if w == 0 then 0
      else Fmt.fp32.clampEncode 0 (Fmt.fp32.round 0 0 (Num.scale (e - 49) (Num.ofInt w)))

/-- Update an FP32 accumulator by chunks (R131). -/
def chunksFp (c : Nat) : List (List Num) → Nat
  | [] => c
  | p :: r => chunksFp (chunkSum (p ++ [Fmt.fp32.decode c])) r

/-- An entry of operand memory at a row and K index (R270): CB4 takes a nibble. -/
def State.operand (s : State) (core slot row k fmt : Nat) : Nat :=
  let base := core * 2 ^ 20 + slot * 16384 + row * 256
  if fmt == 9 then
    let x := (memGet s.opmem (base + k / 2)).toNat
    if k % 2 == 1 then x / 16 else x % 16
  else leNat (memGetN s.opmem (base + k * elemBytes fmt) (elemBytes fmt))

/-- The scale of a row or column at a K index; 1 without scales (R130, R272). -/
def scaleAt (r : Option ScaleRef) (kk row k : Nat) : Num :=
  match r with
  | none => .fin false 1 1
  | some x => e8m0 (x.bytes.getD (row * ((kk + x.blk - 1) / x.blk) + k / x.blk) 0).toNat

/-- The exact product of two operand entries with their scales (R130). -/
def MmaOp.product (m : MmaOp) (a b : Nat) (sa sb : Num) : Num :=
  let p := Num.mul (elemValue m.fmtA m.cbA a) (elemValue m.fmtB m.cbB b)
  let p := if m.fmtA == 9 then Fmt.fp32.decode (Fmt.fp32.clampEncode 0 (Fmt.fp32.round 0 0 p)) else p
  Num.mul (Num.mul p sa) sb

/-- The K indices of a chunk that an operation multiplies, with the column of A: all 16, or those that the keep-masks
keep, packed (R289, R296). -/
def MmaOp.chunk (m : MmaOp) (row h : Nat) : List (Nat × Nat) :=
  match m.sparse with
  | none => (List.range 16).map (fun j => (16 * h + j, 16 * h + j))
  | some (_, masks) =>
    (([2 * h, 2 * h + 1].filter (· < m.kch)).flatMap (fun g =>
      let bits' := (masks.getD (row * m.kch + g) 0).toNat
      let kept := (List.range 8).filter (fun j => bits'.testBit j)
      (List.range kept.length).map (fun i => (4 * g + i, 8 * g + kept.getD i 0))))

/-- Chunks of an operation (R269, R296). -/
def MmaOp.chunks (m : MmaOp) : Nat := if m.sparse.isSome then (m.kch + 1) / 2 else m.kch

/-- The new accumulator word of row `r` (of the strip, for MMAS) and column `n` (R131, R132, R275, R296). -/
def State.mmaWord (s : State) (core : Nat) (m : MmaOp) (r n old : Nat) : Nat :=
  let kk := 16 * m.kch
  let ent (k : Nat × Nat) : Nat × Nat :=
    (s.operand core m.aslot r k.1 m.fmtA, s.operand core (m.bslot + n / 64) (n % 64) k.2 m.fmtB)
  let c := if m.ovw then 0 else old
  let ks := (List.range m.chunks).map (m.chunk r)
  if m.fmtA == 5 then
    let sum : Int := (ks.flatten.map (fun k =>
      let x := ent k
      (BitVec.ofNat 8 x.1).toInt * (BitVec.ofNat 8 x.2).toInt)).sum
    (BitVec.ofInt 32 ((c : Int) + sum)).toNat
  else
    chunksFp c (ks.map (fun ch => ch.map (fun k =>
      let x := ent k
      m.product x.1 x.2 (scaleAt m.scaleA kk r k.1) (scaleAt m.scaleB kk n k.2))))

/-- The address of an accumulator word (R266). -/
def accAddr (core acc i : Nat) : Nat := core * 2 ^ 18 + acc * 32768 + 4 * i

/-- Bytes of one row of operands. -/
def rowBytes (fmt n : Nat) : Nat := if fmt == 9 then n / 2 else n * elemBytes fmt

/-- Does something that a word is computed from hold an uncorrectable error (R242, R443)? DESIGN CHOICE (entry 70): of an MMAS all
8 × G elements of a row of B count, those at pruned positions too. -/
def State.mmaBad (s : State) (core : Nat) (m : MmaOp) (r n a : Nat) : Bool :=
  let kk := 16 * m.kch
  s.eccAt .slot (core * 2 ^ 20 + m.aslot * 16384 + r * 256) (rowBytes m.fmtA (if m.sparse.isSome then kk / 4 else kk))
  || s.eccAt .slot (core * 2 ^ 20 + (m.bslot + n / 64) * 16384 + n % 64 * 256) (rowBytes m.fmtB (if m.sparse.isSome then kk / 2 else kk))
  || (!m.ovw && s.eccAt .acc a 4)

/-- Rows of an operation. -/
def MmaOp.rows (m : MmaOp) : Nat := if m.sparse.isSome then 16 else 64

/-- The place of word `i` of an operation. -/
def MmaOp.place (m : MmaOp) (core i : Nat) : Nat :=
  accAddr core m.acc (((m.sparse.map (fun x => 16 * x.1)).getD 0 + i / 128) * 128 + i % 128)

/-- Did an operation read an uncorrectable error? -/
def State.mmaErr (s : State) (core : Nat) (m : MmaOp) : Bool :=
  !s.ecc.isEmpty && (List.range (m.rows * 128)).any (fun i => s.mmaBad core m (i / 128) (i % 128) (m.place core i))

/-- All words that an operation writes: zero, every one, where it read an error (R242, R275). -/
def State.mmaRun (s : State) (core : Nat) (m : MmaOp) : Memory :=
  let bad := s.mmaErr core m
  (List.range (m.rows * 128)).foldl (fun mem i =>
    let a := m.place core i
    memSetN mem a (if bad then [0, 0, 0, 0]
      else natLe 4 (s.mmaWord core m (i / 128) (i % 128) (leNat (memGetN s.accmem a 4))))) s.accmem

/-- MMA_START (R275, R276). -/
def execMmaStart (core : Nat) (s : State) : Out1 :=
  .next (match s.headOp core 4 with
    | some o => (match o.body with | .mma _ => s.setOp { o with started := true } | _ => s)
    | none => s)

/-- Tiles that a matrix operation reads (R240, R275). -/
def MmaOp.tiles (m : MmaOp) : List Nat := [m.atile, m.btile] ++ m.stile.toList

/-- The packets of an operation leave the FIFO (R271). -/
def State.freePackets (s : State) (o : Op) : State :=
  s.modWg o.wg (fun w => { w with packets := w.packets.filter (fun p => p.reserved != some o.id) })

/-- MMA_COMPLETE (R275, R296). -/
def execMmaComplete (core : Nat) (s : State) : Out1 :=
  .next (match s.headOp core 4 with
    | some o => (match o.body with
      | .mma m =>
        if !o.started then s
        else
          let bad := s.mmaErr core m
          let err := if bad then nextErr o.err 1 else o.err
          let s := (List.range (m.rows * 128)).foldl (fun s i => s.eccClear .acc (m.place core i) 4) { s with accmem := s.mmaRun core m }
          let s := if bad then s.logEcc .operand (dieOf core) (s.opFn o) (m.aslot * 16384) else s
          (((s.freePackets o).arrive o.wg m.ctile 64 err).endOp o m.tiles)
      | _ => s)
    | none => s)

/-! ## The other operations of the matrix queue -/

/-- An accumulator word; zero where it holds an uncorrectable error (R242). -/
def State.accWord (s : State) (core acc i : Nat) : Nat :=
  if s.eccAt .acc (accAddr core acc i) 4 then 0 else leNat (memGetN s.accmem (accAddr core acc i) 4)

/-- The accumulator words as bytes. -/
def State.accBytes (s : State) (core acc : Nat) : List Byte :=
  (List.range 8192).flatMap (fun i => natLe 4 (s.accWord core acc i))

/-- ERR of an operation that reads an accumulator tile. -/
def State.accErr (s : State) (core acc : Nat) : Nat := if s.eccAt .acc (accAddr core acc 0) 32768 then 1 else 0

/-- Log the error of an accumulator tile that an operation reads (R440). -/
def State.logAcc (s : State) (o : Op) (acc : Nat) : State :=
  if s.accErr o.core acc == 0 then s else s.logEcc .accum (dieOf o.core) (s.opFn o) (acc * 32768)

/-- The word of a rounding block for element `i` of an ACCCVT (R128, R283). -/
def cvtWord (w : Workgroup) (issuer : Nat) (key0 key1 ctr0 ctr1 : Word) (i : Nat) : Word :=
  let c : Dword := (ctr1 ++ ctr0) + BitVec.ofNat 64 (i / 4)
  (philox (c.setWidth 32) ((c >>> 32).setWidth 32) (BitVec.ofNat 32 issuer) w.lin key0 key1).getD (i % 4) 0

/-- An element of an ACCCVT (R283). -/
def cvtElem (src : Bool) (fmt : Nat) (dscl : BitVec 5) (clamp : BitVec 2) (rm : BitVec 3) (r : Word) (x : Nat) : Nat :=
  let v := if src then Num.ofInt (BitVec.ofNat 32 x).toInt else Fmt.fp32.decode x
  match fpFmt fmt with
  | some f => f.clampEncode clamp (f.round rm r (v.scale dscl.toInt))
  | none => (BitVec.ofInt 8 (clampInt clamp (toIntFmt 8 rm r v))).toNat

/-- Store bytes into a tile's range. -/
def State.storeTile (s : State) (o : Op) (tile off : Nat) (b : List Byte) : State :=
  match (s.wg o.wg).bind (fun w => w.tile tile) with
  | none => s
  | some t => match tileLoc t off with
    | .spad a => s.modWg o.wg (fun w => w.spadPut a b)
    | .slot a => { s.eccClear .slot (o.core * 2 ^ 20 + a) b.length with opmem := memSetN s.opmem (o.core * 2 ^ 20 + a) b }
    | _ => s

/-- The effect of an operation (R283). -/
def State.mqRun (s : State) (o : Op) : State :=
  match o.body, s.wg o.wg with
  | .accz a, _ =>
    ({ s.eccClear .acc (accAddr o.core a 0) 32768 with accmem := memDrop s.accmem (accAddr o.core a 0) 32768 } : State).endOp o []
  | .accld a tile off, some w =>
    let at' := 64 * ((w.tile tile).map (·.base)).getD 0 + off
    let b := (List.range 32768).map (fun i => if w.spadBad (at' + i) 1 then 0 else memGet w.spad (at' + i))
    let s := if w.spadBad at' 32768 then
        (s.modTile o.wg tile (fun t => { t with err := nextErr t.err 1 })).logEcc .spad (dieOf o.core) (vfOfCtx w.ctxn) at'
      else s
    ({ s.eccClear .acc (accAddr o.core a 0) 32768 with accmem := memSetN s.accmem (accAddr o.core a 0) b } : State).endOp o [tile]
  | .accst a tile off, _ =>
    (((s.logAcc o a).storeTile o tile off (s.accBytes o.core a)).arrive o.wg tile 32768 (s.accErr o.core a)).endOp o []
  | .acccvt a tile off src fmt dscl clamp rm k0 k1 c0 c1, some w =>
    let n := elemBytes fmt.toNat
    let b := (List.range 8192).flatMap (fun i =>
      natLe n (cvtElem src fmt.toNat dscl clamp rm (if rm == 5 then cvtWord w o.issuer k0 k1 c0 c1 i else 0)
        (s.accWord o.core a i)))
    (((s.logAcc o a).storeTile o tile off b).arrive o.wg tile (8192 * n) (s.accErr o.core a)).endOp o []
  | _, _ => s

/-- MQ_OP_COMPLETE (R283). -/
def execMqOpComplete (core : Nat) (s : State) : Out1 :=
  .next (match s.headOp core 4 with
    | some o => s.mqRun o
    | none => s)

end Sys2Proof.Machine
end

