-- ==== Sys2Proof/Machine/Compress.lean ====
section
/-! DEFINITION. Events of compressed memory: a write at the Topiary engine (R390, R454), balloon requests (R455), and held
writes that are given up (R392, R394). -/

namespace Sys2Proof.Machine

/-- The threads that a writer acts for. -/
def writerKeys : Writer → List Key
  | .thread wg tidx => [⟨wg, tidx⟩]
  | _ => []

/-- A write of an agent to one block: its writer fails where the block is malformed (R396). -/
def State.blockWrite (s : State) (vf : Nat) (w : Writer) (pa : Nat) (b : List Byte) : State :=
  let h := s.newHeld vf w (writerKeys w) pa (.store b) none (0, 0, BitVec.ofNat 128 pa)
  match s.bumpId.attempt h with
  | .done s old => s.heldDone h old
  | .held s _ => s
  | .bad s => s.heldBad h

/-- TOPIARY_WRITE (R390, R454). -/
def execTopiaryWrite (w : Writer) (pa : Nat) (data : List Byte) (s : State) : Out1 :=
  .next (match s.frameOf pa with
    | none => s
    | some r =>
      if r.cmp then
        (blockPieces (data.length + 1) pa data).foldl (fun s x => if s.isCmp x.1 then s.blockWrite r.vf w x.1 x.2 else s) s
      else s)

/-- Is there room in the balloon ring (R455)? -/
def Vf.balloonRoom (v : Vf) : Bool := decide (v.brprod < v.brcons.toNat + 2 ^ v.brlog.toNat)

/-- BALLOON_POST (R422, R455). -/
def execBalloonPost (vf : Nat) (s : State) : Out1 :=
  let v := s.vf vf
  .next (match v.brwait with
    | [] => s
    | b :: rest =>
      if !v.balloonRoom then s
      else
        let s := s.setVf { v with brwait := rest, brprod := v.brprod + 1 }
        (s.devStore vf ((bits v.brbase 51 0).toNat + 16 * (v.brprod % 2 ^ v.brlog.toNat)) (natLe 4 v.brprod ++ b)).msix vf 2)

/-- The fault of a held write given up at its deadline (R394): EPC is the space point, where the thread stands. -/
def Held.fault (h : Held) : Raise :=
  { code := 0x0B, space := 1, addr := (h.site.2.2).setWidth 128, size := h.op.len, site := some (h.site.1, h.site.2.1),
    held := some h.id }

/-- A thread's held write is given up: the threads at their space points take 0x0B, the others at the point to come. -/
def State.expireThread (s : State) (h : Held) : State :=
  let s : State := { s with held := s.held.map (fun x => if x.id == h.id then { x with expired := true } else x) }
  let here := h.keys.filter (fun k => (s.thread k).any (fun t => match t.status with | .data (.held i _) => i == h.id | _ => false))
  let s := h.keys.foldl (fun s k => if here.contains k then s else s.modThread k (fun t => t.addLate 0x0B h)) s
  match here.head?.bind s.thread with
  | some t => s.raise (s.coreOf t) s.pkg h.site.2.1 here h.fault
  | none => s

/-- What becomes of the writer of a write given up (R394); a STATUS is attempted again, as 0x8. -/
def State.expire (s : State) (h : Held) : State :=
  let s' : State := { s with held := s.held.filter (fun x => x.id != h.id) }
  match h.by' with
  | .thread _ _ => s.expireThread h
  | .engine _ op => s'.opArrives op h.op.nibbles 2
  | .frontEnd vf c => (match (s'.command vf c).filter (fun c => c.ended.isSome) with
    | some x => s'.writeStatus vf x 8
    | none => s'.worsen vf c 8)
  | .host vf => s'.logEvent 0x0B (homeDie h.pa) vf [h.pa / 1024 * 1024]
  | .peer p => s'.peerEnd p h 2 .ack
  | .device => s'

/-- HELD_WRITE_EXPIRY (R392 step 4, R394): the writes behind it are served at once. -/
def execHeldWriteExpiry (id : Nat) (s : State) : Out1 :=
  .next (match s.held.find? (fun h => h.id == id && h.need != 0 && !h.expired) with
    | none => s
    | some h => ((s.expire h).settleBlock (h.pa / 1024) s.held.length).serveAll h.vf h.die)

end Sys2Proof.Machine
end

