-- ==== Sys2Proof/Machine/System.lean ====
section
/-! DEFINITION. System instructions (R306 to R316), opcodes 0xB4 to 0xBA, and SPACE (R399), opcode 0xBB. -/

namespace Sys2Proof.Machine

/-! ## Context descriptors (R403) -/

/-- The descriptor in an image; none where it is invalid. -/
def parseCtx (b : List Byte) : Option CtxDesc :=
  let f := field b 0 8
  let d : CtxDesc :=
    { flags := BitVec.ofNat 64 f, ptroot := field b 8 8, rbt := field b 0x10 8, tit := field b 0x18 8, gtab := field b 0x20 8,
      fqbase := field b 0x28 8, fqlog := field b 0x30 1, save := field b 0x38 8, savesz := field b 0x40 8 }
  if f.testBit 0 && f < 4 && d.rbt % 4096 == 0 && d.tit % 1048576 == 0 && d.gtab % 4194304 == 0 && d.fqbase % 4096 == 0
      && 6 ≤ d.fqlog && d.fqlog ≤ 20 && d.save % 65536 == 0 && zeroAt b 0x31 7 && zeroAt b 0x48 56 then some d
  else none

/-- The front end reads a context's descriptor. -/
def State.readCtx (s : State) (ctxn : Nat) : Option CtxDesc :=
  ((s.physRead ((s.vf (vfOfCtx ctxn)).ctxbase.toNat + 128 * (ctxn % 16)) 128)).bind parseCtx

/-- Log a context's descriptor that cannot be read (R396). -/
def State.logCtx (s : State) (ctxn : Nat) : State :=
  s.logRange (vfOfCtx ctxn) ((s.vf (vfOfCtx ctxn)).ctxbase.toNat + 128 * (ctxn % 16)) 128

/-- Read a context's descriptor again, and keep what is read. -/
def State.loadCtx (s : State) (ctxn : Nat) : State := (s.logCtx ctxn).setCtx { s.ctx ctxn with desc := s.readCtx ctxn }

/-! ## CSRs (R306, R307, R311) -/

/-- The CSR that CSRR reads; the fault of R307 where it may not. -/
def csrRead (w : Workgroup) (t : Thread) (n : Nat) : Except Raise Dword :=
  if 0x100 ≤ n then .error (trapOf 0x15)
  else match csrValue w t n with
    | some x => .ok x
    | none => .error (trapOf 0x07)

/-- CSRR (R311). -/
def execCsrr (csr : BitVec 12) (d : Reg) (fm : Form) (s : State) : Out1 :=
  let i : Instr := .csrr csr d fm
  .next (s.forThreads i (fun s w t =>
    match csrRead w t csr.toNat with
    | .error r => .fault s r
    | .ok x => .go s ((t.setPair d.toNat x).onward i)))

/-- Write a CSR (R307): reserved bits are discarded. -/
def Thread.csrWrite (t : Thread) (n : Nat) (x : Dword) : Except Raise Thread :=
  match n with
  | 0x000 => .ok { t with trapvec := x }
  | 0x001 => .ok { t with trapcause := x &&& 0xFFFF00FF#64 }
  | 0x002 => .ok { t with epc := x }
  | 0x010 => .ok { t with stkbase := x }
  | 0x011 => .ok { t with stklim := x }
  | 0x012 => .ok { t with stktop := x }
  | 0x020 => .ok { t with srkey0 := x.setWidth 32 }
  | 0x021 => .ok { t with srkey1 := x.setWidth 32 }
  | 0x022 => .ok { t with srctr0 := x.setWidth 32 }
  | 0x023 => .ok { t with srctr1 := x.setWidth 32 }
  | 0x040 => .error (trapOf 0x15)
  | n => .error (trapOf (if 0x100 ≤ n then 0x15 else 0x07))

/-- CSRW (R307, R311). -/
def execCsrw (sk : Bool) (csr : BitVec 12) (src : Reg) (fm : Form) (s : State) : Out1 :=
  let i : Instr := .csrw sk csr src fm
  .next (s.forThreads i (fun s w t =>
    match t.csrWrite csr.toNat (src64 w t sk src) with
    | .error r => .fault s r
    | .ok t => .go s (t.onward i)))

/-! ## The handler, services, translations -/

/-- ERET (R312): the thread is filed at EPC. -/
def execEret (s : State) : Out1 :=
  .next (s.forThreads .eret (fun s _ t =>
    match t.eret with
    | .error r => .fault s r
    | .ok t => .file s t 0))

/-- FREC (R313). -/
def execFrec (f : RI8) (s : State) : Out1 :=
  let i : Instr := .frec f
  .next (s.forThreads i (fun s _ t =>
    if !t.hnd then .fault s (trapOf 0x07)
    else .go s ((t.setPair f.d.toNat ((t.frec >>> (64 * f.imm.toNat)).setWidth 64)).onward i)))

/-- SYSC (R314): a record with CODE 0x10, and the thread parks. -/
def execSysc (f : RI8) (s : State) : Out1 :=
  let i : Instr := .sysc f
  .next (s.forThreads i (fun s w t =>
    .fault s { code := 0x10, space := 1, addr := (vaOf (RI8.srcA64 f w t)).setWidth 128, arg := f.imm.setWidth 16,
               sysc := some (pcAfter t.pc i.words) }))

/-- Is a workgroup one of a context? -/
def State.inCtx (s : State) (ctxn wg : Nat) : Bool := (s.wg wg).any (fun w => w.ctxn == ctxn)

/-- The queued copies, the issued collectives and the held writes of a context: what has been translated and not performed
(R315). -/
def State.flightIds (s : State) (ctxn : Nat) : List Nat :=
  (s.ops.filter (fun o => (o.q < 4 || o.q == 6) && s.inCtx ctxn o.wg)).map (·.id)
  ++ (s.held.filter (fun h => !h.expired && (match h.by' with
      | .thread wg _ => s.inCtx ctxn wg
      | .engine _ op => s.ops.any (fun o => o.id == op && s.inCtx ctxn o.wg)
      | .frontEnd vf _ => vfOfCtx ctxn == vf
      | _ => false))).map (·.id)

/-- The transactions of a context for accesses that have been translated. -/
def State.flightTags (s : State) (ctxn : Nat) : List Dword :=
  (s.txns.filter (fun x => match x.by' with
    | .reply k => s.inCtx ctxn k.wg
    | .fetch k _ => s.inCtx ctxn k.wg
    | .engine op _ _ => s.ops.any (fun o => o.id == op && s.inCtx ctxn o.wg)
    | .granule op _ _ => s.ops.any (fun o => o.id == op && s.inCtx ctxn o.wg)
    | .nibble op _ _ _ _ => s.ops.any (fun o => o.id == op && s.inCtx ctxn o.wg)
    | .command vf _ _ _ => vfOfCtx ctxn == vf
    | _ => false)).map (·.tag)

/-- What TLBI removes (R315): the leaves that cover an address, a region's translations and bounds, or everything, with the
context descriptor and the graph tables read again (R331, R403). -/
def State.invalidate (s : State) (ctxn : Nat) (kind : Nat) (a : Dword) : State :=
  let mine (c : Cached) (p : Nat → Bool) : Bool := c.ctxn == ctxn && p (c.page * 2 ^ c.size)
  match kind with
  | 0 =>
    { s with tlb := s.tlb.filter (fun c => !(c.ctxn == ctxn && (vaOf a).toNat % 2 ^ 76 / 2 ^ c.size == c.page % 2 ^ (76 - c.size))) }
  | 1 =>
    let g := (bits a 59 52).toNat
    { s with tlb := s.tlb.filter (fun c => !mine c (fun va => va / 2 ^ 68 % 256 == g))
             bounds := s.bounds.filter (fun c => !(c.ctxn == ctxn && c.region == g)) }
  | _ =>
    let s := (s.dropTranslations ctxn).loadCtx ctxn
    (List.range 4).foldl (fun s d => s.copyGraphs ctxn d) s

/-- TLBI (R315): it waits until no access that was translated before it is in flight, and then removes the translations. -/
def execTlbi (f : RI8) (s : State) : Out1 :=
  let i : Instr := .tlbi f
  .next (s.forThreads i (fun s w t =>
    if f.imm == 0 && !([0, 1, 4, 5].contains (bits (RI8.srcA64 f w t) 63 60).toNat) then
      .fault s (dataFault 0x04 (vaOf (RI8.srcA64 f w t)) 0 false)
    else
      let s := s.flushAll
      let ids := s.flightIds w.ctxn
      let tags := s.flightTags w.ctxn
      if t.seen.isNone && !(ids.isEmpty && tags.isEmpty) then
        .hold s { t with status := .data (.flight ids tags s.cur.id), seen := some [] }
      else .go (s.invalidate w.ctxn f.imm.toNat (RI8.srcA64 f w t)) ({ t with seen := none }.onward i)))

/-- DETCHK (R316). -/
def execDetchk (req : Bool) (pd : PReg) (fm : Form) (s : State) : Out1 :=
  let i : Instr := .detchk req pd fm
  .next (s.forThreads i (fun s w t =>
    if req then (if w.kernel.det then .go s (t.onward i) else .fault s (trapOf 0x13))
    else .go s ((t.setPred pd w.kernel.det).onward i)))

/-! ## SPACE -/

/-- Granules that a hedge holds in its reserves (R391). -/
def Vf.reserved (v : Vf) : Nat := v.reserve.sum

/-- SPACE (R399). -/
def execSpace (f : V3) (s : State) : Out1 :=
  let i : Instr := .space f
  .next (s.forThreads i (fun s w t =>
    if w.kernel.det then .fault s (trapOf 0x13)
    else
      let v := s.vf (vfOfCtx w.ctxn)
      let d := f.d.toNat
      let left : Dword := v.hedge.quota - BitVec.ofNat 64 (v.used + v.reserved)
      .go s (((t.setPair d left).setPair (d + 2) (BitVec.ofNat 64 v.reserved)).onward i)))

end Sys2Proof.Machine
end

