-- ==== Sys2Proof/Machine/FrontEnd.lean ====
section
/-! DEFINITION. The command front ends: the ring (R404, R405) and the commands Launch, Copy, Wait, Signal and Checkpoint
(R406, R408, R416, R417). -/

namespace Sys2Proof.Machine

/-! ## Fields of a command (R404) -/

/-- OP. -/
def Command.op (c : Command) : Nat := field c.bytes 0 1
/-- FLAGS bit 0, OVL. -/
def Command.ovl (c : Command) : Bool := (field c.bytes 1 1).testBit 0
/-- FLAGS bit 1, RAW. -/
def Command.raw (c : Command) : Bool := (field c.bytes 1 1).testBit 1
/-- The context number of a command of a function (R403). -/
def Command.ctxn (c : Command) (vf : Nat) : Nat := 16 * (vf - 1) + field c.bytes 2 2
/-- The 80-bit address at an offset. -/
def Command.addr (c : Command) (off : Nat) : BitVec 80 := BitVec.ofNat 80 (field c.bytes off 10)
/-- Which event handles a command: one with an OP that is no command's is Launch's to reject. -/
def Command.kind (c : Command) : Nat := if 2 ≤ c.op && c.op ≤ 5 then c.op else 1

/-- Is a Launch well formed (R34, R404)? -/
def Command.launchOk (c : Command) : Bool :=
  let n := field c.bytes 0x18 4
  let m := field c.bytes 0x1C 4
  let k := field c.bytes 0x20 4
  field c.bytes 1 1 < 2 && zeroAt c.bytes 0x24 24 && 1 ≤ field c.bytes 4 4 && field c.bytes 4 4 ≤ 1024
  && 1 ≤ n * m * k && n * m * k ≤ 2 ^ 32

/-- Path of an address. -/
def pathOf (va : BitVec 80) : Nat := (bits va 79 76).toNat

/-- Is a Copy well formed (R404, R406)? -/
def Command.copyOk (c : Command) : Bool :=
  let a := pathOf (c.addr 8)
  let b := pathOf (c.addr 0x18)
  field c.bytes 1 1 < 4 && zeroAt c.bytes 4 4 && zeroAt c.bytes 0x12 6 && zeroAt c.bytes 0x22 6 && zeroAt c.bytes 0x31 11
  && field c.bytes 0x30 1 < 16 && field c.bytes 0x28 8 != 0
  && (a == 0 || a == 1 || a == 3 || (a == 5 && c.raw)) && (b == 0 || b == 3 || (b == 5 && c.raw))
  && (!c.raw || a == 5 || b == 5) && (b == 3 || field c.bytes 0x30 1 == 0)

/-- Is a command well formed (R404)? -/
def Command.wellFormed (c : Command) : Bool :=
  field c.bytes 2 2 < 16
  && (match c.op with
      | 1 => c.launchOk
      | 2 => c.copyOk
      | 3 | 4 => field c.bytes 1 1 == 0 && zeroAt c.bytes 4 4 && zeroAt c.bytes 0x18 36
      | 5 => field c.bytes 1 1 == 0 && zeroAt c.bytes 4 4 && zeroAt c.bytes 0x10 44
      | _ => false)

/-! ## Taking commands (R405, R418) -/

/-- The place of an entry of the command log (R417). -/
def Vf.logPlace (v : Vf) (pos : Nat) : Nat := (bits v.logbase 51 0).toNat + 64 * (pos % 2 ^ v.loglog.toNat)

/-- An entry of the command log (R417). -/
def State.logEntry (s : State) (v : Vf) (pos : Nat) : List Byte :=
  (s.physRead (v.logPlace pos) 64).getD []

/-- The next command, read when it is taken: of the ring, or while a replay runs of the log. -/
def State.nextCmd (s : State) (vf : Nat) : Option Command :=
  let v := s.vf vf
  if v.rpl then
    let b := s.logEntry v v.rplcur
    if v.rplcur < v.rplend.toNat && field b 0 1 == 1 then
      some { id := s.fresh, idx := v.rplcur, bytes := (b.drop 8).take 56 ++ List.replicate 8 0, replay := true, status := 0,
             moves := [] }
    else none
  else if v.qerr || v.tail ≤ v.taken then none
  else some { id := s.fresh, idx := v.taken, bytes := s.slotBytes v v.taken, replay := false, status := 0, moves := [] }

/-- Does a command write the weight store? -/
def Command.toWst (c : Command) : Bool := c.op == 2 && pathOf (c.addr 0x18) == 3

/-- Does a hedge have resident workgroups? -/
def State.vfResident (s : State) (vf : Nat) : Bool := s.wgs.any (fun w => vfOfCtx w.ctxn == vf && w.foreign.isNone)

/-- May the next command start (R405, R406)? -/
def State.mayStart (s : State) (vf : Nat) (c : Command) : Bool :=
  let v := s.vf vf
  (v.cmds.isEmpty || (c.ovl && (c.op == 1 || c.op == 2)))
  && !(c.toWst && s.vfResident vf) && !(c.op == 1 && v.cmds.any Command.toWst)

/-- Take a command: it is logged while MIGOK is set (R416). -/
def State.takeCmd (s : State) (vf : Nat) (c : Command) : State :=
  let s := s.bumpId
  let v := s.vf vf
  if c.replay then s.setVf { v with cmds := v.cmds ++ [c], rplcur := v.rplcur + 1 }
  else (s.setVf { v with cmds := v.cmds ++ [c], taken := v.taken + 1 }).logAppend vf 1 (c.bytes.take 56)

/-- The state with the context's descriptor at hand: a Launch reads it again (R403). -/
def State.withDesc (s : State) (ctxn : Nat) (again : Bool) : State :=
  if again || (s.ctx ctxn).desc.isNone then
    match s.readCtx ctxn with
    | some d => s.setCtx { s.ctx ctxn with desc := some d }
    | none => s
  else s

/-- Why a command is rejected before it starts (R407, R415), if it is. -/
def State.rejects (s : State) (vf : Nat) (c : Command) : Option Nat :=
  let n := c.ctxn vf
  if !c.wellFormed then some 1
  else if (s.ctx n).lost then some 5
  else if (s.ctx n).faulted then some 4
  else if c.op == 1 && (s.readCtx n).isNone then some 2
  else if c.op != 1 && (s.ctx n).desc.isNone && (s.readCtx n).isNone then some 2
  else none

/-- Log what a front end could not read of a command's slot, of its entry in the log, or of its context's descriptor (R396). -/
def State.logTaken (s : State) (vf : Nat) (c : Command) : State :=
  let v := s.vf vf
  let s := if c.replay then s.logRange vf (v.logPlace c.idx) 64 else s.logSlot v c.idx
  if c.wellFormed && (c.op == 1 || (s.ctx (c.ctxn vf)).desc.isNone) then s.logCtx (c.ctxn vf) else s

/-- Start the next command of a function, if it is of this kind and may start. -/
def State.startCmd (s : State) (vf kind : Nat) (f : State → Command → State) : State :=
  match s.nextCmd vf with
  | none => s
  | some c =>
    if c.kind == kind && s.mayStart vf c then
      let s := (s.logTaken vf c).takeCmd vf c
      match s.rejects vf c with
      | some st => s.finishCommand vf c.id st
      | none => f (s.withDesc (c.ctxn vf) (c.op == 1)) c
    else s

/-- Does a command wait for another package or for a held write? -/
def State.cmdWaits (s : State) (vf id : Nat) : Bool :=
  s.txns.any (fun t => match t.by' with | .command v c _ _ => v == vf && c == id | _ => false)
  || s.held.any (fun h => h.by' == .frontEnd vf id)

/-- A started command of a kind that waits for nothing, its effects not yet done. -/
def State.dueCmd (s : State) (vf kind : Nat) : Option Command :=
  (s.vf vf).cmds.find? (fun c => c.kind == kind && c.ended.isNone && !s.cmdWaits vf c.id && (kind != 1 || !c.moves.isEmpty))

/-- The mover of a command: a Wait acquires and a Signal releases (R406). Front ends stand on die 0 (R19). -/
def Command.mover (c : Command) (vf : Nat) : Mover :=
  { writer := .frontEnd vf c.id, vf, core := 0, wg := none, xlt := none, sem := if c.op == 3 then 1 else if c.op == 4 then 2 else 0 }

/-- Give a command its moves, and ask for what lies on other packages. -/
def State.giveMoves (s : State) (vf : Nat) (c : Command) (ms : List Move) : State :=
  (s.modCmd vf c.id (fun c => { c with moves := ms })).requestMoves (c.mover vf) ms

/-- A whole move of bytes. -/
def byteMove (src dst : Option Loc) (n : Nat) : Move := { src, pad := 0, dst, size := n, srcHalf := none, dstHalf := none }

/-! ## Launch -/

/-- One role of a kernel descriptor (R408). -/
def parseRole (x : Nat) : RoleDesc := { regs := x % 256, cls := x / 256 % 4, entry := x / 1024 }

/-- A kernel descriptor's fields (R408). -/
def kernelFields (b : List Byte) : Kernel :=
  let m := field b 0x0E 1
  { code := BitVec.ofNat 64 (field b 0 8), spad := field b 8 4, age := field b 0x0C 2, nroles := m % 8, det := m.testBit 4
    slice := m.testBit 5, tiles := field b 0x0F 1, roles := ((fields b 0x10 4 4).take (m % 8)).map parseRole
    sentry := field b 0x20 4, gang := field b 0x24 1, hops := field b 0x25 1, gsize := field b 0x28 4
    stack := BitVec.ofNat 64 (field b 0x30 8), stkz := BitVec.ofNat 64 (field b 0x38 8), pmask := BitVec.ofNat 64 (field b 0x40 8) }

/-- Does every field lie in its range (R408)? -/
def kernelOk (b : List Byte) : Bool :=
  let k := kernelFields b
  let m := field b 0x0E 1
  b.length == 128 && k.spad % 4096 == 0 && k.spad ≤ 524288 && 16 ≤ k.age && k.age ≤ 1024 && 1 ≤ k.nroles && k.nroles ≤ 4
  && !m.testBit 3 && m < 64 && k.tiles ≤ 64
  && k.roles.all (fun r => 8 ≤ r.regs && r.regs ≤ 128 && r.regs % 8 == 0)
  && ((fields b 0x10 4 4).drop k.nroles).all (· == 0)
  && k.sentry % 4 == 0 && (k.slice || k.sentry == 0) && (k.gang == 0 || (2 ≤ k.gang && k.gang ≤ 5))
  && 1 ≤ k.hops && k.hops ≤ 64 && (if k.gang == 0 then k.gsize == 0 else 1 ≤ k.gsize) && k.stkz.toNat % 16 == 0
  && zeroAt b 0x48 56

/-- The pieces of a range, none of which crosses a multiple of 128. -/
def cut128 : Nat → Nat → Nat → List (Nat × Nat)
  | 0, _, _ => []
  | fuel + 1, a, n => if n == 0 then [] else let k := min n (128 - a % 128); (a, k) :: cut128 fuel (a + k) (n - k)

/-- Places of a range of GEN bytes that a front end reads; none where a check of R194 fails. -/
def State.genMoves (s : State) (ctxn : Nat) (ea : Dword) : List (Nat × Nat) → Option (List Move)
  | [] => some []
  | (off, n) :: r =>
    match s.checkVa (agentWg ctxn) (atDie 0) { n, align := 1, paths := [0] } (vaOf ea + BitVec.ofNat 80 off), State.genMoves s ctxn ea r with
    | .ok g, some ms => some (byteMove (some g.loc) none n :: ms)
    | _, _ => none

/-- The moves that read a kernel descriptor and a parameter block. -/
def State.launchMoves (s : State) (ctxn : Nat) (c : Command) : Option (List Move) :=
  let at' (off n : Nat) : Option (List Move) :=
    let ea : Dword := BitVec.ofNat 64 (field c.bytes off 8)
    s.genMoves ctxn ea ((cut128 8 (ea.toNat % 128) n).map (fun x => (x.1 - ea.toNat % 128, x.2)))
  if field c.bytes 8 8 % 64 != 0 then none
  else match at' 8 128, at' 0x10 512 with
    | some a, some b => some (a ++ b)
    | _, _ => none

/-- The bytes that moves read; none where some cannot be read. -/
def State.readMoves (s : State) (m : Mover) : List Move → Option (List Byte)
  | [] => some []
  | mv :: r => match mv.src.bind (fun l => s.readPlace m l mv.size), State.readMoves s m r with
    | some b, some rest => some (b ++ rest)
    | _, _ => none

/-- Workgroups of a kernel that one core can hold (R16, R53). -/
def perCore (k : Kernel) (nthr : Nat) : Nat :=
  let by' (cap n : Nat) : Nat := if n == 0 then 16 else cap / n
  min 16 (min (by' 2048 nthr) (min (by' 262144 (((k.roles.head?).map (·.regs)).getD 0 * nthr)) (min (by' 524288 k.spad) (by' 64 k.tiles))))

/-- The cores of a hedge on this package. -/
def State.coresOf (s : State) (vf : Nat) : List Nat := (List.range 4).flatMap (s.hedgeCores vf)

/-- Does a gang fit one instance of its scope (R36)? A POD gang may use the other packages of PKGS (entry 2). -/
def State.gangFits (s : State) (vf : Nat) (k : Kernel) (nthr total : Nat) : Bool :=
  let cs := s.coresOf vf
  let other := (s.vf vf).hedge.pkgs != 0 && (s.vf vf).hedge.pkgs != 1#256 <<< s.pkg
  k.gang == 0 || (k.gang == 5 && other)
  || cs.any (fun c =>
      min k.gsize total ≤ (cs.filter (fun d => scopeInst k.gang d s.pkg == scopeInst k.gang c s.pkg)).length * perCore k nthr)

/-- Does a launch fit its hedge (R407)? -/
def State.launchFits (s : State) (vf : Nat) (k : Kernel) (nthr total : Nat) : Bool :=
  k.roles.all (fun r => r.regs * nthr ≤ 262144) && !(s.coresOf vf).isEmpty && s.gangFits vf k nthr total

/-- The launch takes its number (R407); one without DET clears MIGOK (R416). The kernel's start is a ROD point (R232). -/
def State.accept (s : State) (vf : Nat) (c : Command) (k : Kernel) (params : List Dword) : State :=
  let v := s.vf vf
  let l : Launch :=
    { vf, no := v.nextLaunch, ctxn := c.ctxn vf, cmd := c.id, kernel := k, nthr := field c.bytes 4 4
      nwgx := field c.bytes 0x18 4, nwgy := field c.bytes 0x1C 4, nwgz := field c.bytes 0x20 4, params, bound := []
      retired := 0, cancelled := false, status := 0 }
  let s := s.setVf { v with nextLaunch := v.nextLaunch + 1, migok := v.migok && k.det }
  { (s.modCmd vf c.id (fun c => { c with moves := [] })).rodPoint with launches := s.launches ++ [l] }

/-- A launch whose descriptor and parameters can be read now is accepted or rejected (R407). -/
def State.decideLaunch (s : State) (vf : Nat) (c : Command) : State :=
  let total := field c.bytes 0x18 4 * field c.bytes 0x1C 4 * field c.bytes 0x20 4
  match s.readMoves (c.mover vf) c.moves with
  | none => (s.readSources (c.mover vf) c.moves).1.finishCommand vf c.id 2
  | some b =>
    let k := kernelFields (b.take 128)
    if c.status != 0 || !kernelOk (b.take 128) then s.finishCommand vf c.id 2
    else if !s.launchFits vf k (field c.bytes 4 4) total then s.finishCommand vf c.id 3
    else s.accept vf c k ((fields b 128 8 64).map (BitVec.ofNat 64))

/-- Log the tables of the first of some addresses that cannot be translated (R396). -/
def State.logFirst (s : State) (ctxn : Nat) (vas : List (BitVec 80 × Nat)) : State :=
  match vas.find? (fun a => (s.checkVa (agentWg ctxn) (atDie a.2) { n := 1, align := 1, paths := [0, 1, 3] } a.1).toOption.isNone) with
  | some a => s.logTables (atDie a.2) ctxn a.1
  | none => s

/-- Begin a launch. -/
def State.beginLaunch (vf : Nat) (s : State) (c : Command) : State :=
  match s.launchMoves (c.ctxn vf) c with
  | none => (s.logFirst (c.ctxn vf) ([(8, 0), (8, 127), (0x10, 0), (0x10, 511)].map (fun (x : Nat × Nat) =>
      (vaOf (BitVec.ofNat 64 (field c.bytes x.1 8)) + BitVec.ofNat 80 x.2, 0)))).finishCommand vf c.id 2
  | some ms =>
    let s := s.giveMoves vf c ms
    if s.cmdWaits vf c.id then s else s.decideLaunch vf { c with moves := ms }

/-- LAUNCH (R406, R407): it ends when its last workgroup retires. -/
def execLaunch (vf : Nat) (s : State) : Out1 :=
  .next (match s.dueCmd vf 1 with
    | some c => s.decideLaunch vf c
    | none => s.startCmd vf 1 (State.beginLaunch vf))

/-! ## Copy -/

/-- The largest piece at an address, which crosses no granule, metadata word, line of the ROD path or multiple of 128. -/
def pieceAt (va : BitVec 80) : Nat :=
  let n := if pathOf va == 5 then (if bit va 51 then 4 else 64) else if pathOf va == 1 then 64 else 128
  n - va.toNat % n

/-- The pieces of a copy: offset and size. -/
def copyPieces (a b : BitVec 80) : Nat → Nat → Nat → List (Nat × Nat)
  | 0, _, _ => []
  | fuel + 1, off, n =>
    if n == 0 then []
    else
      let k := min n (min (pieceAt (a + BitVec.ofNat 80 off)) (pieceAt (b + BitVec.ofNat 80 off)))
      (off, k) :: copyPieces a b fuel (off + k) (n - k)

/-- The place of a piece under the checks of R194, R186 and R414; none where one fails. -/
def State.copyLoc (s : State) (ctxn die : Nat) (write : Bool) (va : BitVec 80) (n : Nat) : Option Loc :=
  if pathOf va == 5 then
    match s.rawLoc (agentWg ctxn) (atDie die) write va with | .ok l => some l | .error _ => none
  else match s.checkVa (agentWg ctxn) (atDie die) { n, align := 1, paths := if write then [0, 3] else [0, 1, 3], write } va with
    | .ok g => some (g.loc.onPath (pathOf va) die)
    | .error _ => none

/-- The dies whose weight store a destination names (R404). -/
def Command.dies (c : Command) : List Nat :=
  let m := field c.bytes 0x30 1
  if c.toWst then (List.range 4).filter (fun d => m == 0 || m.testBit d) else [0]

/-- The moves of one piece, one for each die of a WST destination. -/
def State.pieceMoves (s : State) (ctxn : Nat) (c : Command) (x : Nat × Nat) : Option (List Move) :=
  match s.copyLoc ctxn 0 false (c.addr 8 + BitVec.ofNat 80 x.1) x.2 with
  | none => none
  | some src =>
    let ds := c.dies.map (fun d => s.copyLoc ctxn d true (c.addr 0x18 + BitVec.ofNat 80 x.1) x.2)
    if ds.contains none then none else some (ds.map (fun d => byteMove (some src) d x.2))

/-- All moves of a copy. -/
def State.copyMoves (s : State) (ctxn : Nat) (c : Command) : List (Nat × Nat) → Option (List Move)
  | [] => some []
  | x :: r => match s.pieceMoves ctxn c x, State.copyMoves s ctxn c r with
    | some a, some b => some (a ++ b)
    | _, _ => none

/-- Bytes stay in the 68 bits of an address. -/
def Command.inRange (c : Command) : Bool :=
  let n := field c.bytes 0x28 8
  (c.addr 8).toNat % 2 ^ 68 + n ≤ 2 ^ 68 && (c.addr 0x18).toNat % 2 ^ 68 + n ≤ 2 ^ 68

/-- Move what a command has left, and end it once everything is performed (R406, R407): one refused at another package moves
nothing. -/
def State.runCommand (s : State) (vf : Nat) (c : Command) : State :=
  if c.status == 6 then s.finishCommand vf c.id 6
  else
    let s := (s.modCmd vf c.id (fun x => { x with moves := [] })).moveAll (c.mover vf) c.moves
    if s.cmdWaits vf c.id then s else s.finishCommand vf c.id ((s.command vf c.id).elim 0 (·.status))

/-- Ask the other packages that hold destinations of a Copy whether they may be written, before the first byte moves: the check
of R414 is made there. The read's data is not used. -/
def State.probe (s : State) (vf : Nat) (c : Command) (ms : List Move) : State :=
  ms.foldl (fun s mv => match mv.dst with
    | some (.remote pkg pa) =>
      if s.portsFrom 0 then (s.request pkg vf 0 (.read (BitVec.ofNat 64 pa) mv.size 0) (.command vf c.id (some ms.length) none)).1 else s
    | _ => s) s

/-- Begin a copy: every byte is checked first. -/
def State.beginCopy (vf : Nat) (s : State) (c : Command) : State :=
  let n := field c.bytes 0x28 8
  let ps := copyPieces (c.addr 8) (c.addr 0x18) n 0 n
  match (if c.inRange then s.copyMoves (c.ctxn vf) c ps else none) with
  | none => (s.logFirst (c.ctxn vf) (ps.flatMap (fun x =>
      (c.addr 8 + BitVec.ofNat 80 x.1, 0) :: c.dies.map (fun d => (c.addr 0x18 + BitVec.ofNat 80 x.1, d))))).finishCommand vf c.id 6
  | some ms =>
    let ms := if c.raw then joinMeta ms else ms
    let s := (s.giveMoves vf c ms).probe vf c ms
    if s.cmdWaits vf c.id then s else s.runCommand vf { c with moves := ms }

/-- COPY (R406). -/
def execCopy (vf : Nat) (s : State) : Out1 :=
  .next (match s.dueCmd vf 2 with
    | some c => s.runCommand vf c
    | none => s.startCmd vf 2 (State.beginCopy vf))

/-! ## Wait and Signal -/

/-- The event word of a command; none where a check fails. -/
def State.eventWord (s : State) (vf : Nat) (c : Command) (write : Bool) : Option Loc :=
  match s.checkVa (agentWg (c.ctxn vf)) (atDie 0) { n := 8, align := 8, paths := [0], write }
      (vaOf (BitVec.ofNat 64 (field c.bytes 8 8))) with
  | .ok g => some g.loc
  | .error _ => none

/-- Log the tables of an event word that cannot be translated (R396). -/
def State.logWord (s : State) (vf : Nat) (c : Command) : State :=
  s.logTables (atDie 0) (c.ctxn vf) (vaOf (BitVec.ofNat 64 (field c.bytes 8 8)))

/-- Begin a Wait: it keeps the place of its word. -/
def State.beginWait (vf : Nat) (s : State) (c : Command) : State :=
  match s.eventWord vf c false with
  | none => (s.logWord vf c).finishCommand vf c.id 6
  | some l => s.giveMoves vf c [byteMove (some l) (some l) 8]

/-- WAIT (R406): the word is checked when the command starts. -/
def execWait (vf : Nat) (s : State) : Out1 := .next (s.startCmd vf 3 (State.beginWait vf))

/-- Look at the event word of a Wait: it ends, or it looks again. -/
def State.pollWait (s : State) (vf : Nat) (c : Command) : State :=
  match c.moves with
  | [mv] =>
    if c.status != 0 then s.finishCommand vf c.id c.status
    else (match s.readMoves (c.mover vf) [mv] with
     | none => (s.logPlace (c.mover vf) (mv.src.getD .fifo)).finishCommand vf c.id 7
     | some b =>
       if field c.bytes 0x10 8 ≤ leNat b then s.finishCommand vf c.id 0
       else if mv.src == mv.dst then s
       else s.giveMoves vf c [{ mv with src := mv.dst }])
  | _ => s

/-- EVENT_WAIT_COMPLETE (R406): `idx` names the command. -/
def execEventWaitComplete (vf idx : Nat) (s : State) : Out1 :=
  .next (match s.command vf idx with
    | some c => if c.kind == 3 && c.ended.isNone && !s.cmdWaits vf idx then s.pollWait vf c else s
    | none => s)

/-- Begin a Signal: a store with release. -/
def State.beginSignal (vf : Nat) (s : State) (c : Command) : State :=
  match s.eventWord vf c true with
  | none => (s.logWord vf c).finishCommand vf c.id 6
  | some l =>
    let ms := [byteMove (some (.lit ((c.bytes.drop 0x10).take 8))) (some l) 8]
    (s.giveMoves vf c ms).runCommand vf { c with moves := ms }

/-- SIGNAL (R406). -/
def execSignal (vf : Nat) (s : State) : Out1 :=
  .next (match s.dueCmd vf 4 with
    | some c => s.runCommand vf c
    | none => s.startCmd vf 4 (State.beginSignal vf))

/-! ## Checkpoint -/

/-- The first 60 bytes of a checkpoint record (R417). -/
def checkpointBody (v : Vf) (head : Nat) (migok : Bool) : List Byte :=
  natLe 4 v.logpos ++ natLe 4 (if migok then 1 else 0) ++ natLe 4 v.nextLaunch.toNat ++ natLe 4 0
    ++ natLe 8 (head % 2 ^ v.qlog.toNat) ++ natLe 8 v.used ++ List.replicate 28 0

/-- CWB of all memory of a hedge (R207, R416): every store is performed, and the memory controllers hold its blocks. -/
def State.hedgeBack (s : State) (vf : Nat) : State :=
  let s := s.flushAll
  { s with images := s.images.filter (fun i => !(s.frameOf (1024 * i.block)).any (fun r => r.vf == vf)) }

/-- Take a checkpoint (R416): the hedge's memory is written back, and the log is cleared; its first entry is the mark. -/
def State.beginCheckpoint (vf : Nat) (s : State) (c : Command) : State :=
  let pa := field c.bytes 8 8
  let mine (a : Nat) : Bool := (s.frameOf a).any (fun r => r.vf == vf)
  if !(mine pa && mine (pa + 63)) then s.finishCommand vf c.id 6
  else
    let s := s.hedgeBack vf
    let v := s.vf vf
    let ok := !(s.launches.any (fun l => l.vf == vf && !l.kernel.det))
    let body := checkpointBody v (if c.replay then v.head else c.idx + 1) ok
    let s := (s.devStore vf pa body).devStore vf (pa + 60) (natLe 4 1)
    let s := (s.setVf { s.vf vf with logstart := v.logpos, migok := ok }).putLog vf 5 (body.take 56)
    s.finishCommand vf c.id 0

/-- CHECKPOINT (R416, R417). -/
def execCheckpoint (vf : Nat) (s : State) : Out1 := .next (s.startCmd vf 5 (State.beginCheckpoint vf))

/-! ## The ring -/

/-- A write of TAIL (R405): the index moves on; an overfull ring sets QERR. -/
def State.writeTail (s : State) (vf : Nat) (val : Dword) : State :=
  let v := s.vf vf
  let size := 2 ^ v.qlog.toNat
  let tail := v.tail + (val.toNat % size + size - v.tail % size) % size
  s.setVf { v with tail, qerr := v.qerr || size - 1 < tail - v.head }

/-- A write of HEAD (R402, R418): the driver sets it for the ring that resumes after a replay; at another time it is ignored
(entry 69). What is left of the ring keeps its length. -/
def State.writeHead (s : State) (vf : Nat) (val : Dword) : State :=
  let v := s.vf vf
  let size := 2 ^ v.qlog.toNat
  let head := val.toNat % size
  if v.rpl then s.setVf { v with head, taken := head, tail := head + (v.tail + size - v.head % size) % size } else s

/-- A write of a register of a function comes after the host's earlier writes of the function (R405, R426). -/
def State.hostReg (s : State) (fn off size val : Nat) (go : State) : State :=
  if s.hostWaits fn then { s with hostq := s.hostq ++ [(fn, regBase + 65536 * fn + off, natLe size val)] } else go

/-- TAIL (R402, R405). -/
def execTail (vf : Nat) (val : Dword) (s : State) : Out1 := .next (s.hostReg vf 0x000 8 val.toNat (s.writeTail vf val))

/-- CLRQ (R415): QERR is cleared and what has not started is discarded. -/
def State.clearQueue (s : State) (vf : Nat) : State :=
  let v := s.vf vf
  s.setVf { v with qerr := false, tail := v.taken }

/-- QCTL_CLRQ (R415). -/
def execQctlClrq (vf : Nat) (s : State) : Out1 := .next (s.clearQueue vf)

end Sys2Proof.Machine
end

