-- ==== Sys2Proof/Machine/Boot.lean ====
section
/-! DEFINITION. A machine in which one instruction is the next to be fetched: the launch that places it stands for a
program that is loaded from outside (entry 1). -/

namespace Sys2Proof.Machine

/-- Where the page table, its second level and the code lie. -/
def bootRoot : Nat := 0x10000
/-- The second level of the page table. -/
def bootTable : Nat := 0x20000
/-- The code. -/
def bootCode : Nat := 0x30000

/-- A context with an identity mapping of main memory, writable and executable (R188 to R190, R403). -/
def bootDesc : CtxDesc :=
  { flags := 3, ptroot := bootRoot, rbt := 0, tit := 0x100000, gtab := 0x400000, fqbase := 0x40000, fqlog := 6, save := 0
    savesz := 0 }

/-- A kernel of one role with every register (R408). -/
def bootKernel : Kernel :=
  { (agentWg 0).kernel with code := BitVec.ofNat 64 bootCode, age := 64, nroles := 1, roles := [⟨128, 0, 0⟩], tiles := 8
                            hops := 8, spad := 8192 }

/-- A workgroup of one thread on core 0, context 0 of function 1. -/
def bootWg : Workgroup :=
  { agentWg 0 with id := 1, launch := 1, nwgx := 1, nwgy := 1, nwgz := 1, nthr := 1, kernel := bootKernel, spadSize := 8192
                   tiles := List.replicate 8 Tile.fresh, xlt := List.replicate 256 0, started := true, colls := [0, 0, 0, 0] }

/-- Its thread, ready. -/
def bootThread : Thread := { Thread.fresh bootWg 0 with status := .ready }

/-- The bytes of the page table's two entries: a table, and a leaf of 2^42 bytes. -/
def bootMem (m : Memory) : Memory :=
  memSetN (memSetN m bootRoot (natLe 8 0x20001)) bootTable (natLe 8 0x0FF0000000000087)

/-- The longest instruction, zero above the bits given (R65). -/
def bootBytes (nbits w : Nat) : List Byte := natLe 20 (w % 2 ^ nbits)

/-- The machine with the instruction placed, its thread's group the only one. -/
def State.placeInsn (s : State) (nbits w : Nat) : State :=
  let v := s.vf 1
  let s := s.setVf { v with hedge := { v.hedge with cores := [(0, 4), (0, 0), (0, 0), (0, 0)] } }
  let s := s.setCtx { Context.fresh 0 with desc := some bootDesc }
  let s := s.setCore { Core.fresh 0 with loaded := some 0 }
  { s with
    mem := memSetN (bootMem s.mem) bootCode (bootBytes nbits w)
    frames := [{ first := 0, count := 16, vf := 1, cmp := false }]
    wgs := [bootWg]
    threads := [bootThread]
    groups := [{ id := 2, core := 0, threads := [bootThread.key], overdue := false }]
    bins := [], overflow := [], agenda := [], hostq := [], flushes := [], poison := [], turn := false, fresh := 3 }

end Sys2Proof.Machine
end

