-- ==== Sys2Proof/Machine/Collect.lean ====
section
/-! DEFINITION. How a collective completes (R137, R245, R262, R433 to R435). The readings taken are in entry 32. -/

namespace Sys2Proof.Machine

/-- A participant as the combination sees it: its index, die, package and source shape, and its elements by position in
row-major order, as values or as cells, with those that could not be read. -/
structure Partaker where
  index : Nat
  die : Nat
  pkg : Nat
  src : Shape
  value : Nat → Nat
  cell : Nat → BitVec 256 → BitVec 256
  bad : Nat → Bool

/-! ## Shapes -/

/-- The position of coordinates in row-major order, the first dimension innermost. -/
def rowMajor : List Nat → List Nat → Nat
  | e :: es, x :: xs => x + e * rowMajor es xs
  | _, _ => 0

/-- The packages that take part, ascending. -/
def insertNat (n : Nat) : List Nat → List Nat
  | [] => [n]
  | x :: r => if n < x then n :: x :: r else if n == x then x :: r else x :: insertNat n r

/-- The rank of a participant under a SHARD code (R245). -/
def rankOf (pkgs : List Nat) (code index die pkg : Nat) : Nat :=
  match code with
  | 1 => die
  | 2 => (pkgs.findIdx? (· == pkg)).getD 0
  | 3 => index
  | _ => 0

/-- The global index of a local one in each dimension (R245). -/
def globalOf (pkgs : List Nat) (sh : Shape) (index die pkg : Nat) (x : List Nat) : List Nat :=
  (List.range x.length).map (fun d =>
    let c := sh.shard.getD d 0
    x.getD d 0 + (if c == 0 then 0 else rankOf pkgs c index die pkg * sh.part.getD d 0))

/-- The local coordinates of a global index at a participant, where it holds them. -/
def localOf (pkgs : List Nat) (p : Partaker) (g : List Nat) : Option (List Nat) :=
  let base := globalOf pkgs p.src p.index p.die p.pkg (List.replicate 8 0)
  let ok := (List.range 8).all (fun d => base.getD d 0 ≤ g.getD d 0 && g.getD d 0 < base.getD d 0 + p.src.ext.getD d 1)
  if ok then some ((List.range 8).map (fun d => g.getD d 0 - base.getD d 0)) else none

/-- The shape of the source of a participant on another package: that of a participant here, cut at its own rank. -/
def remoteShape (pkgs : List Nat) (sh : Shape) (index die pkg : Nat) : Shape :=
  { sh with ext := (List.range 8).map (fun d =>
      let c := sh.shard.getD d 0
      if c == 0 then sh.ext.getD d 1
      else min (sh.part.getD d 0) (sh.gext.getD d 0 - rankOf pkgs c index die pkg * sh.part.getD d 0)) }

/-! ## Elements -/

/-- The elements of an operation's source as they read now, and whether one could not be read. -/
def State.sourceOf (s : State) (o : Op) : List (Nat × Bool) :=
  match o.body, s.wg o.wg with
  | .copy ms _ _ _ _ _ _ _ _, some w => ms.map (fun mv =>
      let v := s.moveValue (o.mover w.ctxn none) mv
      (leNat v.1, v.2))
  | _, _ => []

/-- An element among the pieces that have arrived: CB4 packs two to a byte (R122, R433). -/
def pieceElem (fmt : Nat) (l : List (Nat × List Byte)) (j : Nat) : Option Nat :=
  l.findSome? (fun x =>
    let n := if fmt == 9 then 2 * x.2.length else x.2.length / elemBytes fmt
    if x.1 ≤ j && j < x.1 + n then
      let i := j - x.1
      some (if fmt == 9 then (if i % 2 == 1 then (x.2.getD (i / 2) 0).toNat / 16 else (x.2.getD (i / 2) 0).toNat % 16)
            else field x.2 (i * elemBytes fmt) (elemBytes fmt))
    else none)

/-- The sum of two cells (R133, R434). -/
def cellJoin (a b : BitVec 256) : BitVec 256 :=
  let x := cellAdd a (.fin (cellN b < 0) (cellN b).natAbs (2 ^ 120))
  x ||| (b &&& 3)

/-- The cell among the pieces that have arrived. -/
def pieceCell (l : List (Nat × List (BitVec 256))) (j : Nat) : Option (BitVec 256) :=
  l.findSome? (fun x => if x.1 ≤ j && j < x.1 + x.2.length then x.2[j - x.1]? else none)

/-- A participant of this package. -/
def State.localPart (s : State) (p : CollPart) (o : Op) : Partaker :=
  let src := s.sourceOf o
  { index := p.index, die := p.die, pkg := s.pkg, src := p.src, value := fun j => (src.getD j (0, false)).1
    cell := fun j c => cellAdd c (addendValue p.fmt (BitVec.ofNat 64 (src.getD j (0, false)).1))
    bad := fun j => (src.getD j (0, false)).2 }

/-- A participant of another package. -/
def remotePart (pkgs : List Nat) (fmt : Nat) (sh : Shape) (r : CollRx) : Partaker :=
  { index := r.part, die := r.die, pkg := r.pkg, src := remoteShape pkgs sh r.part r.die r.pkg
    value := fun j => (pieceElem fmt r.data j).getD 0
    cell := fun j c => match pieceCell r.cells j, pieceElem fmt r.data j with
      | some x, _ => cellJoin c x
      | none, some v => cellAdd c (addendValue fmt (BitVec.ofNat 64 v))
      | none, none => c
    bad := fun _ => false }

/-! ## Results -/

/-- A reduced element, from each participant with the position of its own element: zero where one could not be read (R137,
R242). -/
def reduced (ps : List (Partaker × Nat)) (fmt : Nat) : Nat :=
  if ps.any (fun q => q.1.bad q.2) then 0 else cellRead (ps.foldl (fun c q => q.1.cell q.2 c) 0) fmt

/-- An element of a participant, and whether it could not be read. -/
def Partaker.elem (q : Partaker) (j : Nat) : Nat × Bool := (q.value j, q.bad j)

/-- The sum of some elements, and whether one could not be read. -/
def sumOf (ps : List (Partaker × Nat)) (fmt : Nat) : Nat × Bool := (reduced ps fmt, ps.any (fun q => q.1.bad q.2))

/-- The value that a participant's destination takes at local coordinates `x`, and whether data that it takes could not be read
(R242); none where no participant supplies one (R245, R262). `lost`: a participant's contribution cannot come (R425, R428), and
what is taken of it reads as zero. -/
def collValue (pkgs : List Nat) (ps : List Partaker) (lost : Bool) (p : CollPart) (here : Nat) (x : List Nat) : Option (Nat × Bool) :=
  let g := globalOf pkgs p.dst p.index p.die here x
  let at' (q : Partaker) (c : List Nat) : Nat := rowMajor q.src.ext c
  let root := ps.find? (fun q => q.index == p.root)
  let gone : Option (Nat × Bool) := if lost then some (0, true) else none
  match p.op with
  | 0 => (ps.findSome? (fun q => (localOf pkgs q g).map (fun c => q.elem (at' q c)))).or gone
  | 1 => (match root with | some q => (localOf pkgs q g).map (fun c => q.elem (at' q c)) | none => gone)
  | 2 => (match root with | some q => some (q.elem (at' q x)) | none => gone)
  | 3 => gone.or (some (sumOf (ps.filterMap (fun q => (localOf pkgs q g).map (fun y => (q, at' q y)))) p.dstFmt))
  | _ => gone.or (some (sumOf (ps.map (fun q => (q, at' q x))) p.dstFmt))

/-- The writes of a participant's destination, with their values, and whether data that they take could not be read. -/
def collWrites (pkgs : List Nat) (ps : List Partaker) (lost : Bool) (p : CollPart) (here : Nat) : List Move × Bool :=
  let l := (List.zip (boxPlaces p.dst.ext) p.writes).filterMap (fun x =>
    (collValue pkgs ps lost p here x.1).map (fun v => (({ x.2 with src := some (.lit (natLe x.2.size v.1)) } : Move), v.2)))
  (l.map (·.1), l.any (·.2))

/-- Do the participants here agree in OP, FMT and sizes (R262)? -/
def partsAgree : List CollPart → Bool
  | [] => true
  | p :: r => r.all (fun q => q.op == p.op && q.fmt == p.fmt && q.src.gext == p.src.gext && q.dst.gext == p.dst.gext
      && ((p.op != 2 && p.op != 4) || (q.src.ext == p.src.ext && q.dst.ext == p.dst.ext)))
      && ((p.op != 2 && p.op != 4) || p.src.ext == p.dst.ext)

/-- The collectives of a gang with the same GID that come before one and are not complete: the k-th is the k-th for every
participant (R262). -/
def State.before (s : State) (c : Coll) : List Coll :=
  s.colls.filter (fun x => x.gang == c.gang && x.gid == c.gid && x.k < c.k)

/-- The participants of a collective on other packages, by index. -/
def State.collAway (s : State) (c : Coll) : List Nat :=
  let here := s.collHere c
  (List.range c.size).filter (fun i => !here.contains i)

/-- What arrives of a participant on another package. -/
def CollRx.of (r : CollRx) (c : Coll) (i : Nat) : Bool := r.vf == c.gang.1 && r.gid == c.gid && r.part == i

/-- What has arrived for a collective from other packages: of each participant, what follows its contributions to the
earlier ones (R262, R433). -/
def State.collArrived (s : State) (c : Coll) : List CollRx :=
  (s.collAway c).filterMap (fun i => (s.collRx.filter (fun r => r.of c i))[(s.before c).length]?)

/-- A list without the n-th of the elements that satisfy a test. -/
def dropNth {α : Type} (p : α → Bool) : Nat → List α → List α
  | _, [] => []
  | n, x :: r =>
    if p x then (match n with | 0 => r | n + 1 => x :: dropNth p n r) else x :: dropNth p n r

/-- What has arrived without what a collective takes: later contributions stay, equal ones too. -/
def State.dropArrived (s : State) (c : Coll) : List CollRx :=
  (s.collAway c).foldl (fun l i => dropNth (fun r => r.of c i) (s.before c).length l) s.collRx

/-- Does what has arrived of a participant agree with a participant here: the OP, and the number of elements, where it has sent
elements (R262)? A participant of a reduction that has sent none is one whose elements a switch has combined, when sums have come
under another's index (R434). -/
def rxAgrees (pkgs : List Nat) (p : CollPart) (all : List CollRx) (r : CollRx) : Bool :=
  let n := (remoteShape pkgs p.src r.part r.die r.pkg).ext.prod
  r.op == p.op
  && (!r.cells.isEmpty || r.data.isEmpty && (p.op == 1 || p.op == 2) && r.part != p.root
      || r.data.isEmpty && isReduce p.op && all.any (fun x => !x.cells.isEmpty)
      || (List.range n).all (fun j => (pieceElem p.fmt r.data j).isSome)
          && (pieceElem p.fmt r.data (if p.fmt == 9 then n + n % 2 else n)).isNone)

/-- The operations of the participants here. -/
def State.collOps (s : State) (c : Coll) : List (CollPart × Op) :=
  c.parts.filterMap (fun p => (s.ops.find? (fun o => o.id == p.engine)).map (fun o => (p, o)))

/-! ## What goes to other packages (R433) -/

/-- Send the flits of one transaction that expects no answer: they share a TAG (R430). -/
def State.post (s : State) (pkg vf die : Nat) (bs : List FlitBody) : State :=
  let port := s.portFor die
  let tag := s.newTag die port
  bs.foldl (fun s b => s.send pkg vf tag port b) { s with flits := s.flits + 1 }

/-- The bytes of elements on the wire. -/
def wireBytes (fmt : Nat) (l : List Nat) : List Byte :=
  if fmt == 9 then
    (List.range ((l.length + 1) / 2)).map (fun i => BitVec.ofNat 8 (l.getD (2 * i) 0 % 16 + 16 * (l.getD (2 * i + 1) 0 % 16)))
  else l.flatMap (natLe (elemBytes fmt))

/-- The flits of a participant's contribution. -/
def contribution (gid : Nat) (p : CollPart) (src : List Nat) : List FlitBody :=
  let per := if p.fmt == 9 then 448 else 224 / elemBytes p.fmt
  let b := wireBytes p.fmt src
  (if p.fmt == 9 then [FlitBody.codebook gid p.op p.index p.cb] else [])
    ++ (List.range ((src.length + per - 1) / per)).map (fun i =>
        FlitBody.elem gid p.op p.index (i * per) ((b.drop (224 * i)).take 224))
    ++ [FlitBody.done gid p.op p.index]

/-- The other packages of a hedge. -/
def State.peers (s : State) (vf : Nat) : List Nat :=
  (List.range 256).filter (fun p => p != s.pkg && bit (s.vf vf).hedge.pkgs p)

/-- Send the contributions that have not been sent. -/
def State.sendParts (s : State) (c : Coll) : State :=
  let s := (s.collOps c).foldl (fun s x =>
    if x.1.sent then s
    else
      let bodies := contribution c.gid x.1 ((s.sourceOf x.2).map (·.1))
      (s.peers c.gang.1).foldl (fun s pkg => s.post pkg c.gang.1 x.1.die bodies) s) s
  { s with colls := s.colls.map (fun y =>
      if y.id == c.id then { y with parts := y.parts.map (fun p => { p with sent := true }) } else y) }

/-! ## The event -/

/-- Sources on other packages that are still to be asked for; with no port in reach they are unreadable (R425). -/
def State.unread (s : State) (o : Op) : Bool :=
  s.portsFrom (dieOf o.core) && (match o.body with | .copy ms .. => needRemote ms | _ => false)

/-- Ask for the sources on other packages. -/
def State.askParts (s : State) (c : Coll) : State :=
  (s.collOps c).foldl (fun s x => match x.2.body, s.wg x.2.wg with
    | .copy ms _ _ _ _ _ _ _ _, some w => if s.unread x.2 then s.requestMoves (x.2.mover w.ctxn none) ms else s
    | _, _ => s) s

/-- Have all participants here issued, does nothing of theirs wait, and have the contributions to the earlier collectives
gone? -/
def State.collIdle (s : State) (c : Coll) : Bool :=
  c.parts.length == (s.collHere c).length && (s.collOps c).all (fun x => !s.opWaits x.2)
  && ((s.collAway c).isEmpty
      || (s.before c).all (fun x => x.parts.length == (s.collHere x).length && x.parts.all (fun p => p.sent)))

/-- Have the participants on other packages contributed? -/
def State.collHeard (s : State) (c : Coll) : Bool :=
  (s.collAway c).all (fun i => (s.collArrived c).any (fun r => r.part == i && r.done))

/-- Can nothing come to a participant any more: is no port that its die reaches up (R425, R428)? -/
def State.collCut (s : State) (p : CollPart) : Bool := !s.portsFrom p.die

/-- The codebook that a CB4 collective copies into each destination entry: ROOT's, and for an all-gather that of participant 0
(R262; DESIGN CHOICE entry 64). -/
def State.copyCodebook (s : State) (c : Coll) (rx : List CollRx) (p : CollPart) : State :=
  if p.fmt != 9 then s
  else
    let i := if p.op == 0 then 0 else p.root
    let cb := match c.parts.find? (fun q => q.index == i), rx.find? (fun r => r.part == i) with
      | some q, _ => q.cb
      | none, some r => r.cb
      | none, none => p.cb
    match s.wg p.wg with
    | none => s
    | some w => s.devStore (vfOfCtx w.ctxn) (s.titAddr w p.dstTid + 0x78) (cb.flatMap (fun x => natLe 2 x.toNat))

/-- Give an operation its writes, with the ERR met so far, and perform them. -/
def State.finishPart (s : State) (o : Op) (ms : List Move) (err : Nat) : State :=
  match o.body with
  | .copy _ x dt ct out scl stag bytes oor =>
    let s := (s.setOp { o with body := .copy ms x dt ct out scl stag bytes oor, started := true }).opArrives o.id 0 err
    (match s.ops.find? (fun y => y.id == o.id) with
     | some o => s.runCopy o
     | none => s)
  | _ => s

/-- Read the sources of an operation, and log what cannot be read (R396). -/
def State.readPart (s : State) (o : Op) : State :=
  match o.body, s.wg o.wg with
  | .copy ms _ _ _ _ _ _ _ _, some w => (s.readSources (o.mover w.ctxn none) ms).1
  | _, _ => s

/-- Does a collective take the source of a participant: scatter and broadcast take ROOT's alone (R262)? -/
def CollPart.taken (p : CollPart) : Bool := (p.op != 1 && p.op != 2) || p.index == p.root

/-- Combine and write a collective (R262). ERR 0x1 goes to the participants whose destinations take data that could not be read
(R242), or that cannot come (R425). -/
def State.collFinish (s : State) (c : Coll) : State :=
  let lost := !s.collHeard c
  let rx := (s.collArrived c).filter (·.done)
  let l := s.collOps c
  let s' : State := { s with colls := s.colls.filter (fun x => x.id != c.id), collRx := s.dropArrived c }
  let pkgs := (rx.map (·.pkg)).foldr insertNat [s.pkg]
  if !(partsAgree c.parts && c.parts.all (fun p => rx.all (rxAgrees pkgs p rx))) then l.foldl (fun s x => s.finishPart x.2 [] 3) s'
  else
    let sh := ((c.parts.head?).map (·.src)).getD ⟨[], [], [], []⟩
    let fmt := ((c.parts.head?).map (·.fmt)).getD 0
    let ps := l.map (fun x => s.localPart x.1 x.2) ++ rx.map (remotePart pkgs fmt sh)
    let s' := (l.filter (fun x => x.1.taken)).foldl (fun s x => s.readPart x.2) s'
    let s' := c.parts.foldl (fun s p => s.copyCodebook c rx p) s'
    l.foldl (fun s' x =>
      let w := collWrites pkgs ps lost x.1 s.pkg
      s'.finishPart x.2 w.1 (if w.2 then 1 else 0)) s'

/-- COLLECTIVE_COMPLETE (R262): the sources on other packages are read first, and contributions go to the packages that
hold other participants. -/
def execCollectiveComplete (id : Nat) (s : State) : Out1 :=
  .next (match s.colls.find? (fun c => c.id == id) with
    | none => s
    | some c =>
      if !s.collIdle c then s
      else if (s.collOps c).any (fun x => s.unread x.2) then s.askParts c
      else
        let s := if (s.collAway c).isEmpty then s else s.sendParts c
        if s.collHeard c || c.parts.all s.collCut then s.collFinish c else s)

end Sys2Proof.Machine
end

