-- ==== Sys2Proof/Machine/Wake.lean ====
section
/-! DEFINITION. Events of the scheduler: load arrivals (R40), draws by age (R44), overdue groups (R45), grants and
stalls (R55, R56), the end of a YIELD (R109) and fault records that waited for room (R302). -/

namespace Sys2Proof.Machine

/-- Is a workgroup stopped by SSTEP.FRZ of another of its launch (R327)? -/
def State.frzHeld (s : State) (w : Workgroup) : Bool :=
  s.wgs.any (fun u => u.id != w.id && u.sstepFrz && u.ctxn == w.ctxn && u.launch == w.launch
    && s.threads.any (fun t => t.wg == u.id && (match t.status with | .parked { kind := .debug _, .. } => true | _ => false)))

/-- The issue groups whose loads some threads wait for. -/
def loadGroups (ts : List Thread) : List Nat := (ts.filterMap (fun t => t.loads.head?.map (·.group))).dedup

/-- The data of some threads' tagged loads arrives: those of one issue group become one group (R40). -/
def State.arriveLoads (s : State) (ts : List Thread) (g : Nat) : State :=
  let mine := ts.filter (fun t => t.loads.head?.any (fun l => l.group == g))
  let s := mine.foldl (fun s t => s.setThread t.landLoads) s
  match mine.head? with
  | some t => s.formGroup (s.coreOf t) (mine.map (·.key))
  | none => s

/-- LOAD_DATA_ARRIVAL (R40). -/
def execLoadDataArrival (wg : Nat) (tidxs : List Nat) (s : State) : Out1 :=
  let ts := s.threads.filter (fun t => t.wg == wg && tidxs.contains t.tidx && t.status == .data .load)
  .next ((loadGroups ts).foldl (fun s g => s.arriveLoads ts g) s)

/-- BIN_AGE_DRAW (R44 rule 2): the age, and the hold of a tagged REFORM, have passed. -/
def execBinAgeDraw (core bin : Nat) (s : State) : Out1 :=
  .next (match s.bins.find? (fun b => b.core == core && b.id == bin) with
    | some b => s.drawBin b
    | none => s)

/-- GROUP_OVERDUE (R45): overdue groups rank in the order in which they became so. -/
def execGroupOverdue (group : Nat) (s : State) : Out1 :=
  .next (match s.groups.find? (fun g => g.id == group && !g.overdue) with
    | none => s
    | some g =>
      let rest := s.groups.filter (fun x => x.id != group)
      { s with groups := rest.filter (·.overdue) ++ { g with overdue := true } :: rest.filter (!·.overdue) })

/-! ## Grants -/

/-- The pending grows of a core, oldest first. -/
def State.growsOn (s : State) (core : Nat) : List Grow := s.grows.filter (fun g => g.core == core)

/-- Can the oldest grow of a core be granted? -/
def State.growFits (s : State) (core : Nat) : Bool :=
  match s.growsOn core with
  | [] => false
  | g :: _ => (s.wg g.wg).any (fun w => s.roleFits w g.rid)

/-- ROLE_GROW_GRANT (R54, R55). -/
def execRoleGrowGrant (core : Nat) (s : State) : Out1 :=
  .next (match s.growsOn core with
    | [] => s
    | g :: _ => match s.wg g.wg with
      | none => s
      | some w => if s.roleFits w g.rid && !w.frozen then s.roleComplete w g.rid else s)

/-- OCLAIM_GRANT (R55, R268). -/
def execOclaimGrant (core : Nat) (s : State) : Out1 :=
  .next (match s.claimsOn core with
    | [] => s
    | c :: _ => match s.grantOf core c.acc c.count with
      | some l => if (s.wg c.wg).any (·.frozen) then s else s.endClaim c (some l)
      | none => s)

/-- Does a workgroup have a pending request that the core's free resources cannot satisfy (R56)? -/
def State.starved (s : State) (w : Workgroup) : Bool :=
  s.grows.any (fun g => g.wg == w.id && !s.roleFits w g.rid)
  || s.claims.any (fun c => c.wg == w.id && (s.grantOf c.core c.acc c.count).isNone)

/-- Is a thread or slice of a workgroup ready (R47, R56)? Those that SSTEP.FRZ stops count as blocked (R327). -/
def State.anyReady (s : State) (wg : Nat) : Bool :=
  !(s.wg wg).any s.frzHeld && s.threads.any (fun t => t.wg == wg && (t.status == .ready || t.status == .filed))

/-- The workgroups that are resident on a core, its guests' stand-ins apart. -/
def State.residents (s : State) (core : Nat) : List Workgroup :=
  s.wgs.filter (fun w => w.core == core && w.foreign.isNone)

/-- Is a core stalled on grants (R56)? -/
def State.stalled (s : State) (core : Nat) : Bool :=
  !(s.residents core).isEmpty && (s.residents core).all (fun w => s.starved w && !s.anyReady w.id)

/-- The most recently launched workgroup of a core (R35). -/
def State.youngest (s : State) (core : Nat) : Option Workgroup :=
  (s.residents core).foldl (fun a w => match a with
    | none => some w
    | some x => if x.seq < w.seq then some w else some x) none

/-- The most recent request of a workgroup fails (R56). -/
def State.failRequest (s : State) (w : Workgroup) : State :=
  let g := (s.grows.filter (fun g => g.wg == w.id)).getLast?
  let c := (s.claims.filter (fun c => c.wg == w.id)).getLast?
  let growLast := match g, c with
    | some g, some c => decide (c.id < g.id)
    | some _, none => true
    | none, _ => false
  if growLast then
    let s : State := { s with grows := s.grows.filter (fun g => g.wg != w.id) }
    (s.roleArrived w.id).foldl (fun s t => s.roleLeave w false t) s
  else match c with
    | some c => s.endClaim c none
    | none => s

/-- GRANT_STALL (R56). -/
def execGrantStall (core : Nat) (s : State) : Out1 :=
  .next (if !s.stalled core then s
    else match s.youngest core with
      | some w => s.failRequest w
      | none => s)

/-! ## YIELD and fault records -/

/-- YIELD_HOLD_END (R109): nothing while a shutter is closing on the context. -/
def execYieldHoldEnd (wg tidx : Nat) (s : State) : Out1 :=
  .next (match s.thread ⟨wg, tidx⟩, s.wg wg with
    | some t, some w => (match t.status with
      | .blocked (.yield next) => if (s.ctx w.ctxn).shutter == .opened then s.wake t next else s
      | _ => s)
    | _, _ => s)

/-- A thread as it enters its handler while it is saved, or parks for good: its context is then marked faulted (R304). -/
def State.savedEnter (s : State) (ctxn : Nat) (k : Key) (r : Raise) (latch : BitVec 512) : State :=
  let one (t : Thread) : Thread :=
    match t.enter r latch with
    | some u => { u with status := .filed }
    | none => t.parkForever r
  let stuck := (s.saved.flatMap (·.threads)).any (fun t => t.key == k && (t.enter r latch).isNone)
  let s := s.modThread k one
  if stuck then s.markFaulted ctxn else s

/-- The record of a thread in the save area has been written (R302, R323). -/
def State.savedRecord (s : State) (body : List Byte) (seq : Word) (k : Key) : State :=
  match s.saved.find? (fun x => x.threads.any (fun t => t.key == k)) with
  | none => s
  | some x =>
    match (x.threads.find? (fun t => t.key == k)).map (fun t => t.status) with
    | some (Status.parked p) =>
      if p.seq.isSome then s
      else if p.kind == .trap then s.savedEnter x.wg.ctxn k p.fault (latchOf body seq)
      else s.modThread k (fun t => { t with status := .parked { p with seq := some seq } })
    | _ => s

/-- A thread whose record has been written: a trapping fault is delivered now (R302, R304). -/
def State.recordWritten (s : State) (body : List Byte) (seq : Word) (k : Key) : State :=
  match s.thread k, s.wg k.wg with
  | some t, some w => (match t.status with
    | .parked p =>
      if p.seq.isSome then s
      else if p.kind == .trap then s.deliver w t p.fault (latchOf body seq)
      else s.setThread { t with status := .parked { p with seq := some seq } }
    | _ => s)
  | _, _ => s.savedRecord body seq k

/-- FAULT_RECORD_POST (R302). -/
def execFaultRecordPost (ctx : Nat) (s : State) : Out1 :=
  let c := s.ctx ctx
  .next (match c.waiting with
    | [] => s
    | r :: rest =>
      if !s.ringRoom c then s
      else
        let s := (s.setCtx { c with waiting := rest }).writeRecord { c with waiting := rest } r.body
        r.keys.foldl (fun s k => s.recordWritten r.body (BitVec.ofNat 32 c.fqseq) k) s)

end Sys2Proof.Machine
end

