-- ==== Sys2Proof/Machine/Shutter.lean ====
section
/-! DEFINITION. The shutter (R320 to R324, R413): freezing, saving, forced resets and restores. -/

namespace Sys2Proof.Machine

/-! ## The shutter -/

/-- Workgroups of a context that are resident. -/
def State.residentOf (s : State) (ctxn : Nat) : List Workgroup :=
  s.wgs.filter (fun w => w.ctxn == ctxn && w.foreign.isNone)

/-- Does a launch of a context wait for cores (R413)? -/
def State.waitsForCores (s : State) (ctxn : Nat) : Bool :=
  s.launches.any (fun l => l.ctxn == ctxn && !l.cancelled && l.bound.length < l.nwgx * l.nwgy * l.nwgz)

/-- Set the shutter of a context. -/
def State.setShutter (s : State) (ctxn : Nat) (x : Shutter) : State := s.setCtx { s.ctx ctxn with shutter := x }

/-- The shutter has ended once nothing of the context is resident. -/
def State.settleShutter (s : State) (ctxn : Nat) : State :=
  if (s.ctx ctxn).shutter != .opened && (s.residentOf ctxn).isEmpty then s.setShutter ctxn .opened else s

/-- QUANTUM_EXPIRY (R324, R413): only while another context of the hedge waits for cores. -/
def execQuantumExpiry (ctx : Nat) (s : State) : Out1 :=
  .next (
    if (s.ctx ctx).shutter == .opened && !(s.residentOf ctx).isEmpty
        && (List.range 16).any (fun c => 16 * (ctx / 16) + c != ctx && s.waitsForCores (16 * (ctx / 16) + c)) then
      s.setShutter ctx .draining
    else s)

/-- DRAIN_BUDGET_EXPIRY (R320 step 3). -/
def execDrainBudgetExpiry (ctx : Nat) (s : State) : Out1 :=
  .next (if (s.ctx ctx).shutter == .draining then s.setShutter ctx .closing else s)

/-! ## Freezing -/

/-- Is a thread or slice save-safe (R49, R59, R348)? One that SSTEP.FRZ stops counts as blocked, whatever it waits for
(R327). -/
def State.saveSafe (s : State) (held : Bool) (t : Thread) : Bool :=
  t.away.isNone && (match t.status with
    | .blocked (.stream _) => !s.asksAway t
    | .blocked _ => true
    | .parked _ => true
    | .exited => true
    | .ready => held
    | .filed => held
    | .data _ => held
    | _ => false)

/-- Is every thread of a workgroup save-safe? -/
def State.wgSafe (s : State) (w : Workgroup) : Bool :=
  (s.threads.filter (fun t => t.wg == w.id)).all (s.saveSafe (s.frzHeld w))

/-- The workgroups that freeze with a workgroup: its gang (R320). -/
def State.freezeSet (s : State) (w : Workgroup) : List Workgroup := if w.kernel.gang == 0 then [w] else s.gangHere w

/-- WORKGROUP_FREEZE (R320 step 3). -/
def execWorkgroupFreeze (wg : Nat) (s : State) : Out1 :=
  .next (match s.wg wg with
    | none => s
    | some w =>
      if (s.ctx w.ctxn).shutter == .closing && w.foreign.isNone && (s.freezeSet w).all s.wgSafe then
        (s.freezeSet w).foldl (fun s u => s.modWg u.id (fun u => { u with frozen := true })) s
      else s)

/-! ## Saving -/

/-- Is the instruction at which a thread began to wait an MMA or MMAS? -/
def Thread.inMma (t : Thread) : Bool := [some Opc.mma, some Opc.mmas].contains (opcodeOf (bits t.insn 9 2).toNat)

/-- A thread as it is saved: an operation on gq ends after its step, and the instruction is executed again (R348); a
thread in YIELD stands after it (R109); an MMA that waits, or has waited, starts again from its first step (R274, R295). -/
def Thread.toSave (t : Thread) : Thread :=
  match t.status with
  | .blocked (.stream _) => { t with status := .filed }
  | .blocked (.yield next) => { t with status := .filed, pc := next }
  | .blocked (.gate _) => if t.inMma then { t with status := .filed, seen := none } else t
  | .ready => if t.inMma then { t with status := .filed, seen := none } else { t with status := .filed }
  | .data _ => { t.landLoads with status := .filed, seen := none }
  | _ => t.landLoads

/-- The image of a workgroup with its slots and accumulator tiles (R287, R322). -/
def State.savedOf (s : State) (w : Workgroup) : Saved :=
  { wg := w, threads := (s.threads.filter (fun t => t.wg == w.id)).map Thread.toSave
    slots := (s.heldSlots w).map (fun n => (n, memGetN s.opmem (w.core * 2 ^ 20 + 16384 * n) 16384))
    accs := (s.heldAccs w).map (fun n => (n, memGetN s.accmem (w.core * 2 ^ 18 + 32768 * n) 32768))
    claims := s.claims.filter (fun c => c.wg == w.id), size := Config.saveSize (w.allot * w.nthr + w.spadSize) }

/-- Bytes that the save area of a context holds. -/
def State.savedBytes (s : State) (ctxn : Nat) : Nat :=
  ((s.saved.filter (fun x => x.wg.ctxn == ctxn)).map (·.size)).sum

/-- Barriers outlive a save. -/
def State.takeOut (s : State) (w : Workgroup) : State :=
  { s.removeWg w with
    bars := s.bars
    ops := s.ops.filter (fun o => o.wg != w.id)
    peeks := s.peeks.filter (fun p => !s.ops.any (fun o => o.wg == w.id && p.who == .op o.id)) }

/-- Held writes are given up for good: those that waited behind them are attempted (R392, R393). -/
def State.dropHeld (s : State) (gone : Held → Bool) : State :=
  (s.held.filter gone).foldl (fun s h => (s.settleBlock (h.pa / 1024) s.held.length).serveAll h.vf h.die)
    { s with held := s.held.filter (fun h => !gone h) }

/-- Discard every workgroup of a context, as retired (R320 step 5, R407). -/
def State.discardAll (s : State) (ctxn : Nat) : State :=
  let ws := s.residentOf ctxn ++ (s.saved.filter (fun x => x.wg.ctxn == ctxn)).map (·.wg)
  let s : State := { s with saved := s.saved.filter (fun x => x.wg.ctxn != ctxn) }
  ws.foldl (fun s w =>
    let mine := (s.ops.filter (fun o => o.wg == w.id)).map (fun o => Writer.engine o.core o.id)
    let s : State := { s.removeWg w with
      ops := s.ops.filter (fun o => o.wg != w.id)
      colls := s.colls.filter (fun c => !c.parts.any (fun p => p.wg == w.id)) }
    (s.dropHeld (fun h => h.keys.any (fun k => k.wg == w.id) || mine.contains h.by')).countRetired (vfOfCtx w.ctxn) w.launch) s

/-- A context is force-reset and lost (R320 step 5). -/
def State.forceReset (s : State) (ctxn : Nat) : State :=
  ((s.setCtx { s.ctx ctxn with lost := true }).discardAll ctxn).settleShutter ctxn

/-- Is everything of a workgroup done that a save waits for: its queued operations, its loads, and its held stores, atomics and
cell operations (R263, R287, R321, R395)? A write given up at its deadline is saved with its thread (R394). -/
def State.saveDue (s : State) (wg : Nat) : Bool :=
  !s.ops.any (fun o => o.wg == wg && o.q != 5)
  && !s.held.any (fun h => !h.expired && h.keys.any (fun k => k.wg == wg))
  && !s.txns.any (fun x => match x.by' with | .reply k => k.wg == wg | .fetch k _ => k.wg == wg | _ => false)

/-- The single-step faults of threads that a save takes out of YIELD (R109, R326). -/
def State.endYields (s : State) (w : Workgroup) : State :=
  if !s.steps w then s
  else (s.threads.filter (fun t => t.wg == w.id)).foldl (fun s t => match t.status with
    | .blocked (.yield next) => s.wake t next
    | _ => s) s

/-- Faults that waited for other threads of their groups are taken before a save (R301, R321). -/
def State.endPut (s : State) (w : Workgroup) : State :=
  (s.joins.filter (fun j => j.faulty.any (fun k => k.wg == w.id))).foldl (fun s j => s.raisePut j.core j.faulty) s

/-- WORKGROUP_SAVE (R321, R322, R403). -/
def execWorkgroupSave (wg : Nat) (s : State) : Out1 :=
  .next (match s.wg wg with
    | none => s
    | some w =>
      if !w.frozen || !s.saveDue wg then s
      else
        let s := (s.flushAll.endPut w).endYields w
        let w := (s.wg wg).getD w
        let x := s.savedOf w
        let at' := s.savedBytes w.ctxn
        match (s.ctx w.ctxn).desc with
        | none => s.forceReset w.ctxn
        | some d =>
          if d.savesz < at' + x.size then s.forceReset w.ctxn
          else
            let s := s.bump.devStore (vfOfCtx w.ctxn) (d.save + at') ((List.range x.size).map (Config.saveByte s.freeN))
            ({ s.takeOut w with saved := s.saved ++ [x] } : State).settleShutter w.ctxn)

/-- ESCALATION_DEADLINE (R320 step 5). -/
def execEscalationDeadline (ctx : Nat) (s : State) : Out1 :=
  .next (if (s.ctx ctx).shutter == .closing && !(s.residentOf ctx).isEmpty then s.forceReset ctx else s)

/-! ## Restoring -/

/-- A barrier's name on another core (R37): narrower scopes belong to the instance of the core. -/
def BarKey.moved (k : BarKey) (old new pkg : Nat) : BarKey :=
  if k.scope != 1 && k.inst == scopeInst k.scope old pkg then { k with inst := scopeInst k.scope new pkg } else k

/-- A wait on another core. -/
def Wait.moved (w : Wait) (old new pkg : Nat) : Wait :=
  match w with
  | .barrier k g n => .barrier (k.moved old new pkg) g n
  | .gate (.queueRoom _ q) => .gate (.queueRoom new q)
  | w => w

/-- A thread as it is restored: its waits resume on the new core, and one parked on a resolvable fault executes its
instruction again (R323). -/
def Thread.restored (t : Thread) (old new pkg : Nat) : Thread :=
  let t := { t with arrived := t.arrived.map (fun (a : BarKey × Nat) => (a.1.moved old new pkg, a.2)) }
  match t.status with
  | .blocked w => { t with status := .blocked (w.moved old new pkg) }
  | .parked { kind := .resolve, .. } => { t with status := .filed }
  | _ => t

/-- Move the arrivals of a workgroup at one barrier of its gang to the barrier of its new core. -/
def State.moveBar (s : State) (wg : Nat) (b : Barrier) (k : BarKey) : State :=
  let there := (s.bars.find? (fun x => x.key == k)).getD { key := k, gen := b.gen, arrived := [] }
  (s.setBar { b with arrived := b.arrived.filter (fun x => x.wg != wg) }).setBar
    { there with arrived := there.arrived ++ b.arrived.filter (fun x => x.wg == wg) }

/-- Move the arrivals of a workgroup to the barriers of its new core. -/
def State.moveBars (s : State) (w : Workgroup) (old new : Nat) : State :=
  s.bars.foldl (fun s b =>
    let k := b.key.moved old new s.pkg
    if k != b.key && b.key.owner == (vfOfCtx w.ctxn, w.launch.toNat, w.gang) then s.moveBar w.id b k else s) s

/-- A pending OCLAIM joins the queue anew (R323). -/
def State.reclaim (s : State) (core : Nat) (c : Claim) : State :=
  let id := s.fresh
  { s with
    claims := s.claims ++ [{ c with id, core }]
    threads := s.threads.map (fun t => if c.keys.contains t.key then { t with status := .blocked (.oclaim id) } else t)
    fresh := s.fresh + 1 }

/-- Put slots or accumulator tiles back under their numbers (R287). -/
def State.giveBack (s : State) (core wg : Nat) (x : Saved) : State :=
  let s := s.takeGrant core wg false (x.slots.map (·.1))
  let s := s.takeGrant core wg true (x.accs.map (·.1))
  { s with
    opmem := x.slots.foldl (fun m p => memSetN m (core * 2 ^ 20 + 16384 * p.1) p.2) s.opmem
    accmem := x.accs.foldl (fun m p => memSetN m (core * 2 ^ 18 + 32768 * p.1) p.2) s.accmem }

/-- May a saved workgroup be restored on a core (R287, R323, R410)? -/
def State.restoreOk (s : State) (core slot : Nat) (r : BindRecord) (x : Saved) : Bool :=
  r.valid && core < 256 && slot < 16 && !(s.core core).taken slot && r.ctxn.toNat == x.wg.ctxn
  && r.launch == x.wg.launch && !s.coreBad core r
  && !s.rangesBad (s.core core) r (x.wg.allot * x.wg.nthr) x.wg.kernel.tiles
  && s.threadsOn (s.core core) + x.wg.nthr ≤ 2048
  && (s.ctx x.wg.ctxn).shutter == .opened
  && (x.slots.all (fun p => (s.freeSlots core).contains p.1)) && (x.accs.all (fun p => (s.freeAccs core).contains p.1))
  && ((s.core core).loaded == some x.wg.ctxn || s.coreIdle core)

/-- Load a context on an idle core (R411). -/
def State.loadIdle (s : State) (core ctxn : Nat) : State :=
  if (s.core core).loaded == some ctxn then s
  else (s.loadGraphs ctxn (dieOf core)).setCore { s.core core with loaded := some ctxn }

/-- Restore a workgroup (R323): its threads wait as they did, or are filed (R42); one whose SYSC ended in the save area goes on
(R326). -/
def State.restore (s : State) (core slot : Nat) (r : BindRecord) (x : Saved) : State :=
  let old := x.wg.core
  let w := { x.wg with core, slot, seq := r.seq.toNat, frozen := false }
  let s := s.loadIdle core w.ctxn
  let c := s.core core
  let s := s.setCore { c with slots := c.slots ++ [(slot, r, w.id)], seqMax := r.seq.toNat + 1 }
  let s := (s.giveBack core w.id x).moveBars w old core
  let ts := x.threads.map (fun t => t.restored old core s.pkg)
  let s : State := { s with saved := s.saved.filter (fun y => y.wg.id != w.id), wgs := s.wgs ++ [w], threads := s.threads ++ ts }
  let s := x.claims.foldl (fun s c => s.reclaim core c) s
  let s := ts.foldl (fun s t => match t.status with
    | .filed => s.fileThread { t with ftag := 0 } t.ftag
    | .blocked (.yield next) => s.wake t next
    | _ => s) s
  s.settleArrivals

/-- WORKGROUP_RESTORE (R323). -/
def execWorkgroupRestore (wg core slot : Nat) (r : BindRecord) (s : State) : Out1 :=
  .next (match s.saved.find? (fun x => x.wg.id == wg) with
    | none => s
    | some x => if s.restoreOk core slot r x then s.restore core slot r x else s)

end Sys2Proof.Machine
end

