-- ==== Sys2Proof/Machine/Replay.lean ====
section
/-! DEFINITION. Writes of a virtual function's registers that act: REPLY (R303, R314, R325, R394), GRANT (R413), CTXCLR
(R415), RPLEND (R418) and the debugger's (R419, R420). -/

namespace Sys2Proof.Machine

/-! ## Writes of agents outside -/

/-- A write of an agent to memory, cut at block boundaries (R390, R454). -/
def State.agentWrite (s : State) (vf : Nat) (w : Writer) (pa : Nat) (b : List Byte) : State :=
  (blockPieces (b.length + 1) pa b).foldl (fun s x => s.blockWrite vf w x.1 x.2) s

/-- Are all bytes of a range main memory that is backed for a hedge (R414)? -/
def State.backed (s : State) (vf pa n : Nat) : Bool :=
  let mine (a : Nat) : Bool := (s.frameOf a).any (fun r => r.vf == vf)
  pa + n ≤ 2 ^ 41
    && (List.range ((pa % 65536 + n + 65535) / 65536)).all (fun i => mine (pa / 65536 * 65536 + 65536 * i))

/-! ## REPLY -/

/-- Put a thread in order for RESUME; none where it is not parked under this SEQ on a fault that the driver answers. -/
def Thread.answered (t : Thread) (seq : Word) : Option Park :=
  match t.status with
  | .parked p =>
    if p.seq == some seq then (match p.kind with | .trap => none | .forever => none | _ => some p) else none
  | _ => none

/-- The place where a thread of this park goes on at RESUME. -/
def Park.resumeAt (p : Park) (pc : Dword) : Dword :=
  match p.kind with
  | .sysc n => n
  | .debug e => e
  | _ => pc

/-- Attempt a write again that was given up at its deadline (R394): step 1 of R392. -/
def State.retryHeld (s : State) (id : Nat) : State :=
  match s.held.find? (fun h => h.id == id && h.expired) with
  | none => s
  | some h =>
    let s : State := { s with held := s.held.filter (fun x => x.id != id) }
    match s.attempt h with
    | .done s old => s.heldDone h old
    | .held s _ => s
    | .bad s => s.heldBad h

/-- The late faults that name a held write are dropped with it. -/
def State.dropLate (s : State) (id : Nat) : State :=
  s.threads.foldl (fun s t => s.modThread t.key (fun t => { t with late := t.late.filter (fun l => l.fault.held != some id) })) s

/-- The effect of RESUME and ABORT on the held write behind a park. -/
def State.settlePark (s : State) (p : Park) (again : Bool) : State :=
  match p.kind with
  | .held id =>
    let s := s.dropLate id
    if again then s.retryHeld id else { s with held := s.held.filter (fun h => !(h.id == id && h.expired)) }
  | _ => s

/-- The threads of a context parked under a SEQ. -/
def State.parkedUnder (s : State) (ctxn : Nat) (seq : Word) : List (Thread × Park) :=
  (s.threads ++ (s.saved.flatMap (·.threads))).filterMap (fun t =>
    let home := (s.wgs ++ s.saved.map (·.wg)).find? (fun w => w.id == t.wg)
    if home.any (fun w => w.ctxn == ctxn) then (t.answered seq).map (fun p => (t, p)) else none)

/-- A held thread with its PC, as RESUME will take it up. -/
def Thread.withResume (t : Thread) (pc : Dword) : Thread :=
  match t.status with
  | .parked p => { t with status := .parked { p with kind := .debug pc } }
  | _ => t

/-- A held thread after a write of DBGWIN (R420). -/
def Thread.debugSet (t : Thread) (w : Workgroup) (off : Nat) (val : Dword) : Thread :=
  if off == 0 then t.withResume val
  else if off == 8 then { t with p := (val.setWidth 16) &&& 0x7FFF#16 }
  else if 0x10 ≤ off && off < 0x80 then
    match csrList[(off - 0x10) / 8]? with
    | some n => (match t.csrWrite n val with | .ok t => t | .error _ => t)
    | none => t
  else if off == 0x100 then
    let x := Config.dbgUncarry val
    { t with vb := x.1, vn := x.2.1, ub := x.2.2.1, un := x.2.2.2.1, hops := x.2.2.2.2 }
  else if 0x400 ≤ off && off < 0x600 then
    let n := (off - 0x400) / 4
    let put (t : Thread) (n : Nat) (x : Word) : Thread := if n < w.allot then t.setReg n x else t
    put (put t n (val.setWidth 32)) (n + 1) ((val >>> 32).setWidth 32)
  else t

/-- A workgroup, resident or saved. -/
def State.anyWg (s : State) (id : Nat) : Option Workgroup := (s.wgs ++ s.saved.map (·.wg)).find? (fun w => w.id == id)

/-- SSTEP of a workgroup, resident or saved (R306). -/
def State.setSstep (s : State) (id : Nat) (val : Dword) : State :=
  let f (w : Workgroup) : Workgroup := if w.id == id then { w with sstepEn := bit val 0, sstepFrz := bit val 1 } else w
  { s with wgs := s.wgs.map f, saved := s.saved.map (fun x => { x with wg := f x.wg }) }

/-- RESUME takes up what the debugger has written to a held thread (R420): its CSR SSTEP, at 0x068, is the workgroup's. -/
def State.takeDebug (s : State) (t : Thread) : State :=
  let s := (t.dbg.filter (fun x => x.1 == 0x68)).foldl (fun s x => s.setSstep t.wg x.2) s
  match s.anyWg t.wg with
  | some w => s.modThread t.key (fun t => { t.dbg.foldl (fun t x => t.debugSet w x.1 x.2) t with dbg := [] })
  | none => s

/-- The park of a thread now, or as it was. -/
def Thread.parkNow (t : Thread) (p : Park) : Park := match t.status with | .parked q => q | _ => p

/-- RESUME of one thread (R303, R314, R325, R394): it is filed, after a REFORM that the debugger stepped with its tag (R44,
R326). -/
def State.resumeThread (s : State) (x : Thread × Park) : State :=
  let s := (s.takeDebug x.1).settlePark x.2 true
  match s.thread x.1.key with
  | some t =>
    (match x.2.kind with
     | .sysc n => s.wake t n
     | _ => s.fileThread { t with pc := (t.parkNow x.2).resumeAt t.pc, ftag := 0 } t.ftag)
  | none =>
    let stepped := (s.saved.find? (fun y => y.wg.id == x.1.wg)).any (fun y => s.steps y.wg)
    s.modThread x.1.key (fun t => match x.2.kind with
      | .sysc n => if stepped && !t.key.isSlice then { t with status := .blocked (.yield n) } else { t with status := .filed, pc := n }
      | _ => { t with status := .filed, pc := (t.parkNow x.2).resumeAt t.pc })

/-- The fault that ABORT delivers (R303, R304). -/
def Park.abortFault (p : Park) (code : Byte) : Raise :=
  { code, arg := if p.fault.sysc.isSome then p.fault.arg else 0
    epc := match p.kind with | .debug e => some e | _ => none }

/-- ABORT of one thread: it takes the code as a trapping fault, at home (R375); a held write behind it is discarded. -/
def State.abortThread (s : State) (ctxn : Nat) (code : Byte) (seq : Word) (x : Thread × Park) : State :=
  let s := (s.modThread x.1.key (fun t => { t with dbg := [] })).settlePark x.2 false
  let r := x.2.abortFault code
  match s.thread x.1.key, s.wg x.1.wg with
  | some t, some w => s.deliver w t r (latchOf x.2.body seq)
  | _, _ => s.savedEnter ctxn x.1.key r (latchOf x.2.body seq)

/-- The value written to REPLY (R402). -/
def replyValue (c : Nat) (seq : Word) (abort : Option Byte) : Nat :=
  seq.toNat + c % 16 * 2 ^ 32 + (match abort with | some x => 2 ^ 36 + x.toNat * 2 ^ 40 | none => 0)

/-- A reply: none of it takes effect where no thread is parked under the SEQ. -/
def State.reply (s : State) (vf c : Nat) (seq : Word) (abort : Option Byte) : State :=
  let ctxn := 16 * (vf - 1) + c
  let xs := s.parkedUnder ctxn seq
  if xs.isEmpty || 16 ≤ c then s
  else
    let s := s.logAppend vf 2 (natLe 8 (replyValue c seq abort))
    match abort with
    | none => xs.foldl State.resumeThread s
    | some code => xs.foldl (fun s x => s.abortThread ctxn code seq x) s

/-- REPLY_RESUME (R303, R416). -/
def execReplyResume (vf c : Nat) (seq : Word) (s : State) : Out1 :=
  .next (s.hostReg vf 0x030 8 (replyValue c seq none) (s.reply vf c seq none))

/-- REPLY_ABORT (R303, R304, R416). -/
def execReplyAbort (vf c : Nat) (seq : Word) (code : Byte) (s : State) : Out1 :=
  .next (s.hostReg vf 0x030 8 (replyValue c seq (some code)) (s.reply vf c seq (some code)))

/-! ## GRANT -/

/-- Granules of a die's pool. -/
def State.pool (s : State) (die : Nat) : Nat := s.pools.getD die 0

/-- Granules that a hedge may still take into its reserves (R391, R413). -/
def Vf.headroom (v : Vf) : Nat := v.hedge.quota.toNat - (v.used + v.reserve.sum)

/-- Move granules and tell GRANT how many (R402, R413); then the held writes are served (R392). -/
def State.grantStep (s : State) (vf die count : Nat) (back : Bool) : State :=
  let v := s.vf vf
  let n := if back then min count (v.reserve.getD die 0) else min count (min (s.pool die) v.headroom)
  let low := die + (if back then 4 else 0)
  let s := s.setVf { v with
    reserve := listSet v.reserve die (fun x => if back then x - n else x + n)
    grant := BitVec.ofNat 64 (256 * n + low) }
  { s with pools := listSet s.pools die (fun x => if back then x + n else x - n) }.serveAll vf die

/-- A write of GRANT. -/
def State.grantWrite (s : State) (vf die count : Nat) (back : Bool) : State :=
  if 4 ≤ die then s
  else (s.logAppend vf 3 (natLe 8 (256 * count + die + (if back then 4 else 0)))).grantStep vf die count back

/-- GRANT_GRANULES (R413). -/
def execGrantGranules (vf die count : Nat) (s : State) : Out1 :=
  .next (s.hostReg vf 0x038 8 (256 * count + die % 4) (s.grantWrite vf die count false))

/-- GRANT_RETURN (R413). -/
def execGrantReturn (vf die count : Nat) (s : State) : Out1 :=
  .next (s.hostReg vf 0x038 8 (256 * count + 4 + die % 4) (s.grantWrite vf die count true))

/-! ## CTXCLR -/

/-- Does a workgroup of a context still have queued operations (R263, R415)? -/
def State.ctxBusy (s : State) (ctxn : Nat) : Bool :=
  s.ops.any (fun o => (s.wg o.wg).any (fun w => w.ctxn == ctxn && w.foreign.isNone))

/-- Cancel what a context's launches have not bound (R415 step 3). -/
def State.cancelLaunches (s : State) (ctxn : Nat) : State :=
  let mine := s.launches.filter (fun l => l.ctxn == ctxn)
  let s : State := { s with launches := s.launches.map (fun l => if l.ctxn == ctxn then { l with cancelled := true } else l) }
  mine.foldl (fun s l => s.settleLaunch l.vf l.no) s

/-- Finish the clearing of a context whose queued operations have completed (R415 steps 3 to 5). -/
def State.finishClear (s : State) (ctxn : Nat) : State :=
  if (s.ctx ctxn).clearing && !s.ctxBusy ctxn then
    let s := (s.discardAll ctxn).cancelLaunches ctxn
    (s.setCtx { s.ctx ctxn with faulted := false, lost := false, clearing := false }).settleShutter ctxn
  else s

/-- A context begins to be cleared (R415): while it is faulted or lost, and no replay runs. -/
def State.beginClear (s : State) (vf ctxn : Nat) : State :=
  let c := s.ctx ctxn
  if (c.faulted || c.lost) && !(s.vf vf).rpl then s.setCtx { c with clearing := true } else s

/-- A write of CTXCLR, and what remains of earlier ones. -/
def State.ctxclr (s : State) (vf : Nat) (mask : BitVec 16) : State :=
  let ns := (List.range 16).map (fun c => 16 * (vf - 1) + c)
  let s := (ns.filter (fun n => bit mask (n % 16))).foldl (fun s n => s.beginClear vf n) s
  ns.foldl State.finishClear s

/-- CTXCLR (R415). A mask of 0 is the device's own: what remains of earlier writes. -/
def execCtxclr (vf : Nat) (mask : BitVec 16) (s : State) : Out1 :=
  .next (if mask == 0 then s.ctxclr vf mask else s.hostReg vf 0x098 4 mask.toNat (s.ctxclr vf mask))

/-! ## RPLEND -/

/-- The next entry of a replay is behind it. -/
def State.replayPast (s : State) (vf : Nat) : State := s.setVf { s.vf vf with rplcur := (s.vf vf).rplcur + 1 }

/-- Apply one entry that is no command (R418). -/
def State.replayEntry (s : State) (vf : Nat) (b : List Byte) : State :=
  let x := field b 8 8
  match field b 0 1 with
  | 1 => s
  | 2 =>
    let c := x / 2 ^ 32 % 16
    let seq : Word := BitVec.ofNat 32 x
    if (s.parkedUnder (16 * (vf - 1) + c) seq).isEmpty then s
    else (s.reply vf c seq (if (x / 2 ^ 36).testBit 0 then some (BitVec.ofNat 8 (x / 2 ^ 40)) else none)).replayPast vf
  | 3 => (s.grantStep vf (x % 4) (x / 256) (x.testBit 2)).replayPast vf
  | 4 =>
    let d := (b.drop 16).take (field b 1 1 - 8)
    if s.hostBlocked vf then s else (if s.backed vf x d.length then s.agentWrite vf (.host vf) x d else s).replayPast vf
  | _ => s.replayPast vf

/-- A replay that has reached its end, its commands done, ends; else one entry is applied. -/
def State.replayStep (s : State) (vf : Nat) : State :=
  let v := s.vf vf
  if v.rplend.toNat ≤ v.rplcur then
    (if v.cmds.any (·.replay) then s else s.setVf { v with rpl := false })
  else (s.logRange vf (v.logPlace v.rplcur) 64).replayEntry vf (s.logEntry v v.rplcur)

/-- RPLEND (R402, R418): the write starts the replay; while one runs, its next step. -/
def State.writeRplend (s : State) (vf : Nat) (val : Dword) : State :=
  let v := s.vf vf
  let s := s.setVf { v with rplend := val, rpl := true, rplcur := if v.rpl then v.rplcur else v.rplpos.toNat }
  if v.rpl then s.replayStep vf else s

/-- RPLEND (R418). While a replay runs, the position that is there already is the device's own next step. -/
def execRplend (vf : Nat) (val : Dword) (s : State) : Out1 :=
  .next (if (s.vf vf).rpl && (s.vf vf).rplend == val then s.writeRplend vf val
    else s.hostReg vf 0x0A8 8 val.toNat (s.writeRplend vf val))

/-! ## The debugger -/

/-- DBGSEL (R325, R419). -/
def State.writeDbgsel (s : State) (vf : Nat) (val : Dword) : State :=
  let s := s.setVf { s.vf vf with dbgsel := val &&& 0x800FFFFFFFFFFFFF#64 }
  s.setCtx { s.ctx (16 * (vf - 1) + (bits val 51 48).toNat) with debug := bit val 63 }

/-- DBGSEL (R419). -/
def execDbgsel (vf : Nat) (val : Dword) (s : State) : Out1 := .next (s.hostReg vf 0x080 8 val.toNat (s.writeDbgsel vf val))

/-- DBGSSTEP (R306, R419): ignored where the selected workgroup is not resident. -/
def State.writeSstep (s : State) (vf : Nat) (val : Word) : State :=
  match s.selected (s.vf vf) with
  | none => s
  | some w => (s.setVf { s.vf vf with dbgsstep := val &&& 3#32 }).setSstep w.id (val.setWidth 64)

/-- DBGSSTEP (R419). -/
def execDbgsstep (vf : Nat) (val : Word) (s : State) : Out1 := .next (s.hostReg vf 0x088 4 val.toNat (s.writeSstep vf val))

/-- A write of DBGWIN: it takes effect at the thread's RESUME (R420). -/
def State.writeDbgwin (s : State) (vf off : Nat) (val : Dword) : State :=
  match s.debugged (s.vf vf) with
  | some (_, t) => s.modThread t.key (fun t => { t with dbg := t.dbg ++ [(off, val)] })
  | none => s

/-- DBGWIN (R420). -/
def execDbgwin (vf off : Nat) (val : Dword) (s : State) : Out1 :=
  .next (s.hostReg vf (0x800 + off) 8 val.toNat (s.writeDbgwin vf off val))

end Sys2Proof.Machine
end

