-- ==== Sys2Proof/Machine/Frames.lean ====
section
/-! DEFINITION. What the physical function does to hedges: hedge records (R412) and frames (R413, R414). -/

namespace Sys2Proof.Machine

/-! ## Hedge records -/

/-- Does a hedge have resident workgroups, guests or outstanding commands (R412, R414)? -/
def State.hedgeBusy (s : State) (vf : Nat) : Bool :=
  s.wgs.any (fun w => vfOfCtx w.ctxn == vf) || (s.vf vf).head != (s.vf vf).tail || !(s.vf vf).cmds.isEmpty

/-- Do two records share cores or colours (R412)? -/
def hedgesMeet (a b : HedgeRecord) : Bool :=
  (a.cmask &&& b.cmask) != 0
  || (List.range 4).any (fun d =>
      let x := a.cores.getD d (0, 0)
      let y := b.cores.getD d (0, 0)
      rangesMeet x.1 (x.2 - x.1) y.1 (y.2 - y.1))

/-- Does a record keep its fields in their ranges (R412)? GWT 0 stands while a record is being written (entry 39). -/
def hedgeInRange (r : HedgeRecord) : Bool :=
  r.cores.length == 4 && r.cores.all (fun c => c.1 ≤ 64 && c.2 ≤ 64) && r.wsbase.toNat + r.wssize.toNat ≤ 8192
  && r.rcq.toNat ≤ 64 && r.pceil.toNat ≤ 3

/-- May the physical function give a hedge this record? Its QUOTA must cover what it holds (R391). -/
def State.hedgeOk (s : State) (vf : Nat) (r : HedgeRecord) : Bool :=
  let others := s.vfs.filter (fun v => v.no != vf)
  hedgeInRange r && !others.any (fun v => hedgesMeet r v.hedge)
  && (others.map (fun v => v.hedge.quota.toNat)).sum + r.quota.toNat ≤ 2 ^ 34
  && (s.vf vf).used + (s.vf vf).reserve.sum ≤ r.quota.toNat

/-- A write of a hedge's record. -/
def State.writeHedge (s : State) (vf : Nat) (r : HedgeRecord) : State :=
  if vf == 0 || 64 < vf then s
  else if s.hedgeBusy vf || !s.hedgeOk vf r then s.logEvent 0x05 0 vf [vf]
  else s.setVf { s.vf vf with hedge := r }

/-- HEDGE_RECORD_WRITE (R412). -/
def execHedgeRecordWrite (vf : Nat) (r : HedgeRecord) (s : State) : Out1 := .next (s.writeHedge vf r)

/-- The record of an image of 128 bytes. -/
def parseHedge (b : List Byte) : HedgeRecord :=
  { cores := (List.range 4).map (fun d => (field b (2 * d) 1, field b (2 * d + 1) 1)), cmask := BitVec.ofNat 16 (field b 8 2)
    wsbase := BitVec.ofNat 32 (field b 0x0C 4), wssize := BitVec.ofNat 32 (field b 0x10 4)
    quota := BitVec.ofNat 64 (field b 0x18 8), rtgt := BitVec.ofNat 32 (field b 0x20 4), toos := BitVec.ofNat 32 (field b 0x24 4)
    gwt := BitVec.ofNat 8 (field b 0x28 1), rcq := BitVec.ofNat 8 (field b 0x29 1), pceil := BitVec.ofNat 8 (field b 0x2A 1)
    quant := BitVec.ofNat 32 (field b 0x2C 4), drain := BitVec.ofNat 32 (field b 0x30 4), escal := BitVec.ofNat 32 (field b 0x34 4)
    pkgs := BitVec.ofNat 256 (field b 0x40 32) }

/-! ## Frames -/

/-- The colour of a frame (R413). -/
def colourOf (pa : Nat) : Nat :=
  (pa / 2 ^ 16 % 16) ^^^ (pa / 2 ^ 20 % 16) ^^^ (pa / 2 ^ 24 % 16) ^^^ (pa / 2 ^ 28 % 16) ^^^ (pa / 2 ^ 32 % 16)

/-- First frame and number of frames that FADDR and FCOUNT name; none where they are malformed. -/
def Mgmt.range (m : Mgmt) : Option (Nat × Nat) :=
  let a := m.faddr.toNat
  let n := m.fcount.toNat
  if a % 65536 != 0 || n == 0 || 16777216 < n || 2 ^ 25 < a / 65536 + n then none else some (a / 65536, n)

/-- Frames of a range that a die is home to (R21). -/
def framesOn (die first n : Nat) : Nat := min (first + n) ((die + 1) * 2 ^ 23) - max first (die * 2 ^ 23)

/-- Number of the frames of a range that runs cover. -/
def coveredBy (rs : List FrameRun) (first n : Nat) : Nat :=
  (rs.map (fun r => min (first + n) (r.first + r.count) - max first r.first)).sum

/-- A command ends with a status that FSTAT shows once it is done (R414). -/
def State.frameEnds (s : State) (st : Word) : State := { s with mgmt := { s.mgmt with fstat := 1, fnext := st } }

/-- Forget the contents of a range of frames. -/
def State.dropFrames (s : State) (first n : Nat) : State :=
  let lo := 65536 * first
  let s := s.flushAll
  { s with
    images := s.images.filter (fun i => i.block < 64 * first || 64 * (first + n) ≤ i.block)
    replicas := s.replicas.filter (fun r => r.line < 1024 * first || 1024 * (first + n) ≤ r.line)
    mem := memDrop s.mem lo (65536 * n)
    gran := memDrop s.gran lo (65536 * n)
    bmeta := s.bmeta.filter (fun e => e.1 < 64 * first || 64 * (first + n) ≤ e.1)
    poison := s.poison.filter (fun a => a < lo || lo + 65536 * n ≤ a)
    held := s.held.filter (fun h => h.pa < lo || lo + 65536 * n ≤ h.pa) }

/-- Move granules of every die between its pool and plain frames. -/
def State.poolFrames (s : State) (first n : Nat) (take : Bool) : State :=
  { s with pools := (List.range 4).map (fun d =>
      if take then s.pool d - 1024 * framesOn d first n else s.pool d + 1024 * framesOn d first n) }

/-- Why a back command is refused (R414), if it is. -/
def State.backStatus (s : State) (vf first n : Nat) (cmp : Bool) : Option Word :=
  if !((List.range n).all (fun i => (s.vf vf).hedge.cmask.getLsbD (colourOf (65536 * (first + i))))) then some 2
  else if coveredBy s.frames first n != 0 then some 3
  else if !cmp && (List.range 4).any (fun d => s.pool d < 1024 * framesOn d first n) then some 4
  else none

/-- Back frames for a hedge. -/
def State.frameBack (s : State) (vf : Nat) (cmp : Bool) : State :=
  if s.mgmt.fstat == 1 then s
  else match s.mgmt.range with
    | none => s.frameEnds 5
    | some (first, n) =>
      if vf == 0 || 64 < vf then s.frameEnds 5
      else match s.backStatus vf first n cmp with
        | some st => s.frameEnds st
        | none =>
          let s := s.dropFrames first n
          let s := if cmp then s else s.poolFrames first n true
          ({ s with frames := s.frames ++ [{ first, count := n, vf, cmp }] } : State).frameEnds 0

/-- FRAME_BACK (R414). -/
def execFrameBack (vf : Nat) (cmp : Bool) (s : State) : Out1 := .next (s.frameBack vf cmp)

/-- What a release leaves of a run. -/
def cutRun (r : FrameRun) (first n : Nat) : List FrameRun :=
  let lo := max first r.first
  let hi := min (first + n) (r.first + r.count)
  if hi ≤ lo then [r]
  else [{ r with count := lo - r.first }, { r with first := hi, count := r.first + r.count - hi }].filter (fun x => x.count != 0)

/-- Granules of compressible blocks of a range on a die. -/
def State.granulesOn (s : State) (die first n : Nat) : Nat :=
  ((s.bmeta.filter (fun e => 64 * first ≤ e.1 && e.1 < 64 * (first + n) && homeDie (1024 * e.1) == die)).map
    (fun e => metaNg e.2)).sum

/-- Release what lies in a range of backed frames. -/
def State.releaseRange (s : State) (vf first n : Nat) : State :=
  let plain := s.frames.filter (fun r => !r.cmp)
  let back := (List.range 4).map (fun d =>
    s.granulesOn d first n + 1024 * (plain.map (fun r =>
      let lo := max first r.first
      framesOn d lo (min (first + n) (r.first + r.count) - lo))).sum)
  let freed := ((List.range 4).map (fun d => s.granulesOn d first n)).sum
  let s : State := { s with pools := (List.range 4).map (fun d => s.pool d + back.getD d 0) }
  let s := (s.setVf { s.vf vf with used := (s.vf vf).used - freed }).dropFrames first n
  { s with frames := s.frames.flatMap (fun r => cutRun r first n) }

/-- Release frames of a hedge. -/
def State.frameRelease (s : State) (vf : Nat) : State :=
  if s.mgmt.fstat == 1 then s
  else match s.mgmt.range with
    | none => s.frameEnds 5
    | some (first, n) =>
      if vf == 0 || 64 < vf then s.frameEnds 5
      else if s.hedgeBusy vf then s.frameEnds 6
      else if coveredBy (s.frames.filter (fun r => r.vf == vf)) first n != n then s.frameEnds 3
      else (s.releaseRange vf first n).frameEnds 0

/-- FRAME_RELEASE (R414). -/
def execFrameRelease (vf : Nat) (s : State) : Out1 := .next (s.frameRelease vf)

/-- FRAME_COMMAND_DONE (R414). -/
def execFrameCommandDone (s : State) : Out1 :=
  .next (if s.mgmt.fstat == 1 then { s with mgmt := { s.mgmt with fstat := s.mgmt.fnext } } else s)

end Sys2Proof.Machine
end

