-- ==== Sys2Proof/Machine/GraphInstr.lean ====
section
/-! DEFINITION. Graph and cursor instructions (R341 to R361), opcodes 0x90 to 0xA6, and the events that perform graph
operations and stream steps. -/

namespace Sys2Proof.Machine

/-! ## Operands -/

/-- The graph form of an instruction. -/
def graphFormOf : Instr → Option GraphForm
  | .vins f | .vdel f | .vget f | .vset f | .deg f | .eins f | .edel f | .eget f | .epget f | .epset f | .efind f
  | .copen f | .cnext f | .cpeek f | .cclose f | .csave f | .crest f | .sinter f | .sdiff f | .ghome f | .vatom f
  | .gstat f | .crank f => some f
  | _ => none

/-- Does an instruction walk a cursor that its A field names (R357)? -/
def walks (o : Opc) : Bool := o == .cnext || o == .cpeek || o == .crank

/-- A cursor register. -/
def Thread.cursor (t : Thread) (r : Reg) : BitVec 128 := t.cur.toList.getD (r.toNat % 8) 0

/-- Write a cursor register. -/
def Thread.setCursor (t : Thread) (r : Reg) (x : BitVec 128) : Thread :=
  if h : r.toNat % 8 < 8 then { t with cur := t.cur.set (r.toNat % 8) x h } else t

/-- Is operand B a 64-bit operand (R341, R357)? -/
def wideB (o : Opc) : Bool := [Opc.eins, .edel, .epget, .epset, .efind, .copen].contains o

/-- Operands A, B and C as 64-bit values; the reference of a cursor's vertex stands for A (R344, R359). -/
def graphOperands (o : Opc) (f : GraphForm) (w : Workgroup) (t : Thread) : Dword × Dword × Dword :=
  (if walks o then curRef (t.cursor f.v.a) else V3.srcA64 f.v w t,
   if wideB o then V3.srcB64 f.v w t else (V3.srcB f.v w t).setWidth 64,
   (V3.srcC f.v w t).setWidth 64)

/-- The registers that a result goes to (R345, R359). -/
def Thread.graphResult (t : Thread) (o : Opc) (f : GraphForm) (r : GRes) : Thread :=
  let d := f.v.d.toNat
  let w (i : Nat) : Word := (r.d >>> (32 * i)).setWidth 32
  let t := match o with
    | .vget | .deg | .epget | .efind | .ghome => t.setReg d (w 0)
    | .eins => t.setRegs d [w 0, w 1]
    | .eget | .gstat | .cnext | .cpeek | .crank => t.setRegs d [w 0, w 1, w 2, w 3]
    | _ => t
  let t := match o with
    | .copen => t.setCursor f.v.d r.cur
    | .cnext => t.setCursor f.v.a r.cur
    | _ => t
  if o == .ghome || o == .gstat then t else t.setPred f.w2.pd r.pd

/-- Registers in the D group of an instruction. -/
def graphWidth (o : Opc) : Nat :=
  match o with
  | .vget | .deg | .epget | .efind => 1
  | .eins => 2
  | .eget | .cnext | .cpeek | .crank => 4
  | _ => 0

/-! ## Performing -/

/-- Perform an operation at an agent of this package and go on (R337). -/
def State.graphHere (s : State) (t : Thread) (i : Instr) (o : Opc) (f : GraphForm) (d : GraphDesc)
    (a b c : Dword) : Res :=
  match s.graphOp ((s.wg t.wg).any (·.kernel.det)) d o f.w2 a b c (t.cursor f.v.a) with
  | .error r => .fault s r
  | .ok (s, r) => .go s ((t.graphResult o f r).onward i)

/-- A thread whose operation cannot be carried to its home (R428). -/
def Thread.graphLate (t : Thread) (insn : Word) (o : Opc) (f : GraphForm) (a : Dword) : Thread :=
  { t with late := t.late ++ [{
    fault := { code := 0x0C, space := 3, addr := (graphFault 0 (refGraph a) (refId a) 0).addr, site := some (t.pc, insn) }
    dest := (f.v.d.toNat, graphWidth o), pd := some f.w2.pd }] }

/-- Does an EINS name an end that is homed here and absent? Then it changes nothing, wherever the other end is (R346). -/
def State.endAbsent (s : State) (d : GraphDesc) (o : Opc) (b : Dword) : Bool :=
  o == .eins && (s.vertexHome d (refId b)).1 == s.pkg && (s.vertex d.ctxn d.g (refId b)).isNone

/-- A transaction with the home on another package (R350, R431), once the end homed here has what it needs (R339, R340). The
thread's `seen` tells that it has been sent, so that nothing is checked again when its answer has come. -/
def State.graphAway (s : State) (w : Workgroup) (t : Thread) (i : Instr) (o : Opc) (f : GraphForm) (d : GraphDesc) (pkg : Nat)
    (a b c : Dword) : Res :=
  let die := dieOf (s.coreOf t)
  if !s.portsFrom die then .go s ((t.graphLate s.cur.insn o f a).onward i)
  else if s.endAbsent d o b then .go s ((t.graphResult o f (gval 0 false)).onward i)
  else match s.endNeeds w.kernel.det d o a b with
    | .error r => .fault s r
    | .ok s =>
      let body : FlitBody := .graphop s.cur.insn f.w2.encode a b c w.ctxn (if walks o then t.cursor f.v.a else 0) 0
      let r := s.request pkg (vfOfCtx w.ctxn) die body (.reply t.key)
      let ends := s.endsHere d o a b
      let change := if ends.isEmpty then none else (endChange d o f.w2 a b c).map (fun x => (d.ctxn, d.g, x))
      .hold { r.1 with txns := r.1.txns.map (fun x => if x.tag == r.2 && x.pkg == pkg then { x with ends, change } else x) }
        { t with status := .data (.txn r.2 false), seen := some [6] }

/-- The answer to a thread's GRAPHOP (R350, R431). DESIGN CHOICE (entry 13): the record of a fault that the other package answers
with has page index 0, as NEG carries the code alone. -/
def State.graphAnswer (s : State) (t : Thread) (i : Instr) (o : Opc) (f : GraphForm) (a : Dword) : Res :=
  let mine := s.replies.filter (fun r => r.key == t.key)
  let s : State := { s with replies := s.replies.filter (fun r => r.key != t.key) }
  let late : Res := .go s ((t.graphLate s.cur.insn o f a).onward i)
  match (mine.head?.map Reply.body : Option FlitBody) with
  | some (.graphres pd x cur0 _ _ _) =>
    .go s ((t.graphResult o f { d := x, pd, cur := cur0 }).onward i)
  | some (.neg reason code) =>
    if reason == 1 && code != 0 then .fault s (graphFault code (refGraph a) (refId a) 0) else late
  | _ => late

/-- Does an operation name a vertex whose list another package is changing (R337)? -/
def State.graphLocked (s : State) (ctxn : Nat) (o : Opc) (a b : Dword) : Bool :=
  s.locked ctxn (refGraph a) (refId a)
  || (o == .eins && s.locked ctxn (refGraph b) (refId b))
  || ((o == .edel || o == .epset) && s.edges.any (fun e => e.ctxn == ctxn && e.g == refGraph a && e.handle == b
      && (s.locked ctxn e.g e.u || s.locked ctxn e.g e.v)))

/-- Perform an operation from where the thread is (R350): COPEN's start id is checked first (R359). A home on another die
performs it at its own time, `now`; `seen` tells then that the thread has tried to depart. -/
def State.graphPerform (s : State) (w : Workgroup) (t : Thread) (i : Instr) (o : Opc) (f : GraphForm) (d : GraphDesc)
    (home : Nat × Nat) (now : Bool) (a b c : Dword) : Res :=
  if o == .copen && bit f.w2.idx 0 && bits b 63 40 != 0 then .fault s (trapOf 0x07)
  else if home.1 == s.pkg && !s.reaches (dieOf (s.coreOf t)) home.2 then .go s ((t.graphLate s.cur.insn o f a).onward i)
  else if (!now && home.1 == s.pkg && home.2 != dieOf (s.coreOf t)) || s.graphLocked w.ctxn o a b then
    .hold s { t with status := .data (.graph i s.cur.id), seen := if f.w2.mig then some [7] else none }
  else if home.1 != s.pkg then s.graphAway w t i o f d home.1 a b c
  else s.graphHere t i o f d a b c

/-- The checks of R344 after the first vertex operand. -/
def State.graphChecks (s : State) (die : Nat) (w : Workgroup) (o : Opc) (f : GraphForm) (d : GraphDesc) (a b : Dword) :
    Option Raise :=
  let two := o == .eins || o == .efind
  match (if two then s.vertexGraph w.ctxn die b else .ok d) with
  | .error r => some r
  | .ok e =>
    if e.g != d.g then some (graphFault 0x0E d.g (refId a) 0)
    else if f.w2.dirn == 1 && !d.directed then some (trapOf 0x07)
    else if [Opc.vget, .vset, .vatom].contains o && d.vpw ≤ f.w2.idx.toNat then some (trapOf 0x07)
    else if [Opc.epget, .epset].contains o && d.epw ≤ f.w2.idx.toNat then some (trapOf 0x07)
    else none

/-- Does a thread wait for its operation at the home of another die or package to be performed? -/
def State.graphAsks (s : State) (group : Nat) (u : Thread) : Bool :=
  match u.status with
  | .data (.graph _ g) => g == group
  | .data (.txn _ false) => !s.replied u
  | _ => false

/-- Does a thread of the group, of a lower TIDX, wait for its home? Then the later ones wait behind it: the operations of one
instruction take effect in ascending TIDX (R337), across packages too. -/
def State.groupBehind (s : State) (t : Thread) : Bool :=
  s.cur.keys.any (fun k => k.tidx < t.tidx && (s.thread k).any (s.graphAsks s.cur.id))

/-- A graph or cursor instruction that reaches a home, after its checks (R344, R350, R359). -/
def State.graphMove (s : State) (w : Workgroup) (t : Thread) (i : Instr) (o : Opc) (f : GraphForm) (d : GraphDesc) (now : Bool)
    (a b c : Dword) : Res :=
  let home := s.vertexHome d (refId a)
  let here (s : State) : Res := s.graphPerform w { t with seen := none } i o f d home now a b c
  if o == .ghome then .go s ((t.graphResult o f (gval (home.2 + 256 * home.1) true)).onward i)
  else if o == .gstat then
    let r := s.gstatOp d
    .go r.1 ((t.graphResult o f r.2).onward i)
  else if !f.w2.mig || t.seen == some [7] then here s
  else match s.departure w t home (fun t => t) none with
    | .here => here s
    | .left s t => .hold s t
    | .refused s n => if silent w n || f.w2.fall then here s else .fault s (graphFault 0x0A d.g (refId a) 0)

/-- One thread's step of a graph or cursor instruction that reaches a home (R344, R359). -/
def State.graphStep (i : Instr) (o : Opc) (f : GraphForm) (now : Bool) (s : State) (w : Workgroup) (t : Thread) : Res :=
  let t := { t with status := .ready }
  let x := graphOperands o f w t
  if t.seen == some [6] then s.graphAnswer { t with seen := none } i o f x.1
  else if s.groupBehind t then .hold s { t with status := .data (.graph i s.cur.id) }
  else if walks o && !curOpen (t.cursor f.v.a) then .fault s (trapOf 0x07)
  else
    let die := dieOf (s.coreOf t)
    match s.vertexGraph w.ctxn die x.1 with
    | .error r => .fault s r
    | .ok d => match s.graphChecks die w o f d x.1 x.2.1 with
      | some r => .fault s r
      | none => s.graphMove w t i o f d now x.1 x.2.1 x.2.2

/-- A graph or cursor instruction that reaches a home, for the threads of the group (R337). -/
def State.graphInstr (s : State) (i : Instr) (o : Opc) (f : GraphForm) : Out1 :=
  .next (s.forThreads i (State.graphStep i o f false))

/-! ## The instructions -/

/-- VINS (R345). -/
def execVins (f : GraphForm) (s : State) : Out1 := s.graphInstr (.vins f) .vins f
/-- VDEL (R345). -/
def execVdel (f : GraphForm) (s : State) : Out1 := s.graphInstr (.vdel f) .vdel f
/-- VGET (R345). -/
def execVget (f : GraphForm) (s : State) : Out1 := s.graphInstr (.vget f) .vget f
/-- VSET (R345). -/
def execVset (f : GraphForm) (s : State) : Out1 := s.graphInstr (.vset f) .vset f
/-- DEG (R345). -/
def execDeg (f : GraphForm) (s : State) : Out1 := s.graphInstr (.deg f) .deg f
/-- EINS (R346). -/
def execEins (f : GraphForm) (s : State) : Out1 := s.graphInstr (.eins f) .eins f
/-- EDEL (R346). -/
def execEdel (f : GraphForm) (s : State) : Out1 := s.graphInstr (.edel f) .edel f
/-- EGET (R345). -/
def execEget (f : GraphForm) (s : State) : Out1 := s.graphInstr (.eget f) .eget f
/-- EPGET (R345). -/
def execEpget (f : GraphForm) (s : State) : Out1 := s.graphInstr (.epget f) .epget f
/-- EPSET (R345). -/
def execEpset (f : GraphForm) (s : State) : Out1 := s.graphInstr (.epset f) .epset f
/-- EFIND (R345). -/
def execEfind (f : GraphForm) (s : State) : Out1 := s.graphInstr (.efind f) .efind f
/-- COPEN (R359). -/
def execCopen (f : GraphForm) (s : State) : Out1 := s.graphInstr (.copen f) .copen f
/-- CNEXT (R359). -/
def execCnext (f : GraphForm) (s : State) : Out1 := s.graphInstr (.cnext f) .cnext f
/-- CPEEK (R359). -/
def execCpeek (f : GraphForm) (s : State) : Out1 := s.graphInstr (.cpeek f) .cpeek f
/-- CRANK (R359). -/
def execCrank (f : GraphForm) (s : State) : Out1 := s.graphInstr (.crank f) .crank f
/-- GHOME (R345). -/
def execGhome (f : GraphForm) (s : State) : Out1 := s.graphInstr (.ghome f) .ghome f
/-- GSTAT (R345). -/
def execGstat (f : GraphForm) (s : State) : Out1 := s.graphInstr (.gstat f) .gstat f
/-- VATOM (R345). -/
def execVatom (f : GraphForm) (s : State) : Out1 := s.graphInstr (.vatom f) .vatom f

/-- CCLOSE (R360). -/
def execCclose (f : GraphForm) (s : State) : Out1 := s.alu (.cclose f) (fun _ t => t.setCursor f.v.d 0)

/-- CSAVE and CREST: an access of 16 bytes of the origin's allotment (R360, R372). -/
def State.cursorMem (s : State) (w : Workgroup) (t : Thread) (f : GraphForm) (g : Nat → Res) : Res :=
  let off := (V3.srcA f.v w t).toNat
  match w.spadWord off 16 16 with
  | .error r => .fault s r
  | .ok _ => g off

/-- The address of a scratchpad offset in a record. -/
def spadVa (off : Nat) : BitVec 80 := BitVec.ofNat 80 (2 * 2 ^ 76 + off)

/-- CSAVE (R360): an ordinary store to the scratchpad. -/
def execCsave (f : GraphForm) (s : State) : Out1 :=
  let i : Instr := .csave f
  .next (s.forThreads i (fun s w t => s.cursorMem w t f (fun off =>
    (s.writeLoc w t (.spad off) (.store (natLe 16 (t.cursor f.v.d).toNat)) 0 none (spadVa off) [t.key]).res i t (spadVa off) 16
      (0, 0) none (fun _ => t))))

/-- The late 0x0C of a CREST whose bytes cannot be read: its destination is the cursor (R195, R360). -/
def Thread.crestLate (t : Thread) (insn : Word) (f : GraphForm) (off : Nat) : Thread :=
  { t with late := t.late ++ [{ fault := { spadFault 0x0C off with site := some (t.pc, insn) }, dest := (0, 0), pd := none,
                                cd := some f.v.d.toNat }] }

/-- CREST (R354, R360): an ordinary load from the scratchpad. -/
def execCrest (f : GraphForm) (s : State) : Out1 :=
  let i : Instr := .crest f
  .next (s.forThreads i (fun s w t => s.cursorMem w t f (fun off =>
    match s.readLoc w t (.spad off) 16 0 false with
    | .got s b =>
      let x : BitVec 128 := BitVec.ofNat 128 (leNat b)
      if curMalformed x then .fault s (trapOf 0x07) else .go s ((t.setCursor f.v.d x).onward i)
    | _ => .go s ((t.crestLate s.cur.insn f off).onward i))))

/-! ## SINTER and SDIFF (R347 to R349) -/

/-- Append the operation to gq once the checks have passed and gq has room (R349). -/
def State.streamAppend (s : State) (w : Workgroup) (t : Thread) (diff : Bool) (f : GraphForm) : Res :=
  let core := s.coreOf t
  if !s.gateHolds w (.queueRoom core 5) then .hold s (t.gated (.queueRoom core 5) [])
  else
    let lb := if bit f.w2.idx 0 then some ((V3.srcC64 f.v w t) &&& 0xFFFFFFFFFF#64) else none
    let o : Op := { id := s.fresh, core, q := 5, wg := t.wg, issuer := t.tidx, started := false, err := 0,
                    body := .stream diff (f.v.a.toNat % 8) (f.v.b.toNat % 8) lb (bit f.w2.idx 1) f.v.d.toNat }
    .hold { s with ops := s.ops ++ [o], fresh := s.fresh + 1 } { t with status := .blocked (.stream o.id), seen := none }

/-- SINTER and SDIFF up to their place on gq (R344, R347). -/
def State.streamInstr (s : State) (i : Instr) (diff : Bool) (f : GraphForm) : Out1 :=
  .next (s.forThreads i (fun s w t =>
    let ca := t.cursor f.v.a
    let cb := t.cursor f.v.b
    let die := dieOf (s.coreOf t)
    if !(curOpen ca && curOpen cb) then .fault s (trapOf 0x07)
    else match s.vertexGraph w.ctxn die (curRef ca), s.vertexGraph w.ctxn die (curRef cb) with
      | .error r, _ => .fault s r
      | _, .error r => .fault s r
      | .ok d, .ok _ =>
        if !f.w2.mig then s.streamAppend w t diff f
        else match s.departure w t (s.vertexHome d (curId ca)) (fun t => t) none with
          | .here => s.streamAppend w t diff f
          | .left s t => .hold s t
          | .refused s n =>
            if silent w n || f.w2.fall then s.streamAppend w t diff f
            else .fault s (graphFault 0x0A d.g (curId ca) 0)))

/-- SINTER (R347). -/
def execSinter (f : GraphForm) (s : State) : Out1 := s.streamInstr (.sinter f) false f
/-- SDIFF (R347). -/
def execSdiff (f : GraphForm) (s : State) : Out1 := s.streamInstr (.sdiff f) true f

/-- One pass of the walk (R347): the matched reference, if it counts, and the cursors after it; none at the end. `same`: A and B
name one cursor, which then advances twice. -/
def streamPass (diff same : Bool) (ma mb : Bool) (la lb : List (Nat × Dword)) (ca cb : BitVec 128) (bound : Option Dword) :
    Option (Option Dword × BitVec 128 × BitVec 128) :=
  let counts (x : Nat × Dword) : Bool := match bound with | none => true | some b => b.toNat < x.1
  let hit (m : Bool) (x : Nat × Dword) : Option Dword := if m && counts x then some (refOf (curGraph ca) x.1) else none
  match successor ma ca la, successor mb cb lb with
  | none, _ => none
  | some x, none => if diff then some (hit true x, curAdvance ma ca x, cb) else none
  | some x, some y =>
    let ca' := curAdvance ma ca x
    if x.1 < y.1 then some (hit diff x, ca', cb)
    else if y.1 < x.1 then some (none, ca, curAdvance mb cb y)
    else if same then
      let c := (successor ma ca' la).elim ca' (curAdvance ma ca')
      some (hit (!diff) x, c, c)
    else some (hit (!diff) x, ca', curAdvance mb cb y)

/-! ### Lists homed on other packages (R347, R349; entry 25) -/

/-- What a package answers to a look at a list, as the fault of the step. -/
def peekFault (c : BitVec 128) : FlitBody → Raise
  | .neg reason code => graphFault (if reason == 1 && code != 0 then code else 0x0C) (curGraph c) (curId c) 0
  | _ => graphFault 0x0C (curGraph c) (curId c) 0

/-- The list of a cursor as a step sees it: of this package, once its agent has what it needs (R339), or the entry that a look at
another package has brought. None where no answer has come. -/
def State.streamList (s : State) (det : Bool) (who : PeekBy) (second : Bool) (d : GraphDesc) (c : BitVec 128) :
    Except Raise (State × Option (List (Nat × Dword))) :=
  if (s.vertexHome d (curId c)).1 == s.pkg then (s.agentNeeds det d (curId c) 0).map (fun s => (s, some (s.curList d c)))
  else match (s.peeks.find? (fun p => p.who == who && p.second == second)).map Peek.body with
    | none => .ok (s, none)
    | some (.graphres pd x _ _ _ _) => .ok (s, some (if pd then [(refId (x.setWidth 64), (x >>> 64).setWidth 64)] else []))
    | some b => .error (peekFault c b)

/-- CPEEK, whose GRAPHOP looks at a list. -/
def peekForm : GraphForm :=
  { v := { d := 0, a := 0, b := 0, kb := false, fm := .plain }
    w2 := { op := 0, idx := 0, fall := false, mig := false, dirn := 0, pd := 15 } }

/-- Ask the home of a cursor's list for its next entry, by a CPEEK; once. -/
def State.streamAsk (s : State) (ctxn die : Nat) (who : PeekBy) (second : Bool) (d : GraphDesc) (c : BitVec 128) : State :=
  let pkg := (s.vertexHome d (curId c)).1
  if pkg == s.pkg || s.peeks.any (fun p => p.who == who && p.second == second) || s.txns.any (fun x => x.by' == .peek who second) then s
  else (s.request pkg (vfOfCtx ctxn) die
    (.graphop ((peekForm.encode .cpeek).headD 0) peekForm.w2.encode (curRef c) 0 0 ctxn c 0) (.peek who second)).1

/-- Forget what a step has been answered. -/
def State.dropPeeks (s : State) (who : PeekBy) : State := { s with peeks := s.peeks.filter (fun p => p.who != who) }

/-- A step on lists of which one at least is at hand: none while another package is asked for the entry of one. The lists' agents
have what they need first (R339, R348). -/
def State.streamLocal (s : State) (det : Bool) (who : PeekBy) (ctxn die : Nat) (diff same : Bool) (ca cb : BitVec 128)
    (bound : Option Dword) : Except Raise (State × Option (Option (Option Dword × BitVec 128 × BitVec 128))) :=
  match s.vertexGraph ctxn die (curRef ca), s.vertexGraph ctxn die (curRef cb) with
  | .error r, _ => .error r
  | _, .error r => .error r
  | .ok da, .ok db =>
    match s.streamList det who false da ca with
    | .error r => .error r
    | .ok (s, la) => match s.streamList det who true db cb with
      | .error r => .error r
      | .ok (s, lb) => match la, lb with
        | some la, some lb => .ok (s.dropPeeks who, some (streamPass diff same da.multi db.multi la lb ca cb bound))
        | _, _ =>
          if !s.portsFrom die then .error (graphFault 0x0C (curGraph ca) (curId ca) 0)
          else .ok ((s.streamAsk ctxn die who false da ca).streamAsk ctxn die who true db cb, none)

/-! ### A step -/

/-- A step ends in a fault: earlier steps stand, and the PC is on the instruction (R348). -/
def State.streamFault (s : State) (o : Op) (t : Thread) (r : Raise) : State :=
  (s.endStream o.id).raise (s.coreOf t) s.pkg t.insn [t.key] r

/-- Apply a step's result to the thread, its scratchpad and its cursors (R347). What a guest of another package writes goes to
its origin (R372; entry 29). -/
def State.streamApply (s : State) (o : Op) (w : Workgroup) (t : Thread) (a b d : Nat) (out : Bool)
    (r : Option (Option Dword × BitVec 128 × BitVec 128)) : State :=
  match r with
  | none => (s.endStream o.id).wake t (pcAfter t.pc 3)
  | some (m, ca, cb) =>
    let adv := (t.setCursor (BitVec.ofNat 7 a) ca).setCursor (BitVec.ofNat 7 b) cb
    match m with
    | none => s.setThread adv
    | some ref =>
      let off := (t.reg (d + 1)).toNat
      let counted := adv.setReg d (t.reg d + 1)
      if !out then s.setThread counted
      else match w.spadWord off 8 8 with
        | .error e => s.streamFault o t e
        | .ok _ =>
          (if w.foreign.isSome then s.originPut w.id off (natLe 8 ref.toNat)
           else s.modWg w.id (fun w => w.spadPut off (natLe 8 ref.toNat))).setThread
            (counted.setReg (d + 1) (t.reg (d + 1) + 8))

/-- The package on which both lists of a step are homed, when it is not this one (R347, R431). -/
def State.streamPkg (s : State) (ctxn die : Nat) (ca cb : BitVec 128) : Option Nat :=
  match s.vertexGraph ctxn die (curRef ca), s.vertexGraph ctxn die (curRef cb) with
  | .ok da, .ok db =>
    let p := (s.vertexHome da (curId ca)).1
    if p != s.pkg && p == (s.vertexHome db (curId cb)).1 then some p else none
  | _, _ => none

/-- A step performed at another package: the request, or what its response brings (R431). -/
def State.streamAway (s : State) (o : Op) (w : Workgroup) (t : Thread) (pkg : Nat) (a b : Nat)
    (lb : Option Dword) (out : Bool) (d : Nat) : State :=
  let ca := t.cursor (BitVec.ofNat 7 a)
  let cb := t.cursor (BitVec.ofNat 7 b)
  let mine := s.replies.filter (fun r => r.key == t.key)
  let s' : State := { s with replies := s.replies.filter (fun r => r.key != t.key) }
  match (mine.head?.map Reply.body : Option FlitBody) with
  | none =>
    if s.txns.any (fun x => x.by' == TxnBy.stream o.id) then s
    else if !s.portsFrom (dieOf o.core) then s.streamFault o t { graphFault 0x0C (curGraph ca) (curId ca) 0 with size := 0 }
    else
      let w2 : Word := (if lb.isSome then 0x100 else 0) ||| (if out then 0x200 else 0)
      (s.request pkg (vfOfCtx w.ctxn) (dieOf (s.coreOf t)) (.graphop t.insn w2 0 0 (lb.getD 0) w.ctxn ca cb) (.stream o.id)).1
  | some (.graphres _ _ ca' cb' mref matched) =>
    if ca' == ca && cb' == cb then s'.streamApply o w t a b d out none
    else s'.streamApply o w t a b d out (some (if matched then some mref else none, ca', cb'))
  | some b => s'.streamFault o t (peekFault ca b)

/-- The operations of gq that the engine performs now: at most eight, the oldest (R349). -/
def State.streamsNow (s : State) (core : Nat) : List Op := (s.ops.filter (fun o => o.core == core && o.q == 5)).take 8

/-- Is a list of a step being changed by an operation at another package (R337)? -/
def State.streamLocked (s : State) (ctxn : Nat) (ca cb : BitVec 128) : Bool :=
  s.locked ctxn (curGraph ca) (curId ca) || s.locked ctxn (curGraph cb) (curId cb)

/-- GRAPH_STREAM_STEP (R347 to R349): one step of an operation on gq; a frozen workgroup's walks rest between their steps. -/
def execGraphStreamStep (core op : Nat) (s : State) : Out1 :=
  .next (match (s.streamsNow core).find? (fun o => o.id == op) with
    | none => s
    | some o => match s.thread ⟨o.wg, o.issuer⟩, s.wg o.wg with
      | some t, some w => (match o.body with
        | .stream diff a b lb out d =>
          let die := dieOf core
          let ca := t.cursor (BitVec.ofNat 7 a)
          let cb := t.cursor (BitVec.ofNat 7 b)
          if t.status != .blocked (.stream o.id) || w.frozen || s.streamLocked w.ctxn ca cb then s
          else match s.streamPkg w.ctxn die ca cb with
            | some p => s.streamAway o w t p a b lb out d
            | none => match s.streamLocal w.kernel.det (.op o.id) w.ctxn die diff (a == b) ca cb lb with
              | .error r => s.streamFault o t r
              | .ok (s, none) => s
              | .ok (s, some r) => s.streamApply o w t a b d out r
        | _ => s)
      | _, _ => s)

/-! ## An operation at the home on another die -/

/-- The threads of a group that wait for the home of its graph instruction. -/
def State.graphGroup (s : State) (g : Nat) : List Key :=
  sortKeys ((s.threads.filter (fun t => match t.status with | .data (.graph _ x) => x == g | _ => false)).map Thread.key)

/-- GRAPH_OP_PERFORM (R337, R350): the homes' agents perform the operations of the group of a thread that waits for its home, in
ascending TIDX. -/
def execGraphOpPerform (wg tidx : Nat) (s : State) : Out1 :=
  .next (match s.thread ⟨wg, tidx⟩, s.wg wg with
    | some t, some w => (match t.status with
      | .data (.graph i g) =>
        (match graphFormOf i, i.opc with
         | some f, some o =>
           let ks := s.graphGroup g
           let behind (k : Key) : Bool := s.joins.any (fun j => j.waiting.contains k
             && j.waiting.any (fun x => x.tidx < k.tidx && !ks.contains x && (s.thread x).any (s.graphAsks g)))
           if ks.any behind || ks.any (fun k => (s.thread k).any (fun u =>
               let x := graphOperands o f w u
               s.graphLocked w.ctxn o x.1 x.2.1)) then s
           else
             State.forThreads { s with cur := { id := g, core := s.coreOf t, pkg := s.pkg, keys := ks, insn := t.insn } } i
               (State.graphStep i o f true)
         | _, _ => s)
      | _ => s)
    | _, _ => s)

end Sys2Proof.Machine
end

