-- ==== Sys2Proof/Machine/Digest.lean ====
section
/-! DEFINITION. SHA-384, by which a firmware image is digested (R441), as FIPS 180-4 gives it: PRESUMED (entry 73). -/

namespace Sys2Proof.Machine

/-- The round constants: the first 64 bits of the fractional parts of the cube roots of the first eighty primes. -/
def shaK : List Dword :=
  [0x428a2f98d728ae22, 0x7137449123ef65cd, 0xb5c0fbcfec4d3b2f, 0xe9b5dba58189dbbc, 0x3956c25bf348b538,
   0x59f111f1b605d019, 0x923f82a4af194f9b, 0xab1c5ed5da6d8118, 0xd807aa98a3030242, 0x12835b0145706fbe,
   0x243185be4ee4b28c, 0x550c7dc3d5ffb4e2, 0x72be5d74f27b896f, 0x80deb1fe3b1696b1, 0x9bdc06a725c71235,
   0xc19bf174cf692694, 0xe49b69c19ef14ad2, 0xefbe4786384f25e3, 0x0fc19dc68b8cd5b5, 0x240ca1cc77ac9c65]
  ++ [0x2de92c6f592b0275, 0x4a7484aa6ea6e483, 0x5cb0a9dcbd41fbd4, 0x76f988da831153b5, 0x983e5152ee66dfab,
   0xa831c66d2db43210, 0xb00327c898fb213f, 0xbf597fc7beef0ee4, 0xc6e00bf33da88fc2, 0xd5a79147930aa725,
   0x06ca6351e003826f, 0x142929670a0e6e70, 0x27b70a8546d22ffc, 0x2e1b21385c26c926, 0x4d2c6dfc5ac42aed,
   0x53380d139d95b3df, 0x650a73548baf63de, 0x766a0abb3c77b2a8, 0x81c2c92e47edaee6, 0x92722c851482353b]
  ++ [0xa2bfe8a14cf10364, 0xa81a664bbc423001, 0xc24b8b70d0f89791, 0xc76c51a30654be30, 0xd192e819d6ef5218,
   0xd69906245565a910, 0xf40e35855771202a, 0x106aa07032bbd1b8, 0x19a4c116b8d2d0c8, 0x1e376c085141ab53,
   0x2748774cdf8eeb99, 0x34b0bcb5e19b48a8, 0x391c0cb3c5c95a63, 0x4ed8aa4ae3418acb, 0x5b9cca4f7763e373,
   0x682e6ff3d6b2b8a3, 0x748f82ee5defb2fc, 0x78a5636f43172f60, 0x84c87814a1f0ab72, 0x8cc702081a6439ec]
  ++ [0x90befffa23631e28, 0xa4506cebde82bde9, 0xbef9a3f7b2c67915, 0xc67178f2e372532b, 0xca273eceea26619c,
   0xd186b8c721c0c207, 0xeada7dd6cde0eb1e, 0xf57d4f7fee6ed178, 0x06f067aa72176fba, 0x0a637dc5a2c898a6,
   0x113f9804bef90dae, 0x1b710b35131c471b, 0x28db77f523047d84, 0x32caab7b40c72493, 0x3c9ebe0a15c9bebc,
   0x431d67c49c100d4c, 0x4cc5d4becb3e42b6, 0x597f299cfc657e2a, 0x5fcb6fab3ad6faec, 0x6c44198c4a475817]

/-- The first chaining value: of the square roots of the ninth to the sixteenth prime. -/
def shaInit : List Dword :=
  [0xcbbb9d5dc1059ed8, 0x629a292a367cd507, 0x9159015a3070dd17, 0x152fecd8f70e5939, 0x67332667ffc00b31,
   0x8eb44a8768581511, 0xdb0c2e0d64f98fa7, 0x47b5481dbefa4fa4]

/-- The message schedule, the newest word first. -/
def shaSchedule : Nat → List Dword → List Dword
  | 0, w => w
  | n + 1, w =>
    let at' (i : Nat) : Dword := w.getD i 0
    let s0 := (at' 14).rotateRight 1 ^^^ (at' 14).rotateRight 8 ^^^ (at' 14) >>> 7
    let s1 := (at' 1).rotateRight 19 ^^^ (at' 1).rotateRight 61 ^^^ (at' 1) >>> 6
    shaSchedule n ((at' 15 + s0 + at' 6 + s1) :: w)

/-- One round on the working variables a to h, with a constant and a word of the schedule. -/
def shaRound (v : List Dword) (kw : Dword × Dword) : List Dword :=
  let x (i : Nat) : Dword := v.getD i 0
  let s1 := (x 4).rotateRight 14 ^^^ (x 4).rotateRight 18 ^^^ (x 4).rotateRight 41
  let t1 := x 7 + s1 + ((x 4 &&& x 5) ^^^ (~~~(x 4) &&& x 6)) + kw.1 + kw.2
  let s0 := (x 0).rotateRight 28 ^^^ (x 0).rotateRight 34 ^^^ (x 0).rotateRight 39
  let t2 := s0 + ((x 0 &&& x 1) ^^^ (x 0 &&& x 2) ^^^ (x 1 &&& x 2))
  [t1 + t2, x 0, x 1, x 2, x 3 + t1, x 4, x 5, x 6]

/-- A number of eight bytes, the first of them the most significant. -/
def beWord (b : List Byte) : Dword := BitVec.ofNat 64 (leNat b.reverse)

/-- A chaining value after a block of 128 bytes. -/
def shaBlock (h : List Dword) (b : List Byte) : List Dword :=
  let w := (List.range 16).map (fun i => beWord ((b.drop (8 * i)).take 8))
  List.zipWith (· + ·) h ((List.zip shaK (shaSchedule 64 w.reverse).reverse).foldl shaRound h)

/-- The blocks of a padded message. -/
def shaBlocks : Nat → List Byte → List Dword → List Dword
  | 0, _, h => h
  | n + 1, b, h => shaBlocks n (b.drop 128) (shaBlock h (b.take 128))

/-- The 48 bytes of the SHA-384 of a message. -/
def sha384 (b : List Byte) : List Byte :=
  let n := b.length
  let p := b ++ 0x80#8 :: List.replicate ((239 - n % 128) % 128) 0 ++ (natLe 16 (8 * n)).reverse
  ((shaBlocks (p.length / 128) p shaInit).flatMap (fun x => (natLe 8 x.toNat).reverse)).take 48

end Sys2Proof.Machine
end

