-- ==== Sys2Proof/Machine/Manage.lean ====
section
/-! DEFINITION. The management complex: sensors and limits (R437 to R439), the event log's dropped entries (R440), firmware
(R441, R442) and the device's reset. -/

namespace Sys2Proof.Machine

/-! ## Reset -/

/-- Rollback floors once the staged images have taken effect (R442). -/
def applyStaged (staged floors : List (Nat × Word)) : List (Nat × Word) :=
  floors.map (fun f => match staged.find? (fun x => x.1 == f.1) with | some x => x | none => f)

/-- The device resets (R439, R442): what is outside stays, and what the device has sent. -/
def State.deviceReset (s : State) : State :=
  { State.reset with
    pkg := s.pkg, hostMem := s.hostMem, hostMap := s.hostMap, out := s.out, agenda := s.agenda, flits := s.flits, fresh := s.fresh, freeN := s.freeN
    mgmt := { Mgmt.reset with floors := applyStaged s.mgmt.staged s.mgmt.floors } }

/-- DEVICE_RESET (R442). -/
def execDeviceReset (s : State) : Out1 := .next s.deviceReset

/-- Every context is lost after a thermal reset (R320, R439). -/
def State.loseAll (s : State) : State := { s with ctxs := (List.range 1024).map (fun n => { s.ctx n with lost := true }) }

/-! ## Sensors -/

/-- A sensor entry from a sample (R438). -/
def sensorEntry (k : Nat) (val : Word) (eol : BitVec 16) : Dword :=
  if k ≤ 5 then ((if 3 ≤ k then eol.setWidth 64 else 0) <<< 32) ||| val.setWidth 64 else 0

/-- EOL of an entry. -/
def eolOf (x : Dword) : Nat := (bits x 47 32).toNat

/-- Junction temperature of a die in units of 0.125 degrees. -/
def junction (vals : List Word) (die : Nat) : Int := (vals.getD (8 * die) 0).toInt

/-- The dies that are throttled, with the cause: all of them, 0, for the board's power, else those at 105 degrees, 1 (R439). -/
def hotDies (power plim : Nat) (vals : List Word) : List (Nat × Nat) :=
  if plim < power then (List.range 4).map (fun d => (d, 0))
  else ((List.range 4).filter (fun d => 840 ≤ junction vals d)).map (fun d => (d, 1))

/-- Why a die is throttled, if it is. -/
def causeOf (l : List (Nat × Nat)) (d : Nat) : Option Nat := (l.find? (fun x => x.1 == d)).map (·.2)

/-- Log what starts and what ends in throttling, with its cause (R440). -/
def State.setThrottle (s : State) (hot : List (Nat × Nat)) : State :=
  let old := s.mgmt.throttled
  let s := (List.range 4).foldl (fun s d => match causeOf old d, causeOf hot d with
    | none, some c => s.logEvent 0x08 d 0 [c, 1]
    | some c, none => s.logEvent 0x08 d 0 [c, 0]
    | _, _ => s) s
  { s with mgmt := { s.mgmt with throttled := hot } }

/-- Take a sample. -/
def State.takeSample (s : State) (vals : List Word) (eols : List (BitVec 16)) : State :=
  let new : Vector Dword 32 := Vector.ofFn (fun i => sensorEntry (i.val % 8) (vals.getD i.val 0) (eols.getD i.val 0))
  let low (v : Vector Dword 32) (i : Nat) : Bool := 3 ≤ i % 8 && i % 8 ≤ 5 && eolOf (v.toList.getD i 0) < 365
  let worn := (List.range 32).filter (fun i => low new i && !low s.mgmt.sens i)
  let s : State := { s with mgmt := { s.mgmt with sens := new } }
  worn.foldl (fun s i => s.logEvent 0x09 (i / 8) 0 [i]) s

/-- SENSOR_SAMPLE (R437, R439): at 115 degrees the device resets, and every context is lost. -/
def execSensorSample (vals : List Word) (eols : List (BitVec 16)) (s : State) : Out1 :=
  let s := s.takeSample vals eols
  .next (match (List.range 4).find? (fun d => 920 ≤ junction vals d) with
    | some d => (s.logEvent 0x0D d 0 [d, (vals.getD (8 * d) 0).toNat]).deviceReset.loseAll
    | none => s.bump.setThrottle (hotDies (Config.boardPower s.freeN) s.mgmt.plim.toNat vals))

/-- ENTRIES_DROPPED (R440). -/
def execEntriesDropped (s : State) : Out1 := .next s.logDropped

/-! ## Firmware -/

/-- A write of FWCMD (R436, R441, R442). -/
def State.writeFwcmd (s : State) (val : Word) : State :=
  if val == 1 && s.mgmt.fwstat != 1 then { s with mgmt := { s.mgmt with fwcmd := val, fwstat := 1 } } else s

/-- FWCMD (R441). -/
def execFwcmd (val : Word) (s : State) : Out1 := .next (s.writeFwcmd val)

/-- A number in the big-endian encoding of the signatures' standards. -/
def beField (b : List Byte) (off n : Nat) : Nat := leNat ((b.drop off).take n).reverse

/-- Is a firmware header well formed (R441)? -/
def headerOk (h : List Byte) : Bool :=
  let n := field h 0x0E0 4
  h.length == 4096 && field h 0 4 == 0x57464E4B && (field h 4 1 == 1 || field h 4 1 == 2) && field h 5 1 == 1
  && zeroAt h 6 2 && zeroAt h 0x0C 4 && zeroAt h 0x18 8 && zeroAt h 0x50 48
  && 1 ≤ field h 0x10 8 && field h 0x10 8 ≤ 67108864 && 1 ≤ n && n ≤ 3868 && zeroAt h (0x0E4 + n) (3868 - n)

/-- Is an LMS signature one of a parameter set that R441 allows, and of its length: Winternitz parameter 4 or 8, with 67 or 34
chains, and a tree of height 5, 10, 15, 20 or 25, in the encoding of NIST SP 800-208, PRESUMED (entry 73)? -/
def lmsSetOk (sig : List Byte) : Bool :=
  let ots := beField sig 4 4
  let chains := if ots == 3 then 67 else 34
  let tree := beField sig (40 + 32 * chains) 4
  (ots == 3 || ots == 4) && 5 ≤ tree && tree ≤ 9 && sig.length == 44 + 32 * chains + 32 * (5 * (tree - 4))

/-- The signature of a header. -/
def lmsSig (h : List Byte) : List Byte := (h.drop 0x0E4).take (field h 0x0E0 4)

/-- The outcome of the checks of an image (R441): its header, its payload, and the verdict of the target's keys. -/
def firmwareStatus (m : Mgmt) (h payload : List Byte) (v : SigVerdict) : Word :=
  let floor := ((m.floors.find? (fun f => f.1 == field h 4 1)).map (·.2)).getD 0
  if !headerOk h then 3
  else if !(sha384 payload == (h.drop 0x20).take 48 && v.ecdsa && v.lms && lmsSetOk (lmsSig h)) then 4
  else if field h 8 4 < floor.toNat then 5
  else 2

/-- Bytes of the image at FWADDR, in host memory as the physical function reaches it from die 0; none where they cannot be read. -/
def State.imageBytes (s : State) (off n : Nat) : Option (List Byte) :=
  let pa := s.mgmt.fwaddr.toNat + off
  if s.hostFrom 0 && !s.hostBad (0, none) pa n then some (s.hostBytes (0, none) pa n) else none

/-- What the checks find of the image that FWADDR names. One that cannot be read is malformed (entry 47). -/
def State.imageStatus (s : State) (v : SigVerdict) : Word × List Byte :=
  match s.imageBytes 0 4096 with
  | none => (3, [])
  | some h =>
    if !headerOk h then (3, h)
    else match s.imageBytes 4096 (field h 0x10 8) with
      | none => (3, h)
      | some p => (firmwareStatus s.mgmt h p v, h)

/-- FW_VERIFY_DONE (R441, R442): the image has been read and checked; whether the two signatures hold is the verdict of the
target's keys. -/
def execFwVerifyDone (ecdsa lms : Bool) (s : State) : Out1 :=
  .next (
    if s.mgmt.fwstat != 1 then s
    else
      let x := s.imageStatus { ecdsa, lms }
      let m := s.mgmt
      let s : State := { s with mgmt := { m with
        fwstat := x.1, staged := if x.1 == 2 then [(field x.2 4 1, BitVec.ofNat 32 (field x.2 8 4))] else m.staged } }
      s.logEvent 0x0A 0 0 [x.1.toNat, field x.2 8 4])

end Sys2Proof.Machine
end

