-- ==== Sys2Proof/Machine/Registers.lean ====
section
/-! DEFINITION. A write of a register (R401, R402, R414, R415, R436): it stores its value, or it acts. -/

namespace Sys2Proof.Machine

/-- A value within a register's range, or the old one (R402, R436). -/
def inRange (x old : Word) (lo hi : Nat) : Word := if lo ≤ x.toNat && x.toNat ≤ hi then x else old

/-- A write of FCMD (R7, R414): what is written to the bits that read as zero is discarded. -/
def State.writeFcmd (s : State) (val : Word) : State :=
  let vf := (bits val 14 8).toNat
  if s.mgmt.fstat == 1 then s
  else
    let s : State := { s with mgmt := { s.mgmt with fcmd := val &&& 0x17FFF#32 } }
    match (bits val 7 0).toNat with
      | 1 => s.frameBack vf (bit val 16)
      | 2 => s.frameRelease vf
      | _ => s.frameEnds 5

/-- A write of the physical function's page: QCTL, the hedge records, the frame and management registers. -/
def State.writePf (s : State) (off : Nat) (val : Dword) : State :=
  let m := s.mgmt
  let x : Word := val.setWidth 32
  if 0x3000 ≤ off && off < 0x3200 then (if bit val 0 then s.clearQueue ((off - 0x3000) / 8 + 1) else s)
  else if 0x1000 ≤ off && off < 0x3000 then
    let vf := (off - 0x1000) / 128 + 1
    let n := ((regRow 0 off).map (·.size)).getD 0
    s.writeHedge vf (parseHedge (putAt (hedgeImage (s.vf vf).hedge) (off % 128) (natLe n val.toNat)))
  else match off with
    | 0x3800 => { s with mgmt := { m with faddr := val &&& 0xFFFFFFFFF0000#64 } }
    | 0x3808 => { s with mgmt := { m with fcount := x } }
    | 0x380C => s.writeFcmd x
    | 0x4000 => { s with mgmt := { m with mlbase := val } }
    | 0x4008 => { s with mgmt := { m with mllog := inRange x m.mllog 8 16 } }
    | 0x4018 => { s with mgmt := { m with mlcons := val } }
    | 0x4020 => { s with mgmt := { m with plim := inRange x m.plim 600 2200 } }
    | 0x4028 => { s with mgmt := { m with fwaddr := val } }
    | 0x4030 => s.writeFwcmd x
    | _ => s

/-- A write of REPLY (R7, R402, R303): an action that is none does nothing, and bits 63:48 are discarded. -/
def State.writeReply (s : State) (vf : Nat) (val : Dword) : State :=
  let s := s.setVf { s.vf vf with reply := val &&& 0xFFFFFFFFFFFF#64 }
  let c := (bits val 35 32).toNat
  let seq : Word := val.setWidth 32
  match (bits val 39 36).toNat with
    | 0 => s.reply vf c seq none
    | 1 => s.reply vf c seq (some (bits val 47 40))
    | _ => s

/-- A write of a virtual function's page. -/
def State.writeVf (s : State) (fn off : Nat) (val : Dword) : State :=
  let v := s.vf fn
  let x : Word := val.setWidth 32
  match off with
  | 0x000 => s.writeTail fn val
  | 0x008 => s.writeHead fn val
  | 0x010 => s.setVf { v with qbase := val &&& 0x800FFFFFFFFFFFFF#64 }
  | 0x018 => s.setVf { v with qlog := inRange x v.qlog 6 16 }
  | 0x020 => s.setVf { v with ctxbase := val }
  | 0x030 => s.writeReply fn val
  | 0x038 => s.grantWrite fn (bits val 1 0).toNat (bits val 63 8).toNat (bit val 2)
  | 0x040 => s.setVf { v with brbase := val }
  | 0x048 => s.setVf { v with brlog := inRange x v.brlog 6 12 }
  | 0x050 => s.setVf { v with brcons := val }
  | 0x058 => s.setVf { v with logbase := val }
  | 0x060 => s.setVf { v with loglog := inRange x v.loglog 10 24 }
  | 0x080 => s.writeDbgsel fn val
  | 0x088 => s.writeSstep fn x
  | 0x098 => s.ctxclr fn (val.setWidth 16)
  | 0x0A0 => s.setVf { v with rplpos := val }
  | 0x0A8 => s.writeRplend fn val
  | _ =>
    if 0x100 ≤ off && off < 0x180 then
      s.setVf { v with fqcons := v.fqcons.set! ((off - 0x100) / 8) val }
    else if 0x800 ≤ off then s.writeDbgwin fn (off - 0x800) val
    else s

/-- A write of a register by its offset; none for an offset that names none (R401). Registers without W ignore it
(R402). -/
def State.writeReg (s : State) (fn off : Nat) (val : Dword) : Option State :=
  if 64 < fn then none
  else match regRow fn off with
    | none => none
    | some r => if !r.w then some s else some (if fn == 0 then s.writePf off val else s.writeVf fn off val)

/-- REGISTER_WRITE (R7, R401, R402, R436), behind the earlier writes of the function (R426). -/
def execRegisterWrite (fn off : Nat) (val : Dword) (s : State) : Out1 :=
  .next (s.hostReg fn off (((regRow fn off).map (·.size)).getD 8) val.toNat ((s.writeReg fn off val).getD s))

end Sys2Proof.Machine
end

