-- ==== Sys2Proof/Machine/HostLink.lean ====
section
/-! DEFINITION. The host link: reads and writes of the host (R389, R401, R426), its modules (R421) and their encryption
(R424), and invalidations of host translations (R423). -/

namespace Sys2Proof.Machine

/-- The page and offset of a register address (R401). -/
def regPlace (pa : Nat) : Nat × Nat := ((pa - regBase) / 65536, (pa - regBase) % 65536)

/-- May a function reach this page (R401)? -/
def pageOk (fn page : Nat) : Bool := page ≤ 64 && (fn == 0 || fn == page)

/-- What the host's read of `n` bytes brings; none for an error completion (R389, R396, R401, R414). -/
def State.hostGet (s : State) (vf pa n : Nat) : Option (List Byte) :=
  if regBase ≤ pa then
    if pageOk vf (regPlace pa).1 then s.regRead (regPlace pa).1 (regPlace pa).2 n else none
  else if s.backed vf pa n then s.physRead pa n
  else none

/-- Is a module of the link up (R421)? -/
def State.hostOpen (s : State) : Bool := s.links.ucieUp.any id

/-- Does a module that is up reach the place of a host's access (R19, R428)? Register pages are those of die 0. -/
def State.hostReaches (s : State) (pa : Nat) : Bool := s.hostFrom (if regBase ≤ pa then 0 else homeDie pa)

/-- HOST_READ (R389, R401). -/
def execHostRead (vf pa len : Nat) (s : State) : Out1 :=
  .next (
    if !s.hostOpen then s
    else match (if s.hostReaches pa then s.hostGet vf pa len else none) with
      | some b => { s with out := s.out ++ [.readDone vf b] }
      | none =>
        let s := if pa < regBase && s.hostReaches pa && s.backed vf pa len then s.logBad vf pa else s
        { s with out := s.out ++ [.error vf] })

/-- An error completion. -/
def State.hostError (s : State) (vf : Nat) : State := { s with out := s.out ++ [.error vf] }

/-- Perform a host write. -/
def State.hostPerform (s : State) (vf pa : Nat) (b : List Byte) : State :=
  if !s.hostReaches pa then s.hostError vf
  else if regBase ≤ pa then
    let p := regPlace pa
    if pageOk vf p.1 && (regRow p.1 p.2).any (fun r => r.size == b.length) then
      (s.writeReg p.1 p.2 (BitVec.ofNat 64 (leNat b))).getD (s.hostError vf)
    else s.hostError vf
  else if s.backed vf pa b.length then s.agentWrite vf (.host vf) pa b
  else s.hostError vf

/-- Perform the host writes whose turn has come (R426). -/
def State.flushHost : Nat → State → State
  | 0, s => s
  | n + 1, s =>
    match s.hostq.find? (fun x => !s.hostBlocked x.1) with
    | none => s
    | some x => State.flushHost n (({ s with hostq := s.hostq.erase x } : State).hostPerform x.1 x.2.1 x.2.2)

/-- HOST_WRITE (R426): a write waits behind a held one of its function. -/
def execHostWrite (vf pa : Nat) (data : List Byte) (s : State) : Out1 :=
  .next (
    if !s.hostOpen then s
    else if s.hostWaits vf then { s with hostq := s.hostq ++ [(vf, pa, data)] }
    else s.hostPerform vf pa data)

/-- The host gives a page of a function, and of a PASID, another host page behind it; a page that is its own is not listed. -/
def State.mapHost (s : State) (p : HostPage) : State :=
  let rest := s.hostMap.filter (fun h => !(h.fn == p.fn && h.pasid == p.pasid && h.page == p.page))
  { s with hostMap := if p.page == p.target then rest else p :: rest }

/-- ATS_INVALIDATION (R423): the translations of a page are removed, and the host's new one holds for the accesses that come
after. An access takes its translation when it is performed, so that every access that used the old one has completed, and the
completion goes out at once (entry 67). -/
def execAtsInvalidation (vf : Nat) (p : AtsPage) (s : State) : Out1 :=
  .next ({ s.mapHost { fn := vf, pasid := p.pasid, page := p.page, target := p.target } with out := s.out ++ [.invalidated vf p.page] })

/-- Take a module of the link down. -/
def State.moduleDown (s : State) (m : Nat) : State :=
  { s with links := { s.links with ucieUp := s.links.ucieUp.set m false } }

/-- UCIE_MODULE_DOWN (R421, R440). -/
def execUcieModuleDown (m : Nat) (s : State) : Out1 :=
  .next (if s.links.ucieUp.getD m false then (s.moduleDown m).logEvent 0x06 (m % 2) 0 [2, m] else s)

/-- IDE_INTEGRITY_FAILURE (R424): only a stream that is established protects flits. -/
def execIdeIntegrityFailure (m : Nat) (s : State) : Out1 :=
  .next (if (s.links.ideKeys.getD m none).isSome && s.links.ucieUp.getD m false then
      (s.moduleDown m).logEvent 0x07 (m % 2) 0 [m]
    else s)

/-- IDE_KM (R424). -/
def execIdeKm (m : Nat) (key : BitVec 256) (s : State) : Out1 :=
  .next { s with links := { s.links with ideKeys := s.links.ideKeys.set m (some key) } }

end Sys2Proof.Machine
end

