-- ==== Sys2Proof/Machine/Gnoip.lean ====
section
/-! DEFINITION. The Gnoip ports: requests of other packages, their responses, continuations and collective elements
(R427 to R433), and the links (R11, R428). The flit that has arrived stands in `rx`. -/

namespace Sys2Proof.Machine

/-- A flit is delivered at a port: it counts there, and ends the run of failures (R427, R428). -/
def State.delivered (s : State) (port : Nat) : State :=
  { s with rx := none
           links := { s.links with replays := s.links.replays.set port 0
                                   rxSeq := s.links.rxSeq.set port ((s.links.rxSeq.getD port 0 + 1) % 4096) } }

/-- A malformed flit is discarded and logged, and a request is answered with NEG reason 0x05 (R430, R440). -/
def State.discardFlit (s : State) (h : FlitHdr) (vc ty : Nat) : State :=
  let s := s.logEvent 0x0E (portDie h.port) h.vf.toNat [h.port, vc, ty, h.spkg.toNat]
  if vc == 0 then s.answer h (.neg 5 0) else s

/-- Act on the flit that has arrived. At a port that is down nothing arrives, and a flit out of turn is not delivered: the sender
replays from the one that is due (R428). -/
def State.withRx (s : State) (f : State → Flit → State) : Out1 :=
  .next (match s.rx with
    | none => s
    | some r =>
      if !s.links.portUp.getD r.port false || r.seq != s.links.rxSeq.getD r.port 0 then { s with rx := none }
      else match r.body with
        | none => (s.delivered r.port).discardFlit r.hdr r.vc r.ty
        | some b => f (s.delivered r.port) ⟨r.hdr, b⟩)

/-- The function of a request. -/
def fnOf (h : FlitHdr) : Nat := h.vf.toNat
/-- The die of the sender (R430). -/
def dieOfTag (h : FlitHdr) : Nat := (bits h.tag 63 56).toNat

/-! ## Requests (R431) -/

/-- A physical address of a request, and whether it names the RAW windows. -/
structure WireAddr where
  pa : Nat
  raw : Bool
  isMeta : Bool

/-- The fields of ADDR. -/
def wireAddr (a : Dword) : WireAddr := { pa := (bits a 51 0).toNat, raw := bit a 63, isMeta := bit a 62 }

/-- Why a request is refused before it is performed: reserved address 0x01, or a home that the port's die does not reach, no backed
frame 0x06, RAW on a plain frame 0x03 (R398, R414, R428, R430). -/
def State.wireRefuses (s : State) (h : FlitHdr) (a : WireAddr) (n : Nat) : Option Byte :=
  if 2 ^ 41 < a.pa + n || !s.reaches (portDie h.port) (homeDie a.pa) then some 1
  else if !s.backed (fnOf h) a.pa n then some 6
  else if a.raw && !s.isCmp a.pa then some 3
  else none

/-- DATA flits of a read. -/
def dataFlits (b : List Byte) : List FlitBody :=
  (List.range ((b.length + 223) / 224)).map (fun i => FlitBody.data (224 * i) ((b.drop (224 * i)).take 224))

/-- A byte of the RAW windows (R397); the metadata words of successive blocks follow one another. -/
def State.rawByte (s : State) (a : WireAddr) (i : Nat) : Byte :=
  if a.isMeta then
    let r := a.pa % 1024 + i
    (natLe 4 (s.rawWord (a.pa / 1024 + r / 4)).toNat).getD (r % 4) 0
  else (s.rawGranules ((a.pa + i) / 1024)).getD ((a.pa + i) % 1024) 0

/-- The bytes of a READ: none where some are uncorrectable, or a block is malformed. -/
def State.wireRead (s : State) (a : WireAddr) (n : Nat) : Option (List Byte) :=
  if !a.raw then s.physRead a.pa n
  else if !a.isMeta && s.poisonAt a.pa n then none
  else some ((List.range n).map (s.rawByte a))

/-- READ (R389, R398, R431). -/
def State.serveRead (s : State) (h : FlitHdr) (addr : Dword) (n : Nat) : State :=
  let a := wireAddr addr
  match s.wireRefuses h a n with
  | some r => s.answer h (.neg r 0)
  | none => match s.wireRead a n with
    | some b => (dataFlits b).foldl (fun s x => s.answer h x) s
    | none => (s.logBad (fnOf h) a.pa).answer h (.neg 4 0)

/-- Perform the pieces of a peer's write, each by itself (R454): the state, and whether one was refused, and one held. -/
def State.peerPieces (h : FlitHdr) : State → List (Nat × MemOp) → State × Bool × Bool
  | s, [] => (s, false, false)
  | s, (pa, op) :: r =>
    match s.bumpId.attempt (s.newHeld (fnOf h) (.peer h) [] pa op none (0, 0, BitVec.ofNat 128 pa)) with
    | .done s _ => State.peerPieces h (s.clearMigok (fnOf h)) r
    | .bad s => let x := State.peerPieces h s r; (x.1, true, x.2.2)
    | .held s _ => let x := State.peerPieces h s r; (x.1, x.2.1, true)

/-- Perform a peer's write and answer, at once or when its held pieces have ended. -/
def State.peerWrite (s : State) (h : FlitHdr) (l : List (Nat × MemOp)) : State :=
  let x := State.peerPieces h s l
  if !x.2.2 then x.1.answer h (if x.2.1 then .neg 4 0 else .ack)
  else if x.2.1 then
    { x.1 with held := x.1.held.map (fun y => if y.by' == .peer h then { y with site := (4, y.site.2) } else y) }
  else x.1

/-- A peer's RAW write of granules: where the place of one is at or above NG it is refused whole, but for blocks that wait behind a
held write, which settles first what NG is (R393, R398). -/
def State.rawGranWrite (s : State) (h : FlitHdr) (pa : Nat) (b : List Byte) : State :=
  let ps := blockPieces (b.length + 1) pa b
  if ps.any (fun x => !s.blockHeld x.1 && metaNg (s.metaOf (x.1 / 1024)) ≤ (x.1 % 1024 + x.2.length - 1) / 64) then s.answer h (.neg 3 0)
  else s.peerWrite h (ps.map (fun x => (x.1 / 1024 * 1024, MemOp.setGran (x.1 % 1024) x.2)))

/-- WRITE (R398, R431). -/
def State.serveWrite (s : State) (h : FlitHdr) (addr : Dword) (b : List Byte) : State :=
  let a := wireAddr addr
  match s.wireRefuses h a b.length with
  | some r => s.answer h (.neg r 0)
  | none =>
    if !a.raw then s.peerWrite h ((blockPieces (b.length + 1) a.pa b).map (fun x => (x.1, MemOp.store x.2)))
    else if a.isMeta then s.peerWrite h [(a.pa / 1024 * 1024, .setMeta (s.metaWith a.pa b))]
    else s.rawGranWrite h a.pa b

/-- A read-modify-write of a peer: its response brings what it asks for. -/
def State.peerRmw (s : State) (h : FlitHdr) (pa : Nat) (op : MemOp) (dest : Option RmwDest) : State :=
  match s.wireRefuses h { pa, raw := false, isMeta := false } op.len with
  | some r => s.answer h (.neg r 0)
  | none =>
    if pa % op.len != 0 then s.answer h (.neg 1 0)
    else match s.bumpId.attempt (s.newHeld (fnOf h) (.peer h) [] pa op dest (0, 0, BitVec.ofNat 128 pa)) with
      | .done s old => (s.clearMigok (fnOf h)).answer h (peerDone op dest old)
      | .bad s => s.answer h (.neg 4 0)
      | .held s _ => s

/-- The operation of an ATOMIC (R203, R204, R431). -/
def atomicOp (op : BitVec 4) (n : Nat) (x : BitVec 128) : MemOp :=
  if op == 9 then .cas n (BitVec.ofNat 64 (x.toNat % 2 ^ (8 * n))) (BitVec.ofNat 64 (x.toNat / 2 ^ (8 * n) % 2 ^ (8 * n)))
  else .atom op.toNat n (x.setWidth 64)

/-- ATOMIC (R203, R204, R431). -/
def State.serveAtomic (s : State) (h : FlitHdr) (addr : Dword) (op : BitVec 4) (sz : BitVec 3) (ret : Bool) (x : BitVec 128) : State :=
  let n := if sz == 3 then 8 else 4
  s.peerRmw h (bits addr 51 0).toNat (atomicOp op n x) (if ret then some { key := ⟨0, 0⟩, d := 0, n, pd := none } else none)

/-- The read of a cell by a peer (R136, R431). -/
def State.serveCellRead (s : State) (h : FlitHdr) (pa : Nat) : State :=
  match s.wireRefuses h { pa, raw := false, isMeta := false } 32 with
  | some r => s.answer h (.neg r 0)
  | none =>
    if pa % 32 != 0 then s.answer h (.neg 1 0)
    else match s.physRead pa 32 with
      | some b => s.answer h (.data 0 b)
      | none => (s.logBad (fnOf h) pa).answer h (.neg 4 0)

/-- CELL (R134, R205, R431). -/
def State.serveCell (s : State) (h : FlitHdr) (addr : Dword) (op : BitVec 2) (fmt : BitVec 4) (x : Dword) : State :=
  let pa := (bits addr 51 0).toNat
  match op.toNat with
  | 0 => s.peerRmw h pa (.cellAdd fmt.toNat x) none
  | 2 => s.peerRmw h pa .cellClear none
  | _ => s.serveCellRead h pa

/-- Perform a request of memory, or answer a FLUSH. -/
def State.serveNow (s : State) (fl : Flit) : State :=
  match fl.body with
  | .read addr n _ => s.serveRead fl.hdr addr n
  | .write addr _ b => s.serveWrite fl.hdr addr b
  | .atomic addr op sz ret _ x => s.serveAtomic fl.hdr addr op sz ret x
  | .cell addr op fmt _ x => s.serveCell fl.hdr addr op fmt x
  | .flush => s.answer fl.hdr .ack
  | _ => s

/-- Does a request come after every earlier one of its hedge: a FLUSH, or one whose SEM releases (R430, R431)? -/
def ordersAll : FlitBody → Bool
  | .read _ _ sem => releases sem
  | .write _ sem _ => releases sem
  | .atomic _ _ _ _ sem _ => releases sem
  | .cell _ _ _ sem _ => releases sem
  | .flush => true
  | _ => false

/-- Two flits of one hedge from one package. -/
def sameHedge (a b : FlitHdr) : Bool := a.spkg == b.spkg && a.vf == b.vf

/-- Do earlier requests of a hedge from a package still wait (R430)? -/
def State.peerWaits (s : State) (h : FlitHdr) : Bool :=
  s.held.any (fun x => !x.expired && (match x.by' with | .peer p => sameHedge p h | _ => false))
  || s.graphq.any (fun fl => sameHedge fl.hdr h) || s.flushes.any (fun fl => sameHedge fl.hdr h)

/-- A request of memory: performed at once, or when the earlier ones have been. -/
def State.serveIn (s : State) (fl : Flit) : State :=
  if ordersAll fl.body && s.peerWaits fl.hdr then { s with flushes := s.flushes ++ [fl] } else s.serveNow fl

/-- The requests that have waited for earlier ones, in their order. -/
def State.settleFlushes (s : State) : State :=
  s.flushes.foldl (fun s fl => s.serveIn fl) { s with flushes := [] }

/-- Is a flit the request of a kind? Then it is served. -/
def State.serveIf (s : State) (p : FlitBody → Bool) : Out1 := s.withRx (fun s fl => if p fl.body then s.serveIn fl else s)

/-- READ (R389, R398, R431). -/
def execGRead (s : State) : Out1 := s.serveIf (fun b => match b with | .read .. => true | _ => false)
/-- WRITE (R398, R431). -/
def execGWrite (s : State) : Out1 := s.serveIf (fun b => match b with | .write .. => true | _ => false)
/-- ATOMIC (R203, R204, R431). -/
def execGAtomic (s : State) : Out1 := s.serveIf (fun b => match b with | .atomic .. => true | _ => false)
/-- CELL (R134, R205, R431). -/
def execGCell (s : State) : Out1 := s.serveIf (fun b => match b with | .cell .. => true | _ => false)
/-- FLUSH (R430). -/
def execGFlush (s : State) : Out1 := s.serveIf (fun b => b == .flush)

/-! ## Graph operations (R350, R431) -/

/-- The copy of a graph at the home of a vertex on this package (R330, R331). -/
def State.homeGraph (s : State) (ctxn : Nat) (a : Dword) : Option GraphDesc :=
  (List.range 4).findSome? (fun die => match s.vertexGraph ctxn die a with
    | .ok d => if s.vertexHome d (refId a) == (s.pkg, die) then some d else none
    | .error _ => none)

/-- The result of a stream step as GRAPHRES (R431): an end leaves the cursors as they were. -/
def stepResult (ca cb : BitVec 128) : Option (Option Dword × BitVec 128 × BitVec 128) → FlitBody
  | none => .graphres false 0 ca cb 0 false
  | some (m, ca', cb') => .graphres false 0 ca' cb' (m.getD 0) m.isSome

/-- A step of SINTER or SDIFF for a peer: the list of one cursor at least is homed here, and another package is asked for what is
homed there (R347). None while it has not answered. -/
def State.streamServe (s : State) (h : FlitHdr) (o : Opc) (f : GraphForm) (ctxn : Nat) (c : Dword) (ca cb : BitVec 128) :
    Except Raise (State × Option FlitBody) :=
  match (s.homeGraph ctxn (curRef ca)).or (s.homeGraph ctxn (curRef cb)) with
  | none => .error (graphFault 0x0E (curGraph ca) (curId ca) 0)
  | some d =>
    let lb := if bit f.w2.idx 0 then some (c &&& 0xFFFFFFFFFF#64) else none
    (s.streamLocal false (.peer h.spkg.toNat h.tag) ctxn d.die (o == .sdiff) (f.v.a == f.v.b) ca cb lb).map
      (fun r => (r.1, r.2.map (stepResult ca cb)))

/-- Does an operation change the graph? -/
def mutates (o : Opc) : Bool := [Opc.vins, .vdel, .vset, .vatom, .eins, .edel, .epset].contains o

/-- Perform a GRAPHOP (R337, R347, R431): the vertex of a cursor instruction is that of CUR. A port whose die does not reach the
home's answers as one that cannot (R428). -/
def State.graphServe (s : State) (h : FlitHdr) (o : Opc) (f : GraphForm) (ctxn : Nat) (a b c : Dword) (ca cb : BitVec 128) :
    Except Raise (State × Option FlitBody) :=
  if o == .sinter || o == .sdiff then s.streamServe h o f ctxn c ca cb
  else
    let v := if walks o then curRef ca else a
    match s.homeGraph ctxn v with
    | none => .error (graphFault 0x0E (refGraph v) (refId v) 0)
    | some d =>
      if !s.reaches (portDie h.port) d.die then .error (graphFault 0 (refGraph v) (refId v) 0)
      else match s.graphOp false d o f.w2 v b c ca with
        | .error r => .error r
        | .ok (s, r) => .ok (if mutates o then s.clearMigok (fnOf h) else s, some (.graphres r.pd r.d r.cur cb 0 false))

/-- Must a GRAPHOP wait for an operation that changes one of its lists at another package (R337)? Of two packages that would
wait for each other, the lower one goes on (entry 25). -/
def State.graphWaits (s : State) (fl : Flit) (o : Opc) (ctxn : Nat) (a b : Dword) (ca cb : BitVec 128) : Bool :=
  s.pkg < fl.hdr.spkg.toNat
  && (if o == .sinter || o == .sdiff then s.streamLocked ctxn ca cb
      else s.graphLocked ctxn o (if walks o then curRef ca else a) b)

/-- Answer a GRAPHOP, and whether it has been answered: not while it waits. One whose INSN and W2 are those of no graph or cursor
instruction is malformed (entry 66). -/
def State.graphReply (s : State) (fl : Flit) : State × Bool :=
  match fl.body with
  | .graphop insn w2 a b c ctxn ca cb =>
    (match (opcodeOf (bits insn 9 2).toNat).bind (fun o =>
        (graphFormOf (extract o { w0 := insn, ext := some (0, w2), lit := none })).map (fun f => (o, f))) with
     | none => (s.discardFlit fl.hdr 0 5, true)
     | some (o, f) =>
       if vfOfCtx ctxn != (fnOf fl.hdr) then (s.answer fl.hdr (.neg 1 0), true)
       else if s.graphWaits fl o ctxn a b ca cb then (s, false)
       else match s.graphServe fl.hdr o f ctxn a b c ca cb with
         | .error r => ((s.dropPeeks (.peer fl.hdr.spkg.toNat fl.hdr.tag)).answer fl.hdr (.neg 1 r.code), true)
         | .ok (s, some body) => (s.answer fl.hdr body, true)
         | .ok (s, none) => (s, false))
  | _ => (s, true)

/-- GRAPHOP (R350, R431). -/
def execGGraphop (s : State) : Out1 :=
  s.withRx (fun s fl =>
    let r := s.graphReply fl
    if r.2 then r.1 else { r.1 with graphq := r.1.graphq ++ [fl] })

/-- Answer the GRAPHOPs that need wait no longer. -/
def State.settleGraphq (s : State) : State :=
  s.graphq.foldl (fun s fl =>
    let r := s.graphReply fl
    if r.2 then { r.1 with graphq := r.1.graphq.erase fl } else r.1) s

/-! ## Responses (R430, R432) -/

/-- The outstanding transaction that a response belongs to. -/
def State.txnOf (s : State) (h : FlitHdr) : Option Txn := s.txns.find? (fun x => x.tag == h.tag && x.pkg == h.spkg.toNat)

/-- End a transaction. -/
def State.dropTxn (s : State) (x : Txn) : State := { s with txns := s.txns.erase x }

/-- The response's reason and code, when it is a NEG. -/
def negOf : FlitBody → Option (Nat × Byte)
  | .neg r c => some (r.toNat, c)
  | _ => none

/-- The bytes that a response brings. -/
def bytesOf : FlitBody → List Byte
  | .data _ b => b
  | _ => []

/-- A thread takes its instruction up again, or waits for the others of its group (R40). -/
def State.readyTxn (s : State) (k : Key) : State :=
  match s.thread k with
  | some t => (match t.status with
    | .data (.txn _ alone) => if alone then s.formGroup (s.coreOf t) [k] else s.settleJoins
    | _ => s)
  | none => s

/-- A response to a thread's access: it goes on once no other is outstanding. -/
def State.replyTo (s : State) (k : Key) (b : FlitBody) : State :=
  let s : State := { s with replies := s.replies ++ [⟨k, b⟩] }
  if s.txns.any (fun x => x.by' == .reply k) then s else s.readyTxn k

/-- The threads that wait with a thread for an instruction word. -/
def State.fetchers (s : State) (k : Key) (tag : Dword) : List Key :=
  (s.threads.filter (fun t => t.wg == k.wg && t.status == .data (.fetch tag))).map (·.key)

/-- An instruction word has arrived, or could not be read (R66, R194). -/
def State.fetchDone (s : State) (k : Key) (at' : Nat) (tag : Dword) (b : FlitBody) : State :=
  let ks := s.fetchers k tag
  match s.thread k with
  | none => s
  | some t =>
    match negOf b with
    | none =>
      ({ s with fetched := s.fetched ++ [(at', BitVec.ofNat 32 (leNat (bytesOf b)))] } : State).formGroup (s.coreOf t) ks
    | some (r, _) =>
      let e : Raise := { code := if r == 6 then 0x02 else 0x0C, space := 2, addr := (vaOf t.pc).setWidth 128 }
      ks.foldl (fun s k => s.raise (s.coreOf t) s.pkg 0 [k] e) s

/-- Put what a read brought in place of its source; zero where it could not be read (R242). -/
def fillMove (b : FlitBody) (i : Nat) (ms : List Move) : List Move :=
  ms.modify i (fun mv => match negOf b with
    | some _ => { mv with src := none, pad := 0 }
    | none => { mv with src := some (.lit (bytesOf b)) })

/-- The ERR of a response: out of space for a write (R394), else an error of data (R425). -/
def errOf (b : FlitBody) (write : Bool) : Nat :=
  match negOf b with
  | none => 0
  | some (2, _) => if write then 2 else 1
  | some _ => 1

/-- A response to an engine: what a read brought, or the end of a write of some nibbles. -/
def State.engineDone (s : State) (op : Nat) (move : Option Nat) (nibs : Nat) (b : FlitBody) : State :=
  let s := s.opArrives op nibs (errOf b move.isNone)
  match move with
  | none => s
  | some i => { s with ops := s.ops.map (fun o =>
      match o.body with
      | .copy ms x dt ct out scl stag n oor =>
        if o.id == op then { o with body := .copy (fillMove b i ms) x dt ct out scl stag n oor } else o
      | _ => o) }

/-- A RAW granule or metadata word of another package has come: every move that takes bytes of it has them (R398). -/
def State.granuleDone (s : State) (pkg op pa n : Nat) (b : FlitBody) : State :=
  let fill (mv : Move) : Move := match mv.src with
    | some (.remote p x) =>
      if p == pkg && rawPa x && pa ≤ x && x < pa + n then
        (match negOf b with
         | some _ => { mv with src := none, pad := 0 }
         | none => { mv with src := some (.lit (((bytesOf b).drop (x - pa)).take mv.size)) })
      else mv
    | _ => mv
  let s := s.opArrives op 0 (errOf b false)
  { s with ops := s.ops.map (fun o => match o.body with
      | .copy ms x dt ct out scl stag n oor =>
        if o.id == op then { o with body := .copy (ms.map fill) x dt ct out scl stag n oor } else o
      | _ => o) }

/-- The aligned word of a byte with one of its nibbles replaced. -/
def nibbleWord (old : Word) (pa : Nat) (hi : Bool) (val : Nat) : Word :=
  let b := natLe 4 old.toNat
  BitVec.ofNat 32 (leNat (b.set (pa % 4) (withNibble hi (field b (pa % 4) 1) val)))

/-- A response in the write of a nibble (R248): compare and swap the word that was read, or the one that another writer has
left, until it holds. -/
def State.nibbleDone (s : State) (pkg op pa : Nat) (hi : Bool) (val : Nat) (old : Option Word) (b : FlitBody) : State :=
  let got : Word := BitVec.ofNat 32 (leNat ((bytesOf b).take 4))
  match s.ops.find? (fun o => o.id == op), (s.ops.find? (fun o => o.id == op)).bind (fun o => s.wg o.wg) with
  | some o, some w =>
    if (negOf b).isSome then s.opArrives op 1 (errOf b true)
    else if old.isSome && field (bytesOf b) 4 1 == 1 then s.opArrives op 1 0
    else
      let die := dieOf o.core
      if !s.portsFrom die then s.opArrives op 1 1
      else
        let x : BitVec 128 := BitVec.ofNat 128 (got.toNat + 2 ^ 32 * (nibbleWord got pa hi val).toNat)
        (s.request pkg (vfOfCtx w.ctxn) die (.atomic (BitVec.ofNat 64 (pa / 4 * 4)) 9 2 true 0 x) (.nibble op pa hi val (some got))).1
  | _, _ => s

/-- Ask again, byte by byte, for a source that could not be read whole: its good bytes are copied (R406). -/
def State.byByte (s : State) (pkg vf id i : Nat) (mv : Move) (pa : Nat) : State :=
  (List.range mv.size).foldl (fun s j =>
      (s.request pkg vf 0 (.read (BitVec.ofNat 64 (pa + j)) 1 0) (.command vf id (some i) (some j))).1)
    (s.modCmd vf id (fun c => { c with status := worse c.status 7
                                       moves := c.moves.set i { mv with src := some (.lit (List.replicate mv.size 0)) } }))

/-- One byte of such a source: zero where it cannot be read. -/
def fillByte (b : FlitBody) (i j : Nat) (ms : List Move) : List Move :=
  ms.modify i (fun mv => match mv.src, bytesOf b with
    | some (.lit l), x :: _ => { mv with src := some (.lit (l.set j x)) }
    | _, _ => mv)

/-- The part of a Copy whose source has been asked for whole and cannot be read: its place on another package. -/
def State.badSource (s : State) (vf id : Nat) (move : Option Nat) (b : FlitBody) : Option (Nat × Move × Nat × Nat) :=
  match move, negOf b with
  | some i, some (4, _) => ((s.command vf id).bind (fun c => if c.op == 2 then c.moves[i]? else none)).bind (fun mv => match mv.src with
    | some (.remote pkg pa) => if 1 < mv.size && !rawPa pa && s.portsFrom 0 then some (i, mv, pkg, pa) else none
    | _ => none)
  | _, _ => none

/-- A response to a command: a refusal at the other package is status 0x6, and a probe tells nothing else (R406, R407, R414). -/
def State.commandPart (s : State) (vf id : Nat) (move : Option Nat) (b : FlitBody) : State :=
  let probe : Bool := match move with | some i => ((s.command vf id).map (fun c => decide (c.moves.length ≤ i))).getD true | none => false
  let s := match negOf b with
    | none => s
    | some (6, _) => s.worsen vf id 6
    | some (2, _) => if probe then s else s.worsen vf id (if move.isNone then 8 else 7)
    | some _ => if probe then s else s.worsen vf id 7
  match move with
  | some i => s.modCmd vf id (fun c => { c with moves := fillMove b i c.moves })
  | none => s

/-- A response to a command, for one byte of a source or for a part of it. -/
def State.commandDone (s : State) (vf id : Nat) (move byte : Option Nat) (b : FlitBody) : State :=
  match move, byte with
  | some i, some j => s.modCmd vf id (fun c => { c with moves := fillByte b i j c.moves })
  | _, _ => match s.badSource vf id move b with
    | some (i, mv, pkg, pa) => s.byByte pkg vf id i mv pa
    | none => s.commandPart vf id move b

/-- A response to a continuation (R432): a departing thread takes its instruction up; a guest that returns home has gone, or
tries again. -/
def State.contDone (s : State) (k : Key) (home : Bool) (b : FlitBody) : State :=
  if !home then s.replyTo k b
  else match s.thread k, s.wg k.wg with
    | some t, some w =>
      (match w.foreign with
       | none => s
       | some p => if (negOf b).isNone then s.dropGuest k else s.setThread { t with status := .transit p w.core none })
    | _, _ => s

/-- Is who looks at a list still there? -/
def State.peeking (s : State) : PeekBy → Bool
  | .op id => s.ops.any (fun o => o.id == id)
  | .peer pkg tag => s.graphq.any (fun fl => fl.hdr.spkg.toNat == pkg && fl.hdr.tag == tag)

/-- Give a response to what its transaction serves. The end of an edge that is homed here changes first (R337). -/
def State.respond (s : State) (h : FlitHdr) (b : FlitBody) : State :=
  match s.txnOf h with
  | none => s
  | some x =>
    let s := (s.dropTxn x).endChanged x b
    match x.by' with
    | .peek who second => if s.peeking who then { s with peeks := s.peeks ++ [⟨who, second, b⟩] } else s
    | .granule op pa n => s.granuleDone x.pkg op pa n b
    | .reply k => s.replyTo k b
    | .fetch k at' => s.fetchDone k at' x.tag b
    | .stream op => (match s.ops.find? (fun o => o.id == op) with
      | some o => { s with replies := s.replies ++ [⟨⟨o.wg, o.issuer⟩, b⟩] }
      | none => s)
    | .engine op move nibs => s.engineDone op move nibs b
    | .nibble op pa hi val old => s.nibbleDone x.pkg op pa hi val old b
    | .command vf id move byte => s.commandDone vf id move byte b
    | .slot k => s.replyTo k b
    | .cont k home => s.contDone k home b

/-- DATA (R431). -/
def execGData (s : State) : Out1 := s.withRx (fun s fl => s.respond fl.hdr fl.body)
/-- ACK (R430, R432). -/
def execGAck (s : State) : Out1 := s.withRx (fun s fl => s.respond fl.hdr fl.body)
/-- NEG (R425, R430). -/
def execGNeg (s : State) : Out1 := s.withRx (fun s fl => s.respond fl.hdr fl.body)
/-- GRAPHRES (R431). -/
def execGGraphres (s : State) : Out1 := s.withRx (fun s fl => s.respond fl.hdr fl.body)

/-! ## Continuations (R432) -/

/-- SLOTREQ: a guest core is held for the transaction, or none is free. -/
def execGSlotreq (s : State) : Out1 :=
  s.withRx (fun s fl => match fl.body with
    | .slotreq ctxn die =>
      (match (if vfOfCtx ctxn == (fnOf fl.hdr) then s.guestCore (fnOf fl.hdr) die else none) with
       | none => s.answer fl.hdr .slotbsy
       | some c =>
         ({ s.bump with conts := s.conts ++ [{ spkg := fl.hdr.spkg.toNat, tag := fl.hdr.tag, parts := [], core := some c }] } : State).answer
           fl.hdr (.slotgnt c))
    | _ => s)

/-- SLOTGNT: the thread takes its instruction up, and sends its continuation under the same tag. -/
def execGSlotgnt (s : State) : Out1 :=
  s.withRx (fun s fl => match s.txnOf fl.hdr with
    | none => s
    | some x => match x.by' with
      | .slot k =>
        let s : State := { s with txns := s.txns.map (fun y => if y == x then { y with by' := TxnBy.cont k false } else y) }
        s.replyTo k fl.body
      | _ => s)

/-- SLOTBSY: the thread takes its instruction up, and asks again. -/
def execGSlotbsy (s : State) : Out1 :=
  s.withRx (fun s fl => match s.txnOf fl.hdr with
    | none => s
    | some x => match x.by' with
      | .slot k => (s.dropTxn x).readyTxn k
      | _ => s)

/-- The whole continuation, once its parts are there. -/
def ContIn.whole (c : ContIn) (parts len : Nat) : Option (List Byte) :=
  let b := (List.range parts).flatMap (fun i => ((c.parts.find? (fun p => p.1 == i)).map (·.2)).getD [])
  if (List.range parts).all (fun i => c.parts.any (fun p => p.1 == i)) && b.length == len then some b else none

/-- A kernel as a guest's continuation tells it: HOPS and DET. A guest may name any register that it carries. The age limit and
the class are its origin's, which no message tells (R372; entry 26). -/
def guestKernel (id : Nat) (b : List Byte) : Kernel :=
  { (agentWg 0).kernel with
    det := (field b 0x13 1).testBit 0, hops := field b 0x12 1, nroles := 1, age := 16 + (Config.origin id 17).toNat % 1009
    roles := [{ regs := 128, cls := (Config.origin id 16).toNat % 4, entry := 0 }] }

/-- The stand-in for a guest's workgroup, if there is one already. -/
def State.standIn (s : State) (pkg ctxn core : Nat) (lin : Word) : Option Workgroup :=
  s.wgs.find? (fun w => w.foreign == some pkg && w.ctxn == ctxn && w.core == core && w.wgx == lin)

/-- A guest of another package is placed (R366, R432). -/
def State.placeForeign (s : State) (b : List Byte) (core : Nat) : State :=
  let pkg := field b 0x10 1
  let ctxn := field b 0x1C 4
  let home := field b 0x0E 2
  let lin : Word := BitVec.ofNat 32 (field b 8 4)
  let old := s.standIn pkg ctxn home lin
  let id := (old.map (·.id)).getD s.fresh
  let new : Workgroup :=
    { agentWg ctxn with id, core := home, wgx := lin, nwgx := 0, kernel := guestKernel id b, started := true, foreign := some pkg
                        seq := (Config.origin id 18).toNat, spadSize := (Config.origin id 19).toNat % 524289, own := [] }
  let s : State := if old.isSome then s else { s with wgs := s.wgs ++ [new], fresh := s.fresh + 1 }
  let t := Thread.unpack (Thread.fresh new (field b 0x0C 2)) b
  let un := field b 0x19 1
  let snap := (fields b (48 + 16 * t.openCursors.length) 8 un).map (BitVec.ofNat 64)
  let t : Thread := { t with wg := id, away := some ⟨core, s.pkg, snap⟩ }
  ({ s with threads := s.threads ++ [t] } : State).fileThread t 0

/-- A late fault that a thread brings home, and that no message tells (R195, R373; entry 29). -/
def broughtLate (t : Thread) (x : Nat → Dword) : Late :=
  { fault := { code := 0x0C, space := (x 6).setWidth 8, addr := BitVec.ofNat 128 ((x 7).toNat + (x 8).toNat * 2 ^ 64)
               site := some (x 9, (x 10).setWidth 32) }
    dest := (t.vb + (x 11).toNat % (t.vn + 1), (x 12).toNat % 5), pd := if bit (x 13) 0 then some ((x 13).setWidth 4) else none }

/-- A thread is home. Its continuation does not tell whether a fault brought it, which is delivered here (R375), whether it is
parked on one that it took there (R376), or whether a late fault is pending: what it brings so is free (entry 29). -/
def State.broughtHome (s : State) (t : Thread) : State :=
  let x := Config.returned s.freeN
  let s := s.bump
  let t := if bit (x 5) 0 then { t with late := t.late ++ [broughtLate t x] } else t
  match (x 0).toNat % 3, s.wg t.wg with
  | 1, some w =>
    let r : Raise := { code := (x 1).setWidth 8, arg := (x 2).setWidth 16 }
    s.deliver w t r (BitVec.ofNat 512 (leNat ((List.range 8).flatMap (fun i => natLe 8 (x (20 + i)).toNat))))
  | 2, _ =>
    let r : Raise := { code := (x 1).setWidth 8 }
    s.setThread { t with status := .parked { kind := .resolve, fault := r, body := [], seq := some ((x 3).setWidth 32) } }
  | _, _ => s.fileThread t 0

/-- A thread of this package that comes back: to its origin, with the hop count that the continuation gives (R373, R382), or, where
a guest slot has been granted, as a guest to another die of its package (R366). -/
def State.comeBack (s : State) (t : Thread) (b : List Byte) (core : Option Nat) : State :=
  let u := t.unpack b
  match core with
  | none => s.broughtHome { u with away := none, recalled := false }
  | some c =>
    s.fileThread { u with away := some ⟨c, s.pkg, (fields b (48 + 16 * u.openCursors.length) 8 u.un).map (BitVec.ofNat 64)⟩ } 0

/-- The thread of this package that a continuation brings home (R373). -/
def State.returning (s : State) (b : List Byte) : Option Thread :=
  s.threads.find? (fun t => t.tidx == field b 0x0C 2 && t.status == .gone
    && (s.wg t.wg).any (fun w => w.foreign.isNone && w.ctxn == field b 0x1C 4 && w.lin == BitVec.ofNat 32 (field b 8 4)))

/-- Place a continuation that is complete; none where it has no place. -/
def State.placeCont (s : State) (c : ContIn) (b : List Byte) : Option State :=
  if field b 0x10 1 == s.pkg then
    (s.returning b).map (fun t => s.comeBack t b c.core)
  else c.core.map (fun core => s.placeForeign b core)

/-- CONT (R432): the thread is placed once every part has arrived. -/
def execGCont (s : State) : Out1 :=
  s.withRx (fun s fl => match fl.body with
    | .cont part parts len b =>
      let mine (c : ContIn) : Bool := c.spkg == fl.hdr.spkg.toNat && c.tag == fl.hdr.tag
      let old := (s.conts.find? mine).getD { spkg := fl.hdr.spkg.toNat, tag := fl.hdr.tag, parts := [], core := none }
      let c : ContIn := { old with parts := old.parts ++ [(part, b)] }
      let s : State := { s with conts := s.conts.filter (fun x => !mine x) }
      (match c.whole parts len with
       | none => { s with conts := s.conts ++ [c] }
       | some whole => match s.placeCont c whole with
         | some s => s.answer fl.hdr .ack
         | none => s.answer fl.hdr (.neg 1 0))
    | _ => s)

/-- RECALL (R376): a guest that cannot be recalled yet is once it can. -/
def execGRecall (s : State) : Out1 :=
  s.withRx (fun s fl => match fl.body with
    | .recall ctxn lin tidx =>
      (match s.wgs.find? (fun w => w.foreign == some fl.hdr.spkg.toNat && w.ctxn == ctxn && w.wgx == lin) with
       | none => s
       | some w => match s.thread ⟨w.id, tidx⟩ with
         | some t => (s.setThread { t with recalled := true }).recall w { t with recalled := true }
         | none => s)
    | _ => s)

/-! ## Collectives (R433) -/

/-- Add to what has arrived of a participant. -/
def State.collIn (s : State) (h : FlitHdr) (gid op part : Nat) (f : CollRx → CollRx) : State :=
  let mine (r : CollRx) : Bool :=
    r.vf == fnOf h && r.gid == gid && r.op == op && r.part == part && r.pkg == h.spkg.toNat && !r.done
  let r := (s.collRx.find? mine).getD
    { vf := (fnOf h), gid, op, part, pkg := h.spkg.toNat, die := dieOfTag h, data := [], cells := [], cb := [], done := false }
  { s with collRx := s.collRx.filter (fun x => !mine x) ++ [f r] }

/-- ELEM. -/
def execGElem (s : State) : Out1 :=
  s.withRx (fun s fl => match fl.body with
    | .elem gid op part off b => s.collIn fl.hdr gid op part (fun r => { r with data := r.data ++ [(off, b)] })
    | _ => s)

/-- CELLS (R133, R433). -/
def execGCells (s : State) : Out1 :=
  s.withRx (fun s fl => match fl.body with
    | .cells gid op part off l => s.collIn fl.hdr gid op part (fun r => { r with cells := r.cells ++ [(off, l)] })
    | _ => s)

/-- CODEBOOK (R433). -/
def execGCodebook (s : State) : Out1 :=
  s.withRx (fun s fl => match fl.body with
    | .codebook gid op part cb => s.collIn fl.hdr gid op part (fun r => { r with cb })
    | _ => s)

/-- DONE (R430). -/
def execGDone (s : State) : Out1 :=
  s.withRx (fun s fl => match fl.body with
    | .done gid op part => s.collIn fl.hdr gid op part (fun r => { r with done := true })
    | _ => s)

/-! ## Links -/

/-- MALFORMED_GNOIP_FLIT (R430): discarded and logged; a request is answered with NEG reason 0x05. Nothing is done of a flit that
is well formed. -/
def execMalformedGnoipFlit (s : State) : Out1 := s.withRx (fun s _ => s)

/-- A transaction that can no longer complete fails (R425, R428). -/
def State.failTxn (s : State) (x : Txn) : State :=
  s.respond ⟨0, BitVec.ofNat 8 x.pkg, 0, x.tag, (bits x.tag 55 48).toNat⟩ (.neg 1 0)

/-- The transactions of dies that reach no port any more fail. -/
def State.failStranded (s : State) : State :=
  (s.txns.filter (fun x => !s.portsFrom (bits x.tag 63 56).toNat)).foldl State.failTxn s

/-- A port goes down (R428). -/
def State.portDown (s : State) (port : Nat) : State :=
  let s : State := { s with links := { s.links with portUp := s.links.portUp.set port false } }
  (s.logEvent 0x06 (portDie port) 0 [0, port]).failStranded

/-- FLIT_CRC_FAIL (R428, R443): the flit is replayed, and the correction logged; the failure of the sixteenth replay in a row
takes the link down. -/
def execFlitCrcFail (port : Nat) (s : State) : Out1 :=
  .next (
    if !s.links.portUp.getD port false then s
    else
      let n := s.links.replays.getD port 0 + 1
      let s : State := { s with links := { s.links with replays := s.links.replays.set port n } }
      if n ≤ 16 then s.logSoft .gnoip (portDie port) port else s.portDown port)

/-- The die that the event of a die link names. DESIGN CHOICE (entry 66): of the two dies that a link joins the lower one, as R11
and R440 name none. -/
def linkDie (link : Nat) : Nat := ([0, 0, 1, 2] : List Nat).getD link 0

/-- DIE_LINK_DOWN (R11, R428, R440): links 0 to 3 are 0-1, 0-2, 1-3 and 2-3. -/
def execDieLinkDown (link : Nat) (s : State) : Out1 :=
  .next (
    if s.links.dieUp.getD link false then
      (({ s with links := { s.links with dieUp := s.links.dieUp.set link false } } : State).logEvent 0x06 (linkDie link) 0 [1, link]).failStranded
    else s)

end Sys2Proof.Machine
end

