-- ==== Sys2Proof/Machine/Prefix.lean ====
section
/-! DEFINITION. PFX, opcode 0x01 (R86 to R88, R107): the pair executes as one instruction, the second with the fields of
the first as its modifiers. -/

namespace Sys2Proof.Machine

/-- The meaning of an instruction that a PFX may precede, in its prefixed form (R87). -/
def execPrefixed (i : Instr) (s : State) : Out1 :=
  match i with
  | .mov f => execMov f s
  | .movl f => execMovl f s
  | .add f => execAdd f s
  | .sub f => execSub f s
  | .mul f => execMul f s
  | .mulhs f => execMulhs f s
  | .mulhu f => execMulhu f s
  | .min f => execMin f s
  | .max f => execMax f s
  | .minu f => execMinu f s
  | .maxu f => execMaxu f s
  | .and f => execAnd f s
  | .or f => execOr f s
  | .xor f => execXor f s
  | .andn f => execAndn f s
  | .shl f => execShl f s
  | .shr f => execShr f s
  | .sar f => execSar f s
  | .rotl f => execRotl f s
  | .fshl f => execFshl f s
  | .popc f => execPopc f s
  | .clz f => execClz f s
  | .brev f => execBrev f s
  | .bfe f sx => execBfe f sx s
  | .bfi f => execBfi f s
  | .cmp f => execCmp f s
  | .cmpu f => execCmpu f s
  | .lea f zx sh => execLea f zx sh s
  | .plop lut pb pa pd fm => execPlop lut pb pa pd fm s
  | .ptov f => execPtov f s
  | .vtop f => execVtop f s
  | .sread f kd => execSread f kd s
  | .rng f => execRng f s
  | .cyc f => execCyc f s
  | .divu f => execDivu f s
  | .remu f => execRemu f s
  | .fadd f => execFadd f s
  | .fsub f => execFsub f s
  | .fmul f => execFmul f s
  | .ffma f => execFfma f s
  | .fmin f => execFmin f s
  | .fmax f => execFmax f s
  | .fcmp f => execFcmp f s
  | .frnd f => execFrnd f s
  | .fcvt f => execFcvt f s
  | .fsf f => execFsf f s
  | .fclass f => execFclass f s
  | .hadd2 f bf => execHadd2 f bf s
  | .hmul2 f bf => execHmul2 f bf s
  | .hfma2 f bf => execHfma2 f bf s
  | .hmax2 f bf => execHmax2 f bf s
  | .hmin2 f bf => execHmin2 f bf s
  | .pack2 f bf => execPack2 f bf s
  | .unpk2 f => execUnpk2 f s
  | .dadd f => execDadd f s
  | .dmul f => execDmul f s
  | .dfma f => execDfma f s
  | .dcvt f => execDcvt f s
  | .fscl f => execFscl f s
  | .fdiv f => execFdiv f s
  | _ => .next (s.raiseAll (trapOf 0x06))

/-- PFX (R86 to R88): an ineligible successor, or one whose checks fail, raises 0x06 for every thread of the group. -/
def execPfx (p : Prefix) (w : Word) (lit : Option Dword) (s : State) : Out1 :=
  match prefixedInstr p w lit with
  | some i => execPrefixed i s
  | none => .next (s.raiseAll (trapOf 0x06))

/-- A word whose opcode is reserved (R90 step 3, R91): 0x06 for every thread of the group. -/
def execReservedOpcode (_w : Word) (s : State) : Out1 := .next (s.raiseAll (trapOf 0x06))

end Sys2Proof.Machine
end

