-- ==== Sys2Proof/Machine/Uniform.lean ====
section
/-! DEFINITION. Uniform instructions, opcodes 0x56 to 0x5E (R60, R61, R170 to R172). -/

namespace Sys2Proof.Machine

/-- Operand B of a uniform instruction: kUB or the literal. -/
def uniB (f : Uniform) (w : Workgroup) (t : Thread) : Dword :=
  match f.fm.lit with | some l => l | none => kread w t f.ub.toNat

/-- A uniform instruction that computes: once for the group, by its first guard-true thread (R60). -/
def State.uniform (s : State) (i : Instr) (f : Uniform) (g : State → Workgroup → Thread → Dword) : Out1 :=
  let lead := s.leader f.fm
  .next (s.forThreads i (fun s w t =>
    if lead == some t.key then
      .go (s.modWg w.id (fun w' => kwrite w' (t.tidx == 0xFFFF) f.ud.toNat (g s w t))) (t.onward i)
    else .go s (t.onward i)))

/-- KMOV (R171): FN 0x1 reads a launch constant, and 0x13 is for the group in deterministic mode. -/
def execKmov (f : Uniform) (s : State) : Out1 :=
  let i : Instr := .kmov f
  let lead := s.leader f.fm
  .next (s.forThreads i (fun s w t =>
    if f.fn == 1 && w.kernel.det && placementSel f.ub.toNat then .fault s (trapOf 0x13)
    else if lead == some t.key then
      let x : Dword := if f.fn == 1 then BitVec.ofNat 64 (special s w t f.ub.toNat) else uniB f w t
      .go (s.modWg w.id (fun w' => kwrite w' (t.tidx == 0xFFFF) f.ud.toNat x)) (t.onward i)
    else .go s (t.onward i)))

/-- KADD (R171). -/
def execKadd (f : Uniform) (s : State) : Out1 :=
  s.uniform (.kadd f) f (fun _ w t =>
    let a := kread w t f.ua.toNat
    if f.fn == 1 then a - uniB f w t else a + uniB f w t)

/-- The product of KMUL (R171). -/
def kmulResult (fn : BitVec 4) (a b : Dword) : Dword :=
  match fn.toNat with
  | 0 => a * b
  | 1 => BitVec.ofNat 64 (a.toNat * b.toNat / 2 ^ 64)
  | _ => BitVec.ofInt 64 (a.toInt * b.toInt / 2 ^ 64)

/-- KMUL (R171). -/
def execKmul (f : Uniform) (s : State) : Out1 :=
  s.uniform (.kmul f) f (fun _ w t => kmulResult f.fn (kread w t f.ua.toNat) (uniB f w t))

/-- KLEA (R171). -/
def execKlea (f : Uniform) (s : State) : Out1 :=
  s.uniform (.klea f) f (fun _ w t => kread w t f.ua.toNat + (uniB f w t <<< f.fn.toNat))

/-- KCMP (R171). -/
def execKcmp (f : Uniform) (s : State) : Out1 :=
  s.uniform (.kcmp f) f (fun _ w t => if kcmpHolds f.fn.toNat (kread w t f.ua.toNat) (uniB f w t) then 1 else 0)

/-- The functions of KLOG (R171). -/
def klogResult (fn : BitVec 4) (a b : Dword) : Dword :=
  let n := b.toNat % 64
  match fn.toNat with
  | 0 => a &&& b
  | 1 => a ||| b
  | 2 => a ^^^ b
  | 3 => a &&& ~~~b
  | 4 => a <<< n
  | 5 => a >>> n
  | 6 => a.sshiftRight n
  | _ => a.rotateLeft n

/-- KLOG (R171). -/
def execKlog (f : Uniform) (s : State) : Out1 :=
  s.uniform (.klog f) f (fun _ w t => klogResult f.fn (kread w t f.ua.toNat) (uniB f w t))

/-- KSEL (R171). -/
def execKsel (f : Uniform) (s : State) : Out1 :=
  s.uniform (.ksel f) f (fun _ w t =>
    if (kread w t f.ua.toNat != 0) != bit f.fn 0 then uniB f w t else kread w t f.ud.toNat)

/-- The register address of KLD and KST: kUA plus kUB or the literal (R172, R182). -/
def kmemEa (f : Uniform) (w : Workgroup) (t : Thread) : Dword := kread w t f.ua.toNat + uniB f w t

/-- Bytes of a KLD or KST (R172). -/
def kmemBytes (f : Uniform) : Nat := 2 ^ (f.fn.toNat % 4)

/-- The value of a KLD from the bytes read (R172). -/
def kldValue (f : Uniform) (b : List Byte) : Dword :=
  let n := kmemBytes f
  let x := leNat b
  if bit f.fn 2 && x.testBit (8 * n - 1) then BitVec.ofInt 64 ((x : Int) - 2 ^ (8 * n)) else BitVec.ofNat 64 x

/-- The record of a KLD or KST whose data cannot be read or placed (R195): one for the threads of its group. -/
def Thread.kpoisoned (t : Thread) (insn : Word) (ea : Dword) (k : Nat) : Thread :=
  { t with late := t.late ++ [{
      fault := { code := 0x0C, space := 1, addr := (vaOf ea).setWidth 128, site := some (t.pc, insn) },
      dest := (0, 0), pd := none, kd := some k }] }

/-- What a group does after its KLD or KST: `got` is the state once the bytes are there. -/
def State.kstep (s : State) (i : Instr) (ea : Dword) (n k : Nat) (got : State → List Byte → State) : Acc → Once
  | .got s b => .all (got s b) (fun t => t.onward i)
  | .later s => .all s (fun t => t.onward i)
  | .hold s st => .all s (fun t => { t with status := st })
  | .bad x => .all x (fun t => (t.kpoisoned s.cur.insn ea k).onward i)
  | .deny s => .fault s (dataFault 0x02 (vaOf ea) n false)

/-- The KLD of a thread whose data has still to come (R61). -/
def State.kload (s : State) (t : Thread) : Option KPending := s.kloads.find? (fun x => x.keys.contains t.key)

/-- A KLD whose data has to come reserves its register; one that ends frees it (R61). -/
def State.kreserve (s : State) (t : Thread) (keys : List Key) (f : Uniform) (ea : Dword) : Acc → State
  | .hold _ _ => { s with kloads := s.kloads ++ [{ wg := t.wg, slice := t.key.isSlice, k := f.ud.toNat, keys, ea }] }
  | _ => s

/-- KLD (R61, R172): one access for the group. -/
def execKld (f : Uniform) (s : State) : Out1 :=
  let i : Instr := .kld f
  let n := kmemBytes f
  let keys := s.guardTrue f.fm
  .next (s.onceForGroup i (fun s w t =>
    let old := s.kload t
    let ea := (old.map (·.ea)).getD (kmemEa f w t)
    let s := { s with kloads := s.kloads.filter (fun x => some x != old) }
    let r := s.access t.key (s.checkEa w (atCore (s.coreOf t)) { n, align := n, paths := [0, 1, 2, 3], ordOk := 4 ≤ n }
        (kread w t f.ua.toNat) ea) (fun g => s.readAt w t g n 0 (eaPath ea == 1))
    match r with
    | .error r => .fault s r
    | .ok a =>
      match a with
      | .hold y st => .all (y.kreserve t keys f ea a) (fun t => { t with status := st })
      | a => s.kstep i ea n f.ud.toNat
          (fun s b => s.modWg w.id (fun w' => kwrite w' (t.tidx == 0xFFFF) f.ud.toNat (kldValue f b))) a))

/-- KST (R172): one access for the group. -/
def execKst (f : Uniform) (s : State) : Out1 :=
  let i : Instr := .kst f
  let n := kmemBytes f
  let keys := s.guardTrue f.fm
  .next (s.onceForGroup i (fun s w t =>
    let ea := kmemEa f w t
    match s.access t.key (s.checkEa w (atCore (s.coreOf t))
        { n, align := n, paths := [0, 2], write := true, strict := true, ordOk := 4 ≤ n } (kread w t f.ua.toNat) ea)
        (fun g => s.writeAt w t g (.store (natLe n (kread w t f.ud.toNat).toNat)) 0 none (vaOf ea) keys) with
    | .error r => .fault s r
    | .ok a => s.kstep i ea n 64 (fun s _ => s) a))

end Sys2Proof.Machine
end

