-- ==== Sys2Proof/Machine/Dispatch.lean ====
section
/-! DEFINITION. What each instruction and event does: one arm for each constructor of `Instr`. -/

namespace Sys2Proof.Machine

def exec (i : Instr) (s : State) : Host.Outcome State Fault Refusal :=
  match i with
  | .pfx p w lit => Sys2Proof.Machine.execPfx p w lit s
  | .bra off fm => Sys2Proof.Machine.execBra off fm s
  | .brp off pn pp => Sys2Proof.Machine.execBrp off pn pp s
  | .jmpr f => Sys2Proof.Machine.execJmpr f s
  | .call off fm => Sys2Proof.Machine.execCall off fm s
  | .callr f => Sys2Proof.Machine.execCallr f s
  | .ret fm => Sys2Proof.Machine.execRet fm s
  | .reform tag => Sys2Proof.Machine.execReform tag s
  | .exit fm => Sys2Proof.Machine.execExit fm s
  | .yield hold fm => Sys2Proof.Machine.execYield hold fm s
  | .trap code fm => Sys2Proof.Machine.execTrap code fm s
  | .brk bid fm => Sys2Proof.Machine.execBrk bid fm s
  | .kbra off kz kr => Sys2Proof.Machine.execKbra off kz kr s
  | .role ent rid pd => Sys2Proof.Machine.execRole ent rid pd s
  | .tsync f => Sys2Proof.Machine.execTsync f s
  | .mov f => Sys2Proof.Machine.execMov f s
  | .movl f => Sys2Proof.Machine.execMovl f s
  | .add f => Sys2Proof.Machine.execAdd f s
  | .sub f => Sys2Proof.Machine.execSub f s
  | .addc f cy => Sys2Proof.Machine.execAddc f cy s
  | .subb f cy => Sys2Proof.Machine.execSubb f cy s
  | .mul f => Sys2Proof.Machine.execMul f s
  | .mulhs f => Sys2Proof.Machine.execMulhs f s
  | .mulhu f => Sys2Proof.Machine.execMulhu f s
  | .madw f cy => Sys2Proof.Machine.execMadw f cy s
  | .min f => Sys2Proof.Machine.execMin f s
  | .max f => Sys2Proof.Machine.execMax f s
  | .minu f => Sys2Proof.Machine.execMinu f s
  | .maxu f => Sys2Proof.Machine.execMaxu f s
  | .and f => Sys2Proof.Machine.execAnd f s
  | .or f => Sys2Proof.Machine.execOr f s
  | .xor f => Sys2Proof.Machine.execXor f s
  | .andn f => Sys2Proof.Machine.execAndn f s
  | .shl f => Sys2Proof.Machine.execShl f s
  | .shr f => Sys2Proof.Machine.execShr f s
  | .sar f => Sys2Proof.Machine.execSar f s
  | .rotl f => Sys2Proof.Machine.execRotl f s
  | .fshl f => Sys2Proof.Machine.execFshl f s
  | .popc f => Sys2Proof.Machine.execPopc f s
  | .clz f => Sys2Proof.Machine.execClz f s
  | .brev f => Sys2Proof.Machine.execBrev f s
  | .bfe f sx => Sys2Proof.Machine.execBfe f sx s
  | .bfi f => Sys2Proof.Machine.execBfi f s
  | .sel f sn spr => Sys2Proof.Machine.execSel f sn spr s
  | .cmp f => Sys2Proof.Machine.execCmp f s
  | .cmpu f => Sys2Proof.Machine.execCmpu f s
  | .lea f zx sh => Sys2Proof.Machine.execLea f zx sh s
  | .plop lut pb pa pd fm => Sys2Proof.Machine.execPlop lut pb pa pd fm s
  | .ptov f => Sys2Proof.Machine.execPtov f s
  | .vtop f => Sys2Proof.Machine.execVtop f s
  | .sread f kd => Sys2Proof.Machine.execSread f kd s
  | .rng f => Sys2Proof.Machine.execRng f s
  | .cyc f => Sys2Proof.Machine.execCyc f s
  | .divu f => Sys2Proof.Machine.execDivu f s
  | .remu f => Sys2Proof.Machine.execRemu f s
  | .fadd f => Sys2Proof.Machine.execFadd f s
  | .fsub f => Sys2Proof.Machine.execFsub f s
  | .fmul f => Sys2Proof.Machine.execFmul f s
  | .ffma f => Sys2Proof.Machine.execFfma f s
  | .fmin f => Sys2Proof.Machine.execFmin f s
  | .fmax f => Sys2Proof.Machine.execFmax f s
  | .fcmp f => Sys2Proof.Machine.execFcmp f s
  | .frnd f => Sys2Proof.Machine.execFrnd f s
  | .fcvt f => Sys2Proof.Machine.execFcvt f s
  | .fsf f => Sys2Proof.Machine.execFsf f s
  | .fclass f => Sys2Proof.Machine.execFclass f s
  | .hadd2 f bf => Sys2Proof.Machine.execHadd2 f bf s
  | .hmul2 f bf => Sys2Proof.Machine.execHmul2 f bf s
  | .hfma2 f bf => Sys2Proof.Machine.execHfma2 f bf s
  | .hmax2 f bf => Sys2Proof.Machine.execHmax2 f bf s
  | .hmin2 f bf => Sys2Proof.Machine.execHmin2 f bf s
  | .pack2 f bf => Sys2Proof.Machine.execPack2 f bf s
  | .unpk2 f => Sys2Proof.Machine.execUnpk2 f s
  | .dadd f => Sys2Proof.Machine.execDadd f s
  | .dmul f => Sys2Proof.Machine.execDmul f s
  | .dfma f => Sys2Proof.Machine.execDfma f s
  | .dcvt f => Sys2Proof.Machine.execDcvt f s
  | .fscl f => Sys2Proof.Machine.execFscl f s
  | .fdiv f => Sys2Proof.Machine.execFdiv f s
  | .tshfl f all w64 mode => Sys2Proof.Machine.execTshfl f all w64 mode s
  | .tvote f all sn spr op => Sys2Proof.Machine.execTvote f all sn spr op s
  | .tred f w => Sys2Proof.Machine.execTred f w s
  | .rdfl f all pd w64 chk => Sys2Proof.Machine.execRdfl f all pd w64 chk s
  | .tcoll f all wid => Sys2Proof.Machine.execTcoll f all wid s
  | .tscan f w => Sys2Proof.Machine.execTscan f w s
  | .tmatch f all w64 => Sys2Proof.Machine.execTmatch f all w64 s
  | .kmov f => Sys2Proof.Machine.execKmov f s
  | .kadd f => Sys2Proof.Machine.execKadd f s
  | .kmul f => Sys2Proof.Machine.execKmul f s
  | .klea f => Sys2Proof.Machine.execKlea f s
  | .kcmp f => Sys2Proof.Machine.execKcmp f s
  | .klog f => Sys2Proof.Machine.execKlog f s
  | .kld f => Sys2Proof.Machine.execKld f s
  | .ksel f => Sys2Proof.Machine.execKsel f s
  | .kst f => Sys2Proof.Machine.execKst f s
  | .ld f => Sys2Proof.Machine.execLd f s
  | .st f => Sys2Proof.Machine.execSt f s
  | .atom f => Sys2Proof.Machine.execAtom f s
  | .acas f => Sys2Proof.Machine.execAcas f s
  | .accadd f => Sys2Proof.Machine.execAccadd f s
  | .accrd f => Sys2Proof.Machine.execAccrd f s
  | .accclr f => Sys2Proof.Machine.execAccclr f s
  | .fence kind scope pm fm => Sys2Proof.Machine.execFence kind scope pm fm s
  | .pref f => Sys2Proof.Machine.execPref f s
  | .lda f => Sys2Proof.Machine.execLda f s
  | .str f => Sys2Proof.Machine.execStr f s
  | .wsqry f => Sys2Proof.Machine.execWsqry f s
  | .cinv f => Sys2Proof.Machine.execCinv f s
  | .cwb f => Sys2Proof.Machine.execCwb f s
  | .zfill f => Sys2Proof.Machine.execZfill f s
  | .bar scope id fm => Sys2Proof.Machine.execBar scope id fm s
  | .bara scope id fm => Sys2Proof.Machine.execBara scope id fm s
  | .barw scope id fm => Sys2Proof.Machine.execBarw scope id fm s
  | .tarm f => Sys2Proof.Machine.execTarm f s
  | .twait ph phw tile fm => Sys2Proof.Machine.execTwait ph phw tile fm s
  | .tcopy f rel => Sys2Proof.Machine.execTcopy f rel s
  | .tdone tile fm => Sys2Proof.Machine.execTdone tile fm s
  | .qfence qmask fm => Sys2Proof.Machine.execQfence qmask fm s
  | .tidset f => Sys2Proof.Machine.execTidset f s
  | .tidget f => Sys2Proof.Machine.execTidget f s
  | .xltld f => Sys2Proof.Machine.execXltld f s
  | .tstat f kd => Sys2Proof.Machine.execTstat f kd s
  | .qwait n q fm => Sys2Proof.Machine.execQwait n q fm s
  | .tcopyg f rel => Sys2Proof.Machine.execTcopyg f rel s
  | .coll f => Sys2Proof.Machine.execColl f s
  | .collw f => Sys2Proof.Machine.execCollw f s
  | .oclaim f kd pd => Sys2Proof.Machine.execOclaim f kd pd s
  | .orel f => Sys2Proof.Machine.execOrel f s
  | .mma f => Sys2Proof.Machine.execMma f s
  | .mmas f => Sys2Proof.Machine.execMmas f s
  | .accz atl fm => Sys2Proof.Machine.execAccz atl fm s
  | .accld f => Sys2Proof.Machine.execAccld f s
  | .accst f => Sys2Proof.Machine.execAccst f s
  | .mwait fm => Sys2Proof.Machine.execMwait fm s
  | .spcomp f fmt => Sys2Proof.Machine.execSpcomp f fmt s
  | .cbset f => Sys2Proof.Machine.execCbset f s
  | .mstat f => Sys2Proof.Machine.execMstat f s
  | .mscl f count stag => Sys2Proof.Machine.execMscl f count stag s
  | .acccvt f src fmt => Sys2Proof.Machine.execAcccvt f src fmt s
  | .oqry f => Sys2Proof.Machine.execOqry f s
  | .vins f => Sys2Proof.Machine.execVins f s
  | .vdel f => Sys2Proof.Machine.execVdel f s
  | .vget f => Sys2Proof.Machine.execVget f s
  | .vset f => Sys2Proof.Machine.execVset f s
  | .deg f => Sys2Proof.Machine.execDeg f s
  | .eins f => Sys2Proof.Machine.execEins f s
  | .edel f => Sys2Proof.Machine.execEdel f s
  | .eget f => Sys2Proof.Machine.execEget f s
  | .epget f => Sys2Proof.Machine.execEpget f s
  | .epset f => Sys2Proof.Machine.execEpset f s
  | .efind f => Sys2Proof.Machine.execEfind f s
  | .copen f => Sys2Proof.Machine.execCopen f s
  | .cnext f => Sys2Proof.Machine.execCnext f s
  | .cpeek f => Sys2Proof.Machine.execCpeek f s
  | .cclose f => Sys2Proof.Machine.execCclose f s
  | .csave f => Sys2Proof.Machine.execCsave f s
  | .crest f => Sys2Proof.Machine.execCrest f s
  | .sinter f => Sys2Proof.Machine.execSinter f s
  | .sdiff f => Sys2Proof.Machine.execSdiff f s
  | .ghome f => Sys2Proof.Machine.execGhome f s
  | .vatom f => Sys2Proof.Machine.execVatom f s
  | .gstat f => Sys2Proof.Machine.execGstat f s
  | .crank f => Sys2Proof.Machine.execCrank f s
  | .carry vb vn ub un fm => Sys2Proof.Machine.execCarry vb vn ub un fm s
  | .go f vtx fall pd => Sys2Proof.Machine.execGo f vtx fall pd s
  | .home fm => Sys2Proof.Machine.execHome fm s
  | .whereAt f => Sys2Proof.Machine.execWhereAt f s
  | .csrr csr d fm => Sys2Proof.Machine.execCsrr csr d fm s
  | .csrw sk csr src fm => Sys2Proof.Machine.execCsrw sk csr src fm s
  | .sysc f => Sys2Proof.Machine.execSysc f s
  | .tlbi f => Sys2Proof.Machine.execTlbi f s
  | .detchk req pd fm => Sys2Proof.Machine.execDetchk req pd fm s
  | .frec f => Sys2Proof.Machine.execFrec f s
  | .space f => Sys2Proof.Machine.execSpace f s
  | .bindRecordWrite core slot r => Sys2Proof.Machine.execBindRecordWrite core slot r s
  | .coreReload core => Sys2Proof.Machine.execCoreReload core s
  | .workgroupRetire wg => Sys2Proof.Machine.execWorkgroupRetire wg s
  | .loadDataArrival wg tidxs => Sys2Proof.Machine.execLoadDataArrival wg tidxs s
  | .binAgeDraw core bin => Sys2Proof.Machine.execBinAgeDraw core bin s
  | .groupOverdue group => Sys2Proof.Machine.execGroupOverdue group s
  | .grantStall core => Sys2Proof.Machine.execGrantStall core s
  | .roleGrowGrant core => Sys2Proof.Machine.execRoleGrowGrant core s
  | .oclaimGrant core => Sys2Proof.Machine.execOclaimGrant core s
  | .yieldHoldEnd wg tidx => Sys2Proof.Machine.execYieldHoldEnd wg tidx s
  | .faultRecordPost ctx => Sys2Proof.Machine.execFaultRecordPost ctx s
  | .copyStart core q => Sys2Proof.Machine.execCopyStart core q s
  | .copyComplete core q => Sys2Proof.Machine.execCopyComplete core q s
  | .mmaStart core => Sys2Proof.Machine.execMmaStart core s
  | .mmaComplete core => Sys2Proof.Machine.execMmaComplete core s
  | .mqOpComplete core => Sys2Proof.Machine.execMqOpComplete core s
  | .collectiveComplete id => Sys2Proof.Machine.execCollectiveComplete id s
  | .graphStreamStep core op => Sys2Proof.Machine.execGraphStreamStep core op s
  | .graphOpPerform wg tidx => Sys2Proof.Machine.execGraphOpPerform wg tidx s
  | .guestPlacement wg tidx core => Sys2Proof.Machine.execGuestPlacement wg tidx core s
  | .homeArrival wg tidx => Sys2Proof.Machine.execHomeArrival wg tidx s
  | .guestExitNotify wg tidx => Sys2Proof.Machine.execGuestExitNotify wg tidx s
  | .guestRecall wg tidx => Sys2Proof.Machine.execGuestRecall wg tidx s
  | .slotWaitExpiry wg tidx => Sys2Proof.Machine.execSlotWaitExpiry wg tidx s
  | .topiaryWrite w pa data => Sys2Proof.Machine.execTopiaryWrite w pa data s
  | .balloonPost vf => Sys2Proof.Machine.execBalloonPost vf s
  | .heldWriteExpiry id => Sys2Proof.Machine.execHeldWriteExpiry id s
  | .quantumExpiry ctx => Sys2Proof.Machine.execQuantumExpiry ctx s
  | .drainBudgetExpiry ctx => Sys2Proof.Machine.execDrainBudgetExpiry ctx s
  | .workgroupFreeze wg => Sys2Proof.Machine.execWorkgroupFreeze wg s
  | .workgroupSave wg => Sys2Proof.Machine.execWorkgroupSave wg s
  | .escalationDeadline ctx => Sys2Proof.Machine.execEscalationDeadline ctx s
  | .workgroupRestore wg core slot r => Sys2Proof.Machine.execWorkgroupRestore wg core slot r s
  | .tail vf val => Sys2Proof.Machine.execTail vf val s
  | .launch vf => Sys2Proof.Machine.execLaunch vf s
  | .copy vf => Sys2Proof.Machine.execCopy vf s
  | .wait vf => Sys2Proof.Machine.execWait vf s
  | .eventWaitComplete vf idx => Sys2Proof.Machine.execEventWaitComplete vf idx s
  | .signal vf => Sys2Proof.Machine.execSignal vf s
  | .checkpoint vf => Sys2Proof.Machine.execCheckpoint vf s
  | .replyResume vf c seq => Sys2Proof.Machine.execReplyResume vf c seq s
  | .replyAbort vf c seq code => Sys2Proof.Machine.execReplyAbort vf c seq code s
  | .grantGranules vf die count => Sys2Proof.Machine.execGrantGranules vf die count s
  | .grantReturn vf die count => Sys2Proof.Machine.execGrantReturn vf die count s
  | .ctxclr vf mask => Sys2Proof.Machine.execCtxclr vf mask s
  | .qctlClrq vf => Sys2Proof.Machine.execQctlClrq vf s
  | .rplend vf val => Sys2Proof.Machine.execRplend vf val s
  | .dbgsel vf val => Sys2Proof.Machine.execDbgsel vf val s
  | .dbgsstep vf val => Sys2Proof.Machine.execDbgsstep vf val s
  | .dbgwin vf off val => Sys2Proof.Machine.execDbgwin vf off val s
  | .hedgeRecordWrite vf r => Sys2Proof.Machine.execHedgeRecordWrite vf r s
  | .frameBack vf cmp => Sys2Proof.Machine.execFrameBack vf cmp s
  | .frameRelease vf => Sys2Proof.Machine.execFrameRelease vf s
  | .registerWrite fn off val => Sys2Proof.Machine.execRegisterWrite fn off val s
  | .hostRead vf pa len => Sys2Proof.Machine.execHostRead vf pa len s
  | .hostWrite vf pa data => Sys2Proof.Machine.execHostWrite vf pa data s
  | .atsInvalidation vf p => Sys2Proof.Machine.execAtsInvalidation vf p s
  | .ucieModuleDown m => Sys2Proof.Machine.execUcieModuleDown m s
  | .ideIntegrityFailure m => Sys2Proof.Machine.execIdeIntegrityFailure m s
  | .ideKm m key => Sys2Proof.Machine.execIdeKm m key s
  | .flitCrcFail port => Sys2Proof.Machine.execFlitCrcFail port s
  | .sensorSample vals eols => Sys2Proof.Machine.execSensorSample vals eols s
  | .fwcmd val => Sys2Proof.Machine.execFwcmd val s
  | .fwVerifyDone ecdsa lms => Sys2Proof.Machine.execFwVerifyDone ecdsa lms s
  | .reservedOpcode w => Sys2Proof.Machine.execReservedOpcode w s
  | .dieLinkDown link => Sys2Proof.Machine.execDieLinkDown link s
  | .nop => Sys2Proof.Machine.execNop s
  | .eret => Sys2Proof.Machine.execEret s
  | .deviceReset => Sys2Proof.Machine.execDeviceReset s
  | .frameCommandDone => Sys2Proof.Machine.execFrameCommandDone s
  | .entriesDropped => Sys2Proof.Machine.execEntriesDropped s
  | .gRead => Sys2Proof.Machine.execGRead s
  | .gWrite => Sys2Proof.Machine.execGWrite s
  | .gAtomic => Sys2Proof.Machine.execGAtomic s
  | .gCell => Sys2Proof.Machine.execGCell s
  | .gGraphop => Sys2Proof.Machine.execGGraphop s
  | .gFlush => Sys2Proof.Machine.execGFlush s
  | .gData => Sys2Proof.Machine.execGData s
  | .gAck => Sys2Proof.Machine.execGAck s
  | .gNeg => Sys2Proof.Machine.execGNeg s
  | .gGraphres => Sys2Proof.Machine.execGGraphres s
  | .gSlotreq => Sys2Proof.Machine.execGSlotreq s
  | .gSlotgnt => Sys2Proof.Machine.execGSlotgnt s
  | .gSlotbsy => Sys2Proof.Machine.execGSlotbsy s
  | .gCont => Sys2Proof.Machine.execGCont s
  | .gRecall => Sys2Proof.Machine.execGRecall s
  | .gElem => Sys2Proof.Machine.execGElem s
  | .gCells => Sys2Proof.Machine.execGCells s
  | .gCodebook => Sys2Proof.Machine.execGCodebook s
  | .gDone => Sys2Proof.Machine.execGDone s
  | .malformedGnoipFlit => Sys2Proof.Machine.execMalformedGnoipFlit s

end Sys2Proof.Machine
end

