-- ==== Sys2Proof/Machine/Issue.lean ====
section
/-! DEFINITION. What comes next: waits that have ended, the choice of an issue group (R45, R46), the issue of its
instruction (R40, R66, R90, R195, R395), and the choice among the device's own events. The orders that the manual leaves
to the part are entry 9's. -/

namespace Sys2Proof.Machine

/-! ## Waits that have ended -/

/-- Is a workgroup held back: frozen (R320), or stopped by the debugger (R327)? -/
def State.stopped (s : State) (w : Workgroup) : Bool := w.frozen || s.frzHeld w

/-- A thread waits for a tile that is there: it goes on, or takes the fault that ERR records (R242, R260). -/
def State.endTileWait (s : State) (w : Workgroup) (t : Thread) (n : Nat) (next : Dword) : State :=
  match s.tileErr w [n] with
  | some r => s.raise (s.coreOf t) s.pkg t.insn [t.key] r
  | none => s.wake t next

/-- Has a held write gone, or is it given up? -/
def State.heldGone (s : State) (id : Nat) : Bool := !s.held.any (fun h => h.id == id && !h.expired)

/-- End the wait of a thread whose condition holds (R49, R241, R252, R260, R284, R366). -/
def State.endWait (s : State) (k : Key) : State :=
  match s.thread k, s.wg k.wg with
  | some t, some w =>
    if s.stopped w then s
    else match t.status with
      | .blocked (.tile n ph next) =>
        if (w.tile n).any (fun e => e.waitHolds ph) then s.endTileWait w t n next else s
      | .blocked (.gate g) => if s.gateHolds w g then s.formGroup (s.coreOf t) [k] else s
      | .blocked (.queue q n next) =>
        if (s.opsOn w.id (fun x => x == q)).length ≤ n then s.wake t next else s
      | .blocked (.ops ids next) => if s.ops.any (fun o => ids.contains o.id) then s else s.wake t next
      | .data (.slot die) =>
        if (s.freeGuestCores (vfOfCtx w.ctxn) die).isEmpty then s else s.formGroup (s.coreOf t) [k]
      | _ => s
  | _, _ => s

/-- Has the wait of a group at its instruction ended: for a held write (R395), for the data of a KLD (R61), or for the accesses
before a TLBI (R315)? -/
def State.waitOver (s : State) : DataWait → Option Nat
  | .held id g => if s.heldGone id then some g else none
  | .kdata slice k g => if s.kloads.any (fun x => x.slice == slice && x.k == k) then none else some g
  | .flight ids tags g =>
    if s.ops.any (fun o => ids.contains o.id) || s.held.any (fun h => ids.contains h.id && !h.expired)
        || s.txns.any (fun x => tags.contains x.tag) then none else some g
  | _ => none

/-- Whatever needs no event of its own: waits that hold, barriers and teams, draws under rule 3 of R44, and what waited
behind a held write or a response. -/
def State.settle (s : State) : State :=
  let s := s.settleFlushes
  let s := (State.flushHost s.hostq.length s).settleGraphq
  let s := (s.regroup (s.waitGroups s.waitOver)).settleJoins.settleGangs
  ((s.threads.map (·.key)).foldl State.endWait s).settleArrivals.drawQuiet

/-! ## The choice of a group -/

/-- Priority class of a group (R48): the highest is 0, and the hedge's ceiling bounds it. -/
def State.clsOf (s : State) (g : Group) : Nat :=
  match g.threads.head?.bind (fun k => s.wg k.wg) with
  | some w =>
    max (((w.kernel.roles[w.role]?).map (·.cls)).getD 0) (s.vf (vfOfCtx w.ctxn)).hedge.pceil.toNat
  | none => 0

/-- Sequence number of a group's workgroup (R35). -/
def State.seqOf (s : State) (g : Group) : Nat := ((g.threads.head?.bind (fun k => s.wg k.wg)).map (·.seq)).getD 0

/-- May a group issue? -/
def State.eligible (s : State) (g : Group) : Bool :=
  match g.threads.head?.bind (fun k => s.wg k.wg) with
  | some w => !s.stopped w && !(s.ctx w.ctxn).clearing
  | none => false

/-- The class that issues on a core and the core's new count (R46): at every sixteenth issue that finds more than one
class, the lower ones in rotation. -/
def floorClass (c : Core) (cls : List Nat) : Nat × Core :=
  let top := cls.foldl min (cls.headD 0)
  let low := cls.filter (top < ·)
  if low.isEmpty then (top, { c with floor := 0 })
  else if c.floor < 15 then (top, { c with floor := c.floor + 1 })
  else
    let after := low.filter (c.floorCls < ·)
    let l := if after.isEmpty then low else after
    let k := l.foldl min (l.headD 0)
    (k, { c with floor := 0, floorCls := k })

/-- The first of the oldest workgroup. -/
def State.oldestOf (s : State) (gs : List Group) : Option Group :=
  gs.foldl (fun a g => match a with
    | none => some g
    | some x => if s.seqOf g < s.seqOf x then some g else some x) none

/-- The core whose turn it is, after the one that issued last. -/
def nextCore (last : Nat) (cs : List Nat) : Nat :=
  let after := cs.filter (last < ·)
  let l := if after.isEmpty then cs else after
  l.foldl min (l.headD 0)

/-- Is a group an access slice (R59)? -/
def Group.isSlice (g : Group) : Bool := g.threads.any Key.isSlice

/-- The group that an issue port takes (R45), and the core's count. -/
def State.pickPort (s : State) (c : Core) (gs : List Group) : Option (Group × Core) :=
  if gs.isEmpty then none
  else
    let f := floorClass c (gs.map s.clsOf)
    let cls := gs.filter (fun g => s.clsOf g == f.1)
    match cls.find? (·.overdue) with
    | some g => some (g, { f.2 with portLast := true })
    | none => (s.oldestOf cls).map (fun g => (g, { f.2 with portLast := true }))

/-- The slice that the affine address engine takes: round robin among those that are ready (R59). -/
def pickSlice (c : Core) (gs : List Group) : Option (Group × Core) :=
  let wgOf (g : Group) : Nat := (g.threads.head?.map (·.wg)).getD 0
  let n := nextCore c.sliceLast (gs.map wgOf)
  (gs.find? (fun g => wgOf g == n)).map (fun g => (g, { c with sliceLast := n, portLast := false }))

/-- The group that issues next, and the core's new state. The issue ports and the affine address engine of a core act
independently of one another (R59); here they take turns where both have work. -/
def State.pick (s : State) : Option (Group × Core) :=
  let gs := s.groups.filter s.eligible
  if gs.isEmpty then none
  else
    let core := nextCore s.cur.core (gs.map (·.core))
    let mine := gs.filter (fun g => g.core == core)
    let c := s.core core
    let port := s.pickPort c (mine.filter (fun g => !g.isSlice))
    let slice := pickSlice c (mine.filter Group.isSlice)
    if c.portLast then slice.or port else port.or slice

/-! ## The issue of an instruction -/

/-- A group leaves the ready groups and is the one at execution. -/
def State.takeGroup (s : State) (g : Group) (c : Core) : State :=
  { s.setCore c with
    groups := s.groups.filter (fun x => x.id != g.id)
    cur := { id := g.id, core := g.core, pkg := s.pkg, keys := g.threads, insn := 0 } }

/-- Word 0 of the instruction at execution. -/
def State.withInsn (s : State) (w : Word) : State := { s with cur := { s.cur with insn := w } }

/-- An instruction word lies on another package: it is asked for (R425, R431), and the group waits. -/
def State.askWord (s : State) (w : Workgroup) (k : Key) (place : Nat) : State :=
  if !s.portsFrom (dieOf s.cur.core) then s.raiseAll { code := 0x0C, space := 2 }
  else
    let r := s.request (place / 2 ^ 52) (vfOfCtx w.ctxn) (dieOf s.cur.core) (.read (BitVec.ofNat 64 (place % 2 ^ 52)) 4 0)
      (.fetch k place)
    { r.1 with threads := r.1.threads.map (fun t =>
        if r.1.cur.keys.contains t.key then { t with status := .data (.fetch r.2) } else t) }

/-- The instruction that the checks at a thread's points look at: a PFX pair as the instruction that it executes. -/
def pointInstr (i : Instr) : Instr :=
  match i with
  | .pfx p w lit => (prefixedInstr p w lit).getD i
  | i => i

/-- Late faults of a group at an instruction: each of its threads that has one with its fault. -/
def State.lateFaults (s : State) (q : Thread → Late → Bool) : List (Key × Late) :=
  s.cur.keys.filterMap (fun k => (s.thread k).bind (fun t => (lateAt q t).map (fun l => (k, l))))

/-- Take late faults: one record for each thread, or one for the threads of a k destination (R195, R301, R395). -/
def State.takeLate : Nat → State → List (Key × Late) → State
  | 0, s, _ => s
  | _, s, [] => s
  | fuel + 1, s, (k, l) :: r =>
    let same := if l.kd.isSome then r.filter (fun x => x.2 == l) else []
    let keys := k :: same.map (·.1)
    let s := keys.foldl (fun s k => match s.thread k with
      | some t => s.setThread { t with late := t.late.erase l }
      | none => s) s
    let s := s.raise s.cur.core s.cur.pkg s.cur.insn keys l.fault
    State.takeLate fuel s (r.filter (fun x => !(l.kd.isSome && x.2 == l)))

/-- Every thread of the group waits: nothing splits a group here (R40). -/
def State.groupWaits (s : State) (st : DataWait) : State :=
  { s with threads := s.threads.map (fun t =>
      if s.cur.keys.contains t.key then { t with status := .data st, insn := s.cur.insn } else t) }

/-- The group waits where one of its threads waits at this instruction for a held write of its own (R395). -/
def State.takeHeld (s : State) (q : Thread → Late → Bool) : State :=
  match s.cur.keys.findSome? (fun k => (s.thread k).bind (s.heldAt q)) with
  | some id => s.groupWaits (.held id s.cur.id)
  | none => s

/-- The group waits at an instruction that reads or writes the k register of a KLD whose data has not come (R61). -/
def State.takeKdata (s : State) (w : Workgroup) (slice : Bool) (i : Instr) : State :=
  match s.kpending w.id slice i with
  | some x => s.groupWaits (.kdata slice x.k s.cur.id)
  | none => s

/-- The first register with failed parity of those that a thread reads, as a number (entry 22). -/
def State.badRegister (s : State) (i : Instr) (t : Thread) : Nat :=
  match (i.uses.reads.flatMap (fun r => regPlaces r t) ++ (predReads i).map (fun p => Ecc.pred t.key p.toNat)).find? s.ecc.contains with
  | some (.vreg _ n) => n
  | some (.pred _ n) => 128 + n
  | some (.kreg _ _ n) => 256 + n
  | _ => 0

/-- The threads of the group that read a register whose parity has failed, in ascending TIDX. -/
def State.parityKeys (s : State) (w : Workgroup) (i : Instr) : List Key :=
  s.cur.keys.filter (fun k => (s.thread k).any (s.parityFault w i))

/-- Threads that read a register whose parity has failed take no part in the instruction: the error is logged, and their faults
stand with those of the others of the group (R301, R443). -/
def State.takeParity (s : State) (w : Workgroup) (i : Instr) : State :=
  let bad := s.parityKeys w i
  if bad.isEmpty then s
  else
    let s := bad.foldl (fun s k => match s.thread k with
      | some t => (s.logEcc .regs (dieOf s.cur.core) (vfOfCtx w.ctxn) (s.badRegister i t)).putOff t (trapOf 0x0C)
      | none => s) s
    let good := s.cur.keys.filter (fun k => !bad.contains k)
    if good.isEmpty then s.meetUp [] bad
    else
      let x := s.leaveJoin
      x.1.joinLater (good ++ x.2.waiting.filter (fun k => !s.cur.keys.contains k)) x.2.mates (x.2.faulty ++ bad)

/-- The threads of the group that execute: those that are still ready. -/
def State.stillReady (s : State) : List Key :=
  s.cur.keys.filter (fun k => (s.thread k).any (fun t => t.status == .ready))

/-- Only the threads that are still ready execute. -/
def State.keepReady (s : State) : State := { s with cur := { s.cur with keys := s.stillReady } }

/-- What comes once word 0 has been fetched (R453): late faults, then waits for held writes. A late fault that takes a thread home
waits for its held writes first (R236, R375). -/
def State.atPoint (s : State) (q : Thread → Late → Bool) : State :=
  let s := (s.takeHeld (fun t l => goesForFault t l && t.late.any (fun x => x.fault.code == 0x0C && q t x))).keepReady
  let l := s.lateFaults q
  ((State.takeLate l.length s l).keepReady.takeHeld q).keepReady

/-- How far the stores of a thread get before an instruction (R226, R234, R236, R314, R315): 1 to the order of its core, 2
to every agent, 3 to the order of its core, and to every agent as far as a release at DIE scope or wider covers them. -/
def storesGo (t : Thread) (i : Instr) : Nat :=
  match i with
  | .bar sc _ _ | .bara sc _ _ | .barw sc _ _ => if sc.toNat ≤ 1 then 1 else 2
  | .tcopy _ rel | .tcopyg _ rel => if rel.toNat ≤ 1 then 3 else 2
  | .sysc _ | .tlbi _ | .go .. | .home _ => 2
  | .tsync _ | .exit _ | .csave _ | .crest _ | .sinter _ | .sdiff _ => 1
  | i =>
    if t.goesHome i.opc then 2
    else if (i.opc.map (fun o => decide (0x73 ≤ o.code && o.code ≤ 0x8D))).getD false then 3 else 0

/-- The stores of the group's guard-true threads go on before an instruction that orders them. -/
def State.orderStores (s : State) (i : Instr) : State :=
  if s.queue.isEmpty then s
  else s.cur.keys.foldl (fun s k => match s.thread k with
    | some t =>
      if !t.guard i.form then s
      else match storesGo t i with
        | 0 => s
        | 1 => s.drainQueue k
        | 2 => s.release s.cur.core k
        | _ => s.meetEngine s.cur.core k
    | none => s) s

/-- What comes right before the instruction executes: a wait for a k register, parity, the order of stores. -/
def State.beforeExec (s : State) (w : Workgroup) (slice : Bool) (i : Instr) : State :=
  let s := (s.takeKdata w slice i).keepReady
  let s := (s.takeHeld (fun t l => goesForFault t l && s.parityFault w i t)).keepReady
  (s.takeParity w i).keepReady.orderStores i

/-- The registers that the instruction wrote hold good parity. -/
def State.afterParity (s : State) (i : Instr) (ts : List Thread) : State :=
  ts.foldl (fun s t => s.parityEnd i t) s

/-- After an instruction, what it wrote. -/
def afterExec (i : Instr) (ts : List Thread) : Out1 → Out1
  | .next s => .next (s.afterParity i ts)
  | .fault f => .fault f
  | .refused r => .refused r

/-- Execute a decoded instruction for the group. -/
def State.runInstr (s : State) (w : Workgroup) (slice : Bool) (i : Instr) : Out1 :=
  let s := s.beforeExec w slice (pointInstr i)
  if s.cur.keys.isEmpty then .next s
  else if s.ecc.isEmpty then exec i s
  else afterExec (pointInstr i) (s.cur.keys.filterMap s.thread) (exec i s)

/-- Is this a form that a slice may use: TSTAT and OCLAIM need KD = 1 there (R256, R280)? -/
def sliceForm : Instr → Bool
  | .tstat _ kd => kd
  | .oclaim _ kd _ => kd
  | _ => true

/-- May a slice execute an instruction (R58)? -/
def sliceOk (i : Instr) : Bool := (i.opc.map Opc.onSlice).getD false && sliceForm i

/-- What the words of an instruction are: an instruction for the group, or none (R90 steps 3 to 6). -/
def readWords (slice : Bool) (ws : List Word) : Option Instr :=
  match decode ws with
  | .error _ => none
  | .ok i => if slice && !sliceOk i then none else some i

/-- Is a fetch that does not give its word a fault for which an away thread goes home (R375)? -/
def FetchStop.traps : FetchStop → Bool
  | .fault r => !r.resolvable
  | .bad _ _ => true
  | .ask _ => false

/-- The points of a thread at words that have been fetched, as far as they have (R453). -/
def pointsOf (w : Workgroup) (slice : Bool) (w0 : Word) : Except (FetchStop × Word) (List Word) → Thread → Late → Bool
  | .ok ws => match readWords slice ws with
    | some i => isPoint w (pointInstr i)
    | none => fun t l => isPointWord w0 t l || goesForFault t l
  | .error e => fun t l => isPointWord w0 t l || (e.1.traps && goesForFault t l)

/-- Run the words of the group's instruction. -/
def State.runWords (s : State) (w : Workgroup) (slice : Bool) (ws : List Word) : Out1 :=
  match readWords slice ws with
  | none => .next (s.raiseAll (trapOf 0x06))
  | some i => s.runInstr w slice i

/-- Words read from other packages serve one fetch (R68). -/
def State.dropFetched (s : State) : State := { s with fetched := [] }

/-- A fetch does not give its word: the group's threads fault, or the word is asked for. -/
def State.fetchStop (s : State) (w : Workgroup) (k : Key) : FetchStop → State
  | .fault r => s.raiseAll r
  | .bad r pa => (match pa with | some pa => s.logBad (vfOfCtx w.ctxn) pa | none => s).raiseAll r
  | .ask place => s.askWord w k place

/-- The group's instruction once word 0 has been fetched (R453): points, then the other words, then it runs. -/
def State.issueWord (s : State) (w : Workgroup) (t : Thread) (w0 : Word) : Out1 :=
  let slice := t.key.isSlice
  let r := s.fetchRest w (atCore s.cur.core) t.pc slice w0
  let s := s.atPoint (pointsOf w slice w0 r)
  if s.cur.keys.isEmpty then .next s
  else match r with
    | .error (e, x) => .next ((s.withInsn x).fetchStop w t.key e)
    | .ok ws => (s.dropFetched.withInsn (insnWord ws)).runWords w slice ws

/-- Fetch, decode and execute the instruction of a group. -/
def State.issue (s : State) (g : Group) (c : Core) : Out1 :=
  let s := s.takeGroup g c
  match g.threads.head?.bind s.thread, g.threads.head?.bind (fun k => s.wg k.wg) with
  | some t, some w =>
    (match s.fetchWord w (atCore g.core) t.pc 0 with
     | .error e =>
       let s := (s.takeHeld (fun t l => e.traps && goesForFault t l)).keepReady
       .next (if s.cur.keys.isEmpty then s else s.fetchStop w t.key e)
     | .ok w0 => (s.withInsn w0).issueWord w t w0)
  | _, _ => .next s

/-! ## Inputs -/

/-- The state in which an input acts: it has left the agenda, its flit has arrived, and no group is at execution. -/
def State.withInput (s : State) (e : Event) (rest : List Event) : State :=
  { s with agenda := rest, rx := e.flit, cur := { s.cur with keys := [], insn := 0 } }

/-! ## The device's own events -/

/-- The state that an event leads to. -/
def State.take (s : State) (i : Instr) : State :=
  match exec i { s with cur := { s.cur with keys := [], insn := 0 } } with
  | .next s' => s'
  | _ => s

/-- Events of one thread. -/
def threadEvents (s : State) (t : Thread) : List Instr :=
  let back : List Instr := match s.wg t.wg with
    | some w =>
      if t.away.isSome && (if w.foreign.isNone then (s.ctx w.ctxn).shutter != .opened else t.recalled) then [.guestRecall t.wg t.tidx]
      else []
    | none => []
  back ++ (match t.status with
    | .data .load => [.loadDataArrival t.wg [t.tidx]]
    | .data (.graph ..) => [.graphOpPerform t.wg t.tidx]
    | .blocked (.yield _) => [.yieldHoldEnd t.wg t.tidx]
    | .transit _ c _ => [.homeArrival t.wg t.tidx, .guestPlacement t.wg t.tidx c]
    | .exiting => [.guestExitNotify t.wg t.tidx]
    | _ => [])

/-- Events of one core. -/
def coreEvents (s : State) (c : Core) : List Instr :=
  let n := c.no
  [.coreReload n, .copyStart n 0, .copyStart n 1, .copyStart n 2, .copyStart n 3, .copyComplete n 0, .copyComplete n 1,
   .copyComplete n 2, .copyComplete n 3, .copyComplete n 6, .mmaStart n, .mmaComplete n, .mqOpComplete n, .roleGrowGrant n,
   .oclaimGrant n] ++ (s.streamsNow n).map (fun o => .graphStreamStep n o.id)

/-- Events of one workgroup. -/
def wgEvents (w : Workgroup) : List Instr := [.workgroupRetire w.id, .workgroupFreeze w.id, .workgroupSave w.id]

/-- Events of one virtual function. -/
def vfEvents (v : Vf) : List Instr :=
  [.launch v.no, .copy v.no, .wait v.no, .signal v.no, .checkpoint v.no, .ctxclr v.no 0, .balloonPost v.no]
    ++ (v.cmds.filter (fun c => c.kind == 3)).map (fun c => .eventWaitComplete v.no c.id)
    ++ (if v.rpl then [.rplend v.no v.rplend] else [])

/-- Bins and groups whose age has passed, as the count of identifiers tells it (R44 rule 2, R45). -/
def agedEvents (s : State) : List Instr :=
  (s.bins.filter (fun b =>
    let age := ((s.wg b.wg).map (·.kernel.age)).getD 0
    let tagged := b.tag != 0 && s.threads.any (fun t => t.wg == b.wg && t.tag == b.tag && t.status != .filed)
    (if tagged then 4 * age else age) ≤ s.fresh - b.id)).map (fun b => .binAgeDraw b.core b.id)
  ++ (s.groups.filter (fun g => !g.overdue && 2048 ≤ s.fresh - g.id)).map (fun g => .groupOverdue g.id)

/-- Events that may come now. -/
def State.candidates (s : State) : List Instr :=
  agedEvents s ++ s.threads.flatMap (threadEvents s) ++ s.cores.flatMap (coreEvents s) ++ s.wgs.flatMap wgEvents
    ++ s.colls.map (fun c => .collectiveComplete c.id) ++ s.ctxs.map (fun c => .faultRecordPost c.ctxn)
    ++ s.vfs.flatMap vfEvents ++ [.frameCommandDone, .entriesDropped]

/-- Events that come when nothing else does: time has passed. -/
def State.lateCandidates (s : State) : List Instr :=
  s.bins.map (fun b => .binAgeDraw b.core b.id) ++ s.cores.map (fun c => .grantStall c.no)
    ++ s.threads.map (fun t => .slotWaitExpiry t.wg t.tidx) ++ s.held.map (fun h => .heldWriteExpiry h.id)

/-- Does an event do anything? The counters of free values and of identifiers do not count. -/
def State.does (s : State) (i : Instr) : Bool :=
  let s' := s.take i
  ({ s' with freeN := s.freeN, fresh := s.fresh, cur := s.cur } : State) != s

/-- The list from a place on, then its beginning. -/
def rotate {α : Type} (n : Nat) (l : List α) : List α := l.drop (n % max l.length 1) ++ l.take (n % max l.length 1)

/-- The next event of the device, if any does something. -/
def State.dueEvent (s : State) : Option Instr := (rotate s.nextDue s.candidates).find? s.does

/-- The state after an event of the device. -/
def State.internal (s : State) (i : Instr) : State :=
  { s.take i with turn := false, nextDue := s.nextDue + 1 }

/-- One step without an input: an event of the device and an issue take turns; where neither is to come, time passes, and
in the end every store is performed. At the device's turn, what the part does of itself may happen too (entries 3, 14, 68). -/
def State.advanceOn (s : State) : Out1 :=
  let s := if s.turn then s.unseen.corrected else s
  match (if s.turn then s.dueEvent else none), s.pick with
  | some e, _ => .next (s.internal e)
  | none, some (g, c) => State.issue { s with turn := true } g c
  | none, none =>
    match (match s.dueEvent with | some e => some e | none => s.lateCandidates.find? s.does) with
    | some e => .next (s.internal e)
    | none => .next { s.flushAll with turn := false }

end Sys2Proof.Machine
end

