-- ==== Sys2Proof/Machine/Step.lean ====
section
/-! DEFINITION. One step of the package: the first of the inputs that wait, or else what the package does next of
itself. -/

namespace Sys2Proof.Machine

/-- One step. -/
def step (s : State) : Host.Outcome State Fault Refusal :=
  match s.agenda with
  | e :: rest => exec e.op (s.withInput e rest)
  | [] => s.settle.advanceOn

/-- The machine with one instruction placed where the next step fetches. -/
def State.withFetchWord (s : State) (nbits w : Nat) : State := s.placeInsn nbits w

end Sys2Proof.Machine
end

