-- ==== Sys2Proof/Safety.lean ====
section
/-! DEFINITION. What counts as a safe run: the package never stops, and its memories keep their one canonical form.
And the terms in which claims speak of the issue of an instruction. -/

namespace Sys2Proof

open Machine

/-- Two states that differ at most in their threads, their ready groups and the count of identifiers. -/
def Machine.State.sameBut (s s' : State) : Prop :=
  ({ s' with threads := s.threads, groups := s.groups, fresh := s.fresh } : State) = s

/-- An instruction can do its own effect for the group at execution: its threads are distinct and live, none of their group waits
elsewhere with them (R40), the debugger does not step them, and each whose guard is true passes decode step 8 (R90) and need not
go home first (R371). -/
structure Instr.Runs (i : Instr) (s : State) : Prop where
  nodup : s.cur.keys.Nodup
  joins : ∀ j ∈ s.joins, ∀ k ∈ s.cur.keys, k ∉ j.waiting
  live : ∀ k ∈ s.cur.keys, ∃ t w, s.thread k = some t ∧ s.wg k.wg = some w ∧ s.steps w = false
    ∧ (t.guard i.form = true →
        i.step8 w t = true ∧ (t.away = none ∨ (i.opc.map Opc.homeFirst).getD false = false))

/-- What becomes of a thread of the group: the effect of a guard-true one, or what GZ leaves of a guard-false one, with
the PC after the instruction (R65, R75). -/
def Instr.after (i : Instr) (eff : Workgroup → Thread → Thread) (w : Workgroup) (t : Thread) : Thread :=
  { (if t.guard i.form then eff w t else i.zeroDest w t) with pc := pcAfter t.pc i.words, status := .ready, took := false }

/-- Each thread of the group has become what `f` says, and nothing else has changed: no other thread, no workgroup, no
memory, no other state. The threads are ready again, and threads of one group share their PC (R40). -/
structure Went (f : Workgroup → Thread → Thread) (s s' : State) : Prop where
  group : ∀ k ∈ s.cur.keys, ∀ t w, s.thread k = some t → s.wg k.wg = some w → s'.thread k = some (f w t)
  others : ∀ k, k ∉ s.cur.keys → s'.thread k = s.thread k
  rest : s.sameBut s'
  ready : ∀ k ∈ s.cur.keys, ∃ g ∈ s'.groups, k ∈ g.threads ∧ g.core = s.cur.core
    ∧ ∀ j ∈ g.threads, (s'.thread j).map (·.pc) = (s'.thread k).map (·.pc)

/-- What becomes of a thread of the group at an instruction that sets the PC itself: a guard-false thread goes on at the
next instruction. -/
def Instr.turned (i : Instr) (go : Workgroup → Thread → Thread) (w : Workgroup) (t : Thread) : Thread :=
  if t.guard i.form then { go w t with status := .ready, took := false }
  else { i.zeroDest w t with pc := pcAfter t.pc i.words, status := .ready, took := false }

/-- An instruction has had one effect on each thread of the group, and none on anything else. -/
abbrev Instr.Did (i : Instr) (eff : Workgroup → Thread → Thread) (s s' : State) : Prop := Went (i.after eff) s s'

/-- The group at execution is one thread, guard-true, to which nothing stands in the way of the instruction. -/
structure Instr.Alone (i : Instr) (s : State) (t : Thread) (w : Workgroup) : Prop where
  keys : s.cur.keys = [t.key]
  joins : ∀ j ∈ s.joins, t.key ∉ j.waiting
  thread : s.thread t.key = some t
  wg : s.wg t.wg = some w
  steps : s.steps w = false
  guard : t.guard i.form = true
  step8 : i.step8 w t = true
  home : t.away = none ∨ (i.opc.map Opc.homeFirst).getD false = false

/-- Every memory of the package, its scratchpads among them, is in canonical form, and the metadata words of blocks too. -/
def Machine.State.memWf (s : State) : Bool :=
  s.mem.wf && s.gran.wf && metaWfFrom none s.bmeta && s.hostMem.wf && s.wst.wf && s.opmem.wf && s.accmem.wf
    && s.wgs.all (fun w => w.spad.wf) && s.saved.all (fun x => x.wg.spad.wf)

/-- A step that goes on to a state with this property. -/
def goesOn (p : State → Prop) : Host.Outcome State Fault Refusal → Prop
  | .next s => p s
  | _ => False

/-- The states of a safe run: `n` steps go on, and the memories stay canonical. -/
def safeFor : Nat → State → Prop
  | 0, s => s.memWf = true
  | n + 1, s => s.memWf = true ∧ goesOn (safeFor n) (step s)

end Sys2Proof
end

