-- ==== Sys2Proof/Certificates/Slice0/Obligations.lean ====
section
/-! DEFINITION. The statements for the provers. A statement about an instruction speaks of `exec`, so of every form of
the instruction, and of every group that can run it; what it says of the next state it says of the whole state. -/

namespace Sys2Proof.Certificates

open Sys2Proof Machine

/-! ## What instructions over a group give -/

/-- The instruction completes for every group that can run it, with this effect on each guard-true thread and no other
effect anywhere. -/
def Gives (i : Instr) (eff : Workgroup → Thread → Thread) : Prop :=
  ∀ s, i.Runs s → ∃ s', exec i s = .next s' ∧ i.Did eff s s'

/-- The same where each guard-true thread of the group meets a condition; the effect may read the state. -/
def GivesIf (i : Instr) (ok : State → Workgroup → Thread → Prop) (eff : State → Workgroup → Thread → Thread) : Prop :=
  ∀ s, i.Runs s →
    (∀ k ∈ s.cur.keys, ∀ t w, s.thread k = some t → s.wg k.wg = some w → t.guard i.form = true → ok s w t) →
    ∃ s', exec i s = .next s' ∧ i.Did (eff s) s s'

/-- The same for an instruction that sets the PC of each guard-true thread itself. -/
def Turns (i : Instr) (ok : Workgroup → Thread → Prop) (go : Workgroup → Thread → Thread) : Prop :=
  ∀ s, i.Runs s →
    (∀ k ∈ s.cur.keys, ∀ t w, s.thread k = some t → s.wg k.wg = some w → t.guard i.form = true → ok w t) →
    ∃ s', exec i s = .next s' ∧ Went (i.turned go) s s'

/-- A V3 instruction that writes one register with a function of its sources A and B, as R77 modifies them. -/
def Yields (i : Instr) (f : V3) (g : Word → Word → Word) : Prop :=
  Gives i (fun w t => t.setReg f.d.toNat (g (modInt f.fm.modA (f.srcA w t)) (modInt f.fm.modB (f.srcB w t))))

/-! ## Integers -/

/-- The INT32 value nearest to an exact one (R158, CLAMP 0x3). -/
def nearest32 (e : Int) : Word := BitVec.ofInt 32 (max (-2147483648) (min 2147483647 e))

/-- The field that BFE and BFI name: its place, and its length cut off at bit 31 (R163). -/
def fieldPos (b : Word) : Nat := (bits b 4 0).toNat
def fieldLen (b : Word) : Nat := min (bits b 13 8).toNat (32 - fieldPos b)

/-! ## Floating point -/

/-- The instruction rounds: in mode SR it takes the words of the thread's next block, and the thread's counter advances by
one (R128). -/
def Rounds (i : Instr) (g : Workgroup → Thread → (Nat → Word) → Thread) : Prop :=
  Gives i (fun w t =>
    if i.form.rm = 5#3 then
      let block := philox t.srctr0 t.srctr1 (BitVec.ofNat 32 t.tidx) w.lin t.srkey0 t.srkey1
      { g w t (fun n => block.getD n 0) with
        srctr0 := t.srctr0 + 1, srctr1 := if t.srctr0 = BitVec.allOnes 32 then t.srctr1 + 1 else t.srctr1 }
    else g w t (fun _ => 0))

/-- DSCL, then Round, then CLAMP (R77). -/
def rounded (fmt : Fmt) (f : Form) (r : Word) (e : Machine.Num) : Nat :=
  fmt.clampEncode f.clamp (fmt.round f.rm r (e.scale f.dscl))

/-- The exact value of a source in a format, ABS first and NEG after (R77). -/
def sourceIn {n : Nat} (fmt : Fmt) (m : Bool × Bool) (x : BitVec n) : Machine.Num :=
  let y := if m.1 = true then (fmt.decode x.toNat).abs else fmt.decode x.toNat
  if m.2 = true then y.neg else y

/-- A V3 instruction that rounds an exact FP32 result. -/
def RoundsFp32 (i : Instr) (f : V3) (e : Machine.Num → Machine.Num → Machine.Num → Machine.Num) : Prop :=
  Rounds i (fun w t r => t.setReg f.d.toNat (BitVec.ofNat 32 (rounded .fp32 f.fm (r 0)
    (e (sourceIn .fp32 f.fm.modA (f.srcA w t)) (sourceIn .fp32 f.fm.modB (f.srcB w t))
      (sourceIn .fp32 f.fm.modC (f.srcC w t))))))

/-- A packed instruction that rounds: element 0 draws word 0 of the block and element 1 word 1 (R152). -/
def RoundsPacked (i : Instr) (f : V3) (bf : Bool) (e : Machine.Num → Machine.Num → Machine.Num → Machine.Num) : Prop :=
  Rounds i (fun w t r =>
    let fmt := if bf = true then Fmt.bf16 else Fmt.fp16
    let lo := rounded fmt f.fm (r 0) (e (sourceIn fmt f.fm.modA (bits (f.srcA w t) 15 0))
      (sourceIn fmt f.fm.modB (bits (f.srcB w t) 15 0)) (sourceIn fmt f.fm.modC (bits (f.srcC w t) 15 0)))
    let hi := rounded fmt f.fm (r 1) (e (sourceIn fmt f.fm.modA (bits (f.srcA w t) 31 16))
      (sourceIn fmt f.fm.modB (bits (f.srcB w t) 31 16)) (sourceIn fmt f.fm.modC (bits (f.srcC w t) 31 16)))
    t.setReg f.d.toNat (BitVec.ofNat 32 (lo + 65536 * hi)))

/-- An FP64 instruction that rounds. -/
def RoundsFp64 (i : Instr) (f : V3) (e : Machine.Num → Machine.Num → Machine.Num → Machine.Num) : Prop :=
  Rounds i (fun w t r => t.setPair f.d.toNat (BitVec.ofNat 64 (rounded .fp64 f.fm (r 0)
    (e (sourceIn .fp64 f.fm.modA (f.srcA64 w t)) (sourceIn .fp64 f.fm.modB (f.srcB64 w t))
      (sourceIn .fp64 f.fm.modC (f.srcC64 w t))))))

/-- The sign of a value. -/
def isNeg : Machine.Num → Bool
  | .nan => false
  | .inf s => s
  | .fin s _ _ => s

/-- Does a come before b, −0 before +0 (R144)? -/
def comesBefore (a b : Machine.Num) : Bool := a.lt b || (!b.lt a && isNeg a && !isNeg b)

/-- The smaller and the larger of two values; a NaN gives way to the other (R144). -/
def smaller (a b : Machine.Num) : Machine.Num :=
  if a = .nan then b else if b = .nan then a else if comesBefore a b = true then a else b
def larger (a b : Machine.Num) : Machine.Num :=
  if a = .nan then b else if b = .nan then a else if comesBefore a b = true then b else a

/-- CLAMP of a value of the format, which no rounding changes (R77). -/
def clamped (fmt : Fmt) (f : Form) (x : Machine.Num) : Nat := fmt.clampEncode f.clamp (fmt.round 0 0 x)

/-- A packed instruction that selects one of two elements, in each half. -/
def SelectsPacked (i : Instr) (f : V3) (bf : Bool) (pick : Machine.Num → Machine.Num → Machine.Num) : Prop :=
  Gives i (fun w t =>
    let fmt := if bf = true then Fmt.bf16 else Fmt.fp16
    let lo := clamped fmt f.fm (pick (sourceIn fmt f.fm.modA (bits (f.srcA w t) 15 0))
      (sourceIn fmt f.fm.modB (bits (f.srcB w t) 15 0)))
    let hi := clamped fmt f.fm (pick (sourceIn fmt f.fm.modA (bits (f.srcA w t) 31 16))
      (sourceIn fmt f.fm.modB (bits (f.srcB w t) 31 16)))
    t.setReg f.d.toNat (BitVec.ofNat 32 (lo + 65536 * hi)))

/-- The element of a source in a conversion, by its format code: a value of a floating-point format, or an integer that
ABS and NEG change modulo its width, an INT8 after its extension to INT32 (R77, R139, R149). -/
def converted (fmt : Nat) (m : Bool × Bool) (x : Dword) : Machine.Num :=
  match fmt with
  | 0 => sourceIn .fp32 m (bits x 31 0)
  | 1 => sourceIn .fp16 m (bits x 15 0)
  | 2 => sourceIn .bf16 m (bits x 15 0)
  | 3 => sourceIn .e4m3 m (bits x 7 0)
  | 4 => sourceIn .e5m2 m (bits x 7 0)
  | 5 => Machine.Num.ofInt (modInt m ((bits x 7 0).signExtend 32)).toInt
  | 6 => Machine.Num.ofInt (modInt m (bits x 31 0)).toInt
  | 7 =>
    let y := if m.1 = true ∧ x.toInt < 0 then -x else x
    Machine.Num.ofInt (if m.2 = true then -y else y).toInt
  | 8 => sourceIn .fp64 m x
  | _ =>
    let e := (bits x 7 0).toNat
    modNum m (if e = 255 then .nan else if 127 ≤ e then .fin false (2 ^ (e - 127)) 1 else .fin false 1 (2 ^ (127 - e)))

/-- The encoding of a converted value in the destination's format (R125, R149, R150). -/
def convertedTo (fmt : Nat) (f : Form) (r : Word) (x : Machine.Num) : Nat :=
  match fmt with
  | 0 => rounded .fp32 f r x
  | 1 => rounded .fp16 f r x
  | 2 => rounded .bf16 f r x
  | 3 => rounded .e4m3 f r x
  | 4 => rounded .e5m2 f r x
  | 5 => (BitVec.ofInt 8 (clampInt f.clamp (toIntFmt 8 f.rm r x))).toNat
  | 6 => (BitVec.ofInt 32 (clampInt f.clamp (toIntFmt 32 f.rm r x))).toNat
  | 7 => (BitVec.ofInt 64 (clampInt f.clamp (toIntFmt 64 f.rm r x))).toNat
  | _ => rounded .fp64 f r x

/-! ## One thread, and the bytes of memory -/

/-- No store waits, in the queue of a thread or in the order of its core, that the thread would see (R225). -/
def Drained (s : State) (t : Thread) : Prop := ∀ q ∈ s.queue, q.core ≠ s.coreOf t ∧ q.by' ≠ some t.key

/-- The thread takes its instruction up for the first time: no response waits for it. -/
def Unanswered (s : State) (t : Thread) : Prop := ∀ r ∈ s.replies, r.key ≠ t.key

/-- The thread reaches these bytes of main memory: they lie in plain frames, over links that are up, without an
uncorrectable byte, and no write of the thread itself is held or waits in its core. -/
structure Sound (s : State) (t : Thread) (pa n : Nat) : Prop where
  plain : s.isCmp pa = false
  first : Unanswered s t
  queue : Drained s t
  link : s.reaches (dieOf (s.coreOf t)) (homeDie pa) = true
  clean : ∀ a ∈ s.poison, a < pa ∨ pa + n ≤ a
  held : ∀ h ∈ s.held, h.by' ≠ .thread t.wg t.tidx

/-- These bytes of main memory have been stored, and every other byte of it reads as before. -/
structure Stored (s s' : State) (pa : Nat) (b : List Byte) : Prop where
  bytes : ∀ i, i < b.length → memGet s'.mem (pa + i) = b.getD i 0
  rest : ∀ a, a < pa ∨ pa + b.length ≤ a → memGet s'.mem a = memGet s.mem a

/-- A thread that goes on from its instruction: ready, and the branch that it may have taken behind it. -/
def goes (u : Thread) : Thread := { u with status := .ready, took := false }

/-- A store of a thread as its queue holds it, without its place and bytes: it is one of the group at execution. -/
def waiting (s : State) (t : Thread) (w : Workgroup) : Queued :=
  { core := s.coreOf t, by' := some t.key, vf := w.ctxn / 16 + 1, loc := .fifo, data := [], group := s.cur.id, out := false }

/-- The state once a release of the thread covers its stores, where one does. -/
def covered (s : State) (t : Thread) (out : Bool) : State := if out = true then s.markOut (s.coreOf t) t.key else s

/-- An instruction of a lone thread stores bytes in main memory, the thread becomes `u`, and nothing else changes. -/
def StoresAt (i : Instr) (s : State) (u : Thread) (pa : Nat) (b : List Byte) : Prop :=
  ∃ s', exec i s = .next s' ∧ Stored s s' pa b
    ∧ Went (fun _ _ => goes u) { s with mem := s'.mem, poison := s'.poison } s'

/-- A byte of main memory as a thread sees it: that of the newest store in its own queue, else of the newest in the order
of its core, else that of memory (R202, R225). -/
def seenByte (s : State) (t : Thread) (a : Nat) : Byte :=
  (s.coreView (s.coreOf t) t.key a [memGet s.mem a]).getD 0 0

/-- A store of a lone thread enters its store queue (R225): the thread itself sees its bytes, and every other byte as before.
The thread becomes `u`, and nothing else changes: no memory, until the store is performed. `out` tells whether a release of the
thread at DIE scope or wider covers it (R234). -/
def Enqueues (i : Instr) (s : State) (t : Thread) (w : Workgroup) (u : Thread) (pa : Nat) (b : List Byte)
    (out : Bool) : Prop :=
  ∃ s', exec i s = .next s'
    ∧ (∀ a, seenByte s' t a = if pa ≤ a ∧ a < pa + b.length then b.getD (a - pa) 0 else seenByte s t a)
    ∧ Went (fun _ _ => goes u)
        { s with queue := (covered s t out).queue ++ [{ waiting s t w with loc := .main pa, data := b, out }] } s'

/-- The same for a store to the scratchpad of the thread's workgroup. -/
def EnqueuesSpad (i : Instr) (s : State) (t : Thread) (w : Workgroup) (u : Thread) (off : Nat) (b : List Byte)
    (out : Bool) : Prop :=
  ∃ s', exec i s = .next s'
    ∧ (∀ a x, (s'.spadView t.key a [x]).getD 0 0
        = if off ≤ a ∧ a < off + b.length then b.getD (a - off) 0 else (s.spadView t.key a [x]).getD 0 0)
    ∧ Went (fun _ _ => goes u)
        { s with queue := (covered s t out).queue ++ [{ waiting s t w with loc := .spad off, data := b, out }] } s'

/-- A lone thread becomes `u`, ready again, and nothing else changes. -/
def Becomes (i : Instr) (s : State) (u : Thread) : Prop :=
  ∃ s', exec i s = .next s' ∧ Went (fun _ _ => goes u) s s'

/-! ## Faults -/

/-- A thread of the group at execution can enter its handler: it is no slice and not in its handler, TRAPVEC is set and
aligned, and its context's fault queue has room and lies in plain frames. Of one that is away, no store waits. -/
structure CanTrap (s : State) (t : Thread) (w : Workgroup) (d : CtxDesc) : Prop where
  thread : s.thread t.key = some t
  wg : s.wg t.wg = some w
  here : w.foreign = none
  thr : t.tidx ≠ 0xFFFF
  out : t.hnd = false
  stores : t.away ≠ none → Drained s t
  vec : t.trapvec ≠ 0 ∧ bits t.trapvec 1 0 = 0
  desc : (s.ctx w.ctxn).desc = some d
  idle : (s.ctx w.ctxn).waiting = []
  room : s.ringRoom (s.ctx w.ctxn) = true
  base : d.fqbase % 4096 = 0
  plain : s.isCmp (d.fqbase + 64 * ((s.ctx w.ctxn).fqseq % 2 ^ d.fqlog)) = false
  mem : s.mem.wf = true

/-- The 64 bytes of the record of a trapping fault without an address, raised outside of the handler (R300). -/
def trapRecord (s : State) (t : Thread) (w : Workgroup) (code : Byte) : List Byte :=
  [code, 0, if t.away.isSome = true then 8 else 0, 0]
    ++ natLe 4 (w.wgx + w.nwgx * (w.wgy + w.nwgy * w.wgz)).toNat
    ++ natLe 2 t.tidx ++ natLe 2 s.cur.core ++ natLe 2 w.core ++ natLe 1 s.cur.pkg ++ [0]
    ++ natLe 8 t.pc.toNat ++ natLe 4 s.cur.insn.toNat ++ natLe 4 w.launch.toNat
    ++ List.replicate 16 0 ++ List.replicate 12 0 ++ natLe 4 (s.ctx w.ctxn).fqseq

/-- The thread has entered its handler (R304): its record is written and latched, EPC, TRAPCAUSE and HND are set and
the PC is TRAPVEC; its other registers and predicates, and every other thread's, are unchanged. -/
structure Trapped (s s' : State) (t : Thread) (w : Workgroup) (d : CtxDesc) (code : Byte) (arg : BitVec 16) (epc : Dword) :
    Prop where
  thread : ∃ u, s'.thread t.key = some u ∧ (u.status = .filed ∨ u.status = .ready)
    ∧ u = { t with
        pc := t.trapvec, epc, trapcause := (arg.setWidth 64 <<< 16) ||| code.setWidth 64, hnd := true
        frec := BitVec.ofNat 512 (leNat (trapRecord s t w code)), away := none, hops := 0
        insn := s.cur.insn, seen := none, took := false, status := u.status }
  others : ∀ k, k ≠ t.key → ∃ st : Status → Status, s'.thread k = (s.thread k).map (fun u => { u with status := st u.status })
  record : Stored s s' (d.fqbase + 64 * ((s.ctx w.ctxn).fqseq % 2 ^ d.fqlog)) (trapRecord s t w code)
  count : (s'.ctx w.ctxn).fqseq = (s.ctx w.ctxn).fqseq + 1
  wgs : s'.wgs = s.wgs

/-! ## Reductions -/

/-- An integer reduction of values of `n` bits, from the identity of its operation (R176). -/
def reduction (op : BitVec 4) (n : Nat) (l : List (BitVec n)) : BitVec n :=
  match op with
  | 0 => l.foldr (· + ·) 0
  | 1 => l.foldr (fun a b => if a.slt b then a else b) (BitVec.intMax n)
  | 2 => l.foldr (fun a b => if b.slt a then a else b) (BitVec.intMin n)
  | 3 => l.foldr (fun a b => if a.ult b then a else b) (BitVec.allOnes n)
  | 4 => l.foldr (fun a b => if b.ult a then a else b) 0
  | 5 => l.foldr (· &&& ·) (BitVec.allOnes n)
  | 6 => l.foldr (· ||| ·) 0
  | _ => l.foldr (· ^^^ ·) 0

/-- The floating-point reductions: the exact sum rounded once, the smallest and the largest; of no value +0, +∞ and −∞. -/
def floatReduction (op : BitVec 4) (rm : BitVec 3) (r : Word) (l : List Word) : Word :=
  match l.map (fun x => Fmt.fp32.decode x.toNat), op with
  | [], 8 => 0
  | [], 9 => 0x7F800000#32
  | [], _ => 0xFF800000#32
  | x :: rest, 8 => BitVec.ofNat 32 (Fmt.fp32.clampEncode 0 (Fmt.fp32.round rm r (rest.foldl (Machine.Num.add (rm == 2)) x)))
  | x :: rest, 9 => BitVec.ofNat 32 (Fmt.fp32.clampEncode 0 (Fmt.fp32.round 0 0 (rest.foldl smaller x)))
  | x :: rest, _ => BitVec.ofNat 32 (Fmt.fp32.clampEncode 0 (Fmt.fp32.round 0 0 (rest.foldl larger x)))

/-- What TRED or TSCAN does to a member whose result covers the threads `l`; under SR it draws word 0 of its own block,
and its counter advances (R176). -/
def reduced (f : V3) (x : TeamW2) (w : Workgroup) (l : List Thread) (u : Thread) : Thread :=
  if x.op.toNat ≤ 7 then
    if x.w64 = true then u.setPair f.d.toNat (reduction x.op 64 (l.map (f.srcA64 w)))
    else u.setReg f.d.toNat (reduction x.op 32 (l.map (f.srcA w)))
  else if x.op = 8 ∧ f.fm.rm = 5 then
    let block := philox u.srctr0 u.srctr1 (BitVec.ofNat 32 u.tidx) w.lin u.srkey0 u.srkey1
    { u.setReg f.d.toNat (floatReduction x.op f.fm.rm (block.getD 0 0) (l.map (f.srcA w))) with
      srctr0 := u.srctr0 + 1, srctr1 := if u.srctr0 = BitVec.allOnes 32 then u.srctr1 + 1 else u.srctr1 }
  else u.setReg f.d.toNat (floatReduction x.op f.fm.rm 0 (l.map (f.srcA w)))

/-! ## Memory operands -/

/-- The effective address of a memory operand (R182): base, scaled index, and the literal or imm8 in units. -/
def addressOf (f : MemForm) (unit : Nat) (w : Workgroup) (t : Thread) : Dword :=
  let c := f.fm.cField f.d
  let x : Word := if c.1 = true then bits (kread w t c.2.toNat) 31 0 else t.reg c.2.toNat
  memBase f w t
    + (match f.w2.ix with | 1 => x.signExtend 64 * 2 ^ f.w2.sc.toNat | 2 => x.setWidth 64 * 2 ^ f.w2.sc.toNat | _ => 0)
    + f.fm.lit.getD (f.imm.signExtend 64 * BitVec.ofNat 64 unit)

/-- The operand passes the checks of R194 and names this place, in a page with or without ORD; the thread makes its access for
the first time. -/
def LandsAt (s : State) (f : MemForm) (unit : Nat) (w : Workgroup) (t : Thread) (k : AccessKind) (l : Loc) (ord : Bool) : Prop :=
  Unanswered s t ∧ s.checkEa w (atCore (s.coreOf t)) k (memBase f w t) (addressOf f unit w t) = .ok ⟨l, ord⟩
def Lands (s : State) (f : MemForm) (unit : Nat) (w : Workgroup) (t : Thread) (k : AccessKind) (l : Loc) : Prop :=
  ∃ ord, LandsAt s f unit w t k l ord

/-- A read of main memory that makes and uses no replica: not on the ROD path, or of a line homed on the thread's die
(R184). -/
def Direct (s : State) (t : Thread) (ea : Dword) : Loc → Prop
  | .main pa => bits ea 63 60 = 1 → homeDie pa = dieOf (s.coreOf t)
  | _ => True

/-- A thread can read these bytes here and now: main memory, its scratchpad or a weight store, without an uncorrectable
byte. -/
def Readable (s : State) (w : Workgroup) (t : Thread) (n : Nat) : Loc → Prop
  | .main pa => Sound s t pa n
  | .spad off => w.foreign = none ∧ Drained s t ∧ ∀ a ∈ w.spadErr, a < off ∨ off + n ≤ a
  | .wst die off => ∀ i, i < n → Ecc.wst (die * 2 ^ 29 + off + i) ∉ s.ecc
  | _ => False

/-- The bytes there. -/
def bytesAt (s : State) (w : Workgroup) (n : Nat) : Loc → List Byte
  | .main pa => (List.range n).map (fun i => memGet s.mem (pa + i))
  | .spad off => (List.range n).map (fun i => memGet w.spad (off + i))
  | .wst die off => (List.range n).map (fun i => memGet s.wst (die * 2 ^ 29 + off + i))
  | _ => []

/-- The registers of a load (R201): one byte or two extended to a word, or words little-endian. -/
def loaded (sx : Bool) (n : Nat) (b : List Byte) : List Word :=
  let byte (i : Nat) : Byte := b.getD i 0
  match n with
  | 1 => [if sx = true then (byte 0).signExtend 32 else (byte 0).setWidth 32]
  | 2 => [if sx = true then (byte 1 ++ byte 0).signExtend 32 else (byte 1 ++ byte 0).setWidth 32]
  | n => (List.range (n / 4)).map (fun i => byte (4 * i + 3) ++ byte (4 * i + 2) ++ byte (4 * i + 1) ++ byte (4 * i))

/-- The bytes of a store (R201): the low bytes of consecutive registers, little-endian. -/
def storedBytes (t : Thread) (d n : Nat) : List Byte :=
  (List.range n).map (fun i => BitVec.ofNat 8 ((t.reg (d + i / 4)).toNat / 256 ^ (i % 4)))

/-- The access of a load, a store and an atomic (R183, R193, R197). -/
def loadKind (acquire : Bool) (n : Nat) : AccessKind :=
  { n, align := n, paths := if acquire = true then [0, 2] else [0, 1, 2, 3], ordOk := decide (n = 4 ∨ n = 8) }
def storeKind (n : Nat) : AccessKind :=
  { n, align := n, paths := [0, 2], write := true, strict := true, ordOk := decide (n = 4 ∨ n = 8) }
def atomicKind (n : Nat) : AccessKind := { n, align := n, paths := [0, 2], write := true, strict := true }

/-- An instruction of a lone thread writes bytes of its workgroup's scratchpad at once, the thread becomes `u`, and nothing
else changes. -/
def StoresSpad (i : Instr) (s : State) (w : Workgroup) (u : Thread) (off : Nat) (b : List Byte) : Prop :=
  ∃ s', exec i s = .next s' ∧ Went (fun _ _ => goes u)
    (s.modWg w.id (fun x => { x with
      spad := memSetN x.spad off b, spadErr := x.spadErr.filter (fun a => decide (a < off ∨ off + b.length ≤ a)) })) s'

/-- An atomic operation on two values of one width (R203). -/
def atomicResult {n : Nat} (op : BitVec 4) (old x : BitVec n) : BitVec n :=
  match op with
  | 0 => old + x
  | 1 => if old.slt x then old else x
  | 2 => if old.slt x then x else old
  | 3 => if old.ult x then old else x
  | 4 => if old.ult x then x else old
  | 5 => old &&& x
  | 6 => old ||| x
  | 7 => old ^^^ x
  | _ => x

/-! ## A lone thread and the rest of the state -/

/-- An instruction of a lone thread makes the rest of the state what it is in `x`; the thread becomes `u`, and is ready at
the next instruction. -/
def Acts (i : Instr) (s : State) (t u : Thread) (x : State) : Prop :=
  ∃ s', exec i s = .next s'
    ∧ Went (fun _ _ => goes { u with pc := t.pc + BitVec.ofNat 64 (4 * i.words) }) x s'

/-- An instruction of a lone thread makes it wait, and does nothing else. -/
def Waits (i : Instr) (s : State) (t : Thread) (st : Wait) : Prop :=
  exec i s = .next (s.setThread { t with status := .blocked st, insn := s.cur.insn })

/-- An instruction of a lone thread raises a fault and does nothing else. -/
def Raises (i : Instr) (s : State) (t : Thread) (r : Raise) : Prop := exec i s = .next (s.raiseCur t.key r)

/-- The fault that ERR of a tile stands for (R242). -/
def errFault (n err : Nat) : Raise :=
  { code := if err = 1 then 0x0C else if err = 2 then 0x0B else 0x07, space := 4, addr := BitVec.ofNat 128 n }

/-- An operand of `n` bytes lies in the scratchpad allotment, aligned and without an error, and holds `b`. -/
structure InSpad (w : Workgroup) (off n align : Nat) (b : List Byte) : Prop where
  aligned : off % align = 0
  within : off + n ≤ w.spadSize
  clean : ∀ a ∈ w.spadErr, a < off ∨ off + n ≤ a
  bytes : b = (List.range n).map (fun i => memGet w.spad (off + i))

/-! ## Engines -/

/-- No tile entry and no k register of a workgroup holds an uncorrectable error (R443). -/
def Intact (s : State) (w : Workgroup) : Prop := (∀ n, Ecc.tile w.id n ∉ s.ecc) ∧ ∀ sl n, Ecc.kreg w.id sl n ∉ s.ecc

/-- A new operation of a thread's workgroup on a queue of its core. -/
def newOp (s : State) (w : Workgroup) (t : Thread) (q : Nat) (body : OpBody) : Op :=
  { id := s.fresh, core := w.core, q, wg := w.id, issuer := t.tidx, started := false, err := 0, body }

/-- The largest number below `n` that has a property; 0 where there is none. -/
def largest (p : Nat → Bool) : Nat → Nat
  | 0 => 0
  | n + 1 => if p n = true then n else largest p n

/-- Bytes of a memory become zero, and the others stay. -/
def Zeroed (m m' : Memory) (a n : Nat) : Prop := ∀ i, memGet m' i = if a ≤ i ∧ i < a + n then 0 else memGet m i

/-- Bytes of a memory are stored, and the others stay. -/
def Holds (m m' : Memory) (a n : Nat) (f : Nat → Byte) : Prop :=
  ∀ i, memGet m' i = if a ≤ i ∧ i < a + n then f (i - a) else memGet m i

/-- Bytes arrive at a tile entry that waits for them (R240). -/
def arrived (e : Tile) (n : Nat) : Tile :=
  if e.state = .filling ∧ e.expected ≤ e.arrived + n then { e with arrived := e.arrived + n, state := .ready, phase := !e.phase }
  else { e with arrived := e.arrived + n }

/-! ## Graphs -/

/-- A vertex reference names a valid vertex of a graph whose home is the die where the thread executes. -/
structure AtHome (s : State) (t : Thread) (w : Workgroup) (d : GraphDesc) (r : Dword) : Prop where
  graph : s.graph w.ctxn (dieOf (s.coreOf t)) (bits r 55 40).toNat = some d
  high : bits r 63 56 = 0
  range : (bits r 39 0).toNat < 2 ^ d.idw
  home : s.vertexHome d (bits r 39 0).toNat = (s.pkg, dieOf (s.coreOf t))

/-- The agent of a vertex's home has every page of the region, and room for `adds` more bytes (R339, R340); no list of the
package is being changed by an operation at another package (R337). -/
structure Kept (s : State) (d : GraphDesc) (id adds : Nat) : Prop where
  pages : ∀ p, p < d.ssize / 65536 → ∃ mine, s.storePage d (s.vertexHome d id).2 p = .present mine
  room : adds = 0 ∨ 65536 + s.storeBound d (s.vertexHome d id) + adds ≤ s.storePages d (s.vertexHome d id).2 * 65536
  free : ∀ x ∈ s.txns, x.ends = []

/-- The same as `Acts`, but for the count of free values. -/
def ActsAt (i : Instr) (s : State) (t u : Thread) (x : State) : Prop := ∃ n, Acts i s t u { x with freeN := n }

/-- The low and the high word of a handle or a reference. -/
def halves (x : Dword) : List Word := [bits x 31 0, bits x 63 32]

/-- A cursor image (R354). -/
def cursorOf (g : BitVec 16) (id last : BitVec 40) (tie : BitVec 28) (incl has dir : Bool) : BitVec 128 :=
  g ++ id ++ last ++ tie ++ BitVec.ofBool incl ++ BitVec.ofBool has ++ BitVec.ofBool dir ++ 1#1

/-- Does an entry come after a cursor's place (R356)? And before it (R359)? -/
def comesAfter (multi : Bool) (c : BitVec 128) (x : Nat × Dword) : Bool :=
  let last := (bits c 71 32).toNat
  if bit c 2 = true then decide (last < x.1 ∨ multi = true ∧ last = x.1 ∧ (bits c 31 4).toNat < (bits x.2 27 0).toNat)
  else if bit c 3 = true then decide (last ≤ x.1) else true
def standsBefore (multi : Bool) (c : BitVec 128) (x : Nat × Dword) : Bool :=
  let last := (bits c 71 32).toNat
  if bit c 2 = true then decide (x.1 < last ∨ multi = true ∧ last = x.1 ∧ (bits x.2 27 0).toNat < (bits c 31 4).toNat)
  else if bit c 3 = true then decide (x.1 < last) else false

/-- A cursor that has returned an entry (R359). -/
def passed (multi : Bool) (c : BitVec 128) (x : Nat × Dword) : BitVec 128 :=
  cursorOf (bits c 127 112) (bits c 111 72) (BitVec.ofNat 40 x.1) (if multi = true then bits x.2 27 0 else 0) false true (bit c 1)

/-- A thread that waited goes on alone in a ready group; the rest of the state is as in `x`. -/
structure Resumed (x s' : State) (u : Thread) (core : Nat) : Prop where
  thread : s'.thread u.key = some { u with status := .ready }
  others : ∀ k, k ≠ u.key → s'.thread k = x.thread k
  rest : x.sameBut s'
  group : ∃ g ∈ s'.groups, g.threads = [u.key] ∧ g.core = core

/-! ## Migration and the system -/

/-- What a thread's outstanding loads leave in its registers. -/
def landed (t : Thread) : Thread := { t.loads.foldl (fun x l => x.setRegs l.dest l.data) t with loads := [] }

/-- The size of a thread's continuation (R365). -/
def carried (t : Thread) : Nat :=
  48 + 16 * (List.range 8).countP (fun j => bit (t.cur.toList.getD j 0) 0) + 8 * t.un + 4 * t.vn

/-! ## Collectives, and what the device does by itself -/

/-- A collective whose participants are all on this package and have issued it: each reads `n` elements of `size` bytes of
plain main memory, in order from `src`, and writes as many of `dsize` bytes in its scratchpad from `dst`. -/
structure Gathered (s : State) (c : Coll) (sh : Shape) (n size dsize fmt : Nat) (src dst tile : CollPart → Nat) : Prop where
  here : s.colls.find? (fun x => x.id == c.id) = some c
  all : c.parts.length = c.size ∧ (s.collHere c).length = c.size ∧ ∀ i, i < c.size → i ∈ s.collHere c
  count : n = sh.ext.prod
  positive : 0 < size ∧ 0 < dsize ∧ fmt ≠ 9
  distinct : (c.parts.map (·.wg)).Nodup ∧ (c.parts.map (·.engine)).Nodup
  shape : ∀ p ∈ c.parts, p.fmt = fmt ∧ p.src = sh ∧ p.dst = sh
  writes : ∀ p ∈ c.parts, p.writes = (List.range n).map (fun k =>
    { src := none, pad := 0, dst := some (.spad (dst p + k * dsize)), size := dsize, srcHalf := none, dstHalf := none })
  reads : ∀ p ∈ c.parts, ∃ o w, s.ops.find? (fun x => x.id == p.engine) = some o ∧ o.wg = p.wg ∧ s.wg p.wg = some w
    ∧ w.spad.wf = true ∧ s.opWaits o = false
    ∧ o.counted = 0 ∧ o.body = .copy ((List.range n).map (fun k =>
        { src := some (.main (src p + k * size)), pad := 0, dst := none, size, srcHalf := none, dstHalf := none }))
        none (tile p) (tile p) false false 0 (n * dsize) 0
    ∧ ∀ k, k < n → (∀ i, i < size → s.isCmp (src p + k * size + i) = false)
        ∧ s.reaches (dieOf o.core) (homeDie (src p + k * size)) = true
        ∧ ∀ a ∈ s.poison, a < src p + k * size ∨ src p + k * size + size ≤ a

/-- A collective has completed: each participant's destination holds bytes, or is as it was, its bytes have arrived at its
tile with this ERR, and nothing else has changed. -/
structure Completed (s s' : State) (c : Coll) (n dsize err : Nat) (dst tile : CollPart → Nat) (f : Option (Nat → Byte)) :
    Prop where
  parts : ∀ p ∈ c.parts, ∀ w, s.wg p.wg = some w → ∃ y, s'.wg p.wg = some y
    ∧ (match f with | some g => Holds w.spad y.spad (dst p) (n * dsize) g | none => y.spad = w.spad)
    ∧ y = { w with
        spad := y.spad
        spadErr := y.spadErr
        tiles := (w.tiles.modify (tile p) (fun e => { e with oor := min 0xFFFF e.oor })).modify (tile p)
          (fun e => { arrived e (n * dsize) with err := if err = 0 then e.err else err }) }
  others : ∀ k, (∀ p ∈ c.parts, p.wg ≠ k) → s'.wg k = s.wg k
  rest : s' = { s with
    colls := s.colls.filter (fun x => x.id != c.id), ops := s.ops.filter (fun o => !(c.parts.map (·.engine)).contains o.id)
    wgs := s'.wgs, fresh := s'.fresh }

/-- Nobody waits for others to arrive, and no slice lives. -/
def NoArrivals (s : State) : Prop := s.bars = [] ∧ ∀ u ∈ s.threads, u.tidx ≠ 0xFFFF ∧ u.teamWait = none ∧ u.roleTarget = none

/-! ## Scheduling, front ends and management -/

/-- Every table can be read: nothing of main memory is uncorrectable, and no frame is compressible. -/
def Legible (s : State) : Prop := s.poison = [] ∧ ∀ r ∈ s.frames, r.cmp = false

/-- The slot of a command in a function's ring; and a slot that lies in plain frames of main memory. -/
def slotAt (v : Vf) (idx : Nat) : Nat := (bits v.qbase 51 0).toNat + 64 * (idx % 2 ^ v.qlog.toNat)
structure RingAt (s : State) (v : Vf) (idx : Nat) : Prop where
  main : bit v.qbase 63 = false
  aligned : (bits v.qbase 51 0).toNat % 64 = 0
  plain : s.isCmp (slotAt v idx) = false
  mem : s.mem.wf = true

/-- The only command of a function that has started has ended (R405): STATUS is written, then HEAD stands at the next
command, and vector 0 is sent. -/
structure Ended (s s' : State) (vf idx st : Nat) : Prop where
  status : Stored s s' (slotAt (s.vf vf) idx + 0x3C) (natLe 4 st)
  head : s'.vf vf = { s.vf vf with cmds := [], head := (s.vf vf).taken }
  told : s'.out = s.out ++ [.msix vf 0]

/-- The event log has room for the next entry. -/
def LogRoom (m : Mgmt) : Prop :=
  8 ≤ m.mllog.toNat ∧ m.mllog.toNat ≤ 16 ∧ m.mlprod.toNat < m.mlcons.toNat + 2 ^ m.mllog.toNat

/-- An event is logged (R440): its entry of 32 bytes is written at the next place of a log in plain frames, and vector 3 is
sent; without room it is counted as dropped. -/
structure Logged (s s' : State) (code die vf : Nat) : Prop where
  entry : LogRoom s.mgmt → s.mgmt.dropped = 0 → bit s.mgmt.mlbase 63 = false →
    let at' := (bits s.mgmt.mlbase 51 0).toNat + 32 * (s.mgmt.mlprod.toNat % 2 ^ s.mgmt.mllog.toNat)
    at' % 32 = 0 → s.isCmp at' = false → s.mem.wf = true → ∃ detail : List Byte, detail.length = 16
      ∧ Stored s s' at' (natLe 4 s.mgmt.mlprod.toNat ++ natLe 2 code ++ natLe 1 die ++ natLe 1 vf
          ++ natLe 8 (s'.dieCyc.toList.getD die 0).toNat ++ detail)
      ∧ s' = { s with
          mgmt := { s.mgmt with mlprod := s.mgmt.mlprod + 1 }, out := s.out ++ [.msix vf 3]
          mem := s'.mem, poison := s'.poison, dieCyc := s'.dieCyc, freeN := s'.freeN }
  full : ¬ LogRoom s.mgmt → s' = { s with mgmt := { s.mgmt with dropped := s.mgmt.dropped + 1 } }

/-- The event does nothing but log. -/
def Logs (i : Instr) (s x : State) (code die vf : Nat) : Prop := ∃ s', exec i s = .next s' ∧ Logged x s' code die vf

/-- A front end takes its next command: nothing of the function has started, is held or outstanding, or is being logged or
replayed. The command's bytes stand in its slot. -/
structure TakesNext (s : State) (vf : Nat) (b : List Byte) : Prop where
  ring : RingAt s (s.vf vf) (s.vf vf).taken
  next : (s.vf vf).cmds = [] ∧ (s.vf vf).taken < (s.vf vf).tail
  runs : (s.vf vf).rpl = false ∧ (s.vf vf).qerr = false ∧ (s.vf vf).migok = false
  quiet : s.held = [] ∧ s.txns = []
  bytes : b = (List.range 64).map (fun i => memGet s.mem (slotAt (s.vf vf) (s.vf vf).taken + i))
  clean : ∀ a ∈ s.poison, a < slotAt (s.vf vf) (s.vf vf).taken ∨ slotAt (s.vf vf) (s.vf vf).taken + 64 ≤ a

/-- The command that has been taken, and the state with it. -/
def taken (s : State) (vf : Nat) (b : List Byte) : Command :=
  { id := s.fresh, idx := (s.vf vf).taken, bytes := b, replay := false, status := 0, moves := [] }
def took (s : State) (vf : Nat) (b : List Byte) : State :=
  ({ s with fresh := s.fresh + 1 } : State).setVf { s.vf vf with cmds := [taken s vf b], taken := (s.vf vf).taken + 1 }

/-- An event ends the command: its effects are those of `x`, and it ends with this status. -/
def Ends (i : Instr) (s x : State) (vf idx st : Nat) : Prop :=
  ∃ s', exec i s = .next s' ∧ Ended x s' vf idx st
    ∧ s' = { x with vfs := s'.vfs, mem := s'.mem, poison := s'.poison, out := s'.out, fresh := s'.fresh }

/-- Bytes are stored, and nothing else changes but the count of identifiers. -/
def StoredOnly (s s' : State) (pa : Nat) (b : List Byte) : Prop :=
  Stored s s' pa b ∧ s' = { s with mem := s'.mem, poison := s'.poison, fresh := s'.fresh }

/-! ## Other packages -/

/-- A flit leaves by a port, with the port's next SEQ (R427). -/
def sent (x : State) (port : Nat) (h : FlitHdr) (b : FlitBody) : State :=
  { x with
    out := x.out ++ [.flit port ((⟨h, b⟩ : Flit).wire (x.links.txSeq.getD port 0))]
    links := { x.links with txSeq := x.links.txSeq.set port ((x.links.txSeq.getD port 0 + 1) % 4096) } }

/-- The header of a request of a die (R430): it leaves by the lowest port that the die reaches, which log entry 66 chooses. -/
def header (s : State) (die pkg vf : Nat) : FlitHdr :=
  { dpkg := BitVec.ofNat 8 pkg, spkg := BitVec.ofNat 8 s.pkg, vf := BitVec.ofNat 8 vf
    tag := BitVec.ofNat 64 (die * 2 ^ 56 + s.portFor die * 2 ^ 48 + s.flits % 2 ^ 48), port := s.portFor die }

/-- A flit arrives at a port that is up, in its turn, and it is well formed (R427, R428, R430). -/
def Arrives (s : State) (h : FlitHdr) (b : FlitBody) : Prop :=
  s.links.portUp.getD h.port false = true
    ∧ ∃ r : RawFlit, s.rx = some r ∧ r.hdr = h ∧ r.seq = s.links.rxSeq.getD h.port 0 ∧ r.body = some b

/-- The flit has been taken from its port, which expects the next one; its run of CRC failures ends (R427, R428). -/
def delivered (s : State) (port : Nat) : State :=
  { s with
    rx := none
    links := { s.links with
      replays := s.links.replays.set port 0, rxSeq := s.links.rxSeq.set port ((s.links.rxSeq.getD port 0 + 1) % 4096) } }

/-- A request has been answered, under its TAG: by the port by which it came, or by another that its die reaches, as log entry 66
chooses. -/
def answered (x : State) (h : FlitHdr) (b : FlitBody) : State :=
  let port := x.answerPort h
  if x.links.portUp.getD port false = true then sent x port ⟨h.spkg, BitVec.ofNat 8 x.pkg, h.vf, h.tag, port⟩ b else x

/-- A request names these bytes of a plain frame that is backed for its hedge, at a die that the port reaches; none is
uncorrectable, no write is held, and no earlier request of the hedge waits. -/
structure PeerAt (s : State) (h : FlitHdr) (pa n : Nat) : Prop where
  size : 0 < n ∧ pa % 1024 + n ≤ 1024 ∧ pa + n ≤ 2 ^ 41
  frame : ∃ r, s.frameOf pa = some r ∧ r.vf = h.vf.toNat ∧ r.cmp = false
  clean : ∀ a ∈ s.poison, a < pa ∨ pa + n ≤ a
  link : s.reaches (portDie h.port) (homeDie pa) = true
  free : s.held = []
  turn : s.peerWaits h = false
  mem : s.mem.wf = true

/-- A request stores bytes and is answered; the hedge's MIGOK becomes 0 (R416). -/
def PeerStores (i : Instr) (s : State) (h : FlitHdr) (pa : Nat) (b : List Byte) (r : FlitBody) : Prop :=
  ∃ x s', Stored (delivered s h.port) x pa b ∧ x = { delivered s h.port with mem := x.mem, poison := x.poison, fresh := x.fresh, vfs := x.vfs }
    ∧ (x.vf h.vf.toNat).migok = false ∧ exec i s = .next s' ∧ s' = answered x h r

/-! ## The step -/

/-- How many words the instruction at these words has (R65, R86, R87): LEN counts words 1 and 2 and a literal; a PFX stands
before its successor, whose literal belongs to the pair once the pair has passed the checks before it. -/
def wordCount (slice : Bool) (w0 w1 : Word) : Nat :=
  if opcodeOf (bits w0 9 2).toNat = some .pfx ∧ bits w0 1 0 = 0 then
    if slice = false ∧ bits w0 31 27 = 0 ∧ bits w1 1 0 = 1 ∧ (prefixedInstr (prefixOf w0) w1 (some 0)).isSome = true then 4
    else 2
  else match bits w0 1 0 with | 0 => 1 | 1 => 3 | 2 => 3 | _ => 5

/-- The words at a PC: as many as the instruction has, each in main memory of the package, in a plain frame, readable for the
core (R66, R182, R194). -/
structure Fetches (s : State) (w : Workgroup) (core : Nat) (slice : Bool) (pc : Dword) (ws : List Word) : Prop where
  count : ws.length = wordCount slice (ws.getD 0 0) (ws.getD 1 0)
  words : ∀ i, i < ws.length → bits (pc + BitVec.ofNat 64 (4 * i)) 63 52 = bits pc 63 52
    ∧ ∃ pa ord, s.checkVa w (atCore core) { n := 4, align := 1, paths := [0], fetch := true } (vaOf (pc + BitVec.ofNat 64 (4 * i)))
        = .ok ⟨.main pa, ord⟩
      ∧ s.reaches (dieOf core) (homeDie pa) = true ∧ s.isCmp pa = false ∧ (∀ a ∈ s.poison, a < pa ∨ pa + 4 ≤ a)
      ∧ ws.getD i 0 = memGet s.mem (pa + 3) ++ memGet s.mem (pa + 2) ++ memGet s.mem (pa + 1) ++ memGet s.mem pa

end Sys2Proof.Certificates

open Sys2Proof Machine Certificates

/-- R161: the exact result of each value-producing integer instruction, in the arithmetic of the rule; only ADD, SUB and
MUL saturate. -/
def Obligations.IntegerResults : Prop := ∀ f : V3,
  Yields (.mov f) f (fun _ b => b)
  ∧ Gives (.movl f) (fun w t => t.setPair f.d.toNat (f.srcB64 w t))
  ∧ Yields (.add f) f (fun a b => if f.fm.clamp = 3#2 then nearest32 (a.toInt + b.toInt) else a + b)
  ∧ Yields (.sub f) f (fun a b => if f.fm.clamp = 3#2 then nearest32 (a.toInt - b.toInt) else a - b)
  ∧ Yields (.mul f) f (fun a b => if f.fm.clamp = 3#2 then nearest32 (a.toInt * b.toInt) else a * b)
  ∧ Yields (.mulhs f) f (fun a b => bits (a.signExtend 64 * b.signExtend 64) 63 32)
  ∧ Yields (.mulhu f) f (fun a b => bits (a.setWidth 64 * b.setWidth 64) 63 32)
  ∧ Yields (.min f) f (fun a b => if a.slt b then a else b)
  ∧ Yields (.max f) f (fun a b => if a.slt b then b else a)
  ∧ Yields (.minu f) f (fun a b => if a.ult b then a else b)
  ∧ Yields (.maxu f) f (fun a b => if a.ult b then b else a)
  ∧ Yields (.and f) f (fun a b => a &&& b)
  ∧ Yields (.or f) f (fun a b => a ||| b)
  ∧ Yields (.xor f) f (fun a b => a ^^^ b)
  ∧ Yields (.andn f) f (fun a b => a &&& ~~~b)
  ∧ Yields (.divu f) f (fun a b => if b = 0 then BitVec.allOnes 32 else a / b)
  ∧ Yields (.remu f) f (fun a b => if b = 0 then a else a % b)
  ∧ Yields (.popc f) f (fun a _ => BitVec.ofNat 32 ((List.range 32).countP (fun i => bit a i)))
  ∧ Yields (.clz f) f (fun a _ => if a = 0 then 32#32 else BitVec.ofNat 32 (31 - a.toNat.log2))
  ∧ Yields (.brev f) f (fun a _ => BitVec.ofFnLE (fun i : Fin 32 => bit a (31 - i)))
  ∧ ∀ zx sh, Gives (.lea f zx sh) (fun w t =>
      let b := if zx then (f.srcB w t).setWidth 64 else (f.srcB w t).signExtend 64
      t.setPair f.d.toNat (f.srcA64 w t + b * 2 ^ sh.toNat))

/-- R162: ADDC, SUBB and MADW take a carry from one predicate and give one to another. -/
def Sys2Proof.Certificates.CarryChains : Prop := ∀ (f : V3) (cy : CarryW2),
  let cin (t : Thread) : Nat := if cy.ciz = true ∨ t.pred cy.pi = false then 0 else 1
  Gives (.addc f cy) (fun w t =>
    let s := (f.srcA w t).toNat + (f.srcB w t).toNat + cin t
    (t.setReg f.d.toNat (f.srcA w t + f.srcB w t + BitVec.ofNat 32 (cin t))).setPred cy.po (decide (2 ^ 32 ≤ s)))
  ∧ Gives (.subb f cy) (fun w t =>
    (t.setReg f.d.toNat (f.srcA w t - f.srcB w t - BitVec.ofNat 32 (cin t))).setPred cy.po
      (decide ((f.srcA w t).toNat < (f.srcB w t).toNat + cin t)))
  ∧ Gives (.madw f cy) (fun w t =>
    let s := (f.srcA w t).toNat * (f.srcB w t).toNat + (f.srcC64 w t).toNat + cin t
    (t.setPair f.d.toNat ((f.srcA w t).setWidth 64 * (f.srcB w t).setWidth 64 + f.srcC64 w t + BitVec.ofNat 64 (cin t))).setPred
      cy.po (decide (2 ^ 64 ≤ s)))

/-- R163: shifts, rotates and bit fields, with counts of 32 and above and a field of length 0. -/
def Sys2Proof.Certificates.ShiftsAndFields : Prop := ∀ f : V3,
  Yields (.shl f) f (fun a b => let n := (bits b 5 0).toNat; if 32 ≤ n then 0 else a * 2 ^ n)
  ∧ Yields (.shr f) f (fun a b => let n := (bits b 5 0).toNat; if 32 ≤ n then 0 else a / 2 ^ n)
  ∧ Yields (.sar f) f (fun a b =>
      BitVec.ofInt 32 (a.toInt / 2 ^ (min (bits b 5 0).toNat 31)))
  ∧ Yields (.rotl f) f (fun a b =>
      let n := (bits b 4 0).toNat; (a <<< n) ||| (a >>> (32 - n)))
  ∧ Gives (.fshl f) (fun w t => t.setReg f.d.toNat
      (let n := (bits (f.srcC w t) 4 0).toNat; (f.srcA w t <<< n) ||| (f.srcB w t >>> (32 - n))))
  ∧ (∀ sx, Yields (.bfe f sx) f (fun a b =>
      let x := (a >>> fieldPos b) &&& (2 ^ fieldLen b - 1)
      if fieldLen b = 0 then 0
      else if sx = true ∧ bit x (fieldLen b - 1) = true then x - 2 ^ fieldLen b else x))
  ∧ Gives (.bfi f) (fun w t => t.setReg f.d.toNat (BitVec.ofFnLE (fun i : Fin 32 =>
      let b := f.srcB w t
      if fieldPos b ≤ i ∧ i < fieldPos b + fieldLen b then bit (f.srcA w t) (i - fieldPos b) else bit (f.srcC w t) i)))

/-- R162, R163: the carry chains, and the shifts, rotates and bit fields. -/
def Obligations.CarriesAndFields : Prop := CarryChains ∧ ShiftsAndFields

/-- R164, R165, R166: comparisons, SEL, PLOP, and the moves between predicates and registers. -/
def Obligations.PredicatesAndSelects : Prop :=
  (∀ (f : CmpForm), f.cond.toNat ≤ 5 →
    Gives (.cmp f) (fun w t =>
      let a := modInt f.fm.modA (f.srcA w t); let b := modInt f.fm.modB (f.srcB w t)
      t.setPred f.pd (match f.cond with
        | 0 => a == b | 1 => a != b | 2 => a.slt b | 3 => a.sle b | 4 => b.slt a | _ => b.sle a))
    ∧ Gives (.cmpu f) (fun w t =>
      let a := f.srcA w t; let b := f.srcB w t
      t.setPred f.pd (match f.cond with
        | 0 => a == b | 1 => a != b | 2 => a.ult b | 3 => a.ule b | 4 => b.ult a | _ => b.ule a)))
  ∧ (∀ (f : V3) sn spr, Gives (.sel f sn spr) (fun w t =>
      t.setReg f.d.toNat (if (t.pred spr ^^ sn) = true then f.srcA w t else f.srcB w t)))
  ∧ (∀ lut pb pa pd fm, Gives (.plop lut pb pa pd fm) (fun _ t =>
      t.setPred pd (bit lut (2 * (t.pred pa).toNat + (t.pred pb).toNat))))
  ∧ (∀ f : V3, Gives (.ptov f) (fun _ t => t.setReg f.d.toNat
      (BitVec.ofFnLE (fun i : Fin 32 => decide (i < 16) && t.pred (BitVec.ofNat 4 i)))))
  ∧ (∀ f : V3, Gives (.vtop f) (fun w t =>
      { t with p := BitVec.ofFnLE (fun i : Fin 16 =>
          if i < 15 ∧ bit (f.srcB w t) i = true then bit (f.srcA w t) i else bit t.p i) }))

/-- R167, R168, R169: SREAD of a v register completes where deterministic mode allows the selector, RNG always, and CYC outside
of deterministic mode, where it reads the counter of the core where the group executes, which has advanced by an amount that the
model leaves free, at least 1 (log entry 4). What a guest of another package reads of its workgroup is its origin's (log entry
26). -/
def Obligations.SpecialValues : Prop :=
  (∀ f : RI8, GivesIf (.sread f false) (fun _ w _ => w.kernel.det = false ∨ ¬ (9 ≤ f.imm.toNat ∧ f.imm.toNat ≤ 13))
    (fun s w t => t.setReg f.d.toNat (
      if w.foreign ≠ none ∧ f.imm.toNat ∈ [3, 4, 5, 6, 7, 8, 14, 15] then BitVec.ofNat 32 (originSel w f.imm.toNat)
      else match f.imm.toNat with
      | 0 => BitVec.ofNat 32 t.tidx
      | 1 => BitVec.ofNat 32 (t.tidx / 32)
      | 2 => BitVec.ofNat 32 (t.tidx % 32)
      | 3 => w.wgx | 4 => w.wgy | 5 => w.wgz | 6 => w.nwgx | 7 => w.nwgy | 8 => w.nwgz
      | 9 => BitVec.ofNat 32 (s.coreOf t)
      | 10 => BitVec.ofNat 32 (s.coreOf t / 4)
      | 11 => BitVec.ofNat 32 (s.coreOf t / 64)
      | 12 => BitVec.ofNat 32 s.pkg
      | 13 => BitVec.ofNat 32 w.core
      | 14 => BitVec.ofNat 32 w.nthr
      | _ => BitVec.ofNat 32 w.role)))
  ∧ (∀ f : V3, ∀ s, (Instr.rng f).Runs s → ∃ s', exec (.rng f) s = .next s'
      ∧ (Instr.rng f).Did (fun w t =>
          let a := f.a.toNat
          let key := f.srcB64 w t
          t.setRegs f.d.toNat
            (philox (t.reg a) (t.reg (a + 1)) (t.reg (a + 2)) (t.reg (a + 3)) (bits key 31 0) (bits key 63 32))) s s')
  ∧ (∀ f : V3, ∀ s, (Instr.cyc f).Runs s →
      (∀ k ∈ s.cur.keys, ∀ w, s.wg k.wg = some w → w.kernel.det = false) →
      ∃ s', exec (.cyc f) s = .next s'
        ∧ (Instr.cyc f).Did (fun _ t => t.setPair f.d.toNat ((s.tickCore s.cur.core).core s.cur.core).cyc)
            (s.tickCore s.cur.core) s')

/-- R143, R146, R147: FP32 arithmetic is exact and rounds once, SR drawing a block and advancing the counter. -/
def Sys2Proof.Certificates.Fp32Arithmetic : Prop :=
  (∀ f : V3, RoundsFp32 (.fadd f) f (fun a b _ => Machine.Num.add (f.fm.rm == 2) a b)
    ∧ RoundsFp32 (.fsub f) f (fun a b _ => Machine.Num.add (f.fm.rm == 2) a b.neg)
    ∧ RoundsFp32 (.fmul f) f (fun a b _ => Machine.Num.mul a b)
    ∧ RoundsFp32 (.ffma f) f (fun a b c => Machine.Num.add (f.fm.rm == 2) (Machine.Num.mul a b) c)
    ∧ RoundsFp32 (.fdiv f) f (fun a b _ => Machine.Num.div a b)
    ∧ Rounds (.frnd f) (fun w t r => t.setReg f.d.toNat (BitVec.ofNat 32 (clamped .fp32 f.fm
        (match sourceIn .fp32 f.fm.modA (f.srcA w t) with
         | .fin s n d => .fin s (roundInt f.fm.rm (r 0) s n d).natAbs 1
         | x => x))))
    ∧ Rounds (.fscl f) (fun w t r => t.setReg f.d.toNat (BitVec.ofNat 32 (Fmt.fp32.clampEncode f.fm.clamp
        (Fmt.fp32.round f.fm.rm (r 0)
          ((sourceIn .fp32 f.fm.modA (f.srcA w t)).scale (max (-512) (min 511 (f.srcB w t).toInt))))))))

/-- R154: FP64 addition, multiplication and fused multiply-add on pairs. -/
def Sys2Proof.Certificates.Fp64Arithmetic : Prop := ∀ f : V3,
  RoundsFp64 (.dadd f) f (fun a b _ => Machine.Num.add (f.fm.rm == 2) a b)
  ∧ RoundsFp64 (.dmul f) f (fun a b _ => Machine.Num.mul a b)
  ∧ RoundsFp64 (.dfma f) f (fun a b c => Machine.Num.add (f.fm.rm == 2) (Machine.Num.mul a b) c)

/-- R143, R146, R147, R154: FP32 and FP64 arithmetic. -/
def Obligations.FloatArithmetic : Prop := Fp32Arithmetic ∧ Fp64Arithmetic

/-- R144, R145, R148: FMIN and FMAX, FCMP's eight conditions, and FCLASS's one bit of nine. -/
def Obligations.Fp32Selection : Prop :=
  (∀ f : V3,
    Gives (.fmin f) (fun w t => t.setReg f.d.toNat (BitVec.ofNat 32 (clamped .fp32 f.fm
      (smaller (sourceIn .fp32 f.fm.modA (f.srcA w t)) (sourceIn .fp32 f.fm.modB (f.srcB w t))))))
    ∧ Gives (.fmax f) (fun w t => t.setReg f.d.toNat (BitVec.ofNat 32 (clamped .fp32 f.fm
      (larger (sourceIn .fp32 f.fm.modA (f.srcA w t)) (sourceIn .fp32 f.fm.modB (f.srcB w t))))))
    ∧ Gives (.fclass f) (fun w t =>
      let x := f.srcA w t
      t.setReg f.d.toNat (1 <<< (
        if bits x 30 23 = 255 then (if bits x 22 0 ≠ 0 then 8 else if bit x 31 = true then 0 else 7)
        else if bits x 30 23 = 0 ∧ bits x 22 0 = 0 then (if bit x 31 = true then 3 else 4)
        else if bits x 30 23 = 0 then (if bit x 31 = true then 2 else 5)
        else if bit x 31 = true then 1 else 6))))
  ∧ ∀ f : CmpForm, Gives (.fcmp f) (fun w t =>
      let a := sourceIn .fp32 f.fm.modA (f.srcA w t)
      let b := sourceIn .fp32 f.fm.modB (f.srcB w t)
      let ordered := decide (a ≠ .nan) && decide (b ≠ .nan)
      t.setPred f.pd (match f.cond with
        | 0 => ordered && !a.lt b && !b.lt a
        | 1 => !(ordered && !a.lt b && !b.lt a)
        | 2 => ordered && a.lt b
        | 3 => ordered && !b.lt a
        | 4 => ordered && b.lt a
        | 5 => ordered && !a.lt b
        | 6 => ordered
        | _ => !ordered))

/-- R149, R150: FCVT and DCVT between every pair of format codes that R140 lists. -/
def Obligations.Conversions : Prop := ∀ f : RI8,
  let dst := (bits f.imm 7 4).toNat
  let src := (bits f.imm 3 0).toNat
  ((Instr.fcvt f).wf = true → Rounds (.fcvt f) (fun w t r => t.setReg f.d.toNat (BitVec.ofNat 32
    (convertedTo dst f.fm (r 0) (converted src f.fm.modA ((f.srcA w t).setWidth 64))))))
  ∧ ((Instr.dcvt f).wf = true → Rounds (.dcvt f) (fun w t r =>
    let x := converted src f.fm.modA (if src = 7 ∨ src = 8 then f.srcA64 w t else (f.srcA w t).setWidth 64)
    let y := convertedTo dst f.fm (r 0) x
    if dst = 7 ∨ dst = 8 then t.setPair f.d.toNat (BitVec.ofNat 64 y) else t.setReg f.d.toNat (BitVec.ofNat 32 y)))

/-- R151: FSF writes one fixed function of the source's value; at the special values it is the value that the table
shows, SIN and TANH are odd and COS is even. What it is elsewhere is the device's own (log entry 10). -/
def Obligations.SpecialFunctions : Prop :=
  (∀ f : RI8, Gives (.fsf f) (fun w t => t.setReg f.d.toNat (BitVec.ofNat 32 (clamped .fp32 f.fm
      (Fmt.fp32.decode (fsfResult f.imm.toNat (sourceIn .fp32 f.fm.modA (f.srcA w t))))))))
  ∧ (∀ fn, fn ≤ 6 → fsfResult fn .nan = 0x7FC00000)
  ∧ Fmt.fp32.decode 0 = .fin false 0 (2 ^ 149) ∧ Fmt.fp32.decode 0x80000000 = .fin true 0 (2 ^ 149)
  ∧ Fmt.fp32.decode 0x3F800000 = .fin false (2 ^ 23) (2 ^ 23)
  ∧ (∀ s d, let sg := if s = true then 0x80000000 else 0
      fsfResult 0 (.fin s 0 d) = sg + 0x7F800000 ∧ fsfResult 0 (.inf s) = sg
      ∧ fsfResult 1 (.fin s 0 d) = sg + 0x7F800000 ∧ fsfResult 1 (.inf false) = 0 ∧ fsfResult 1 (.inf true) = 0x7FC00000
      ∧ fsfResult 2 (.fin s 0 d) = 0x3F800000 ∧ fsfResult 2 (.inf s) = (if s = true then 0 else 0x7F800000)
      ∧ fsfResult 3 (.fin s 0 d) = 0xFF800000 ∧ fsfResult 3 (.inf false) = 0x7F800000
      ∧ fsfResult 3 (.inf true) = 0x7FC00000 ∧ (d ≠ 0 → fsfResult 3 (.fin false d d) = 0)
      ∧ fsfResult 4 (.fin s 0 d) = sg ∧ fsfResult 4 (.inf s) = 0x7FC00000
      ∧ fsfResult 5 (.fin s 0 d) = 0x3F800000 ∧ fsfResult 5 (.inf s) = 0x7FC00000
      ∧ fsfResult 6 (.fin s 0 d) = sg ∧ fsfResult 6 (.inf s) = sg + 0x3F800000)
  ∧ (∀ n d, n ≠ 0 → fsfResult 1 (.fin true n d) = 0x7FC00000 ∧ fsfResult 3 (.fin true n d) = 0x7FC00000
      ∧ fsfResult 4 (.fin true n d) = (fsfResult 4 (.fin false n d) + 0x80000000) % 0x100000000
      ∧ fsfResult 6 (.fin true n d) = (fsfResult 6 (.fin false n d) + 0x80000000) % 0x100000000
      ∧ fsfResult 5 (.fin true n d) = fsfResult 5 (.fin false n d))

/-- R152, R153: the packed instructions on FP16 and BF16 pairs. -/
def Obligations.PackedPairs : Prop :=
  (∀ (f : V3) (bf : Bool),
    RoundsPacked (.hadd2 f bf) f bf (fun a b _ => Machine.Num.add (f.fm.rm == 2) a b)
    ∧ RoundsPacked (.hmul2 f bf) f bf (fun a b _ => Machine.Num.mul a b)
    ∧ RoundsPacked (.hfma2 f bf) f bf (fun a b c => Machine.Num.add (f.fm.rm == 2) (Machine.Num.mul a b) c)
    ∧ SelectsPacked (.hmin2 f bf) f bf smaller
    ∧ SelectsPacked (.hmax2 f bf) f bf larger
    ∧ Rounds (.pack2 f bf) (fun w t r =>
        let fmt := if bf = true then Fmt.bf16 else Fmt.fp16
        let lo := rounded fmt f.fm (r 0) (sourceIn .fp32 f.fm.modA (f.srcA w t))
        let hi := rounded fmt f.fm (r 1) (sourceIn .fp32 f.fm.modB (f.srcB w t))
        t.setReg f.d.toNat (BitVec.ofNat 32 (lo + 65536 * hi))))
  ∧ ∀ f : RI8, Gives (.unpk2 f) (fun w t =>
      let fmt := if bit f.imm 1 = true then Fmt.bf16 else Fmt.fp16
      let x := if bit f.imm 0 = true then bits (f.srcA w t) 31 16 else bits (f.srcA w t) 15 0
      t.setReg f.d.toNat (BitVec.ofNat 32 (clamped .fp32 f.fm (sourceIn fmt f.fm.modA x))))

/-- R86, R87, R88: a PFX pair executes as the successor with the fields of the PFX as its modifiers, and with its own
literal; a pair that R87 refuses raises 0x06 for every thread, as a reserved opcode does. -/
def Obligations.PrefixedPair : Prop := ∀ p w lit s,
  (∀ i, prefixedInstr p w lit = some i → i.form = { mods := .pfx p, lit } ∧ prefixEligible w = true
    ∧ i.opc = opcodeOf (bits w 9 2).toNat ∧ i.illegal = none
    ∧ ∃ s', exec (.pfx p w lit) s = .next s' ∧ exec i s = .next s')
  ∧ (prefixedInstr p w lit = none →
      ∃ s', exec (.pfx p w lit) s = .next s' ∧ exec (.reservedOpcode w) s = .next s'
        ∧ s' = s.cur.keys.foldl (fun x k => x.raiseCur k { code := 0x06 }) s)

/-- R102, R105, R106: NOP changes nothing but the PC; BRA, BRP, JMPR and KBRA set it, in words from the instruction's own
PC or to the operand. A thread whose guard is false goes on. -/
def Obligations.Branches : Prop :=
  Gives .nop (fun _ t => t)
  ∧ (∀ off fm, Turns (.bra off fm) (fun _ _ => True) (fun _ t => { t with pc := t.pc + off.signExtend 64 * 4 }))
  ∧ (∀ off pn pp, Turns (.brp off pn pp) (fun _ _ => True) (fun _ t =>
      { t with pc := if (t.pred pp ^^ pn) = true then t.pc + off.signExtend 64 * 4 else t.pc + 4 }))
  ∧ (∀ f : V3, Turns (.jmpr f) (fun w t => bits (f.srcB64 w t) 1 0 = 0) (fun w t => { t with pc := f.srcB64 w t }))
  ∧ (∀ off kz kr, Turns (.kbra off kz kr) (fun _ _ => True) (fun w t =>
      { t with pc := if (decide (kread w t kr.toNat ≠ 0) ^^ kz) = true then t.pc + off.signExtend 64 * 4 else t.pc + 4 }))

/-- R213, R216: a call pushes the address after it on the window and goes to its target; a return pops the newest entry.
The window of these threads has room, and an entry. -/
def Sys2Proof.Certificates.CallWindow : Prop :=
  (∀ off fm, Turns (.call off fm) (fun _ t => t.win.length < 4) (fun _ t =>
      { t with win := t.win ++ [t.pc + BitVec.ofNat 64 (4 * fm.words)], pc := t.pc + off.signExtend 64 * 4 }))
  ∧ (∀ f : V3, Turns (.callr f) (fun w t => t.win.length < 4 ∧ bits (f.srcB64 w t) 1 0 = 0) (fun w t =>
      { t with win := t.win ++ [t.pc + BitVec.ofNat 64 (4 * f.fm.words)], pc := f.srcB64 w t }))
  ∧ (∀ fm, Turns (.ret fm) (fun _ t => ∃ ra, t.win.getLast? = some ra ∧ bits ra 1 0 = 0) (fun _ t =>
      { t with win := t.win.dropLast, pc := t.win.getLast?.getD 0 }))

/-- R216: with four entries in the window a call spills the oldest to STKTOP, 8 bytes little-endian; with none a return
refills from below STKTOP. STKTOP moves by 8; outside of the spill area the fault is 0x0D, and on a path other than GEN 0x04.
The accesses land in plain main memory. That STKTOP is its own base in the checks, and what the records of these faults hold as
SPACE and ADDR, is log entry 57. -/
def Sys2Proof.Certificates.CallSpill : Prop := ∀ (s : State) (t : Thread) (w : Workgroup) (pa : Nat),
  (∀ i tgt, ((∃ off fm, i = .call off fm ∧ tgt = t.pc + off.signExtend 64 * 4)
      ∨ (∃ f : V3, i = .callr f ∧ tgt = f.srcB64 w t ∧ bits tgt 1 0 = 0)) →
    i.Alone s t w → t.win.length = 4 →
    (t.stkbase.toNat ≤ t.stktop.toNat → t.stktop.toNat + 8 ≤ t.stklim.toNat → bits t.stktop 63 60 = 0 →
      (∃ ord, s.checkEa w (atCore (s.coreOf t)) { n := 8, align := 8, paths := [0], write := true } t.stktop t.stktop
        = .ok ⟨.main pa, ord⟩) → Sound s t pa 8 →
      Enqueues i s t w { t with win := t.win.drop 1 ++ [t.pc + BitVec.ofNat 64 (4 * i.words)], stktop := t.stktop + 8, pc := tgt }
        pa (natLe 8 (t.win.headD 0).toNat) false)
    ∧ (t.stkbase.toNat ≤ t.stktop.toNat → t.stktop.toNat + 8 ≤ t.stklim.toNat → bits t.stktop 63 60 ≠ 0 → Unanswered s t →
        exec i s = .next (s.raiseCur t.key { code := 0x04, space := 1, addr := (vaOf t.stktop).setWidth 128 }))
    ∧ (t.stktop.toNat < t.stkbase.toNat ∨ t.stklim.toNat < t.stktop.toNat + 8 →
        exec i s = .next (s.raiseCur t.key { code := 0x0D })))
  ∧ (∀ fm, (Instr.ret fm).Alone s t w → t.win = [] →
    (t.stkbase.toNat + 8 ≤ t.stktop.toNat → t.stktop.toNat ≤ t.stklim.toNat → bits t.stktop 63 60 = 0 →
      (∃ ord, s.checkEa w (atCore (s.coreOf t)) { n := 8, align := 8, paths := [0] } (t.stktop - 8) (t.stktop - 8)
        = .ok ⟨.main pa, ord⟩) → Sound s t pa 8 → bits (BitVec.ofNat 64 (leNat (memGetN s.mem pa 8))) 1 0 = 0 →
      Becomes (.ret fm) s { t with stktop := t.stktop - 8, pc := BitVec.ofNat 64 (leNat (memGetN s.mem pa 8)) })
    ∧ (t.stkbase.toNat + 8 ≤ t.stktop.toNat → t.stktop.toNat ≤ t.stklim.toNat → bits t.stktop 63 60 ≠ 0 → Unanswered s t →
        exec (.ret fm) s = .next (s.raiseCur t.key { code := 0x04, space := 1, addr := (vaOf (t.stktop - 8)).setWidth 128 }))
    ∧ (t.stktop.toNat < t.stkbase.toNat + 8 ∨ t.stklim.toNat < t.stktop.toNat →
        exec (.ret fm) s = .next (s.raiseCur t.key { code := 0x0D })))

/-- R213, R216: calls and returns, inside the window and at its ends (log entry 57). -/
def Obligations.CallsAndReturns : Prop := CallWindow ∧ CallSpill

/-- R42, R43, R44: a thread that is filed joins the bin of its workgroup and next PC on its core that is not full; the
32nd thread makes the bin a ready group. Without such a bin it takes one of the core's 64, or the overflow queue. -/
def Sys2Proof.Certificates.Filing : Prop := ∀ (s : State) (t : Thread) (tag : BitVec 4),
  t.tidx ≠ 0xFFFF → (s.thread t.key).isSome = true →
  let s' := s.fileThread t tag
  let bin := s.bins.find? (fun b => b.core == s.coreOf t && b.wg == t.wg && b.pc == t.pc && decide (b.threads.length < 32))
  (∀ b, bin = some b → b.threads.length < 31 →
    s'.thread t.key = some { t with status := .filed, took := false } ∧ s'.overflow = s.overflow ∧ s'.groups = s.groups
    ∧ ∃ b' ∈ s'.bins, b'.id = b.id ∧ b'.core = b.core ∧ b'.wg = b.wg ∧ b'.pc = b.pc ∧ b'.threads = b.threads ++ [t.key])
  ∧ (∀ b, bin = some b → b.threads.length = 31 →
    s'.thread t.key = some { t with status := .ready, took := false }
    ∧ ∃ g ∈ s'.groups, g.core = b.core ∧ ∀ k, k ∈ g.threads ↔ k ∈ b.threads ∨ k = t.key)
  ∧ (bin = none → (s.bins.filter (fun b => b.core == s.coreOf t)).length < 64 →
    s'.thread t.key = some { t with status := .filed, took := false } ∧ s'.groups = s.groups
    ∧ ∃ b' ∈ s'.bins, b'.core = s.coreOf t ∧ b'.wg = t.wg ∧ b'.pc = t.pc ∧ b'.threads = [t.key] ∧ b'.tag = tag)
  ∧ (bin = none → 64 ≤ (s.bins.filter (fun b => b.core == s.coreOf t)).length →
    s'.thread t.key = some { t with status := .filed, took := false } ∧ s'.groups = s.groups ∧ s'.bins = s.bins
    ∧ s'.overflow = s.overflow ++ [{ core := s.coreOf t, key := t.key, pc := t.pc, tag }])

/-- R108, R109, R110, R312: what REFORM, YIELD, EXIT and ERET do to a lone thread. REFORM and ERET file it; YIELD blocks
it; EXIT ends it, and nothing waits for it here. -/
def Sys2Proof.Certificates.FilingInstructions : Prop := ∀ s t w,
  (∀ tag, (Instr.reform tag).Alone s t w →
    exec (.reform tag) s = .next (s.fileThread
      { t with tag := if tag ≠ 0 ∧ t.tag = tag then 0 else t.tag, pc := t.pc + 4 } tag))
  ∧ (∀ hold fm, (Instr.yield hold fm).Alone s t w →
    exec (.yield hold fm) s = .next (s.setThread
      { t with status := .blocked (.yield (t.pc + BitVec.ofNat 64 (4 * fm.words))), insn := s.cur.insn }))
  ∧ (∀ fm, (Instr.exit fm).Alone s t w → s.bars = [] →
    (∀ u ∈ s.threads, u.tidx ≠ 0xFFFF ∧ u.teamWait = none ∧ u.roleTarget = none) →
    exec (.exit fm) s = .next (s.setThread
      { t with status := if t.away.isSome = true then .exiting else .exited, loads := [], tag := 0,
               cur := Vector.replicate 8 0, win := [], insn := s.cur.insn }))
  ∧ (Instr.eret.Alone s t w →
    (t.hnd = true → bits t.epc 1 0 = 0 → exec .eret s = .next (s.fileThread { t with pc := t.epc, hnd := false } 0))
    ∧ (t.hnd = false → exec .eret s = .next (s.raiseCur t.key { code := 0x07 }))
    ∧ (t.hnd = true → bits t.epc 1 0 ≠ 0 → exec .eret s = .next (s.raiseCur t.key { code := 0x05 })))

/-- R42, R43, R44, R108, R109, R110, R312: filing, and the instructions that file, block or end a thread. -/
def Obligations.FiledThreads : Prop := Filing ∧ FilingInstructions

/-- R304: a trapping fault is taken. TRAP saves the address after it, BRK without a debugger its own, and a reserved
opcode its own with code 0x06. -/
def Sys2Proof.Certificates.TrapEntry : Prop := ∀ s t w d, CanTrap s t w d →
  (∀ code fm, (Instr.trap code fm).Alone s t w →
    ∃ s', exec (.trap code fm) s = .next s' ∧ Trapped s s' t w d 0x10 code (t.pc + BitVec.ofNat 64 (4 * fm.words)))
  ∧ (∀ bid fm, (Instr.brk bid fm).Alone s t w → (s.ctx w.ctxn).debug = false →
    ∃ s', exec (.brk bid fm) s = .next s' ∧ Trapped s s' t w d 0x11 bid t.pc)
  ∧ (∀ word, s.cur.keys = [t.key] →
    ∃ s', exec (.reservedOpcode word) s = .next s' ∧ Trapped s s' t w d 0x06 0 t.pc)

/-- R303, R314: SYSC parks a lone thread until the driver replies; its record has CODE 0x10, RES set, SPACE 0x1 and the
operand's address, and RESUME will go on after the instruction. -/
def Sys2Proof.Certificates.ServiceCall : Prop := ∀ s t w d (f : RI8),
  (Instr.sysc f).Alone s t w → (s.ctx w.ctxn).desc = some d → (s.ctx w.ctxn).waiting = [] →
  s.ringRoom (s.ctx w.ctxn) = true →
  ∃ s' u p, exec (.sysc f) s = .next s' ∧ s'.thread t.key = some u ∧ u.status = .parked p
    ∧ p.kind = .sysc (t.pc + BitVec.ofNat 64 (4 * f.fm.words)) ∧ p.seq = some (BitVec.ofNat 32 (s.ctx w.ctxn).fqseq)
    ∧ p.fault.code = 0x10 ∧ p.fault.arg = f.imm.setWidth 16
    ∧ p.fault.addr = (bits (f.srcA64 w t) 51 0).setWidth 128 ||| ((bits (f.srcA64 w t) 63 52).setWidth 128 <<< 68)
    ∧ (p.body.getD 0 0 = 0x10 ∧ p.body.getD 1 0 = 1 ∧ bit (p.body.getD 2 0) 0 = true)
    ∧ u = { t with status := .parked p, insn := s.cur.insn, seen := none }
    ∧ (∀ k, k ≠ t.key → s'.thread k = s.thread k) ∧ s'.wgs = s.wgs ∧ s'.groups = s.groups

/-- R303, R304, R314: entry to the handler by TRAP, BRK and a reserved opcode, and the park of a SYSC. -/
def Obligations.TakenTraps : Prop := TrapEntry ∧ ServiceCall

/-- R304: a fault in the handler, or without a usable TRAPVEC, parks the thread for good and marks its context faulted;
its PC stays on the instruction. -/
def Sys2Proof.Certificates.FaultWithoutHandler : Prop := ∀ (s : State) (t : Thread) (w : Workgroup) (d : CtxDesc) (r : Raise),
  s.thread t.key = some t → s.wg t.wg = some w → w.foreign = none →
  (s.ctx w.ctxn).desc = some d → (s.ctx w.ctxn).waiting = [] → s.ringRoom (s.ctx w.ctxn) = true →
  r.resolvable = false → (r.code ≠ 0x11 ∧ r.code ≠ 0x12) → (t.away ≠ none → Drained s t) →
  (t.tidx = 0xFFFF ∨ t.hnd = true ∨ t.trapvec = 0 ∨ bits t.trapvec 1 0 ≠ 0) →
  let s' := s.raiseCur t.key r
  (∃ u, s'.thread t.key = some u ∧ (∃ p, u.status = .parked p ∧ p.kind = .forever) ∧ u.pc = t.pc ∧ u.v = t.v ∧ u.p = t.p)
  ∧ (s'.ctx w.ctxn).faulted = true ∧ (s'.ctx w.ctxn).fqseq = (s.ctx w.ctxn).fqseq + 1 ∧ s'.wgs = s.wgs

/-- R302, R304: a fault record that waited for room is written at the next place of the ring, and its trapping fault is
taken then. -/
def Sys2Proof.Certificates.RecordThatWaited : Prop := ∀ (s : State) (t : Thread) (w : Workgroup) (d : CtxDesc) (r : Record) rest (p : Park),
  s.thread t.key = some t → s.wg t.wg = some w → (s.ctx w.ctxn).ctxn = w.ctxn → (s.ctx w.ctxn).desc = some d →
  (s.ctx w.ctxn).waiting = r :: rest → s.ringRoom (s.ctx w.ctxn) = true →
  r.keys = [t.key] → r.body.length = 60 → t.status = .parked p → p.kind = .trap → p.seq = none → t.tidx ≠ 0xFFFF →
  t.hnd = false → t.trapvec ≠ 0 → bits t.trapvec 1 0 = 0 → w.foreign = none → (t.away ≠ none → Drained s t) →
  let at' := d.fqbase + 64 * ((s.ctx w.ctxn).fqseq % 2 ^ d.fqlog)
  d.fqbase % 4096 = 0 → s.isCmp at' = false → s.mem.wf = true →
  let record := r.body ++ natLe 4 (s.ctx w.ctxn).fqseq
  ∃ s' u, exec (.faultRecordPost w.ctxn) s = .next s' ∧ s'.thread t.key = some u ∧ (u.status = .filed ∨ u.status = .ready)
    ∧ u = { t with
        pc := t.trapvec, epc := p.fault.epc.getD t.pc, hnd := true, status := u.status
        trapcause := (p.fault.arg.setWidth 64 <<< 16) ||| p.fault.code.setWidth 64
        frec := BitVec.ofNat 512 (leNat record), away := none, hops := 0, took := false }
    ∧ Stored s s' at' record
    ∧ (s'.ctx w.ctxn).waiting = rest ∧ (s'.ctx w.ctxn).fqseq = (s.ctx w.ctxn).fqseq + 1 ∧ s'.wgs = s.wgs

/-- R302, R304: a fault of a thread without a handler, and a record that waited for its queue. -/
def Obligations.HandlerlessFaults : Prop := FaultWithoutHandler ∧ RecordThatWaited

/-- R54, R112: a ROLE at which the last live thread of its workgroup arrives, and which needs no more registers than the
role gives now, completes: the role changes, registers at or above the new allotment become zero, loads have landed, PD is
true, and the thread is filed at the entry or at the next instruction. A RID that the kernel does not declare is 0x07. -/
def Obligations.RoleChange : Prop := ∀ (s : State) (t : Thread) (w : Workgroup) ent rid pd,
  (Instr.role ent rid pd).Alone s t w →
  (w.kernel.nroles ≤ rid.toNat → exec (.role ent rid pd) s = .next ((s.raiseCur t.key { code := 0x07 }).settleRoles))
  ∧ (rid.toNat < w.kernel.nroles → t.tidx ≠ 0xFFFF → (s.threads.map Thread.key).Nodup →
      (∀ u ∈ s.threads, u.wg = t.wg → u.tidx ≠ 0xFFFF → u.status ≠ .exited → u.key = t.key) →
      (∀ u ∈ s.threads, u.roleTarget = none) → (∀ g ∈ s.grows, g.wg ≠ w.id) → t.away = none →
      w.roleRegs rid.toNat ≤ w.allot →
      ∃ s' u, exec (.role ent rid pd) s = .next s' ∧ s'.thread t.key = some u ∧ (u.status = .filed ∨ u.status = .ready)
        ∧ u.pc = (if ent = true then w.roleEntry rid.toNat else t.pc + 4)
        ∧ u.loads = [] ∧ (pd ≠ 15#4 → u.pred pd = true) ∧ (∀ q, q ≠ pd → u.pred q = t.pred q)
        ∧ (∀ n, n < 128 → u.reg n = if n < w.roleRegs rid.toNat
            then (t.loads.foldl (fun x l => x.setRegs l.dest l.data) t).reg n else 0)
        ∧ (∃ w', s'.wg t.wg = some w' ∧ w'.role = rid.toNat ∧ { w' with role := w.role } = w)
        ∧ s'.mem = s.mem)

/-- R60, R171: a uniform instruction writes its k register once, for the group's first guard-true thread; every thread
goes on. An access slice writes its own bank. Without a guard-true thread nothing is written. -/
def Sys2Proof.Certificates.UniformResults : Prop := ∀ f : Uniform,
  let once (i : Instr) (ok : Workgroup → Prop) (val : State → Workgroup → Thread → Dword) : Prop := ∀ s, i.Runs s →
    (s.leader f.fm = none → ∃ s', exec i s = .next s' ∧ i.Did (fun _ t => t) s s')
    ∧ (∀ k t w, s.leader f.fm = some k → s.thread k = some t → s.wg k.wg = some w → ok w →
        (∀ j ∈ s.cur.keys, j.wg = k.wg) →
        ∃ s', exec i s = .next s' ∧ i.Did (fun _ t => t)
          (s.modWg w.id (fun x => kwrite x (decide (t.tidx = 0xFFFF)) f.ud.toNat (val s w t))) s')
  let a (w : Workgroup) (t : Thread) : Dword := kread w t f.ua.toNat
  let b (w : Workgroup) (t : Thread) : Dword := f.fm.lit.getD (kread w t f.ub.toNat)
  (f.fn = 0 → once (.kmov f) (fun _ => True) (fun _ w t => b w t))
  ∧ (f.fn = 1 → once (.kmov f) (fun w => w.kernel.det = false ∨ ¬ (9 ≤ f.ub.toNat ∧ f.ub.toNat ≤ 13))
      (fun s w t => BitVec.ofNat 64 (special s w t f.ub.toNat)))
  ∧ once (.kadd f) (fun _ => True) (fun _ w t => if f.fn = 1 then a w t - b w t else a w t + b w t)
  ∧ (f.fn.toNat ≤ 2 → once (.kmul f) (fun _ => True) (fun _ w t =>
      if f.fn = 0 then a w t * b w t
      else if f.fn = 1 then bits ((a w t).setWidth 128 * (b w t).setWidth 128) 127 64
      else bits ((a w t).signExtend 128 * (b w t).signExtend 128) 127 64))
  ∧ once (.klea f) (fun _ => True) (fun _ w t => a w t + b w t * 2 ^ f.fn.toNat)
  ∧ (f.fn.toNat ≤ 9 → once (.kcmp f) (fun _ => True) (fun _ w t =>
      if (match f.fn with
        | 0 => a w t == b w t | 1 => a w t != b w t | 2 => (a w t).slt (b w t) | 3 => (a w t).sle (b w t)
        | 4 => (b w t).slt (a w t) | 5 => (b w t).sle (a w t) | 6 => (a w t).ult (b w t) | 7 => (a w t).ule (b w t)
        | 8 => (b w t).ult (a w t) | _ => (b w t).ule (a w t)) = true then 1 else 0))
  ∧ (f.fn.toNat ≤ 7 → once (.klog f) (fun _ => True) (fun _ w t =>
      let n := (bits (b w t) 5 0).toNat
      match f.fn with
      | 0 => a w t &&& b w t | 1 => a w t ||| b w t | 2 => a w t ^^^ b w t | 3 => a w t &&& ~~~b w t
      | 4 => a w t <<< n | 5 => a w t >>> n | 6 => (a w t).sshiftRight n | _ => (a w t <<< n) ||| (a w t >>> (64 - n))))
  ∧ (f.fn.toNat ≤ 1 → once (.ksel f) (fun _ => True) (fun _ w t =>
      if a w t = 0 ∧ f.fn = 1 ∨ a w t ≠ 0 ∧ f.fn = 0 then b w t else kread w t f.ud.toNat))

/-- R172, R196: KLD and KST of a lone thread in plain main memory: the address is kUA plus kUB or the offset, the width is
FN[1:0], and FN[2] extends the sign. A store to a page with ORD is performed at once. -/
def Sys2Proof.Certificates.UniformMemory : Prop := ∀ (s : State) (t : Thread) (w : Workgroup) (f : Uniform) pa,
  let n := 2 ^ (f.fn.toNat % 4)
  let base := kread w t f.ua.toNat
  let ea := base + f.fm.lit.getD (kread w t f.ub.toNat)
  ((Instr.kld f).Alone s t w → t.status = .ready → f.fn.toNat ≤ 6 → (∀ x ∈ s.kloads, t.key ∉ x.keys) →
    Direct s t ea (.main pa) → (∃ ord, s.checkEa w (atCore (s.coreOf t)) { n, align := n, paths := [0, 1, 2, 3], ordOk := decide (4 ≤ n) } base ea
      = .ok ⟨.main pa, ord⟩) → Sound s t pa n →
    ∃ s' : State, exec (.kld f) s = .next s' ∧ (Instr.kld f).Did (fun _ t => { t with insn := s.cur.insn })
      (s.modWg w.id (fun x => kwrite x (decide (t.tidx = 0xFFFF)) f.ud.toNat
        (let x := leNat (memGetN s.mem pa n)
         if bit f.fn 2 = true ∧ x.testBit (8 * n - 1) = true then BitVec.ofInt 64 (x - 2 ^ (8 * n)) else BitVec.ofNat 64 x))) s')
  ∧ ((Instr.kst f).Alone s t w → t.status = .ready →
    let lands (ord : Bool) : Prop := s.checkEa w (atCore (s.coreOf t))
        { n, align := n, paths := [0, 2], write := true, strict := true, ordOk := decide (4 ≤ n) } base ea = .ok ⟨.main pa, ord⟩
    let u := { t with pc := t.pc + BitVec.ofNat 64 (4 * f.fm.words), insn := s.cur.insn }
    let b := natLe n (kread w t f.ud.toNat).toNat
    Sound s t pa n → (lands false → Enqueues (.kst f) s t w u pa b false)
      ∧ (lands true → s.mem.wf = true → StoresAt (.kst f) s u pa b))

/-- R60, R171, R172: the uniform instructions, those that reach memory among them. -/
def Obligations.UniformInstructions : Prop := UniformResults ∧ UniformMemory

/-- R50, R173 to R179, R114: a cross-thread instruction whose last awaited member arrives acts once: each member gets its
result from the active members' sources, and is filed at the next instruction. No KLD of the workgroup is to come (R61). That a
k source is read when the instruction completes is log entry 58. -/
def Obligations.CrossThread : Prop := ∀ (s : State) (t : Thread) (w : Workgroup) (i : Instr),
  i.Alone s t w → t.tidx ≠ 0xFFFF → t.away = none → s.kloads = [] →
  let m := teamMask w t i
  let here := { t with status := .blocked (.team i m true), insn := s.cur.insn }
  let all := (s.setThread here).teamArrived t.wg (t.tidx / 32) t.pc
  let act := all.filter (fun u => u.status == .blocked (.team i m true))
  bit m (t.tidx % 32) = true →
  (∀ u ∈ all, u.status = .blocked (.team i m true) ∨ u.status = .blocked (.team i m false)) →
  (∀ l, l < 32 → bit m l = true → (∃ u ∈ all, u.tidx % 32 = l) ∨ (s.thread ⟨t.wg, t.tidx / 32 * 32 + l⟩).all (fun u =>
    u.status == .exited) = true) →
  (s.threads.map Thread.key).Nodup →
  let each (f : Thread → Thread) (k : Workgroup) : Prop :=
    ∃ s' : State, exec i s = .next s' ∧ s'.mem = s.mem ∧ s'.wg t.wg = some k
      ∧ ∀ u ∈ all, ∃ st, (st = .filed ∨ st = .ready) ∧ s'.thread u.key = some
          { (if u ∈ act then f u else i.zeroDest w u) with pc := t.pc + BitVec.ofNat 64 (4 * i.words), status := st, took := false }
  let src (f : V3) (w64 : Bool) (u : Thread) : Dword := if w64 = true then f.srcA64 w u else (f.srcA w u).setWidth 64
  let put (w64 : Bool) (u : Thread) (d : Reg) (x : Dword) : Thread :=
    if w64 = true then u.setPair d.toNat x else u.setReg d.toNat (bits x 31 0)
  let lanes (p : Thread → Bool) : Word := BitVec.ofFnLE (fun l : Fin 32 => act.any (fun u => u.tidx % 32 == l.val && p u))
  (∀ f, i = .tsync f → each (fun u => u) w)
  ∧ (∀ f a w64 mode, i = .tshfl f a w64 mode → each (fun u =>
      let l : Int := (u.tidx % 32 : Nat)
      let n : Int := (bits (f.srcB w u) 4 0).toNat
      let x : Int := match mode with | 0 => n | 1 => l - n | 2 => l + n | _ => (l.toNat ^^^ n.toNat : Nat)
      put w64 u f.d (if x < 0 ∨ 31 < x ∨ bit m x.toNat = false then src f w64 u
        else ((act.find? (fun v => v.tidx % 32 == x.toNat)).map (src f w64)).getD 0)) w)
  ∧ (∀ f a sn spr op, i = .tvote f a sn spr op → each (fun u =>
      let v (x : Thread) : Bool := x.pred spr ^^ sn
      match op with
      | 0 => u.setReg f.d.toNat (lanes v)
      | 1 => u.setPred (bits f.d 3 0) (act.all v)
      | 2 => u.setPred (bits f.d 3 0) (act.any v)
      | _ => u.setPred (bits f.d 3 0) (act.all v || act.all (fun x => !v x))) w)
  ∧ (∀ f a w64, i = .tmatch f a w64 → each (fun u => u.setReg f.d.toNat (lanes (fun v => src f w64 v == src f w64 u))) w)
  ∧ (∀ f a pd w64 chk, i = .rdfl f a pd w64 chk →
      each (fun u => if chk = true then u.setPred pd (act.all (fun v => src f w64 v == src f w64 u)) else u)
        (kwrite w false f.d.toNat ((act.head?.map (src f w64)).getD 0)))
  ∧ (∀ f a wid, i = .tcoll f a wid → each (fun u => u)
      (let width := match wid with | 0 => 1 | 1 => 4 | 2 => 8 | _ => 16
       (List.range (match wid with | 0 => 1 | 1 => 2 | 2 => 4 | _ => 8)).foldl (fun k j =>
        kwrite k false (f.d.toNat + j) (BitVec.ofFnLE (fun x : Fin 64 =>
          act.any (fun u => u.tidx % 32 == (64 * j + x.val) / width && bit (f.srcA w u) ((64 * j + x.val) % width))))) w))
  ∧ (∀ f x, i = .tred f x → x.op.toNat ≤ 10 → (x.w64 = true → x.op.toNat ≤ 7) →
      each (fun u => reduced f x w act u) w)
  ∧ (∀ f x, i = .tscan f x → x.op.toNat ≤ 10 → (x.w64 = true → x.op.toNat ≤ 7) →
      each (fun u => reduced f x w (act.filter (fun v =>
        v.tidx % 32 < u.tidx % 32 || (!x.exc && v.tidx % 32 == u.tidx % 32))) u) w)

/-- R182, R197, R201: an untagged LD or an LDA of each thread of a group reads the bytes at its effective address, from main
memory, the scratchpad or a weight store, into its destination registers, and changes nothing else. A read on the ROD path is
of the thread's own die here. -/
def Sys2Proof.Certificates.Loads : Prop := ∀ (f : MemForm) (n : Nat), n = 2 ^ f.w2.sz.toNat → n ≤ 16 →
  let gets (i : Instr) (acquire : Bool) : Prop := ∀ (loc : State → Workgroup → Thread → Loc),
    GivesIf i (fun s w t => f.w2.tag = 0 ∧ Lands s f n w t (loadKind acquire n) (loc s w t)
        ∧ Direct s t (addressOf f n w t) (loc s w t) ∧ Readable s w t n (loc s w t))
      (fun s w t => t.setRegs f.d.toNat (loaded f.w2.sx n (bytesAt s w n (loc s w t))))
  gets (.ld f) false ∧ gets (.lda f) true

/-- R40, R201: a tagged LD of a lone thread without a pending tag leaves its data outstanding under the tag, its registers
as they are, and the thread waits for the data at the next instruction (log entry 15). -/
def Sys2Proof.Certificates.RunAheadLoad : Prop := ∀ (s : State) (t : Thread) (w : Workgroup) (f : MemForm) (n : Nat) (l : Loc),
  n = 2 ^ f.w2.sz.toNat → n ≤ 16 → (Instr.ld f).Alone s t w → f.w2.tag ≠ 0 → t.tag = 0 →
  Lands s f n w t (loadKind false n) l → Direct s t (addressOf f n w t) l → Readable s w t n l →
  exec (.ld f) s = .next (s.setThread { t with
    tag := f.w2.tag, loads := t.loads ++ [⟨s.cur.id, f.d.toNat, loaded f.w2.sx n (bytesAt s w n l)⟩]
    status := .data .load, pc := t.pc + BitVec.ofNat 64 (4 * f.fm.words), insn := s.cur.insn })

/-- R184, R201, R232: an untagged LD of a lone thread on the ROD path, of a line of plain main memory that is homed on another
die, reads the replica that its own die holds; where there is none it reads memory, and its die then holds the line: R184 allows a
replica, and that one is always used, and made, is the model's choice (log entry 14). -/
def Sys2Proof.Certificates.ReplicaLoad : Prop := ∀ (s : State) (t : Thread) (w : Workgroup) (f : MemForm) (n pa : Nat),
  n = 2 ^ f.w2.sz.toNat → n ≤ 16 → (Instr.ld f).Alone s t w → f.w2.tag = 0 → Lands s f n w t (loadKind false n) (.main pa) →
  bits (addressOf f n w t) 63 60 = 1 → homeDie pa ≠ dieOf (s.coreOf t) → s.reaches (dieOf (s.coreOf t)) (homeDie pa) = true →
  let die := dieOf (s.coreOf t)
  let line := pa / 64
  let reads (x : State) (b : List Byte) : Prop := Acts (.ld f) s t (t.setRegs f.d.toNat (loaded f.w2.sx n b)) x
  (∀ r, s.replica die line = some r → reads s ((List.range n).map (fun i => r.data.getD (pa % 64 + i) 0)))
  ∧ (s.replica die line = none → s.isCmp (64 * line) = false → (∀ a ∈ s.poison, a < 64 * line ∨ 64 * line + 64 ≤ a) →
      reads { s with replicas := s.replicas ++ [⟨die, line, (List.range 64).map (fun i => memGet s.mem (64 * line + i))⟩] }
        ((List.range n).map (fun i => memGet s.mem (pa + i))))

/-- R40, R182, R184, R197, R201, R232: untagged loads of a group, a load through a replica (log entry 14), and a tagged load that
runs ahead (log entry 15). -/
def Obligations.LoadResults : Prop := Loads ∧ ReplicaLoad ∧ RunAheadLoad

/-- R182, R196, R197, R201, R225, R234: ST and STR of a lone thread store the low bytes of the registers at the effective
address, in main memory or in the scratchpad: the store enters the thread's queue, where its own loads see it, and nothing else
changes. A store to a page with ORD enters no queue: it is performed at once. -/
def Obligations.Stores : Prop := ∀ (s : State) (t : Thread) (w : Workgroup) (f : MemForm) (n : Nat) (i : Instr),
  n = 2 ^ f.w2.sz.toNat → n ≤ 16 → (i = .st f ∨ i = .str f) → i.Alone s t w →
  let u := { t with pc := t.pc + BitVec.ofNat 64 (4 * f.fm.words) }
  let b := storedBytes t f.d.toNat n
  let out : Bool := decide (i = .str f ∧ 3 ≤ f.w2.scope.toNat)
  (∀ pa, Sound s t pa n →
    (LandsAt s f n w t (storeKind n) (.main pa) false → Enqueues i s t w u pa b out)
    ∧ (LandsAt s f n w t (storeKind n) (.main pa) true → s.mem.wf = true → StoresAt i s u pa b))
  ∧ (∀ off, Lands s f n w t (storeKind n) (.spad off) → w.foreign = none →
    EnqueuesSpad i s t w u off b out)

/-- R203, R204: ATOM and ACAS of a lone thread on main memory, outside of deterministic mode where they return a value: the
new value is stored, and the old one and ACAS's predicate are written. A failed ACAS stores nothing. -/
def Obligations.Atomics : Prop := ∀ (s : State) (t : Thread) (w : Workgroup) (f : MemForm) (pa : Nat),
  s.mem.wf = true → Sound s t pa (2 ^ f.w2.sz.toNat) →
  Lands s f (2 ^ f.w2.sz.toNat) w t (atomicKind (2 ^ f.w2.sz.toNat)) (.main pa) →
  let go (u : Thread) : Thread := { u with pc := t.pc + BitVec.ofNat 64 (4 * f.fm.words) }
  let old32 : Word := BitVec.ofNat 32 (leNat (memGetN s.mem pa 4))
  let old64 : Dword := BitVec.ofNat 64 (leNat (memGetN s.mem pa 8))
  ((Instr.atom f).Alone s t w → (w.kernel.det = false ∨ f.w2.ret = false) → f.w2.op.toNat ≤ 8 →
    (f.w2.sz = 2 → StoresAt (.atom f) s (go (if f.w2.ret = true then t.setReg f.d.toNat old32 else t)) pa
      (natLe 4 (atomicResult f.w2.op old32 (t.reg f.d.toNat)).toNat))
    ∧ (f.w2.sz = 3 → StoresAt (.atom f) s (go (if f.w2.ret = true then t.setPair f.d.toNat old64 else t)) pa
      (natLe 8 (atomicResult f.w2.op old64 (t.pair f.d.toNat)).toNat)))
  ∧ ((Instr.acas f).Alone s t w → w.kernel.det = false →
    (f.w2.sz = 2 → StoresAt (.acas f) s
      (go ((t.setReg f.d.toNat old32).setPred f.w2.pd (old32 == t.reg f.d.toNat))) pa
      (natLe 4 (if old32 = t.reg f.d.toNat then t.reg (f.d.toNat + 1) else old32).toNat))
    ∧ (f.w2.sz = 3 → StoresAt (.acas f) s
      (go ((t.setPair f.d.toNat old64).setPred f.w2.pd (old64 == t.pair f.d.toNat))) pa
      (natLe 8 (if old64 = t.pair f.d.toNat then t.pair (f.d.toNat + 2) else old64).toNat)))

/-- R134, R136, R205: ACCADD, ACCCLR and ACCRD of a lone thread act on the 32 bytes of a cell in main memory. -/
def Obligations.CellInstructions : Prop := ∀ (s : State) (t : Thread) (w : Workgroup) (f : MemForm) (pa : Nat),
  s.mem.wf = true → Sound s t pa 32 →
  let go (u : Thread) : Thread := { u with pc := t.pc + BitVec.ofNat 64 (4 * f.fm.words) }
  let cell : BitVec 256 := BitVec.ofNat 256 (leNat (memGetN s.mem pa 32))
  let kind (write : Bool) : AccessKind := { n := 32, align := 32, paths := [4], write }
  ((Instr.accadd f).Alone s t w → Lands s f 32 w t (kind true) (.main pa) →
    StoresAt (.accadd f) s (go t) pa (natLe 32 (cellAdd cell (match f.w2.op with
      | 0 => Fmt.fp32.decode (t.reg f.d.toNat).toNat
      | 7 => Machine.Num.ofInt (t.pair f.d.toNat).toInt
      | 8 => Fmt.fp64.decode (t.pair f.d.toNat).toNat
      | o => addendValue o.toNat (t.pair f.d.toNat))).toNat))
  ∧ ((Instr.accclr f).Alone s t w → Lands s f 32 w t (kind true) (.main pa) →
    StoresAt (.accclr f) s (go t) pa (List.replicate 32 0))
  ∧ ((Instr.accrd f).Alone s t w → Lands s f 32 w t (kind false) (.main pa) →
    Becomes (.accrd f) s (go (if f.w2.op = 0 then t.setReg f.d.toNat (BitVec.ofNat 32 (cellRead cell 0))
      else t.setPair f.d.toNat (BitVec.ofNat 64 (cellRead cell f.w2.op.toNat)))))

/-- R134, R135: a cell's sum does not depend on the order of its additions while it does not overflow, and a finite value
that is a multiple of 2^−120 is added exactly. -/
def Obligations.CellsAreExact : Prop :=
  (∀ (c : BitVec 256) (x y : Machine.Num), bit c 0 = false →
    bit (cellAdd (cellAdd c x) y) 0 = false → bit (cellAdd (cellAdd c y) x) 0 = false → bit (cellAdd c x) 0 = false →
    bit (cellAdd c y) 0 = false → bits c 7 2 = 0 →
    cellAdd (cellAdd c x) y = cellAdd (cellAdd c y) x)
  ∧ (∀ (c : BitVec 256) (neg : Bool) (k : Nat), let d : Int := if neg = true then -(k : Int) else k
      (-(2 ^ 247) : Int) ≤ cellN c + d → cellN c + d < 2 ^ 247 →
      cellN (cellAdd c (.fin neg k (2 ^ 120))) = cellN c + d ∧ bit (cellAdd c (.fin neg k (2 ^ 120))) 0 = bit c 0)

/-- R210, R228, R231, R232: a FENCE of a group completes, with no other effect on its threads than the PC; what it may change is
which stores have been performed, and that one that names ROD leaves no replica (log entries 4, 14 and 65). For a lone thread one
that releases at a scope wider than its core has the thread's stores, and those in the order of its core, performed for every
agent, and one that releases at the scope of its core has the thread's stores in that order. -/
def Sys2Proof.Certificates.Fences : Prop := ∀ (kind : BitVec 2) (sc : BitVec 3) (pm : BitVec 7) (fm : Form),
  let i : Instr := .fence kind sc pm fm
  let rod : Prop := bit pm 1 = true
  (∀ s, i.Runs s → s.queue = [] → ∃ s', exec (.fence kind sc pm fm) s = .next s'
    ∧ ∃ l, i.Did (fun _ t => t) { s with replicas := l } s'
      ∧ ((rod ∧ ∃ k ∈ s.cur.keys, ∃ t, s.thread k = some t ∧ t.guard fm = true) → l = [])
      ∧ (¬ (rod ∧ ∃ k ∈ s.cur.keys, ∃ t, s.thread k = some t ∧ t.guard fm = true) → l = s.replicas))
  ∧ ∀ s t w, i.Alone s t w → ∃ s', exec (.fence kind sc pm fm) s = .next s'
    ∧ ∃ x : State, i.Did (fun _ t => t) x s' ∧ (rod → x.replicas = [])
      ∧ (kind ≠ 0 → 2 ≤ sc.toNat → { x with replicas := s.replicas } = { s.release (s.coreOf t) t.key with replicas := s.replicas }
        ∧ ∀ q ∈ x.queue, q.by' ≠ some t.key ∧ (q.by' = none → q.core ≠ s.coreOf t))
      ∧ (kind ≠ 0 → sc.toNat ≤ 1 → (∀ p : Fin 7, bit pm p = true → p.val ≤ 2 ∧ p.val ≠ 1) →
        x = s.drainQueue t.key ∧ ∀ q ∈ x.queue, q.by' ≠ some t.key)
      ∧ (kind = 0 → (∀ p : Fin 7, bit pm p = true → p.val ≤ 2 ∧ p.val ≠ 1) → x = s)

/-- R206, R207, R208, R209: PREF completes and changes nothing but the PC. CINV of ranges that pass their check completes, and
no replica of a range is left on the executing die, or on every die at scope PKG; the stores that wait are performed (log entries
3, 14 and 65). CWB completes, and no modified line of its range is left, the stores of the core among them. ZFILL of a lone thread
completes and makes a range of plain main memory, or of the scratchpad, zero. WSQRY outside of deterministic mode completes with
the times to and of a refresh, from the die's counter, which has advanced by an amount that the model leaves free (log entry 4). -/
def Sys2Proof.Certificates.Maintenance : Prop :=
  let span (f : MemForm) : Nat := match f.w2.sz with | 0 => 64 | 1 => 1024 | _ => 65536
  let meets (f : MemForm) (pa : Nat) (r : Replica) : Prop := pa < 64 * r.line + 64 ∧ 64 * r.line < pa + span f
  (∀ (f : MemForm) s, (Instr.pref f).Runs s → ∃ s', exec (.pref f) s = .next s' ∧ (Instr.pref f).Did (fun _ t => t) s s')
  ∧ (∀ (f : MemForm) s, let n := span f
    let acts (k : Key) (l : Loc) : Prop := ∃ t w, s.thread k = some t ∧ s.wg k.wg = some w ∧ t.guard f.fm = true
      ∧ Lands s f 64 w t { n, align := n, paths := [1] } l
    let gone (r : Replica) : Prop := ∃ k ∈ s.cur.keys, ∃ pa, acts k (.main pa) ∧ meets f pa r
      ∧ ((f.w2.scope = 4 ∧ r.die < 4) ∨ f.w2.scope ≠ 4 ∧ ∃ t, s.thread k = some t ∧ r.die = dieOf (s.coreOf t))
    (Instr.cinv f).Runs s → (∀ k ∈ s.cur.keys, ∀ t, s.thread k = some t → t.guard f.fm = true → ∃ l, acts k l) → s.queue = [] →
    ∃ s', exec (.cinv f) s = .next s'
      ∧ ∃ l, (Instr.cinv f).Did (fun _ t => t) { s with replicas := l } s' ∧ ∀ r, r ∈ l ↔ r ∈ s.replicas ∧ ¬ gone r)
  ∧ (∀ (f : MemForm) s t w pa, (Instr.cinv f).Alone s t w →
    Lands s f 64 w t { n := span f, align := span f, paths := [1] } (.main pa) →
    ∃ s', exec (.cinv f) s = .next s'
      ∧ ∃ l, (Instr.cinv f).Did (fun _ t => t) { s.flushAll with replicas := l } s'
        ∧ ∀ r, r ∈ l ↔ r ∈ s.replicas
            ∧ ¬ (meets f pa r ∧ ((f.w2.scope = 4 ∧ r.die < 4) ∨ f.w2.scope ≠ 4 ∧ r.die = dieOf (s.coreOf t))))
  ∧ (∀ (f : MemForm) s t w l, let n := span f
    (Instr.cwb f).Alone s t w → Lands s f 64 w t { n, align := n, paths := [0] } l →
    ∃ s', exec (.cwb f) s = .next s'
      ∧ ∃ x : State, (Instr.cwb f).Did (fun _ t => t) x s'
        ∧ (∀ pa, l = .main pa → { x with images := [] } = { s.release (s.coreOf t) t.key with images := [] }
            ∧ ∀ i ∈ x.images, 1024 * i.block + 1024 ≤ pa ∨ pa + n ≤ 1024 * i.block)
        ∧ ((∀ pa, l ≠ .main pa) → x = s))
  ∧ (∀ (s : State) (t : Thread) (w : Workgroup) (f : MemForm), let n := span f
    let u := { t with pc := t.pc + BitVec.ofNat 64 (4 * f.fm.words) }
    let kind : AccessKind := { n, align := n, paths := [0, 2], write := true, strict := true }
    (Instr.zfill f).Alone s t w →
    (∀ pa, s.mem.wf = true → Lands s f 64 w t kind (.main pa) → Sound s t pa n →
      ∃ s', exec (.zfill f) s = .next s' ∧ Stored s s' pa (List.replicate n 0)
        ∧ Went (fun _ _ => goes u) { s with mem := s'.mem, poison := s'.poison } s')
    ∧ (∀ off, Lands s f 64 w t kind (.spad off) → w.foreign = none → Drained s t → w.spad.wf = true →
      ∃ s', exec (.zfill f) s = .next s' ∧ Went (fun _ _ => goes u)
        (s.modWg w.id (fun x => { x with
          spad := memSetN x.spad off (List.replicate n 0)
          spadErr := x.spadErr.filter (fun a => decide (a < off ∨ off + n ≤ a)) })) s'))
  ∧ (∀ (s : State) (t : Thread) (w : Workgroup) (f : MemForm) (die off : Nat), (Instr.wsqry f).Alone s t w →
      w.kernel.det = false →
      Lands s f 4 w t { n := 1, align := 1, paths := [3] } (.wst die off) → die = dieOf s.cur.core → die < 4 →
      ∃ s', exec (.wsqry f) s = .next s'
        ∧ (Instr.wsqry f).Did (fun _ t =>
            let x := ((s.tickDie die).dieNow die).toNat + 65536 * 16 - off / 2 ^ 25 % 16 * 4096
            let into := x % 65536
            if into < 2048 then (t.setReg f.d.toNat 0).setReg (f.d.toNat + 1) (BitVec.ofNat 32 (2048 - into))
            else (t.setReg f.d.toNat (BitVec.ofNat 32 (65536 - into))).setReg (f.d.toNat + 1) 2048)
          (s.tickDie die) s')

/-- R206, R207, R208, R209, R210, R228, R231, R232: FENCE, and the instructions that maintain memory (log entries 3, 4, 14
and 65). -/
def Obligations.FencesAndMaintenance : Prop := Fences ∧ Maintenance

/-- R182, R183, R185, R194: the first failing check of an access gives its fault: 0x03 where the sum leaves the base's path
and region, 0x16 for RAW, 0x02 for a write to ROD or WST, 0x04 for a path that the instruction does not accept, 0x05 where it
is not aligned, 0x03 beyond the scratchpad allotment. -/
def Sys2Proof.Certificates.AccessChecks : Prop := ∀ (s : State) (w : Workgroup) (x : Site) (k : AccessKind) (base ea : Dword),
  let path := (bits ea 63 60).toNat
  let fault (c : Byte) : Prop := ∃ r, s.checkEa w x k base ea = .error r ∧ r.code = c ∧ r.space = 1
    ∧ r.addr = (bits ea 51 0).setWidth 128 ||| ((bits ea 63 52).setWidth 128 <<< 68)
  k.fetch = false → 0 < k.align → k.align ∣ 2 ^ 52 →
  (bits ea 63 52 ≠ bits base 63 52 → fault 0x03)
  ∧ (bits ea 63 52 = bits base 63 52 →
    (6 ≤ path → fault 0x04)
    ∧ (path ≤ 5 → path ∉ k.paths →
        fault (if path = 5 then 0x16 else if k.strict = true ∧ (path = 1 ∨ path = 3) then 0x02 else 0x04))
    ∧ (path ≤ 5 → path ∈ k.paths → (bits ea 51 0).toNat % k.align ≠ 0 → fault 0x05)
    ∧ (path = 2 → 2 ∈ k.paths → (bits ea 51 0).toNat % k.align = 0 →
        ((bits ea 59 52 ≠ 0 ∨ w.spadSize < (bits ea 51 0).toNat + k.n) → fault 0x03)
        ∧ (bits ea 59 52 = 0 → (bits ea 51 0).toNat + k.n ≤ w.spadSize →
            s.checkEa w x k base ea = .ok ⟨.spad (bits ea 51 0).toNat, false⟩)))

/-- R188, R189, R190: the four-level walk: three valid non-leaf entries and a valid leaf at level 3 give the frame and the
attributes; an entry with V = 0, a leaf at level 0 or a non-leaf at level 3 gives none. -/
def Sys2Proof.Certificates.PageWalk : Prop := ∀ (s : State) (root : Nat) (va : BitVec 80),
  let e (table lo : Nat) : Dword := s.pte table (va.toNat / 2 ^ lo % 8192)
  let nextOk (x : Dword) : Prop := bit x 0 = true ∧ bit x 7 = false ∧ bits x 63 60 = 0 ∧ bits x 6 1 = 0 ∧ bits x 15 8 = 0
    ∧ bits x 59 52 = 0
  let down (x : Dword) : Nat := (bits x 51 16).toNat * 65536
  let e0 := e root 55
  let e1 := e (down e0) 42
  let e2 := e (down e1) 29
  let e3 := e (down e2) 16
  (nextOk e0 → nextOk e1 → nextOk e2 → bit e3 0 = true → bit e3 7 = true → bits e3 63 60 = 0 →
    (bit e3 5 = true → bits e3 59 52 = 0xFF) → (bit e3 3 = true → bit e3 4 = false ∧ bit e3 6 = false) →
    s.walk root va = some { pa := (bits e3 51 16).toNat * 65536 + va.toNat % 65536, pkg := (bits e3 59 52).toNat
                            region := (bits e3 15 8).toNat, graph := bit e3 6, host := bit e3 5, cmp := bit e3 4
                            ord := bit e3 3, x := bit e3 2, w := bit e3 1 })
  ∧ (bit e0 0 = false ∨ bit e0 7 = true → s.walk root va = none)
  ∧ (nextOk e0 → bit e1 0 = false → s.walk root va = none)
  ∧ (nextOk e0 → nextOk e1 → bit e2 0 = false → s.walk root va = none)
  ∧ (nextOk e0 → nextOk e1 → nextOk e2 → (bit e3 0 = false ∨ bit e3 7 = false) → s.walk root va = none)

/-- R182, R183, R185, R188, R189, R190, R194: the checks of an access and the walk of the page table. -/
def Obligations.AddressTranslation : Prop := AccessChecks ∧ PageWalk

/-- R75: a group whose threads' guards are all false does nothing at a memory instruction but go on, without a check, an
access or a fault. -/
def Obligations.GuardFalseMemory : Prop := ∀ (f : MemForm) (i : Instr),
  (i = .ld f ∨ i = .lda f ∨ i = .st f ∨ i = .str f ∨ i = .atom f ∨ i = .acas f ∨ i = .accadd f ∨ i = .accrd f
    ∨ i = .accclr f ∨ i = .cinv f ∨ i = .cwb f ∨ i = .zfill f) →
  f.fm.guard.2.2 = false →
  ∀ s, s.cur.keys.Nodup → (∀ j ∈ s.joins, ∀ k ∈ s.cur.keys, k ∉ j.waiting) →
    (∀ k ∈ s.cur.keys, ∃ t w, s.thread k = some t ∧ s.wg k.wg = some w ∧ s.steps w = false ∧ t.guard f.fm = false) →
    ∃ s', exec i s = .next s' ∧ i.Did (fun _ t => t) s s'

/-- R36, R37, R257: BARA and BAR record an arrival; BAR waits for its generation. The last live participant's arrival makes
the next generation and lets every waiting thread go on at its next PC. BARW waits for the generation of the outstanding
arrival, or goes on if it has passed. An id with an outstanding arrival, a scope that the launch does not name, and a BARW
without an arrival raise 0x07. -/
def Obligations.Barriers : Prop := ∀ (s : State) (t : Thread) (w : Workgroup) (scope : BitVec 3) (id : BitVec 4) (fm : Form),
  1 ≤ scope.toNat → scope.toNat ≤ 5 →
  let k : BarKey :=
    { scope := scope.toNat
      owner := if scope = 1 then (w.id, 0, 0) else (vfOfCtx w.ctxn, w.launch.toNat, w.gang)
      inst := if scope = 2 then w.core / 4 else if scope = 3 then w.core / 64 else if scope = 4 then s.pkg else 0
      id := id.toNat }
  let b := s.bar k
  let came : Barrier := { b with arrived := b.arrived ++ [t.key] }
  let x : State := { s with bars := s.bars.filter (fun y => y.key != k) ++ [came] }
  let next := t.pc + BitVec.ofNat 64 (4 * fm.words)
  let named : Prop := scope = 1 ∨ scope.toNat ≤ w.kernel.gang
  let own (a : BarKey × Nat) : Bool := a.1.scope == scope.toNat && a.1.id == id.toNat
  let free : Prop := ∀ a ∈ t.arrived, own a = false
  let quiet : Prop := ∀ y ∈ s.bars, y.key ≠ k → s.barFull (s.bar y.key) = false
  let u : Thread := { t with arrived := t.arrived ++ [(k, b.gen)] }
  let blocked : Thread := { u with status := .blocked (.barrier k b.gen next), insn := s.cur.insn }
  let goesOn (v : Thread) : Thread := match v.status with
    | .blocked (.barrier k' g n) =>
      if k' = k ∧ g = b.gen then { v with pc := n, arrived := v.arrived.filter (fun a => a.1 != k) } else v
    | _ => v
  let completes (i : Instr) (mine : Thread) : Prop :=
    ∃ s' : State, exec i s = .next s' ∧ s'.bar k = { b with gen := b.gen + 1, arrived := [] } ∧ s'.mem = s.mem ∧ s'.wgs = s.wgs
      ∧ ∀ v ∈ (s.setThread mine).threads, ∃ st, s'.thread v.key = some { goesOn v with status := st }
        ∧ ((∃ n, v.status = .blocked (.barrier k b.gen n)) → st = .filed ∨ st = .ready)
  ((named → free → quiet → (∃ y ∈ s.barWgs k, ∃ v ∈ s.live y.id, v.key ∉ came.arrived) →
      ((Instr.bara scope id fm).Alone s t w → Acts (.bara scope id fm) s t u x)
      ∧ ((Instr.bar scope id fm).Alone s t w → exec (.bar scope id fm) s = .next (x.setThread blocked)))
  ∧ (named → free → quiet → (∀ y ∈ s.barWgs k, ∀ v ∈ s.live y.id, v.key ∈ came.arrived) → s.barSaved k = false →
      s.barAbroad k = false →
      (s.threads.map Thread.key).Nodup → (∀ v ∈ s.threads, ∃ y, s.wg v.wg = some y ∧ s.steps y = false) →
      ((Instr.bara scope id fm).Alone s t w → completes (.bara scope id fm) { u with pc := next, status := .ready })
      ∧ ((Instr.bar scope id fm).Alone s t w → completes (.bar scope id fm) blocked))
  ∧ ((Instr.barw scope id fm).Alone s t w → named → ∀ k' g, t.arrived.find? own = some (k', g) →
      (g < (s.bar k').gen → Acts (.barw scope id fm) s t { t with arrived := t.arrived.filter (fun a => a.1 != k') } s)
      ∧ ((s.bar k').gen ≤ g → Waits (.barw scope id fm) s t (.barrier k' g next)))
  ∧ (¬ named ∨ ¬ free → ∀ i, (i = .bara scope id fm ∨ i = .bar scope id fm) → i.Alone s t w →
      exec i s = .next ((s.raiseCur t.key { code := 0x07 }).settleBars))
  ∧ (¬ named ∨ free → (Instr.barw scope id fm).Alone s t w → Raises (.barw scope id fm) s t { code := 0x07 }))

/-- R239, R240, R242, R258, R259, R260, R443: TARM arms an EMPTY entry for a range of the scratchpad, of held slots or for scale
packets, which makes the entry good again, TWAIT waits for READY or for a phase and delivers ERR, TDONE empties a READY entry or
leaves it DRAINING while a queued operation reads it, and TSTAT reads the entry's fields. An entry with an uncorrectable error
gives the fault of ERR 0x1 at TWAIT, and a late one at TSTAT, which logs it. -/
def Obligations.TileEntries : Prop := ∀ (s : State) (t : Thread) (w : Workgroup) (n : Nat) (e : Tile),
  w.tiles[n]? = some e → t.seen = none →
  (∀ f : V3, (Instr.tarm f).Alone s t w → n = f.d.toNat →
    let a := f.srcA w t
    let b := (f.srcB w t).toNat
    let size := (bits a 29 16).toNat
    let base := (bits a 12 0).toNat
    let arms (kind : TileKind) (cap : Nat) : Prop := b ≤ cap →
      (e.state = .empty → Acts (.tarm f) s t t { s.modTile w.id n (fun _ =>
          { oor := 0, arrived := 0, claimed := 0, expected := b, phase := if b = 0 then !e.phase else e.phase,
            state := if b = 0 then .ready else .filling, err := 0, kind, size, base }) with
          ecc := s.ecc.filter (fun x => decide (x ≠ .tile w.id n)) })
      ∧ (e.state = .filling ∨ e.state = .ready → Raises (.tarm f) s t { code := 0x07 })
    bits a 15 13 = 0 →
    (bits a 31 30 = 0 → 1 ≤ size → size ≤ 8192 → 64 * (base + size) ≤ w.spadSize → arms .spad (64 * size))
    ∧ (bits a 31 30 = 1 → 1 ≤ size → base + size ≤ 64 → (∀ j, j < size → (base + j, w.id) ∈ (s.core w.core).slotHolder) →
        arms .slots (16384 * size))
    ∧ (bits a 31 30 = 2 → size = 0 → base = 0 →
        (∀ y ∈ s.wgs, y.id ≠ w.id → y.core = w.core → ∀ z ∈ y.tiles, z.kind = .fifo → z.state = .empty) → arms .fifo 8192))
  ∧ (∀ ph phw (tile : BitVec 6) fm, (Instr.twait ph phw tile fm).Alone s t w → n = tile.toNat →
    let holds : Prop := if phw = true then e.phase = ph else e.state = .ready
    (holds → e.err = 0 → Ecc.tile w.id n ∉ s.ecc → Acts (.twait ph phw tile fm) s t t s)
    ∧ (holds → e.err ≠ 0 → Ecc.tile w.id n ∉ s.ecc → Raises (.twait ph phw tile fm) s t (errFault n e.err))
    ∧ (holds → Ecc.tile w.id n ∈ s.ecc → Raises (.twait ph phw tile fm) s t (errFault n 1))
    ∧ (¬ holds → Waits (.twait ph phw tile fm) s t
        (.tile n (if phw = true then some ph else none) (t.pc + BitVec.ofNat 64 (4 * fm.words)))))
  ∧ (∀ (tile : BitVec 6) fm, (Instr.tdone tile fm).Alone s t w → n = tile.toNat →
    (e.state = .ready → (∀ o ∈ s.ops, o.wg = w.id → o.body.readsTile n = false) →
      Acts (.tdone tile fm) s t t (s.modWg w.id (fun y => { y with
        tiles := y.tiles.modify n (fun e => { e with state := .empty, arrived := 0, claimed := 0 })
        packets := y.packets.filter (fun p => p.tile != n || p.reserved.isSome) })))
    ∧ (e.state = .ready → (∃ o ∈ s.ops, o.wg = w.id ∧ o.body.readsTile n = true) →
      Acts (.tdone tile fm) s t t (s.modTile w.id n (fun e => { e with state := .draining })))
    ∧ (e.state ≠ .ready → Raises (.tdone tile fm) s t { code := 0x07 }))
  ∧ (∀ (f : RI8) kd, (Instr.tstat f kd).Alone s t w → n = f.imm.toNat → w.kernel.det = false →
    (kd = false → t.tidx ≠ 0xFFFF → Ecc.tile w.id n ∉ s.ecc → Acts (.tstat f kd) s t
      ((t.setPair f.d.toNat (bits e.image 63 0)).setPair (f.d.toNat + 2) (bits e.image 127 64)) s)
    ∧ (kd = true → Ecc.tile w.id n ∉ s.ecc → Acts (.tstat f kd) s t t (s.modWg w.id (fun y =>
        let sl := decide (t.tidx = 0xFFFF)
        kwrite (kwrite y sl f.d.toNat (bits e.image 63 0)) sl (f.d.toNat + 1) (bits e.image 127 64))))
    ∧ ((kd = false → t.tidx ≠ 0xFFFF) → Ecc.tile w.id n ∈ s.ecc → Acts (.tstat f kd) s t
        { t with late := t.late ++ [{
            fault := { errFault n 1 with site := some (t.pc, s.cur.insn) }, dest := if kd = true then (0, 0) else (f.d.toNat, 4)
            pd := none, kd := if kd = true then some f.d.toNat else none }] }
        (s.logEcc .tile (dieOf w.core) (w.ctxn / 16 + 1) n)))
  ∧ (e.oor < 2 ^ 16 → e.arrived < 2 ^ 21 → e.claimed < 2 ^ 21 → e.expected < 2 ^ 21 → e.err < 4 → e.size < 2 ^ 14 →
      e.base < 2 ^ 13 →
      (bits e.image 127 112).toNat = e.oor ∧ (bits e.image 111 91).toNat = e.arrived ∧ (bits e.image 90 70).toNat = e.claimed
      ∧ (bits e.image 69 49).toNat = e.expected ∧ bit e.image 48 = e.phase
      ∧ (bits e.image 47 46).toNat = (match e.state with | .empty => 0 | .filling => 1 | .ready => 2 | .draining => 3)
      ∧ (bits e.image 45 44).toNat = e.err
      ∧ (bits e.image 31 30).toNat = (match e.kind with | .spad => 0 | .slots => 1 | .fifo => 2)
      ∧ (bits e.image 29 16).toNat = e.size ∧ (bits e.image 12 0).toNat = e.base)

/-- R246, R252, R253: QFENCE and QWAIT go on when the queues hold no more of the workgroup's operations than they allow,
and wait otherwise; XLTLD loads the table of 256 halfwords; TIDSET and TIDGET move an entry of 256 bytes between the
scratchpad and the tensor table. -/
def Obligations.QueuesAndTables : Prop := ∀ (s : State) (t : Thread) (w : Workgroup), t.seen = none →
  (∀ qmask fm, (Instr.qfence qmask fm).Alone s t w →
    let mine := s.ops.filter (fun o => o.wg == w.id && bit qmask o.q)
    (mine = [] → Acts (.qfence qmask fm) s t t s)
    ∧ (mine ≠ [] → Waits (.qfence qmask fm) s t (.ops (mine.map (·.id)) (t.pc + BitVec.ofNat 64 (4 * fm.words)))))
  ∧ (∀ n q fm, (Instr.qwait n q fm).Alone s t w →
    let mine := s.ops.filter (fun o => o.wg == w.id && o.q == q.toNat)
    (mine.length ≤ n.toNat → Acts (.qwait n q fm) s t t s)
    ∧ (n.toNat < mine.length →
        Waits (.qwait n q fm) s t (.queue q.toNat n.toNat (t.pc + BitVec.ofNat 64 (4 * fm.words)))))
  ∧ (∀ (f : V3) b, (Instr.xltld f).Alone s t w → InSpad w (f.srcA w t).toNat 512 64 b →
    (∀ o ∈ s.ops, o.wg = w.id → o.body.isXlt = false) →
    Acts (.xltld f) s t t (s.modWg w.id (fun y =>
      { y with xlt := (List.range 256).map (fun j => b.getD (2 * j + 1) 0 ++ b.getD (2 * j) 0) })))
  ∧ (∀ (f : V3) d, (s.ctx w.ctxn).desc = some d → bits (f.srcA w t) 31 12 = 0 →
    let pa := d.tit + 256 * (f.srcA w t).toNat
    (∀ b, (Instr.tidset f).Alone s t w → InSpad w (f.srcB w t).toNat 256 16 b → s.mem.wf = true → s.isCmp pa = false →
      pa % 256 = 0 → (bit (b.getD 1 0) 6 = false ∨ tensorOk b = true) →
      StoresAt (.tidset f) s { t with pc := t.pc + BitVec.ofNat 64 (4 * f.fm.words) } pa b)
    ∧ ((Instr.tidget f).Alone s t w → (f.srcB w t).toNat % 16 = 0 → (f.srcB w t).toNat + 256 ≤ w.spadSize → Drained s t →
      pa % 256 = 0 → s.isCmp pa = false →
      (∀ a ∈ s.poison, a < pa ∨ pa + 256 ≤ a) →
      StoresSpad (.tidget f) s w { t with pc := t.pc + BitVec.ofNat 64 (4 * f.fm.words) } (f.srcB w t).toNat
        ((List.range 256).map (fun i => memGet s.mem (pa + i)))))
  ∧ (∀ f : V3, bits (f.srcA w t) 31 12 ≠ 0 →
    ((Instr.tidset f).Alone s t w → Raises (.tidset f) s t { code := 0x0F })
    ∧ ((Instr.tidget f).Alone s t w → Raises (.tidget f) s t { code := 0x0F }))

/-- R247, R248, R249, R250: a copy passes its checks, claims its bytes from the completion tile and joins its queue with the
elements that it will move. An element of a copy into a tile goes to the place of the tile that its index names, from DOFF (TR8
and TR16 exchange two dimensions of the index); its source is the element at its coordinates, or none outside of the tensor,
where it writes the padding. -/
def Sys2Proof.Certificates.Copies : Prop :=
  (∀ (s : State) (t : Thread) (w : Workgroup) (f : V3) (rel : BitVec 3) (i : Instr) (gather : Bool) (b : List Byte) (x : Tensor)
      (idx : Option (List Int)) (dt ct : Tile) (ms : List Move),
    (i = .tcopy f rel ∧ gather = false ∨ i = .tcopyg f rel ∧ gather = true) → i.Alone s t w → t.seen = none →
    let q := f.d.toNat
    let d := copyDesc b
    let ctn := if d.out = true then d.ctile else d.dtile
    let n := d.nibbles x / 2
    q < 4 → s.queueLen w.core q < 32 → InSpad w (f.srcA w t).toNat 64 64 b → d.ok = true →
    s.tensor w d.tid = .ok x → (gather = false → idx = none) →
    (gather = true → ∃ l, idx = some l ∧ gatherIndices w d x = .ok l) →
    w.tiles[d.dtile]? = some dt → w.tiles[ctn]? = some ct → (d.out = true → dt.state = .ready ∧ dt.err = 0 ∧ Ecc.tile w.id d.dtile ∉ s.ecc) →
    d.fits x dt.kind = true → d.doff + n ≤ dt.bytes → ct.state = .filling → ct.claimed + n ≤ ct.expected →
    s.movesFrom w d x dt (copyCoords d x idx) = .ok ms → (d.out = true → ∃ m ∈ ms, m.dst ≠ none) →
    Acts i s t t
      { s.modTile w.id ctn (fun e => { e with claimed := e.claimed + n }) with
        ops := s.ops ++ [{ id := s.fresh, core := w.core, q, wg := w.id, issuer := t.tidx, started := false, err := 0
                           body := .copy (joinMeta ms) (if d.xlt = true then some w.xlt else none) d.dtile ctn d.out d.scl d.stag n
                             (((idx.getD []).filter (fun j => decide (j < 0 ∨ (x.ext.getD (x.rank - 1) 0 : Int) ≤ j))).length) }] })
  ∧ ∀ (s : State) (w : Workgroup) (d : CopyDesc) (x : Tensor) (tl : Tile) (idx : Option (List Int)) (ms : List Move),
    let cs := copyCoords d x idx
    s.movesFrom w d x tl cs = .ok ms → d.out = false → x.fmt ≠ 9 → tl.kind ≠ .fifo →
    let size := if d.xlt = true then 2 else fmtBits x.fmt / 8
    let start := if tl.kind = .spad then 64 * tl.base else 16384 * tl.base
    let at' (n : Nat) : Loc := if tl.kind = .spad then .spad n else .slot n
    ms.length = d.box.prod ∧
    ∀ k, k < ms.length → ∀ p c z m, (boxPlaces d.box)[k]? = some p → (cs[k]?).map (·.2) = some (c, z) → ms[k]? = some m →
      let n := if d.tr = true ∨ d.tr16 = true then placeIndex (swap01 d.box) (swap01 p) else k
      m.dst = some (at' (start + d.doff + n * size)) ∧ m.dstHalf = none
      ∧ ((z = true ∨ inside x c = none) → m.src = none
          ∧ m.pad = if z = true then 0 else d.pad % 2 ^ (if d.xlt = true then 16 else fmtBits x.fmt))
      ∧ (z = false → ∀ y, inside x c = some y → ∃ l, m.src = some l
          ∧ s.elemLoc w false d.raw (fmtBits x.fmt / 8)
              (x.base + BitVec.ofNat 80 ((List.zipWith (· * ·) y x.stride).sum * (fmtBits x.fmt / 8))) = .ok l)

/-- R242, R248, R251: the copy at the head of a queue starts; a started copy whose elements come from plain main memory and
go to the scratchpad moves every byte, its bytes arrive at the completion tile, and it leaves the queue.
The model's own choice: OOR grows at the end of the copy (log entry 63). -/
def Sys2Proof.Certificates.CopyEngine : Prop := ∀ (s : State) (core q : Nat) (o : Op) (w : Workgroup),
  q < 4 → s.headOp core q = some o → s.wg o.wg = some w →
  (∀ ms x dt ct out scl stag n oor, o.body = .copy ms x dt ct out scl stag n oor → o.started = false → needRemote ms = false →
    exec (.copyStart core q) s = .next { s with ops := s.ops.map (fun x => if x.id = o.id then { o with started := true } else x) })
  ∧ (∀ (src : Nat → Nat) (off size count dt ct n oor : Nat) stag,
    o.body = .copy ((List.range count).map (fun k =>
      { src := some (.main (src k)), pad := 0, dst := some (.spad (off + k * size)), size, srcHalf := none, dstHalf := none }))
      none dt ct false false stag n oor →
    o.started = true → o.counted = 0 → s.opWaits o = false → 0 < size → w.spad.wf = true →
    (∀ k, k < count → (∀ i, i < size → s.isCmp (src k + i) = false) ∧ s.reaches (dieOf core) (homeDie (src k)) = true
      ∧ ∀ a ∈ s.poison, a < src k ∨ src k + size ≤ a) →
    ∃ (s' : State) (y : Workgroup), exec (.copyComplete core q) s = .next s' ∧ s'.wg o.wg = some y
      ∧ Holds w.spad y.spad off (count * size) (fun i => memGet s.mem (src (i / size) + i % size))
      ∧ y = { w with
          spad := y.spad
          spadErr := y.spadErr
          tiles := (w.tiles.modify dt (fun e => { e with oor := min 0xFFFF (e.oor + oor) })).modify ct (fun e => arrived e n) }
      ∧ s' = { s with ops := s.ops.filter (fun x => x.id != o.id), wgs := s'.wgs, fresh := s'.fresh }
      ∧ ∀ k, k ≠ o.wg → s'.wg k = s.wg k)

/-- R242, R247, R248, R249, R250, R251: a copy as its issue leaves it, and its completion. -/
def Obligations.CopyOperations : Prop := Copies ∧ CopyEngine

/-- R261, R262: a collective that passes its checks joins the collective of its gang, GID and turn as one more participant,
claims the bytes of its destination, and its operation joins queue 6; COLLW waits for its tile besides. -/
def Sys2Proof.Certificates.Collectives : Prop := ∀ (s : State) (t : Thread) (w : Workgroup) (f : V3) (b : List Byte) (src dst : Tensor) (ct : Tile)
    (rs ws : List Move),
  let d := collDesc b
  InSpad w (f.srcA w t).toNat 64 64 b → d.ok w = true → s.tensor w d.src = .ok src → s.tensor w d.dst = .ok dst →
  d.fits src dst = true → w.tiles[d.ctile]? = some ct → ct.state = .filling → ct.claimed + dst.bytes ≤ ct.expected →
  s.wholeMoves w src false (boxPlaces src.ext) = .ok rs → s.wholeMoves w dst true (boxPlaces dst.ext) = .ok ws →
  let c := s.collOf w d.gid (w.colls.getD d.gid 0)
  let joins (x : State) : Prop :=
    x.wgs = s.wgs.map (fun y => if y.id = w.id then
      { y with tiles := y.tiles.modify d.ctile (fun e => { e with claimed := e.claimed + dst.bytes })
               colls := y.colls.set d.gid (y.colls.getD d.gid 0 + 1) } else y)
    ∧ x.ops = s.ops ++ [{ id := s.fresh + 1, core := w.core, q := 6, wg := w.id, issuer := t.tidx, started := false, err := 0
                          body := .copy rs none d.ctile d.ctile false false 0 dst.bytes 0 }]
    ∧ (∃ c' ∈ x.colls, c'.id = c.id ∧ c'.gang = c.gang ∧ c'.gid = c.gid ∧ c'.size = c.size
        ∧ ∃ p, c'.parts = c.parts ++ [p] ∧ p.wg = w.id ∧ p.index = w.lin.toNat - w.gang * w.kernel.gsize ∧ p.op = d.op
          ∧ p.root = d.root ∧ p.writes = ws)
    ∧ x = { s with wgs := x.wgs, ops := x.ops, colls := x.colls, fresh := s.fresh + 2 }
  ((Instr.coll f).Alone s t w → ∃ x, joins x ∧ Acts (.coll f) s t t x)
  ∧ ((Instr.collw f).Alone s t w → ∃ x, joins x ∧ exec (.collw f) s = .next (x.setThread
      { t with status := .blocked (.tile d.ctile none (t.pc + BitVec.ofNat 64 (4 * f.fm.words))), insn := s.cur.insn }))

/-- R137, R262: once every participant has issued it, a collective completes. A broadcast gives each destination the root's
source; a reduction over whole tensors gives it, element by element, the exact sum of the participants' values, rounded once.
Participants that disagree in OP complete with ERR 0x3, and nothing is written. -/
def Sys2Proof.Certificates.CollectiveCompletion : Prop := ∀ (s : State) (c : Coll) (sh : Shape) (n size dsize fmt : Nat)
    (src dst tile : CollPart → Nat),
  Gathered s c sh n size dsize fmt src dst tile →
  let value (p : CollPart) (k : Nat) : Dword :=
    BitVec.ofNat 64 (leNat ((List.range size).map (fun i => memGet s.mem (src p + k * size + i))))
  (∀ root q, (∀ p ∈ c.parts, p.op = 2 ∧ p.root = root) → c.parts.find? (fun q => q.index == root) = some q → dsize = size →
    ∃ s', exec (.collectiveComplete c.id) s = .next s'
      ∧ Completed s s' c n size 0 dst tile (some (fun i => memGet s.mem (src q + i))))
  ∧ (∀ dfmt, (∀ p ∈ c.parts, p.op = 4 ∧ p.dstFmt = dfmt) → size ≤ 8 →
    ∃ s', exec (.collectiveComplete c.id) s = .next s'
      ∧ Completed s s' c n dsize 0 dst tile (some (fun i => BitVec.ofNat 8 (cellRead
          (c.parts.foldl (fun x p => cellAdd x (addendValue fmt (value p (i / dsize)))) 0) dfmt / 256 ^ (i % dsize)))))
  ∧ (∀ p ∈ c.parts, ∀ q ∈ c.parts, p.op ≠ q.op →
    ∃ s', exec (.collectiveComplete c.id) s = .next s' ∧ Completed s s' c n dsize 3 dst tile none)

/-- R137, R261, R262: a collective as its issue leaves it, and its completion. -/
def Obligations.CollectiveOperations : Prop := Collectives ∧ CollectiveCompletion

/-- R268, R280: OCLAIM of a lone thread grants the lowest run of free slots, or the lowest free accumulator tiles, set to
zero, writes the first slot or the mask, and sets PD; what exceeds the core raises 0x14; what is not free now, or has earlier
claims before it, waits as a claim. With KD the result is a k register's. -/
def Sys2Proof.Certificates.Claims : Prop := ∀ (s : State) (t : Thread) (w : Workgroup) (f : RI8) (kd : Bool) (pd : PReg),
  (Instr.oclaim f kd pd).Alone s t w → t.status = .ready → (kd = false → t.tidx ≠ 0xFFFF) →
  (s.threads.map Thread.key).Nodup →
  let n := (bits f.imm 6 0).toNat
  let c := s.core w.core
  let slotFree (j : Nat) : Bool := decide (j < 64) && c.slotHolder.all (fun p => p.1 != j)
  let accFree (j : Nat) : Bool := decide (j < 8) && c.accHolder.all (fun p => p.1 != j)
  let fits (b : Nat) : Bool := (List.range n).all (fun j => slotFree (b + j))
  let gets (v : Nat) (x : State) : Prop :=
    if kd = true then Acts (.oclaim f kd pd) s t { t.setPred pd true with insn := s.cur.insn }
      (x.modWg w.id (fun y => kwrite y (decide (t.tidx = 0xFFFF)) f.d.toNat (BitVec.ofNat 64 v)))
    else Acts (.oclaim f kd pd) s t ((t.setReg f.d.toNat (BitVec.ofNat 32 v)).setPred pd true) x
  let waits (acc : Bool) : Prop := exec (.oclaim f kd pd) s = .next
    (({ s with claims := s.claims ++ [{ id := s.fresh, core := w.core, wg := w.id, acc, count := n, kd, d := f.d.toNat, pd,
                                        keys := [t.key], next := t.pc + BitVec.ofNat 64 (4 * f.fm.words) }]
               fresh := s.fresh + 1 } : State).setThread { t with status := .blocked (.oclaim s.fresh), insn := s.cur.insn })
  let others : Prop := ∃ y ∈ s.claims, y.core = w.core
  (bit f.imm 7 = false →
    (64 < n + (s.heldSlots w).length → Raises (.oclaim f kd pd) s t { code := 0x14 })
    ∧ (n + (s.heldSlots w).length ≤ 64 → ¬ others → ∀ b, b < 64 → fits b = true → (∀ b', b' < b → fits b' = false) →
        ∃ m, Zeroed s.opmem m (w.core * 2 ^ 20 + 16384 * b) (16384 * n) ∧ gets b
          { s.setCore { c with slotHolder := c.slotHolder ++ (List.range n).map (fun j => (j + b, w.id)) } with
            opmem := m
            ecc := s.ecc.filter (fun e => match e with
              | .slot a => decide (a < w.core * 2 ^ 20 + 16384 * b ∨ w.core * 2 ^ 20 + 16384 * (b + n) ≤ a)
              | _ => true) })
    ∧ (n + (s.heldSlots w).length ≤ 64 → (others ∨ ∀ b, b < 64 → fits b = false) → waits false))
  ∧ (bit f.imm 7 = true →
    let l := ((List.range 8).filter accFree).take n
    (8 < n + (s.heldAccs w).length → Raises (.oclaim f kd pd) s t { code := 0x14 })
    ∧ (n + (s.heldAccs w).length ≤ 8 → ¬ others → l.length = n →
        ∃ m, (∀ i, memGet m i = if (∃ j ∈ l, w.core * 2 ^ 18 + 32768 * j ≤ i ∧ i < w.core * 2 ^ 18 + 32768 * (j + 1)) then 0
            else memGet s.accmem i)
          ∧ gets ((l.map (2 ^ ·)).sum)
            { s.setCore { c with accHolder := c.accHolder ++ l.map (fun j => (j, w.id)) } with
              accmem := m
              ecc := s.ecc.filter (fun e => match e with
                | .acc a => l.all (fun j => decide (a < w.core * 2 ^ 18 + 32768 * j ∨ w.core * 2 ^ 18 + 32768 * (j + 1) ≤ a))
                | _ => true) })
    ∧ (n + (s.heldAccs w).length ≤ 8 → (others ∨ l.length ≠ n) → waits true))

/-- R281, R282: OREL of a lone thread gives back what the workgroup holds and nothing uses, waits while a queued operation
uses it, and raises 0x07 for what it does not hold or what a tile covers; MSTAT gives the workgroup's holdings and
matrix count, OQRY the free slots, their longest run and the free accumulator tiles. -/
def Sys2Proof.Certificates.ReleaseAndQuery : Prop :=
  (∀ (s : State) (t : Thread) (w : Workgroup) (f : RI8), (Instr.orel f).Alone s t w → t.seen = none →
    let a := (f.srcA w t).toNat
    let n := (bits f.imm 6 0).toNat
    let c := s.core w.core
    let acc := bit f.imm 7
    let slots := if acc = true then [] else (List.range n).map (· + a)
    let accs := if acc = true then (List.range 8).filter (fun j => a.testBit j) else []
    let holds : Prop := (if acc = true then a < 256 else a + n ≤ 64)
      ∧ (∀ j ∈ slots, (j, w.id) ∈ c.slotHolder) ∧ ∀ j ∈ accs, (j, w.id) ∈ c.accHolder
    let covered : Prop := ∃ e ∈ w.tiles, e.kind = .slots ∧ e.state ≠ .empty ∧ ∃ j ∈ slots, e.base ≤ j ∧ j < e.base + e.size
    (¬ holds ∨ covered → Raises (.orel f) s t { code := 0x07 })
    ∧ (holds → ¬ covered → s.inUse w.id slots accs = true → exec (.orel f) s = .next (s.setThread
        { t with status := .blocked (.gate (.unused slots accs)), seen := some (natLe 4 a), insn := s.cur.insn }))
    ∧ (holds → ¬ covered → s.inUse w.id slots accs = false → Acts (.orel f) s t t (s.setCore
        { c with slotHolder := c.slotHolder.filter (fun p => !slots.contains p.1)
                 accHolder := c.accHolder.filter (fun p => !accs.contains p.1) })))
  ∧ (∀ f : V3, GivesIf (.mstat f) (fun _ _ _ => True) (fun s w t => t.setReg f.d.toNat
      (BitVec.ofNat 32 (((s.heldAccs w).map (2 ^ ·)).sum + 256 * (s.heldSlots w).length + 65536 * (w.mmas % 65536)))))
  ∧ (∀ f : V3, GivesIf (.oqry f) (fun _ w _ => w.kernel.det = false) (fun s w t =>
      let free (j : Nat) : Bool := decide (j < 64) && (s.core w.core).slotHolder.all (fun p => p.1 != j)
      let run := largest (fun n => (List.range 64).any (fun b => (List.range n).all (fun j => free (b + j)))) 65
      t.setReg f.d.toNat (BitVec.ofNat 32 ((List.range 64).countP free + 256 * run
        + 65536 * (List.range 8).countP (fun j => (s.core w.core).accHolder.all (fun p => p.1 != j))))))

/-- R268, R280, R281, R282: claims, releases and queries of slots and accumulators. -/
def Obligations.SlotClaims : Prop := Claims ∧ ReleaseAndQuery

/-- R273, R274, R293, R294, R295: MMA and MMAS of a lone thread whose block, tensors, holdings, tiles and packets pass the
checks claim 64 bytes of the completion tile, reserve their packets, count, and join the matrix queue with what they
captured. A keep-mask without exactly four bits raises 0x09, after the holdings (log entry 70), a packet that does not fit 0x08,
and a full queue waits. The masks of an MMAS wait for a KLD of one of its registers (R61). -/
def Obligations.MatrixMultiply : Prop :=
  ∀ (s : State) (t : Thread) (w : Workgroup) (f : V3) (blk : List Byte) (a b : Tensor) (ct : Tile) (i : Instr) (sparse : Bool),
  (i = .mma f ∧ sparse = false ∨ i = .mmas f ∧ sparse = true) → i.Alone s t w → t.seen = none → Intact s w →
  let p := mmaBlock sparse blk
  let masks : List Byte := (List.range (16 * p.kch)).map (fun j =>
    BitVec.ofNat 8 ((kread w t (f.b.toNat + j / 8)).toNat / 256 ^ (j % 8)))
  let four : Prop := ∀ x ∈ masks, (List.range 8).countP (fun j => bit x j) = 4
  let q := w.packets.filter (fun x => x.tile == p.stile && x.reserved.isNone)
  let n := (if p.asc = true then 1 else 0) + (if p.bsc = true then 1 else 0)
  (16 ≤ s.queueLen w.core 4 → exec i s = .next (s.setThread
    { t with status := .blocked (.gate (.queueRoom w.core 4)), seen := some [], insn := s.cur.insn }))
  ∧ (s.queueLen w.core 4 < 16 → InSpad w (f.srcA w t).toNat 128 128 blk → p.clean = true →
    s.tensor w p.atid = .ok a → s.tensor w p.btid = .ok b → p.pairs sparse a.fmt b.fmt = true → s.mmaHolds w p = true →
    (sparse = true → f.b.toNat + 2 * p.kch ≤ 64) →
    let comes (x : KPending) : Prop := x.wg = w.id ∧ x.slice = t.key.isSlice ∧ f.b.toNat ≤ x.k ∧ x.k < f.b.toNat + 2 * p.kch
    (∀ x, sparse = true → s.kloads.find? (fun x => decide (comes x)) = some x → exec i s = .next
        { s.setThread { t with status := .data (.kdata t.key.isSlice x.k s.cur.id), insn := s.cur.insn } with
          joins := s.joins ++ [⟨s.cur.core, [t.key], [], []⟩] })
    ∧ (sparse = true → (∀ x ∈ s.kloads, ¬ comes x) → ¬ four → Raises i s t { code := 0x09 })
    ∧ ((sparse = true → (∀ x ∈ s.kloads, ¬ comes x) ∧ four) →
        (∀ x ∈ [p.atile, p.btile] ++ (if p.asc = true ∨ p.bsc = true then [p.stile] else []),
          ∃ e, w.tiles[x]? = some e ∧ e.state = .ready ∧ e.err = 0) →
        (∀ pa q1 pb q2, nextPacket p.asc p.stag p.ascnt q = some (pa, q1) → nextPacket p.bsc p.stag p.bscnt q1 = some (pb, q2) →
          w.tiles[p.ctile]? = some ct → ct.state = .filling → ct.claimed + 64 ≤ ct.expected →
          Acts i s t t
            { (s.modWg w.id (fun y => { y with packets := reserveFirst p.stile s.fresh n y.packets, mmas := y.mmas + 1 })).modTile
                w.id p.ctile (fun e => { e with claimed := e.claimed + 64 }) with
              ops := s.ops ++ [newOp s w t 4 (.mma
                { fmtA := a.fmt, fmtB := b.fmt, aslot := p.aslot, bslot := p.bslot, atile := p.atile, btile := p.btile,
                  acc := p.acc, ovw := p.ovw, kch := p.kch, scaleA := pa.map (fun x => ⟨x.bytes, p.blkA⟩),
                  scaleB := pb.map (fun x => ⟨x.bytes, p.blkB⟩), stile := if n = 0 then none else some p.stile,
                  ctile := p.ctile, cbA := a.cb, cbB := b.cb,
                  sparse := if sparse = true then some (p.row0, masks) else none })] })
        ∧ (p.asc = true → (∀ x, q.head? = some x → x.tag ≠ p.stag ∨ x.bytes.length ≠ p.ascnt) → Raises i s t { code := 0x08 })))

/-- R283, R284: the other operations of the matrix queue join it when the tile is held, the offset aligned and the tile
entry fits; under SR ACCCVT advances the thread's counter by 2,048. MWAIT waits for the workgroup's operations there. -/
def Obligations.MatrixQueue : Prop := ∀ (s : State) (t : Thread) (w : Workgroup), t.seen = none →
  let room : Prop := s.queueLen w.core 4 < 16
  let held (atl : Nat) : Prop := (atl, w.id) ∈ (s.core w.core).accHolder
  let queued (x : State) (b : OpBody) : State := { x with ops := s.ops ++ [newOp s w t 4 b] }
  (∀ atl fm, (Instr.accz atl fm).Alone s t w →
    (room → held atl.toNat → Acts (.accz atl fm) s t t (queued s (.accz atl.toNat)))
    ∧ (room → ¬ held atl.toNat → Raises (.accz atl fm) s t { code := 0x07 })
    ∧ (¬ room → exec (.accz atl fm) s = .next (s.setThread
        { t with status := .blocked (.gate (.queueRoom w.core 4)), seen := some [], insn := s.cur.insn })))
  ∧ (∀ (f : RI8) e, (Instr.accld f).Alone s t w → room → held f.d.toNat → w.tiles[f.imm.toNat]? = some e →
    let off := (f.srcA w t).toNat
    e.kind = .spad →
    (off % 64 ≠ 0 → Raises (.accld f) s t { code := 0x05 })
    ∧ (off % 64 = 0 → off + 32768 ≤ 64 * e.size →
      (e.state = .ready → e.err = 0 → Ecc.tile w.id f.imm.toNat ∉ s.ecc →
          Acts (.accld f) s t t (queued s (.accld f.d.toNat f.imm.toNat off)))
      ∧ (e.state = .ready → e.err ≠ 0 → Ecc.tile w.id f.imm.toNat ∉ s.ecc →
          Raises (.accld f) s t (errFault f.imm.toNat e.err))
      ∧ (e.state ≠ .ready → exec (.accld f) s = .next (s.setThread
          { t with status := .blocked (.gate (.tilesReady [f.imm.toNat])), seen := some (natLe 4 off), insn := s.cur.insn }))))
  ∧ (∀ (f : RI8) e, (Instr.accst f).Alone s t w → room → held f.d.toNat → w.tiles[f.imm.toNat]? = some e →
    let off := (f.srcA w t).toNat
    e.kind = .spad → e.state = .filling → off % 64 = 0 → off + 32768 ≤ 64 * e.size → e.claimed + 32768 ≤ e.expected →
    Acts (.accst f) s t t (queued (s.modTile w.id f.imm.toNat (fun e => { e with claimed := e.claimed + 32768 }))
      (.accst f.d.toNat f.imm.toNat off)))
  ∧ (∀ (f : RI8) src fmt e, (Instr.acccvt f src fmt).Alone s t w → room → held f.d.toNat → w.tiles[f.imm.toNat]? = some e →
    let off := (f.srcA w t).toNat
    let n := 8192 * elemBytes fmt.toNat
    e.kind ≠ .fifo → e.state = .filling → off % 64 = 0 → off + n ≤ e.bytes → e.claimed + n ≤ e.expected →
    Acts (.acccvt f src fmt) s t
      (if f.fm.rm = 5 then { t with
          srctr0 := t.srctr0 + 2048, srctr1 := if 2 ^ 32 ≤ t.srctr0.toNat + 2048 then t.srctr1 + 1 else t.srctr1 } else t)
      (queued (s.modTile w.id f.imm.toNat (fun e => { e with claimed := e.claimed + n }))
        (.acccvt f.d.toNat f.imm.toNat off src fmt (match f.fm.mods with | .ext x => x.dscl | _ => 0) f.fm.clamp f.fm.rm
          t.srkey0 t.srkey1 t.srctr0 t.srctr1)))
  ∧ (∀ fm, (Instr.mwait fm).Alone s t w →
    let mine := s.ops.filter (fun o => o.wg == w.id && o.q == 4)
    (mine = [] → Acts (.mwait fm) s t t s)
    ∧ (mine ≠ [] → Waits (.mwait fm) s t (.ops (mine.map (·.id)) (t.pc + BitVec.ofNat 64 (4 * fm.words)))))

/-- R285, R286, R292: SPCOMP keeps the four elements of largest magnitude of eight, packed, with their mask; CBSET stores a
codebook in its tensor entry; MSCL pushes a scale packet from k registers, which arrives at once. -/
def Obligations.SparsityAndScales : Prop :=
  (∀ (f : V3) (fmt : BitVec 4), Gives (.spcomp f fmt) (fun _ t =>
    let byte (i : Nat) : Nat := ((storedBytes t f.a.toNat 16).getD i 0).toNat
    let e (j : Nat) : Nat := if fmt = 5 then byte j else byte (2 * j) + 256 * byte (2 * j + 1)
    let mag (j : Nat) : Nat := if fmt = 5 then (BitVec.ofNat 8 (e j)).toInt.natAbs else min (e j % 32768) 0x7F81
    let keep := (List.range 8).filter (fun j =>
      decide ((List.range 8).countP (fun i => decide (mag j < mag i ∨ mag i = mag j ∧ i < j)) < 4))
    let packed := keep.map (fun j => if fmt ≠ 5 ∧ 0x7F80 < e j % 32768 then 0x7FC0 else e j)
    let regs : List Word := if fmt = 5 then [BitVec.ofNat 32 (packed.getD 0 0 + 256 * (packed.getD 1 0 + 256 * (packed.getD 2 0
        + 256 * packed.getD 3 0)))]
      else [BitVec.ofNat 32 (packed.getD 0 0 + 65536 * packed.getD 1 0), BitVec.ofNat 32 (packed.getD 2 0 + 65536 * packed.getD 3 0)]
    (t.setRegs f.d.toNat regs).setReg (f.fm.cField f.d).2.toNat (BitVec.ofNat 32 ((keep.map (2 ^ ·)).sum))))
  ∧ (∀ (s : State) (t : Thread) (w : Workgroup) (f : V3) (d : CtxDesc) (x : Tensor) (b : List Byte), (Instr.cbset f).Alone s t w →
    (s.ctx w.ctxn).desc = some d → bits (f.srcA w t) 31 12 = 0 → s.tensor w (f.srcA w t).toNat = .ok x →
    let pa := d.tit + 256 * (f.srcA w t).toNat
    pa % 256 = 0 → s.isCmp (pa + 0x78) = false → s.mem.wf = true →
    (x.fmt = 9 → InSpad w (f.srcB w t).toNat 32 32 b →
      StoresAt (.cbset f) s { t with pc := t.pc + BitVec.ofNat 64 (4 * f.fm.words) } (pa + 0x78) b)
    ∧ (x.fmt ≠ 9 → Raises (.cbset f) s t { code := 0x0F }))
  ∧ (∀ (s : State) (t : Thread) (w : Workgroup) (f : V3) (count : BitVec 9) (stag : BitVec 16) (e : Tile),
    (Instr.mscl f count stag).Alone s t w → t.status = .ready → w.tiles[f.d.toNat]? = some e →
    let n := count.toNat
    e.kind = .fifo → e.state = .filling → e.claimed + n ≤ e.expected → f.a.toNat + (n + 7) / 8 ≤ 64 →
    Acts (.mscl f count stag) s t { t with insn := s.cur.insn } (s.modWg w.id (fun y => { y with
      packets := y.packets ++ [⟨f.d.toNat, stag, (List.range n).map (fun j =>
        BitVec.ofNat 8 ((kread w t (f.a.toNat + j / 8)).toNat / 256 ^ (j % 8))), none⟩]
      tiles := y.tiles.modify f.d.toNat (fun e => arrived { e with claimed := e.claimed + n } n) })))

/-- R130, R131, R275, R276, R296: the matrix operation at the head of the matrix queue starts, and completes: each
accumulator word of its rows takes its new value, of INT8 operands the sum of the products modulo 2^32, and nothing else in
accumulator memory changes; 64 bytes arrive at the completion tile, and packets and operation leave. -/
def Sys2Proof.Certificates.MatrixArray : Prop := ∀ (s : State) (core : Nat) (o : Op) (m : MmaOp),
  s.headOp core 4 = some o → o.body = .mma m →
  exec (.mmaStart core) s = .next { s with ops := s.ops.map (fun x => if x.id = o.id then { o with started := true } else x) }
  ∧ (o.started = true → s.ecc = [] → s.accmem.wf = true → ∀ w, s.wg o.wg = some w →
      (∀ n ∈ [m.atile, m.btile] ++ m.stile.toList, w.tileIs n .draining = false) →
      let rows := if m.sparse = none then 64 else 16
      let row0 := (m.sparse.map (fun x => 16 * x.1)).getD 0
      let at' (r n : Nat) : Nat := core * 2 ^ 18 + m.acc * 32768 + 4 * ((row0 + r) * 128 + n)
      ∃ s', exec (.mmaComplete core) s = .next s'
        ∧ (∀ r n, r < rows → n < 128 → leNat (memGetN s'.accmem (at' r n) 4)
            = s.mmaWord core m r n (leNat (memGetN s.accmem (at' r n) 4)) % 2 ^ 32)
        ∧ (∀ a, a < at' 0 0 ∨ at' rows 0 ≤ a → memGet s'.accmem a = memGet s.accmem a)
        ∧ s' = { s with
            accmem := s'.accmem
            ops := s.ops.filter (fun x => x.id != o.id)
            wgs := s.wgs.map (fun y => if y.id = o.wg then
              { y with packets := y.packets.filter (fun p => p.reserved != some o.id)
                       tiles := y.tiles.modify m.ctile (fun e => { arrived e 64 with err := if o.err = 0 then e.err else o.err }) }
              else y) })
  ∧ (m.fmtA = 5 → m.fmtB = 5 → m.sparse = none → ∀ r n old, s.mmaWord core m r n old =
      (BitVec.ofInt 32 ((if m.ovw = true then 0 else (old : Int)) + ((List.range (16 * m.kch)).map (fun k =>
        (memGet s.opmem (core * 2 ^ 20 + m.aslot * 16384 + r * 256 + k)).toInt
          * (memGet s.opmem (core * 2 ^ 20 + (m.bslot + n / 64) * 16384 + n % 64 * 256 + k)).toInt)).sum)).toNat)

/-- R242, R283: what the other operations do at the head of the matrix queue, without errors in memory: ACCZ makes the tile
zero, ACCLD reads it from the scratchpad, ACCST stores it there, and ACCCVT stores its elements converted; the bytes arrive. -/
def Sys2Proof.Certificates.MatrixQueueEnds : Prop := ∀ (s : State) (core : Nat) (o : Op) (w : Workgroup),
  s.headOp core 4 = some o → s.wg o.wg = some w → s.ecc = [] → w.spadErr = [] → s.accmem.wf = true → w.spad.wf = true →
  let acc (a : Nat) : Nat := core * 2 ^ 18 + a * 32768
  let left := s.ops.filter (fun x => x.id != o.id)
  let stores (tile off : Nat) (e : Tile) (n : Nat) (byte : Nat → Byte) : Prop :=
    ∃ (s' : State) (y : Workgroup), exec (.mqOpComplete core) s = .next s' ∧ s'.wg o.wg = some y
      ∧ Holds w.spad y.spad (64 * e.base + off) n byte
      ∧ y = { w with spad := y.spad, tiles := w.tiles.modify tile (fun e => arrived e n) }
      ∧ s' = { s with ops := left, wgs := s'.wgs } ∧ ∀ k, k ≠ o.wg → s'.wg k = s.wg k
  (∀ a, o.body = .accz a → ∃ mem, Zeroed s.accmem mem (acc a) 32768
    ∧ exec (.mqOpComplete core) s = .next { s with accmem := mem, ops := left })
  ∧ (∀ a tile off e, o.body = .accld a tile off → w.tiles[tile]? = some e → e.state ≠ .draining →
    ∃ mem, Holds s.accmem mem (acc a) 32768 (fun i => memGet w.spad (64 * e.base + off + i))
      ∧ exec (.mqOpComplete core) s = .next { s with accmem := mem, ops := left })
  ∧ (∀ a tile off e, o.body = .accst a tile off → w.tiles[tile]? = some e → e.kind = .spad →
    stores tile off e 32768 (fun i => memGet s.accmem (acc a + i)))
  ∧ (∀ a tile off src fmt dscl clamp rm k0 k1 c0 c1 e, o.body = .acccvt a tile off src fmt dscl clamp rm k0 k1 c0 c1 →
    w.tiles[tile]? = some e → e.kind = .spad → rm ≠ 5 →
    let size := elemBytes fmt.toNat
    stores tile off e (8192 * size) (fun i =>
      let x := leNat (memGetN s.accmem (acc a + 4 * (i / size)) 4)
      BitVec.ofNat 8 (cvtElem src fmt.toNat dscl clamp rm 0 x / 256 ^ (i % size))))

/-- R130, R131, R242, R275, R276, R283, R296: what the matrix unit does to accumulators and slots, and the end of its
operations. -/
def Obligations.AccumulatorOperations : Prop := MatrixArray ∧ MatrixQueueEnds

/-- R330, R344, R345: a vertex instruction of a lone thread at the home of its vertex: VINS and VDEL make a vertex present
and absent, VGET, VSET and VATOM act on a property word, DEG counts the edges of a list, and of an absent vertex each gives
0 and false; GHOME names the home, and GSTAT counts the vertices and edges of a graph within the package. -/
def Sys2Proof.Certificates.GraphVertices : Prop := ∀ (s : State) (t : Thread) (w : Workgroup) (f : GraphForm) (d : GraphDesc),
  let a := f.v.srcA64 w t
  let id := (bits a 39 0).toNat
  let idx := f.w2.idx.toNat
  let dst := f.v.d.toNat
  let tells (b : Bool) (u : Thread) : Thread := u.setPred f.w2.pd b
  let ends (i : Instr) (u : Thread) (x : State) : Prop := i.Alone s t w → ActsAt i s t u x
  t.seen = none → t.status = .ready → (f.w2.dirn = 1 → d.directed = true) →
  (AtHome s t w d a → Kept s d id (64 + 4 * d.vpw) →
    (s.vertex w.ctxn d.g id = none →
      ends (.vins f) (tells true t) { s with verts := s.verts ++ [⟨w.ctxn, d.g, id, List.replicate d.vpw 0⟩] }
      ∧ ends (.vdel f) (tells false t) s
      ∧ ends (.deg f) (tells false (t.setReg dst 0)) s
      ∧ (idx < d.vpw → ends (.vget f) (tells false (t.setReg dst 0)) s ∧ ends (.vset f) (tells false t) s
          ∧ ends (.vatom f) (tells false t) s))
    ∧ ∀ v, s.vertex w.ctxn d.g id = some v →
      let put (x : Word) : State := { s with verts := s.verts.map (fun y =>
        if y.ctxn = w.ctxn ∧ y.g = d.g ∧ y.id = id then { v with props := v.props.set idx x } else y) }
      let near (inList : Bool) (e : Edge) : Bool := e.ctxn == w.ctxn && e.g == d.g
        && (if d.directed = true then (if inList = true then e.v == id else e.u == id) else (e.u == id || e.v == id))
      ends (.vins f) (tells false t) s
      ∧ ((∀ e ∈ s.edges, near false e = false ∧ near true e = false) →
          ends (.vdel f) (tells true t) { s with verts := s.verts.filter (fun y => y != v) })
      ∧ ((∃ e ∈ s.edges, near false e = true ∨ near true e = true) → ends (.vdel f) (tells false t) s)
      ∧ ends (.deg f) (tells true (t.setReg dst (BitVec.ofNat 32 (s.edges.countP (near (decide (f.w2.dirn = 1))))))) s
      ∧ (idx < d.vpw → ends (.vget f) (tells true (t.setReg dst (v.props.getD idx 0))) s
          ∧ ends (.vset f) (tells true t) (put (f.v.srcB w t))
          ∧ (f.w2.op.toNat ≤ 8 →
              ends (.vatom f) (tells true t) (put (atomicResult f.w2.op (v.props.getD idx 0) (f.v.srcB w t)))))
      ∧ (d.vpw ≤ idx → ∀ i, (i = .vget f ∨ i = .vset f ∨ i = .vatom f) → i.Alone s t w → Raises i s t { code := 0x07 }))
  ∧ (s.graph w.ctxn (dieOf (s.coreOf t)) (bits a 55 40).toNat = some d → bits a 63 56 = 0 → id < 2 ^ d.idw →
      let home := s.vertexHome d id
      ends (.ghome f) (t.setReg dst (BitVec.ofNat 32 (home.2 + 256 * home.1))) s
      ∧ ((∀ p ∈ d.parts, p.2.2 = 0xFF ∨ p.2.2 = s.pkg) → s.verts.length < 2 ^ 64 →
          ends (.gstat f) (t.setRegs dst
            (halves (BitVec.ofNat 64 (s.verts.filter (fun v => v.ctxn == d.ctxn && v.g == d.g)).length)
              ++ halves (BitVec.ofNat 64 (s.edges.filter (fun e => e.ctxn == d.ctxn && e.g == d.g)).length))) s))

/-- R337, R350: an operation that a lone thread waits for at a home on another die is performed there, and the thread goes on
after the instruction: for VGET and VSET of a present vertex. -/
def Sys2Proof.Certificates.GraphAtAnotherDie : Prop := ∀ (s : State) (t : Thread) (w : Workgroup) (f : GraphForm) (d : GraphDesc) (v : Vertex)
    (i : Instr) (g : Nat),
  let a := f.v.srcA64 w t
  let id := (bits a 39 0).toNat
  let core := s.coreOf t
  let home := s.vertexHome d id
  t.status = .data (.graph i g) → s.graphGroup g = [t.key] → t.seen = (if f.w2.mig = true then some [7] else none) →
  s.thread t.key = some t → s.wg t.wg = some w → s.steps w = false → t.guard i.form = true → i.step8 w t = true →
  (∀ j ∈ s.joins, t.key ∈ j.waiting → j = ⟨core, [t.key], [], []⟩) →
  s.graph w.ctxn (dieOf core) (bits a 55 40).toNat = some d → bits a 63 56 = 0 → id < 2 ^ d.idw →
  home.1 = s.pkg → s.reaches (dieOf core) home.2 = true → f.w2.idx.toNat < d.vpw → (f.w2.dirn = 1 → d.directed = true) →
  s.vertex w.ctxn d.g id = some v → Kept s d id 0 →
  let x (n : Nat) : State :=
    { s with freeN := n, cur := ⟨g, core, s.pkg, [t.key], t.insn⟩, joins := s.joins.erase ⟨core, [t.key], [], []⟩ }
  let goesOn (u : Thread) : Thread := { u with pc := t.pc + BitVec.ofNat 64 (4 * i.words), seen := none, took := false }
  (i = .vget f → ∃ s' n, exec (.graphOpPerform t.wg t.tidx) s = .next s'
    ∧ Resumed (x n) s' (goesOn ((t.setReg f.v.d.toNat (v.props.getD f.w2.idx.toNat 0)).setPred f.w2.pd true)) core)
  ∧ (i = .vset f → ∃ s' n, exec (.graphOpPerform t.wg t.tidx) s = .next s'
    ∧ Resumed
      { x n with verts := s.verts.map (fun y => if y.ctxn = w.ctxn ∧ y.g = d.g ∧ y.id = id then
          { v with props := v.props.set f.w2.idx.toNat (f.v.srcB w t) } else y) }
      s' (goesOn (t.setPred f.w2.pd true)) core)

/-- R330, R337, R344, R345, R350: instructions on vertices, at home and at another die. -/
def Obligations.VertexInstructions : Prop := GraphVertices ∧ GraphAtAnotherDie

/-- R335, R336, R346, R355: EINS joins two present vertices with an edge whose handle no edge of its pair had, and in a
simple graph at most once; a vertex's list holds its edges by neighbor, then handle; EGET reads an entry of it, EFIND
counts the entries below a vertex, and EDEL, EPGET and EPSET act on the edge of a handle in it. -/
def Obligations.GraphEdges : Prop := ∀ (s : State) (t : Thread) (w : Workgroup) (f : GraphForm) (d : GraphDesc),
  let a := f.v.srcA64 w t
  let b := f.v.srcB64 w t
  let id := (bits a 39 0).toNat
  let v := (bits b 39 0).toNat
  let inList := decide (f.w2.dirn = 1)
  let list := s.adj d id inList
  let dst := f.v.d.toNat
  let own (e : Edge) : Bool := e.ctxn == w.ctxn && e.g == d.g
  let near (e : Edge) : Bool := own e
    && (if d.directed = true then (if inList = true then e.v == id else e.u == id) else (e.u == id || e.v == id))
  let tells (x : Bool) (u : Thread) : Thread := u.setPred f.w2.pd x
  let ends (i : Instr) (u : Thread) (x : State) : Prop := i.Alone s t w → ActsAt i s t u x
  let present (x : Nat) : Prop := (s.vertex w.ctxn d.g x).isSome = true
  AtHome s t w d a → Kept s d id (2 * (16 + 4 * d.epw)) → t.seen = none → t.status = .ready → (f.w2.dirn = 1 → d.directed = true) →
  (list.Pairwise (fun x y => x.1 < y.1 ∨ x.1 = y.1 ∧ x.2.toNat ≤ y.2.toNat)
    ∧ ∀ x, x ∈ list ↔ ∃ e ∈ s.edges, near e = true ∧ x.2 = e.handle
        ∧ x.1 = if d.directed = true then (if inList = true then e.u else e.v) else if e.u = id then e.v else e.u)
  ∧ (bits b 63 56 = 0 → bits b 55 40 = bits a 55 40 → v < 2 ^ d.idw →
    (present id → ends (.efind f) (tells (list.any (fun x => x.1 == v))
      (t.setReg dst (BitVec.ofNat 32 (list.countP (fun x => decide (x.1 < v)))))) s)
    ∧ (¬ present id → ends (.efind f) (tells false (t.setReg dst 0)) s)
    ∧ ((s.vertexHome d v).1 = s.pkg → Kept s d v (16 + 4 * d.epw) →
      let meets (e : Edge) : Bool := own e && ((e.u == id && e.v == v) || (!d.directed && e.u == v && e.v == id))
      (¬ present id ∨ ¬ present v → ends (.eins f) (tells false (t.setRegs dst [0, 0])) s)
      ∧ (present id → present v → d.multi = false → ∀ e, s.edges.find? meets = some e →
          ends (.eins f) (tells false (t.setRegs dst (halves e.handle))) s)
      ∧ (present id → present v → (d.multi = true ∨ ∀ e ∈ s.edges, meets e = false) →
          (s.adj d id false).length < 4294967295 → (s.adj d v d.directed).length < 4294967295 →
          let mine := s.issued.filter (fun e => e.ctxn == w.ctxn)
          let pair := mine.filter (fun e => d.multi && e.g == d.g
            && ((e.u == id && e.v == v) || (!d.directed && e.u == v && e.v == id)))
          mine.length < 2 ^ 28 - 1 →
          ∃ h : Dword, (pair = [] → ∀ e ∈ mine, e.handle ≠ h) ∧ (∀ e ∈ pair, e.handle ≠ h)
            ∧ (∀ e, pair.head? = some e → bits e.handle 63 28 = bits h 63 28)
            ∧ ends (.eins f) (tells true (t.setRegs dst (halves h)))
                { s with edges := s.edges ++ [⟨w.ctxn, d.g, id, v, h, List.replicate d.epw 0⟩]
                         issued := s.issued ++ [⟨w.ctxn, d.g, id, v, h⟩] })))
  ∧ (present id → ∀ x, list[(f.v.srcB w t).toNat]? = some x → x.1 < 2 ^ 40 →
      ends (.eget f) (tells true (t.setRegs dst (halves (BitVec.ofNat 64 (d.g * 2 ^ 40 + x.1)) ++ halves x.2))) s)
  ∧ (¬ present id ∨ list.length ≤ (f.v.srcB w t).toNat → ends (.eget f) (tells false (t.setRegs dst [0, 0, 0, 0])) s)
  ∧ (∀ e ∈ s.edges, present id → near e = true → e.handle = b → (∀ e' ∈ s.edges, own e' = true → e'.handle = b → e' = e) →
      ends (.edel f) (tells true t) { s with edges := s.edges.filter (fun y => y != e) }
      ∧ (f.w2.idx.toNat < d.epw → ends (.epget f) (tells true (t.setReg dst (e.props.getD f.w2.idx.toNat 0))) s
          ∧ ends (.epset f) (tells true t) { s with edges := s.edges.map (fun y =>
              if y = e then { e with props := e.props.set f.w2.idx.toNat (bits (f.v.srcC w t) 31 0) } else y) }))
  ∧ (¬ present id ∨ (∀ e ∈ s.edges, near e = true → e.handle ≠ b) →
      ends (.edel f) (tells false t) s
      ∧ (f.w2.idx.toNat < d.epw → ends (.epget f) (tells false (t.setReg dst 0)) s ∧ ends (.epset f) (tells false t) s))

/-- R354, R356, R357, R359, R360: COPEN makes a cursor at a vertex, CNEXT and CPEEK read the entry after its place, CNEXT
moves it there, CRANK counts the entries before it; CCLOSE clears it, CSAVE and CREST move its image. -/
def Obligations.Cursors : Prop :=
  (∀ (s : State) (t : Thread) (w : Workgroup) (f : GraphForm) (d : GraphDesc), t.seen = none → t.status = .ready → (f.w2.dirn = 1 → d.directed = true) →
    let tells (x : Bool) (u : Thread) : Thread := u.setPred f.w2.pd x
    let ends (i : Instr) (u : Thread) : Prop := i.Alone s t w → ActsAt i s t u s
    let dst := f.v.d.toNat
    (let a := f.v.srcA64 w t
     let b := f.v.srcB64 w t
     let st := bit f.w2.idx 0
     AtHome s t w d a → Kept s d (bits a 39 0).toNat 0 → (st = true → bits b 63 40 = 0) →
     ends (.copen f) (tells (s.vertex w.ctxn d.g (bits a 39 0).toNat).isSome (t.setCursor f.v.d
      (cursorOf (bits a 55 40) (bits a 39 0) (if st = true then bits b 39 0 else 0) 0 st false (bit f.w2.dirn 0)))))
    ∧ (let c := t.cursor f.v.a
       let a : Dword := 0#8 ++ bits c 127 72
       let list := if (s.vertex w.ctxn d.g (bits a 39 0).toNat).isSome = true then s.adj d (bits a 39 0).toNat (bit c 1) else []
       bit c 0 = true → AtHome s t w d a → Kept s d (bits a 39 0).toNat 0 →
       (∀ x, list.find? (comesAfter d.multi c) = some x → x.1 < 2 ^ 40 →
          let regs := halves (BitVec.ofNat 64 (d.g * 2 ^ 40 + x.1)) ++ halves x.2
          ends (.cpeek f) (tells true (t.setRegs dst regs))
          ∧ ends (.cnext f) (tells true ((t.setRegs dst regs).setCursor f.v.a (passed d.multi c x))))
       ∧ (list.find? (comesAfter d.multi c) = none →
          ends (.cpeek f) (tells false (t.setRegs dst [0, 0, 0, 0])) ∧ ends (.cnext f) (tells false (t.setRegs dst [0, 0, 0, 0])))
       ∧ (let here := list.find? (fun x => bit c 2 && x.1 == (bits c 71 32).toNat && (!d.multi || bits x.2 27 0 == bits c 31 4))
          ends (.crank f) (tells here.isSome (t.setRegs dst
            ([BitVec.ofNat 32 (list.countP (standsBefore d.multi c)), 0] ++ halves ((here.map (·.2)).getD 0)))))))
  ∧ (∀ f : GraphForm, Gives (.cclose f) (fun _ t => t.setCursor f.v.d 0))
  ∧ (∀ (s : State) (t : Thread) (w : Workgroup) (f : GraphForm) (b : List Byte), w.foreign = none → Unanswered s t →
    let off := (f.v.srcA w t).toNat
    off % 16 = 0 → off + 16 ≤ w.spadSize →
    ((Instr.csave f).Alone s t w → EnqueuesSpad (.csave f) s t w
      { t with pc := t.pc + BitVec.ofNat 64 (4 * (Instr.csave f).words) } off (natLe 16 (t.cursor f.v.d).toNat) false)
    ∧ ((Instr.crest f).Alone s t w → InSpad w off 16 16 b → Drained s t →
      let x : BitVec 128 := BitVec.ofNat 128 (leNat b)
      let malformed : Prop := (bit x 0 = false ∧ x ≠ 0) ∨ (bit x 2 = true ∧ bit x 3 = true) ∨ (bits x 31 4 ≠ 0 ∧ bit x 2 = false)
      (¬ malformed → Acts (.crest f) s t (t.setCursor f.v.d x) s) ∧ (malformed → Raises (.crest f) s t { code := 0x07 })))

/-- R347, R348, R349: SINTER and SDIFF put an operation on the graph queue, and the thread waits. A step of it compares the
entries after the two places: the lesser cursor moves on; equal entries move both, and count for SINTER, as an entry of the
first list alone counts for SDIFF; a list that has ended ends the operation, and the thread goes on. Counting adds 1 to the
count in D, if the entry is above the bound. -/
def Obligations.GraphStreams : Prop :=
  (∀ (s : State) (t : Thread) (w : Workgroup) (f : GraphForm) (da db : GraphDesc) (i : Instr) (diff : Bool),
    (i = .sinter f ∧ diff = false ∨ i = .sdiff f ∧ diff = true) → i.Alone s t w → t.seen = none →
    let ca := t.cursor f.v.a
    let cb := t.cursor f.v.b
    let core := s.coreOf t
    bit ca 0 = true → bit cb 0 = true →
    s.graph w.ctxn (dieOf core) (bits ca 127 112).toNat = some da → (bits ca 111 72).toNat < 2 ^ da.idw →
    s.graph w.ctxn (dieOf core) (bits cb 127 112).toNat = some db → (bits cb 111 72).toNat < 2 ^ db.idw →
    (f.w2.mig = false ∨ s.vertexHome da (bits ca 111 72).toNat = (s.pkg, dieOf core)) → s.queueLen core 5 < 32 →
    exec i s = .next (({ s with
        ops := s.ops ++ [{ id := s.fresh, core, q := 5, wg := t.wg, issuer := t.tidx, started := false, err := 0
                           body := .stream diff (f.v.a.toNat % 8) (f.v.b.toNat % 8)
                             (if bit f.w2.idx 0 = true then some (f.v.srcC64 w t &&& 0xFFFFFFFFFF#64) else none)
                             (bit f.w2.idx 1) f.v.d.toNat }]
        fresh := s.fresh + 1 } : State).setThread { t with status := .blocked (.stream s.fresh), insn := s.cur.insn }))
  ∧ ∀ (s : State) (t : Thread) (w : Workgroup) (o : Op) (da db : GraphDesc) (diff : Bool) (a b dst : Nat) (bound : Option Dword),
    (s.streamsNow o.core).find? (fun x => x.id == o.id) = some o → o.body = .stream diff a b bound false dst →
    s.thread ⟨o.wg, o.issuer⟩ = some t → s.wg o.wg = some w → w.frozen = false → t.status = .blocked (.stream o.id) →
    a < 8 → b < 8 →
    let ca := t.cursor (BitVec.ofNat 7 a)
    let cb := t.cursor (BitVec.ofNat 7 b)
    let die := dieOf o.core
    let hasGraph (c : BitVec 128) (d : GraphDesc) : Prop := s.graph w.ctxn die (bits c 127 112).toNat = some d
      ∧ (bits c 111 72).toNat < 2 ^ d.idw ∧ (s.vertexHome d (bits c 111 72).toNat).1 = s.pkg ∧ Kept s d (bits c 111 72).toNat 0
    hasGraph ca da → hasGraph cb db →
    let list (d : GraphDesc) (c : BitVec 128) : List (Nat × Dword) :=
      if (s.vertex d.ctxn d.g (bits c 111 72).toNat).isSome = true then s.adj d (bits c 111 72).toNat (bit c 1) else []
    let xa := (list da ca).find? (comesAfter da.multi ca)
    let xb := (list db cb).find? (comesAfter db.multi cb)
    let above (x : Nat) : Prop := ∀ y, bound = some y → y.toNat < x
    let peeks := s.peeks.filter (fun p => p.who != .op o.id)
    let moves (c1 c2 : BitVec 128) (count : Prop) [Decidable count] : Prop := ∃ n,
      exec (.graphStreamStep o.core o.id) s = .next (({ s with freeN := n, peeks } : State).setThread
        (let u := (t.setCursor (BitVec.ofNat 7 a) c1).setCursor (BitVec.ofNat 7 b) c2
         if count then u.setReg dst (t.reg dst + 1) else u))
    (∀ x y, xa = some x → xb = some y → x.1 < 2 ^ 40 → y.1 < 2 ^ 40 →
      (a ≠ b → x.1 = y.1 → above x.1 → moves (passed da.multi ca x) (passed db.multi cb y) (diff = false))
      ∧ (a ≠ b → x.1 = y.1 → ¬ above x.1 → moves (passed da.multi ca x) (passed db.multi cb y) False)
      ∧ (a = b → let c := passed da.multi ca x
          let c' := ((list da ca).find? (comesAfter da.multi c)).elim c (passed da.multi c)
          (∀ z ∈ list da ca, z.1 < 2 ^ 40) → (above x.1 → moves c' c' (diff = false)) ∧ (¬ above x.1 → moves c' c' False))
      ∧ (x.1 < y.1 → above x.1 → moves (passed da.multi ca x) cb (diff = true))
      ∧ (y.1 < x.1 → moves ca (passed db.multi cb y) False))
    ∧ (∀ x, xa = some x → xb = none → x.1 < 2 ^ 40 → diff = true → above x.1 → moves (passed da.multi ca x) cb True)
    ∧ ((xa = none ∨ xb = none ∧ diff = false) → t.tidx ≠ 0xFFFF → s.steps w = false →
      ∃ n, exec (.graphStreamStep o.core o.id) s = .next
        (({ s with freeN := n, peeks, ops := s.ops.filter (fun x => x.id != o.id) } : State).fileThread { t with pc := t.pc + 12 } 0))

/-- R362, R364, R366, R367, R368, R369, R373, R379, R380: CARRY sets the window, WHERE names the place, HOME sends a guest
home. GO to the die where the thread is changes nothing but PD; to another die of the package, with room, the thread leaves
with its k registers as they are now and its stores performed; a refusal gives false under FALL, and raises 0x0A otherwise. -/
def Obligations.Migration : Prop :=
  (∀ vb vn ub un fm, GivesIf (.carry vb vn ub un fm)
    (fun _ w _ => vb.toNat + vn.toNat ≤ w.allot ∧ ub.toNat + un.toNat ≤ 64)
    (fun _ _ t => { t with vb := vb.toNat, vn := vn.toNat, ub := ub.toNat, un := un.toNat }))
  ∧ (∀ f : V3, GivesIf (.whereAt f) (fun _ w _ => w.kernel.det = false) (fun s _ t => t.setReg f.d.toNat
      (BitVec.ofNat 32 (s.coreOf t % 256 + 256 * s.pkg + 65536 * t.hops + if t.away = none then 0 else 2 ^ 24))))
  ∧ ∀ (s : State) (t : Thread) (w : Workgroup),
    (∀ vb vn ub un fm, (Instr.carry vb vn ub un fm).Alone s t w →
      w.allot < vb.toNat + vn.toNat ∨ 64 < ub.toNat + un.toNat → Raises (.carry vb vn ub un fm) s t { code := 0x07 })
    ∧ (∀ fm, (Instr.home fm).Alone s t w →
      (t.away = none → Acts (.home fm) s t t s)
      ∧ (t.away ≠ none → exec (.home fm) s = .next ((s.release (s.coreOf t) t.key).setThread
          { landed { t with pc := t.pc + BitVec.ofNat 64 (4 * fm.words) } with
            status := .transit (w.foreign.getD s.pkg) w.core (some t.pc), hops := 0, seen := none, insn := s.cur.insn })))
    ∧ ∀ (f : V3) vtx fall pd home, (Instr.go f vtx fall pd).Alone s t w →
      s.goHome w t vtx (f.srcA64 w t) = .ok home → t.seen = none →
      let stays (b : Bool) : Prop := Acts (.go f vtx fall pd) s t (t.setPred pd b) s
      let here := dieOf (s.coreOf t)
      let sent := landed { t.setPred pd true with pc := t.pc + BitVec.ofNat 64 (4 * f.fm.words) }
      let vf := w.ctxn / 16 + 1
      (home = none ∨ home = some (s.pkg, here) → stays true)
      ∧ ∀ die, home = some (s.pkg, die) → die ≠ here →
        (w.foreign = none → die = dieOf w.core → exec (.go f vtx fall pd) s = .next ((s.release (s.coreOf t) t.key).setThread
          { sent with status := .transit s.pkg w.core (some t.pc), hops := 0, insn := s.cur.insn }))
        ∧ (w.foreign = none → die ≠ dieOf w.core →
          (t.hops + 1 ≤ w.kernel.hops → t.tag = 0 → s.issued? t = false → carried t ≤ 256 → s.reaches here die = true →
            (∃ c ∈ s.hedgeCores vf die, s.guests c < 256) →
            ∃ core n, core ∈ s.hedgeCores vf die ∧ s.guests core < 256 ∧ exec (.go f vtx fall pd) s = .next
              (({ s.release (s.coreOf t) t.key with freeN := n } : State).setThread { sent with
                hops := t.hops + 1, status := .transit s.pkg core (some t.pc), insn := s.cur.insn
                away := some ⟨core, s.pkg, match t.away with
                  | some a => a.snap
                  | none => (List.range t.un).map (fun j => kread w t (t.ub + j))⟩ }))
          ∧ (w.kernel.hops < t.hops + 1 ∨ t.tag ≠ 0 ∨ 256 < carried t →
            (fall = true → w.kernel.det = false → stays false)
            ∧ (fall = false → w.kernel.det = false → ∃ r, r.code = 0x0A ∧ exec (.go f vtx fall pd) s
                = .next ((s.setThread t).raiseCur t.key r))))

/-- R167, R306, R307, R311, R313, R315, R316, R399: SREAD into a k register, CSRR and CSRW of every register that the
manual lists, FREC, TLBI, DETCHK and SPACE; what a thread may not read or write raises 0x07, 0x13 or 0x15. -/
def Obligations.SystemRegisters : Prop :=
  (∀ (csr : BitVec 12) d fm,
    let val (w : Workgroup) (t : Thread) : Option Dword := match csr with
      | 0x000 => some t.trapvec | 0x001 => some t.trapcause | 0x002 => some t.epc
      | 0x010 => some t.stkbase | 0x011 => some t.stklim | 0x012 => some t.stktop
      | 0x020 => some (t.srkey0.setWidth 64) | 0x021 => some (t.srkey1.setWidth 64)
      | 0x022 => some (t.srctr0.setWidth 64) | 0x023 => some (t.srctr1.setWidth 64)
      | 0x030 => some (if w.kernel.det = true then 1 else 0)
      | 0x040 => some ((if w.sstepEn = true then 1 else 0) + if w.sstepFrz = true then 2 else 0)
      | _ => none
    GivesIf (.csrr csr d fm) (fun _ w t => val w t ≠ none) (fun _ w t => t.setPair d.toNat ((val w t).getD 0))
    ∧ ∀ s t w, (Instr.csrr csr d fm).Alone s t w →
      (0x100 ≤ csr.toNat → Raises (.csrr csr d fm) s t { code := 0x15 })
      ∧ (csr.toNat < 0x100 → val w t = none → Raises (.csrr csr d fm) s t { code := 0x07 }))
  ∧ (∀ (sk : Bool) (csr : BitVec 12) src fm,
    let put (t : Thread) (x : Dword) : Option Thread := match csr with
      | 0x000 => some { t with trapvec := x } | 0x001 => some { t with trapcause := x &&& 0xFFFF00FF#64 }
      | 0x002 => some { t with epc := x } | 0x010 => some { t with stkbase := x }
      | 0x011 => some { t with stklim := x } | 0x012 => some { t with stktop := x }
      | 0x020 => some { t with srkey0 := bits x 31 0 } | 0x021 => some { t with srkey1 := bits x 31 0 }
      | 0x022 => some { t with srctr0 := bits x 31 0 } | 0x023 => some { t with srctr1 := bits x 31 0 }
      | _ => none
    GivesIf (.csrw sk csr src fm) (fun _ w t => put t (src64 w t sk src) ≠ none)
      (fun _ w t => (put t (src64 w t sk src)).getD t)
    ∧ ∀ s t w, (Instr.csrw sk csr src fm).Alone s t w →
      (0x100 ≤ csr.toNat ∨ csr = 0x040 → Raises (.csrw sk csr src fm) s t { code := 0x15 })
      ∧ (csr.toNat < 0x100 → csr ≠ 0x040 → put t 0 = none → Raises (.csrw sk csr src fm) s t { code := 0x07 }))
  ∧ (∀ f : RI8, GivesIf (.frec f) (fun _ _ t => t.hnd = true)
      (fun _ _ t => t.setPair f.d.toNat (BitVec.ofNat 64 (t.frec.toNat / 2 ^ (64 * f.imm.toNat)))))
  ∧ (∀ pd fm, Gives (.detchk false pd fm) (fun w t => t.setPred pd w.kernel.det)
      ∧ GivesIf (.detchk true pd fm) (fun _ w _ => w.kernel.det = true) (fun _ _ t => t))
  ∧ (∀ f : V3, GivesIf (.space f) (fun _ w _ => w.kernel.det = false) (fun s w t =>
      let v := s.vf (w.ctxn / 16 + 1)
      (t.setPair f.d.toNat (v.hedge.quota - BitVec.ofNat 64 (v.used + v.reserve.sum))).setPair (f.d.toNat + 2)
        (BitVec.ofNat 64 v.reserve.sum)))
  ∧ ∀ (s : State) (t : Thread) (w : Workgroup),
    (∀ f : RI8, (Instr.frec f).Alone s t w → t.hnd = false → Raises (.frec f) s t { code := 0x07 })
    ∧ (∀ f : RI8, (Instr.tlbi f).Alone s t w → t.seen = none →
      let a := f.srcA64 w t
      let path := (bits a 63 60).toNat
      let y := s.flushAll
      let other (c : Cached) : Bool := c.ctxn != w.ctxn
      (f.imm = 0 → path ∉ [0, 1, 4, 5] →
        Raises (.tlbi f) s t { code := 0x04, space := 1, addr := (vaOf a).setWidth 128 })
      ∧ ((f.imm = 0 → path ∈ [0, 1, 4, 5]) → f.imm.toNat ≤ 2 → (∀ o ∈ y.ops, o.q = 4 ∨ o.q = 5) → y.held = [] → y.txns = [] →
        (f.imm = 0 → Acts (.tlbi f) s t t { y with tlb := s.tlb.filter (fun c => other c
            || (bits (vaOf a) 75 0).toNat / 2 ^ c.size != c.page % 2 ^ (76 - c.size)) })
        ∧ (f.imm = 1 → Acts (.tlbi f) s t t { y with
            tlb := s.tlb.filter (fun c => other c || c.page * 2 ^ c.size / 2 ^ 68 % 256 != (bits a 59 52).toNat)
            bounds := s.bounds.filter (fun c => c.ctxn != w.ctxn || c.region != (bits a 59 52).toNat) })
        ∧ (f.imm = 2 → Legible y → ∃ x : State, Acts (.tlbi f) s t t x
          ∧ x = { y with
              ctxs := x.ctxs, graphs := x.graphs, freeN := x.freeN
              tlb := s.tlb.filter other, bounds := s.bounds.filter (fun c => c.ctxn != w.ctxn) }
          ∧ (x.ctx w.ctxn).desc = y.readCtx w.ctxn
          ∧ (∀ n, n ≠ w.ctxn → x.ctx n = s.ctx n)
          ∧ x.graphs.filter (fun g => g.ctxn != w.ctxn) = s.graphs.filter (fun g => g.ctxn != w.ctxn))))
    ∧ (∀ pd fm, (Instr.detchk true pd fm).Alone s t w → w.kernel.det = false →
        Raises (.detchk true pd fm) s t { code := 0x13 })
    ∧ (∀ f : V3, (Instr.space f).Alone s t w → w.kernel.det = true → Raises (.space f) s t { code := 0x13 })
    ∧ (∀ f : RI8, (Instr.sread f true).Alone s t w →
        (w.kernel.det = true → 9 ≤ f.imm.toNat → f.imm.toNat ≤ 13 → Raises (.sread f true) s t { code := 0x13 })
        ∧ (w.kernel.det = false ∨ ¬ (9 ≤ f.imm.toNat ∧ f.imm.toNat ≤ 13) →
            Acts (.sread f true) s t t (s.modWg w.id (fun y =>
              kwrite y false f.d.toNat (BitVec.ofNat 64 (special s w t f.imm.toNat))))))

/-- R40, R44, R45, R109: the data of tagged loads arrives, and the threads of one issue group go on as one group; a bin is
drawn; a group becomes overdue, behind those that are; a hold of YIELD ends. -/
def Sys2Proof.Certificates.SchedulerEvents : Prop := ∀ s : State,
  (∀ wg (tidxs : List Nat) g, (s.threads.map Thread.key).Nodup →
    let waits (t : Thread) : Prop := t.wg = wg ∧ t.tidx ∈ tidxs ∧ t.status = .data .load
    (∃ t ∈ s.threads, waits t) →
    (∀ t ∈ s.threads, waits t → ∃ l, t.loads.head? = some l ∧ l.group = g) →
    ∃ s' : State, exec (.loadDataArrival wg tidxs) s = .next s' ∧ s.sameBut s'
      ∧ (∀ t ∈ s.threads, (waits t → s'.thread t.key = some { landed t with status := .ready })
          ∧ (¬ waits t → s'.thread t.key = some t))
      ∧ ∃ grp ∈ s'.groups, ∀ k, k ∈ grp.threads ↔ ∃ t ∈ s.threads, waits t ∧ t.key = k)
  ∧ (∀ core bin b, s.bins.find? (fun b => b.core == core && b.id == bin) = some b → b.threads ≠ [] →
    ∃ s' : State, exec (.binAgeDraw core bin) s = .next s'
      ∧ (∀ k, k ∈ b.threads → s'.thread k = (s.thread k).map (fun t => { t with status := .ready }))
      ∧ (∀ k, k ∉ b.threads → ∃ st : Status → Status, s'.thread k = (s.thread k).map (fun t => { t with status := st t.status }))
      ∧ ((∀ o ∈ s.overflow, o.core ≠ b.core) → ∀ k, k ∉ b.threads → s'.thread k = s.thread k)
      ∧ ∃ g ∈ s'.groups, g.core = b.core ∧ ∀ k, k ∈ g.threads ↔ k ∈ b.threads)
  ∧ (∀ g ∈ s.groups, g.overdue = false → (∀ x ∈ s.groups, x.id = g.id → x = g) →
    let rest := s.groups.filter (fun x => !x.overdue && x.id != g.id)
    exec (.groupOverdue g.id) s = .next { s with groups := s.groups.filter (·.overdue) ++ { g with overdue := true } :: rest })
  ∧ (∀ t w next, s.thread t.key = some t → s.wg t.wg = some w → s.steps w = false → t.status = .blocked (.yield next) →
    ((s.ctx w.ctxn).shutter = .opened → exec (.yieldHoldEnd t.wg t.tidx) s = .next (s.fileThread { t with pc := next } 0))
    ∧ ((s.ctx w.ctxn).shutter ≠ .opened → exec (.yieldHoldEnd t.wg t.tidx) s = .next s))

/-- R54, R55, R56, R268: the oldest pending grow of a core, and the oldest claim, is granted once the free resources satisfy
it; on a core where every workgroup waits for what cannot come, the last request of the youngest fails, with PD false. -/
def Sys2Proof.Certificates.Grants : Prop := ∀ (s : State) (t : Thread) (w : Workgroup), s.thread t.key = some t → s.wg t.wg = some w →
  s.steps w = false → w.frozen = false →
  (∀ g rest rid ent pd next, s.growsOn w.core = g :: rest → g.wg = w.id → g.rid = rid → s.roleFits w rid = true →
    (s.live w.id).filter (fun u => (u.roleTarget).isSome) = [t] → t.status = .blocked (.role rid ent pd next) →
    ∃ u : Thread, (∀ n, n < 128 → u.reg n = if n < min w.allot (w.roleRegs rid) then (landed t).reg n else 0)
      ∧ u = { (landed t).setPred pd true with v := u.v, pc := if ent = true then w.roleEntry rid else next }
      ∧ exec (.roleGrowGrant w.core) s = .next (({ s.modWg w.id (fun y => { y with role := rid }) with
          grows := s.grows.filter (fun y => y.wg != w.id) } : State).fileThread u 0))
  ∧ (∀ c rest b, s.claimsOn w.core = c :: rest → c.core = w.core → c.wg = w.id → c.acc = false → c.kd = false →
    c.keys = [t.key] → b < 64 →
    let fits (b : Nat) : Prop := ∀ j, j < c.count → b + j < 64 ∧ ∀ p ∈ (s.core w.core).slotHolder, p.1 ≠ b + j
    fits b → (∀ b', b' < b → ¬ fits b') →
    ∃ m, Zeroed s.opmem m (w.core * 2 ^ 20 + 16384 * b) (16384 * c.count) ∧ exec (.oclaimGrant w.core) s = .next
      (({ s.setCore { s.core w.core with
            slotHolder := (s.core w.core).slotHolder ++ (List.range c.count).map (fun j => (j + b, w.id)) } with
          claims := s.claims.filter (fun x => x.id != c.id), opmem := m
          ecc := s.ecc.filter (fun e => match e with
            | .slot a => decide (a < w.core * 2 ^ 20 + 16384 * b ∨ w.core * 2 ^ 20 + 16384 * (b + c.count) ≤ a)
            | _ => true) } : State).fileThread
        { (t.setReg c.d (BitVec.ofNat 32 b)).setPred c.pd true with pc := c.next } 0))
  ∧ ((s.wgs.filter (fun y => y.core == w.core && y.foreign.isNone)) = [w] →
    (∀ u ∈ s.threads, u.wg = w.id → u.status ≠ .ready ∧ u.status ≠ .filed) →
    (∀ c, s.claims = [c] → s.grows = [] → c.wg = w.id → c.keys = [t.key] → s.grantOf c.core c.acc c.count = none →
      exec (.grantStall w.core) s = .next (({ s with claims := [] } : State).fileThread
        { t.setPred c.pd false with pc := c.next } 0))
    ∧ (∀ g rid ent pd next, s.grows = [g] → s.claims = [] → g.wg = w.id → s.roleFits w g.rid = false →
      (s.live w.id).filter (fun u => (u.roleTarget).isSome) = [t] → t.status = .blocked (.role rid ent pd next) →
      exec (.grantStall w.core) s = .next (({ s with grows := [] } : State).fileThread
        { (landed t).setPred pd false with pc := next } 0)))

/-- R40, R44, R45, R54, R55, R56, R109, R268: what the scheduler does of itself, and what it grants. -/
def Obligations.SchedulerActs : Prop := SchedulerEvents ∧ Grants

/-- R366, R367, R373, R374, R376: a thread on its way is placed on a guest core with a free slot, or arrives at its origin core;
the exit of a guest counts at its origin; a recalled guest leaves for home, one on another package once it hears of it; a wait for
a slot expires, and the instruction is issued again. A guest of another package goes home in a continuation. The port by which a
flit leaves is the model's choice (log entry 66). -/
def Obligations.GuestMovement : Prop := ∀ (s : State) (t : Thread) (w : Workgroup), s.thread t.key = some t → s.wg t.wg = some w →
  (∀ core a done, t.status = .transit s.pkg a.core done → (done = none ∨ s.steps w = false) → t.away = some a →
    (core = a.core ∨ core ∈ s.hedgeCores (w.ctxn / 16 + 1) (dieOf a.core) ∧ s.guests core < 256) →
    exec (.guestPlacement t.wg t.tidx core) s = .next (s.fileThread { t with away := some { a with core } } 0))
  ∧ (∀ done, t.status = .transit s.pkg w.core done → (done = none ∨ s.steps w = false) → w.foreign = none →
    exec (.homeArrival t.wg t.tidx) s = .next (s.fileThread { t with away := none, recalled := false } 0))
  ∧ (∀ p done, t.status = .transit p w.core done → w.foreign = some p → (s.contBytes w t).length ≤ 224 →
    let die := dieOf (s.coreOf t)
    let h := header s die p (w.ctxn / 16 + 1)
    s.portsFrom die = true → exec (.homeArrival t.wg t.tidx) s = .next ((sent { s with
        flits := s.flits + 1, txns := s.txns ++ [{ tag := h.tag, pkg := p, by' := .cont t.key true }] } h.port h
          (.cont 0 1 (s.contBytes w t).length (s.contBytes w t))).setThread { t with status := .data (.txn h.tag true) }))
  ∧ (t.status = .exiting ∧ w.foreign = none ∨ t.status = .gone → NoArrivals s →
    exec (.guestExitNotify t.wg t.tidx) s = .next (s.setThread { t with
      status := .exited, away := none, hops := 0, recalled := false, loads := [], tag := 0, cur := Vector.replicate 8 0, win := [] }))
  ∧ (t.status = .exiting → w.foreign ≠ none → ∃ s', exec (.guestExitNotify t.wg t.tidx) s = .next s'
      ∧ s'.thread t.key = none ∧ s'.mem = s.mem
      ∧ (∀ k, k ≠ t.key → ∃ st : Status → Status, s'.thread k = (s.thread k).map (fun u => { u with status := st u.status })))
  ∧ (t.away ≠ none → Unanswered s t → (∀ h ∈ s.held, t.key ∈ h.keys → h.expired = true) → (∀ l ∈ t.late, l.fault.code ≠ 0x0B) →
    let leaves (pc : Dword) (done : Option Dword) : State := ((s.unqueue t.key).release (s.coreOf t) t.key).setThread
      { landed t with pc, status := .transit (w.foreign.getD s.pkg) w.core done, seen := none }
    (t.status = .ready ∨ t.status = .filed → exec (.guestRecall t.wg t.tidx) s = .next (leaves t.pc none))
    ∧ (∀ next, t.status = .blocked (.yield next) → exec (.guestRecall t.wg t.tidx) s = .next (leaves next (some t.pc)))
    ∧ (∀ op, t.status = .blocked (.stream op) → s.txns = [] → exec (.guestRecall t.wg t.tidx) s = .next
        (let x := leaves t.pc none
         { x with ops := x.ops.filter (fun o => o.id != op), peeks := x.peeks.filter (fun p => p.who != .op op) })))
  ∧ (∀ a, t.status = .gone → t.away = some a → t.recalled = false →
    let die := dieOf w.core
    let h := header s die a.pkg (w.ctxn / 16 + 1)
    let x : State := { s with flits := s.flits + 1 }
    (s.portsFrom die = true → exec (.guestRecall t.wg t.tidx) s = .next
      ((sent x h.port h (.recall w.ctxn w.lin t.tidx)).setThread { t with recalled := true }))
    ∧ ((∀ p, p < 18 → s.links.portUp.getD p false = false) → exec (.guestRecall t.wg t.tidx) s
        = .next (x.setThread { t with recalled := true })))
  ∧ (∀ die, t.status = .data (.slot die) → s.txns = [] → ∃ s', exec (.slotWaitExpiry t.wg t.tidx) s = .next s'
      ∧ Resumed s s' { t with seen := some [5] } (s.coreOf t))

/-- R385, R388, R390, R392, R394, R413, R455: a write of a compressible block is performed when the reserve covers the
granules that it may need, the block then reads as written and the hedge's count follows; one that finds no granules is held,
and a balloon request waits to be posted. What is given up at its deadline fails at its writer. GRANT moves granules between
the pool of a die and the hedge's reserve. -/
def Obligations.CompressedMemory : Prop :=
  (∀ (s : State) (core op pa : Nat) (data : List Byte) (r : FrameRun) (x : List Byte),
    s.frameOf pa = some r → r.cmp = true → data ≠ [] → pa % 1024 + data.length ≤ 1024 →
    (∀ h ∈ s.held, h.expired = false → h.pa / 1024 ≠ pa / 1024) → s.gran.wf = true → metaWfFrom none s.bmeta = true →
    s.block (pa / 1024) = some x →
    let b := pa / 1024
    let v := s.vf r.vf
    (s.waitsOn r.vf (homeDie pa) = false → 16 ≤ v.reserve.getD (homeDie pa) 0 → metaNg (s.metaOf b) ≤ v.used →
      ∃ s', exec (.topiaryWrite (.engine core op) pa data) s = .next s'
        ∧ s'.block b = some ((List.range 1024).map (fun i =>
            if pa % 1024 ≤ i ∧ i < pa % 1024 + data.length then data.getD (i - pa % 1024) 0 else x.getD i 0))
        ∧ (∀ b', b' ≠ b → s'.block b' = s.block b')
        ∧ (s'.vf r.vf).used + metaNg (s.metaOf b) = v.used + metaNg (s'.metaOf b)
        ∧ s'.mem = s.mem ∧ s'.held = s.held)
    ∧ (s.metaOf b = 0 → v.reserve.getD (homeDie pa) 0 = 0 → (∃ y ∈ data, y ≠ 0) →
      ∃ h need, 1 ≤ need ∧ need ≤ 16 ∧ h.by' = .engine core op ∧ h.pa = pa ∧ h.op = .store data ∧ h.need = need
        ∧ exec (.topiaryWrite (.engine core op) pa data) s = .next (({ s with
            held := s.held ++ [h], fresh := s.fresh + 1 } : State).setVf { v with
              brwait := v.brwait ++ [natLe 1 (homeDie pa) ++ natLe 1 1 ++ natLe 2 need ++ natLe 8 (1024 * b)] })))
  ∧ (∀ (s : State) vf b rest,
    let v := s.vf vf
    let at' := (bits v.brbase 51 0).toNat + 16 * (v.brprod % 2 ^ v.brlog.toNat)
    v.brwait = b :: rest → b.length = 12 → v.brprod < v.brcons.toNat + 2 ^ v.brlog.toNat → at' % 16 = 0 →
    s.isCmp at' = false → s.mem.wf = true →
    ∃ s', exec (.balloonPost vf) s = .next s' ∧ Stored s s' at' (natLe 4 v.brprod ++ b)
      ∧ s' = { s.setVf { v with brwait := rest, brprod := v.brprod + 1 } with
          mem := s'.mem, poison := s'.poison, out := s.out ++ [.msix vf 2] })
  ∧ (∀ (s : State) (h : Held), s.held = [h] → h.need ≠ 0 → h.expired = false →
    (∀ core data o ms x dt ct out scl stag n oor, h.by' = .engine core o.id → h.op = .store data →
      s.ops.find? (fun y => y.id == o.id) = some o → o.body = .copy ms x dt ct out scl stag n oor →
      let c := min (2 * n) (o.counted + 2 * data.length)
      exec (.heldWriteExpiry h.id) s = .next (({ s with
        held := [], ops := s.ops.map (fun y => if y.id = o.id then { o with counted := c, err := 2 } else y) } : State).modTile o.wg ct
          (fun e => { arrived e (c / 2 - o.counted / 2) with err := 2 })))
    ∧ (∀ vf c, h.by' = .frontEnd vf c → (∀ x ∈ (s.vf vf).cmds, x.id = c → x.ended = none) → exec (.heldWriteExpiry h.id) s = .next (({ s with held := [] } : State).setVf
        { s.vf vf with cmds := (s.vf vf).cmds.map (fun x => if x.id = c then { x with status := if x.status = 6 then 6 else max x.status 8 } else x) }))
    ∧ (∀ p, h.by' = .peer p → exec (.heldWriteExpiry h.id) s = .next (answered { s with held := [] } p (.neg 2 0)))
    ∧ (∀ t wg tidx, h.by' = .thread wg tidx → h.keys = [t.key] → s.thread t.key = some t →
      let f : Raise := { code := 0x0B, space := 1, addr := (h.site.2.2).setWidth 128, size := h.op.len
                         site := some (h.site.1, h.site.2.1), held := some h.id }
      let x : State := { s with held := [{ h with expired := true }] }
      (∀ g, t.status = .data (.held h.id g) →
        exec (.heldWriteExpiry h.id) s = .next (x.raise (s.coreOf t) s.pkg h.site.2.1 [t.key] f))
      ∧ (t.status = .ready → ∃ s' l, exec (.heldWriteExpiry h.id) s = .next s' ∧ l.fault = f
          ∧ s'.thread t.key = some { t with late := t.late ++ [l] } ∧ s'.held = x.held)))
  ∧ ∀ (s : State) (vf die count : Nat), s.held = [] → s.hostWaits vf = false → (s.vf vf).migok = false → die < 4 →
    s.pools.length = 4 → (s.vf vf).reserve.length = 4 →
    let v := s.vf vf
    let pool := s.pools.getD die 0
    let mine := v.reserve.getD die 0
    let n := min count (min pool (v.hedge.quota.toNat - (v.used + v.reserve.sum)))
    let m := min count mine
    (∃ g : Dword, bits g 63 8 = BitVec.ofNat 56 n ∧ exec (.grantGranules vf die count) s = .next
      { s.setVf { v with reserve := v.reserve.set die (mine + n), grant := g } with pools := s.pools.set die (pool - n) })
    ∧ (∃ g : Dword, bits g 63 8 = BitVec.ofNat 56 m ∧ exec (.grantReturn vf die count) s = .next
      { s.setVf { v with reserve := v.reserve.set die (mine - m), grant := g } with pools := s.pools.set die (pool + m) })

/-- R33, R42, R214, R306, R409, R410, R411: a bind record that passes the checks starts its workgroup on a core whose context
is loaded, its parameters in the k registers and its threads at the kernel's entry with registers of zero; on another core it
waits for the reload, which reads the graph tables; and one that fails is logged, and binds nothing. -/
def Sys2Proof.Certificates.Binding : Prop := ∀ (s : State) (core slot : Nat) (r : BindRecord),
  let c := s.core core
  (r.valid = true → core < 256 → slot < 16 → (∀ x ∈ c.slots, x.1 ≠ slot) → (∀ x ∈ c.waiting, x.1 ≠ slot) →
    (∀ n, s.bindReason core r = some n → r.ctxn.toNat < 1024 →
      Logs (.bindRecordWrite core slot r) s s 0x04 (core / 64) (r.ctxn.toNat / 16 + 1))
    ∧ (s.bindReason core r = none →
      (c.loaded ≠ some r.ctxn.toNat ∨ c.reload ≠ none → exec (.bindRecordWrite core slot r) s = .next (s.setCore
        { c with reload := some r.ctxn.toNat, waiting := c.waiting ++ [(slot, r)], seqMax := r.seq.toNat + 1 }))
      ∧ ∀ l, s.launchOf r = some l → l.kernel.gang = 0 → l.nthr ≤ 1024 → c.loaded = some r.ctxn.toNat → c.reload = none →
        (∀ t ∈ s.threads, t.wg ≠ s.fresh) → (∀ u ∈ s.wgs, u.id ≠ s.fresh) →
        ∃ s' w, exec (.bindRecordWrite core slot r) s = .next s' ∧ s'.wg s.fresh = some w
          ∧ (w.core, w.ctxn, w.launch, w.wgx, w.wgy, w.wgz) = (core, r.ctxn.toNat, r.launch, r.wgx, r.wgy, r.wgz)
          ∧ (w.kernel, w.nthr, w.role, w.spad, w.spadSize) = (l.kernel, l.nthr, 0, [], r.ssize.toNat)
          ∧ (∀ j : Fin 64, w.k[j] = if bit l.kernel.pmask j = true then l.params.getD j 0 else 0)
          ∧ s'.launches = s.launches.map (fun y => if y.vf = l.vf ∧ y.no = l.no then
              { y with bound := y.bound ++ [(r.wgx + BitVec.ofNat 32 l.nwgx * (r.wgy + BitVec.ofNat 32 l.nwgy * r.wgz)).toNat] }
              else y)
          ∧ ∀ tidx, tidx < l.nthr → ∃ t, s'.thread ⟨s.fresh, tidx⟩ = some t ∧ (t.status = .filed ∨ t.status = .ready)
              ∧ t.pc = l.kernel.code + BitVec.ofNat 64 (4 * ((l.kernel.roles.head?).map (·.entry)).getD 0)
              ∧ t.v = Vector.replicate 128 0 ∧ t.p = 0 ∧ t.win = [] ∧ t.trapvec = 0 ∧ t.hnd = false
              ∧ t.stkbase = l.kernel.stack + l.kernel.stkz * BitVec.ofNat 64 (w.lin.toNat * l.nthr + tidx)
              ∧ t.stktop = t.stkbase ∧ t.stklim = t.stkbase + l.kernel.stkz))
  ∧ ∀ ctxn, c.reload = some ctxn → c.waiting = [] → (∀ w ∈ s.wgs, w.core = core → w.foreign ≠ none) →
    (∀ o ∈ s.ops, o.core ≠ core) → s.guests core = 0 → Legible s →
    ∃ s', exec (.coreReload core) s = .next s' ∧ s' = { s.setCore { c with loaded := some ctxn, reload := none } with
        graphs := s'.graphs, freeN := s'.freeN, tlb := s.tlb.filter (fun x => x.core != some core) }
      ∧ s'.graphs.filter (fun d => d.ctxn != ctxn) = s.graphs.filter (fun d => d.ctxn != ctxn)

/-- R38, R406, R407: a workgroup retires once its threads have exited and its operations have completed; its stores have been
performed, and what it held is free. With its last workgroup a launch ends, and its command with status 0x0. -/
def Sys2Proof.Certificates.Retirement : Prop := ∀ (s : State) (w : Workgroup) (l : Launch),
  s.wg w.id = some w → w.started = true → w.foreign = none → (∀ t ∈ s.threads, t.wg = w.id → t.status = .exited) →
  (∀ o ∈ s.ops, o.wg ≠ w.id) → NoArrivals s →
  s.launches.find? (fun l => l.vf == w.ctxn / 16 + 1 && l.no == w.launch) = some l → l.retired + 1 ≤ l.bound.length →
  let x := s.flushAll
  ∃ s', exec (.workgroupRetire w.id) s = .next s' ∧ s'.wg w.id = none
    ∧ (∀ k, k.wg = w.id → s'.thread k = none)
    ∧ (∀ k, k.wg ≠ w.id → ∃ st : Status → Status, s'.thread k = (s.thread k).map (fun u => { u with status := st u.status }))
    ∧ (∀ p ∈ (s'.core w.core).slotHolder, p.2 ≠ w.id) ∧ (∀ p ∈ (s'.core w.core).accHolder, p.2 ≠ w.id)
    ∧ (∀ p ∈ (s'.core w.core).slots, p.2.2 ≠ w.id)
    ∧ (l.retired + 1 < l.bound.length → s'.mem = x.mem ∧ s'.vfs = x.vfs
        ∧ s'.launches = s.launches.map (fun y =>
            if y.vf = l.vf ∧ y.no = l.no then { y with retired := y.retired + 1 } else y))
    ∧ ∀ c, l.retired + 1 = l.bound.length → l.bound.length = l.nwgx * l.nwgy * l.nwgz → l.status = 0 →
        (s.ctx l.ctxn).lost = false → (s.ctx l.ctxn).faulted = false → (s.vf l.vf).cmds = [c] → c.id = l.cmd → c.replay = false →
        RingAt x (x.vf l.vf) c.idx →
        Ended x s' l.vf c.idx 0 ∧ s'.launches = s.launches.filter (fun y => !(y.vf == l.vf && y.no == l.no))

/-- R33, R38, R42, R214, R306, R406, R407, R409, R410, R411: a workgroup is bound to a core, and retires.
The model's own choices: the scratchpad of a new workgroup is zero (log entry 7), and why a record binds nothing beyond R410's
plain words (entries 30, 52 and 59). -/
def Obligations.WorkgroupLife : Prop := Binding ∧ Retirement

/-- R320, R321, R322, R323, R324, R413: the quantum of a context ends only while another context of the hedge waits for cores;
after the drain budget its workgroups freeze once their threads are save-safe, and are saved and leave the core; at the escalation
deadline the context is lost, and none of its workgroups remain. A restored workgroup goes on: its threads wait as they did, and
those parked on a resolvable fault execute their instruction again.
The model's own choices: the size and bytes of a save are free, its contents are kept apart (log entry 20); what is save-safe and
how a restored thread waits are readings (entry 40). -/
def Obligations.ShutterSequence : Prop := ∀ (s : State) (ctx : Nat),
  let c := s.ctx ctx
  ((∃ w ∈ s.wgs, w.ctxn = ctx ∧ w.foreign = none) → c.shutter = .opened →
    ((∃ l ∈ s.launches, l.ctxn ≠ ctx ∧ l.ctxn / 16 = ctx / 16 ∧ l.cancelled = false
        ∧ l.bound.length < l.nwgx * l.nwgy * l.nwgz) →
      exec (.quantumExpiry ctx) s = .next (s.setCtx { c with shutter := .draining }))
    ∧ ((∀ l ∈ s.launches, l.ctxn / 16 = ctx / 16 → l.ctxn = ctx) → exec (.quantumExpiry ctx) s = .next s))
  ∧ (c.shutter = .draining → exec (.drainBudgetExpiry ctx) s = .next (s.setCtx { c with shutter := .closing }))
  ∧ (c.shutter ≠ .draining → exec (.drainBudgetExpiry ctx) s = .next s)
  ∧ (∀ w, s.wg w.id = some w → w.foreign = none → w.ctxn = ctx → c.shutter = .closing → w.kernel.gang = 0 →
    (∀ u ∈ s.wgs, u.sstepFrz = false) →
    let safe (t : Thread) : Prop := t.away = none ∧ (t.status = .exited ∨ (∃ p, t.status = .parked p)
      ∨ ∃ b, t.status = .blocked b ∧ ∀ op, b ≠ .stream op)
    ((∀ t ∈ s.threads, t.wg = w.id → safe t) →
      exec (.workgroupFreeze w.id) s = .next (s.modWg w.id (fun y => { y with frozen := true })))
    ∧ ((∃ t ∈ s.threads, t.wg = w.id ∧ (t.status = .ready ∨ t.status = .filed ∨ t.status = .data .load ∨ t.away ≠ none)) →
      exec (.workgroupFreeze w.id) s = .next s))
  ∧ (let y := s.flushAll
    ∀ w d, y.wg w.id = some w → w.frozen = true → w.ctxn = ctx → s.steps w = false → (∀ o ∈ s.ops, o.wg ≠ w.id) → c.desc = some d →
    (∀ h ∈ s.held, ∀ k ∈ h.keys, k.wg ≠ w.id) →
    (∀ z ∈ s.txns, ∀ k, (z.by' = .reply k ∨ ∃ l, z.by' = .fetch k l) → k.wg ≠ w.id) →
    (∀ x ∈ s.saved, x.wg.ctxn ≠ ctx) → (∀ j ∈ s.joins, ∀ k ∈ j.faulty, k.wg ≠ w.id) → y.mem.wf = true →
    let n := Config.saveSize (w.allot * w.nthr + w.spadSize)
    n ≤ d.savesz → (∀ a, d.save ≤ a → a < d.save + n → s.isCmp a = false) →
    ∃ s' x b, exec (.workgroupSave w.id) s = .next s' ∧ s'.saved = s.saved ++ [x] ∧ x.wg = w ∧ b.length = n
      ∧ Stored y s' d.save b ∧ s'.wg w.id = none ∧ (∀ k, k.wg = w.id → s'.thread k = none)
      ∧ (∀ t ∈ s.threads, t.wg = w.id → (t.status = .exited ∨ (∃ p, t.status = .parked p) ∨ ∃ i p n, t.status = .blocked (.tile i p n)) →
          landed t ∈ x.threads)
      ∧ ∀ k, (k, w.id) ∈ (s.core w.core).slotHolder →
          (k, (List.range 16384).map (fun i => memGet s.opmem (w.core * 2 ^ 20 + 16384 * k + i))) ∈ x.slots)
  ∧ ((∃ w ∈ s.wgs, w.ctxn = ctx ∧ w.foreign = none) → c.shutter = .closing →
    ∃ s', exec (.escalationDeadline ctx) s = .next s' ∧ (s'.ctx ctx).lost = true ∧ (s'.ctx ctx).shutter = .opened
      ∧ (∀ w ∈ s'.wgs, w.ctxn = ctx → w.foreign ≠ none) ∧ ∀ x ∈ s'.saved, x.wg.ctxn ≠ ctx)
  ∧ ∀ (x : Saved) core slot r, s.saved.find? (fun y => y.wg.id == x.wg.id) = some x → s.restoreOk core slot r x = true →
    (s.core core).loaded = some x.wg.ctxn → x.slots = [] → x.accs = [] → x.claims = [] → NoArrivals s →
    (x.threads.map Thread.key).Nodup → (∀ u ∈ s.threads, u.wg ≠ x.wg.id) → (∀ u ∈ s.wgs, u.id ≠ x.wg.id) →
    (∀ b ∈ s.bins, b.wg ≠ x.wg.id) → (∀ o ∈ s.overflow, o.key.wg ≠ x.wg.id) →
    (∀ t ∈ x.threads, t.wg = x.wg.id ∧ t.tidx ≠ 0xFFFF ∧ t.away = none ∧ t.teamWait = none ∧ t.roleTarget = none) →
    ∃ s' : State, exec (.workgroupRestore x.wg.id core slot r) s = .next s'
      ∧ s'.wg x.wg.id = some { x.wg with core, slot, seq := r.seq.toNat, frozen := false }
      ∧ s'.saved = s.saved.filter (fun y => y.wg.id != x.wg.id) ∧ s'.mem = s.mem
      ∧ ∀ t ∈ x.threads, ∃ u : Thread, s'.thread t.key = some u
        ∧ ((t.status = .filed ∨ ∃ p, t.status = .parked p ∧ p.kind = .resolve) →
            (u.status = .filed ∨ u.status = .ready)
            ∧ u = { t with status := u.status, arrived := u.arrived, ftag := 0, took := false })
        ∧ ((t.status = .exited ∨ (∃ p, t.status = .parked p ∧ p.kind ≠ .resolve) ∨ ∃ i p n, t.status = .blocked (.tile i p n)) →
            u = { t with arrived := u.arrived })

/-- R404, R405, R406, R407, R408, R416, R417: TAIL moves on, and an overfull ring sets QERR. A command is taken from its slot;
a malformed one ends with status 0x1, one of a lost or faulted context with 0x5 or 0x4, one whose address fails its check with
0x6. A Launch reads its descriptor and parameters and becomes a launch; a Copy and a Signal store their bytes and end; a Wait
keeps its place, and ends once the word is at or above its value; a Checkpoint writes its record, clears the log and begins it
with its mark.
The model's own readings: 0x5 before 0x4, 0x2 for a descriptor that cannot be read, and the position in a checkpoint's record (log
entry 35); the front ends stand on die 0 (entry 36); and the replicas that a launch ends (entry 65). -/
def Obligations.Commands : Prop := ∀ (s : State) (vf : Nat),
  let v := s.vf vf
  (∀ val : Dword, s.hostWaits vf = true → exec (.tail vf val) s
      = .next { s with hostq := s.hostq ++ [(vf, regBase + 65536 * vf, natLe 8 val.toNat)] })
  ∧ (∀ val : Dword, s.hostWaits vf = false → val.toNat < 2 ^ v.qlog.toNat → ∃ t, t % 2 ^ v.qlog.toNat = val.toNat ∧ v.tail ≤ t ∧ t < v.tail + 2 ^ v.qlog.toNat
    ∧ exec (.tail vf val) s = .next (s.setVf { v with
        tail := t, qerr := if 2 ^ v.qlog.toNat ≤ t - v.head then true else v.qerr }))
  ∧ (∀ b, TakesNext s vf b →
    let c := taken s vf b
    let x := took s vf b
    let ctxn := 16 * (vf - 1) + field b 2 2
    let at' (off : Nat) : BitVec 80 := BitVec.ofNat 80 (field b off 10)
    let gen (write : Bool) (n align : Nat) : AccessKind := { n, align, paths := if write = true then [0, 3] else [0, 1, 3], write }
    let plain (pa n : Nat) : Prop := x.isCmp pa = false ∧ x.reaches 0 (homeDie pa) = true
      ∧ ∀ a ∈ s.poison, a < pa ∨ pa + n ≤ a
    ((field b 0 1 = 0 ∨ 5 < field b 0 1) → Ends (.launch vf) s x vf v.taken 1)
    ∧ (field b 0 1 = 4 → field b 1 1 = 0 → field b 2 2 < 16 → zeroAt b 4 4 = true → zeroAt b 0x18 36 = true →
      ((x.ctx ctxn).desc ≠ none ∨ (x.physRead ((x.vf (ctxn / 16 + 1)).ctxbase.toNat + 128 * (ctxn % 16)) 128).isSome = true) →
      ((x.ctx ctxn).lost = true → Ends (.signal vf) s x vf v.taken 5)
      ∧ ((x.ctx ctxn).lost = false → (x.ctx ctxn).faulted = true → Ends (.signal vf) s x vf v.taken 4))
    ∧ ((x.ctx ctxn).lost = false → (x.ctx ctxn).faulted = false → c.wellFormed = true →
      (∀ d, (x.ctx ctxn).desc = some d →
        (field b 0 1 = 2 →
          let n := field b 0x28 8
          (at' 8).toNat % 128 + n ≤ 128 → (at' 0x18).toNat % 128 + n ≤ 128 → (bits (at' 8) 79 76).toNat = 0 →
          (bits (at' 0x18) 79 76).toNat = 0 →
          (∀ g h p q, x.checkVa (agentWg ctxn) (atDie 0) (gen false n 1) (at' 8) = .ok g → g.loc = .main p →
            x.checkVa (agentWg ctxn) (atDie 0) (gen true n 1) (at' 0x18) = .ok h → h.loc = .main q → plain p n → plain q 0 →
            ∃ y, StoredOnly x y q ((List.range n).map (fun i => memGet s.mem (p + i))) ∧ Ends (.copy vf) s y vf v.taken 0)
          ∧ (∀ e, x.checkVa (agentWg ctxn) (atDie 0) (gen false n 1) (at' 8) = .error e →
            Legible x → Ends (.copy vf) s x vf v.taken 6))
        ∧ (field b 0 1 = 3 →
          let va := vaOf (BitVec.ofNat 64 (field b 8 8))
          (∀ g pa, x.checkVa (agentWg ctxn) (atDie 0) { n := 8, align := 8, paths := [0] } va = .ok g → g.loc = .main pa →
            exec (.wait vf) s = .next (x.setVf { x.vf vf with cmds := [{ c with moves := [
              { src := some (.main pa), pad := 0, dst := some (.main pa), size := 8, srcHalf := none, dstHalf := none }] }] }))
          ∧ (∀ e, x.checkVa (agentWg ctxn) (atDie 0) { n := 8, align := 8, paths := [0] } va = .error e →
            Legible x → Ends (.wait vf) s x vf v.taken 6))
        ∧ (field b 0 1 = 4 →
          let va := vaOf (BitVec.ofNat 64 (field b 8 8))
          let k : AccessKind := { n := 8, align := 8, paths := [0], write := true }
          (∀ g q, x.checkVa (agentWg ctxn) (atDie 0) k va = .ok g → g.loc = .main q → plain q 0 →
            ∃ y, StoredOnly x y q ((b.drop 0x10).take 8) ∧ Ends (.signal vf) s y vf v.taken 0)
          ∧ (∀ e, x.checkVa (agentWg ctxn) (atDie 0) k va = .error e → Legible x → Ends (.signal vf) s x vf v.taken 6))
        ∧ (field b 0 1 = 5 →
          let pa := field b 8 8
          let back : State := { x.flushAll with
            images := x.flushAll.images.filter (fun i => !(x.flushAll.frameOf (1024 * i.block)).any (fun r => r.vf == vf)) }
          let u := back.vf vf
          let logAt := (bits u.logbase 51 0).toNat + 64 * (u.logpos % 2 ^ u.loglog.toNat)
          (∃ r, x.frameOf pa = some r ∧ r.vf = vf) → (∃ r, x.frameOf (pa + 63) = some r ∧ r.vf = vf) →
          (∀ i, i < 64 → back.isCmp (pa + i) = false ∧ back.isCmp (logAt + i) = false) → RingAt back u v.taken → u.cmds = [c] →
          let det := decide (∀ l ∈ s.launches, l.vf = vf → l.kernel.det = true)
          let body := natLe 4 u.logpos ++ natLe 4 (if det = true then 1 else 0) ++ natLe 4 u.nextLaunch.toNat ++ natLe 4 0
            ++ natLe 8 ((v.taken + 1) % 2 ^ u.qlog.toNat) ++ natLe 8 u.used ++ List.replicate 28 0
          ∃ y z, StoredOnly back y pa (body ++ natLe 4 1)
            ∧ StoredOnly y z logAt ([5, 56, 0, 0] ++ natLe 4 u.logpos ++ body.take 56)
            ∧ Ends (.checkpoint vf) s (z.setVf { z.vf vf with logstart := u.logpos, logpos := u.logpos + 1, migok := det })
                vf v.taken 0))
      ∧ ∀ d ms, field b 0 1 = 1 → x.readCtx ctxn = some d →
        let y0 := x.setCtx { x.ctx ctxn with desc := some d }
        y0.launchMoves ctxn c = some ms → needRemote ms = false →
        let y := y0.setVf { y0.vf vf with cmds := [{ c with moves := ms }] }
        (y.readMoves (c.mover vf) ms = none → ∃ z : State, z.launches = s.launches ∧ Ends (.launch vf) s z vf v.taken 2)
        ∧ ∀ k, y.readMoves (c.mover vf) ms = some k →
          let total := field b 0x18 4 * field b 0x1C 4 * field b 0x20 4
          let desc := kernelFields (k.take 128)
          (kernelOk (k.take 128) = false → Ends (.launch vf) s y0 vf v.taken 2)
          ∧ (kernelOk (k.take 128) = true → y.launchFits vf desc (field b 4 4) total = false →
              Ends (.launch vf) s y0 vf v.taken 3)
          ∧ (kernelOk (k.take 128) = true → y.launchFits vf desc (field b 4 4) total = true →
            ∃ l, exec (.launch vf) s = .next { y0.setVf { y0.vf vf with nextLaunch := v.nextLaunch + 1, cmds := [c] } with
                launches := s.launches ++ [l], replicas := [] }
              ∧ l = { vf, no := v.nextLaunch, ctxn, cmd := c.id, kernel := desc, nthr := field b 4 4, nwgx := field b 0x18 4
                      nwgy := field b 0x1C 4, nwgz := field b 0x20 4
                      params := (List.range 64).map (fun j => BitVec.ofNat 64 (field k (128 + 8 * j) 8))
                      bound := [], retired := 0, cancelled := false, status := 0 }
              ∧ (desc.code.toNat, desc.spad, desc.age, desc.tiles, desc.sentry, desc.gang, desc.hops, desc.gsize)
                  = (field k 0 8, field k 8 4, field k 0x0C 2, field k 0x0F 1, field k 0x20 4, field k 0x24 1, field k 0x25 1,
                     field k 0x28 4)
              ∧ desc.nroles = field k 0x0E 1 % 8 ∧ desc.det = (field k 0x0E 1).testBit 4
              ∧ desc.slice = (field k 0x0E 1).testBit 5
              ∧ ∀ i, i < desc.nroles → desc.roles[i]? = some (let r := field k (0x10 + 4 * i) 4
                  { regs := r % 256, cls := r / 256 % 4, entry := r / 1024 }))))
  ∧ ∀ (c : Command) pa, v.cmds = [c] → field c.bytes 0 1 = 3 → c.replay = false → c.status = 0 → c.ended = none →
    s.txns = [] → s.held = [] →
    c.moves = [{ src := some (.main pa), pad := 0, dst := some (.main pa), size := 8, srcHalf := none, dstHalf := none }] →
    pa % 8 = 0 → s.isCmp pa = false → s.reaches 0 (homeDie pa) = true → (∀ a ∈ s.poison, a < pa ∨ pa + 8 ≤ a) → RingAt s v c.idx →
    let word := leNat ((List.range 8).map (fun i => memGet s.mem (pa + i)))
    (field c.bytes 0x10 8 ≤ word → Ends (.eventWaitComplete vf c.id) s s vf c.idx 0)
    ∧ (word < field c.bytes 0x10 8 → exec (.eventWaitComplete vf c.id) s = .next s)

/-- R303, R304, R314, R325: a reply reaches the thread that is parked under its SEQ. RESUME files it at its PC, after its SYSC,
or at EPC where the debugger held it; ABORT makes it take the code as a trapping fault, and marks the context faulted where it
can enter no handler; a thread that RESUME files goes on with what the debugger has written to it (R420). That a reply that reaches
nobody does nothing is the model's reading (log entry 45). -/
def Sys2Proof.Certificates.Replies : Prop := ∀ (s : State) (vf c : Nat) (seq : Word),
  let ctxn := 16 * (vf - 1) + c
  (s.vf vf).migok = false → c < 16 → s.hostWaits vf = false →
  (s.parkedUnder ctxn seq = [] → exec (.replyResume vf c seq) s = .next s ∧ ∀ code, exec (.replyAbort vf c seq code) s = .next s)
  ∧ ∀ t w p, s.parkedUnder ctxn seq = [(t, p)] → s.thread t.key = some t → s.wg t.wg = some w → w.foreign = none →
    w.ctxn = ctxn → s.steps w = false → t.status = .parked p → (∀ x ∈ s.saved, x.wg.id ≠ t.wg ∧ ∀ u ∈ x.threads, u.key ≠ t.key) →
    (∀ off val e, t.dbg = [(off, val)] → p.kind = .debug e →
      let goes (u : Thread) : Prop := exec (.replyResume vf c seq) s = .next (s.fileThread { u with dbg := [], ftag := 0 } t.ftag)
      (off = 0 → goes { t with pc := val })
      ∧ (off = 8 → goes { t with pc := e, p := val.setWidth 16 &&& 0x7FFF#16 })
      ∧ (off = 0x10 → goes { t with pc := e, trapvec := val })
      ∧ (off = 0x68 → exec (.replyResume vf c seq) s = .next ((s.modWg w.id (fun y =>
          { y with sstepEn := bit val 0, sstepFrz := bit val 1 })).fileThread { t with pc := e, dbg := [], ftag := 0 } t.ftag))
      ∧ ∀ n, n + 1 < min w.allot 128 → n % 2 = 0 → off = 0x400 + 4 * n →
          goes { (t.setReg n (bits val 31 0)).setReg (n + 1) (bits val 63 32) with pc := e })
    ∧ (t.dbg = [] →
    (p.kind = .resolve → exec (.replyResume vf c seq) s = .next (s.fileThread { t with ftag := 0 } t.ftag))
    ∧ (∀ n, p.kind = .sysc n → exec (.replyResume vf c seq) s = .next (s.fileThread { t with pc := n } 0))
    ∧ (∀ e, p.kind = .debug e → exec (.replyResume vf c seq) s = .next (s.fileThread { t with pc := e, ftag := 0 } t.ftag))
    ∧ ∀ code : Byte, p.kind = .resolve → p.fault.sysc = none → (t.away ≠ none → Drained s t) →
      (t.tidx ≠ 0xFFFF → t.hnd = false → t.trapvec ≠ 0 → bits t.trapvec 1 0 = 0 →
        exec (.replyAbort vf c seq code) s = .next (s.fileThread { t with
          away := none, hops := 0, epc := t.pc, trapcause := code.setWidth 64, hnd := true, pc := t.trapvec
          frec := BitVec.ofNat 512 (leNat (p.body ++ natLe 4 seq.toNat)) } 0))
      ∧ (t.hnd = true ∨ t.trapvec = 0 → ∃ q, q.kind = .forever ∧ q.fault.code = code
          ∧ exec (.replyAbort vf c seq code) s = .next ((s.setThread { t with
              away := none, hops := 0, status := .parked q }).setCtx { s.ctx ctxn with faulted := true })))

/-- R306, R402, R415, R418, R419, R420, R426: CLRQ clears QERR and discards what has not started; CTXCLR clears a faulted or lost
context once its queued operations have completed, and retires its workgroups; a write of RPLEND starts a replay, which ends at
its last entry; DBGSEL attaches a debugger, DBGSSTEP sets SSTEP of the workgroup that is selected, if one is resident, and what
DBGWIN writes to the thread that is held is kept for its RESUME. Behind an earlier write of the function they wait. -/
def Sys2Proof.Certificates.DriverRegisters : Prop := ∀ (s : State) (vf : Nat),
  let v := s.vf vf
  let waits (i : Instr) (off n val : Nat) : Prop :=
    exec i s = .next { s with hostq := s.hostq ++ [(vf, regBase + 65536 * vf + off, natLe n val)] }
  exec (.qctlClrq vf) s = .next (s.setVf { v with qerr := false, tail := v.taken })
  ∧ (s.hostWaits vf = true → ∀ (val : Dword) (w : Word) (mask : BitVec 16),
    (mask ≠ 0 → waits (.ctxclr vf mask) 0x98 4 mask.toNat) ∧ (v.rpl = false → waits (.rplend vf val) 0xA8 8 val.toNat)
    ∧ waits (.dbgsel vf val) 0x80 8 val.toNat ∧ waits (.dbgsstep vf w) 0x88 4 w.toNat
    ∧ ∀ off, waits (.dbgwin vf off val) (0x800 + off) 8 val.toNat)
  ∧ (v.rpl = true → v.rplend.toNat ≤ v.rplcur → v.cmds = [] → exec (.rplend vf v.rplend) s = .next (s.setVf { v with rpl := false }))
  ∧ (s.hostWaits vf = false →
    (∀ n, n / 16 + 1 = vf → (∀ m, m / 16 = n / 16 → (s.ctx m).clearing = false) → v.rpl = false →
      let mask : BitVec 16 := BitVec.ofNat 16 (2 ^ (n % 16))
      let x := s.ctx n
      (x.faulted = false → x.lost = false → exec (.ctxclr vf mask) s = .next s)
      ∧ (x.faulted = true ∨ x.lost = true →
        (∀ o ∈ s.ops, ∀ w, s.wg o.wg = some w → w.foreign = none → w.ctxn = n →
          exec (.ctxclr vf mask) s = .next (s.setCtx { x with clearing := true }))
        ∧ (s.ops = [] → ∃ s' y, exec (.ctxclr vf mask) s = .next s' ∧ (∀ w ∈ s'.wgs, w.ctxn = n → w.foreign ≠ none)
            ∧ (∀ z ∈ s'.saved, z.wg.ctxn ≠ n) ∧ s'.ctx n = y
            ∧ y = { x with faulted := false, lost := false, clearing := false, shutter := y.shutter })))
    ∧ (∀ val, v.rpl = false → exec (.rplend vf val) s = .next (s.setVf { v with
        rplend := val, rpl := true, rplcur := v.rplpos.toNat }))
    ∧ (∀ val : Dword, let n := 16 * (vf - 1) + (bits val 51 48).toNat
        exec (.dbgsel vf val) s = .next ((s.setVf { v with dbgsel := val &&& 0x800FFFFFFFFFFFFF#64 }).setCtx { s.ctx n with debug := bit val 63 }))
    ∧ (v.no = vf →
      let mine (w : Workgroup) : Bool := w.ctxn == 16 * (vf - 1) + (bits v.dbgsel 51 48).toNat && w.foreign.isNone
        && w.lin == bits v.dbgsel 47 16
      (∀ w val, s.wgs.find? mine = some w →
        let f (y : Workgroup) : Workgroup := { y with sstepEn := bit val 0, sstepFrz := bit val 1 }
        exec (.dbgsstep vf val) s = .next { (s.setVf { v with dbgsstep := val &&& 3#32 }).modWg w.id f with
          saved := s.saved.map (fun x => if x.wg.id = w.id then { x with wg := f x.wg } else x) })
      ∧ (∀ val, s.wgs.find? mine = none → exec (.dbgsstep vf val) s = .next s)
      ∧ (∀ w t, s.wgs.find? mine = some w → s.thread ⟨w.id, (bits v.dbgsel 15 0).toNat⟩ = some t →
        (∀ p e, t.status = .parked p → p.kind = .debug e → ∀ off (val : Dword),
          exec (.dbgwin vf off val) s = .next (s.modThread t.key (fun u => { u with dbg := u.dbg ++ [(off, val)] })))
        ∧ (t.status = .ready → ∀ off val, exec (.dbgwin vf off val) s = .next s))))

/-- R303, R304, R306, R314, R325, R402, R415, R418, R419, R420: replies of the driver, and its registers. -/
def Obligations.DriverActs : Prop := Replies ∧ DriverRegisters

/-- R401, R402, R412, R413, R414: the physical function gives a hedge its record only while the hedge is idle and meets no
other, and logs what it refuses; a frame command backs frames of the hedge's colours that nothing backs, a plain frame reading
as zero and taking its granules from its die's pool, and a release gives them back; FSTAT shows the outcome once the command is
done. A register write stores its value, the bits that read as zero apart, or acts as the event that it stands for.
The model's own reading: the order of FSTAT's checks, and the moment at which FSTAT shows (log entry 46). -/
def Obligations.HedgesAndFrames : Prop := ∀ (s : State) (vf : Nat), 1 ≤ vf → vf ≤ 64 →
  let v := s.vf vf
  let idle := (∀ w ∈ s.wgs, w.ctxn / 16 + 1 ≠ vf) ∧ v.head = v.tail ∧ v.cmds = []
  let ends (i : Instr) (st : Word) : Prop := exec i s = .next { s with mgmt := { s.mgmt with fstat := 1, fnext := st } }
  (∀ r, (idle → s.hedgeOk vf r = true → exec (.hedgeRecordWrite vf r) s = .next (s.setVf { v with hedge := r }))
    ∧ ((∃ w ∈ s.wgs, w.ctxn / 16 + 1 = vf) ∨ v.head ≠ v.tail → Logs (.hedgeRecordWrite vf r) s s 0x05 0 vf)
    ∧ ((∃ u ∈ s.vfs, u.no ≠ vf ∧ u.hedge.cmask &&& r.cmask ≠ 0) → Logs (.hedgeRecordWrite vf r) s s 0x05 0 vf))
  ∧ (∀ first n cmp, s.mgmt.fstat ≠ 1 → s.mgmt.faddr.toNat = 65536 * first → s.mgmt.fcount.toNat = n → 1 ≤ n → n ≤ 16777216 →
    first + n ≤ 2 ^ 25 → s.mem.wf = true →
    let colour (f : Nat) : Nat := (f % 16) ^^^ (f / 16 % 16) ^^^ (f / 256 % 16) ^^^ (f / 4096 % 16) ^^^ (f / 65536 % 16)
    let coloured := ∀ i, i < n → v.hedge.cmask.getLsbD (colour (first + i)) = true
    let unbacked := ∀ r ∈ s.frames, r.first + r.count ≤ first ∨ first + n ≤ r.first ∨ r.count = 0
    (¬ coloured → ends (.frameBack vf cmp) 2)
    ∧ (coloured → ¬ unbacked → ends (.frameBack vf cmp) 3)
    ∧ ∀ die, first / 2 ^ 23 = die → (first + n - 1) / 2 ^ 23 = die → s.pools.length = 4 →
      let pool := s.pools.getD die 0
      (coloured → unbacked → cmp = false → pool < 1024 * n → ends (.frameBack vf cmp) 4)
      ∧ (coloured → unbacked → cmp = true ∨ 1024 * n ≤ pool → ∃ s', exec (.frameBack vf cmp) s = .next s'
          ∧ s'.frames = s.frames ++ [{ first, count := n, vf, cmp }]
          ∧ s'.pools = (if cmp = true then s.pools else s.pools.set die (pool - 1024 * n))
          ∧ Zeroed s.flushAll.mem s'.mem (65536 * first) (65536 * n) ∧ s'.mgmt = { s.mgmt with fstat := 1, fnext := 0 }
          ∧ s' = { s.flushAll with
              frames := s'.frames, pools := s'.pools, mem := s'.mem, mgmt := s'.mgmt, gran := s'.gran, bmeta := s'.bmeta
              poison := s'.poison, held := s'.held, images := s'.images, replicas := s'.replicas })
      ∧ ((∃ w ∈ s.wgs, w.ctxn / 16 + 1 = vf) → ends (.frameRelease vf) 6)
      ∧ (idle → unbacked → ends (.frameRelease vf) 3)
      ∧ (idle → s.frames = [{ first, count := n, vf, cmp := false }] → s.bmeta = [] → ∃ s', exec (.frameRelease vf) s = .next s'
          ∧ s'.frames = [] ∧ s'.pools = s.pools.set die (pool + 1024 * n)
          ∧ s'.mgmt = { s.mgmt with fstat := 1, fnext := 0 } ∧ (s'.vf vf).used = v.used))
  ∧ (s.mgmt.fstat = 1 → (∀ cmp, exec (.frameBack vf cmp) s = .next s) ∧ exec (.frameRelease vf) s = .next s
      ∧ exec .frameCommandDone s = .next { s with mgmt := { s.mgmt with fstat := s.mgmt.fnext } })
  ∧ (∀ fn off (val : Dword), s.hostWaits fn = true → exec (.registerWrite fn off val) s = .next { s with
      hostq := s.hostq ++ [(fn, regBase + 65536 * fn + off, natLe (((regRow fn off).map (·.size)).getD 8) val.toNat)] })
  ∧ ∀ val : Dword, s.hostWaits vf = false → s.hostWaits 0 = false →
    exec (.registerWrite vf 0x000 val) s = exec (.tail vf val) s
    ∧ (v.rpl = false → exec (.registerWrite vf 0x008 val) s = .next s)
    ∧ exec (.registerWrite vf 0x010 val) s = .next (s.setVf { v with qbase := val &&& 0x800FFFFFFFFFFFFF#64 })
    ∧ exec (.registerWrite vf 0x020 val) s = .next (s.setVf { v with ctxbase := val })
    ∧ exec (.registerWrite vf 0x038 val) s = (if bit val 2 = true
        then exec (.grantReturn vf (bits val 1 0).toNat (bits val 63 8).toNat) s
        else exec (.grantGranules vf (bits val 1 0).toNat (bits val 63 8).toNat) s)
    ∧ exec (.registerWrite vf 0x098 val) s = exec (.ctxclr vf (val.setWidth 16)) s
    ∧ exec (.registerWrite vf 0x0A8 val) s = exec (.rplend vf val) s
    ∧ (∀ c : Fin 16, exec (.registerWrite vf (0x100 + 8 * c) val) s = .next (s.setVf { v with fqcons := v.fqcons.set c val }))
    ∧ exec (.registerWrite 0 0x3800 val) s = .next { s with mgmt := { s.mgmt with faddr := val &&& 0xFFFFFFFFF0000#64 } }
    ∧ exec (.registerWrite 0 0x4018 val) s = .next { s with mgmt := { s.mgmt with mlcons := val } }
    ∧ (bit val 0 = true → exec (.registerWrite 0 (0x3000 + 8 * (vf - 1)) val) s = exec (.qctlClrq vf) s)

/-- R437, R438, R439, R440, R441, R442: a sample fills the sensor entries, throttles the dies at 105 degrees, or all of them for
the board's power, and at 115 degrees resets the device. FWCMD starts a check of an image, which ends with its status and stages
an image that passes; at the reset a staged image takes effect, and nothing of the device stays but its floors. Dropped events are
counted in one entry once the log has room.
The model's own choices: the board's power is free (log entry 38); the verdict of the keys is an input (entry 18), and the
standards that the checks name (entry 73); an image that cannot be read, what a device reset keeps, and when a staged image takes
effect (entry 47). -/
def Obligations.Management : Prop := ∀ s : State,
  (∀ (vals : List Word) (eols : List (BitVec 16)),
    let junction (die : Nat) : Int := (vals.getD (8 * die) 0).toInt
    ((∀ die, die < 4 → junction die < 920) → ∃ s' n, exec (.sensorSample vals eols) s = .next s'
      ∧ (∀ i : Fin 32, s'.mgmt.sens[i] = if (i : Nat) % 8 ≤ 2 then (vals.getD i 0).setWidth 64
          else if (i : Nat) % 8 ≤ 5 then (0#16 ++ eols.getD i 0 ++ vals.getD i 0) else 0)
      ∧ s'.mgmt.throttled = (if s.mgmt.plim.toNat < Config.boardPower n then [(0, 0), (1, 0), (2, 0), (3, 0)]
          else ((List.range 4).filter (fun die => decide (840 ≤ junction die))).map (fun die => (die, 1)))
      ∧ s'.threads = s.threads ∧ s'.wgs = s.wgs)
    ∧ ((∃ die, die < 4 ∧ 920 ≤ junction die) → ∃ s', exec (.sensorSample vals eols) s = .next s'
      ∧ s'.threads = [] ∧ s'.wgs = [] ∧ s'.mem = [] ∧ s'.vfs = [] ∧ s'.pkg = s.pkg
      ∧ ∀ n, n < 1024 → (s'.ctx n).lost = true))
  ∧ (∀ val : Word, (val = 1 → s.mgmt.fwstat ≠ 1 → exec (.fwcmd val) s = .next { s with mgmt := { s.mgmt with fwcmd := 1, fwstat := 1 } })
    ∧ (val ≠ 1 ∨ s.mgmt.fwstat = 1 → exec (.fwcmd val) s = .next s))
  ∧ (∀ (v : SigVerdict),
    let ends (st : Word) (staged : List (Nat × Word)) : Prop :=
      Logs (.fwVerifyDone v.ecdsa v.lms) s { s with mgmt := { s.mgmt with fwstat := st, staged } } 0x0A 0 0
    (s.mgmt.fwstat ≠ 1 → exec (.fwVerifyDone v.ecdsa v.lms) s = .next s)
    ∧ (s.mgmt.fwstat = 1 →
      (s.imageBytes 0 4096 = none → ends 3 s.mgmt.staged)
      ∧ ∀ (h : List Byte), s.imageBytes 0 4096 = some h →
        (headerOk h = false → ends 3 s.mgmt.staged)
        ∧ (headerOk h = true → s.imageBytes 4096 (field h 0x10 8) = none → ends 3 s.mgmt.staged)
        ∧ ∀ (p : List Byte) floor, headerOk h = true → s.imageBytes 4096 (field h 0x10 8) = some p →
          let target := field h 4 1
          let good : Prop := sha384 p = (h.drop 0x20).take 48 ∧ v.ecdsa = true ∧ v.lms = true ∧ lmsSetOk (lmsSig h) = true
          s.mgmt.floors.find? (fun f => f.1 == target) = some (target, floor) →
          (¬ good → ends 4 s.mgmt.staged)
          ∧ (good → field h 8 4 < floor.toNat → ends 5 s.mgmt.staged)
          ∧ (good → floor.toNat ≤ field h 8 4 → ends 2 [(target, BitVec.ofNat 32 (field h 8 4))])))
  ∧ (LogRoom s.mgmt → s.mgmt.dropped ≠ 0 →
      Logs .entriesDropped s { s with mgmt := { s.mgmt with dropped := 0 } } 0x0C 0 0)
  ∧ (¬ LogRoom s.mgmt ∨ s.mgmt.dropped = 0 → exec .entriesDropped s = .next s)
  ∧ ∃ s', exec .deviceReset s = .next s'
      ∧ s' = { State.reset with
          pkg := s.pkg, hostMem := s.hostMem, hostMap := s.hostMap, out := s.out, agenda := s.agenda, flits := s.flits, fresh := s.fresh
          freeN := s.freeN, mgmt := { Mgmt.reset with floors := s'.mgmt.floors } }
      ∧ s'.mgmt.floors.length = s.mgmt.floors.length
      ∧ ∀ (n : Nat) (x : Nat × Word), s.mgmt.floors[n]? = some x →
          (∀ y, s.mgmt.staged.find? (fun z => z.1 == x.1) = some y → s'.mgmt.floors[n]? = some y)
          ∧ (s.mgmt.staged.find? (fun z => z.1 == x.1) = none → s'.mgmt.floors[n]? = some x)

/-- R11, R389, R401, R421, R423, R424, R426, R428: the host reads and writes the backed memory of its function, in order behind a
held write, and the register page; an access without a backed frame, or to a die that no module reaches, gets an error completion,
and nothing answers while both modules are down. Links go down, and the failures are logged; a CRC failure after the sixteenth
replay in a row takes a port down.
The model's own choices: an access to host memory takes its translation when it is performed, pages of 4,096 bytes (log entry 67);
the die of the front end, of a port and of a die link (entries 36, 49 and 66), any way over the die links (entry 53), and vector 3
for an entry of the log (entry 47). -/
def Obligations.HostAndLinks : Prop := ∀ s : State,
  (∀ (vf pa : Nat) (data : List Byte) (r : FrameRun) (len : Nat), s.hostOpen = true → s.hostFrom (homeDie pa) = true →
    pa + len ≤ 2 ^ 41 → 0 < len →
    pa % 1024 + len ≤ 1024 → s.frameOf pa = some r → r.cmp = false → data.length = len →
    (r.vf = vf → (∀ a ∈ s.poison, a < pa ∨ pa + len ≤ a) → exec (.hostRead vf pa len) s = .next { s with
        out := s.out ++ [.readDone vf ((List.range len).map (fun i => memGet s.mem (pa + i)))] })
    ∧ (r.vf ≠ vf → exec (.hostRead vf pa len) s = .next { s with out := s.out ++ [.error vf] })
    ∧ (s.hostq = [] → s.held = [] →
      (r.vf = vf → (s.vf vf).migok = false → s.mem.wf = true →
        ∃ s', exec (.hostWrite vf pa data) s = .next s' ∧ StoredOnly s s' pa data)
      ∧ (r.vf ≠ vf → exec (.hostWrite vf pa data) s = .next { s with out := s.out ++ [.error vf] }))
    ∧ (∀ h ∈ s.held, h.by' = .host vf → h.expired = false →
        exec (.hostWrite vf pa data) s = .next { s with hostq := s.hostq ++ [(vf, pa, data)] }))
  ∧ (∀ vf pa len data, s.hostOpen = false → exec (.hostRead vf pa len) s = .next s ∧ exec (.hostWrite vf pa data) s = .next s)
  ∧ (∀ vf pa len, s.hostOpen = true → s.hostFrom (homeDie pa) = false → pa < 2 ^ 41 → exec (.hostRead vf pa len) s
      = .next { s with out := s.out ++ [.error vf] })
  ∧ (∀ vf, 1 ≤ vf → vf ≤ 64 → s.hostOpen = true → s.hostFrom 0 = true →
      exec (.hostRead vf (regBase + 65536 * vf + 0x010) 8) s
          = .next { s with out := s.out ++ [.readDone vf (natLe 8 (s.vf vf).qbase.toNat)] }
      ∧ exec (.hostRead vf (regBase + 0x3800) 8) s = .next { s with out := s.out ++ [.error vf] })
  ∧ (∀ vf pasid page target, ∃ s', exec (.atsInvalidation vf ⟨pasid, page, target⟩) s = .next s'
      ∧ s' = { s with hostMap := s'.hostMap, out := s.out ++ [.invalidated vf page] }
      ∧ ∀ x pa, s'.hostPa x pa = if x = (vf, pasid) ∧ pa / 4096 = page then 4096 * target + pa % 4096 else s.hostPa x pa)
  ∧ (∀ m, m < 2 → s.links.ucieUp.length = 2 → s.links.ideKeys.length = 2 →
    let down : State := { s with links := { s.links with ucieUp := s.links.ucieUp.set m false } }
    (∀ key, exec (.ideKm m key) s = .next { s with links := { s.links with ideKeys := s.links.ideKeys.set m (some key) } })
    ∧ (s.links.ucieUp[m]? = some true → Logs (.ucieModuleDown m) s down 0x06 m 0
      ∧ (∀ key, s.links.ideKeys[m]? = some (some key) → Logs (.ideIntegrityFailure m) s down 0x07 m 0))
    ∧ (s.links.ucieUp[m]? = some false → exec (.ucieModuleDown m) s = .next s)
    ∧ (s.links.ideKeys[m]? = some none → exec (.ideIntegrityFailure m) s = .next s))
  ∧ (∀ link, (s.links.dieUp[link]? = some true → s.txns = [] → Logs (.dieLinkDown link) s
        { s with links := { s.links with dieUp := s.links.dieUp.set link false } } 0x06 (linkDie link) 0)
      ∧ (s.links.dieUp[link]? = some false → exec (.dieLinkDown link) s = .next s))
  ∧ ∀ port n, s.links.portUp[port]? = some true → s.links.replays[port]? = some n →
    let x : State := { s with links := { s.links with replays := s.links.replays.set port (n + 1) } }
    (n < 16 → Logs (.flitCrcFail port) s x 0x01 (portDie port) 0)
    ∧ (16 ≤ n → s.txns = [] → Logs (.flitCrcFail port) s
        { x with links := { x.links with portUp := s.links.portUp.set port false } } 0x06 (portDie port) 0)

/-- R205, R376, R389, R398, R414, R416, R428, R430, R431, R432: a request of another package is performed on the backed frames of
its hedge and answered under its TAG: READ with its bytes, WRITE with ACK, ATOMIC and CELL with the old value where it is asked
for, GRAPHOP with its result, FLUSH and a releasing request once earlier requests have been performed, SLOTREQ with a guest core
or without. RECALL sends a guest home. What is not backed is refused; what is malformed is discarded, logged and refused; and
nothing arrives at a port that is down, or out of turn.
The model's own readings: a delivered flit ends the run of CRC failures (log entry 41); the answers to graph operations and to
requests that are held, and the order of releasing requests (entry 49); the port of an answer (entry 66). -/
def Obligations.PackageRequests : Prop := ∀ (s : State) (h : FlitHdr),
  let x : State := delivered s h.port
  let bytes (pa n : Nat) : List Byte := (List.range n).map (fun i => memGet s.mem (pa + i))
  let refused (i : Instr) (pa n : Nat) : Prop := 0 < n → pa + n ≤ 2 ^ 41 → s.peerWaits h = false →
    (s.reaches (portDie h.port) (homeDie pa) = false → exec i s = .next (answered x h (.neg 1 0)))
    ∧ (s.reaches (portDie h.port) (homeDie pa) = true → s.frameOf pa = none → exec i s = .next (answered x h (.neg 6 0)))
  (∀ pa n sem, pa < 2 ^ 41 → Arrives s h (.read (BitVec.ofNat 64 pa) n sem) →
    (PeerAt s h pa n → exec .gRead s = .next ((List.range ((n + 223) / 224)).foldl
      (fun y i => answered y h (.data (224 * i) (bytes (pa + 224 * i) (min 224 (n - 224 * i))))) x))
    ∧ refused .gRead pa n)
  ∧ (∀ pa sem b, pa < 2 ^ 41 → Arrives s h (.write (BitVec.ofNat 64 pa) sem b) →
    (PeerAt s h pa b.length → PeerStores .gWrite s h pa b .ack) ∧ refused .gWrite pa b.length
    ∧ (releases sem = true → s.peerWaits h = true → exec .gWrite s
        = .next { x with flushes := s.flushes ++ [⟨h, .write (BitVec.ofNat 64 pa) sem b⟩] }))
  ∧ (∀ pa op ret sem opnd, PeerAt s h pa 4 → pa % 4 = 0 → Arrives s h (.atomic (BitVec.ofNat 64 pa) op 2 ret sem opnd) →
    let old : Word := BitVec.ofNat 32 (leNat (bytes pa 4))
    let back (b : List Byte) : FlitBody := if ret = true then .data 0 b else .ack
    (op.toNat ≤ 8 → PeerStores .gAtomic s h pa (natLe 4 (atomicResult op old (bits opnd 31 0)).toNat) (back (bytes pa 4)))
    ∧ (op = 9 → old = bits opnd 31 0 → PeerStores .gAtomic s h pa (natLe 4 (bits opnd 63 32).toNat) (back (bytes pa 4 ++ [1])))
    ∧ (op = 9 → old ≠ bits opnd 31 0 → PeerStores .gAtomic s h pa (bytes pa 4) (back (bytes pa 4 ++ [0]))))
  ∧ (∀ pa op fmt sem v, PeerAt s h pa 32 → pa % 32 = 0 → Arrives s h (.cell (BitVec.ofNat 64 pa) op fmt sem v) →
    (op = 0 → PeerStores .gCell s h pa
      (natLe 32 (cellAdd (BitVec.ofNat 256 (leNat (bytes pa 32))) (addendValue fmt.toNat v)).toNat) .ack)
    ∧ (op = 1 → exec .gCell s = .next (answered x h (.data 0 (bytes pa 32))))
    ∧ (op = 2 → PeerStores .gCell s h pa (List.replicate 32 0) .ack))
  ∧ (∀ (insn w2 : Word) a b c ctxn ca cb, Arrives s h (.graphop insn w2 a b c ctxn ca cb) →
    (opcodeOf (bits insn 9 2).toNat = none → ∃ y, Logged x y 0x0E (portDie h.port) h.vf.toNat
        ∧ exec .gGraphop s = .next (answered y h (.neg 5 0)))
    ∧ (∀ f d v, extract .vget { w0 := insn, ext := some (0, w2), lit := none } = .vget f →
        opcodeOf (bits insn 9 2).toNat = some .vget → ctxn / 16 + 1 = h.vf.toNat → x.homeGraph ctxn a = some d → x.txns = [] →
        s.reaches (portDie h.port) d.die = true → f.w2.idx.toNat < d.vpw →
        x.vertex d.ctxn d.g (bits a 39 0).toNat = some v → Kept x d v.id 0 →
        ∃ y n c0, bits y 31 0 = v.props.getD f.w2.idx.toNat 0
          ∧ exec .gGraphop s = .next (answered { x with freeN := n } h (.graphres true y c0 cb 0 false)))
    ∧ (∀ f, extract .vget { w0 := insn, ext := some (0, w2), lit := none } = .vget f →
        opcodeOf (bits insn 9 2).toNat = some .vget → ctxn / 16 + 1 ≠ h.vf.toNat →
        exec .gGraphop s = .next (answered x h (.neg 1 0))))
  ∧ (Arrives s h .flush →
    (s.peerWaits h = false → exec .gFlush s = .next (answered x h .ack))
    ∧ (∀ y ∈ s.held, ∀ p, y.expired = false → y.by' = .peer p → p.spkg = h.spkg → p.vf = h.vf →
        exec .gFlush s = .next { x with flushes := s.flushes ++ [⟨h, .flush⟩] }))
  ∧ (∀ ctxn die, Arrives s h (.slotreq ctxn die) → ctxn / 16 + 1 = h.vf.toNat →
    let cores := s.hedgeCores h.vf.toNat die
    ((∃ c ∈ cores, s.guests c < 256) → ∃ c n, c ∈ cores ∧ s.guests c < 256 ∧ exec .gSlotreq s = .next (answered { x with
        freeN := n, conts := s.conts ++ [{ spkg := h.spkg.toNat, tag := h.tag, parts := [], core := some c }] } h (.slotgnt c)))
    ∧ ((∀ c ∈ cores, 256 ≤ s.guests c) → exec .gSlotreq s = .next (answered x h .slotbsy)))
  ∧ (∀ ctxn lin tidx w t, Arrives s h (.recall ctxn lin tidx) →
    s.wgs.find? (fun y => y.foreign == some h.spkg.toNat && y.ctxn == ctxn && y.wgx == lin) = some w →
    s.thread ⟨w.id, tidx⟩ = some t → t.status = .ready ∨ t.status = .filed → Drained s t → Unanswered s t →
    (∀ l ∈ t.late, l.fault.code ≠ 0x0B) → (∀ y ∈ s.held, y.expired = false → ⟨w.id, tidx⟩ ∉ y.keys) → ∃ s', exec .gRecall s = .next s'
      ∧ s'.thread ⟨w.id, tidx⟩ = some { landed t with
          recalled := true, status := .transit h.spkg.toNat w.core none, seen := none }
      ∧ (∀ k, k ≠ ⟨w.id, tidx⟩ → ∃ st : Status → Status, s'.thread k = (s.thread k).map (fun u => { u with status := st u.status }))
      ∧ s' = { x with
          threads := s'.threads, groups := s'.groups, bins := s'.bins, overflow := s'.overflow, fresh := s'.fresh })
  ∧ ∀ i ∈ [Instr.malformedGnoipFlit, .gRead, .gWrite, .gAtomic, .gCell, .gGraphop, .gFlush, .gData, .gAck, .gNeg, .gGraphres, .gSlotreq,
      .gSlotgnt, .gSlotbsy, .gCont, .gRecall, .gElem, .gCells, .gCodebook, .gDone],
    (s.rx = none → exec i s = .next s)
    ∧ ∀ r, s.rx = some r →
      (s.links.portUp.getD r.port false = false ∨ r.seq ≠ s.links.rxSeq.getD r.port 0 → exec i s = .next { s with rx := none })
      ∧ (s.links.portUp.getD r.port false = true → r.seq = s.links.rxSeq.getD r.port 0 → r.body = none →
        ∃ y, Logged (delivered s r.port) y 0x0E (portDie r.port) r.hdr.vf.toNat
          ∧ exec i s = .next (if r.vc = 0 then answered y r.hdr (.neg 5 0) else y))

/-- R425, R430, R431, R432, R433: a response reaches what its TAG serves: a thread takes its instruction up with it, and an
instruction word is there or could not be read. SLOTGNT turns the request into a continuation and SLOTBSY ends it. A whole
continuation places its thread, at home or on the core held for it, and is acknowledged; what it does not tell of a thread that
comes home, a fault that brought it, is a free value (log entry 29). Elements, partial sums and codebooks of a collective are kept
until its participant is done.
The model's own readings: a delivered flit ends the run of CRC failures (log entry 41); a fetched word serves one fetch (entry
49); the stand-in for a guest's workgroup (entry 26); and what of a collective is kept (entry 32). -/
def Obligations.PackageResponses : Prop := ∀ (s : State) (h : FlitHdr) (body : FlitBody), Arrives s h body →
  let x := delivered s h.port
  let none' : State := { x with txns := [] }
  (∀ i, i ∈ [Instr.gData, .gAck, .gNeg, .gGraphres] →
    ((∀ y ∈ s.txns, y.tag ≠ h.tag ∨ y.pkg ≠ h.spkg.toNat) → exec i s = .next x)
    ∧ (∀ t tag, s.txns = [{ tag := h.tag, pkg := h.spkg.toNat, by' := .reply t.key }] → s.thread t.key = some t → t.status = .data (.txn tag true) →
        ∃ s', exec i s = .next s' ∧ Resumed { none' with replies := s.replies ++ [⟨t.key, body⟩] } s' t (s.coreOf t))
    ∧ (∀ t at', s.txns = [{ tag := h.tag, pkg := h.spkg.toNat, by' := .fetch t.key at' }] → s.thread t.key = some t →
        (∀ u ∈ s.threads, u.status = .data (.fetch h.tag) → u = t) → t.status = .data (.fetch h.tag) →
        (s.threads.map Thread.key).Nodup →
        (∀ off b, body = .data off b → ∃ s', exec i s = .next s'
            ∧ Resumed { none' with fetched := s.fetched ++ [(at', BitVec.ofNat 32 (leNat b))] } s' t (s.coreOf t))
        ∧ (∀ r c, body = .neg r c → exec i s = .next (none'.raise (s.coreOf t) s.pkg 0 [t.key]
            { code := if r = 6 then 0x02 else 0x0C, space := 2, addr := (vaOf t.pc).setWidth 128 }))))
  ∧ (∀ t tag, s.txns = [{ tag := h.tag, pkg := h.spkg.toNat, by' := .slot t.key }] → s.thread t.key = some t → t.status = .data (.txn tag true) →
    (∃ s', exec .gSlotgnt s = .next s' ∧ Resumed { x with
        txns := [{ tag := h.tag, pkg := h.spkg.toNat, by' := .cont t.key false }], replies := s.replies ++ [⟨t.key, body⟩] } s' t (s.coreOf t))
    ∧ ∃ s', exec .gSlotbsy s = .next s' ∧ Resumed none' s' t (s.coreOf t))
  ∧ (∀ parts b, body = .cont 0 parts b.length b →
    let pkg := field b 0x10 1
    let tidx := field b 0x0C 2
    (parts = 2 → s.conts = [] → exec .gCont s = .next { x with conts := [⟨h.spkg.toNat, h.tag, [(0, b)], none⟩] })
    ∧ (parts = 1 → pkg = s.pkg → s.conts = [] →
      (∀ t w, x.returning b = some t → s.wg t.wg = some w → ∃ y n late, exec .gCont s = .next (answered y h .ack)
        ∧ (late = [] ∨ ∃ l, late = [l])
        ∧ (let u : Thread := { t.unpack b with away := none, recalled := false, late := t.late ++ late }
           let z : State := { x with freeN := n }
           y = z.fileThread u 0 ∨ (∃ r latch, y = z.deliver w u r latch) ∨ ∃ p, y = z.setThread { u with status := .parked p })
        ∧ (t.unpack b).hops = field b 0x11 1
        ∧ (t.unpack b).pc = BitVec.ofNat 64 (field b 0 8) ∧ (t.unpack b).p = BitVec.ofNat 16 (field b 0x14 2)
        ∧ (t.unpack b).srctr0 = BitVec.ofNat 32 (field b 0x28 4)
        ∧ ∀ n, n < field b 0x17 1 → field b 0x16 1 + field b 0x17 1 ≤ 128 → (t.unpack b).reg (field b 0x16 1 + n)
            = BitVec.ofNat 32 (field b (48 + 16 * (List.range 8).countP (fun i => (field b 0x1A 1).testBit i)
                + 8 * field b 0x19 1 + 4 * n) 4))
      ∧ (x.returning b = none → exec .gCont s = .next (answered x h (.neg 1 0))))
    ∧ ∀ core, parts = 1 → pkg ≠ s.pkg → s.conts = [⟨h.spkg.toNat, h.tag, [], some core⟩] → s.wgs = [] → s.threads = [] →
      tidx ≠ 0xFFFF → ∃ s' u w, exec .gCont s = .next (answered s' h .ack) ∧ s'.conts = [] ∧ s'.wgs = [w]
        ∧ w.foreign = some pkg ∧ w.core = field b 0x0E 2 ∧ w.ctxn = field b 0x1C 4 ∧ s'.thread ⟨w.id, tidx⟩ = some u
        ∧ (u.status = .filed ∨ u.status = .ready) ∧ u.pc = BitVec.ofNat 64 (field b 0 8) ∧ u.hops = field b 0x11 1
        ∧ ∃ snap, u.away = some ⟨core, s.pkg, snap⟩)
  ∧ ∀ gid op part, s.collRx = [] →
    let r : CollRx := { vf := h.vf.toNat, gid, op, part, pkg := h.spkg.toNat, die := (bits h.tag 63 56).toNat, data := []
                        cells := [], cb := [], done := false }
    (∀ off b, body = .elem gid op part off b → exec .gElem s = .next { x with collRx := [{ r with data := [(off, b)] }] })
    ∧ (∀ off l, body = .cells gid op part off l → exec .gCells s = .next { x with collRx := [{ r with cells := [(off, l)] }] })
    ∧ (∀ cb, body = .codebook gid op part cb → exec .gCodebook s = .next { x with collRx := [{ r with cb }] })
    ∧ (body = .done gid op part → exec .gDone s = .next { x with collRx := [{ r with done := true }] })

/-- R40, R66, R90: a step runs the first of the inputs that wait; else, at the turn of an issue, it fetches the words at the PC of
the group that issues next, and runs the instruction that they decode to, with word 0 kept for a record, once the stores of the
group have gone as far as the instruction orders them (R226); words that decode to none, or to an instruction that a slice may not
use, raise 0x06.
The model's own choices: inputs come before any issue, and issues take turns with the device (log entry 5); a fetch reads memory
as it has been performed (entry 54). -/
def Obligations.StepRunsDecoded : Prop :=
  (∀ (s : State) e rest, s.agenda = e :: rest →
    step s = exec e.op { s with agenda := rest, rx := e.flit, cur := { s.cur with keys := [], insn := 0 } })
  ∧ ∀ (s : State) (g : Group) (c : Core) (t : Thread) (w : Workgroup) (ws : List Word), s.agenda = [] →
    let z := s.settle
    let x := State.takeGroup { z with turn := true } g c
    z.turn = false → z.pick = some (g, c) → z.ecc = [] → z.held = [] → z.kloads = [] →
    (∀ k ∈ g.threads, ∃ u, x.thread k = some u ∧ u.status = .ready ∧ u.late = []) →
    g.threads.head? = some t.key → x.thread t.key = some t → x.wg t.wg = some w →
    Fetches x w g.core t.key.isSlice t.pc ws →
    let y : State := { x with fetched := [], cur := { x.cur with insn := insnWord ws } }
    (∀ i, decode ws = .ok i → (t.key.isSlice = true → sliceOk i = true) →
      step s = exec i (y.orderStores (pointInstr i)))
    ∧ (∀ i, decode ws = .ok i → t.key.isSlice = true → sliceOk i = false → step s = .next (y.raiseAll (trapOf 0x06)))
    ∧ (∀ e, decode ws = .error e → step s = .next (y.raiseAll (trapOf 0x06)))

/-- The manual's examples of encodings, one for each group of opcodes: their words decode to the instruction that they stand
for. -/
def Obligations.DecodeWords : Prop :=
  let plain : Form := ⟨.base, none⟩
  let lit (l : Dword) : Form := ⟨.base, some l⟩
  let word1 (ak : Bool) (c : Reg) : Word1 := ⟨0, 0, 0, false, false, false, false, false, false, ak, false, c, false, false, 15⟩
  let ext (c : Reg) : Form := ⟨.ext (word1 false c), none⟩
  decode [0x0001080C#32] = .ok (.brp 2 false 2)
  ∧ decode [0x830C1448#32] = .ok (.add ⟨5, 6, 3, true, plain⟩)
  ∧ decode [0x070C1452#32, 0x0000000F#32, 0x00000021#32] = .ok (.addc ⟨5, 6, 7, false, ext 0⟩ ⟨false, 2, 1⟩)
  ∧ decode [0x020290B4#32] = .ok (.cmp ⟨4, 2, 1, 2, false, plain⟩)
  ∧ decode [0x000404E1#32, 0x3FC00000#32, 0#32] = .ok (.fadd ⟨1, 2, 0, false, lit 0x3FC00000#64⟩)
  ∧ decode [0x0C162916#32, 0x0000034F#32, 0x00000001#32] = .ok (.hfma2 ⟨10, 11, 12, false, ext 13⟩ true)
  ∧ decode [0x01C2095C#32] = .ok (.kadd ⟨0, 7, 2, 2, plain⟩)
  ∧ decode [0x0012214A#32, 0x0000000F#32, 0x80000000#32] = .ok (.tred ⟨8, 9, 0, false, ext 0⟩ ⟨true, false, false, 0⟩)
  ∧ decode [0x04080580#32] = .ok (.ld ⟨4, 4, 1, plain, ⟨0, false, 0, 0, 0, 0, 0, 0, false, 2⟩⟩)
  ∧ decode [0xFF0C0984#32] = .ok (.st ⟨255, 6, 2, plain, ⟨0, false, 0, 0, 0, 0, 0, 0, false, 2⟩⟩)
  ∧ decode [0x000041C0#32] = .ok (.bar 1 0 plain)
  ∧ decode [0x000C05D6#32, 0x0000000F#32, 0x00000003#32] = .ok (.tcopy ⟨1, 6, 0, false, ext 0⟩ 3)
  ∧ decode [0x82000E02#32, 0x0000000F#32, 0x00000002#32] = .ok (.oclaim ⟨130, 0, 3, ext 0⟩ false 2)
  ∧ decode [0x000C0208#32] = .ok (.mma ⟨0, 6, 0, false, plain⟩)
  ∧ decode [0x00042A22#32, 0x0000030F#32, 0x00000005#32] = .ok (.spcomp ⟨10, 2, 0, false, ext 12⟩ 5)
  ∧ decode [0x00080242#32, 0x0000000F#32, 0x00000001#32] = .ok (.vins ⟨⟨0, 4, 0, false, ext 0⟩, ⟨0, 0, false, false, 0, 1⟩⟩)
  ∧ decode [0x00002272#32, 0x0000000F#32, 0x00000002#32] = .ok (.cnext ⟨⟨8, 0, 0, false, ext 0⟩, ⟨0, 0, false, false, 0, 2⟩⟩)
  ∧ decode [0x10400AC0#32] = .ok (.carry 8 4 0 2 plain)
  ∧ decode [0x00006AD4#32] = .ok (.csrw false 0 26 plain)
  ∧ decode [0x030802DC#32] = .ok (.sysc ⟨3, 4, 0, plain⟩)
  ∧ decode [0x000012EC#32] = .ok (.space ⟨4, 0, 0, false, plain⟩)

/-- Every well-formed instruction decodes from its encoding, with every operand; and words that decode are, from the first on,
the encoding of a well-formed instruction, so that no bit is dropped. -/
def Obligations.DecodeEncode : Prop :=
  (∀ i : Instr, i.wf = true → decode (encode i) = .ok i)
  ∧ ∀ (ws : List Word) (i : Instr), decode ws = .ok i → i.wf = true ∧ encode i <+: ws

/-- Every step keeps the canonical form of every memory of the package. -/
def Obligations.MemoryStaysCanonical : Prop := ∀ s s' : State, s.memWf = true → step s = .next s' → s'.memWf = true

/-- After reset every memory is in canonical form. -/
def Obligations.MemoryCanonicalAtReset : Prop := State.reset.memWf = true

/-- R23, R436, R438: after reset PLIM is 2,200 W, the sensors of kinds 3 to 5 hold EOL
0xFFFF, and every cycle counter is 0. The model's own choice: nothing is resident, no frame is backed, no register that the
manual gives no reset value holds anything but 0 (log entries 1, 4, 8, 16). -/
def Obligations.ResetValues : Prop :=
  let r := State.reset
  r.mgmt.plim = 2200
  ∧ (∀ i : Fin 32, 3 ≤ i.val % 8 → i.val % 8 ≤ 5 → bits (r.mgmt.sens.get i) 47 32 = 0xFFFF)
  ∧ (∀ c, (r.core c).cyc = 0) ∧ (∀ d : Fin 4, r.dieCyc.get d = 0)
  ∧ r.threads = [] ∧ r.wgs = [] ∧ r.frames = [] ∧ r.held = [] ∧ (∀ n, r.vf n = Vf.zero n) ∧ (∀ n, r.ctx n = Context.fresh n)
end

