-- ==== Sys2Proof/Laws/State.lean ====
section
/-! SUPPORT. The fields of the state and of a thread after each of their named updates. -/

namespace Sys2Proof.Machine

/-! ## Updates of the state -/

section setThread
variable (s : State) (t : Thread)

@[simp] theorem State.setThread_mem : (s.setThread t).mem = s.mem := rfl
@[simp] theorem State.setThread_gran : (s.setThread t).gran = s.gran := rfl
@[simp] theorem State.setThread_bmeta : (s.setThread t).bmeta = s.bmeta := rfl
@[simp] theorem State.setThread_hostMem : (s.setThread t).hostMem = s.hostMem := rfl
@[simp] theorem State.setThread_hostMap : (s.setThread t).hostMap = s.hostMap := rfl
@[simp] theorem State.setThread_wst : (s.setThread t).wst = s.wst := rfl
@[simp] theorem State.setThread_opmem : (s.setThread t).opmem = s.opmem := rfl
@[simp] theorem State.setThread_accmem : (s.setThread t).accmem = s.accmem := rfl
@[simp] theorem State.setThread_poison : (s.setThread t).poison = s.poison := rfl
@[simp] theorem State.setThread_ecc : (s.setThread t).ecc = s.ecc := rfl
@[simp] theorem State.setThread_pkg : (s.setThread t).pkg = s.pkg := rfl
@[simp] theorem State.setThread_wgs : (s.setThread t).wgs = s.wgs := rfl
@[simp] theorem State.setThread_saved : (s.setThread t).saved = s.saved := rfl
@[simp] theorem State.setThread_groups : (s.setThread t).groups = s.groups := rfl
@[simp] theorem State.setThread_bins : (s.setThread t).bins = s.bins := rfl
@[simp] theorem State.setThread_overflow : (s.setThread t).overflow = s.overflow := rfl
@[simp] theorem State.setThread_cur : (s.setThread t).cur = s.cur := rfl
@[simp] theorem State.setThread_cores : (s.setThread t).cores = s.cores := rfl
@[simp] theorem State.setThread_ops : (s.setThread t).ops = s.ops := rfl
@[simp] theorem State.setThread_claims : (s.setThread t).claims = s.claims := rfl
@[simp] theorem State.setThread_grows : (s.setThread t).grows = s.grows := rfl
@[simp] theorem State.setThread_bars : (s.setThread t).bars = s.bars := rfl
@[simp] theorem State.setThread_colls : (s.setThread t).colls = s.colls := rfl
@[simp] theorem State.setThread_collRx : (s.setThread t).collRx = s.collRx := rfl
@[simp] theorem State.setThread_dieCyc : (s.setThread t).dieCyc = s.dieCyc := rfl
@[simp] theorem State.setThread_pools : (s.setThread t).pools = s.pools := rfl
@[simp] theorem State.setThread_frames : (s.setThread t).frames = s.frames := rfl
@[simp] theorem State.setThread_held : (s.setThread t).held = s.held := rfl
@[simp] theorem State.setThread_queue : (s.setThread t).queue = s.queue := rfl
@[simp] theorem State.setThread_replicas : (s.setThread t).replicas = s.replicas := rfl
@[simp] theorem State.setThread_images : (s.setThread t).images = s.images := rfl
@[simp] theorem State.setThread_tlb : (s.setThread t).tlb = s.tlb := rfl
@[simp] theorem State.setThread_bounds : (s.setThread t).bounds = s.bounds := rfl
@[simp] theorem State.setThread_joins : (s.setThread t).joins = s.joins := rfl
@[simp] theorem State.setThread_kloads : (s.setThread t).kloads = s.kloads := rfl
@[simp] theorem State.setThread_ctxs : (s.setThread t).ctxs = s.ctxs := rfl
@[simp] theorem State.setThread_graphs : (s.setThread t).graphs = s.graphs := rfl
@[simp] theorem State.setThread_verts : (s.setThread t).verts = s.verts := rfl
@[simp] theorem State.setThread_edges : (s.setThread t).edges = s.edges := rfl
@[simp] theorem State.setThread_issued : (s.setThread t).issued = s.issued := rfl
@[simp] theorem State.setThread_vfs : (s.setThread t).vfs = s.vfs := rfl
@[simp] theorem State.setThread_launches : (s.setThread t).launches = s.launches := rfl
@[simp] theorem State.setThread_mgmt : (s.setThread t).mgmt = s.mgmt := rfl
@[simp] theorem State.setThread_links : (s.setThread t).links = s.links := rfl
@[simp] theorem State.setThread_txns : (s.setThread t).txns = s.txns := rfl
@[simp] theorem State.setThread_replies : (s.setThread t).replies = s.replies := rfl
@[simp] theorem State.setThread_conts : (s.setThread t).conts = s.conts := rfl
@[simp] theorem State.setThread_peeks : (s.setThread t).peeks = s.peeks := rfl
@[simp] theorem State.setThread_graphq : (s.setThread t).graphq = s.graphq := rfl
@[simp] theorem State.setThread_flushes : (s.setThread t).flushes = s.flushes := rfl
@[simp] theorem State.setThread_hostq : (s.setThread t).hostq = s.hostq := rfl
@[simp] theorem State.setThread_flits : (s.setThread t).flits = s.flits := rfl
@[simp] theorem State.setThread_out : (s.setThread t).out = s.out := rfl
@[simp] theorem State.setThread_agenda : (s.setThread t).agenda = s.agenda := rfl
@[simp] theorem State.setThread_rx : (s.setThread t).rx = s.rx := rfl
@[simp] theorem State.setThread_fetched : (s.setThread t).fetched = s.fetched := rfl
@[simp] theorem State.setThread_turn : (s.setThread t).turn = s.turn := rfl
@[simp] theorem State.setThread_nextDue : (s.setThread t).nextDue = s.nextDue := rfl
@[simp] theorem State.setThread_fresh : (s.setThread t).fresh = s.fresh := rfl
@[simp] theorem State.setThread_freeN : (s.setThread t).freeN = s.freeN := rfl

end setThread

section setWg
variable (s : State) (w : Workgroup)

@[simp] theorem State.setWg_mem : (s.setWg w).mem = s.mem := rfl
@[simp] theorem State.setWg_gran : (s.setWg w).gran = s.gran := rfl
@[simp] theorem State.setWg_bmeta : (s.setWg w).bmeta = s.bmeta := rfl
@[simp] theorem State.setWg_hostMem : (s.setWg w).hostMem = s.hostMem := rfl
@[simp] theorem State.setWg_hostMap : (s.setWg w).hostMap = s.hostMap := rfl
@[simp] theorem State.setWg_wst : (s.setWg w).wst = s.wst := rfl
@[simp] theorem State.setWg_opmem : (s.setWg w).opmem = s.opmem := rfl
@[simp] theorem State.setWg_accmem : (s.setWg w).accmem = s.accmem := rfl
@[simp] theorem State.setWg_poison : (s.setWg w).poison = s.poison := rfl
@[simp] theorem State.setWg_ecc : (s.setWg w).ecc = s.ecc := rfl
@[simp] theorem State.setWg_pkg : (s.setWg w).pkg = s.pkg := rfl
@[simp] theorem State.setWg_threads : (s.setWg w).threads = s.threads := rfl
@[simp] theorem State.setWg_saved : (s.setWg w).saved = s.saved := rfl
@[simp] theorem State.setWg_groups : (s.setWg w).groups = s.groups := rfl
@[simp] theorem State.setWg_bins : (s.setWg w).bins = s.bins := rfl
@[simp] theorem State.setWg_overflow : (s.setWg w).overflow = s.overflow := rfl
@[simp] theorem State.setWg_cur : (s.setWg w).cur = s.cur := rfl
@[simp] theorem State.setWg_cores : (s.setWg w).cores = s.cores := rfl
@[simp] theorem State.setWg_ops : (s.setWg w).ops = s.ops := rfl
@[simp] theorem State.setWg_claims : (s.setWg w).claims = s.claims := rfl
@[simp] theorem State.setWg_grows : (s.setWg w).grows = s.grows := rfl
@[simp] theorem State.setWg_bars : (s.setWg w).bars = s.bars := rfl
@[simp] theorem State.setWg_colls : (s.setWg w).colls = s.colls := rfl
@[simp] theorem State.setWg_collRx : (s.setWg w).collRx = s.collRx := rfl
@[simp] theorem State.setWg_dieCyc : (s.setWg w).dieCyc = s.dieCyc := rfl
@[simp] theorem State.setWg_pools : (s.setWg w).pools = s.pools := rfl
@[simp] theorem State.setWg_frames : (s.setWg w).frames = s.frames := rfl
@[simp] theorem State.setWg_held : (s.setWg w).held = s.held := rfl
@[simp] theorem State.setWg_queue : (s.setWg w).queue = s.queue := rfl
@[simp] theorem State.setWg_replicas : (s.setWg w).replicas = s.replicas := rfl
@[simp] theorem State.setWg_images : (s.setWg w).images = s.images := rfl
@[simp] theorem State.setWg_tlb : (s.setWg w).tlb = s.tlb := rfl
@[simp] theorem State.setWg_bounds : (s.setWg w).bounds = s.bounds := rfl
@[simp] theorem State.setWg_joins : (s.setWg w).joins = s.joins := rfl
@[simp] theorem State.setWg_kloads : (s.setWg w).kloads = s.kloads := rfl
@[simp] theorem State.setWg_ctxs : (s.setWg w).ctxs = s.ctxs := rfl
@[simp] theorem State.setWg_graphs : (s.setWg w).graphs = s.graphs := rfl
@[simp] theorem State.setWg_verts : (s.setWg w).verts = s.verts := rfl
@[simp] theorem State.setWg_edges : (s.setWg w).edges = s.edges := rfl
@[simp] theorem State.setWg_issued : (s.setWg w).issued = s.issued := rfl
@[simp] theorem State.setWg_vfs : (s.setWg w).vfs = s.vfs := rfl
@[simp] theorem State.setWg_launches : (s.setWg w).launches = s.launches := rfl
@[simp] theorem State.setWg_mgmt : (s.setWg w).mgmt = s.mgmt := rfl
@[simp] theorem State.setWg_links : (s.setWg w).links = s.links := rfl
@[simp] theorem State.setWg_txns : (s.setWg w).txns = s.txns := rfl
@[simp] theorem State.setWg_replies : (s.setWg w).replies = s.replies := rfl
@[simp] theorem State.setWg_conts : (s.setWg w).conts = s.conts := rfl
@[simp] theorem State.setWg_peeks : (s.setWg w).peeks = s.peeks := rfl
@[simp] theorem State.setWg_graphq : (s.setWg w).graphq = s.graphq := rfl
@[simp] theorem State.setWg_flushes : (s.setWg w).flushes = s.flushes := rfl
@[simp] theorem State.setWg_hostq : (s.setWg w).hostq = s.hostq := rfl
@[simp] theorem State.setWg_flits : (s.setWg w).flits = s.flits := rfl
@[simp] theorem State.setWg_out : (s.setWg w).out = s.out := rfl
@[simp] theorem State.setWg_agenda : (s.setWg w).agenda = s.agenda := rfl
@[simp] theorem State.setWg_rx : (s.setWg w).rx = s.rx := rfl
@[simp] theorem State.setWg_fetched : (s.setWg w).fetched = s.fetched := rfl
@[simp] theorem State.setWg_turn : (s.setWg w).turn = s.turn := rfl
@[simp] theorem State.setWg_nextDue : (s.setWg w).nextDue = s.nextDue := rfl
@[simp] theorem State.setWg_fresh : (s.setWg w).fresh = s.fresh := rfl
@[simp] theorem State.setWg_freeN : (s.setWg w).freeN = s.freeN := rfl

end setWg

section modWg
variable (s : State) (id : Nat) (f : Workgroup → Workgroup)

@[simp] theorem State.modWg_mem : (s.modWg id f).mem = s.mem := rfl
@[simp] theorem State.modWg_gran : (s.modWg id f).gran = s.gran := rfl
@[simp] theorem State.modWg_bmeta : (s.modWg id f).bmeta = s.bmeta := rfl
@[simp] theorem State.modWg_hostMem : (s.modWg id f).hostMem = s.hostMem := rfl
@[simp] theorem State.modWg_hostMap : (s.modWg id f).hostMap = s.hostMap := rfl
@[simp] theorem State.modWg_wst : (s.modWg id f).wst = s.wst := rfl
@[simp] theorem State.modWg_opmem : (s.modWg id f).opmem = s.opmem := rfl
@[simp] theorem State.modWg_accmem : (s.modWg id f).accmem = s.accmem := rfl
@[simp] theorem State.modWg_poison : (s.modWg id f).poison = s.poison := rfl
@[simp] theorem State.modWg_ecc : (s.modWg id f).ecc = s.ecc := rfl
@[simp] theorem State.modWg_pkg : (s.modWg id f).pkg = s.pkg := rfl
@[simp] theorem State.modWg_threads : (s.modWg id f).threads = s.threads := rfl
@[simp] theorem State.modWg_saved : (s.modWg id f).saved = s.saved := rfl
@[simp] theorem State.modWg_groups : (s.modWg id f).groups = s.groups := rfl
@[simp] theorem State.modWg_bins : (s.modWg id f).bins = s.bins := rfl
@[simp] theorem State.modWg_overflow : (s.modWg id f).overflow = s.overflow := rfl
@[simp] theorem State.modWg_cur : (s.modWg id f).cur = s.cur := rfl
@[simp] theorem State.modWg_cores : (s.modWg id f).cores = s.cores := rfl
@[simp] theorem State.modWg_ops : (s.modWg id f).ops = s.ops := rfl
@[simp] theorem State.modWg_claims : (s.modWg id f).claims = s.claims := rfl
@[simp] theorem State.modWg_grows : (s.modWg id f).grows = s.grows := rfl
@[simp] theorem State.modWg_bars : (s.modWg id f).bars = s.bars := rfl
@[simp] theorem State.modWg_colls : (s.modWg id f).colls = s.colls := rfl
@[simp] theorem State.modWg_collRx : (s.modWg id f).collRx = s.collRx := rfl
@[simp] theorem State.modWg_dieCyc : (s.modWg id f).dieCyc = s.dieCyc := rfl
@[simp] theorem State.modWg_pools : (s.modWg id f).pools = s.pools := rfl
@[simp] theorem State.modWg_frames : (s.modWg id f).frames = s.frames := rfl
@[simp] theorem State.modWg_held : (s.modWg id f).held = s.held := rfl
@[simp] theorem State.modWg_queue : (s.modWg id f).queue = s.queue := rfl
@[simp] theorem State.modWg_replicas : (s.modWg id f).replicas = s.replicas := rfl
@[simp] theorem State.modWg_images : (s.modWg id f).images = s.images := rfl
@[simp] theorem State.modWg_tlb : (s.modWg id f).tlb = s.tlb := rfl
@[simp] theorem State.modWg_bounds : (s.modWg id f).bounds = s.bounds := rfl
@[simp] theorem State.modWg_joins : (s.modWg id f).joins = s.joins := rfl
@[simp] theorem State.modWg_kloads : (s.modWg id f).kloads = s.kloads := rfl
@[simp] theorem State.modWg_ctxs : (s.modWg id f).ctxs = s.ctxs := rfl
@[simp] theorem State.modWg_graphs : (s.modWg id f).graphs = s.graphs := rfl
@[simp] theorem State.modWg_verts : (s.modWg id f).verts = s.verts := rfl
@[simp] theorem State.modWg_edges : (s.modWg id f).edges = s.edges := rfl
@[simp] theorem State.modWg_issued : (s.modWg id f).issued = s.issued := rfl
@[simp] theorem State.modWg_vfs : (s.modWg id f).vfs = s.vfs := rfl
@[simp] theorem State.modWg_launches : (s.modWg id f).launches = s.launches := rfl
@[simp] theorem State.modWg_mgmt : (s.modWg id f).mgmt = s.mgmt := rfl
@[simp] theorem State.modWg_links : (s.modWg id f).links = s.links := rfl
@[simp] theorem State.modWg_txns : (s.modWg id f).txns = s.txns := rfl
@[simp] theorem State.modWg_replies : (s.modWg id f).replies = s.replies := rfl
@[simp] theorem State.modWg_conts : (s.modWg id f).conts = s.conts := rfl
@[simp] theorem State.modWg_peeks : (s.modWg id f).peeks = s.peeks := rfl
@[simp] theorem State.modWg_graphq : (s.modWg id f).graphq = s.graphq := rfl
@[simp] theorem State.modWg_flushes : (s.modWg id f).flushes = s.flushes := rfl
@[simp] theorem State.modWg_hostq : (s.modWg id f).hostq = s.hostq := rfl
@[simp] theorem State.modWg_flits : (s.modWg id f).flits = s.flits := rfl
@[simp] theorem State.modWg_out : (s.modWg id f).out = s.out := rfl
@[simp] theorem State.modWg_agenda : (s.modWg id f).agenda = s.agenda := rfl
@[simp] theorem State.modWg_rx : (s.modWg id f).rx = s.rx := rfl
@[simp] theorem State.modWg_fetched : (s.modWg id f).fetched = s.fetched := rfl
@[simp] theorem State.modWg_turn : (s.modWg id f).turn = s.turn := rfl
@[simp] theorem State.modWg_nextDue : (s.modWg id f).nextDue = s.nextDue := rfl
@[simp] theorem State.modWg_fresh : (s.modWg id f).fresh = s.fresh := rfl
@[simp] theorem State.modWg_freeN : (s.modWg id f).freeN = s.freeN := rfl

end modWg

section modTile
variable (s : State) (wg n : Nat) (f : Tile → Tile)

@[simp] theorem State.modTile_mem : (s.modTile wg n f).mem = s.mem := rfl
@[simp] theorem State.modTile_gran : (s.modTile wg n f).gran = s.gran := rfl
@[simp] theorem State.modTile_bmeta : (s.modTile wg n f).bmeta = s.bmeta := rfl
@[simp] theorem State.modTile_hostMem : (s.modTile wg n f).hostMem = s.hostMem := rfl
@[simp] theorem State.modTile_hostMap : (s.modTile wg n f).hostMap = s.hostMap := rfl
@[simp] theorem State.modTile_wst : (s.modTile wg n f).wst = s.wst := rfl
@[simp] theorem State.modTile_opmem : (s.modTile wg n f).opmem = s.opmem := rfl
@[simp] theorem State.modTile_accmem : (s.modTile wg n f).accmem = s.accmem := rfl
@[simp] theorem State.modTile_poison : (s.modTile wg n f).poison = s.poison := rfl
@[simp] theorem State.modTile_ecc : (s.modTile wg n f).ecc = s.ecc := rfl
@[simp] theorem State.modTile_pkg : (s.modTile wg n f).pkg = s.pkg := rfl
@[simp] theorem State.modTile_threads : (s.modTile wg n f).threads = s.threads := rfl
@[simp] theorem State.modTile_saved : (s.modTile wg n f).saved = s.saved := rfl
@[simp] theorem State.modTile_groups : (s.modTile wg n f).groups = s.groups := rfl
@[simp] theorem State.modTile_bins : (s.modTile wg n f).bins = s.bins := rfl
@[simp] theorem State.modTile_overflow : (s.modTile wg n f).overflow = s.overflow := rfl
@[simp] theorem State.modTile_cur : (s.modTile wg n f).cur = s.cur := rfl
@[simp] theorem State.modTile_cores : (s.modTile wg n f).cores = s.cores := rfl
@[simp] theorem State.modTile_ops : (s.modTile wg n f).ops = s.ops := rfl
@[simp] theorem State.modTile_claims : (s.modTile wg n f).claims = s.claims := rfl
@[simp] theorem State.modTile_grows : (s.modTile wg n f).grows = s.grows := rfl
@[simp] theorem State.modTile_bars : (s.modTile wg n f).bars = s.bars := rfl
@[simp] theorem State.modTile_colls : (s.modTile wg n f).colls = s.colls := rfl
@[simp] theorem State.modTile_collRx : (s.modTile wg n f).collRx = s.collRx := rfl
@[simp] theorem State.modTile_dieCyc : (s.modTile wg n f).dieCyc = s.dieCyc := rfl
@[simp] theorem State.modTile_pools : (s.modTile wg n f).pools = s.pools := rfl
@[simp] theorem State.modTile_frames : (s.modTile wg n f).frames = s.frames := rfl
@[simp] theorem State.modTile_held : (s.modTile wg n f).held = s.held := rfl
@[simp] theorem State.modTile_queue : (s.modTile wg n f).queue = s.queue := rfl
@[simp] theorem State.modTile_replicas : (s.modTile wg n f).replicas = s.replicas := rfl
@[simp] theorem State.modTile_images : (s.modTile wg n f).images = s.images := rfl
@[simp] theorem State.modTile_tlb : (s.modTile wg n f).tlb = s.tlb := rfl
@[simp] theorem State.modTile_bounds : (s.modTile wg n f).bounds = s.bounds := rfl
@[simp] theorem State.modTile_joins : (s.modTile wg n f).joins = s.joins := rfl
@[simp] theorem State.modTile_kloads : (s.modTile wg n f).kloads = s.kloads := rfl
@[simp] theorem State.modTile_ctxs : (s.modTile wg n f).ctxs = s.ctxs := rfl
@[simp] theorem State.modTile_graphs : (s.modTile wg n f).graphs = s.graphs := rfl
@[simp] theorem State.modTile_verts : (s.modTile wg n f).verts = s.verts := rfl
@[simp] theorem State.modTile_edges : (s.modTile wg n f).edges = s.edges := rfl
@[simp] theorem State.modTile_issued : (s.modTile wg n f).issued = s.issued := rfl
@[simp] theorem State.modTile_vfs : (s.modTile wg n f).vfs = s.vfs := rfl
@[simp] theorem State.modTile_launches : (s.modTile wg n f).launches = s.launches := rfl
@[simp] theorem State.modTile_mgmt : (s.modTile wg n f).mgmt = s.mgmt := rfl
@[simp] theorem State.modTile_links : (s.modTile wg n f).links = s.links := rfl
@[simp] theorem State.modTile_txns : (s.modTile wg n f).txns = s.txns := rfl
@[simp] theorem State.modTile_replies : (s.modTile wg n f).replies = s.replies := rfl
@[simp] theorem State.modTile_conts : (s.modTile wg n f).conts = s.conts := rfl
@[simp] theorem State.modTile_peeks : (s.modTile wg n f).peeks = s.peeks := rfl
@[simp] theorem State.modTile_graphq : (s.modTile wg n f).graphq = s.graphq := rfl
@[simp] theorem State.modTile_flushes : (s.modTile wg n f).flushes = s.flushes := rfl
@[simp] theorem State.modTile_hostq : (s.modTile wg n f).hostq = s.hostq := rfl
@[simp] theorem State.modTile_flits : (s.modTile wg n f).flits = s.flits := rfl
@[simp] theorem State.modTile_out : (s.modTile wg n f).out = s.out := rfl
@[simp] theorem State.modTile_agenda : (s.modTile wg n f).agenda = s.agenda := rfl
@[simp] theorem State.modTile_rx : (s.modTile wg n f).rx = s.rx := rfl
@[simp] theorem State.modTile_fetched : (s.modTile wg n f).fetched = s.fetched := rfl
@[simp] theorem State.modTile_turn : (s.modTile wg n f).turn = s.turn := rfl
@[simp] theorem State.modTile_nextDue : (s.modTile wg n f).nextDue = s.nextDue := rfl
@[simp] theorem State.modTile_fresh : (s.modTile wg n f).fresh = s.fresh := rfl
@[simp] theorem State.modTile_freeN : (s.modTile wg n f).freeN = s.freeN := rfl

end modTile

section setCore
variable (s : State) (c : Core)

@[simp] theorem State.setCore_mem : (s.setCore c).mem = s.mem := rfl
@[simp] theorem State.setCore_gran : (s.setCore c).gran = s.gran := rfl
@[simp] theorem State.setCore_bmeta : (s.setCore c).bmeta = s.bmeta := rfl
@[simp] theorem State.setCore_hostMem : (s.setCore c).hostMem = s.hostMem := rfl
@[simp] theorem State.setCore_hostMap : (s.setCore c).hostMap = s.hostMap := rfl
@[simp] theorem State.setCore_wst : (s.setCore c).wst = s.wst := rfl
@[simp] theorem State.setCore_opmem : (s.setCore c).opmem = s.opmem := rfl
@[simp] theorem State.setCore_accmem : (s.setCore c).accmem = s.accmem := rfl
@[simp] theorem State.setCore_poison : (s.setCore c).poison = s.poison := rfl
@[simp] theorem State.setCore_ecc : (s.setCore c).ecc = s.ecc := rfl
@[simp] theorem State.setCore_pkg : (s.setCore c).pkg = s.pkg := rfl
@[simp] theorem State.setCore_threads : (s.setCore c).threads = s.threads := rfl
@[simp] theorem State.setCore_wgs : (s.setCore c).wgs = s.wgs := rfl
@[simp] theorem State.setCore_saved : (s.setCore c).saved = s.saved := rfl
@[simp] theorem State.setCore_groups : (s.setCore c).groups = s.groups := rfl
@[simp] theorem State.setCore_bins : (s.setCore c).bins = s.bins := rfl
@[simp] theorem State.setCore_overflow : (s.setCore c).overflow = s.overflow := rfl
@[simp] theorem State.setCore_cur : (s.setCore c).cur = s.cur := rfl
@[simp] theorem State.setCore_ops : (s.setCore c).ops = s.ops := rfl
@[simp] theorem State.setCore_claims : (s.setCore c).claims = s.claims := rfl
@[simp] theorem State.setCore_grows : (s.setCore c).grows = s.grows := rfl
@[simp] theorem State.setCore_bars : (s.setCore c).bars = s.bars := rfl
@[simp] theorem State.setCore_colls : (s.setCore c).colls = s.colls := rfl
@[simp] theorem State.setCore_collRx : (s.setCore c).collRx = s.collRx := rfl
@[simp] theorem State.setCore_dieCyc : (s.setCore c).dieCyc = s.dieCyc := rfl
@[simp] theorem State.setCore_pools : (s.setCore c).pools = s.pools := rfl
@[simp] theorem State.setCore_frames : (s.setCore c).frames = s.frames := rfl
@[simp] theorem State.setCore_held : (s.setCore c).held = s.held := rfl
@[simp] theorem State.setCore_queue : (s.setCore c).queue = s.queue := rfl
@[simp] theorem State.setCore_replicas : (s.setCore c).replicas = s.replicas := rfl
@[simp] theorem State.setCore_images : (s.setCore c).images = s.images := rfl
@[simp] theorem State.setCore_tlb : (s.setCore c).tlb = s.tlb := rfl
@[simp] theorem State.setCore_bounds : (s.setCore c).bounds = s.bounds := rfl
@[simp] theorem State.setCore_joins : (s.setCore c).joins = s.joins := rfl
@[simp] theorem State.setCore_kloads : (s.setCore c).kloads = s.kloads := rfl
@[simp] theorem State.setCore_ctxs : (s.setCore c).ctxs = s.ctxs := rfl
@[simp] theorem State.setCore_graphs : (s.setCore c).graphs = s.graphs := rfl
@[simp] theorem State.setCore_verts : (s.setCore c).verts = s.verts := rfl
@[simp] theorem State.setCore_edges : (s.setCore c).edges = s.edges := rfl
@[simp] theorem State.setCore_issued : (s.setCore c).issued = s.issued := rfl
@[simp] theorem State.setCore_vfs : (s.setCore c).vfs = s.vfs := rfl
@[simp] theorem State.setCore_launches : (s.setCore c).launches = s.launches := rfl
@[simp] theorem State.setCore_mgmt : (s.setCore c).mgmt = s.mgmt := rfl
@[simp] theorem State.setCore_links : (s.setCore c).links = s.links := rfl
@[simp] theorem State.setCore_txns : (s.setCore c).txns = s.txns := rfl
@[simp] theorem State.setCore_replies : (s.setCore c).replies = s.replies := rfl
@[simp] theorem State.setCore_conts : (s.setCore c).conts = s.conts := rfl
@[simp] theorem State.setCore_peeks : (s.setCore c).peeks = s.peeks := rfl
@[simp] theorem State.setCore_graphq : (s.setCore c).graphq = s.graphq := rfl
@[simp] theorem State.setCore_flushes : (s.setCore c).flushes = s.flushes := rfl
@[simp] theorem State.setCore_hostq : (s.setCore c).hostq = s.hostq := rfl
@[simp] theorem State.setCore_flits : (s.setCore c).flits = s.flits := rfl
@[simp] theorem State.setCore_out : (s.setCore c).out = s.out := rfl
@[simp] theorem State.setCore_agenda : (s.setCore c).agenda = s.agenda := rfl
@[simp] theorem State.setCore_rx : (s.setCore c).rx = s.rx := rfl
@[simp] theorem State.setCore_fetched : (s.setCore c).fetched = s.fetched := rfl
@[simp] theorem State.setCore_turn : (s.setCore c).turn = s.turn := rfl
@[simp] theorem State.setCore_nextDue : (s.setCore c).nextDue = s.nextDue := rfl
@[simp] theorem State.setCore_fresh : (s.setCore c).fresh = s.fresh := rfl
@[simp] theorem State.setCore_freeN : (s.setCore c).freeN = s.freeN := rfl

end setCore

section setVf
variable (s : State) (v : Vf)

@[simp] theorem State.setVf_mem : (s.setVf v).mem = s.mem := rfl
@[simp] theorem State.setVf_gran : (s.setVf v).gran = s.gran := rfl
@[simp] theorem State.setVf_bmeta : (s.setVf v).bmeta = s.bmeta := rfl
@[simp] theorem State.setVf_hostMem : (s.setVf v).hostMem = s.hostMem := rfl
@[simp] theorem State.setVf_hostMap : (s.setVf v).hostMap = s.hostMap := rfl
@[simp] theorem State.setVf_wst : (s.setVf v).wst = s.wst := rfl
@[simp] theorem State.setVf_opmem : (s.setVf v).opmem = s.opmem := rfl
@[simp] theorem State.setVf_accmem : (s.setVf v).accmem = s.accmem := rfl
@[simp] theorem State.setVf_poison : (s.setVf v).poison = s.poison := rfl
@[simp] theorem State.setVf_ecc : (s.setVf v).ecc = s.ecc := rfl
@[simp] theorem State.setVf_pkg : (s.setVf v).pkg = s.pkg := rfl
@[simp] theorem State.setVf_threads : (s.setVf v).threads = s.threads := rfl
@[simp] theorem State.setVf_wgs : (s.setVf v).wgs = s.wgs := rfl
@[simp] theorem State.setVf_saved : (s.setVf v).saved = s.saved := rfl
@[simp] theorem State.setVf_groups : (s.setVf v).groups = s.groups := rfl
@[simp] theorem State.setVf_bins : (s.setVf v).bins = s.bins := rfl
@[simp] theorem State.setVf_overflow : (s.setVf v).overflow = s.overflow := rfl
@[simp] theorem State.setVf_cur : (s.setVf v).cur = s.cur := rfl
@[simp] theorem State.setVf_cores : (s.setVf v).cores = s.cores := rfl
@[simp] theorem State.setVf_ops : (s.setVf v).ops = s.ops := rfl
@[simp] theorem State.setVf_claims : (s.setVf v).claims = s.claims := rfl
@[simp] theorem State.setVf_grows : (s.setVf v).grows = s.grows := rfl
@[simp] theorem State.setVf_bars : (s.setVf v).bars = s.bars := rfl
@[simp] theorem State.setVf_colls : (s.setVf v).colls = s.colls := rfl
@[simp] theorem State.setVf_collRx : (s.setVf v).collRx = s.collRx := rfl
@[simp] theorem State.setVf_dieCyc : (s.setVf v).dieCyc = s.dieCyc := rfl
@[simp] theorem State.setVf_pools : (s.setVf v).pools = s.pools := rfl
@[simp] theorem State.setVf_frames : (s.setVf v).frames = s.frames := rfl
@[simp] theorem State.setVf_held : (s.setVf v).held = s.held := rfl
@[simp] theorem State.setVf_queue : (s.setVf v).queue = s.queue := rfl
@[simp] theorem State.setVf_replicas : (s.setVf v).replicas = s.replicas := rfl
@[simp] theorem State.setVf_images : (s.setVf v).images = s.images := rfl
@[simp] theorem State.setVf_tlb : (s.setVf v).tlb = s.tlb := rfl
@[simp] theorem State.setVf_bounds : (s.setVf v).bounds = s.bounds := rfl
@[simp] theorem State.setVf_joins : (s.setVf v).joins = s.joins := rfl
@[simp] theorem State.setVf_kloads : (s.setVf v).kloads = s.kloads := rfl
@[simp] theorem State.setVf_ctxs : (s.setVf v).ctxs = s.ctxs := rfl
@[simp] theorem State.setVf_graphs : (s.setVf v).graphs = s.graphs := rfl
@[simp] theorem State.setVf_verts : (s.setVf v).verts = s.verts := rfl
@[simp] theorem State.setVf_edges : (s.setVf v).edges = s.edges := rfl
@[simp] theorem State.setVf_issued : (s.setVf v).issued = s.issued := rfl
@[simp] theorem State.setVf_launches : (s.setVf v).launches = s.launches := rfl
@[simp] theorem State.setVf_mgmt : (s.setVf v).mgmt = s.mgmt := rfl
@[simp] theorem State.setVf_links : (s.setVf v).links = s.links := rfl
@[simp] theorem State.setVf_txns : (s.setVf v).txns = s.txns := rfl
@[simp] theorem State.setVf_replies : (s.setVf v).replies = s.replies := rfl
@[simp] theorem State.setVf_conts : (s.setVf v).conts = s.conts := rfl
@[simp] theorem State.setVf_peeks : (s.setVf v).peeks = s.peeks := rfl
@[simp] theorem State.setVf_graphq : (s.setVf v).graphq = s.graphq := rfl
@[simp] theorem State.setVf_flushes : (s.setVf v).flushes = s.flushes := rfl
@[simp] theorem State.setVf_hostq : (s.setVf v).hostq = s.hostq := rfl
@[simp] theorem State.setVf_flits : (s.setVf v).flits = s.flits := rfl
@[simp] theorem State.setVf_out : (s.setVf v).out = s.out := rfl
@[simp] theorem State.setVf_agenda : (s.setVf v).agenda = s.agenda := rfl
@[simp] theorem State.setVf_rx : (s.setVf v).rx = s.rx := rfl
@[simp] theorem State.setVf_fetched : (s.setVf v).fetched = s.fetched := rfl
@[simp] theorem State.setVf_turn : (s.setVf v).turn = s.turn := rfl
@[simp] theorem State.setVf_nextDue : (s.setVf v).nextDue = s.nextDue := rfl
@[simp] theorem State.setVf_fresh : (s.setVf v).fresh = s.fresh := rfl
@[simp] theorem State.setVf_freeN : (s.setVf v).freeN = s.freeN := rfl

end setVf

section setCtx
variable (s : State) (c : Context)

@[simp] theorem State.setCtx_mem : (s.setCtx c).mem = s.mem := rfl
@[simp] theorem State.setCtx_gran : (s.setCtx c).gran = s.gran := rfl
@[simp] theorem State.setCtx_bmeta : (s.setCtx c).bmeta = s.bmeta := rfl
@[simp] theorem State.setCtx_hostMem : (s.setCtx c).hostMem = s.hostMem := rfl
@[simp] theorem State.setCtx_hostMap : (s.setCtx c).hostMap = s.hostMap := rfl
@[simp] theorem State.setCtx_wst : (s.setCtx c).wst = s.wst := rfl
@[simp] theorem State.setCtx_opmem : (s.setCtx c).opmem = s.opmem := rfl
@[simp] theorem State.setCtx_accmem : (s.setCtx c).accmem = s.accmem := rfl
@[simp] theorem State.setCtx_poison : (s.setCtx c).poison = s.poison := rfl
@[simp] theorem State.setCtx_ecc : (s.setCtx c).ecc = s.ecc := rfl
@[simp] theorem State.setCtx_pkg : (s.setCtx c).pkg = s.pkg := rfl
@[simp] theorem State.setCtx_threads : (s.setCtx c).threads = s.threads := rfl
@[simp] theorem State.setCtx_wgs : (s.setCtx c).wgs = s.wgs := rfl
@[simp] theorem State.setCtx_saved : (s.setCtx c).saved = s.saved := rfl
@[simp] theorem State.setCtx_groups : (s.setCtx c).groups = s.groups := rfl
@[simp] theorem State.setCtx_bins : (s.setCtx c).bins = s.bins := rfl
@[simp] theorem State.setCtx_overflow : (s.setCtx c).overflow = s.overflow := rfl
@[simp] theorem State.setCtx_cur : (s.setCtx c).cur = s.cur := rfl
@[simp] theorem State.setCtx_cores : (s.setCtx c).cores = s.cores := rfl
@[simp] theorem State.setCtx_ops : (s.setCtx c).ops = s.ops := rfl
@[simp] theorem State.setCtx_claims : (s.setCtx c).claims = s.claims := rfl
@[simp] theorem State.setCtx_grows : (s.setCtx c).grows = s.grows := rfl
@[simp] theorem State.setCtx_bars : (s.setCtx c).bars = s.bars := rfl
@[simp] theorem State.setCtx_colls : (s.setCtx c).colls = s.colls := rfl
@[simp] theorem State.setCtx_collRx : (s.setCtx c).collRx = s.collRx := rfl
@[simp] theorem State.setCtx_dieCyc : (s.setCtx c).dieCyc = s.dieCyc := rfl
@[simp] theorem State.setCtx_pools : (s.setCtx c).pools = s.pools := rfl
@[simp] theorem State.setCtx_frames : (s.setCtx c).frames = s.frames := rfl
@[simp] theorem State.setCtx_held : (s.setCtx c).held = s.held := rfl
@[simp] theorem State.setCtx_queue : (s.setCtx c).queue = s.queue := rfl
@[simp] theorem State.setCtx_replicas : (s.setCtx c).replicas = s.replicas := rfl
@[simp] theorem State.setCtx_images : (s.setCtx c).images = s.images := rfl
@[simp] theorem State.setCtx_tlb : (s.setCtx c).tlb = s.tlb := rfl
@[simp] theorem State.setCtx_bounds : (s.setCtx c).bounds = s.bounds := rfl
@[simp] theorem State.setCtx_joins : (s.setCtx c).joins = s.joins := rfl
@[simp] theorem State.setCtx_kloads : (s.setCtx c).kloads = s.kloads := rfl
@[simp] theorem State.setCtx_graphs : (s.setCtx c).graphs = s.graphs := rfl
@[simp] theorem State.setCtx_verts : (s.setCtx c).verts = s.verts := rfl
@[simp] theorem State.setCtx_edges : (s.setCtx c).edges = s.edges := rfl
@[simp] theorem State.setCtx_issued : (s.setCtx c).issued = s.issued := rfl
@[simp] theorem State.setCtx_vfs : (s.setCtx c).vfs = s.vfs := rfl
@[simp] theorem State.setCtx_launches : (s.setCtx c).launches = s.launches := rfl
@[simp] theorem State.setCtx_mgmt : (s.setCtx c).mgmt = s.mgmt := rfl
@[simp] theorem State.setCtx_links : (s.setCtx c).links = s.links := rfl
@[simp] theorem State.setCtx_txns : (s.setCtx c).txns = s.txns := rfl
@[simp] theorem State.setCtx_replies : (s.setCtx c).replies = s.replies := rfl
@[simp] theorem State.setCtx_conts : (s.setCtx c).conts = s.conts := rfl
@[simp] theorem State.setCtx_peeks : (s.setCtx c).peeks = s.peeks := rfl
@[simp] theorem State.setCtx_graphq : (s.setCtx c).graphq = s.graphq := rfl
@[simp] theorem State.setCtx_flushes : (s.setCtx c).flushes = s.flushes := rfl
@[simp] theorem State.setCtx_hostq : (s.setCtx c).hostq = s.hostq := rfl
@[simp] theorem State.setCtx_flits : (s.setCtx c).flits = s.flits := rfl
@[simp] theorem State.setCtx_out : (s.setCtx c).out = s.out := rfl
@[simp] theorem State.setCtx_agenda : (s.setCtx c).agenda = s.agenda := rfl
@[simp] theorem State.setCtx_rx : (s.setCtx c).rx = s.rx := rfl
@[simp] theorem State.setCtx_fetched : (s.setCtx c).fetched = s.fetched := rfl
@[simp] theorem State.setCtx_turn : (s.setCtx c).turn = s.turn := rfl
@[simp] theorem State.setCtx_nextDue : (s.setCtx c).nextDue = s.nextDue := rfl
@[simp] theorem State.setCtx_fresh : (s.setCtx c).fresh = s.fresh := rfl
@[simp] theorem State.setCtx_freeN : (s.setCtx c).freeN = s.freeN := rfl

end setCtx

section bump
variable (s : State)

@[simp] theorem State.bump_mem : (s.bump).mem = s.mem := rfl
@[simp] theorem State.bump_gran : (s.bump).gran = s.gran := rfl
@[simp] theorem State.bump_bmeta : (s.bump).bmeta = s.bmeta := rfl
@[simp] theorem State.bump_hostMem : (s.bump).hostMem = s.hostMem := rfl
@[simp] theorem State.bump_hostMap : (s.bump).hostMap = s.hostMap := rfl
@[simp] theorem State.bump_wst : (s.bump).wst = s.wst := rfl
@[simp] theorem State.bump_opmem : (s.bump).opmem = s.opmem := rfl
@[simp] theorem State.bump_accmem : (s.bump).accmem = s.accmem := rfl
@[simp] theorem State.bump_poison : (s.bump).poison = s.poison := rfl
@[simp] theorem State.bump_ecc : (s.bump).ecc = s.ecc := rfl
@[simp] theorem State.bump_pkg : (s.bump).pkg = s.pkg := rfl
@[simp] theorem State.bump_threads : (s.bump).threads = s.threads := rfl
@[simp] theorem State.bump_wgs : (s.bump).wgs = s.wgs := rfl
@[simp] theorem State.bump_saved : (s.bump).saved = s.saved := rfl
@[simp] theorem State.bump_groups : (s.bump).groups = s.groups := rfl
@[simp] theorem State.bump_bins : (s.bump).bins = s.bins := rfl
@[simp] theorem State.bump_overflow : (s.bump).overflow = s.overflow := rfl
@[simp] theorem State.bump_cur : (s.bump).cur = s.cur := rfl
@[simp] theorem State.bump_cores : (s.bump).cores = s.cores := rfl
@[simp] theorem State.bump_ops : (s.bump).ops = s.ops := rfl
@[simp] theorem State.bump_claims : (s.bump).claims = s.claims := rfl
@[simp] theorem State.bump_grows : (s.bump).grows = s.grows := rfl
@[simp] theorem State.bump_bars : (s.bump).bars = s.bars := rfl
@[simp] theorem State.bump_colls : (s.bump).colls = s.colls := rfl
@[simp] theorem State.bump_collRx : (s.bump).collRx = s.collRx := rfl
@[simp] theorem State.bump_dieCyc : (s.bump).dieCyc = s.dieCyc := rfl
@[simp] theorem State.bump_pools : (s.bump).pools = s.pools := rfl
@[simp] theorem State.bump_frames : (s.bump).frames = s.frames := rfl
@[simp] theorem State.bump_held : (s.bump).held = s.held := rfl
@[simp] theorem State.bump_queue : (s.bump).queue = s.queue := rfl
@[simp] theorem State.bump_replicas : (s.bump).replicas = s.replicas := rfl
@[simp] theorem State.bump_images : (s.bump).images = s.images := rfl
@[simp] theorem State.bump_tlb : (s.bump).tlb = s.tlb := rfl
@[simp] theorem State.bump_bounds : (s.bump).bounds = s.bounds := rfl
@[simp] theorem State.bump_joins : (s.bump).joins = s.joins := rfl
@[simp] theorem State.bump_kloads : (s.bump).kloads = s.kloads := rfl
@[simp] theorem State.bump_ctxs : (s.bump).ctxs = s.ctxs := rfl
@[simp] theorem State.bump_graphs : (s.bump).graphs = s.graphs := rfl
@[simp] theorem State.bump_verts : (s.bump).verts = s.verts := rfl
@[simp] theorem State.bump_edges : (s.bump).edges = s.edges := rfl
@[simp] theorem State.bump_issued : (s.bump).issued = s.issued := rfl
@[simp] theorem State.bump_vfs : (s.bump).vfs = s.vfs := rfl
@[simp] theorem State.bump_launches : (s.bump).launches = s.launches := rfl
@[simp] theorem State.bump_mgmt : (s.bump).mgmt = s.mgmt := rfl
@[simp] theorem State.bump_links : (s.bump).links = s.links := rfl
@[simp] theorem State.bump_txns : (s.bump).txns = s.txns := rfl
@[simp] theorem State.bump_replies : (s.bump).replies = s.replies := rfl
@[simp] theorem State.bump_conts : (s.bump).conts = s.conts := rfl
@[simp] theorem State.bump_peeks : (s.bump).peeks = s.peeks := rfl
@[simp] theorem State.bump_graphq : (s.bump).graphq = s.graphq := rfl
@[simp] theorem State.bump_flushes : (s.bump).flushes = s.flushes := rfl
@[simp] theorem State.bump_hostq : (s.bump).hostq = s.hostq := rfl
@[simp] theorem State.bump_flits : (s.bump).flits = s.flits := rfl
@[simp] theorem State.bump_out : (s.bump).out = s.out := rfl
@[simp] theorem State.bump_agenda : (s.bump).agenda = s.agenda := rfl
@[simp] theorem State.bump_rx : (s.bump).rx = s.rx := rfl
@[simp] theorem State.bump_fetched : (s.bump).fetched = s.fetched := rfl
@[simp] theorem State.bump_turn : (s.bump).turn = s.turn := rfl
@[simp] theorem State.bump_nextDue : (s.bump).nextDue = s.nextDue := rfl
@[simp] theorem State.bump_fresh : (s.bump).fresh = s.fresh := rfl

end bump

section bumpId
variable (s : State)

@[simp] theorem State.bumpId_mem : (s.bumpId).mem = s.mem := rfl
@[simp] theorem State.bumpId_gran : (s.bumpId).gran = s.gran := rfl
@[simp] theorem State.bumpId_bmeta : (s.bumpId).bmeta = s.bmeta := rfl
@[simp] theorem State.bumpId_hostMem : (s.bumpId).hostMem = s.hostMem := rfl
@[simp] theorem State.bumpId_hostMap : (s.bumpId).hostMap = s.hostMap := rfl
@[simp] theorem State.bumpId_wst : (s.bumpId).wst = s.wst := rfl
@[simp] theorem State.bumpId_opmem : (s.bumpId).opmem = s.opmem := rfl
@[simp] theorem State.bumpId_accmem : (s.bumpId).accmem = s.accmem := rfl
@[simp] theorem State.bumpId_poison : (s.bumpId).poison = s.poison := rfl
@[simp] theorem State.bumpId_ecc : (s.bumpId).ecc = s.ecc := rfl
@[simp] theorem State.bumpId_pkg : (s.bumpId).pkg = s.pkg := rfl
@[simp] theorem State.bumpId_threads : (s.bumpId).threads = s.threads := rfl
@[simp] theorem State.bumpId_wgs : (s.bumpId).wgs = s.wgs := rfl
@[simp] theorem State.bumpId_saved : (s.bumpId).saved = s.saved := rfl
@[simp] theorem State.bumpId_groups : (s.bumpId).groups = s.groups := rfl
@[simp] theorem State.bumpId_bins : (s.bumpId).bins = s.bins := rfl
@[simp] theorem State.bumpId_overflow : (s.bumpId).overflow = s.overflow := rfl
@[simp] theorem State.bumpId_cur : (s.bumpId).cur = s.cur := rfl
@[simp] theorem State.bumpId_cores : (s.bumpId).cores = s.cores := rfl
@[simp] theorem State.bumpId_ops : (s.bumpId).ops = s.ops := rfl
@[simp] theorem State.bumpId_claims : (s.bumpId).claims = s.claims := rfl
@[simp] theorem State.bumpId_grows : (s.bumpId).grows = s.grows := rfl
@[simp] theorem State.bumpId_bars : (s.bumpId).bars = s.bars := rfl
@[simp] theorem State.bumpId_colls : (s.bumpId).colls = s.colls := rfl
@[simp] theorem State.bumpId_collRx : (s.bumpId).collRx = s.collRx := rfl
@[simp] theorem State.bumpId_dieCyc : (s.bumpId).dieCyc = s.dieCyc := rfl
@[simp] theorem State.bumpId_pools : (s.bumpId).pools = s.pools := rfl
@[simp] theorem State.bumpId_frames : (s.bumpId).frames = s.frames := rfl
@[simp] theorem State.bumpId_held : (s.bumpId).held = s.held := rfl
@[simp] theorem State.bumpId_queue : (s.bumpId).queue = s.queue := rfl
@[simp] theorem State.bumpId_replicas : (s.bumpId).replicas = s.replicas := rfl
@[simp] theorem State.bumpId_images : (s.bumpId).images = s.images := rfl
@[simp] theorem State.bumpId_tlb : (s.bumpId).tlb = s.tlb := rfl
@[simp] theorem State.bumpId_bounds : (s.bumpId).bounds = s.bounds := rfl
@[simp] theorem State.bumpId_joins : (s.bumpId).joins = s.joins := rfl
@[simp] theorem State.bumpId_kloads : (s.bumpId).kloads = s.kloads := rfl
@[simp] theorem State.bumpId_ctxs : (s.bumpId).ctxs = s.ctxs := rfl
@[simp] theorem State.bumpId_graphs : (s.bumpId).graphs = s.graphs := rfl
@[simp] theorem State.bumpId_verts : (s.bumpId).verts = s.verts := rfl
@[simp] theorem State.bumpId_edges : (s.bumpId).edges = s.edges := rfl
@[simp] theorem State.bumpId_issued : (s.bumpId).issued = s.issued := rfl
@[simp] theorem State.bumpId_vfs : (s.bumpId).vfs = s.vfs := rfl
@[simp] theorem State.bumpId_launches : (s.bumpId).launches = s.launches := rfl
@[simp] theorem State.bumpId_mgmt : (s.bumpId).mgmt = s.mgmt := rfl
@[simp] theorem State.bumpId_links : (s.bumpId).links = s.links := rfl
@[simp] theorem State.bumpId_txns : (s.bumpId).txns = s.txns := rfl
@[simp] theorem State.bumpId_replies : (s.bumpId).replies = s.replies := rfl
@[simp] theorem State.bumpId_conts : (s.bumpId).conts = s.conts := rfl
@[simp] theorem State.bumpId_peeks : (s.bumpId).peeks = s.peeks := rfl
@[simp] theorem State.bumpId_graphq : (s.bumpId).graphq = s.graphq := rfl
@[simp] theorem State.bumpId_flushes : (s.bumpId).flushes = s.flushes := rfl
@[simp] theorem State.bumpId_hostq : (s.bumpId).hostq = s.hostq := rfl
@[simp] theorem State.bumpId_flits : (s.bumpId).flits = s.flits := rfl
@[simp] theorem State.bumpId_out : (s.bumpId).out = s.out := rfl
@[simp] theorem State.bumpId_agenda : (s.bumpId).agenda = s.agenda := rfl
@[simp] theorem State.bumpId_rx : (s.bumpId).rx = s.rx := rfl
@[simp] theorem State.bumpId_fetched : (s.bumpId).fetched = s.fetched := rfl
@[simp] theorem State.bumpId_turn : (s.bumpId).turn = s.turn := rfl
@[simp] theorem State.bumpId_nextDue : (s.bumpId).nextDue = s.nextDue := rfl
@[simp] theorem State.bumpId_freeN : (s.bumpId).freeN = s.freeN := rfl

end bumpId

section msix
variable (s : State) (fn v : Nat)

@[simp] theorem State.msix_mem : (s.msix fn v).mem = s.mem := rfl
@[simp] theorem State.msix_gran : (s.msix fn v).gran = s.gran := rfl
@[simp] theorem State.msix_bmeta : (s.msix fn v).bmeta = s.bmeta := rfl
@[simp] theorem State.msix_hostMem : (s.msix fn v).hostMem = s.hostMem := rfl
@[simp] theorem State.msix_hostMap : (s.msix fn v).hostMap = s.hostMap := rfl
@[simp] theorem State.msix_wst : (s.msix fn v).wst = s.wst := rfl
@[simp] theorem State.msix_opmem : (s.msix fn v).opmem = s.opmem := rfl
@[simp] theorem State.msix_accmem : (s.msix fn v).accmem = s.accmem := rfl
@[simp] theorem State.msix_poison : (s.msix fn v).poison = s.poison := rfl
@[simp] theorem State.msix_ecc : (s.msix fn v).ecc = s.ecc := rfl
@[simp] theorem State.msix_pkg : (s.msix fn v).pkg = s.pkg := rfl
@[simp] theorem State.msix_threads : (s.msix fn v).threads = s.threads := rfl
@[simp] theorem State.msix_wgs : (s.msix fn v).wgs = s.wgs := rfl
@[simp] theorem State.msix_saved : (s.msix fn v).saved = s.saved := rfl
@[simp] theorem State.msix_groups : (s.msix fn v).groups = s.groups := rfl
@[simp] theorem State.msix_bins : (s.msix fn v).bins = s.bins := rfl
@[simp] theorem State.msix_overflow : (s.msix fn v).overflow = s.overflow := rfl
@[simp] theorem State.msix_cur : (s.msix fn v).cur = s.cur := rfl
@[simp] theorem State.msix_cores : (s.msix fn v).cores = s.cores := rfl
@[simp] theorem State.msix_ops : (s.msix fn v).ops = s.ops := rfl
@[simp] theorem State.msix_claims : (s.msix fn v).claims = s.claims := rfl
@[simp] theorem State.msix_grows : (s.msix fn v).grows = s.grows := rfl
@[simp] theorem State.msix_bars : (s.msix fn v).bars = s.bars := rfl
@[simp] theorem State.msix_colls : (s.msix fn v).colls = s.colls := rfl
@[simp] theorem State.msix_collRx : (s.msix fn v).collRx = s.collRx := rfl
@[simp] theorem State.msix_dieCyc : (s.msix fn v).dieCyc = s.dieCyc := rfl
@[simp] theorem State.msix_pools : (s.msix fn v).pools = s.pools := rfl
@[simp] theorem State.msix_frames : (s.msix fn v).frames = s.frames := rfl
@[simp] theorem State.msix_held : (s.msix fn v).held = s.held := rfl
@[simp] theorem State.msix_queue : (s.msix fn v).queue = s.queue := rfl
@[simp] theorem State.msix_replicas : (s.msix fn v).replicas = s.replicas := rfl
@[simp] theorem State.msix_images : (s.msix fn v).images = s.images := rfl
@[simp] theorem State.msix_tlb : (s.msix fn v).tlb = s.tlb := rfl
@[simp] theorem State.msix_bounds : (s.msix fn v).bounds = s.bounds := rfl
@[simp] theorem State.msix_joins : (s.msix fn v).joins = s.joins := rfl
@[simp] theorem State.msix_kloads : (s.msix fn v).kloads = s.kloads := rfl
@[simp] theorem State.msix_ctxs : (s.msix fn v).ctxs = s.ctxs := rfl
@[simp] theorem State.msix_graphs : (s.msix fn v).graphs = s.graphs := rfl
@[simp] theorem State.msix_verts : (s.msix fn v).verts = s.verts := rfl
@[simp] theorem State.msix_edges : (s.msix fn v).edges = s.edges := rfl
@[simp] theorem State.msix_issued : (s.msix fn v).issued = s.issued := rfl
@[simp] theorem State.msix_vfs : (s.msix fn v).vfs = s.vfs := rfl
@[simp] theorem State.msix_launches : (s.msix fn v).launches = s.launches := rfl
@[simp] theorem State.msix_mgmt : (s.msix fn v).mgmt = s.mgmt := rfl
@[simp] theorem State.msix_links : (s.msix fn v).links = s.links := rfl
@[simp] theorem State.msix_txns : (s.msix fn v).txns = s.txns := rfl
@[simp] theorem State.msix_replies : (s.msix fn v).replies = s.replies := rfl
@[simp] theorem State.msix_conts : (s.msix fn v).conts = s.conts := rfl
@[simp] theorem State.msix_peeks : (s.msix fn v).peeks = s.peeks := rfl
@[simp] theorem State.msix_graphq : (s.msix fn v).graphq = s.graphq := rfl
@[simp] theorem State.msix_flushes : (s.msix fn v).flushes = s.flushes := rfl
@[simp] theorem State.msix_hostq : (s.msix fn v).hostq = s.hostq := rfl
@[simp] theorem State.msix_flits : (s.msix fn v).flits = s.flits := rfl
@[simp] theorem State.msix_agenda : (s.msix fn v).agenda = s.agenda := rfl
@[simp] theorem State.msix_rx : (s.msix fn v).rx = s.rx := rfl
@[simp] theorem State.msix_fetched : (s.msix fn v).fetched = s.fetched := rfl
@[simp] theorem State.msix_turn : (s.msix fn v).turn = s.turn := rfl
@[simp] theorem State.msix_nextDue : (s.msix fn v).nextDue = s.nextDue := rfl
@[simp] theorem State.msix_fresh : (s.msix fn v).fresh = s.fresh := rfl
@[simp] theorem State.msix_freeN : (s.msix fn v).freeN = s.freeN := rfl

end msix

section modThread
variable (s : State) (k : Key) (f : Thread → Thread)

@[simp] theorem State.modThread_mem : (s.modThread k f).mem = s.mem := rfl
@[simp] theorem State.modThread_gran : (s.modThread k f).gran = s.gran := rfl
@[simp] theorem State.modThread_bmeta : (s.modThread k f).bmeta = s.bmeta := rfl
@[simp] theorem State.modThread_hostMem : (s.modThread k f).hostMem = s.hostMem := rfl
@[simp] theorem State.modThread_hostMap : (s.modThread k f).hostMap = s.hostMap := rfl
@[simp] theorem State.modThread_wst : (s.modThread k f).wst = s.wst := rfl
@[simp] theorem State.modThread_opmem : (s.modThread k f).opmem = s.opmem := rfl
@[simp] theorem State.modThread_accmem : (s.modThread k f).accmem = s.accmem := rfl
@[simp] theorem State.modThread_poison : (s.modThread k f).poison = s.poison := rfl
@[simp] theorem State.modThread_ecc : (s.modThread k f).ecc = s.ecc := rfl
@[simp] theorem State.modThread_pkg : (s.modThread k f).pkg = s.pkg := rfl
@[simp] theorem State.modThread_wgs : (s.modThread k f).wgs = s.wgs := rfl
@[simp] theorem State.modThread_groups : (s.modThread k f).groups = s.groups := rfl
@[simp] theorem State.modThread_bins : (s.modThread k f).bins = s.bins := rfl
@[simp] theorem State.modThread_overflow : (s.modThread k f).overflow = s.overflow := rfl
@[simp] theorem State.modThread_cur : (s.modThread k f).cur = s.cur := rfl
@[simp] theorem State.modThread_cores : (s.modThread k f).cores = s.cores := rfl
@[simp] theorem State.modThread_ops : (s.modThread k f).ops = s.ops := rfl
@[simp] theorem State.modThread_claims : (s.modThread k f).claims = s.claims := rfl
@[simp] theorem State.modThread_grows : (s.modThread k f).grows = s.grows := rfl
@[simp] theorem State.modThread_bars : (s.modThread k f).bars = s.bars := rfl
@[simp] theorem State.modThread_colls : (s.modThread k f).colls = s.colls := rfl
@[simp] theorem State.modThread_collRx : (s.modThread k f).collRx = s.collRx := rfl
@[simp] theorem State.modThread_dieCyc : (s.modThread k f).dieCyc = s.dieCyc := rfl
@[simp] theorem State.modThread_pools : (s.modThread k f).pools = s.pools := rfl
@[simp] theorem State.modThread_frames : (s.modThread k f).frames = s.frames := rfl
@[simp] theorem State.modThread_held : (s.modThread k f).held = s.held := rfl
@[simp] theorem State.modThread_queue : (s.modThread k f).queue = s.queue := rfl
@[simp] theorem State.modThread_replicas : (s.modThread k f).replicas = s.replicas := rfl
@[simp] theorem State.modThread_images : (s.modThread k f).images = s.images := rfl
@[simp] theorem State.modThread_tlb : (s.modThread k f).tlb = s.tlb := rfl
@[simp] theorem State.modThread_bounds : (s.modThread k f).bounds = s.bounds := rfl
@[simp] theorem State.modThread_joins : (s.modThread k f).joins = s.joins := rfl
@[simp] theorem State.modThread_kloads : (s.modThread k f).kloads = s.kloads := rfl
@[simp] theorem State.modThread_ctxs : (s.modThread k f).ctxs = s.ctxs := rfl
@[simp] theorem State.modThread_graphs : (s.modThread k f).graphs = s.graphs := rfl
@[simp] theorem State.modThread_verts : (s.modThread k f).verts = s.verts := rfl
@[simp] theorem State.modThread_edges : (s.modThread k f).edges = s.edges := rfl
@[simp] theorem State.modThread_issued : (s.modThread k f).issued = s.issued := rfl
@[simp] theorem State.modThread_vfs : (s.modThread k f).vfs = s.vfs := rfl
@[simp] theorem State.modThread_launches : (s.modThread k f).launches = s.launches := rfl
@[simp] theorem State.modThread_mgmt : (s.modThread k f).mgmt = s.mgmt := rfl
@[simp] theorem State.modThread_links : (s.modThread k f).links = s.links := rfl
@[simp] theorem State.modThread_txns : (s.modThread k f).txns = s.txns := rfl
@[simp] theorem State.modThread_replies : (s.modThread k f).replies = s.replies := rfl
@[simp] theorem State.modThread_conts : (s.modThread k f).conts = s.conts := rfl
@[simp] theorem State.modThread_peeks : (s.modThread k f).peeks = s.peeks := rfl
@[simp] theorem State.modThread_graphq : (s.modThread k f).graphq = s.graphq := rfl
@[simp] theorem State.modThread_flushes : (s.modThread k f).flushes = s.flushes := rfl
@[simp] theorem State.modThread_hostq : (s.modThread k f).hostq = s.hostq := rfl
@[simp] theorem State.modThread_flits : (s.modThread k f).flits = s.flits := rfl
@[simp] theorem State.modThread_out : (s.modThread k f).out = s.out := rfl
@[simp] theorem State.modThread_agenda : (s.modThread k f).agenda = s.agenda := rfl
@[simp] theorem State.modThread_rx : (s.modThread k f).rx = s.rx := rfl
@[simp] theorem State.modThread_fetched : (s.modThread k f).fetched = s.fetched := rfl
@[simp] theorem State.modThread_turn : (s.modThread k f).turn = s.turn := rfl
@[simp] theorem State.modThread_nextDue : (s.modThread k f).nextDue = s.nextDue := rfl
@[simp] theorem State.modThread_fresh : (s.modThread k f).fresh = s.fresh := rfl
@[simp] theorem State.modThread_freeN : (s.modThread k f).freeN = s.freeN := rfl

end modThread

section markOut
variable (s : State) (c : Nat) (k : Key)

@[simp] theorem State.markOut_mem : (s.markOut c k).mem = s.mem := rfl
@[simp] theorem State.markOut_gran : (s.markOut c k).gran = s.gran := rfl
@[simp] theorem State.markOut_bmeta : (s.markOut c k).bmeta = s.bmeta := rfl
@[simp] theorem State.markOut_hostMem : (s.markOut c k).hostMem = s.hostMem := rfl
@[simp] theorem State.markOut_hostMap : (s.markOut c k).hostMap = s.hostMap := rfl
@[simp] theorem State.markOut_wst : (s.markOut c k).wst = s.wst := rfl
@[simp] theorem State.markOut_opmem : (s.markOut c k).opmem = s.opmem := rfl
@[simp] theorem State.markOut_accmem : (s.markOut c k).accmem = s.accmem := rfl
@[simp] theorem State.markOut_poison : (s.markOut c k).poison = s.poison := rfl
@[simp] theorem State.markOut_ecc : (s.markOut c k).ecc = s.ecc := rfl
@[simp] theorem State.markOut_pkg : (s.markOut c k).pkg = s.pkg := rfl
@[simp] theorem State.markOut_threads : (s.markOut c k).threads = s.threads := rfl
@[simp] theorem State.markOut_wgs : (s.markOut c k).wgs = s.wgs := rfl
@[simp] theorem State.markOut_saved : (s.markOut c k).saved = s.saved := rfl
@[simp] theorem State.markOut_groups : (s.markOut c k).groups = s.groups := rfl
@[simp] theorem State.markOut_bins : (s.markOut c k).bins = s.bins := rfl
@[simp] theorem State.markOut_overflow : (s.markOut c k).overflow = s.overflow := rfl
@[simp] theorem State.markOut_cur : (s.markOut c k).cur = s.cur := rfl
@[simp] theorem State.markOut_cores : (s.markOut c k).cores = s.cores := rfl
@[simp] theorem State.markOut_ops : (s.markOut c k).ops = s.ops := rfl
@[simp] theorem State.markOut_claims : (s.markOut c k).claims = s.claims := rfl
@[simp] theorem State.markOut_grows : (s.markOut c k).grows = s.grows := rfl
@[simp] theorem State.markOut_bars : (s.markOut c k).bars = s.bars := rfl
@[simp] theorem State.markOut_colls : (s.markOut c k).colls = s.colls := rfl
@[simp] theorem State.markOut_collRx : (s.markOut c k).collRx = s.collRx := rfl
@[simp] theorem State.markOut_dieCyc : (s.markOut c k).dieCyc = s.dieCyc := rfl
@[simp] theorem State.markOut_pools : (s.markOut c k).pools = s.pools := rfl
@[simp] theorem State.markOut_frames : (s.markOut c k).frames = s.frames := rfl
@[simp] theorem State.markOut_held : (s.markOut c k).held = s.held := rfl
@[simp] theorem State.markOut_replicas : (s.markOut c k).replicas = s.replicas := rfl
@[simp] theorem State.markOut_images : (s.markOut c k).images = s.images := rfl
@[simp] theorem State.markOut_tlb : (s.markOut c k).tlb = s.tlb := rfl
@[simp] theorem State.markOut_bounds : (s.markOut c k).bounds = s.bounds := rfl
@[simp] theorem State.markOut_joins : (s.markOut c k).joins = s.joins := rfl
@[simp] theorem State.markOut_kloads : (s.markOut c k).kloads = s.kloads := rfl
@[simp] theorem State.markOut_ctxs : (s.markOut c k).ctxs = s.ctxs := rfl
@[simp] theorem State.markOut_graphs : (s.markOut c k).graphs = s.graphs := rfl
@[simp] theorem State.markOut_verts : (s.markOut c k).verts = s.verts := rfl
@[simp] theorem State.markOut_edges : (s.markOut c k).edges = s.edges := rfl
@[simp] theorem State.markOut_issued : (s.markOut c k).issued = s.issued := rfl
@[simp] theorem State.markOut_vfs : (s.markOut c k).vfs = s.vfs := rfl
@[simp] theorem State.markOut_launches : (s.markOut c k).launches = s.launches := rfl
@[simp] theorem State.markOut_mgmt : (s.markOut c k).mgmt = s.mgmt := rfl
@[simp] theorem State.markOut_links : (s.markOut c k).links = s.links := rfl
@[simp] theorem State.markOut_txns : (s.markOut c k).txns = s.txns := rfl
@[simp] theorem State.markOut_replies : (s.markOut c k).replies = s.replies := rfl
@[simp] theorem State.markOut_conts : (s.markOut c k).conts = s.conts := rfl
@[simp] theorem State.markOut_peeks : (s.markOut c k).peeks = s.peeks := rfl
@[simp] theorem State.markOut_graphq : (s.markOut c k).graphq = s.graphq := rfl
@[simp] theorem State.markOut_flushes : (s.markOut c k).flushes = s.flushes := rfl
@[simp] theorem State.markOut_hostq : (s.markOut c k).hostq = s.hostq := rfl
@[simp] theorem State.markOut_flits : (s.markOut c k).flits = s.flits := rfl
@[simp] theorem State.markOut_out : (s.markOut c k).out = s.out := rfl
@[simp] theorem State.markOut_agenda : (s.markOut c k).agenda = s.agenda := rfl
@[simp] theorem State.markOut_rx : (s.markOut c k).rx = s.rx := rfl
@[simp] theorem State.markOut_fetched : (s.markOut c k).fetched = s.fetched := rfl
@[simp] theorem State.markOut_turn : (s.markOut c k).turn = s.turn := rfl
@[simp] theorem State.markOut_nextDue : (s.markOut c k).nextDue = s.nextDue := rfl
@[simp] theorem State.markOut_fresh : (s.markOut c k).fresh = s.fresh := rfl
@[simp] theorem State.markOut_freeN : (s.markOut c k).freeN = s.freeN := rfl

end markOut

section tickDie
variable (s : State) (d : Nat)

@[simp] theorem State.tickDie_mem : (s.tickDie d).mem = s.mem := rfl
@[simp] theorem State.tickDie_gran : (s.tickDie d).gran = s.gran := rfl
@[simp] theorem State.tickDie_bmeta : (s.tickDie d).bmeta = s.bmeta := rfl
@[simp] theorem State.tickDie_hostMem : (s.tickDie d).hostMem = s.hostMem := rfl
@[simp] theorem State.tickDie_hostMap : (s.tickDie d).hostMap = s.hostMap := rfl
@[simp] theorem State.tickDie_wst : (s.tickDie d).wst = s.wst := rfl
@[simp] theorem State.tickDie_opmem : (s.tickDie d).opmem = s.opmem := rfl
@[simp] theorem State.tickDie_accmem : (s.tickDie d).accmem = s.accmem := rfl
@[simp] theorem State.tickDie_poison : (s.tickDie d).poison = s.poison := rfl
@[simp] theorem State.tickDie_ecc : (s.tickDie d).ecc = s.ecc := rfl
@[simp] theorem State.tickDie_pkg : (s.tickDie d).pkg = s.pkg := rfl
@[simp] theorem State.tickDie_threads : (s.tickDie d).threads = s.threads := rfl
@[simp] theorem State.tickDie_wgs : (s.tickDie d).wgs = s.wgs := rfl
@[simp] theorem State.tickDie_saved : (s.tickDie d).saved = s.saved := rfl
@[simp] theorem State.tickDie_groups : (s.tickDie d).groups = s.groups := rfl
@[simp] theorem State.tickDie_bins : (s.tickDie d).bins = s.bins := rfl
@[simp] theorem State.tickDie_overflow : (s.tickDie d).overflow = s.overflow := rfl
@[simp] theorem State.tickDie_cur : (s.tickDie d).cur = s.cur := rfl
@[simp] theorem State.tickDie_cores : (s.tickDie d).cores = s.cores := rfl
@[simp] theorem State.tickDie_ops : (s.tickDie d).ops = s.ops := rfl
@[simp] theorem State.tickDie_claims : (s.tickDie d).claims = s.claims := rfl
@[simp] theorem State.tickDie_grows : (s.tickDie d).grows = s.grows := rfl
@[simp] theorem State.tickDie_bars : (s.tickDie d).bars = s.bars := rfl
@[simp] theorem State.tickDie_colls : (s.tickDie d).colls = s.colls := rfl
@[simp] theorem State.tickDie_collRx : (s.tickDie d).collRx = s.collRx := rfl
@[simp] theorem State.tickDie_pools : (s.tickDie d).pools = s.pools := rfl
@[simp] theorem State.tickDie_frames : (s.tickDie d).frames = s.frames := rfl
@[simp] theorem State.tickDie_held : (s.tickDie d).held = s.held := rfl
@[simp] theorem State.tickDie_queue : (s.tickDie d).queue = s.queue := rfl
@[simp] theorem State.tickDie_replicas : (s.tickDie d).replicas = s.replicas := rfl
@[simp] theorem State.tickDie_images : (s.tickDie d).images = s.images := rfl
@[simp] theorem State.tickDie_tlb : (s.tickDie d).tlb = s.tlb := rfl
@[simp] theorem State.tickDie_bounds : (s.tickDie d).bounds = s.bounds := rfl
@[simp] theorem State.tickDie_joins : (s.tickDie d).joins = s.joins := rfl
@[simp] theorem State.tickDie_kloads : (s.tickDie d).kloads = s.kloads := rfl
@[simp] theorem State.tickDie_ctxs : (s.tickDie d).ctxs = s.ctxs := rfl
@[simp] theorem State.tickDie_graphs : (s.tickDie d).graphs = s.graphs := rfl
@[simp] theorem State.tickDie_verts : (s.tickDie d).verts = s.verts := rfl
@[simp] theorem State.tickDie_edges : (s.tickDie d).edges = s.edges := rfl
@[simp] theorem State.tickDie_issued : (s.tickDie d).issued = s.issued := rfl
@[simp] theorem State.tickDie_vfs : (s.tickDie d).vfs = s.vfs := rfl
@[simp] theorem State.tickDie_launches : (s.tickDie d).launches = s.launches := rfl
@[simp] theorem State.tickDie_mgmt : (s.tickDie d).mgmt = s.mgmt := rfl
@[simp] theorem State.tickDie_links : (s.tickDie d).links = s.links := rfl
@[simp] theorem State.tickDie_txns : (s.tickDie d).txns = s.txns := rfl
@[simp] theorem State.tickDie_replies : (s.tickDie d).replies = s.replies := rfl
@[simp] theorem State.tickDie_conts : (s.tickDie d).conts = s.conts := rfl
@[simp] theorem State.tickDie_peeks : (s.tickDie d).peeks = s.peeks := rfl
@[simp] theorem State.tickDie_graphq : (s.tickDie d).graphq = s.graphq := rfl
@[simp] theorem State.tickDie_flushes : (s.tickDie d).flushes = s.flushes := rfl
@[simp] theorem State.tickDie_hostq : (s.tickDie d).hostq = s.hostq := rfl
@[simp] theorem State.tickDie_flits : (s.tickDie d).flits = s.flits := rfl
@[simp] theorem State.tickDie_out : (s.tickDie d).out = s.out := rfl
@[simp] theorem State.tickDie_agenda : (s.tickDie d).agenda = s.agenda := rfl
@[simp] theorem State.tickDie_rx : (s.tickDie d).rx = s.rx := rfl
@[simp] theorem State.tickDie_fetched : (s.tickDie d).fetched = s.fetched := rfl
@[simp] theorem State.tickDie_turn : (s.tickDie d).turn = s.turn := rfl
@[simp] theorem State.tickDie_nextDue : (s.tickDie d).nextDue = s.nextDue := rfl
@[simp] theorem State.tickDie_fresh : (s.tickDie d).fresh = s.fresh := rfl

end tickDie

/-! ## Updates of a thread -/

section thread
variable (t : Thread) (n : Nat) (x : Word) (y : Dword) (p : PReg) (b : Bool) (i : Instr)

@[simp] theorem Thread.setReg_wg : (t.setReg n x).wg = t.wg := by unfold Thread.setReg; split <;> rfl
@[simp] theorem Thread.setReg_tidx : (t.setReg n x).tidx = t.tidx := by unfold Thread.setReg; split <;> rfl
@[simp] theorem Thread.setReg_pc : (t.setReg n x).pc = t.pc := by unfold Thread.setReg; split <;> rfl
@[simp] theorem Thread.setReg_p : (t.setReg n x).p = t.p := by unfold Thread.setReg; split <;> rfl
@[simp] theorem Thread.setReg_cur : (t.setReg n x).cur = t.cur := by unfold Thread.setReg; split <;> rfl
@[simp] theorem Thread.setReg_win : (t.setReg n x).win = t.win := by unfold Thread.setReg; split <;> rfl
@[simp] theorem Thread.setReg_stkbase : (t.setReg n x).stkbase = t.stkbase := by unfold Thread.setReg; split <;> rfl
@[simp] theorem Thread.setReg_stklim : (t.setReg n x).stklim = t.stklim := by unfold Thread.setReg; split <;> rfl
@[simp] theorem Thread.setReg_stktop : (t.setReg n x).stktop = t.stktop := by unfold Thread.setReg; split <;> rfl
@[simp] theorem Thread.setReg_trapvec : (t.setReg n x).trapvec = t.trapvec := by unfold Thread.setReg; split <;> rfl
@[simp] theorem Thread.setReg_trapcause : (t.setReg n x).trapcause = t.trapcause := by unfold Thread.setReg; split <;> rfl
@[simp] theorem Thread.setReg_epc : (t.setReg n x).epc = t.epc := by unfold Thread.setReg; split <;> rfl
@[simp] theorem Thread.setReg_srkey0 : (t.setReg n x).srkey0 = t.srkey0 := by unfold Thread.setReg; split <;> rfl
@[simp] theorem Thread.setReg_srkey1 : (t.setReg n x).srkey1 = t.srkey1 := by unfold Thread.setReg; split <;> rfl
@[simp] theorem Thread.setReg_srctr0 : (t.setReg n x).srctr0 = t.srctr0 := by unfold Thread.setReg; split <;> rfl
@[simp] theorem Thread.setReg_srctr1 : (t.setReg n x).srctr1 = t.srctr1 := by unfold Thread.setReg; split <;> rfl
@[simp] theorem Thread.setReg_hnd : (t.setReg n x).hnd = t.hnd := by unfold Thread.setReg; split <;> rfl
@[simp] theorem Thread.setReg_frec : (t.setReg n x).frec = t.frec := by unfold Thread.setReg; split <;> rfl
@[simp] theorem Thread.setReg_tag : (t.setReg n x).tag = t.tag := by unfold Thread.setReg; split <;> rfl
@[simp] theorem Thread.setReg_ftag : (t.setReg n x).ftag = t.ftag := by unfold Thread.setReg; split <;> rfl
@[simp] theorem Thread.setReg_vb : (t.setReg n x).vb = t.vb := by unfold Thread.setReg; split <;> rfl
@[simp] theorem Thread.setReg_vn : (t.setReg n x).vn = t.vn := by unfold Thread.setReg; split <;> rfl
@[simp] theorem Thread.setReg_ub : (t.setReg n x).ub = t.ub := by unfold Thread.setReg; split <;> rfl
@[simp] theorem Thread.setReg_un : (t.setReg n x).un = t.un := by unfold Thread.setReg; split <;> rfl
@[simp] theorem Thread.setReg_hops : (t.setReg n x).hops = t.hops := by unfold Thread.setReg; split <;> rfl
@[simp] theorem Thread.setReg_away : (t.setReg n x).away = t.away := by unfold Thread.setReg; split <;> rfl
@[simp] theorem Thread.setReg_recalled : (t.setReg n x).recalled = t.recalled := by unfold Thread.setReg; split <;> rfl
@[simp] theorem Thread.setReg_status : (t.setReg n x).status = t.status := by unfold Thread.setReg; split <;> rfl
@[simp] theorem Thread.setReg_loads : (t.setReg n x).loads = t.loads := by unfold Thread.setReg; split <;> rfl
@[simp] theorem Thread.setReg_late : (t.setReg n x).late = t.late := by unfold Thread.setReg; split <;> rfl
@[simp] theorem Thread.setReg_insn : (t.setReg n x).insn = t.insn := by unfold Thread.setReg; split <;> rfl
@[simp] theorem Thread.setReg_seen : (t.setReg n x).seen = t.seen := by unfold Thread.setReg; split <;> rfl
@[simp] theorem Thread.setReg_arrived : (t.setReg n x).arrived = t.arrived := by unfold Thread.setReg; split <;> rfl
@[simp] theorem Thread.setReg_took : (t.setReg n x).took = t.took := by unfold Thread.setReg; split <;> rfl
@[simp] theorem Thread.setReg_pend : (t.setReg n x).pend = t.pend := by unfold Thread.setReg; split <;> rfl
@[simp] theorem Thread.setReg_dbg : (t.setReg n x).dbg = t.dbg := by unfold Thread.setReg; split <;> rfl
@[simp] theorem Thread.setPair_wg : (t.setPair n y).wg = t.wg := by simp [Thread.setPair]
@[simp] theorem Thread.setPair_tidx : (t.setPair n y).tidx = t.tidx := by simp [Thread.setPair]
@[simp] theorem Thread.setPair_pc : (t.setPair n y).pc = t.pc := by simp [Thread.setPair]
@[simp] theorem Thread.setPair_p : (t.setPair n y).p = t.p := by simp [Thread.setPair]
@[simp] theorem Thread.setPair_cur : (t.setPair n y).cur = t.cur := by simp [Thread.setPair]
@[simp] theorem Thread.setPair_win : (t.setPair n y).win = t.win := by simp [Thread.setPair]
@[simp] theorem Thread.setPair_stkbase : (t.setPair n y).stkbase = t.stkbase := by simp [Thread.setPair]
@[simp] theorem Thread.setPair_stklim : (t.setPair n y).stklim = t.stklim := by simp [Thread.setPair]
@[simp] theorem Thread.setPair_stktop : (t.setPair n y).stktop = t.stktop := by simp [Thread.setPair]
@[simp] theorem Thread.setPair_trapvec : (t.setPair n y).trapvec = t.trapvec := by simp [Thread.setPair]
@[simp] theorem Thread.setPair_trapcause : (t.setPair n y).trapcause = t.trapcause := by simp [Thread.setPair]
@[simp] theorem Thread.setPair_epc : (t.setPair n y).epc = t.epc := by simp [Thread.setPair]
@[simp] theorem Thread.setPair_srkey0 : (t.setPair n y).srkey0 = t.srkey0 := by simp [Thread.setPair]
@[simp] theorem Thread.setPair_srkey1 : (t.setPair n y).srkey1 = t.srkey1 := by simp [Thread.setPair]
@[simp] theorem Thread.setPair_srctr0 : (t.setPair n y).srctr0 = t.srctr0 := by simp [Thread.setPair]
@[simp] theorem Thread.setPair_srctr1 : (t.setPair n y).srctr1 = t.srctr1 := by simp [Thread.setPair]
@[simp] theorem Thread.setPair_hnd : (t.setPair n y).hnd = t.hnd := by simp [Thread.setPair]
@[simp] theorem Thread.setPair_frec : (t.setPair n y).frec = t.frec := by simp [Thread.setPair]
@[simp] theorem Thread.setPair_tag : (t.setPair n y).tag = t.tag := by simp [Thread.setPair]
@[simp] theorem Thread.setPair_ftag : (t.setPair n y).ftag = t.ftag := by simp [Thread.setPair]
@[simp] theorem Thread.setPair_vb : (t.setPair n y).vb = t.vb := by simp [Thread.setPair]
@[simp] theorem Thread.setPair_vn : (t.setPair n y).vn = t.vn := by simp [Thread.setPair]
@[simp] theorem Thread.setPair_ub : (t.setPair n y).ub = t.ub := by simp [Thread.setPair]
@[simp] theorem Thread.setPair_un : (t.setPair n y).un = t.un := by simp [Thread.setPair]
@[simp] theorem Thread.setPair_hops : (t.setPair n y).hops = t.hops := by simp [Thread.setPair]
@[simp] theorem Thread.setPair_away : (t.setPair n y).away = t.away := by simp [Thread.setPair]
@[simp] theorem Thread.setPair_recalled : (t.setPair n y).recalled = t.recalled := by simp [Thread.setPair]
@[simp] theorem Thread.setPair_status : (t.setPair n y).status = t.status := by simp [Thread.setPair]
@[simp] theorem Thread.setPair_loads : (t.setPair n y).loads = t.loads := by simp [Thread.setPair]
@[simp] theorem Thread.setPair_late : (t.setPair n y).late = t.late := by simp [Thread.setPair]
@[simp] theorem Thread.setPair_insn : (t.setPair n y).insn = t.insn := by simp [Thread.setPair]
@[simp] theorem Thread.setPair_seen : (t.setPair n y).seen = t.seen := by simp [Thread.setPair]
@[simp] theorem Thread.setPair_arrived : (t.setPair n y).arrived = t.arrived := by simp [Thread.setPair]
@[simp] theorem Thread.setPair_took : (t.setPair n y).took = t.took := by simp [Thread.setPair]
@[simp] theorem Thread.setPair_pend : (t.setPair n y).pend = t.pend := by simp [Thread.setPair]
@[simp] theorem Thread.setPair_dbg : (t.setPair n y).dbg = t.dbg := by simp [Thread.setPair]
@[simp] theorem Thread.setRegs_wg (l : List Word) : (t.setRegs n l).wg = t.wg := by
  induction l generalizing t n with
  | nil => rfl
  | cons a r ih => simp [Thread.setRegs, ih]
@[simp] theorem Thread.setRegs_tidx (l : List Word) : (t.setRegs n l).tidx = t.tidx := by
  induction l generalizing t n with
  | nil => rfl
  | cons a r ih => simp [Thread.setRegs, ih]
@[simp] theorem Thread.setRegs_pc (l : List Word) : (t.setRegs n l).pc = t.pc := by
  induction l generalizing t n with
  | nil => rfl
  | cons a r ih => simp [Thread.setRegs, ih]
@[simp] theorem Thread.setRegs_p (l : List Word) : (t.setRegs n l).p = t.p := by
  induction l generalizing t n with
  | nil => rfl
  | cons a r ih => simp [Thread.setRegs, ih]
@[simp] theorem Thread.setRegs_cur (l : List Word) : (t.setRegs n l).cur = t.cur := by
  induction l generalizing t n with
  | nil => rfl
  | cons a r ih => simp [Thread.setRegs, ih]
@[simp] theorem Thread.setRegs_win (l : List Word) : (t.setRegs n l).win = t.win := by
  induction l generalizing t n with
  | nil => rfl
  | cons a r ih => simp [Thread.setRegs, ih]
@[simp] theorem Thread.setRegs_stkbase (l : List Word) : (t.setRegs n l).stkbase = t.stkbase := by
  induction l generalizing t n with
  | nil => rfl
  | cons a r ih => simp [Thread.setRegs, ih]
@[simp] theorem Thread.setRegs_stklim (l : List Word) : (t.setRegs n l).stklim = t.stklim := by
  induction l generalizing t n with
  | nil => rfl
  | cons a r ih => simp [Thread.setRegs, ih]
@[simp] theorem Thread.setRegs_stktop (l : List Word) : (t.setRegs n l).stktop = t.stktop := by
  induction l generalizing t n with
  | nil => rfl
  | cons a r ih => simp [Thread.setRegs, ih]
@[simp] theorem Thread.setRegs_trapvec (l : List Word) : (t.setRegs n l).trapvec = t.trapvec := by
  induction l generalizing t n with
  | nil => rfl
  | cons a r ih => simp [Thread.setRegs, ih]
@[simp] theorem Thread.setRegs_trapcause (l : List Word) : (t.setRegs n l).trapcause = t.trapcause := by
  induction l generalizing t n with
  | nil => rfl
  | cons a r ih => simp [Thread.setRegs, ih]
@[simp] theorem Thread.setRegs_epc (l : List Word) : (t.setRegs n l).epc = t.epc := by
  induction l generalizing t n with
  | nil => rfl
  | cons a r ih => simp [Thread.setRegs, ih]
@[simp] theorem Thread.setRegs_srkey0 (l : List Word) : (t.setRegs n l).srkey0 = t.srkey0 := by
  induction l generalizing t n with
  | nil => rfl
  | cons a r ih => simp [Thread.setRegs, ih]
@[simp] theorem Thread.setRegs_srkey1 (l : List Word) : (t.setRegs n l).srkey1 = t.srkey1 := by
  induction l generalizing t n with
  | nil => rfl
  | cons a r ih => simp [Thread.setRegs, ih]
@[simp] theorem Thread.setRegs_srctr0 (l : List Word) : (t.setRegs n l).srctr0 = t.srctr0 := by
  induction l generalizing t n with
  | nil => rfl
  | cons a r ih => simp [Thread.setRegs, ih]
@[simp] theorem Thread.setRegs_srctr1 (l : List Word) : (t.setRegs n l).srctr1 = t.srctr1 := by
  induction l generalizing t n with
  | nil => rfl
  | cons a r ih => simp [Thread.setRegs, ih]
@[simp] theorem Thread.setRegs_hnd (l : List Word) : (t.setRegs n l).hnd = t.hnd := by
  induction l generalizing t n with
  | nil => rfl
  | cons a r ih => simp [Thread.setRegs, ih]
@[simp] theorem Thread.setRegs_frec (l : List Word) : (t.setRegs n l).frec = t.frec := by
  induction l generalizing t n with
  | nil => rfl
  | cons a r ih => simp [Thread.setRegs, ih]
@[simp] theorem Thread.setRegs_tag (l : List Word) : (t.setRegs n l).tag = t.tag := by
  induction l generalizing t n with
  | nil => rfl
  | cons a r ih => simp [Thread.setRegs, ih]
@[simp] theorem Thread.setRegs_ftag (l : List Word) : (t.setRegs n l).ftag = t.ftag := by
  induction l generalizing t n with
  | nil => rfl
  | cons a r ih => simp [Thread.setRegs, ih]
@[simp] theorem Thread.setRegs_vb (l : List Word) : (t.setRegs n l).vb = t.vb := by
  induction l generalizing t n with
  | nil => rfl
  | cons a r ih => simp [Thread.setRegs, ih]
@[simp] theorem Thread.setRegs_vn (l : List Word) : (t.setRegs n l).vn = t.vn := by
  induction l generalizing t n with
  | nil => rfl
  | cons a r ih => simp [Thread.setRegs, ih]
@[simp] theorem Thread.setRegs_ub (l : List Word) : (t.setRegs n l).ub = t.ub := by
  induction l generalizing t n with
  | nil => rfl
  | cons a r ih => simp [Thread.setRegs, ih]
@[simp] theorem Thread.setRegs_un (l : List Word) : (t.setRegs n l).un = t.un := by
  induction l generalizing t n with
  | nil => rfl
  | cons a r ih => simp [Thread.setRegs, ih]
@[simp] theorem Thread.setRegs_hops (l : List Word) : (t.setRegs n l).hops = t.hops := by
  induction l generalizing t n with
  | nil => rfl
  | cons a r ih => simp [Thread.setRegs, ih]
@[simp] theorem Thread.setRegs_away (l : List Word) : (t.setRegs n l).away = t.away := by
  induction l generalizing t n with
  | nil => rfl
  | cons a r ih => simp [Thread.setRegs, ih]
@[simp] theorem Thread.setRegs_recalled (l : List Word) : (t.setRegs n l).recalled = t.recalled := by
  induction l generalizing t n with
  | nil => rfl
  | cons a r ih => simp [Thread.setRegs, ih]
@[simp] theorem Thread.setRegs_status (l : List Word) : (t.setRegs n l).status = t.status := by
  induction l generalizing t n with
  | nil => rfl
  | cons a r ih => simp [Thread.setRegs, ih]
@[simp] theorem Thread.setRegs_loads (l : List Word) : (t.setRegs n l).loads = t.loads := by
  induction l generalizing t n with
  | nil => rfl
  | cons a r ih => simp [Thread.setRegs, ih]
@[simp] theorem Thread.setRegs_late (l : List Word) : (t.setRegs n l).late = t.late := by
  induction l generalizing t n with
  | nil => rfl
  | cons a r ih => simp [Thread.setRegs, ih]
@[simp] theorem Thread.setRegs_insn (l : List Word) : (t.setRegs n l).insn = t.insn := by
  induction l generalizing t n with
  | nil => rfl
  | cons a r ih => simp [Thread.setRegs, ih]
@[simp] theorem Thread.setRegs_seen (l : List Word) : (t.setRegs n l).seen = t.seen := by
  induction l generalizing t n with
  | nil => rfl
  | cons a r ih => simp [Thread.setRegs, ih]
@[simp] theorem Thread.setRegs_arrived (l : List Word) : (t.setRegs n l).arrived = t.arrived := by
  induction l generalizing t n with
  | nil => rfl
  | cons a r ih => simp [Thread.setRegs, ih]
@[simp] theorem Thread.setRegs_took (l : List Word) : (t.setRegs n l).took = t.took := by
  induction l generalizing t n with
  | nil => rfl
  | cons a r ih => simp [Thread.setRegs, ih]
@[simp] theorem Thread.setRegs_pend (l : List Word) : (t.setRegs n l).pend = t.pend := by
  induction l generalizing t n with
  | nil => rfl
  | cons a r ih => simp [Thread.setRegs, ih]
@[simp] theorem Thread.setRegs_dbg (l : List Word) : (t.setRegs n l).dbg = t.dbg := by
  induction l generalizing t n with
  | nil => rfl
  | cons a r ih => simp [Thread.setRegs, ih]
@[simp] theorem Thread.setPred_wg : (t.setPred p b).wg = t.wg := by unfold Thread.setPred; split <;> rfl
@[simp] theorem Thread.setPred_tidx : (t.setPred p b).tidx = t.tidx := by unfold Thread.setPred; split <;> rfl
@[simp] theorem Thread.setPred_pc : (t.setPred p b).pc = t.pc := by unfold Thread.setPred; split <;> rfl
@[simp] theorem Thread.setPred_v : (t.setPred p b).v = t.v := by unfold Thread.setPred; split <;> rfl
@[simp] theorem Thread.setPred_cur : (t.setPred p b).cur = t.cur := by unfold Thread.setPred; split <;> rfl
@[simp] theorem Thread.setPred_win : (t.setPred p b).win = t.win := by unfold Thread.setPred; split <;> rfl
@[simp] theorem Thread.setPred_stkbase : (t.setPred p b).stkbase = t.stkbase := by unfold Thread.setPred; split <;> rfl
@[simp] theorem Thread.setPred_stklim : (t.setPred p b).stklim = t.stklim := by unfold Thread.setPred; split <;> rfl
@[simp] theorem Thread.setPred_stktop : (t.setPred p b).stktop = t.stktop := by unfold Thread.setPred; split <;> rfl
@[simp] theorem Thread.setPred_trapvec : (t.setPred p b).trapvec = t.trapvec := by unfold Thread.setPred; split <;> rfl
@[simp] theorem Thread.setPred_trapcause : (t.setPred p b).trapcause = t.trapcause := by unfold Thread.setPred; split <;> rfl
@[simp] theorem Thread.setPred_epc : (t.setPred p b).epc = t.epc := by unfold Thread.setPred; split <;> rfl
@[simp] theorem Thread.setPred_srkey0 : (t.setPred p b).srkey0 = t.srkey0 := by unfold Thread.setPred; split <;> rfl
@[simp] theorem Thread.setPred_srkey1 : (t.setPred p b).srkey1 = t.srkey1 := by unfold Thread.setPred; split <;> rfl
@[simp] theorem Thread.setPred_srctr0 : (t.setPred p b).srctr0 = t.srctr0 := by unfold Thread.setPred; split <;> rfl
@[simp] theorem Thread.setPred_srctr1 : (t.setPred p b).srctr1 = t.srctr1 := by unfold Thread.setPred; split <;> rfl
@[simp] theorem Thread.setPred_hnd : (t.setPred p b).hnd = t.hnd := by unfold Thread.setPred; split <;> rfl
@[simp] theorem Thread.setPred_frec : (t.setPred p b).frec = t.frec := by unfold Thread.setPred; split <;> rfl
@[simp] theorem Thread.setPred_tag : (t.setPred p b).tag = t.tag := by unfold Thread.setPred; split <;> rfl
@[simp] theorem Thread.setPred_ftag : (t.setPred p b).ftag = t.ftag := by unfold Thread.setPred; split <;> rfl
@[simp] theorem Thread.setPred_vb : (t.setPred p b).vb = t.vb := by unfold Thread.setPred; split <;> rfl
@[simp] theorem Thread.setPred_vn : (t.setPred p b).vn = t.vn := by unfold Thread.setPred; split <;> rfl
@[simp] theorem Thread.setPred_ub : (t.setPred p b).ub = t.ub := by unfold Thread.setPred; split <;> rfl
@[simp] theorem Thread.setPred_un : (t.setPred p b).un = t.un := by unfold Thread.setPred; split <;> rfl
@[simp] theorem Thread.setPred_hops : (t.setPred p b).hops = t.hops := by unfold Thread.setPred; split <;> rfl
@[simp] theorem Thread.setPred_away : (t.setPred p b).away = t.away := by unfold Thread.setPred; split <;> rfl
@[simp] theorem Thread.setPred_recalled : (t.setPred p b).recalled = t.recalled := by unfold Thread.setPred; split <;> rfl
@[simp] theorem Thread.setPred_status : (t.setPred p b).status = t.status := by unfold Thread.setPred; split <;> rfl
@[simp] theorem Thread.setPred_loads : (t.setPred p b).loads = t.loads := by unfold Thread.setPred; split <;> rfl
@[simp] theorem Thread.setPred_late : (t.setPred p b).late = t.late := by unfold Thread.setPred; split <;> rfl
@[simp] theorem Thread.setPred_insn : (t.setPred p b).insn = t.insn := by unfold Thread.setPred; split <;> rfl
@[simp] theorem Thread.setPred_seen : (t.setPred p b).seen = t.seen := by unfold Thread.setPred; split <;> rfl
@[simp] theorem Thread.setPred_arrived : (t.setPred p b).arrived = t.arrived := by unfold Thread.setPred; split <;> rfl
@[simp] theorem Thread.setPred_took : (t.setPred p b).took = t.took := by unfold Thread.setPred; split <;> rfl
@[simp] theorem Thread.setPred_pend : (t.setPred p b).pend = t.pend := by unfold Thread.setPred; split <;> rfl
@[simp] theorem Thread.setPred_dbg : (t.setPred p b).dbg = t.dbg := by unfold Thread.setPred; split <;> rfl
@[simp] theorem Thread.onward_wg : (t.onward i).wg = t.wg := rfl
@[simp] theorem Thread.onward_tidx : (t.onward i).tidx = t.tidx := rfl
@[simp] theorem Thread.onward_v : (t.onward i).v = t.v := rfl
@[simp] theorem Thread.onward_p : (t.onward i).p = t.p := rfl
@[simp] theorem Thread.onward_cur : (t.onward i).cur = t.cur := rfl
@[simp] theorem Thread.onward_win : (t.onward i).win = t.win := rfl
@[simp] theorem Thread.onward_stkbase : (t.onward i).stkbase = t.stkbase := rfl
@[simp] theorem Thread.onward_stklim : (t.onward i).stklim = t.stklim := rfl
@[simp] theorem Thread.onward_stktop : (t.onward i).stktop = t.stktop := rfl
@[simp] theorem Thread.onward_trapvec : (t.onward i).trapvec = t.trapvec := rfl
@[simp] theorem Thread.onward_trapcause : (t.onward i).trapcause = t.trapcause := rfl
@[simp] theorem Thread.onward_epc : (t.onward i).epc = t.epc := rfl
@[simp] theorem Thread.onward_srkey0 : (t.onward i).srkey0 = t.srkey0 := rfl
@[simp] theorem Thread.onward_srkey1 : (t.onward i).srkey1 = t.srkey1 := rfl
@[simp] theorem Thread.onward_srctr0 : (t.onward i).srctr0 = t.srctr0 := rfl
@[simp] theorem Thread.onward_srctr1 : (t.onward i).srctr1 = t.srctr1 := rfl
@[simp] theorem Thread.onward_hnd : (t.onward i).hnd = t.hnd := rfl
@[simp] theorem Thread.onward_frec : (t.onward i).frec = t.frec := rfl
@[simp] theorem Thread.onward_tag : (t.onward i).tag = t.tag := rfl
@[simp] theorem Thread.onward_ftag : (t.onward i).ftag = t.ftag := rfl
@[simp] theorem Thread.onward_vb : (t.onward i).vb = t.vb := rfl
@[simp] theorem Thread.onward_vn : (t.onward i).vn = t.vn := rfl
@[simp] theorem Thread.onward_ub : (t.onward i).ub = t.ub := rfl
@[simp] theorem Thread.onward_un : (t.onward i).un = t.un := rfl
@[simp] theorem Thread.onward_hops : (t.onward i).hops = t.hops := rfl
@[simp] theorem Thread.onward_away : (t.onward i).away = t.away := rfl
@[simp] theorem Thread.onward_recalled : (t.onward i).recalled = t.recalled := rfl
@[simp] theorem Thread.onward_status : (t.onward i).status = t.status := rfl
@[simp] theorem Thread.onward_loads : (t.onward i).loads = t.loads := rfl
@[simp] theorem Thread.onward_late : (t.onward i).late = t.late := rfl
@[simp] theorem Thread.onward_insn : (t.onward i).insn = t.insn := rfl
@[simp] theorem Thread.onward_seen : (t.onward i).seen = t.seen := rfl
@[simp] theorem Thread.onward_arrived : (t.onward i).arrived = t.arrived := rfl
@[simp] theorem Thread.onward_took : (t.onward i).took = t.took := rfl
@[simp] theorem Thread.onward_pend : (t.onward i).pend = t.pend := rfl
@[simp] theorem Thread.onward_dbg : (t.onward i).dbg = t.dbg := rfl
@[simp] theorem Thread.onward_pc : (t.onward i).pc = pcAfter t.pc i.words := rfl

end thread

end Sys2Proof.Machine
end

