-- ==== Sys2Proof/Laws/Threads.lean ====
section
/-! SUPPORT. What the lookups of threads and workgroups give after the shared operations. -/

namespace Sys2Proof.Machine

/-! ## Lookups in lists -/

/-- A map that keeps what is looked for commutes with the search. -/
theorem find?_map_of_iff {α : Type} {p : α → Bool} {f : α → α} (l : List α) (h : ∀ x, p (f x) = p x) :
    (l.map f).find? p = (l.find? p).map f := by
  induction l with
  | nil => rfl
  | cons x r ih =>
    simp only [List.map_cons, List.find?_cons, h]
    cases p x <;> simp [ih]

/-- What is found satisfies the search. -/
theorem State.thread_key {s : State} {k : Key} {t : Thread} (h : s.thread k = some t) : t.key = k := by
  have := List.find?_some h
  simpa using this

theorem State.wg_id {s : State} {n : Nat} {w : Workgroup} (h : s.wg n = some w) : w.id = n := by
  have := List.find?_some h
  simpa using this

/-! ## Threads after a put -/

/-- A thread that is put back is found as it was put. -/
theorem State.thread_setThread_same {s : State} {t : Thread} (h : (s.thread t.key).isSome) :
    (s.setThread t).thread t.key = some t := by
  have : (s.setThread t).thread t.key
      = (s.threads.find? (fun u => u.key == t.key)).map (fun u => if u.key == t.key then t else u) := by
    apply find?_map_of_iff (p := fun u : Thread => u.key == t.key)
    intro x
    by_cases hx : x.key == t.key <;> simp_all
  rw [this]
  obtain ⟨u, hu⟩ := Option.isSome_iff_exists.mp h
  have hk := State.thread_key hu
  have hu' : s.threads.find? (fun u => u.key == t.key) = some u := hu
  simp [hu', hk]

/-- Putting one thread back leaves every other. -/
theorem State.thread_setThread_other {s : State} {t : Thread} {k : Key} (h : k ≠ t.key) :
    (s.setThread t).thread k = s.thread k := by
  have : (s.setThread t).thread k
      = (s.threads.find? (fun u => u.key == k)).map (fun u => if u.key == t.key then t else u) := by
    apply find?_map_of_iff (p := fun u : Thread => u.key == k)
    intro x
    by_cases hx : x.key == t.key
    · have hx' : x.key = t.key := by simpa using hx
      simp [hx']
    · simp [hx]
  rw [this]
  cases hu : s.threads.find? (fun u => u.key == k) with
  | none => simp [State.thread, hu]
  | some u =>
    have hk : u.key = k := State.thread_key (s := s) hu
    simp [State.thread, hu, hk, h]

/-- Threads after their statuses become ready. -/
theorem State.thread_formGroup (s : State) (c : Nat) (ks : List Key) (k : Key) :
    (s.formGroup c ks).thread k
      = (s.thread k).map (fun t => if ks.contains k then { t with status := .ready } else t) := by
  unfold State.formGroup
  by_cases he : ks.isEmpty
  · have : ks = [] := by simpa using he
    subst this
    simp [State.thread]
  · simp only [he, Bool.false_eq_true, if_false]
    have : (s.threads.map (fun t => if ks.contains t.key then { t with status := .ready } else t)).find?
        (fun t => t.key == k)
        = (s.threads.find? (fun t => t.key == k)).map
            (fun t => if ks.contains t.key then { t with status := .ready } else t) := by
      apply find?_map_of_iff (p := fun u : Thread => u.key == k)
      intro x
      by_cases hx : ks.contains x.key <;> simp only [hx, if_true] <;> rfl
    show List.find? _ _ = _
    rw [this]
    cases hu : s.threads.find? (fun u => u.key == k) with
    | none => simp [State.thread, hu]
    | some u =>
      have hk : u.key = k := State.thread_key (s := s) hu
      simp [State.thread, hu, hk]

/-! ## What leaves the rest alone -/

theorem State.sameBut_refl (s : State) : s.sameBut s := rfl

theorem State.sameBut.trans {a b c : State} (h : a.sameBut b) (h' : b.sameBut c) : a.sameBut c := by
  unfold State.sameBut at *
  rw [← h, ← h']

theorem State.sameBut_setThread (s : State) (t : Thread) : s.sameBut (s.setThread t) := rfl

theorem State.sameBut_formGroup (s : State) (c : Nat) (ks : List Key) : s.sameBut (s.formGroup c ks) := by
  unfold State.formGroup State.sameBut
  split <;> rfl

/-- Everything but threads, groups and the count is the same. -/
theorem State.sameBut.eq {s s' : State} (h : s.sameBut s') :
    s' = { s with threads := s'.threads, groups := s'.groups, fresh := s'.fresh } := by
  unfold State.sameBut at h
  rw [← h]

theorem State.sameBut.wgs {s s' : State} (h : s.sameBut s') : s'.wgs = s.wgs := by rw [h.eq]
theorem State.sameBut.ctxs {s s' : State} (h : s.sameBut s') : s'.ctxs = s.ctxs := by rw [h.eq]
theorem State.sameBut.joins {s s' : State} (h : s.sameBut s') : s'.joins = s.joins := by rw [h.eq]
theorem State.sameBut.cur {s s' : State} (h : s.sameBut s') : s'.cur = s.cur := by rw [h.eq]
theorem State.sameBut.mem {s s' : State} (h : s.sameBut s') : s'.mem = s.mem := by rw [h.eq]
theorem State.sameBut.pkg {s s' : State} (h : s.sameBut s') : s'.pkg = s.pkg := by rw [h.eq]
theorem State.sameBut.wg {s s' : State} (h : s.sameBut s') (n : Nat) : s'.wg n = s.wg n := by
  unfold State.wg; rw [h.wgs]
theorem State.sameBut.steps {s s' : State} (h : s.sameBut s') (w : Workgroup) : s'.steps w = s.steps w := by
  unfold State.steps State.ctx; rw [h.ctxs]
theorem State.sameBut.coreOf {s s' : State} (h : s.sameBut s') (t : Thread) : s'.coreOf t = s.coreOf t := by
  unfold State.coreOf; cases t.away <;> simp [h.wg]

end Sys2Proof.Machine
end

