-- ==== Sys2Proof/Laws/Group.lean ====
section
/-! SUPPORT. What running an instruction for the threads of a group does, once for all instructions. -/

namespace Sys2Proof.Machine

/-! ## Keys are kept -/

@[simp] theorem Thread.key_setReg (t : Thread) (n : Nat) (x : Word) : (t.setReg n x).key = t.key := by
  unfold Thread.setReg; split <;> rfl

@[simp] theorem Thread.key_setPair (t : Thread) (n : Nat) (x : Dword) : (t.setPair n x).key = t.key := by
  simp [Thread.setPair]

@[simp] theorem Thread.key_setRegs (t : Thread) (n : Nat) (l : List Word) : (t.setRegs n l).key = t.key := by
  induction l generalizing t n with
  | nil => rfl
  | cons x r ih => simp [Thread.setRegs, ih]

@[simp] theorem Thread.key_setPred (t : Thread) (n : PReg) (b : Bool) : (t.setPred n b).key = t.key := by
  unfold Thread.setPred; split <;> rfl

@[simp] theorem zeroDest_key (i : Instr) (w : Workgroup) (t : Thread) : (i.zeroDest w t).key = t.key := by
  unfold Instr.zeroDest
  split
  · rfl
  · have h1 : ∀ (l : List RegRef) (u : Thread), (l.foldl (fun u r =>
        if r.k || !regOk w t true r then u else u.setRegs r.n (List.replicate r.count 0)) u).key = u.key := by
      intro l
      induction l with
      | nil => intro u; rfl
      | cons r l ih => intro u; simp only [List.foldl_cons, ih]; split <;> simp
    have h2 : ∀ (l : List PReg) (u : Thread), (l.foldl (fun u p => u.setPred p false) u).key = u.key := by
      intro l
      induction l with
      | nil => intro u; rfl
      | cons r l ih => intro u; simp [List.foldl_cons, ih]
    simp only [h2, h1]

@[simp] theorem Thread.pc_setReg (t : Thread) (n : Nat) (x : Word) : (t.setReg n x).pc = t.pc := by
  unfold Thread.setReg; split <;> rfl

@[simp] theorem Thread.pc_setRegs (t : Thread) (n : Nat) (l : List Word) : (t.setRegs n l).pc = t.pc := by
  induction l generalizing t n with
  | nil => rfl
  | cons x r ih => simp [Thread.setRegs]

@[simp] theorem Thread.pc_setPred (t : Thread) (n : PReg) (b : Bool) : (t.setPred n b).pc = t.pc := by
  unfold Thread.setPred; split <;> rfl

@[simp] theorem zeroDest_pc (i : Instr) (w : Workgroup) (t : Thread) : (i.zeroDest w t).pc = t.pc := by
  unfold Instr.zeroDest
  split
  · rfl
  · have h1 : ∀ (l : List RegRef) (u : Thread), (l.foldl (fun u r =>
        if r.k || !regOk w t true r then u else u.setRegs r.n (List.replicate r.count 0)) u).pc = u.pc := by
      intro l
      induction l with
      | nil => intro u; rfl
      | cons r l ih => intro u; simp only [List.foldl_cons, ih]; split <;> simp
    have h2 : ∀ (l : List PReg) (u : Thread), (l.foldl (fun u p => u.setPred p false) u).pc = u.pc := by
      intro l
      induction l with
      | nil => intro u; rfl
      | cons r l ih => intro u; simp [List.foldl_cons, ih]
    simp only [h2, h1]

/-! ## Groups by PC -/

theorem mem_insertKey (k x : Key) (l : List Key) : x ∈ insertKey k l ↔ x = k ∨ x ∈ l := by
  induction l with
  | nil => simp [insertKey]
  | cons y r ih =>
    unfold insertKey
    split
    · simp
    · simp only [List.mem_cons, ih]; tauto

theorem mem_sortKeys (x : Key) (l : List Key) : x ∈ sortKeys l ↔ x ∈ l := by
  induction l with
  | nil => simp [sortKeys]
  | cons y r ih =>
    have : sortKeys (y :: r) = insertKey y (sortKeys r) := rfl
    rw [this, mem_insertKey, ih, List.mem_cons]

/-- What the groups by PC are, whatever came before: each holds keys of one PC, and none is empty. -/
structure SplitOk (s : State) (acc : List (List Key)) : Prop where
  nonempty : ∀ g ∈ acc, g ≠ []
  live : ∀ g ∈ acc, ∀ k ∈ g, (s.thread k).isSome
  pc : ∀ g ∈ acc, ∀ j ∈ g, ∀ k ∈ g, (s.thread j).map (·.pc) = (s.thread k).map (·.pc)

theorem splitStep_ok {s : State} {acc : List (List Key)} {k : Key} {t : Thread} (h : SplitOk s acc)
    (ht : s.thread k = some t) :
    SplitOk s (if acc.any (s.goesWith t) then
        acc.map (fun g => if s.goesWith t g then g ++ [k] else g)
      else acc ++ [[k]])
    ∧ (∃ g ∈ (if acc.any (s.goesWith t) then
        acc.map (fun g => if s.goesWith t g then g ++ [k] else g)
      else acc ++ [[k]]), k ∈ g)
    ∧ (∀ x, (∃ g ∈ acc, x ∈ g) → ∃ g ∈ (if acc.any (s.goesWith t) then
        acc.map (fun g => if s.goesWith t g then g ++ [k] else g)
      else acc ++ [[k]]), x ∈ g) := by
  -- a group whose head has this PC has it throughout
  have key : ∀ g ∈ acc, s.goesWith t g = true →
      ∀ j ∈ g, (s.thread j).map (·.pc) = some t.pc := by
    intro g hg hh j hj
    cases g with
    | nil => simp at hj
    | cons a r =>
      have ha : (s.thread a).map (·.pc) = some t.pc := by
        simp only [State.goesWith, List.head?_cons, Option.bind_some] at hh
        cases hs : s.thread a with
        | none => simp [hs] at hh
        | some u => simp only [hs, Option.any_some, Bool.and_eq_true, beq_iff_eq] at hh; simp [hh.1]
      rw [h.pc _ hg j hj a (by simp), ha]
  by_cases hany : acc.any (s.goesWith t) = true
  · simp only [hany, if_true]
    refine ⟨⟨?_, ?_, ?_⟩, ?_, ?_⟩
    · intro g hg
      obtain ⟨g0, hg0, rfl⟩ := List.mem_map.mp hg
      split
      · simp
      · exact h.nonempty g0 hg0
    · intro g hg x hx
      obtain ⟨g0, hg0, rfl⟩ := List.mem_map.mp hg
      split at hx
      · rcases List.mem_append.mp hx with hx | hx
        · exact h.live g0 hg0 x hx
        · simp only [List.mem_singleton] at hx; simp [hx, ht]
      · exact h.live g0 hg0 x hx
    · intro g hg
      obtain ⟨g0, hg0, rfl⟩ := List.mem_map.mp hg
      split
      · rename_i hh
        have hall : ∀ x ∈ g0 ++ [k], (s.thread x).map (·.pc) = some t.pc := by
          intro x hx
          rcases List.mem_append.mp hx with hx | hx
          · exact key g0 hg0 hh x hx
          · simp only [List.mem_singleton] at hx; simp [hx, ht]
        intro j hj x hx
        rw [hall j hj, hall x hx]
      · exact h.pc g0 hg0
    · obtain ⟨g, hg, hh⟩ := List.any_eq_true.mp hany
      exact ⟨g ++ [k], List.mem_map.mpr ⟨g, hg, by simp [hh]⟩, by simp⟩
    · rintro x ⟨g, hg, hx⟩
      refine ⟨_, List.mem_map.mpr ⟨g, hg, rfl⟩, ?_⟩
      split
      · exact List.mem_append_left _ hx
      · exact hx
  · simp only [hany]
    refine ⟨⟨?_, ?_, ?_⟩, ⟨[k], by simp, by simp⟩, ?_⟩
    · intro g hg
      rcases List.mem_append.mp hg with hg | hg
      · exact h.nonempty g hg
      · simp only [List.mem_singleton] at hg; simp [hg]
    · intro g hg x hx
      rcases List.mem_append.mp hg with hg | hg
      · exact h.live g hg x hx
      · simp only [List.mem_singleton] at hg; subst hg
        simp only [List.mem_singleton] at hx; simp [hx, ht]
    · intro g hg
      rcases List.mem_append.mp hg with hg | hg
      · exact h.pc g hg
      · simp only [List.mem_singleton] at hg; subst hg
        simp
    · rintro x ⟨g, hg, hx⟩
      exact ⟨g, List.mem_append_left _ hg, hx⟩

/-- Every live key falls in one of the groups by PC, and threads of one group share their PC (R40). -/
theorem State.splitByPc_ok (s : State) (keys : List Key) (hlive : ∀ k ∈ keys, (s.thread k).isSome) :
    SplitOk s (s.splitByPc keys) ∧ ∀ k ∈ keys, ∃ g ∈ s.splitByPc keys, k ∈ g := by
  have main : ∀ (l : List Key) (acc : List (List Key)), (∀ k ∈ l, (s.thread k).isSome) → SplitOk s acc →
      SplitOk s (l.foldl (fun acc k =>
        match s.thread k with
        | none => acc
        | some t =>
          if acc.any (s.goesWith t) then
            acc.map (fun g => if s.goesWith t g then g ++ [k] else g)
          else acc ++ [[k]]) acc)
      ∧ ∀ x, (x ∈ l ∨ ∃ g ∈ acc, x ∈ g) → ∃ g ∈ (l.foldl (fun acc k =>
        match s.thread k with
        | none => acc
        | some t =>
          if acc.any (s.goesWith t) then
            acc.map (fun g => if s.goesWith t g then g ++ [k] else g)
          else acc ++ [[k]]) acc), x ∈ g := by
    intro l
    induction l with
    | nil => intro acc _ h; exact ⟨h, fun x hx => by simpa using hx⟩
    | cons k r ih =>
      intro acc hl h
      obtain ⟨t, ht⟩ := Option.isSome_iff_exists.mp (hl k (by simp))
      obtain ⟨h1, h2, h3⟩ := splitStep_ok h ht
      have := ih _ (fun x hx => hl x (by simp [hx])) h1
      simp only [List.foldl_cons, ht]
      refine ⟨this.1, fun x hx => this.2 x ?_⟩
      rcases hx with hx | hx
      · rcases List.mem_cons.mp hx with rfl | hx
        · exact Or.inr h2
        · exact Or.inl hx
      · exact Or.inr (h3 x hx)
  have := main keys [] hlive ⟨by simp, by simp, by simp⟩
  exact ⟨this.1, fun k hk => this.2 k (Or.inl hk)⟩

/-! ## Several groups become ready -/

/-- Threads once they have left the branch that they took behind. -/
theorem State.thread_untake (s : State) (ks : List Key) (k : Key) :
    (s.untake ks).thread k = (s.thread k).map (fun t => if ks.contains k then { t with took := false } else t) := by
  have h : (s.threads.map (fun t => if ks.contains t.key then { t with took := false } else t)).find? (fun t => t.key == k)
      = (s.threads.find? (fun t => t.key == k)).map (fun t => if ks.contains t.key then { t with took := false } else t) := by
    apply find?_map_of_iff (p := fun u : Thread => u.key == k)
    intro x
    by_cases hx : ks.contains x.key <;> simp only [hx, if_true] <;> rfl
  unfold State.thread State.untake
  simp only
  rw [h]
  cases hu : s.threads.find? (fun u => u.key == k) with
  | none => rfl
  | some u =>
    have hk : u.key = k := State.thread_key (s := s) hu
    simp [hk]

theorem State.sameBut_untake (s : State) (ks : List Key) : s.sameBut (s.untake ks) := rfl

/-- The one thread of a group, put back, has left the branch behind. -/
theorem State.setThread_untake (s : State) (t : Thread) :
    (s.setThread t).untake [t.key] = s.setThread { t with took := false } := by
  unfold State.untake State.setThread
  simp only [List.map_map]
  congr 2
  funext u
  have hk : ({ t with took := false } : Thread).key = t.key := rfl
  rw [hk]
  cases h : (u.key == t.key)
  · have hc : ([t.key].contains u.key) = false := by simpa using h
    simp only [Function.comp, h, Bool.false_eq_true, if_false, hc]
  · simp only [Function.comp, h, if_true, List.contains_cons, beq_self_eq_true, Bool.true_or]

/-- No thread leaves a branch behind where none goes on. -/
@[simp] theorem State.untake_nil (s : State) : s.untake [] = s := by
  have h : s.threads.map (fun t => if ([] : List Key).contains t.key then { t with took := false } else t) = s.threads :=
    List.map_id' _
  unfold State.untake
  rw [h]

@[simp] theorem State.formGroups_nil (s : State) (c : Nat) : s.formGroups c [] = s := by
  simp [State.formGroups, State.splitByPc]

theorem State.formGroup_all (core : Nat) (gs : List (List Key)) : ∀ (s : State), (∀ g ∈ gs, g ≠ []) →
    let s' := gs.foldl (fun s g => s.formGroup core g) s
    s.sameBut s'
    ∧ (∀ k, s'.thread k = (s.thread k).map (fun t => if gs.any (·.contains k) then { t with status := .ready } else t))
    ∧ (∀ g ∈ s.groups, g ∈ s'.groups)
    ∧ (∀ g ∈ gs, ∃ x ∈ s'.groups, x.core = core ∧ ∀ k, k ∈ x.threads ↔ k ∈ g) := by
  induction gs with
  | nil => intro s _; simp [State.sameBut_refl]
  | cons g r ih =>
    intro s hne
    obtain ⟨h1, h2, h3, h4⟩ := ih (s.formGroup core g) (fun x hx => hne x (by simp [hx]))
    have hg : g ≠ [] := hne g (by simp)
    have hgr : (s.formGroup core g).groups
        = s.groups ++ [{ id := s.fresh, core, threads := sortKeys g, overdue := false }] := by
      unfold State.formGroup; simp [hg]
    refine ⟨(State.sameBut_formGroup s core g).trans h1, ?_, ?_, ?_⟩
    · intro k
      simp only [List.foldl_cons, h2, State.thread_formGroup, Option.map_map]
      congr 1
      funext t
      cases a : g.contains k <;> cases b : r.any (·.contains k) <;>
        simp only [Function.comp, List.any_cons, a, b, Bool.or_true, Bool.or_false, if_true] <;> rfl
    · intro x hx
      exact h3 x (by rw [hgr]; exact List.mem_append_left _ hx)
    · intro x hx
      rcases List.mem_cons.mp hx with rfl | hx
      · exact ⟨{ id := s.fresh, core, threads := sortKeys x, overdue := false },
          h3 _ (by rw [hgr]; exact List.mem_append_right _ (by simp)), rfl, fun k => mem_sortKeys k x⟩
      · exact h4 x hx

/-! ## An instruction over the threads of its group -/

/-- What one thread's step of such an instruction does: the thread goes on, changed by `g`, and nothing else changes. -/
theorem stepThread_quiet {i : Instr} {body : State → Workgroup → Thread → Res} {g : Workgroup → Thread → Thread}
    {s : State} {acc : List Key} {k : Key} {t : Thread} {w : Workgroup}
    (ht : s.thread k = some t) (hw : s.wg k.wg = some w) (hs : s.steps w = false) (hk : (g w t).key = k)
    (hok : t.guard i.form = true → i.step8 w t = true ∧ (t.away = none ∨ (i.opc.map Opc.homeFirst).getD false = false))
    (hb : t.guard i.form = true → body s w t = .go s (g w t)) :
    State.stepThread i body (s, acc) k
      = (s.setThread (if t.guard i.form then g w t else { i.zeroDest w t with pc := pcAfter t.pc i.words }),
          acc ++ [k]) := by
  unfold State.stepThread State.stepOf
  simp only [ht, hw]
  by_cases hg : t.guard i.form = true
  · obtain ⟨h8, ha⟩ := hok hg
    have ha' : (t.away.isSome && (i.opc.map Opc.homeFirst).getD false) = false := by
      rcases ha with ha | ha <;> simp [ha]
    simp only [hg, Bool.not_true, Bool.false_eq_true, if_false, ha', h8, hb hg, if_true, State.passOn, hs, Bool.false_and,
      hk]
  · have hz : ∀ p, ({ i.zeroDest w t with pc := p } : Thread).key = k := by
      intro p; rw [← State.thread_key ht, ← zeroDest_key i w t]; rfl
    simp only [hg, Bool.not_false, if_true, State.passOn, hs, Bool.false_and, Bool.false_eq_true, if_false, hz]

/-- All the threads' steps of an instruction whose effect on each is `g`, and which changes nothing else. -/
theorem foldl_quiet {i : Instr} {body : State → Workgroup → Thread → Res} {g : Workgroup → Thread → Thread} {s0 : State}
    (hkey : ∀ w t, (g w t).key = t.key) (hz : ∀ w t, (i.zeroDest w t).key = t.key) :
    ∀ (ks : List Key) (s : State) (acc : List Key), ks.Nodup → s0.sameBut s → (∀ k ∈ ks, s.thread k = s0.thread k) →
      (∀ k ∈ ks, ∃ t w, s0.thread k = some t ∧ s0.wg k.wg = some w ∧ s0.steps w = false ∧ (t.guard i.form = true →
        i.step8 w t = true ∧ (t.away = none ∨ (i.opc.map Opc.homeFirst).getD false = false))) →
      (∀ k ∈ ks, ∀ s t w, s0.sameBut s → s0.thread k = some t → s0.wg k.wg = some w → t.guard i.form = true →
        body s w t = .go s (g w t)) →
      let r := ks.foldl (State.stepThread i body) (s, acc)
      s0.sameBut r.1 ∧ r.2 = acc ++ ks
      ∧ (∀ k ∈ ks, ∀ t w, s0.thread k = some t → s0.wg k.wg = some w → r.1.thread k
          = some (if t.guard i.form then g w t else { i.zeroDest w t with pc := pcAfter t.pc i.words }))
      ∧ (∀ k, k ∉ ks → r.1.thread k = s.thread k) := by
  intro ks
  induction ks with
  | nil => intro s acc _ hs _ _ _; exact ⟨hs, by simp, by simp, by simp⟩
  | cons k r ih =>
    intro s acc hnd hs hth hl hb
    obtain ⟨t, w, ht, hw, hst, hok⟩ := hl k (by simp)
    have hts : s.thread k = some t := by rw [hth k (by simp), ht]
    have hws : s.wg k.wg = some w := by rw [hs.wg, hw]
    have htk : t.key = k := State.thread_key ht
    have hbk := hb k (by simp) s t w hs ht hw
    have hnr : k ∉ r := (List.nodup_cons.mp hnd).1
    rw [List.foldl_cons, stepThread_quiet hts hws (by rw [hs.steps, hst]) (by rw [hkey, htk]) hok hbk]
    generalize hu : (if t.guard i.form then g w t else { i.zeroDest w t with pc := pcAfter t.pc i.words } : Thread) = u
    have huk : u.key = k := by
      rw [← hu]
      have h1 := hkey w t
      have h2 := hz w t
      by_cases hg : t.guard i.form = true
      · simp only [hg, if_true]; rw [← htk, ← h1]
      · simp only [hg]; rw [← htk, ← h2]; rfl
    have hsame : s0.sameBut (s.setThread u) := hs.trans (State.sameBut_setThread s u)
    have ho : ∀ x, x ≠ k → (s.setThread u).thread x = s.thread x := by
      intro x hx; exact State.thread_setThread_other (by rw [huk]; exact hx)
    obtain ⟨h1, h2, h3, h4⟩ := ih (s.setThread u) (acc ++ [k]) (List.nodup_cons.mp hnd).2 hsame
      (fun x hx => by
        rw [ho x (by rintro rfl; exact hnr hx)]; exact hth x (by simp [hx]))
      (fun x hx => hl x (by simp [hx])) (fun x hx => hb x (by simp [hx]))
    refine ⟨h1, by rw [h2]; simp, ?_, ?_⟩
    · intro x hx tx wx htx hwx
      by_cases hxk : x = k
      · subst hxk
        rw [h4 x hnr]
        have := State.thread_setThread_same (s := s) (t := u) (by rw [huk, hts]; rfl)
        rw [huk] at this
        rw [this, ← hu]
        rw [ht] at htx; rw [hw] at hwx
        cases htx; cases hwx; rfl
      · have hxr : x ∈ r := by
          rcases List.mem_cons.mp hx with h | h
          · exact absurd h hxk
          · exact h
        exact h3 x hxr tx wx htx hwx
    · intro x hx
      rw [h4 x (fun h => hx (List.mem_cons_of_mem _ h)), ho x (fun h => hx (by simp [h]))]

/-- A group none of whose threads is waited for belongs to no join. -/
theorem State.joinOf_none {s : State} (hj : ∀ j ∈ s.joins, ∀ k ∈ s.cur.keys, k ∉ j.waiting) : s.joinOf = none := by
  unfold State.joinOf
  rw [List.find?_eq_none]
  intro j hm ha
  obtain ⟨k, hk, hw⟩ := List.any_eq_true.mp ha
  exact hj j hm k hk (by simpa using hw)

/-- A group that has met no other, and none of whose threads waits with the rest, goes on at once. -/
theorem State.goOnTogether_met {s : State} {keys : List Key}
    (hl : ∀ k ∈ s.cur.keys, keys.contains k = true ∨ (s.thread k).any Thread.together = false)
    (hj : ∀ j ∈ s.joins, ∀ k ∈ s.cur.keys, k ∉ j.waiting) : s.goOnTogether keys = s.formGroups s.cur.core keys := by
  have h : s.cur.keys.filter (fun k => !keys.contains k && (s.thread k).any Thread.together) = [] := by
    rw [List.filter_eq_nil_iff]
    intro k hk
    rcases hl k hk with h | h
    · simp only [h, Bool.not_true, Bool.false_and, Bool.false_eq_true, not_false_eq_true]
    · simp only [h, Bool.and_false, Bool.false_eq_true, not_false_eq_true]
  simp only [State.goOnTogether, State.meetUp, State.leaveJoin, State.joinOf_none hj, List.filter_nil, List.append_nil, h,
    List.isEmpty_nil, if_true, State.raisePut, sortKeys, List.foldr_nil, List.foldl_nil]

/-- A group that has met no other goes on at once, where each of its threads goes on. -/
theorem State.goOnTogether_quiet {s : State} {keys : List Key} (hc : ∀ k ∈ s.cur.keys, k ∈ keys)
    (hj : ∀ j ∈ s.joins, ∀ k ∈ s.cur.keys, k ∉ j.waiting) : s.goOnTogether keys = s.formGroups s.cur.core keys :=
  State.goOnTogether_met (fun k hk => Or.inl (by simpa using hc k hk)) hj

/-- An instruction whose threads are all done with it, or wait alone, has put no fault off. -/
theorem State.parted_not {s : State} {r : State × List Key} (hj : ∀ j ∈ s.joins, ∀ k ∈ s.cur.keys, k ∉ j.waiting)
    (h : ∀ k ∈ s.cur.keys, r.2.contains k = true ∨ (r.1.thread k).any Thread.together = false) : s.parted r = false := by
  unfold State.parted
  rw [State.joinOf_none hj, Bool.eq_false_iff]
  intro ha
  simp only [Option.isSome_none, Bool.false_or, List.any_eq_true, Bool.and_eq_true, Bool.not_eq_true'] at ha
  obtain ⟨k, hk, h1, h2⟩ := ha
  rcases h k hk with h | h <;> simp_all

theorem finish_quiet {s : State} {pc : Dword} {keys : List Key} (hc : ∀ k ∈ s.cur.keys, k ∈ keys)
    (hj : ∀ j ∈ s.joins, ∀ k ∈ s.cur.keys, k ∉ j.waiting)
    (hl : ∀ k ∈ keys, ∃ t w, s.thread k = some t ∧ s.wg k.wg = some w ∧ s.steps w = false) :
    s.sameBut (s.finish pc keys)
    ∧ (∀ k ∈ keys, (s.finish pc keys).thread k = (s.thread k).map (fun t => { t with status := .ready, took := false }))
    ∧ (∀ k, k ∉ keys → (s.finish pc keys).thread k = s.thread k)
    ∧ (∀ k ∈ keys, ∃ g ∈ (s.finish pc keys).groups, k ∈ g.threads ∧ g.core = s.cur.core ∧ ∀ j ∈ g.threads,
        ((s.finish pc keys).thread j).map (·.pc) = ((s.finish pc keys).thread k).map (·.pc)) := by
  cases keys with
  | nil =>
    have : s.finish pc [] = s := by
      unfold State.finish
      simp only [List.head?_nil, Option.bind_none]
      rw [State.goOnTogether_quiet hc hj, State.formGroups_nil]
    simp [this, State.sameBut_refl]
  | cons a r =>
    obtain ⟨ta, wa, hta, hwa, hsa⟩ := hl a (by simp)
    have hfin : s.finish pc (a :: r)
        = (s.splitByPc (a :: r)).foldl (fun x g => x.formGroup s.cur.core g) (s.untake (a :: r)) := by
      unfold State.finish
      simp only [List.head?_cons, Option.bind_some, hwa, hsa, Bool.false_and, Bool.false_eq_true, if_false]
      rw [State.goOnTogether_quiet hc hj]
      rfl
    rw [hfin]
    obtain ⟨hok, hall⟩ := s.splitByPc_ok (a :: r) (fun k hk => by
      obtain ⟨t, w, ht, _⟩ := hl k hk; simp [ht])
    have hsub : ∀ g ∈ s.splitByPc (a :: r), ∀ k ∈ g, k ∈ a :: r := by
      have : ∀ (l : List Key) (acc : List (List Key)), (∀ g ∈ acc, ∀ k ∈ g, k ∈ a :: r) → (∀ k ∈ l, k ∈ a :: r) →
          ∀ g ∈ (l.foldl (fun acc k =>
        match s.thread k with
        | none => acc
        | some t =>
          if acc.any (s.goesWith t) then
            acc.map (fun g => if s.goesWith t g then g ++ [k] else g)
          else acc ++ [[k]]) acc), ∀ k ∈ g, k ∈ a :: r := by
        intro l
        induction l with
        | nil => intro acc h _; exact h
        | cons x l ih =>
          intro acc h hl
          rw [List.foldl_cons]
          refine ih _ ?_ (fun k hk => hl k (by simp [hk]))
          cases s.thread x with
          | none => exact h
          | some t =>
            simp only
            split
            · intro g hg k hk
              obtain ⟨g0, hg0, rfl⟩ := List.mem_map.mp hg
              split at hk
              · rcases List.mem_append.mp hk with hk | hk
                · exact h g0 hg0 k hk
                · simp only [List.mem_singleton] at hk; rw [hk]; exact hl x (by simp)
              · exact h g0 hg0 k hk
            · intro g hg k hk
              rcases List.mem_append.mp hg with hg | hg
              · exact h g hg k hk
              · simp only [List.mem_singleton] at hg; subst hg
                simp only [List.mem_singleton] at hk; rw [hk]; exact hl x (by simp)
      exact this (a :: r) [] (by simp) (fun k hk => hk)
    obtain ⟨h1, h2, h3, h4⟩ := State.formGroup_all s.cur.core (s.splitByPc (a :: r)) (s.untake (a :: r)) hok.nonempty
    simp only [State.thread_untake, Option.map_map] at h2
    refine ⟨(State.sameBut_untake s _).trans h1, ?_, ?_, ?_⟩
    · intro k hk
      rw [h2]
      have h5 : (s.splitByPc (a :: r)).any (·.contains k) = true := by
        obtain ⟨g, hg, hkg⟩ := hall k hk
        exact List.any_eq_true.mpr ⟨g, hg, by simpa using hkg⟩
      have h6 : (a :: r).contains k = true := by simpa using hk
      congr 1
      funext t
      simp only [Function.comp, h5, h6, if_true]
    · intro k hk
      rw [h2]
      have h5 : (s.splitByPc (a :: r)).any (·.contains k) = false := by
        by_contra hc
        rw [Bool.not_eq_false] at hc
        obtain ⟨g, hg, hkg⟩ := List.any_eq_true.mp hc
        exact hk (hsub g hg k (by simpa using hkg))
      have h6 : (a :: r).contains k = false := by simpa using hk
      have e : (fun t : Thread => if (s.splitByPc (a :: r)).any (·.contains k) then { t with status := .ready } else t)
          ∘ (fun t : Thread => if (a :: r).contains k then { t with took := false } else t) = id := by
        funext t
        simp only [Function.comp, h5, h6, Bool.false_eq_true, if_false, id]
      rw [e, Option.map_id]
      rfl
    · intro k hk
      obtain ⟨g, hg, hkg⟩ := hall k hk
      obtain ⟨x, hx, hxc, hxm⟩ := h4 g hg
      refine ⟨x, hx, (hxm k).mpr hkg, hxc, fun j hj => ?_⟩
      have hjg := (hxm j).mp hj
      have := hok.pc g hg j hjg k hkg
      rw [h2, h2, Option.map_map, Option.map_map]
      have e : ∀ y : Key, (fun t : Thread => t.pc) ∘ ((fun t : Thread =>
          if (s.splitByPc (a :: r)).any (·.contains y) then { t with status := .ready } else t)
          ∘ (fun t : Thread => if (a :: r).contains y then { t with took := false } else t)) = (fun t : Thread => t.pc) := by
        intro y; funext t; simp only [Function.comp]; split <;> split <;> rfl
      rw [e, e]
      exact this

/-- An instruction that only changes the threads of its group does so to each, and to nothing else: the one statement
that every arithmetic instruction rests on. -/
theorem forThreads_went {i : Instr} {body : State → Workgroup → Thread → Res} {g : Workgroup → Thread → Thread} {s : State}
    (hr : i.Runs s) (hkey : ∀ w t, (g w t).key = t.key)
    (hb : ∀ k ∈ s.cur.keys, ∀ s' t w, s.sameBut s' → s.thread k = some t → s.wg k.wg = some w → t.guard i.form = true →
      body s' w t = .go s' (g w t)) :
    Went (i.turned g) s (s.forThreads i body) := by
  obtain ⟨h1, h2, h3, h4⟩ := foldl_quiet (s0 := s) hkey (zeroDest_key i) s.cur.keys s [] hr.nodup (State.sameBut_refl s)
    (fun _ _ => rfl) (fun k hk => by
      obtain ⟨t, w, ht, hw, h⟩ := hr.live k hk; exact ⟨t, w, ht, hw, h⟩) hb
  generalize hR : s.cur.keys.foldl (State.stepThread i body) (s, []) = r at h1 h2 h3 h4
  have hlive : ∀ k ∈ r.2, ∃ t w, r.1.thread k = some t ∧ r.1.wg k.wg = some w ∧ r.1.steps w = false := by
    intro k hk
    rw [h2] at hk
    obtain ⟨t, w, ht, hw, hs, _⟩ := hr.live k hk
    exact ⟨_, w, h3 k hk t w ht hw, by rw [h1.wg, hw], by rw [h1.steps, hs]⟩
  obtain ⟨f1, f2, f3, f4⟩ := finish_quiet (s := r.1) (pc := s.curPc) (keys := r.2)
    (by rw [h1.cur, h2]; simp) (by rw [h1.cur, h1.joins]; exact hr.joins) hlive
  have hr2 : r.2 = s.cur.keys := by simpa using h2
  have hfor : s.forThreads i body = r.1.finish s.curPc r.2 := by
    have hp : s.parted r = false := State.parted_not hr.joins (fun k hk => Or.inl (by rw [hr2]; simpa using hk))
    unfold State.forThreads
    rw [hR]
    simp only [hp, Bool.false_eq_true, if_false]
  rw [hfor]
  refine ⟨?_, ?_, h1.trans f1, ?_⟩
  · intro k hk t w ht hw
    rw [f2 k (by rw [hr2]; exact hk), h3 k hk t w ht hw]
    simp only [Option.map_some, Instr.turned]
    split <;> rfl
  · intro k hk
    rw [f3 k (by rw [hr2]; exact hk), h4 k hk]
  · intro k hk
    rw [← h1.cur]
    exact f4 k (by rw [hr2]; exact hk)

/-- The same for a branch, a call or a return (R40). -/
theorem forBranch_went {i : Instr} {takes : Thread → Bool} {body : State → Workgroup → Thread → Res}
    {g : Workgroup → Thread → Thread} {s : State} (hr : i.Runs s) (hkey : ∀ w t, (g w t).key = t.key)
    (hb : ∀ k ∈ s.cur.keys, ∀ s' t w, s.sameBut s' → s.thread k = some t → s.wg k.wg = some w → t.guard i.form = true →
      body s' w { t with took := takes t } = .go s' { g w t with took := takes t }) :
    Went (i.turned g) s (s.forBranch i takes body) := by
  have h := forThreads_went (g := fun w t => { g w t with took := takes t }) hr (fun w t => by rw [← hkey w t]; rfl) hb
  exact h

/-- The same for an instruction that goes on at the next one. -/
theorem forThreads_did {i : Instr} {body : State → Workgroup → Thread → Res} {g : Workgroup → Thread → Thread} {s : State}
    (hr : i.Runs s) (hkey : ∀ w t, (g w t).key = t.key)
    (hb : ∀ k ∈ s.cur.keys, ∀ s' t w, s.sameBut s' → s.thread k = some t → s.wg k.wg = some w → t.guard i.form = true →
      body s' w t = .go s' { g w t with pc := pcAfter t.pc i.words }) :
    i.Did g s (s.forThreads i body) := by
  have h := forThreads_went (g := fun w t => { g w t with pc := pcAfter t.pc i.words }) hr
    (fun w t => by rw [← hkey w t]; rfl) hb
  have e : i.turned (fun w t => { g w t with pc := pcAfter t.pc i.words }) = i.after g := by
    funext w t
    unfold Instr.turned Instr.after
    split <;> rfl
  rw [e] at h
  exact h

/-- The meaning of an instruction that only changes the thread's own registers and predicates (R158). -/
theorem alu_did {i : Instr} {f : Workgroup → Thread → Thread} {s : State} (hr : i.Runs s)
    (hkey : ∀ w t, (f w t).key = t.key) : ∃ s', s.alu i f = .next s' ∧ i.Did f s s' :=
  ⟨_, rfl, forThreads_did hr hkey (fun _ _ _ _ _ _ _ _ _ => rfl)⟩

/-! ## A group of one thread -/

/-- The group of one thread goes on alone. -/
theorem finish_single {s : State} {pc : Dword} {k : Key} {t : Thread} {w : Workgroup} (ht : s.thread k = some t)
    (hw : s.wg k.wg = some w) (hs : s.steps w = false) (hc : s.cur.keys = [k]) (hj : ∀ j ∈ s.joins, k ∉ j.waiting) :
    s.finish pc [k] = (s.untake [k]).formGroup s.cur.core [k] := by
  have h := State.goOnTogether_quiet (s := s) (keys := [k]) (by simp [hc]) (by simpa [hc] using hj)
  simp [State.finish, hw, hs, h, State.formGroups, State.splitByPc, ht]

/-- The group of one thread that does not go on, and does not wait at its instruction, leaves nothing behind. -/
theorem finish_none {s : State} {pc : Dword} {k : Key} (hc : s.cur.keys = [k]) (hj : ∀ j ∈ s.joins, k ∉ j.waiting)
    (ht : (s.thread k).any Thread.together = false) : s.finish pc [] = s := by
  have h := State.goOnTogether_met (s := s) (keys := []) (by simp [hc, ht]) (by simpa [hc] using hj)
  simp [State.finish, h]

/-- The step of a thread that is alone is its body. -/
theorem stepThread_alone {i : Instr} {s : State} {t : Thread} {w : Workgroup} (h : i.Alone s t w)
    (body : State → Workgroup → Thread → Res) :
    s.cur.keys.foldl (State.stepThread i body) (s, []) = (match body s w t with
      | .go s' t' => s'.passOn w [] t.pc t'
      | .file s' t' tag =>
        if s'.steps w && !t.key.isSlice then
          ((s'.setThread { t' with ftag := tag }).raiseCur t.key (stepFault t.pc s'.cur.insn t'.pc), [])
        else (s'.fileThread t' tag, [])
      | .hold s' t' => (s'.setThread { t' with insn := s'.cur.insn }, [])
      | .fault s' r => (s'.raiseCur t.key r, [])
      | .left s' => (s', [])) := by
  have hw : s.wg t.key.wg = some w := h.wg
  have ha : (t.away.isSome && (i.opc.map Opc.homeFirst).getD false) = false := by
    rcases h.home with ha | ha <;> simp [ha]
  rw [h.keys]
  simp only [List.foldl_cons, List.foldl_nil]
  unfold State.stepThread State.stepOf
  simp only [h.thread, hw, h.guard, Bool.not_true, Bool.false_eq_true, if_false, ha, h.step8]
  all_goals (cases body s w t <;> simp)

/-- A thread that is alone and goes on forms its group again. -/
theorem forThreads_go {i : Instr} {s s' : State} {t t' : Thread} {w w' : Workgroup} (h : i.Alone s t w)
    {body : State → Workgroup → Thread → Res} (hb : body s w t = .go s' t') (hk : t'.key = t.key)
    (hl : (s'.thread t.key).isSome) (hw : s'.wg t.wg = some w') (hs : s'.steps w' = false) (hs0 : s'.steps w = false)
    (hc : s'.cur = s.cur) (hj : s'.joins = s.joins) :
    s.forThreads i body = (s'.setThread { t' with took := false }).formGroup s'.cur.core [t.key] := by
  have hp : ∀ x, s.parted (x, [t.key]) = false := fun x => State.parted_not (by simpa [h.keys] using h.joins) (by simp [h.keys])
  unfold State.forThreads
  rw [stepThread_alone h, hb]
  simp only [State.passOn, hs0, Bool.false_and, Bool.false_eq_true, if_false, List.nil_append, hk, hp]
  have h1 := State.thread_setThread_same (s := s') (t := t') (by rw [hk]; exact hl)
  rw [hk] at h1
  rw [finish_single h1 (w := w') hw hs (by show s'.cur.keys = _; rw [hc, h.keys])
    (by show ∀ j ∈ s'.joins, _; rw [hj]; exact h.joins), ← State.setThread_untake, hk]
  rfl

/-- A thread that is alone and waits, not at its instruction: it waits, and nothing else happens. -/
theorem forThreads_hold {i : Instr} {s s' : State} {t t' : Thread} {w : Workgroup} (h : i.Alone s t w)
    {body : State → Workgroup → Thread → Res} (hb : body s w t = .hold s' t') (hk : t'.key = t.key)
    (hl : (s'.thread t.key).isSome) (hc : s'.cur = s.cur) (hj : s'.joins = s.joins) (ht : t'.together = false) :
    s.forThreads i body = s'.setThread { t' with insn := s'.cur.insn } := by
  have h1 := State.thread_setThread_same (s := s') (t := { t' with insn := s'.cur.insn })
    (by show (s'.thread t'.key).isSome; rw [hk]; exact hl)
  have hk' : ({ t' with insn := s'.cur.insn } : Thread).key = t.key := hk
  rw [hk'] at h1
  have hp : s.parted (s'.setThread { t' with insn := s'.cur.insn }, []) = false :=
    State.parted_not (by simpa [h.keys] using h.joins) (fun k hm => Or.inr (by
      have : k = t.key := by simpa [h.keys] using hm
      subst this
      show ((s'.setThread { t' with insn := s'.cur.insn }).thread t.key).any Thread.together = false
      rw [h1]
      exact ht))
  unfold State.forThreads
  rw [stepThread_alone h, hb]
  simp only [hp, Bool.false_eq_true, if_false]
  refine finish_none (k := t.key) (by show s'.cur.keys = _; rw [hc, h.keys])
    (by show ∀ j ∈ s'.joins, _; rw [hj]; exact h.joins) ?_
  rw [h1]
  exact ht

end Sys2Proof.Machine
end

