-- ==== Sys2Proof/Laws/Filing.lean ====
section
/-! SUPPORT. What filing a thread and forming a group do to the threads (R42 to R44). -/

namespace Sys2Proof.Machine

/-- Giving free bins to overflow threads makes at most some threads ready, and takes no group away (R43, R44). -/
theorem State.refillBins_ready (c : Nat) : ∀ (fuel : Nat) (s : State),
    (∃ p : Key → Bool, ∀ k, (s.refillBins c fuel).thread k
      = (s.thread k).map (fun t => if p k then { t with status := .ready } else t))
    ∧ ∀ g ∈ s.groups, g ∈ (s.refillBins c fuel).groups := by
  intro fuel
  induction fuel with
  | zero => intro s; exact ⟨⟨fun _ => false, fun k => by simp [State.refillBins]⟩, fun _ h => h⟩
  | succ n ih =>
    intro s
    unfold State.refillBins
    split
    · exact ⟨⟨fun _ => false, fun k => by simp⟩, fun _ h => h⟩
    · split
      · exact ⟨⟨fun _ => false, fun k => by simp⟩, fun _ h => h⟩
      · simp only
        split
        · generalize hk : ((s.overflow.filter _).take 32).map (·.key) = keys
          obtain ⟨⟨p, hp⟩, hg⟩ := ih (({ s with overflow := s.overflow.filter (fun x => !keys.contains x.key) } : State).formGroup c keys)
          refine ⟨⟨fun k => p k || keys.contains k, fun k => ?_⟩, fun x hx => hg x ?_⟩
          · rw [hp, State.thread_formGroup, Option.map_map]
            congr 1
            funext t
            cases a : p k <;> cases b : keys.contains k <;> simp only [Function.comp, a, b, Bool.or_true, Bool.or_false, if_true] <;> rfl
          · unfold State.formGroup
            split
            · exact hx
            · exact List.mem_append_left _ hx
        · exact ih _

/-- A bin that is drawn becomes a ready group of its threads; the bin that this frees may make others ready. -/
theorem State.drawBin_ready (s : State) (b : Bin) (hb : b.threads ≠ []) :
    (∃ p : Key → Bool, ∀ k, (s.drawBin b).thread k
      = (s.thread k).map (fun t => if b.threads.contains k || p k then { t with status := .ready } else t))
    ∧ ∃ g ∈ (s.drawBin b).groups, g.core = b.core ∧ ∀ k, k ∈ g.threads ↔ k ∈ b.threads := by
  unfold State.drawBin State.refill
  simp only
  obtain ⟨⟨p, hp⟩, hg⟩ := State.refillBins_ready b.core
    (({ s with bins := s.bins.filter (fun x => x.id != b.id) } : State).formGroup b.core b.threads).overflow.length
    (({ s with bins := s.bins.filter (fun x => x.id != b.id) } : State).formGroup b.core b.threads)
  constructor
  · refine ⟨p, fun k => ?_⟩
    rw [hp, State.thread_formGroup, Option.map_map]
    show Option.map _ (s.thread k) = _
    congr 1
    funext t
    cases a : p k <;> cases c : b.threads.contains k <;> simp only [Function.comp, a, c, Bool.or_true, Bool.or_false, if_true] <;> rfl
  · refine ⟨{ id := s.fresh, core := b.core, threads := sortKeys b.threads, overdue := false }, hg _ ?_, rfl,
      fun k => mem_sortKeys k _⟩
    unfold State.formGroup
    simp [hb]

/-- A thread after it has been filed: filed, or ready where its bin was full; its registers and PC are as given. -/
theorem State.fileThread_same (s : State) (t : Thread) (tag : BitVec 4) (h : (s.thread t.key).isSome = true) :
    ∃ st, (st = .filed ∨ st = .ready) ∧ (s.fileThread t tag).thread t.key = some { t with status := st, took := false } := by
  have h0 : ∀ st, (s.setThread { t with status := st, took := false }).thread t.key = some { t with status := st, took := false } := by
    intro st
    exact State.thread_setThread_same (s := s) (t := { t with status := st, took := false }) h
  unfold State.fileThread
  split
  · refine ⟨.ready, Or.inr rfl, ?_⟩
    rw [State.thread_formGroup]
    have : (s.setThread { t with took := false }).thread t.key = some { t with took := false } :=
      State.thread_setThread_same (t := { t with took := false }) h
    simp [this]
  · simp only
    split
    · rename_i b hb
      split
      · refine ⟨.ready, Or.inr rfl, ?_⟩
        obtain ⟨p, hd⟩ := (State.drawBin_ready (s.setThread { t with status := .filed, took := false })
          { b with threads := b.threads ++ [t.key], tag := if tag == 0 then b.tag else tag } (by simp)).1
        rw [hd, h0]
        simp
      · exact ⟨.filed, Or.inl rfl, h0 _⟩
    · split
      · exact ⟨.filed, Or.inl rfl, h0 _⟩
      · exact ⟨.filed, Or.inl rfl, h0 _⟩

/-- Filing a thread changes at most the status of another. -/
theorem State.fileThread_other (s : State) (t : Thread) (tag : BitVec 4) {k : Key} (hk : k ≠ t.key) :
    ∃ st : Status → Status, (s.fileThread t tag).thread k = (s.thread k).map (fun u => { u with status := st u.status }) := by
  have idm : ∀ o : Option Thread, o = o.map (fun u => { u with status := id u.status }) := by
    intro o; cases o <;> rfl
  have ho : ∀ u : Thread, u.key = t.key → (s.setThread u).thread k = s.thread k := by
    intro u hu; exact State.thread_setThread_other (by rw [hu]; exact hk)
  unfold State.fileThread
  split
  · refine ⟨id, ?_⟩
    rw [State.thread_formGroup, ho { t with took := false } rfl]
    simp only [List.contains_cons, List.contains_nil, Bool.or_false, beq_iff_eq, hk, if_false]
    cases s.thread k <;> rfl
  · simp only
    split
    · rename_i b hb
      split
      · obtain ⟨p, hd⟩ := (State.drawBin_ready (s.setThread { t with status := .filed, took := false })
          { b with threads := b.threads ++ [t.key], tag := if tag == 0 then b.tag else tag } (by simp)).1
        rw [hd, ho { t with status := .filed, took := false } rfl]
        by_cases hc : ((b.threads ++ [t.key]).contains k || p k) = true
        · refine ⟨fun _ => .ready, ?_⟩; simp only [hc, if_true]
        · refine ⟨id, ?_⟩
          simp only [hc]
          cases s.thread k <;> rfl
      · exact ⟨id, by rw [← idm]; exact ho { t with status := .filed, took := false } rfl⟩
    · split
      · exact ⟨id, by rw [← idm]; exact ho { t with status := .filed, took := false } rfl⟩
      · exact ⟨id, by rw [← idm]; exact ho { t with status := .filed, took := false } rfl⟩

/-- Two states that differ at most in threads, groups, bins, the overflow queue and the count of identifiers: what filing
can change. -/
theorem State.fileThread_rest (s : State) (t : Thread) (tag : BitVec 4) :
    ({ s.fileThread t tag with threads := s.threads, groups := s.groups, bins := s.bins, overflow := s.overflow,
                               fresh := s.fresh } : State) = s := by
  have hf : ∀ (x : State) (c : Nat) (ks : List Key),
      ({ x.formGroup c ks with threads := s.threads, groups := s.groups, bins := s.bins, overflow := s.overflow,
                               fresh := s.fresh } : State)
        = { x with threads := s.threads, groups := s.groups, bins := s.bins, overflow := s.overflow, fresh := s.fresh } := by
    intro x c ks; unfold State.formGroup; split <;> rfl
  have hr : ∀ (c n : Nat) (x : State),
      ({ x.refillBins c n with threads := s.threads, groups := s.groups, bins := s.bins, overflow := s.overflow,
                               fresh := s.fresh } : State)
        = { x with threads := s.threads, groups := s.groups, bins := s.bins, overflow := s.overflow, fresh := s.fresh } := by
    intro c n
    induction n with
    | zero => intro x; rfl
    | succ n ih =>
      intro x
      unfold State.refillBins
      split
      · rfl
      · split
        · rfl
        · simp only
          split
          · rw [ih, hf]
          · rw [ih]
  unfold State.fileThread
  split
  · rw [hf]; rfl
  · simp only
    split
    · split
      · unfold State.drawBin State.refill; simp only; rw [hr, hf]; rfl
      · rfl
    · split <;> rfl

theorem State.fileThread_wgs (s : State) (t : Thread) (tag : BitVec 4) : (s.fileThread t tag).wgs = s.wgs := by
  have h := congrArg State.wgs (State.fileThread_rest s t tag); exact h
theorem State.fileThread_mem (s : State) (t : Thread) (tag : BitVec 4) : (s.fileThread t tag).mem = s.mem := by
  have h := congrArg State.mem (State.fileThread_rest s t tag); exact h
theorem State.fileThread_ctxs (s : State) (t : Thread) (tag : BitVec 4) : (s.fileThread t tag).ctxs = s.ctxs := by
  have h := congrArg State.ctxs (State.fileThread_rest s t tag); exact h

end Sys2Proof.Machine
end

