-- ==== Sys2Proof/Laws/Memory.lean ====
section
/-! SUPPORT. The canonical memory: what a read after a write gives, and that every operation keeps the form. -/

namespace Sys2Proof.Machine

/-! ## Reads after writes -/

theorem memWfFrom_weaken {m : Memory} {k l : Nat} (h : memWfFrom (some k) m = true) (hl : l ≤ k) :
    memWfFrom (some l) m = true := by
  cases m with
  | nil => rfl
  | cons c r =>
    obtain ⟨a, b⟩ := c
    simp only [memWfFrom, Bool.and_eq_true, decide_eq_true_eq] at h ⊢
    exact ⟨⟨by omega, h.1.2⟩, h.2⟩

/-- Below the lower bound of a canonical list nothing is listed. -/
theorem memGet_below {m : Memory} {k a : Nat} (h : memWfFrom (some k) m = true) (ha : a ≤ k) : memGet m a = 0 := by
  induction m generalizing k with
  | nil => rfl
  | cons c r ih =>
    obtain ⟨x, b⟩ := c
    simp only [memWfFrom, Bool.and_eq_true, decide_eq_true_eq] at h
    have : a ≠ x := by omega
    simp only [memGet, this, if_false]
    exact ih h.2 (by omega)

/-- A byte reads as it was last stored. -/
theorem memGet_memSet_same {lo : Option Nat} {m : Memory} (h : memWfFrom lo m = true) (a : Nat) (v : Byte) :
    memGet (memSet m a v) a = v := by
  induction m generalizing lo with
  | nil => by_cases hv : v = 0#8 <;> simp [memSet, memGet, hv]
  | cons c r ih =>
    obtain ⟨x, b⟩ := c
    simp only [memWfFrom, Bool.and_eq_true] at h
    by_cases h1 : a < x
    · by_cases hv : v = 0#8
      · have : a ≠ x := by omega
        subst hv
        simp only [memSet, h1, if_true, BitVec.ofNat_eq_ofNat, memGet, this, if_false]
        exact memGet_below h.2 (Nat.le_of_lt h1)
      · simp [memSet, h1, hv, memGet]
    · by_cases h2 : a = x
      · subst h2
        by_cases hv : v = 0#8
        · simp only [memSet, Nat.lt_irrefl, if_false, hv, if_true]
          exact memGet_below h.2 (Nat.le_refl _)
        · simp [memSet, hv, memGet]
      · simp only [memSet, h1, h2, if_false, memGet]
        exact ih h.2

/-- A store to one byte leaves every other as it was. -/
theorem memGet_memSet_other {m : Memory} {a b : Nat} (h : b ≠ a) (v : Byte) : memGet (memSet m a v) b = memGet m b := by
  induction m with
  | nil => by_cases hv : v = 0#8 <;> simp [memSet, memGet, hv, h]
  | cons c r ih =>
    obtain ⟨x, y⟩ := c
    by_cases h1 : a < x
    · by_cases hv : v = 0#8 <;> simp [memSet, h1, hv, memGet, h]
    · by_cases h2 : a = x
      · subst h2
        by_cases hv : v = 0#8 <;> simp [memSet, hv, memGet, h]
      · simp [memSet, h1, h2, memGet, ih]

/-! ## The canonical form -/

theorem memSet_wfFrom {lo : Option Nat} {m : Memory} (h : memWfFrom lo m = true) (a : Nat) (v : Byte)
    (ha : ∀ l, lo = some l → l < a) : memWfFrom lo (memSet m a v) = true := by
  induction m generalizing lo with
  | nil =>
    by_cases hv : v = 0#8
    · simp [memSet, hv, memWfFrom]
    · cases lo with
      | none => simp [memSet, hv, memWfFrom]
      | some l => simp [memSet, hv, memWfFrom, ha l rfl]
  | cons c r ih =>
    obtain ⟨x, b⟩ := c
    have h' := h
    simp only [memWfFrom, Bool.and_eq_true] at h
    by_cases h1 : a < x
    · by_cases hv : v = 0#8
      · simpa [memSet, h1, hv] using h'
      · have hb : b ≠ 0#8 := by simpa using h.1.2
        cases lo with
        | none => simp [memSet, h1, hv, memWfFrom, hb, h.2]
        | some l => simp [memSet, h1, hv, memWfFrom, hb, h.2, ha l rfl]
    · by_cases h2 : a = x
      · subst h2
        by_cases hv : v = 0#8
        · simp only [memSet, Nat.lt_irrefl, if_false, hv, if_true]
          cases lo with
          | none => cases r with
            | nil => rfl
            | cons d r' =>
              have := h.2
              simp only [memWfFrom, Bool.and_eq_true] at this
              change ((true && _) && _) = true
              rw [Bool.true_and, Bool.and_eq_true]
              exact ⟨this.1.2, this.2⟩
          | some l => exact memWfFrom_weaken h.2 (Nat.le_of_lt (ha l rfl))
        · have hn : (v != 0) = true := by simpa using hv
          rw [memSet, if_neg (Nat.lt_irrefl a), if_pos rfl]
          simp only [BitVec.ofNat_eq_ofNat, hv, if_false]
          simp only [memWfFrom, Bool.and_eq_true]
          exact ⟨⟨h.1.1, hn⟩, h.2⟩
      · simp only [memSet, h1, h2, if_false, memWfFrom, Bool.and_eq_true]
        exact ⟨h.1, ih h.2 (fun l hl => by cases hl; omega)⟩

/-- A store keeps the canonical form. -/
theorem memSet_wf {m : Memory} (h : m.wf = true) (a : Nat) (v : Byte) : Memory.wf (memSet m a v) = true :=
  memSet_wfFrom h a v (by simp)

/-- A store of several bytes keeps the canonical form. -/
theorem memSetN_wf {m : Memory} (h : m.wf = true) (a : Nat) (l : List Byte) : Memory.wf (memSetN m a l) = true := by
  induction l generalizing m a with
  | nil => exact h
  | cons b r ih => exact ih (memSet_wf h a b) (a + 1)

theorem memFilter_wfFrom {lo lo' : Option Nat} {m : Memory} (h : memWfFrom lo m = true) (p : Host.Cell → Bool)
    (hl : ∀ l', lo' = some l' → ∃ l, lo = some l ∧ l' ≤ l) : memWfFrom lo' (m.filter p) = true := by
  induction m generalizing lo lo' with
  | nil => simp [memWfFrom]
  | cons c r ih =>
    obtain ⟨x, b⟩ := c
    simp only [memWfFrom, Bool.and_eq_true] at h
    by_cases hp : p (x, b) = true
    · simp only [List.filter_cons, hp, if_true, memWfFrom, Bool.and_eq_true]
      refine ⟨⟨?_, h.1.2⟩, ih h.2 (fun l' e => ⟨x, rfl, by cases e; exact Nat.le_refl _⟩)⟩
      cases lo' with
      | none => trivial
      | some l' =>
        obtain ⟨l, rfl, hle⟩ := hl l' rfl
        have := h.1.1
        simp only [decide_eq_true_eq] at this ⊢
        omega
    · simp only [List.filter_cons, hp]
      refine ih h.2 (fun l' e => ⟨x, rfl, ?_⟩)
      obtain ⟨l, rfl, hle⟩ := hl l' e
      have := h.1.1
      simp only [decide_eq_true_eq] at this
      omega

/-- Removing a range keeps the canonical form. -/
theorem memDrop_wf {m : Memory} (h : m.wf = true) (lo n : Nat) : Memory.wf (memDrop m lo n) = true :=
  memFilter_wfFrom h _ (by simp)

/-- An empty memory is in canonical form. -/
@[simp] theorem nil_wf : Memory.wf [] = true := rfl

/-! ## Ranges -/

/-- Storing bytes leaves every address outside the range as it was. -/
theorem memGet_memSetN_other {m : Memory} {a b : Nat} {l : List Byte} (h : b < a ∨ a + l.length ≤ b) :
    memGet (memSetN m a l) b = memGet m b := by
  induction l generalizing m a with
  | nil => rfl
  | cons x r ih =>
    simp only [List.length_cons] at h
    simp only [memSetN]
    rw [ih (by omega), memGet_memSet_other (by omega)]

/-- Bytes read as they were last stored. -/
theorem memGetN_memSetN_same {m : Memory} (h : m.wf = true) (a : Nat) (l : List Byte) :
    memGetN (memSetN m a l) a l.length = l := by
  induction l generalizing m a with
  | nil => rfl
  | cons x r ih =>
    simp only [memSetN, List.length_cons, memGetN]
    rw [memGet_memSetN_other (by omega), memGet_memSet_same h, ih (memSet_wf h a x)]

/-- A removed range reads as zero, and the rest as before. -/
theorem memGet_memDrop (m : Memory) (lo n a : Nat) :
    memGet (memDrop m lo n) a = if lo ≤ a ∧ a < lo + n then 0 else memGet m a := by
  induction m with
  | nil => simp [memDrop, memGet]
  | cons c r ih =>
    obtain ⟨x, b⟩ := c
    simp only [memDrop, List.filter_cons] at ih ⊢
    by_cases hx : x < lo ∨ lo + n ≤ x
    · have : (decide (x < lo) || decide (lo + n ≤ x)) = true := by simpa using hx
      simp only [this, if_true, memGet, ih]
      by_cases ha : a = x
      · have : ¬ (lo ≤ a ∧ a < lo + n) := by omega
        simp [ha ▸ this, ha]
      · simp [ha]
    · have : (decide (x < lo) || decide (lo + n ≤ x)) = false := by simpa using hx
      simp only [this, Bool.false_eq_true, if_false, ih, memGet]
      by_cases ha : a = x
      · have : lo ≤ x ∧ x < lo + n := by omega
        simp [ha, this]
      · simp [ha]

/-! ## Metadata words -/

theorem metaWfFrom_weaken {m : List (Nat × Word)} {k l : Nat} (h : metaWfFrom (some k) m = true) (hl : l ≤ k) :
    metaWfFrom (some l) m = true := by
  cases m with
  | nil => rfl
  | cons c r =>
    obtain ⟨a, b⟩ := c
    simp only [metaWfFrom, Bool.and_eq_true, decide_eq_true_eq] at h ⊢
    exact ⟨⟨by omega, h.1.2⟩, h.2⟩

/-- Putting a metadata word keeps the canonical form. -/
theorem metaSet_wfFrom {lo : Option Nat} {m : List (Nat × Word)} (h : metaWfFrom lo m = true) (a : Nat) (v : Word)
    (ha : ∀ l, lo = some l → l < a) : metaWfFrom lo (metaSet m a v) = true := by
  induction m generalizing lo with
  | nil =>
    by_cases hv : v = 0#32
    · simp [metaSet, hv, metaWfFrom]
    · cases lo with
      | none => simp [metaSet, hv, metaWfFrom]
      | some l => simp [metaSet, hv, metaWfFrom, ha l rfl]
  | cons c r ih =>
    obtain ⟨x, b⟩ := c
    have h' := h
    simp only [metaWfFrom, Bool.and_eq_true] at h
    by_cases h1 : a < x
    · by_cases hv : v = 0#32
      · simpa [metaSet, h1, hv] using h'
      · have hb : b ≠ 0#32 := by simpa using h.1.2
        cases lo with
        | none => simp [metaSet, h1, hv, metaWfFrom, hb, h.2]
        | some l => simp [metaSet, h1, hv, metaWfFrom, hb, h.2, ha l rfl]
    · by_cases h2 : a = x
      · subst h2
        by_cases hv : v = 0#32
        · simp only [metaSet, Nat.lt_irrefl, if_false, hv, if_true]
          cases lo with
          | none => cases r with
            | nil => rfl
            | cons d r' =>
              have := h.2
              simp only [metaWfFrom, Bool.and_eq_true] at this
              change ((true && _) && _) = true
              rw [Bool.true_and, Bool.and_eq_true]
              exact ⟨this.1.2, this.2⟩
          | some l => exact metaWfFrom_weaken h.2 (Nat.le_of_lt (ha l rfl))
        · have hn : (v != 0) = true := by simpa using hv
          rw [metaSet, if_neg (Nat.lt_irrefl a), if_pos rfl]
          simp only [BitVec.ofNat_eq_ofNat, hv, if_false]
          simp only [metaWfFrom, Bool.and_eq_true]
          exact ⟨⟨h.1.1, hn⟩, h.2⟩
      · simp only [metaSet, h1, h2, if_false, metaWfFrom, Bool.and_eq_true]
        exact ⟨h.1, ih h.2 (fun l hl => by cases hl; omega)⟩

end Sys2Proof.Machine
end

