-- ==== Sys2Proof/Laws/Faults.lean ====
section
/-! SUPPORT. What raising a fault does (R300 to R304): its record, and the thread's entry into its handler. -/

namespace Sys2Proof.Machine

@[simp] theorem length_natLe (n x : Nat) : (natLe n x).length = n := by
  induction n generalizing x with
  | zero => rfl
  | succ n ih => simp [natLe, ih]

@[simp] theorem length_recordBody (w : Workgroup) (tidx core pkg flags : Nat) (pc : Dword) (insn : Word) (r : Raise) :
    (recordBody w tidx core pkg flags pc insn r).length = 60 := by
  simp [recordBody]

/-- A write of the device that stays in one plain block. -/
theorem State.devStore_plain (s : State) (vf pa : Nat) (d : List Byte) (hp : s.isCmp pa = false) (hd : d ≠ [])
    (hn : pa % 1024 + d.length ≤ 1024) : s.devStore vf pa d
      = { s with mem := memSetN s.mem pa d, poison := s.poison.filter (fun a => a < pa || pa + d.length ≤ a) } := by
  have h1 : blockPieces (d.length + 1) pa d = [(pa, d)] := by
    obtain ⟨n, hl⟩ : ∃ n, d.length = n + 1 := ⟨d.length - 1, by
      have := List.length_pos_of_ne_nil hd; omega⟩
    have hmin : min d.length (1024 - pa % 1024) = d.length := by omega
    rw [hl]
    unfold blockPieces
    simp only [List.isEmpty_iff, hd, if_false, hmin, List.take_length, List.drop_length]
    rw [hl] at *
    unfold blockPieces
    simp
  unfold State.devStore
  rw [h1]
  simp [State.devPiece, State.physWrite, MemOp.isRaw, State.plainWrite, State.badFor, MemOp.consumes, MemOp.apply, State.healOp,
    MemOp.covers, MemOp.len, State.heal, hp]

theorem State.ctx_setCtx_same (s : State) (c : Context) : (s.setCtx c).ctx c.ctxn = c := by
  unfold State.setCtx State.ctx
  by_cases h : s.ctxs.any (fun u => u.ctxn == c.ctxn) = true
  · simp only [h, if_true]
    have : (s.ctxs.map (fun u => if u.ctxn == c.ctxn then c else u)).find? (fun x => x.ctxn == c.ctxn)
        = (s.ctxs.find? (fun x => x.ctxn == c.ctxn)).map (fun u => if u.ctxn == c.ctxn then c else u) := by
      apply find?_map_of_iff (p := fun u : Context => u.ctxn == c.ctxn)
      intro x
      by_cases hx : x.ctxn == c.ctxn <;> simp_all
    rw [this]
    obtain ⟨x, hx, hxc⟩ := List.any_eq_true.mp h
    cases hf : s.ctxs.find? (fun x => x.ctxn == c.ctxn) with
    | none => exact absurd hxc (by simpa using List.find?_eq_none.mp hf x hx)
    | some y =>
      have := List.find?_some hf
      simp only [Option.map_some, this, if_true, Option.getD_some]
  · simp only [h]
    have hn : s.ctxs.find? (fun x => x.ctxn == c.ctxn) = none := by
      rw [List.find?_eq_none]
      intro x hx hc
      exact h (List.any_eq_true.mpr ⟨x, hx, hc⟩)
    simp [List.find?_append, hn]

theorem State.ctx_ctxn (s : State) (n : Nat) : (s.ctx n).ctxn = n := by
  unfold State.ctx
  cases h : s.ctxs.find? (fun c => c.ctxn == n) with
  | none => rfl
  | some c => have := List.find?_some h; simpa using this

/-- The state once a record has been written at the next position of its ring, which lies in plain frames (R302). -/
def State.recorded (s : State) (c : Nat) (d : CtxDesc) (body : List Byte) : State :=
  let at' := d.fqbase + 64 * ((s.ctx c).fqseq % 2 ^ d.fqlog)
  let b := body ++ natLe 4 (s.ctx c).fqseq
  (({ s with mem := memSetN s.mem at' b, poison := s.poison.filter (fun a => a < at' || at' + b.length ≤ a) } : State).setCtx
    { s.ctx c with fqseq := (s.ctx c).fqseq + 1 }).msix (vfOfCtx c) 1

theorem State.writeRecord_plain (s : State) (c : Nat) (d : CtxDesc) (body : List Byte) (hd : (s.ctx c).desc = some d)
    (hb : d.fqbase % 4096 = 0) (hl : body.length = 60)
    (hp : s.isCmp (d.fqbase + 64 * ((s.ctx c).fqseq % 2 ^ d.fqlog)) = false) :
    s.writeRecord (s.ctx c) body = s.recorded c d body := by
  unfold State.writeRecord
  simp only [hd]
  rw [State.devStore_plain s _ _ _ hp (by intro h; simp [← List.length_eq_zero_iff, hl] at h) (by
    simp only [List.length_append, hl, length_natLe]; omega)]
  rw [State.ctx_ctxn s c]
  unfold State.recorded
  rfl

/-- The flags of a record (R300). -/
def Raise.flags (r : Raise) (t : Thread) (debug : Bool) : Nat :=
  (if r.resolvable || debug then 1 else 0) + (if t.hnd then 2 else 0)
      + (if t.tidx == 0xFFFF then 4 else 0) + (if t.away.isSome then 8 else 0) + (if debug then 16 else 0)

/-- A fault that no table or operand with an error has caused logs nothing. -/
theorem State.logFault_quiet (s : State) (core : Nat) (w : Workgroup) (r : Raise) (h : r.code ∉ [1, 2, 3, 0x0C]) :
    s.logFault core w r = s := by
  simp only [List.mem_cons, List.not_mem_nil, or_false, not_or] at h
  obtain ⟨h1, h2, h3, h4⟩ := h
  have hn : (decide (1 ≤ r.code.toNat) && decide (r.code.toNat ≤ 3)) = false := by
    rw [Bool.eq_false_iff]
    intro ha
    simp only [Bool.and_eq_true, decide_eq_true_eq] at ha
    have : r.code.toNat = 1 ∨ r.code.toNat = 2 ∨ r.code.toNat = 3 := by omega
    rcases this with e | e | e
    · exact h1 (BitVec.eq_of_toNat_eq e)
    · exact h2 (BitVec.eq_of_toNat_eq e)
    · exact h3 (BitVec.eq_of_toNat_eq e)
  have b1 : (r.code == 1) = false := by simpa using h1
  have b4 : (r.code == 0x0C) = false := by simpa using h4
  unfold State.logFault
  simp only [hn, b1, b4, Bool.false_and, Bool.false_eq_true, if_false]

/-- A fault of one thread whose context's queue has room: its record, then what becomes of the thread. -/
theorem State.raise_one (s : State) (core pkg : Nat) (insn : Word) (t : Thread) (w : Workgroup) (r : Raise)
    (ht : s.thread t.key = some t) (hw : s.wg t.wg = some w)
    (hi : (s.ctx w.ctxn).waiting = []) (hr : s.ringRoom (s.ctx w.ctxn) = true) (hq : s.logFault core w r = s) :
    let debug := (r.code == 0x11 || r.code == 0x12) && (s.ctx w.ctxn).debug
    let site := r.site.getD (t.pc, insn)
    let body := recordBody w t.tidx core pkg (r.flags t debug) site.1 site.2 r
    s.raise core pkg insn [t.key] r = (s.writeRecord (s.ctx w.ctxn) body).settleFault debug r body
      (some (BitVec.ofNat 32 (s.ctx w.ctxn).fqseq)) t.key := by
  have hw' : s.wg t.key.wg = some w := hw
  intro debug site body
  unfold State.raise
  simp only [List.head?_cons, Option.bind_some, ht, hw', List.foldl_cons, List.foldl_nil, hq]
  unfold State.postRecord
  simp only [hi, hr, List.isEmpty_nil, Bool.true_and, if_true]
  rfl

/-- Two states with the same threads, groups and workgroups. -/
def State.sameRuns (s s' : State) : Prop := s'.threads = s.threads ∧ s'.wgs = s.wgs ∧ s'.groups = s.groups

theorem State.sameRuns.trans {a b c : State} (h : a.sameRuns b) (h' : b.sameRuns c) : a.sameRuns c :=
  ⟨h'.1.trans h.1, h'.2.1.trans h.2.1, h'.2.2.trans h.2.2⟩

theorem State.sameRuns_healOp (s : State) (pa : Nat) (op : MemOp) : s.sameRuns (s.healOp pa op) := by
  unfold State.healOp
  generalize op.covers = l
  induction l generalizing s with
  | nil => exact ⟨rfl, rfl, rfl⟩
  | cons x l ih => exact State.sameRuns.trans (b := s.heal (pa + x.1) x.2) ⟨rfl, rfl, rfl⟩ (ih _)

theorem State.sameRuns_account (s : State) (vf die old new : Nat) : s.sameRuns (s.account vf die old new) := by
  unfold State.account
  simp only
  split <;> exact ⟨rfl, rfl, rfl⟩

theorem State.sameRuns_setBlock (s : State) (vf pa : Nat) (op : MemOp) (w : Word) (g : List Byte) :
    s.sameRuns (s.setBlock vf pa op w g) := by
  have h : s.sameRuns (if op.isRaw then s.writeBack (pa / 1024) else s.keepImage (pa / 1024)) := by
    split
    · exact ⟨rfl, rfl, rfl⟩
    · unfold State.keepImage; split <;> exact ⟨rfl, rfl, rfl⟩
  unfold State.setBlock
  simp only
  generalize (if op.isRaw then s.writeBack (pa / 1024) else s.keepImage (pa / 1024)) = x at h
  refine State.sameRuns.trans (b := (x.account vf (homeDie pa) (metaNg (x.metaOf (pa / 1024))) (metaNg w)).putBlock (pa / 1024) w g)
    ?_ (State.sameRuns_healOp _ pa op)
  exact State.sameRuns.trans (h.trans (State.sameRuns_account x vf (homeDie pa) _ _)) ⟨rfl, rfl, rfl⟩

/-- What a write leaves of the threads, groups and workgroups. -/
def WriteRes.sameRuns (s : State) : WriteRes → Prop
  | .done s' _ => s.sameRuns s'
  | .bad s' => s.sameRuns s'
  | .needs _ => True

/-- A write to physical memory changes no thread, group or workgroup. -/
theorem State.physWrite_keeps (s : State) (vf pa : Nat) (op : MemOp) (now : Bool) :
    (s.physWrite vf pa op now).sameRuns s := by
  unfold State.physWrite
  split
  · unfold State.cmpWrite
    split
    · exact ⟨rfl, rfl, rfl⟩
    · split
      · exact ⟨rfl, rfl, rfl⟩
      · simp only
        split
        · exact ⟨rfl, rfl, rfl⟩
        · split
          · exact State.sameRuns_setBlock _ _ _ _ _ _
          · trivial
  · unfold State.plainWrite
    split
    · exact ⟨rfl, rfl, rfl⟩
    · split
      · exact ⟨rfl, rfl, rfl⟩
      · simp only
        split
        · exact State.sameRuns_healOp _ _ _
        · exact ⟨rfl, rfl, rfl⟩

theorem State.devPiece_keeps (s : State) (vf pa : Nat) (d : List Byte) : s.sameRuns (s.devPiece vf pa d).1 := by
  unfold State.devPiece
  simp only
  split
  · exact ⟨rfl, rfl, rfl⟩
  · have h := State.physWrite_keeps s (((s.frameOf pa).map (·.vf)).getD vf) pa (.store d)
      (!s.waitsOn (((s.frameOf pa).map (·.vf)).getD vf) (homeDie pa))
    split
    · rename_i x e; rw [e] at h; exact h
    · rename_i x e; rw [e] at h; exact h
    · exact ⟨rfl, rfl, rfl⟩

theorem State.quietStore_keeps (s : State) (vf pa : Nat) (d : List Byte) : s.sameRuns (s.quietStore vf pa d) := by
  unfold State.quietStore
  generalize blockPieces _ pa d = l
  induction l generalizing s with
  | nil => exact ⟨rfl, rfl, rfl⟩
  | cons x l ih => exact (State.devPiece_keeps s vf x.1 x.2).trans (ih _)

theorem State.putHost_keeps (s : State) (x : Nat × Option Nat) (pa : Nat) (b : List Byte) : s.sameRuns (s.putHost x pa b) := by
  unfold State.putHost
  split
  · exact ⟨rfl, rfl, rfl⟩
  · have key : ∀ (l : List Nat) (y : State), s.sameRuns y → s.sameRuns (l.foldl (fun s i =>
        { s.eccClear .host (s.hostPa x (pa + i)) 1 with hostMem := memSet s.hostMem (s.hostPa x (pa + i)) (b.getD i 0) }) y) := by
      intro l
      induction l with
      | nil => intro y h; exact h
      | cons i l ih => intro y h; exact ih _ (h.trans ⟨rfl, rfl, rfl⟩)
    exact key _ s ⟨rfl, rfl, rfl⟩

theorem State.sameRuns_told {s y : State} (h : s.sameRuns y) (m : Mgmt) (v n : Nat) :
    s.sameRuns (({ y with mgmt := m } : State).msix v n) := h.trans ⟨rfl, rfl, rfl⟩

/-- Writing an event log entry changes no thread, group or workgroup. -/
theorem State.writeLog_keeps (s : State) (c d v : Nat) (l : List Nat) : s.sameRuns (s.writeLog c d v l) := by
  unfold State.writeLog
  simp only
  have ht : s.sameRuns (s.tickDie d) := ⟨rfl, rfl, rfl⟩
  refine State.sameRuns_told ?_ _ _ _
  split
  · exact ht.trans (State.putHost_keeps _ _ _ _)
  · exact ht.trans (State.quietStore_keeps _ _ _ _)

/-- Nor does logging an event. -/
theorem State.logEvent_keeps (s : State) (c d v : Nat) (l : List Nat) : s.sameRuns (s.logEvent c d v l) := by
  have h : s.sameRuns s.logDropped := by
    unfold State.logDropped
    split
    · exact State.sameRuns.trans (b := { s with mgmt := { s.mgmt with dropped := 0 } }) ⟨rfl, rfl, rfl⟩
        (State.writeLog_keeps _ _ _ _ _)
    · exact ⟨rfl, rfl, rfl⟩
  unfold State.logEvent
  simp only
  split
  · exact h.trans (State.writeLog_keeps _ _ _ _ _)
  · exact h.trans ⟨rfl, rfl, rfl⟩

theorem State.logBad_keeps (s : State) (vf pa : Nat) : s.sameRuns (s.logBad vf pa) := by
  unfold State.logBad
  split <;> exact State.logEvent_keeps _ _ _ _ _

theorem State.devStore_keeps (s : State) (vf pa : Nat) (d : List Byte) : s.sameRuns (s.devStore vf pa d) := by
  unfold State.devStore
  generalize blockPieces _ pa d = l
  induction l generalizing s with
  | nil => exact ⟨rfl, rfl, rfl⟩
  | cons x l ih =>
    rw [List.foldl_cons]
    refine State.sameRuns.trans ?_ (ih _)
    simp only
    split
    · exact (State.devPiece_keeps s vf x.1 x.2).trans (State.logBad_keeps _ _ _)
    · exact State.devPiece_keeps s vf x.1 x.2

/-- Posting a record changes no thread, group, bin or workgroup. -/
theorem State.writeRecord_keeps (s : State) (c : Context) (body : List Byte) : s.sameRuns (s.writeRecord c body) := by
  unfold State.writeRecord
  split
  · exact ⟨rfl, rfl, rfl⟩
  · rename_i d _
    exact State.sameRuns.trans (State.devStore_keeps s _ _ _) ⟨rfl, rfl, rfl⟩

/-! ## Numbers as bytes -/

theorem leNat_natLe (n x : Nat) : leNat (natLe n x) = x % 256 ^ n := by
  induction n generalizing x with
  | zero => simp [natLe, leNat, Nat.mod_one]
  | succ n ih =>
    have h : (BitVec.ofNat 8 x).toNat = x % 256 := rfl
    rw [natLe, leNat, ih, h, Nat.pow_succ, Nat.mul_comm (256 ^ n) 256, Nat.mod_mul]

/-- Word 0 of the instruction stands at 0x18 of a record (R300). -/
theorem field_recordBody_insn (w : Workgroup) (tidx core pkg flags : Nat) (pc : Dword) (insn : Word) (r : Raise) :
    BitVec.ofNat 32 (field (recordBody w tidx core pkg flags pc insn r) 0x18 4) = insn := by
  have h : ((recordBody w tidx core pkg flags pc insn r).drop 0x18).take 4 = natLe 4 insn.toNat := by
    simp [recordBody, natLe]
  unfold field
  rw [h, leNat_natLe]
  apply BitVec.eq_of_toNat_eq
  have := insn.isLt
  simp
  omega

/-! ## Entering the handler -/

/-- What a record leaves of the threads and workgroups. -/
theorem State.thread_writeRecord (s : State) (c : Context) (b : List Byte) (k : Key) :
    (s.writeRecord c b).thread k = s.thread k := by
  unfold State.thread; rw [(State.writeRecord_keeps s c b).1]

theorem State.wg_writeRecord (s : State) (c : Context) (b : List Byte) (n : Nat) :
    (s.writeRecord c b).wg n = s.wg n := by
  unfold State.wg; rw [(State.writeRecord_keeps s c b).2.1]

/-- A trapping fault of a thread that can enter its handler: the record is written, and the thread is filed at its
handler (R304); a guest's stores are performed first, since it goes home (R236, R375). -/
theorem State.raise_enter (s : State) (core pkg : Nat) (insn : Word) (t : Thread) (w : Workgroup) (r : Raise)
    (ht : s.thread t.key = some t) (hw : s.wg t.wg = some w)
    (hi : (s.ctx w.ctxn).waiting = []) (hr : s.ringRoom (s.ctx w.ctxn) = true)
    (hf : w.foreign = none) (h1 : t.tidx ≠ 0xFFFF) (h2 : t.hnd = false) (h3 : t.trapvec ≠ 0 ∧ bits t.trapvec 1 0 = 0)
    (hres : r.resolvable = false) (hdbg : ((r.code == 0x11 || r.code == 0x12) && (s.ctx w.ctxn).debug) = false)
    (hs : r.site = none) (hq : s.logFault core w r = s) :
    let body := recordBody w t.tidx core pkg (if t.away.isSome then 8 else 0) t.pc insn r
    let x := s.writeRecord (s.ctx w.ctxn) body
    s.raise core pkg insn [t.key] r = (if t.away.isSome then x.release (x.coreOf t) t.key else x).fileThread
      { t with pc := t.trapvec, epc := r.epc.getD t.pc
               trapcause := (r.arg.setWidth 64 <<< 16) ||| r.code.setWidth 64, hnd := true
               frec := latchOf body (BitVec.ofNat 32 (s.ctx w.ctxn).fqseq)
               away := none, hops := 0, insn, seen := none } 0 := by
  intro body x
  have hfl : r.flags t false = (if t.away.isSome then 8 else 0) := by
    simp [Raise.flags, hres, h2, h1]
  have h := State.raise_one s core pkg insn t w r ht hw hi hr hq
  simp only [hdbg, hs, Option.getD_none, hfl] at h
  rw [h]
  have hw' : s.wg t.key.wg = some w := hw
  have hin : BitVec.ofNat 32 (field (recordBody w t.tidx core pkg (if t.away.isSome then 8 else 0) t.pc insn r) 24 4) = insn :=
    field_recordBody_insn _ _ _ _ _ _ _ _
  unfold State.settleFault
  simp only [State.thread_writeRecord, State.wg_writeRecord, ht, hw', hres, hin, Bool.false_eq_true, if_false]
  unfold State.deliver Thread.enter Thread.atHome
  simp only [hf, Option.isSome_none, Bool.false_eq_true, if_false, h1, h2, h3.1, h3.2, beq_iff_eq, Bool.or_eq_true,
    bne_iff_ne, ne_eq, not_true, or_false]
  rfl

end Sys2Proof.Machine
end

