-- ==== Sys2Proof/Tests/Slice0.lean ====
section
/-! SUPPORT. Tests: a witness for the hypotheses of every statement, one decoded word of every instruction, an ill-formed term
for every check, and results of the manual's worked examples. -/

namespace Sys2Proof.Tests

open Sys2Proof Machine Certificates

set_option maxRecDepth 20000

set_option Elab.async false

/-! ## Small machines -/

/-- The machine with this workgroup and these threads on core 0, the first of them at execution. -/
def world (ts : List Thread) (w : Workgroup) : State :=
  { State.reset.placeInsn 32 0 with
    threads := ts, wgs := [w], groups := [], cur := { id := 2, core := 0, pkg := 0, keys := (ts.take 1).map (·.key), insn := 0 } }

/-- A thread, a workgroup, and the machine of that thread alone. -/
def t0 : Thread := { bootThread with pc := 0x30000 }
def w0 : Workgroup := bootWg
def lone (t : Thread) (w : Workgroup) : State := world [t] w
def s0 : State := lone t0 w0

/-- Forms: base, literal, and extended with word 1 zero but for C and the guard. -/
def fB : Form := ⟨.base, none⟩
def fL (l : Dword) : Form := ⟨.base, some l⟩
def w1 (c : Reg) : Word1 := ⟨0, 0, 0, false, false, false, false, false, false, false, false, c, false, false, 15⟩
def fX (c : Reg) : Form := ⟨.ext (w1 c), none⟩
def v3 (d a b : Reg) : V3 := ⟨d, a, b, false, fB⟩
def v3x (d a b c : Reg) : V3 := ⟨d, a, b, false, fX c⟩

/-- The conditions of `Alone` and of `Runs`, as checks. -/
def readyB (i : Instr) (t : Thread) (w : Workgroup) : Bool :=
  decide (t.wg = w.id) && !w.sstepEn && t.guard i.form && i.step8 w t
    && (t.away.isNone || !(i.opc.map Opc.homeFirst).getD false)

theorem alone_of_ready {i : Instr} {s : State} {t : Thread} {w : Workgroup} (hk : s.cur.keys = [t.key])
    (ht : s.thread t.key = some t) (hw : s.wg t.wg = some w) (h : readyB i t w = true)
    (hj : s.joins = [] := by rfl) : i.Alone s t w := by
  simp only [readyB, Bool.and_eq_true, Bool.or_eq_true, Bool.not_eq_true', Option.isNone_iff_eq_none,
    decide_eq_true_eq] at h
  exact ⟨hk, by rw [hj]; simp, ht, hw, by simp [State.steps, h.1.1.1.2], h.1.1.2, h.1.2, h.2⟩

theorem alone_lone {i : Instr} {t : Thread} {w : Workgroup} (h : readyB i t w = true) : i.Alone (lone t w) t w := by
  have hw : t.wg = w.id := by
    simp only [readyB, Bool.and_eq_true, decide_eq_true_eq] at h
    exact h.1.1.1.1
  exact alone_of_ready rfl (by simp [lone, world, State.thread]) (by simp [lone, world, State.wg, hw]) h

theorem runs_of_alone {i : Instr} {s : State} {t : Thread} {w : Workgroup} (h : i.Alone s t w) : i.Runs s := by
  refine ⟨by rw [h.keys]; simp, fun j hj k hk => ?_, fun k hk => ?_⟩
  · rw [h.keys, List.mem_singleton] at hk
    exact hk ▸ h.joins j hj
  rw [h.keys, List.mem_singleton] at hk
  subst hk
  exact ⟨t, w, h.thread, h.wg, h.steps, fun _ => ⟨h.step8, h.home⟩⟩

/-! ## Witnesses: what the hypotheses of the statements allow -/

/-- A thread whose registers hold their own numbers, and predicates p1 and p3. -/
def tn : Thread := { t0 with v := Vector.ofFn (fun i => BitVec.ofNat 32 i.val), p := 0x000A }
def sn : State := lone tn w0

/-- ADD with CLAMP 0x3, guarded by !p2, and a group in which one thread's guard is false. -/
def fSat : Form := ⟨.ext { w1 0 with clamp := 3, gn := true, gp := 2 }, none⟩
def addSat : Instr := .add ⟨1, 2, 3, false, fSat⟩
theorem wit_IntegerResults : addSat.Runs sn := runs_of_alone (alone_lone (by decide))

def tn' : Thread := { tn with tidx := 1, p := 0x0004 }
def two : State := { world [tn, tn'] w0 with cur := { id := 2, core := 0, pkg := 0, keys := [tn.key, tn'.key], insn := 0 } }
theorem wit_IntegerResults_group : addSat.Runs two :=
  ⟨by decide, (by intro j h; cases h), by
    intro k hk
    rcases List.mem_cons.1 hk with rfl | hk
    · exact ⟨tn, w0, by rfl, by rfl, by rfl, fun _ => ⟨by decide, .inl rfl⟩⟩
    · rw [List.mem_singleton.1 hk]
      exact ⟨tn', w0, by rfl, by rfl, by rfl, fun h => absurd h (by decide)⟩⟩

theorem wit_CarriesAndFields : (Instr.addc (v3x 1 2 3 0) ⟨false, 2, 1⟩).Runs sn ∧ (Instr.shl (v3 1 2 3)).Runs sn :=
  ⟨runs_of_alone (alone_lone (by decide)), runs_of_alone (alone_lone (by decide))⟩

theorem wit_PredicatesAndSelects : (Instr.cmp ⟨4, 5, 1, 2, false, fB⟩).Runs sn ∧ (5 : BitVec 3).toNat ≤ 5
    ∧ (Instr.sel (v3x 1 2 3 0) true 4).Runs sn ∧ (Instr.plop 6 2 1 3 fB).Runs sn ∧ (Instr.vtop (v3 0 1 2)).Runs sn :=
  ⟨runs_of_alone (alone_lone (by decide)), by decide, runs_of_alone (alone_lone (by decide)),
    runs_of_alone (alone_lone (by decide)), runs_of_alone (alone_lone (by decide))⟩

/-- A workgroup in deterministic mode. -/
def wd : Workgroup := { w0 with kernel := { w0.kernel with det := true } }

theorem wit_SpecialValues : (Instr.sread ⟨13, 0, 3, fB⟩ false).Runs sn ∧ w0.kernel.det = false
    ∧ (Instr.sread ⟨14, 0, 3, fB⟩ false).Runs (lone tn wd) ∧ ¬ (9 ≤ (14 : Byte).toNat ∧ (14 : Byte).toNat ≤ 13)
    ∧ (Instr.rng (v3 8 4 2)).Runs sn ∧ (Instr.cyc (v3 8 0 0)).Runs sn :=
  ⟨runs_of_alone (alone_lone (by decide)), rfl, runs_of_alone (alone_lone (by decide)), by decide,
    runs_of_alone (alone_lone (by decide)), runs_of_alone (alone_lone (by decide))⟩

/-- Rounding mode SR in word 1. -/
def fSr : Form := ⟨.ext { w1 4 with rm := 5 }, none⟩
theorem wit_FloatArithmetic : (Instr.ffma ⟨1, 2, 3, false, fSr⟩).Runs sn ∧ (Instr.dfma ⟨8, 2, 4, false, fSr⟩).Runs sn :=
  ⟨runs_of_alone (alone_lone (by decide)), runs_of_alone (alone_lone (by decide))⟩

theorem wit_Fp32Selection : (Instr.fmin (v3 1 2 3)).Runs sn ∧ (Instr.fclass (v3 1 2 0)).Runs sn
    ∧ (Instr.fcmp ⟨1, 7, 2, 3, false, fB⟩).Runs sn :=
  ⟨runs_of_alone (alone_lone (by decide)), runs_of_alone (alone_lone (by decide)), runs_of_alone (alone_lone (by decide))⟩

theorem wit_Conversions : (Instr.fcvt ⟨0x20, 7, 3, fB⟩).wf = true ∧ (Instr.fcvt ⟨0x20, 7, 3, fB⟩).Runs sn
    ∧ (Instr.dcvt ⟨0x87, 2, 4, fB⟩).wf = true ∧ (Instr.dcvt ⟨0x87, 2, 4, fB⟩).Runs sn :=
  ⟨by decide, runs_of_alone (alone_lone (by decide)), by decide, runs_of_alone (alone_lone (by decide))⟩

theorem wit_SpecialFunctions : (Instr.fsf ⟨6, 9, 2, fB⟩).Runs sn ∧ (6 : Nat) ≤ 6 ∧ (1 : Nat) ≠ 0 :=
  ⟨runs_of_alone (alone_lone (by decide)), by decide, by decide⟩

theorem wit_PackedPairs : (Instr.hfma2 ⟨1, 2, 3, false, fSr⟩ true).Runs sn ∧ (Instr.unpk2 ⟨3, 6, 6, fB⟩).Runs sn :=
  ⟨runs_of_alone (alone_lone (by decide)), runs_of_alone (alone_lone (by decide))⟩

/-- A PFX with RM 0x2 before FSCL v8, v9, k2; and one before a BRA, which R87 refuses. -/
def p2 : Prefix := ⟨false, 0, 2, false, false, 15⟩
theorem wit_PrefixedPair : prefixedInstr p2 (((Instr.fscl ⟨8, 9, 2, true, fB⟩) |> encode).headD 0) none
      = some (.fscl ⟨8, 9, 2, true, ⟨.pfx p2, none⟩⟩)
    ∧ prefixedInstr p2 ((encode (.bra 2 fB)).headD 0) none = none := ⟨by rfl, by rfl⟩

/-- k6 holds a target, and a thread of the call tests holds a target and a return address. -/
def tc (win : List Dword) : Thread := { tn with win, stkbase := 0x50000, stklim := 0x50010, stktop := 0x50000 }
theorem wit_Branches : (Instr.bra 0x3FFFFF ⟨.ext { w1 0 with gp := 1 }, none⟩).Runs sn
    ∧ (Instr.jmpr ⟨0, 0, 0, false, fL 0x4000⟩).Runs sn ∧ bits ((⟨0, 0, 0, false, fL 0x4000⟩ : V3).srcB64 w0 tn) 1 0 = 0
    ∧ (Instr.brp 2 true 2).Runs sn ∧ (Instr.kbra 2 true 5).Runs sn ∧ Instr.nop.Runs sn :=
  ⟨runs_of_alone (alone_lone (by decide)), runs_of_alone (alone_lone (by decide)), by decide,
    runs_of_alone (alone_lone (by decide)), runs_of_alone (alone_lone (by decide)), runs_of_alone (alone_lone (by decide))⟩

def near3 : Thread := tc [0x100, 0x200, 0x300]
def full4 : Thread := tc [0x100, 0x200, 0x300, 0x400]
theorem wit_CallsAndReturns_window : (Instr.call 4 fB).Runs (lone near3 w0) ∧ near3.win.length < 4
    ∧ (Instr.callr ⟨0, 0, 0, false, fL 0x4000⟩).Runs (lone near3 w0)
    ∧ (Instr.ret fB).Runs (lone near3 w0) ∧ near3.win.getLast? = some 0x300 ∧ bits (0x300 : Dword) 1 0 = 0 :=
  ⟨runs_of_alone (alone_lone (by decide)), by decide, runs_of_alone (alone_lone (by decide)),
    runs_of_alone (alone_lone (by decide)), by decide, by decide⟩

/-- Every byte of main memory of the tests lies in a plain frame, with all links up and nothing held. -/
theorem sound_lone (t : Thread) (w : Workgroup) (pa n : Nat) (hd : (lone t w).reaches (dieOf ((lone t w).coreOf t)) (homeDie pa) = true)
    (hp : (lone t w).isCmp pa = false) : Sound (lone t w) t pa n :=
  ⟨hp, (by intro a h; cases h), (by intro a h; cases h), hd, (by intro a h; cases h), (by intro a h; cases h)⟩

/-- An operand that passes its checks, at an access made for the first time. -/
theorem landsAt {s : State} {f : MemForm} {unit : Nat} {w : Workgroup} {t : Thread} {k : AccessKind} {l : Loc} {ord : Bool}
    (hr : s.replies = [])
    (h : s.checkEa w (atCore (s.coreOf t)) k (memBase f w t) (addressOf f unit w t) = .ok ⟨l, ord⟩) : LandsAt s f unit w t k l ord :=
  ⟨by rw [Unanswered, hr]; simp, h⟩
theorem lands {s : State} {f : MemForm} {unit : Nat} {w : Workgroup} {t : Thread} {k : AccessKind} {l : Loc} (hr : s.replies = [])
    (h : s.checkEa w (atCore (s.coreOf t)) k (memBase f w t) (addressOf f unit w t) = .ok ⟨l, false⟩) : Lands s f unit w t k l :=
  ⟨false, landsAt hr h⟩

/-- No store waits in these machines. -/
theorem drained {s : State} (t : Thread) (h : s.queue = []) : Drained s t := by rw [Drained, h]; simp

theorem wit_CallsAndReturns_spill : (Instr.call 4 fB).Alone (lone full4 w0) full4 w0 ∧ full4.win.length = 4
    ∧ full4.stkbase.toNat ≤ full4.stktop.toNat ∧ full4.stktop.toNat + 8 ≤ full4.stklim.toNat ∧ (lone full4 w0).mem.wf = true
    ∧ (lone full4 w0).checkEa w0 (atCore ((lone full4 w0).coreOf full4)) { n := 8, align := 8, paths := [0], write := true }
        full4.stktop full4.stktop = .ok ⟨.main 0x50000, false⟩
    ∧ Sound (lone full4 w0) full4 0x50000 8 :=
  ⟨alone_lone (by decide), by decide, by decide, by decide, by decide, by rfl, sound_lone _ _ _ _ (by decide) (by decide)⟩

def high4 : Thread := { full4 with stktop := 0x50009 }
theorem wit_CallsAndReturns_above : (Instr.callr ⟨0, 0, 0, false, fL 0x4000⟩).Alone (lone high4 w0) high4 w0 ∧ high4.win.length = 4
    ∧ high4.stklim.toNat < high4.stktop.toNat + 8 := ⟨alone_lone (by decide), by decide, by decide⟩

def none0 : Thread := { tc [] with stktop := 0x50008 }
theorem wit_CallsAndReturns_refill : (Instr.ret fB).Alone (lone none0 w0) none0 w0 ∧ none0.win = []
    ∧ none0.stkbase.toNat + 8 ≤ none0.stktop.toNat ∧ none0.stktop.toNat ≤ none0.stklim.toNat
    ∧ (lone none0 w0).checkEa w0 (atCore ((lone none0 w0).coreOf none0)) { n := 8, align := 8, paths := [0] }
        (none0.stktop - 8) (none0.stktop - 8) = .ok ⟨.main 0x50000, false⟩
    ∧ Sound (lone none0 w0) none0 0x50000 8 ∧ bits (BitVec.ofNat 64 (leNat (memGetN (lone none0 w0).mem 0x50000 8))) 1 0 = 0 :=
  ⟨alone_lone (by decide), by decide, by decide, by decide, by rfl, sound_lone _ _ _ _ (by decide) (by decide), by decide⟩

theorem wit_CallsAndReturns_below : (Instr.ret fB).Alone (lone (tc []) w0) (tc []) w0 ∧ (tc []).win = []
    ∧ (tc []).stktop.toNat < (tc []).stkbase.toNat + 8 := ⟨alone_lone (by decide), by decide, by decide⟩

/-! Filing: a bin with room for more, one that becomes full, no bin with room, and no free bin. -/

def binOf (n : Nat) : Bin := { id := 9, core := 0, wg := 1, pc := 0x30000, threads := (List.range n).map (fun i => ⟨1, 100 + i⟩), tag := 0 }
def findBin (s : State) (t : Thread) : Option Bin :=
  s.bins.find? (fun b => b.core == s.coreOf t && b.wg == t.wg && b.pc == t.pc && decide (b.threads.length < 32))
def fullBins : List Bin := (List.range 64).map (fun i => { binOf 0 with id := 10 + i, pc := 0x40000 + BitVec.ofNat 64 (4 * i) })

theorem wit_FiledThreads_filing : t0.tidx ≠ 0xFFFF ∧ (s0.thread t0.key).isSome = true
    ∧ findBin { s0 with bins := [binOf 30] } t0 = some (binOf 30) ∧ (binOf 30).threads.length < 31
    ∧ findBin { s0 with bins := [binOf 31] } t0 = some (binOf 31) ∧ (binOf 31).threads.length = 31
    ∧ findBin s0 t0 = none ∧ (s0.bins.filter (fun b => b.core == s0.coreOf t0)).length < 64
    ∧ findBin { s0 with bins := fullBins } t0 = none
    ∧ 64 ≤ (fullBins.filter (fun b => b.core == ({ s0 with bins := fullBins } : State).coreOf t0)).length :=
  ⟨by decide, by decide, by decide, by decide, by decide, by decide, by decide, by decide, by decide, by decide⟩

def trapped (epc : Dword) : Thread := { t0 with hnd := true, epc, tag := 3 }
theorem wit_FiledThreads_instructions : (Instr.reform 3).Alone (lone (trapped 0) w0) (trapped 0) w0
    ∧ (Instr.yield 200 fB).Alone s0 t0 w0 ∧ (Instr.exit fB).Alone s0 t0 w0 ∧ s0.bars = []
    ∧ (∀ u ∈ s0.threads, u.tidx ≠ 0xFFFF ∧ u.teamWait = none ∧ u.roleTarget = none)
    ∧ Instr.eret.Alone (lone (trapped 0x30000) w0) (trapped 0x30000) w0 ∧ bits (trapped 0x30000).epc 1 0 = 0
    ∧ Instr.eret.Alone s0 t0 w0 ∧ t0.hnd = false
    ∧ Instr.eret.Alone (lone (trapped 0x30001) w0) (trapped 0x30001) w0 ∧ bits (trapped 0x30001).epc 1 0 ≠ 0 :=
  ⟨alone_lone (by decide), alone_lone (by decide), alone_lone (by decide), by rfl, by decide, alone_lone (by decide), by decide,
    alone_lone (by decide), by decide, alone_lone (by decide), by decide⟩

/-! Traps. -/

def tv : Thread := { t0 with trapvec := 0x30080 }
theorem wit_TakenTraps_can : CanTrap (lone tv w0) tv w0 bootDesc :=
  ⟨by rfl, by rfl, by rfl, by decide, by rfl, fun h => absurd rfl h, by decide, by rfl, by rfl, by rfl, by decide, by decide, by decide⟩
theorem wit_TakenTraps : (Instr.trap 0x42 fB).Alone (lone tv w0) tv w0 ∧ (Instr.brk 7 fB).Alone (lone tv w0) tv w0
    ∧ ((lone tv w0).ctx w0.ctxn).debug = false ∧ (lone tv w0).cur.keys = [tv.key] :=
  ⟨alone_lone (by decide), alone_lone (by decide), by rfl, by rfl⟩
theorem wit_TakenTraps_sysc : (Instr.sysc ⟨3, 4, 0, fB⟩).Alone s0 t0 w0 ∧ (s0.ctx w0.ctxn).desc = some bootDesc
    ∧ (s0.ctx w0.ctxn).waiting = [] ∧ s0.ringRoom (s0.ctx w0.ctxn) = true := ⟨alone_lone (by decide), by rfl, by rfl, by rfl⟩

def inHandler : Thread := { tv with hnd := true }
theorem wit_HandlerlessFaults : (lone inHandler w0).thread inHandler.key = some inHandler ∧ (lone inHandler w0).wg inHandler.wg = some w0
    ∧ w0.foreign = none ∧ ((lone inHandler w0).ctx w0.ctxn).desc = some bootDesc ∧ ((lone inHandler w0).ctx w0.ctxn).waiting = []
    ∧ (lone inHandler w0).ringRoom ((lone inHandler w0).ctx w0.ctxn) = true ∧ (trapOf 0x07).resolvable = false
    ∧ (trapOf 0x07).code ≠ 0x11 ∧ (trapOf 0x07).code ≠ 0x12 ∧ inHandler.hnd = true
    ∧ t0.trapvec = 0 ∧ bits ({ t0 with trapvec := 2 } : Thread).trapvec 1 0 ≠ 0 :=
  ⟨by rfl, by rfl, by rfl, by rfl, by rfl, by rfl, by decide, by decide, by decide, by rfl, by rfl, by decide⟩

def waitingRecord : Record := { body := List.replicate 60 7, keys := [tv.key] }
def waitPark : Park := { kind := .trap, fault := trapOf 0x07, body := List.replicate 60 7, seq := none }
def tw : Thread := { tv with status := .parked waitPark }
def sw : State := (lone tw w0).setCtx { (lone tw w0).ctx 0 with waiting := [waitingRecord] }
theorem wit_HandlerlessFaults_waited : sw.thread tw.key = some tw ∧ sw.wg tw.wg = some w0 ∧ (sw.ctx w0.ctxn).ctxn = w0.ctxn
    ∧ (sw.ctx w0.ctxn).desc = some bootDesc ∧ (sw.ctx w0.ctxn).waiting = [waitingRecord] ∧ sw.ringRoom (sw.ctx w0.ctxn) = true
    ∧ waitingRecord.keys = [tw.key] ∧ waitingRecord.body.length = 60 ∧ tw.status = .parked waitPark ∧ waitPark.kind = .trap
    ∧ waitPark.seq = none ∧ tw.tidx ≠ 0xFFFF ∧ tw.hnd = false ∧ tw.trapvec ≠ 0 ∧ bits tw.trapvec 1 0 = 0
    ∧ bootDesc.fqbase % 4096 = 0 ∧ sw.isCmp (bootDesc.fqbase + 64 * ((sw.ctx w0.ctxn).fqseq % 2 ^ bootDesc.fqlog)) = false
    ∧ sw.mem.wf = true :=
  ⟨by rfl, by rfl, by rfl, by rfl, by rfl, by rfl, by rfl, by decide, by rfl, by rfl, by rfl, by decide, by rfl, by decide, by decide,
    by decide, by decide, by decide⟩

/-! ROLE: the largest role that the kernel declares, and one that it does not. -/

theorem wit_RoleChange : (Instr.role true 0 1).Alone s0 t0 w0 ∧ (0 : BitVec 2).toNat < w0.kernel.nroles ∧ t0.tidx ≠ 0xFFFF
    ∧ (s0.threads.map Thread.key).Nodup
    ∧ (∀ u ∈ s0.threads, u.wg = t0.wg → u.tidx ≠ 0xFFFF → u.status ≠ .exited → u.key = t0.key)
    ∧ (∀ u ∈ s0.threads, u.roleTarget = none) ∧ (∀ g ∈ s0.grows, g.wg ≠ w0.id) ∧ t0.away = none
    ∧ w0.roleRegs (0 : BitVec 2).toNat ≤ w0.allot
    ∧ (Instr.role true 1 1).Alone s0 t0 w0 ∧ w0.kernel.nroles ≤ (1 : BitVec 2).toNat :=
  ⟨alone_lone (by decide), by decide, by decide, by decide, by decide, by decide, by decide, by rfl, by decide,
    alone_lone (by decide), by decide⟩

/-! Uniform instructions: a group without and with a guard-true thread; KLD of a sign-extended byte and KST of a doubleword. -/

def kn : Workgroup := { w0 with k := Vector.ofFn (fun i => BitVec.ofNat 64 (0x50000 + 8 * i.val)) }
def uni (fn : BitVec 4) (fm : Form) : Uniform := ⟨fn, 3, 2, 1, fm⟩
def fNever : Form := ⟨.ext { w1 0 with gp := 0 }, none⟩

theorem wit_UniformInstructions : (Instr.kcmp (uni 9 fB)).Runs (lone t0 kn) ∧ (9 : BitVec 4).toNat ≤ 9
    ∧ (lone t0 kn).leader fB = some t0.key ∧ (lone t0 kn).thread t0.key = some t0 ∧ (lone t0 kn).wg t0.key.wg = some kn
    ∧ (∀ j ∈ (lone t0 kn).cur.keys, j.wg = t0.key.wg)
    ∧ (Instr.kadd (uni 0 fNever)).Runs (lone t0 kn) ∧ (lone t0 kn).leader fNever = none
    ∧ (Instr.kmov ⟨1, 13, 0, 1, fB⟩).Runs (lone t0 kn) ∧ kn.kernel.det = false
    ∧ (Instr.kmov ⟨1, 14, 0, 1, fB⟩).Runs (lone t0 wd) ∧ ¬ (9 ≤ (14 : BitVec 6).toNat ∧ (14 : BitVec 6).toNat ≤ 13)
    ∧ (2 : BitVec 4).toNat ≤ 2 ∧ (7 : BitVec 4).toNat ≤ 7 ∧ (1 : BitVec 4).toNat ≤ 1 :=
  ⟨runs_of_alone (alone_lone (by decide)), by decide, by decide, by rfl, by rfl, by decide,
    ⟨by decide, (by intro j h; cases h), by
      intro k hk
      rw [List.mem_singleton.1 hk]
      exact ⟨t0, kn, by rfl, by rfl, by rfl, fun h => absurd h (by decide)⟩⟩, by decide,
    runs_of_alone (alone_lone (by decide)), rfl, runs_of_alone (alone_lone (by decide)), by decide, by decide, by decide, by decide⟩

def kld1 : Uniform := uni 4 (fL 0xFF)
def kst8 : Uniform := uni 3 (fL 0x8)
theorem wit_UniformInstructions_memory : (Instr.kld kld1).Alone (lone t0 kn) t0 kn ∧ t0.status = .ready ∧ kld1.fn.toNat ≤ 6
    ∧ (lone t0 kn).checkEa kn (atCore ((lone t0 kn).coreOf t0)) { n := 1, align := 1, paths := [0, 1, 2, 3], ordOk := false }
        0x50010 0x5010F = .ok ⟨.main 0x5010F, false⟩
    ∧ Sound (lone t0 kn) t0 0x5010F 1
    ∧ (Instr.kst kst8).Alone (lone t0 kn) t0 kn ∧ (lone t0 kn).mem.wf = true
    ∧ (lone t0 kn).checkEa kn (atCore ((lone t0 kn).coreOf t0))
        { n := 8, align := 8, paths := [0, 2], write := true, strict := true, ordOk := true } 0x50010 0x50018 = .ok ⟨.main 0x50018, false⟩
    ∧ Sound (lone t0 kn) t0 0x50018 8 :=
  ⟨alone_lone (by decide), by rfl, by decide, by rfl, sound_lone _ _ _ _ (by decide) (by decide), alone_lone (by decide), by decide,
    by rfl, sound_lone _ _ _ _ (by decide) (by decide)⟩

/-! Cross-thread instructions: thread 0 has arrived, thread 1 is the last awaited. -/

def maskReg : Thread := { tn with v := tn.v.set 6 3 }
def teamOf (i : Instr) : State :=
  let t1 : Thread := { maskReg with tidx := 1 }
  let a := { maskReg with status := .blocked (.team i 3 true) }
  { world [a, t1] w0 with cur := { id := 2, core := 0, pkg := 0, keys := [t1.key], insn := 0 } }
def last : Thread := { maskReg with tidx := 1 }

def teamB (i : Instr) : Bool :=
  let s := teamOf i
  let t := last
  let m := teamMask w0 t i
  let here := { t with status := .blocked (.team i m true), insn := s.cur.insn }
  let all := (s.setThread here).teamArrived t.wg (t.tidx / 32) t.pc
  readyB i t w0 && t.tidx != 0xFFFF && t.away == none && bit m (t.tidx % 32)
  && all.all (fun u => u.status == .blocked (.team i m true) || u.status == .blocked (.team i m false))
  && (List.range 32).all (fun l => !bit m l || all.any (fun u => u.tidx % 32 == l))
  && decide (s.threads.map Thread.key).Nodup && m == 3

theorem wit_CrossThread_sync : teamB (.tsync ⟨0, 0, 6, false, fB⟩) = true := by decide
theorem wit_CrossThread_shfl : teamB (.tshfl (v3x 8 2 3 6) false true 3) = true := by decide
theorem wit_CrossThread_vote : teamB (.tvote (v3x 8 0 0 6) false true 2 2) = true := by decide
theorem wit_CrossThread_match : teamB (.tmatch (v3x 8 2 0 6) false true) = true := by decide
theorem wit_CrossThread_rdfl : teamB (.rdfl (v3x 8 2 0 6) false 1 true true) = true := by decide
theorem wit_CrossThread_coll : teamB (.tcoll (v3x 8 2 0 6) false 3) = true := by decide
theorem wit_CrossThread_red : teamB (.tred (v3x 8 2 0 6) ⟨false, true, false, 7⟩) = true ∧ (7 : BitVec 4).toNat ≤ 10 := ⟨by decide, by decide⟩
theorem wit_CrossThread_scan : teamB (.tscan (v3x 8 2 0 6) ⟨false, false, true, 10⟩) = true ∧ (10 : BitVec 4).toNat ≤ 10 :=
  ⟨by decide, by decide⟩

/-! Loads and stores: main memory, the scratchpad to its last byte, and a weight store; 1 and 16 bytes. -/

def at5 (ea : Dword) : Thread := { t0 with v := ((Vector.ofFn (fun i => BitVec.ofNat 32 i.val)).set 4 (bits ea 31 0)).set 5 (bits ea 63 32) }
def memF (sz : BitVec 3) (tag : BitVec 4) : MemForm := ⟨0, 4, 8, fX 0, { MemW2.base with sz, tag }⟩

theorem wit_LoadResults : (Instr.ld (memF 4 0)).Runs (lone (at5 0x50000) w0) ∧ 2 ^ (4 : BitVec 3).toNat ≤ 16
    ∧ Lands (lone (at5 0x50000) w0) (memF 4 0) 16 w0 (at5 0x50000) (loadKind false 16) (.main 0x50000)
    ∧ Readable (lone (at5 0x50000) w0) w0 (at5 0x50000) 16 (.main 0x50000)
    ∧ (Instr.ld (memF 0 0)).Runs (lone (at5 0x2000000000001FFF) w0)
    ∧ Lands (lone (at5 0x2000000000001FFF) w0) (memF 0 0) 1 w0 (at5 0x2000000000001FFF) (loadKind false 1) (.spad 8191)
    ∧ Readable (lone (at5 0x2000000000001FFF) w0) w0 (at5 0x2000000000001FFF) 1 (.spad 8191)
    ∧ (Instr.lda (memF 2 0)).Runs (lone (at5 0x50000) w0)
    ∧ Lands (lone (at5 0x50000) w0) (memF 2 0) 4 w0 (at5 0x50000) (loadKind true 4) (.main 0x50000) :=
  ⟨runs_of_alone (alone_lone (by decide)), by decide, lands (by rfl) (by rfl), sound_lone _ _ _ _ (by decide) (by decide),
    runs_of_alone (alone_lone (by decide)), lands (by rfl) (by rfl), ⟨by rfl, drained _ rfl, by decide⟩, runs_of_alone (alone_lone (by decide)), lands (by rfl) (by rfl)⟩

/-- A hedge with a window of the weight stores. -/
def stored (t : Thread) : State :=
  let s := lone t w0
  s.setVf { s.vf 1 with hedge := { (s.vf 1).hedge with wsbase := 0, wssize := 1 } }
theorem wit_LoadResults_wst :
    Lands (stored (at5 0x3000000000000010)) (memF 2 0) 4 w0 (at5 0x3000000000000010) (loadKind false 4) (.wst 0 16)
    ∧ Readable (stored (at5 0x3000000000000010)) w0 (at5 0x3000000000000010) 4 (.wst 0 16) :=
  ⟨lands (by rfl) (by rfl), by intro i _ h; cases h⟩

theorem wit_LoadResults_tagged : (Instr.ld (memF 2 15)).Alone (lone (at5 0x50000) w0) (at5 0x50000) w0 ∧ (15 : BitVec 4) ≠ 0
    ∧ (at5 0x50000).tag = 0
    ∧ Lands (lone (at5 0x50000) w0) (memF 2 15) 4 w0 (at5 0x50000) (loadKind false 4) (.main 0x50000)
    ∧ Readable (lone (at5 0x50000) w0) w0 (at5 0x50000) 4 (.main 0x50000) :=
  ⟨alone_lone (by decide), by decide, by rfl, lands (by rfl) (by rfl), sound_lone _ _ _ _ (by decide) (by decide)⟩

theorem wit_Stores : (Instr.st (memF 4 0)).Alone (lone (at5 0x50000) w0) (at5 0x50000) w0 ∧ (lone (at5 0x50000) w0).mem.wf = true
    ∧ Lands (lone (at5 0x50000) w0) (memF 4 0) 16 w0 (at5 0x50000) (storeKind 16) (.main 0x50000)
    ∧ Sound (lone (at5 0x50000) w0) (at5 0x50000) 0x50000 16
    ∧ (Instr.str (memF 4 0)).Alone (lone (at5 0x2000000000001FF0) w0) (at5 0x2000000000001FF0) w0
    ∧ Lands (lone (at5 0x2000000000001FF0) w0) (memF 4 0) 16 w0 (at5 0x2000000000001FF0) (storeKind 16) (.spad 8176)
    ∧ w0.foreign = none :=
  ⟨alone_lone (by decide), by decide, lands (by rfl) (by rfl), sound_lone _ _ _ _ (by decide) (by decide), alone_lone (by decide), lands (by rfl) (by rfl),
    by rfl⟩

def atomF (sz : BitVec 3) (op : BitVec 4) : MemForm := ⟨0, 4, 8, fX 0, { MemW2.base with sz, op, ret := true, pd := 1 }⟩
theorem wit_Atomics : (lone (at5 0x50000) w0).mem.wf = true ∧ Sound (lone (at5 0x50000) w0) (at5 0x50000) 0x50000 8
    ∧ Lands (lone (at5 0x50000) w0) (atomF 3 8) 8 w0 (at5 0x50000) (atomicKind 8) (.main 0x50000)
    ∧ (Instr.atom (atomF 3 8)).Alone (lone (at5 0x50000) w0) (at5 0x50000) w0 ∧ w0.kernel.det = false ∧ (8 : BitVec 4).toNat ≤ 8
    ∧ (Instr.acas (atomF 3 0)).Alone (lone (at5 0x50000) w0) (at5 0x50000) w0
    ∧ Sound (lone (at5 0x50000) w0) (at5 0x50000) 0x50000 4
    ∧ Lands (lone (at5 0x50000) w0) (atomF 2 0) 4 w0 (at5 0x50000) (atomicKind 4) (.main 0x50000)
    ∧ (Instr.atom (atomF 2 0)).Alone (lone (at5 0x50000) w0) (at5 0x50000) w0
    ∧ (Instr.acas (atomF 2 0)).Alone (lone (at5 0x50000) w0) (at5 0x50000) w0 :=
  ⟨by decide, sound_lone _ _ _ _ (by decide) (by decide), lands (by rfl) (by rfl), alone_lone (by decide), by rfl, by decide,
    alone_lone (by decide), sound_lone _ _ _ _ (by decide) (by decide), lands (by rfl) (by rfl), alone_lone (by decide), alone_lone (by decide)⟩

def cellF (op : BitVec 4) : MemForm := ⟨0, 4, 8, fX 0, { MemW2.base with sz := 0, op }⟩
def cellAt : Thread := at5 0x4000000000050000
theorem wit_CellInstructions : (lone cellAt w0).mem.wf = true ∧ Sound (lone cellAt w0) cellAt 0x50000 32
    ∧ (Instr.accadd (cellF 7)).Alone (lone cellAt w0) cellAt w0
    ∧ Lands (lone cellAt w0) (cellF 7) 32 w0 cellAt { n := 32, align := 32, paths := [4], write := true } (.main 0x50000)
    ∧ (Instr.accclr (cellF 0)).Alone (lone cellAt w0) cellAt w0
    ∧ Lands (lone cellAt w0) (cellF 0) 32 w0 cellAt { n := 32, align := 32, paths := [4], write := true } (.main 0x50000)
    ∧ (Instr.accrd (cellF 8)).Alone (lone cellAt w0) cellAt w0
    ∧ Lands (lone cellAt w0) (cellF 8) 32 w0 cellAt { n := 32, align := 32, paths := [4] } (.main 0x50000) :=
  ⟨by decide, sound_lone _ _ _ _ (by decide) (by decide), alone_lone (by decide), lands (by rfl) (by rfl), alone_lone (by decide), lands (by rfl) (by rfl),
    alone_lone (by decide), lands (by rfl) (by rfl)⟩

theorem wit_CellsAreExact : let x := Machine.Num.fin false 1 (2 ^ 120)
    bit (0 : BitVec 256) 0 = false ∧ bit (cellAdd (cellAdd 0 x) x) 0 = false ∧ bit (cellAdd 0 x) 0 = false
    ∧ bits (0 : BitVec 256) 7 2 = 0 ∧ (-(2 ^ 247) : Int) ≤ cellN 0 + 1 ∧ cellN 0 + 1 < 2 ^ 247 :=
  ⟨by decide, by decide, by decide, by decide, by decide, by decide⟩

def lineF (sz : BitVec 3) : MemForm := ⟨0, 4, 8, fX 0, { MemW2.base with sz }⟩
theorem wit_FencesAndMaintenance : (Instr.fence 3 4 1 fB).Runs s0 ∧ (Instr.pref (lineF 0)).Runs (lone (at5 0x50000) w0)
    ∧ (Instr.cinv (lineF 1)).Runs (lone (at5 0x1000000000050000) w0)
    ∧ Lands (lone (at5 0x1000000000050000) w0) (lineF 1) 64 w0 (at5 0x1000000000050000) { n := 1024, align := 1024, paths := [1] } (.main 0x50000)
    ∧ (Instr.cwb (lineF 0)).Runs (lone (at5 0x50000) w0)
    ∧ Lands (lone (at5 0x50000) w0) (lineF 0) 64 w0 (at5 0x50000) { n := 64, align := 64, paths := [0] } (.main 0x50000)
    ∧ (Instr.zfill (lineF 2)).Alone (lone (at5 0x50000) w0) (at5 0x50000) w0 ∧ (lone (at5 0x50000) w0).mem.wf = true
    ∧ Lands (lone (at5 0x50000) w0) (lineF 2) 64 w0 (at5 0x50000)
        { n := 65536, align := 65536, paths := [0, 2], write := true, strict := true } (.main 0x50000)
    ∧ Sound (lone (at5 0x50000) w0) (at5 0x50000) 0x50000 65536 :=
  ⟨runs_of_alone (alone_lone (by decide)), runs_of_alone (alone_lone (by decide)), runs_of_alone (alone_lone (by decide)), lands (by rfl) (by rfl),
    runs_of_alone (alone_lone (by decide)), lands (by rfl) (by rfl), alone_lone (by decide), by decide, lands (by rfl) (by rfl),
    sound_lone _ _ _ _ (by decide) (by decide)⟩

def wsq : State := stored (at5 0x3000000000000010)
theorem wit_FencesAndMaintenance_wsqry : (Instr.wsqry (lineF 0)).Alone wsq (at5 0x3000000000000010) w0 ∧ w0.kernel.det = false
    ∧ Lands wsq (lineF 0) 4 w0 (at5 0x3000000000000010) { n := 1, align := 1, paths := [3] } (.wst 0 16) ∧ 0 = dieOf wsq.cur.core :=
  ⟨alone_of_ready (by rfl) (by rfl) (by rfl) (by decide), by rfl, lands (by rfl) (by rfl), by rfl⟩

/-! The checks of an access, at the edges of each. -/

theorem wit_AddressTranslation : let k := loadKind false 4
    k.fetch = false ∧ 0 < k.align ∧ k.align ∣ 2 ^ 52
    ∧ bits (0x0010000000000000 : Dword) 63 52 ≠ bits (0x000FFFFFFFFFFFFF : Dword) 63 52
    ∧ 6 ≤ (bits (0x6000000000000000 : Dword) 63 60).toNat
    ∧ (bits (0x5000000000000000 : Dword) 63 60).toNat ≤ 5 ∧ (bits (0x5000000000000000 : Dword) 63 60).toNat ∉ k.paths
    ∧ (bits (0x1000000000000000 : Dword) 63 60).toNat ∉ (storeKind 4).paths ∧ (storeKind 4).strict = true
    ∧ (bits (0x50002 : Dword) 51 0).toNat % k.align ≠ 0
    ∧ (2 ∈ k.paths ∧ bits (0x2000000000001FFC : Dword) 59 52 = 0 ∧ (bits (0x2000000000001FFC : Dword) 51 0).toNat + k.n ≤ w0.spadSize)
    ∧ w0.spadSize < (bits (0x2000000000002000 : Dword) 51 0).toNat + k.n :=
  ⟨by decide, by decide, by decide, by decide, by decide, by decide, by decide, by decide, by decide, by decide,
    ⟨by decide, by decide, by decide⟩, by decide⟩

/-- Four levels of tables, with a leaf of 64 KiB at the last. -/
def tables (leaf : Dword) : State :=
  { s0 with mem := memSetN (memSetN (memSetN (memSetN [] 0x10000 (natLe 8 0x20001)) 0x20000 (natLe 8 0x30001)) 0x30000
      (natLe 8 0x40001)) 0x40008 (natLe 8 leaf.toNat) }
theorem wit_AddressTranslation_walk :
    (tables 0x700A7).pte 0x10000 0 = 0x20001 ∧ (tables 0x700A7).pte 0x20000 0 = 0x30001 ∧ (tables 0x700A7).pte 0x30000 0 = 0x40001
    ∧ (tables 0x0FF00000000700A7).pte 0x40000 1 = 0x0FF00000000700A7 ∧ bits (0x0FF00000000700A7 : Dword) 63 60 = 0
    ∧ bits (0x0FF00000000700A7 : Dword) 59 52 = 0xFF ∧ bit (0x0FF00000000700A7 : Dword) 7 = true
    ∧ bit ((tables 0).pte 0x40000 1) 0 = false ∧ bit ((tables 0).pte 0x60000 0) 0 = false :=
  ⟨by decide, by decide, by decide, by decide, by decide, by decide, by decide, by decide, by decide⟩

def never : Form := ⟨.ext { w1 0 with gp := 0 }, none⟩
theorem wit_GuardFalseMemory : let f : MemForm := ⟨0, 4, 8, never, MemW2.base⟩
    f.fm.guard.2.2 = false ∧ s0.cur.keys.Nodup
    ∧ ∀ k ∈ s0.cur.keys, ∃ t w, s0.thread k = some t ∧ s0.wg k.wg = some w ∧ s0.steps w = false ∧ t.guard f.fm = false :=
  ⟨by decide, by decide, by intro k hk; rw [List.mem_singleton.1 hk]; exact ⟨t0, w0, by rfl, by rfl, by rfl, by decide⟩⟩

/-! Barriers: with another live thread, as the last arrival, at BARW before and after the generation, and what raises 0x07. -/

def tOther : Thread := { t0 with tidx := 1, status := .blocked (.yield 0) }
def bk : BarKey := { scope := 1, owner := (1, 0, 0), inst := 0, id := 2 }
def sPair : State := world [t0, tOther] w0

theorem wit_Barriers_first : (Instr.bara 1 2 fB).Alone sPair t0 w0 ∧ (Instr.bar 1 2 fB).Alone sPair t0 w0
    ∧ 1 ≤ (1 : BitVec 3).toNat ∧ (1 : BitVec 3).toNat ≤ 5 ∧ (∀ a ∈ t0.arrived, (a.1.scope == 1 && a.1.id == 2) = false)
    ∧ (∀ y ∈ sPair.bars, y.key ≠ bk → sPair.barFull (sPair.bar y.key) = false)
    ∧ (∃ y ∈ sPair.barWgs bk, ∃ v ∈ sPair.live y.id, v.key ∉ (sPair.bar bk).arrived ++ [t0.key]) :=
  ⟨alone_of_ready (by rfl) (by rfl) (by rfl) (by decide), alone_of_ready (by rfl) (by rfl) (by rfl) (by decide), by decide, by decide,
    by decide, by decide, w0, (List.mem_singleton.2 rfl : w0 ∈ [w0]), tOther, (by simp : tOther ∈ [t0, tOther]), by decide⟩

theorem wit_Barriers_last : (Instr.bara 1 2 fB).Alone s0 t0 w0 ∧ (Instr.bar 1 2 fB).Alone s0 t0 w0
    ∧ (∀ y ∈ s0.bars, y.key ≠ bk → s0.barFull (s0.bar y.key) = false)
    ∧ (∀ y ∈ s0.barWgs bk, ∀ v ∈ s0.live y.id, v.key ∈ (s0.bar bk).arrived ++ [t0.key]) ∧ s0.barSaved bk = false
    ∧ (s0.threads.map Thread.key).Nodup ∧ (∀ v ∈ s0.threads, ∃ y, s0.wg v.wg = some y ∧ s0.steps y = false) :=
  ⟨alone_lone (by decide), alone_lone (by decide), by decide, by decide, by decide, by decide, by
    intro v hv
    rw [List.mem_singleton.1 hv]
    exact ⟨w0, by rfl, by rfl⟩⟩

def tArr : Thread := { t0 with arrived := [(bk, 4)] }
def sGen (g : Nat) : State := { lone tArr w0 with bars := [{ key := bk, gen := g, arrived := [] }] }
theorem wit_Barriers_barw : (Instr.barw 1 2 fB).Alone (sGen 5) tArr w0
    ∧ tArr.arrived.find? (fun a => a.1.scope == 1 && a.1.id == 2) = some (bk, 4) ∧ 4 < ((sGen 5).bar bk).gen
    ∧ (Instr.barw 1 2 fB).Alone (sGen 4) tArr w0 ∧ ((sGen 4).bar bk).gen ≤ 4 :=
  ⟨alone_of_ready (by rfl) (by rfl) (by rfl) (by decide), by decide, by decide, alone_of_ready (by rfl) (by rfl) (by rfl) (by decide),
    by decide⟩
theorem wit_Barriers_raises : (Instr.bar 5 2 fB).Alone s0 t0 w0 ∧ ¬ ((5 : BitVec 3) = 1 ∨ (5 : BitVec 3).toNat ≤ w0.kernel.gang)
    ∧ (Instr.bar 1 2 fB).Alone (lone tArr w0) tArr w0
    ∧ ¬ (∀ a ∈ tArr.arrived, (a.1.scope == (1 : BitVec 3).toNat && a.1.id == (2 : BitVec 4).toNat) = false)
    ∧ (Instr.barw 1 2 fB).Alone s0 t0 w0 :=
  ⟨alone_lone (by decide), by decide, alone_lone (by decide), by decide, alone_lone (by decide)⟩

/-! Tile entries. -/

def tile (state : TileState) (err : Nat) (kind : TileKind) (size base expected : Nat) : Tile :=
  { oor := 0, arrived := 0, claimed := 0, expected, phase := true, state, err, kind, size, base }
/-- Registers: v4 a tile word, v5 an expected count, v6 = 0x40 and v8 = 0. -/
def tt (word count : Word) : Thread := { t0 with v := ((((tn.v.set 4 word).set 5 count).set 6 0x40).set 8 0).set 9 0 }
def wt (e : Tile) : Workgroup := { w0 with tiles := List.replicate 7 Tile.fresh ++ [e] }

theorem wit_TileEntries_tarm : let w := wt (tile .empty 0 .spad 0 0 0); let t := tt 0x00800000 8192
    w.tiles[7]? = some (tile .empty 0 .spad 0 0 0) ∧ t.seen = none
    ∧ (Instr.tarm (v3 7 4 5)).Alone (lone t w) t w ∧ bits (0x00800000 : Word) 15 13 = 0 ∧ bits (0x00800000 : Word) 31 30 = 0
    ∧ 1 ≤ (bits (0x00800000 : Word) 29 16).toNat ∧ (bits (0x00800000 : Word) 29 16).toNat ≤ 8192
    ∧ 64 * ((bits (0x00800000 : Word) 12 0).toNat + (bits (0x00800000 : Word) 29 16).toNat) ≤ w.spadSize
    ∧ (8192 : Word).toNat ≤ 64 * (bits (0x00800000 : Word) 29 16).toNat :=
  ⟨by rfl, by rfl, alone_lone (by decide), by decide, by decide, by decide, by decide, by decide, by decide⟩
/-- The core holds slots 0 to 3 and accumulator tile 0 for the workgroup. -/
def holding (s : State) : State :=
  s.setCore { s.core 0 with slotHolder := [(0, 1), (1, 1), (2, 1), (63, 1)], accHolder := [(0, 1)] }
theorem wit_TileEntries_slots : let w := wt (tile .ready 0 .spad 0 0 0); let t := tt 0x4001003F 0; let s := holding (lone t w)
    (Instr.tarm (v3 7 4 5)).Alone s t w ∧ bits (0x4001003F : Word) 31 30 = 1 ∧ bits (0x4001003F : Word) 15 13 = 0
    ∧ (bits (0x4001003F : Word) 12 0).toNat + (bits (0x4001003F : Word) 29 16).toNat ≤ 64
    ∧ (∀ j, j < 1 → (63 + j, w.id) ∈ (s.core w.core).slotHolder) :=
  ⟨alone_of_ready (by rfl) (by rfl) (by rfl) (by decide), by decide, by decide, by decide, by decide⟩
theorem wit_TileEntries_fifo : let w := wt (tile .empty 0 .spad 0 0 0); let t := tt 0x80000000 8192
    (Instr.tarm (v3 7 4 5)).Alone (lone t w) t w ∧ bits (0x80000000 : Word) 31 30 = 2 ∧ bits (0x80000000 : Word) 29 16 = 0
    ∧ bits (0x80000000 : Word) 12 0 = 0
    ∧ (∀ y ∈ (lone t w).wgs, y.id ≠ w.id → y.core = w.core → ∀ z ∈ y.tiles, z.kind = .fifo → z.state = .empty) :=
  ⟨alone_lone (by decide), by decide, by decide, by decide, by decide⟩
theorem wit_TileEntries_others : let e := tile .ready 0 .spad 2 0 64; let w := wt e; let b := wt { e with err := 3 }
    (Instr.twait true true 7 fB).Alone (lone t0 w) t0 w ∧ e.phase = true
    ∧ (Instr.twait false false 7 fB).Alone (lone t0 b) t0 b ∧ b.tiles[7]? = some { e with err := 3 }
    ∧ (Instr.twait false true 7 fB).Alone (lone t0 w) t0 w ∧ e.phase ≠ false
    ∧ (Instr.tdone 7 fB).Alone (lone t0 w) t0 w ∧ e.state = .ready ∧ (∀ o ∈ (lone t0 w).ops, o.wg = w.id → o.body.readsTile 7 = false)
    ∧ (Instr.tdone 7 fB).Alone (lone t0 (wt (tile .draining 0 .spad 2 0 64))) t0 (wt (tile .draining 0 .spad 2 0 64))
    ∧ (Instr.tstat ⟨7, 0, 8, fB⟩ false).Alone (lone t0 w) t0 w ∧ w.kernel.det = false ∧ t0.tidx ≠ 0xFFFF
    ∧ (Instr.tstat ⟨7, 0, 8, fX 0⟩ true).Alone (lone t0 w) t0 w
    ∧ (e.oor < 2 ^ 16 ∧ e.arrived < 2 ^ 21 ∧ e.claimed < 2 ^ 21 ∧ e.expected < 2 ^ 21 ∧ e.err < 4 ∧ e.size < 2 ^ 14 ∧ e.base < 2 ^ 13) :=
  ⟨alone_lone (by decide), by rfl, alone_lone (by decide), by rfl, alone_lone (by decide), by decide, alone_lone (by decide), by rfl,
    by decide, alone_lone (by decide), alone_lone (by decide), by rfl, by decide, alone_lone (by decide), by decide⟩
/-- A queued operation of the workgroup that reads tile 7. -/
def reads7 : Op := { id := 90, core := 0, q := 4, wg := 1, issuer := 0, started := false, err := 0, body := .accld 0 7 0 }
theorem wit_TileEntries_draining : let w := wt (tile .ready 0 .spad 2 0 64); let s : State := { lone t0 w with ops := [reads7] }
    (Instr.tdone 7 fB).Alone s t0 w ∧ (∃ o ∈ s.ops, o.wg = w.id ∧ o.body.readsTile 7 = true) :=
  ⟨alone_of_ready (by rfl) (by rfl) (by rfl) (by decide), reads7, List.mem_singleton.2 rfl, by rfl, by rfl⟩

/-! Queues and tables. -/

def sQueued : State := { s0 with ops := [{ reads7 with q := 2 }] }
theorem wit_QueuesAndTables_queues : (Instr.qfence 4 fB).Alone s0 t0 w0 ∧ s0.ops.filter (fun o => o.wg == w0.id && bit (4 : BitVec 6) o.q) = []
    ∧ (Instr.qfence 4 fB).Alone sQueued t0 w0 ∧ sQueued.ops.filter (fun o => o.wg == w0.id && bit (4 : BitVec 6) o.q) ≠ []
    ∧ (Instr.qwait 1 2 fB).Alone sQueued t0 w0 ∧ (sQueued.ops.filter (fun o => o.wg == w0.id && o.q == 2)).length ≤ 1
    ∧ (Instr.qwait 0 2 fB).Alone sQueued t0 w0 ∧ 0 < (sQueued.ops.filter (fun o => o.wg == w0.id && o.q == 2)).length :=
  ⟨alone_lone (by decide), by decide, alone_of_ready (by rfl) (by rfl) (by rfl) (by decide), by decide,
    alone_of_ready (by rfl) (by rfl) (by rfl) (by decide), by decide, alone_of_ready (by rfl) (by rfl) (by rfl) (by decide), by decide⟩

/-- A range of an empty scratchpad holds zeros. -/
theorem inSpad_empty {w : Workgroup} (hs : w.spad = []) (he : w.spadErr = []) (off n align : Nat) (ha : off % align = 0)
    (hl : off + n ≤ w.spadSize) : InSpad w off n align (List.replicate n 0) :=
  ⟨ha, hl, by simp [he], by rw [hs]; simp [memGet, List.map_const']⟩

/-- A tensor of rank 1, as its image. -/
def image (fmt base ext : Nat) : List Byte :=
  natLe 8 (fmt + 16 + 0x4000) ++ natLe 10 base ++ List.replicate 6 0 ++ natLe 4 ext ++ (List.range 7).flatMap (fun _ => natLe 4 1)
    ++ natLe 8 1 ++ List.replicate 88 0 ++ natLe 4 ext ++ (List.range 7).flatMap (fun _ => natLe 4 1) ++ List.replicate 72 0

theorem wit_QueuesAndTables_tables : (Instr.xltld (v3 0 6 0)).Alone (lone (tt 0 0) w0) (tt 0 0) w0
    ∧ InSpad w0 ((v3 0 6 0).srcA w0 (tt 0 0)).toNat 512 64 (List.replicate 512 0)
    ∧ (∀ o ∈ (lone (tt 0 0) w0).ops, o.wg = w0.id → o.body.isXlt = false)
    ∧ ((lone (tt 0xFFF 0) w0).ctx w0.ctxn).desc = some bootDesc ∧ bits ((v3 0 4 6).srcA w0 (tt 0xFFF 0)) 31 12 = 0
    ∧ (Instr.tidset (v3 0 4 6)).Alone (lone (tt 0xFFF 0) w0) (tt 0xFFF 0) w0
    ∧ InSpad w0 ((v3 0 4 6).srcB w0 (tt 0xFFF 0)).toNat 256 16 (List.replicate 256 0)
    ∧ (lone (tt 0xFFF 0) w0).mem.wf = true ∧ (lone (tt 0xFFF 0) w0).isCmp (bootDesc.tit + 256 * 0xFFF) = false
    ∧ (bootDesc.tit + 256 * 0xFFF) % 256 = 0 ∧ bit ((List.replicate 256 (0 : Byte)).getD 1 0) 6 = false
    ∧ tensorOk (image 5 0x50000 4) = true
    ∧ (Instr.tidget (v3 0 4 6)).Alone (lone (tt 0xFFF 0) w0) (tt 0xFFF 0) w0
    ∧ (Instr.tidget (v3 0 4 6)).Alone (lone (tt 0x1000 0) w0) (tt 0x1000 0) w0
    ∧ bits ((v3 0 4 6).srcA w0 (tt 0x1000 0)) 31 12 ≠ 0 :=
  ⟨alone_lone (by decide), inSpad_empty (by rfl) (by rfl) _ _ _ (by decide) (by decide), by decide, by rfl, by decide, alone_lone (by decide),
    inSpad_empty (by rfl) (by rfl) _ _ _ (by decide) (by decide), by decide, by decide, by decide, by decide, by decide,
    alone_lone (by decide), alone_lone (by decide), by decide⟩

/-! Copies: four INT8 elements from coordinate 2 of a tensor of four, two of them outside; gathered; and out of a tile. -/

/-- A copy descriptor of tensor 1 and tile 7, at 0x40, with its cells; and an index array at 0x80. -/
def copyImage (start : Nat) (box : Nat) (flags ctile : Nat) : List Byte :=
  natLe 4 start ++ List.replicate 28 0 ++ natLe 2 box ++ (List.range 7).flatMap (fun _ => natLe 2 1) ++ natLe 2 1 ++ natLe 1 7
    ++ natLe 1 flags ++ natLe 4 0xA5 ++ natLe 4 4 ++ natLe 2 0 ++ natLe 1 ctile ++ [0]
def copyCells (start box : Byte) (flags : Memory) (ctile : Byte) : Memory :=
  [(64, start), (96, box), (98, 1), (100, 1), (102, 1), (104, 1), (106, 1), (108, 1), (110, 1), (112, 1), (114, 7)] ++ flags
    ++ [(116, 0xA5), (120, 4), (126, ctile), (128, 3), (132, 1)]
def wcopy (d : Memory) (e6 e7 : Tile) : Workgroup := { w0 with spad := d, tiles := List.replicate 6 Tile.fresh ++ [e6, e7] }
/-- The cells of the page table; those of a tensor of rank 1 with four INT8 elements, whose base has one byte that is not
zero; and the machine with tensor 1, of elements at 0x50000. -/
def tableCells : Memory := [(0x10000, 1), (0x10002, 2), (0x20000, 0x87), (0x20006, 0xF0), (0x20007, 0x0F)]
def tensorCells (a : Nat) (base : Host.Cell) : Memory :=
  [(a, 0x15), (a + 1, 0x40), base, (a + 0x18, 4), (a + 0x1C, 1), (a + 0x20, 1), (a + 0x24, 1), (a + 0x28, 1), (a + 0x2C, 1),
   (a + 0x30, 1), (a + 0x34, 1), (a + 0x38, 1), (a + 0x98, 4), (a + 0x9C, 1), (a + 0xA0, 1), (a + 0xA4, 1), (a + 0xA8, 1),
   (a + 0xAC, 1), (a + 0xB0, 1), (a + 0xB4, 1)]
def withTensor (s : State) : State :=
  { s with mem := tableCells ++ ([(0x50000, 1), (0x50001, 2), (0x50002, 3), (0x50003, 4)] ++ tensorCells 0x100100 (0x10010A, 5)) }
def tensorAt (base : BitVec 80) : Tensor :=
  { fmt := 5, rank := 1, sblk := 16, sdim := 0, scl := false, scaletid := 0, base, ext := [4, 1, 1, 1, 1, 1, 1, 1]
    stride := [1, 0, 0, 0, 0, 0, 0, 0], cb := List.replicate 16 0, gext := [4, 1, 1, 1, 1, 1, 1, 1], shard := List.replicate 8 0
    part := List.replicate 8 0 }
def tensor1 : Tensor := tensorAt 0x50000
def descOf (start : Int) (box : Nat) (out : Bool) (ctile : Nat) : CopyDesc :=
  { start := [start, 0, 0, 0, 0, 0, 0, 0], box := [box, 1, 1, 1, 1, 1, 1, 1], tid := 1, dtile := 7, tr := false, tr16 := false
    xlt := false, raw := false, scl := false, out, pad := 0xA5, doff := 4, stag := 0, ctile, clean := true }
def intoTile : Tile := tile .filling 0 .spad 1 64 64
def tcp : Thread := tt 0 0
def wIn : Workgroup := wcopy (copyCells 2 4 [] 0xFF) Tile.fresh intoTile
def sIn : State := withTensor (lone tcp wIn)
def movesOf (s : State) (w : Workgroup) (d : CopyDesc) (e : Tile) (idx : Option (List Int)) : List Move :=
  match s.movesFrom w d tensor1 e (copyCoords d tensor1 idx) with | .ok l => l | .error _ => []

theorem wit_CopyOperations_in : let b := copyImage 2 4 0 0xFF; let d := descOf 2 4 false 255
    copyDesc b = d ∧ (Instr.tcopy (v3 3 6 0) 0).Alone sIn tcp wIn ∧ tcp.seen = none ∧ (3 : Reg).toNat < 4 ∧ sIn.queueLen wIn.core 3 < 32
    ∧ InSpad wIn ((v3 3 6 0).srcA wIn tcp).toNat 64 64 b ∧ d.ok = true ∧ sIn.tensor wIn d.tid = .ok tensor1
    ∧ wIn.tiles[d.dtile]? = some intoTile ∧ d.fits tensor1 intoTile.kind = true
    ∧ d.doff + d.nibbles tensor1 / 2 ≤ intoTile.bytes ∧ intoTile.claimed + d.nibbles tensor1 / 2 ≤ intoTile.expected
    ∧ sIn.movesFrom wIn d tensor1 intoTile (copyCoords d tensor1 none) = .ok (movesOf sIn wIn d intoTile none) :=
  ⟨by decide +kernel, alone_of_ready (by rfl) (by rfl) (by rfl) (by decide), by decide +kernel, by decide +kernel, by decide +kernel,
    ⟨by decide +kernel, by decide +kernel, (by intro a h; cases h), by decide +kernel⟩, by decide +kernel, by decide +kernel, by decide +kernel, by decide +kernel, by decide +kernel, by decide +kernel, by decide +kernel⟩
def wGather : Workgroup := wcopy (copyCells 0x80 2 [] 0xFF) Tile.fresh intoTile
def sGather : State := withTensor (lone tcp wGather)
theorem wit_CopyOperations_gather : let b := copyImage 0x80 2 0 0xFF; let d := descOf 0x80 2 false 255
    copyDesc b = d ∧ (Instr.tcopyg (v3 3 6 0) 0).Alone sGather tcp wGather ∧ InSpad wGather ((v3 3 6 0).srcA wGather tcp).toNat 64 64 b ∧ d.ok = true
    ∧ sGather.tensor wGather d.tid = .ok tensor1 ∧ gatherIndices wGather d tensor1 = .ok [3, 1]
    ∧ d.fits tensor1 intoTile.kind = true
    ∧ sGather.movesFrom wGather d tensor1 intoTile (copyCoords d tensor1 (some [3, 1]))
      = .ok (movesOf sGather wGather d intoTile (some [3, 1])) :=
  ⟨by decide +kernel, alone_of_ready (by rfl) (by rfl) (by rfl) (by decide), ⟨by decide +kernel, by decide +kernel, (by intro a h; cases h), by decide +kernel⟩, by decide +kernel, by decide +kernel,
    by decide +kernel, by decide +kernel, by decide +kernel⟩
def fromTile : Tile := tile .ready 0 .spad 1 64 64
def wOut : Workgroup := wcopy (copyCells 2 4 [(115, 32)] 6) intoTile fromTile
def sOut : State := withTensor (lone tcp wOut)
theorem wit_CopyOperations_out : let b := copyImage 2 4 32 6; let d := descOf 2 4 true 6
    copyDesc b = d ∧ (Instr.tcopy (v3 3 6 0) 0).Alone sOut tcp wOut ∧ InSpad wOut ((v3 3 6 0).srcA wOut tcp).toNat 64 64 b ∧ d.ok = true
    ∧ d.out = true ∧ sOut.tensor wOut d.tid = .ok tensor1 ∧ wOut.tiles[d.dtile]? = some fromTile
    ∧ wOut.tiles[d.ctile]? = some intoTile ∧ d.fits tensor1 fromTile.kind = true
    ∧ sOut.movesFrom wOut d tensor1 fromTile (copyCoords d tensor1 none) = .ok (movesOf sOut wOut d fromTile none)
    ∧ (movesOf sOut wOut d fromTile none).any (fun m => m.dst.isSome) = true :=
  ⟨by decide +kernel, alone_of_ready (by rfl) (by rfl) (by rfl) (by decide), ⟨by decide +kernel, by decide +kernel, (by intro a h; cases h), by decide +kernel⟩, by decide +kernel, by decide +kernel,
    by decide +kernel, by decide +kernel, by decide +kernel, by decide +kernel, by decide +kernel, by decide +kernel⟩

/-- A copy of two elements of two bytes, from main memory to the scratchpad. -/
def engineOp (started : Bool) : Op :=
  { id := 90, core := 0, q := 3, wg := 1, issuer := 0, started, err := 0
    body := .copy ((List.range 2).map (fun k =>
      { src := some (.main (0x50000 + 16 * k)), pad := 0, dst := some (.spad (8188 + k * 2)), size := 2, srcHalf := none, dstHalf := none }))
      none 7 7 false false 0 4 1 }
def sEngine (started : Bool) : State := { lone t0 (wt intoTile) with ops := [engineOp started] }
theorem wit_CopyOperations_engine : (sEngine true).headOp 0 3 = some (engineOp true) ∧ (sEngine true).wg (engineOp true).wg = some (wt intoTile)
    ∧ (sEngine true).opWaits (engineOp true) = false ∧ 0 < 2 ∧ (wt intoTile).spad.wf = true
    ∧ (∀ k, k < 2 → (sEngine true).isCmp (0x50000 + 16 * k) = false ∧ (sEngine true).reaches (dieOf 0) (homeDie (0x50000 + 16 * k)) = true)
    ∧ (∀ a ∈ (sEngine true).poison, a < 0)
    ∧ (sEngine false).headOp 0 3 = some (engineOp false) ∧ (engineOp false).started = false
    ∧ (match (engineOp false).body with | .copy ms .. => needRemote ms = false | _ => False) :=
  ⟨by rfl, by rfl, by rfl, by decide +kernel, by decide +kernel, by decide +kernel, (by intro a h; cases h), by rfl, by rfl, by rfl⟩

/-! Collectives: a gang of one issues a broadcast of INT8; and collectives of one and of two that all have issued. -/

def kgang : Kernel := { w0.kernel with gang := 3, gsize := 1 }
def collImage : List Byte := natLe 1 2 ++ natLe 1 5 ++ natLe 1 3 ++ natLe 1 0 ++ natLe 2 0 ++ natLe 2 1 ++ natLe 2 2 ++ natLe 1 7 ++ List.replicate 53 0
def wColl : Workgroup := { w0 with kernel := kgang, spad := memSetN [] 0x40 collImage, tiles := List.replicate 7 Tile.fresh ++ [intoTile] }
def sColl : State :=
  let s := withTensor (lone tcp wColl)
  { s with mem := s.mem ++ tensorCells 0x100200 (0x100211, 0x20) }
theorem wit_CollectiveOperations_issue : let d := collDesc collImage; let dst := tensorAt 0x20000000000000000000
    InSpad wColl ((v3 0 6 0).srcA wColl tcp).toNat 64 64 collImage ∧ d.ok wColl = true ∧ sColl.tensor wColl d.src = .ok tensor1
    ∧ sColl.tensor wColl d.dst = .ok dst ∧ d.fits tensor1 dst = true ∧ wColl.tiles[d.ctile]? = some intoTile
    ∧ intoTile.claimed + dst.bytes ≤ intoTile.expected
    ∧ (match sColl.wholeMoves wColl tensor1 false (boxPlaces tensor1.ext) with | .ok l => l.length == 4 | _ => false) = true
    ∧ (match sColl.wholeMoves wColl dst true (boxPlaces dst.ext) with | .ok l => l.length == 4 | _ => false) = true
    ∧ (Instr.coll (v3 0 6 0)).Alone sColl tcp wColl ∧ (Instr.collw (v3 0 6 0)).Alone sColl tcp wColl :=
  ⟨⟨by decide +kernel, by decide +kernel, (by intro a h; cases h), by decide +kernel⟩, by decide +kernel, by decide +kernel, by decide +kernel, by decide +kernel, by rfl, by decide +kernel, by decide +kernel,
    by decide +kernel, alone_of_ready (by rfl) (by rfl) (by rfl) (by decide +kernel), alone_of_ready (by rfl) (by rfl) (by rfl) (by decide +kernel)⟩

/-- One participant, whose four FP32 elements lie at 0x50000 and go to 0x100 of its scratchpad; and two that disagree. -/
def shape4 : Shape := { ext := [4], gext := [4], shard := [0], part := [0] }
def partOf (wg index op : Nat) : CollPart :=
  { wg, index, die := 0, op, fmt := 0, root := 0, engine := 90 + wg, src := shape4, dst := shape4, dstFmt := 0
    writes := (List.range 4).map (fun k =>
      { src := none, pad := 0, dst := some (.spad (0x100 + k * 4)), size := 4, srcHalf := none, dstHalf := none })
    dstTid := 2, cb := [], sent := false }
def collOp (wg : Nat) : Op :=
  { id := 90 + wg, core := 0, q := 6, wg, issuer := 0, started := false, err := 0
    body := .copy ((List.range 4).map (fun k =>
      { src := some (.main (0x50000 + k * 4)), pad := 0, dst := none, size := 4, srcHalf := none, dstHalf := none }))
      none 7 7 false false 0 16 0 }
def coll (parts : List CollPart) : Coll :=
  { id := 70, gang := (1, 1, 0), gid := 0, k := 0, size := parts.length, parts, fabric := false }
def sGather4 (parts : List CollPart) : State :=
  { lone t0 (wt intoTile) with
    colls := [coll parts], ops := parts.map (fun p => collOp p.wg)
    wgs := [wt intoTile, { wt intoTile with id := 2, wgx := 1 }] }
theorem wit_CollectiveOperations_one (op : Nat) :
    Gathered (sGather4 [partOf 1 0 op]) (coll [partOf 1 0 op]) shape4 4 4 4 0 (fun _ => 0x50000) (fun _ => 0x100) (fun _ => 7) := by
  have h0 : ∀ i, i < 1 → i ∈ [0] := by decide
  refine ⟨by simp [sGather4], ⟨rfl, rfl, h0⟩, rfl, by decide, ⟨by simp [coll], by simp [coll]⟩, ?_, ?_, ?_⟩
  all_goals (intro p hp; rw [show (coll [partOf 1 0 op]).parts = [partOf 1 0 op] from rfl, List.mem_singleton] at hp; subst hp)
  · exact ⟨rfl, rfl, rfl⟩
  · rfl
  · exact ⟨collOp 1, wt intoTile, rfl, rfl, rfl, by decide, rfl, rfl, rfl, fun k hk =>
      ⟨(by decide +kernel : ∀ k, k < 4 → ∀ i, i < 4 → (lone t0 (wt intoTile)).isCmp (0x50000 + k * 4 + i) = false) k hk,
       (by decide : ∀ k, k < 4 → (lone t0 (wt intoTile)).reaches (dieOf 0) (homeDie (0x50000 + k * 4)) = true) k hk,
       (by intro a h; cases h)⟩⟩
theorem wit_CollectiveOperations_ops : (∀ p ∈ (coll [partOf 1 0 2]).parts, p.op = 2 ∧ p.root = 0)
    ∧ (coll [partOf 1 0 2]).parts.find? (fun q => q.index == 0) = some (partOf 1 0 2)
    ∧ (∀ p ∈ (coll [partOf 1 0 4]).parts, p.op = 4 ∧ p.dstFmt = 0) ∧ (4 : Nat) ≤ 8
    ∧ partOf 1 0 2 ∈ (coll [partOf 1 0 2, partOf 2 1 4]).parts ∧ partOf 2 1 4 ∈ (coll [partOf 1 0 2, partOf 2 1 4]).parts
    ∧ (partOf 1 0 2).op ≠ (partOf 2 1 4).op :=
  ⟨by decide, by decide, by decide, by decide, by simp [coll], by simp [coll], by decide⟩
theorem wit_CollectiveOperations_two : Gathered (sGather4 [partOf 1 0 2, partOf 2 1 4]) (coll [partOf 1 0 2, partOf 2 1 4]) shape4 4 4 4 0
    (fun _ => 0x50000) (fun _ => 0x100) (fun _ => 7) := by
  refine ⟨by rfl, ⟨rfl, rfl, by decide⟩, rfl, by decide, ⟨by decide, by decide⟩, by decide, by decide, ?_⟩
  intro p hp
  rcases List.mem_cons.1 hp with rfl | hp
  · exact ⟨collOp 1, wt intoTile, rfl, rfl, rfl, by decide, rfl, rfl, rfl, fun k hk =>
      ⟨(by decide +kernel : ∀ k, k < 4 → ∀ i, i < 4 → (lone t0 (wt intoTile)).isCmp (0x50000 + k * 4 + i) = false) k hk,
       (by decide : ∀ k, k < 4 → (lone t0 (wt intoTile)).reaches (dieOf 0) (homeDie (0x50000 + k * 4)) = true) k hk,
       (by intro a h; cases h)⟩⟩
  · rw [List.mem_singleton.1 hp]
    exact ⟨collOp 2, { wt intoTile with id := 2, wgx := 1 }, rfl, rfl, rfl, by decide, rfl, rfl, rfl, fun k hk =>
      ⟨(by decide +kernel : ∀ k, k < 4 → ∀ i, i < 4 → (lone t0 (wt intoTile)).isCmp (0x50000 + k * 4 + i) = false) k hk,
       (by decide : ∀ k, k < 4 → (lone t0 (wt intoTile)).reaches (dieOf 0) (homeDie (0x50000 + k * 4)) = true) k hk,
       (by intro a h; cases h)⟩⟩

/-! Claims: slots 0 to 2 and 63 and accumulator tile 0 are held. -/

def sHold : State := holding s0
def claimF (imm : Byte) : RI8 := ⟨imm, 0, 8, fX 0⟩
theorem wit_SlotClaims : (Instr.oclaim (claimF 60) false 1).Alone sHold t0 w0 ∧ t0.status = .ready ∧ t0.tidx ≠ 0xFFFF
    ∧ (sHold.threads.map Thread.key).Nodup
    ∧ (Instr.oclaim (claimF 61) false 1).Alone sHold t0 w0 ∧ 64 < 61 + (sHold.heldSlots w0).length
    ∧ 60 + (sHold.heldSlots w0).length ≤ 64 ∧ ¬ (∃ y ∈ sHold.claims, y.core = w0.core)
    ∧ (List.range 60).all (fun j => (sHold.core 0).slotHolder.all (fun p => p.1 != 3 + j)) = true
    ∧ (List.range 60).all (fun j => (sHold.core 0).slotHolder.all (fun p => p.1 != 2 + j)) = false
    ∧ (List.range 64).all (fun b => !(List.range 60).all (fun j => decide (b + j < 64) &&
        (({ sHold.core 0 with slotHolder := [(5, 2)] } : Core).slotHolder.all (fun p => p.1 != b + j)))) = true
    ∧ (Instr.oclaim (claimF 0x87) true 1).Alone sHold t0 w0 ∧ 7 + (sHold.heldAccs w0).length ≤ 8
    ∧ (Instr.oclaim (claimF 0x88) true 1).Alone sHold t0 w0 ∧ 8 < 8 + (sHold.heldAccs w0).length :=
  ⟨alone_of_ready (by rfl) (by rfl) (by rfl) (by decide), by rfl, by decide, by decide,
    alone_of_ready (by rfl) (by rfl) (by rfl) (by decide), by decide +kernel, by decide +kernel, by simp [sHold, holding, s0, lone, world, State.setCore, State.reset, State.placeInsn, State.setVf, State.setCtx],
    by decide +kernel, by decide +kernel, by decide +kernel, alone_of_ready (by rfl) (by rfl) (by rfl) (by decide), by decide +kernel,
    alone_of_ready (by rfl) (by rfl) (by rfl) (by decide), by decide +kernel⟩
/-- An earlier claim waits on the core. -/
def earlier : Claim := { id := 80, core := 0, wg := 1, acc := false, count := 1, kd := false, d := 8, pd := 1, keys := [], next := 0 }
theorem wit_SlotClaims_waits : let s : State := { sHold with claims := [earlier] }
    (Instr.oclaim (claimF 1) false 1).Alone s t0 w0 ∧ (∃ y ∈ s.claims, y.core = w0.core) :=
  ⟨alone_of_ready (by rfl) (by rfl) (by rfl) (by decide), earlier, List.mem_singleton.2 rfl, rfl⟩

def relT (a : Word) : Thread := { t0 with v := tn.v.set 4 a }
def sRel (a : Word) : State := holding (lone (relT a) w0)
def relF (imm : Byte) : RI8 := ⟨imm, 4, 0, fB⟩
theorem wit_SlotClaims_release : (Instr.orel (relF 3)).Alone (sRel 0) (relT 0) w0 ∧ (relT 0).seen = none
    ∧ (∀ j ∈ (List.range 3).map (· + 0), (j, w0.id) ∈ ((sRel 0).core w0.core).slotHolder) ∧ (sRel 0).inUse w0.id [0, 1, 2] [] = false
    ∧ ¬ (∃ e ∈ w0.tiles, e.kind = .slots ∧ e.state ≠ .empty)
    ∧ (Instr.orel (relF 1)).Alone (sRel 3) (relT 3) w0 ∧ (3, w0.id) ∉ ((sRel 3).core w0.core).slotHolder
    ∧ (Instr.orel (relF 0x80)).Alone (sRel 1) (relT 1) w0 ∧ (0, w0.id) ∈ ((sRel 1).core w0.core).accHolder
    ∧ (let s : State := { sRel 1 with ops := [{ reads7 with body := .accz 0 }] }
       (Instr.orel (relF 0x80)).Alone s (relT 1) w0 ∧ s.inUse w0.id [] [0] = true)
    ∧ (Instr.mstat (v3 8 0 0)).Runs sHold ∧ (Instr.oqry (v3 8 0 0)).Runs sHold ∧ w0.kernel.det = false :=
  ⟨alone_of_ready (by rfl) (by rfl) (by rfl) (by decide), by rfl, by decide +kernel, by decide +kernel, by decide +kernel,
    alone_of_ready (by rfl) (by rfl) (by rfl) (by decide), by decide +kernel, alone_of_ready (by rfl) (by rfl) (by rfl) (by decide),
    by decide +kernel, ⟨alone_of_ready (by rfl) (by rfl) (by rfl) (by decide), by decide +kernel⟩,
    runs_of_alone (alone_of_ready (t := t0) (w := w0) (by rfl) (by rfl) (by rfl) (by decide)),
    runs_of_alone (alone_of_ready (t := t0) (w := w0) (by rfl) (by rfl) (by rfl) (by decide)), by rfl⟩
/-- A tile that covers slots 1 and 2. -/
def wCover : Workgroup := wt (tile .ready 0 .slots 2 1 0)
theorem wit_SlotClaims_covered : (Instr.orel (relF 3)).Alone (holding (lone (relT 0) wCover)) (relT 0) wCover
    ∧ (wCover.tiles.any (fun e => e.kind == .slots && e.state != .empty && decide (e.base ≤ 2 ∧ 2 < e.base + e.size))) = true :=
  ⟨alone_of_ready (by rfl) (by rfl) (by rfl) (by decide), by decide +kernel⟩

/-! Matrix operations: INT8 operands in slots 0 (A) and 1 and 2 (B), accumulator tile 0, completion tile 7. -/

/-- The parameter block: tensors 1 and 1, slots, tiles 4 and 5, KCH 16, and the strip of MMAS. -/
def mmaImage (kch : Nat) (row0 : Byte) : List Byte :=
  [1, 0, 1, 0, 0, 1, 4, 5, 8] ++ natLe 1 kch ++ [0, 0xFF, 0, 0, 0, 0, 0, 0, 7, row0] ++ List.replicate 108 0
def mmaCells (row0 : Memory) : Memory := [(0x80, 1), (0x82, 1), (0x85, 1), (0x86, 4), (0x87, 5), (0x88, 8), (0x89, 16), (0x8B, 255), (0x92, 7)] ++ row0
def mmaTiles : List Tile :=
  List.replicate 4 Tile.fresh ++ [tile .ready 0 .slots 1 0 0, tile .ready 0 .slots 2 1 0, Tile.fresh, intoTile]
def wMma (row0 : Memory) (mask : Dword) : Workgroup :=
  { w0 with spad := mmaCells row0, tiles := mmaTiles, k := Vector.replicate 64 mask }
/-- v6 holds the block's offset. -/
def tMma : Thread := { t0 with v := tn.v.set 6 0x80 }
def sMma (w : Workgroup) : State := holding (withTensor (lone tMma w))
def blockOf (sparse : Bool) (row0 : Nat) : MmaBlock :=
  { atid := 1, btid := 1, aslot := 0, bslot := 1, atile := 4, btile := 5, acc := 0, ovw := true, asc := false, bsc := false, kch := 16
    blkA := 16, blkB := 16, stile := 255, stag := 0, ascnt := 0, bscnt := 0, ctile := 7, row0 := if sparse then row0 else 0, clean := true }
def masksOf (w : Workgroup) : List Byte :=
  (List.range 256).map (fun j => BitVec.ofNat 8 ((kread w tMma (0 + j / 8)).toNat / 256 ^ (j % 8)))

theorem wit_MatrixMultiply : let w := wMma [] 0; let s := sMma w; let p := blockOf false 0
    (Instr.mma (v3 0 6 0)).Alone s tMma w ∧ tMma.seen = none ∧ s.queueLen w.core 4 < 16
    ∧ InSpad w ((v3 0 6 0).srcA w tMma).toNat 128 128 (mmaImage 16 0) ∧ mmaBlock false (mmaImage 16 0) = p ∧ p.clean = true
    ∧ s.tensor w p.atid = .ok tensor1 ∧ s.tensor w p.btid = .ok tensor1 ∧ p.pairs false tensor1.fmt tensor1.fmt = true
    ∧ s.mmaHolds w p = true
    ∧ (∀ x ∈ [p.atile, p.btile], ∃ e, w.tiles[x]? = some e ∧ e.state = .ready ∧ e.err = 0)
    ∧ nextPacket p.asc p.stag p.ascnt [] = some (none, []) ∧ w.tiles[p.ctile]? = some intoTile
    ∧ intoTile.state = .filling ∧ intoTile.claimed + 64 ≤ intoTile.expected :=
  ⟨alone_of_ready (by rfl) (by rfl) (by rfl) (by decide), by rfl, by decide +kernel,
    ⟨by decide +kernel, by decide +kernel, (by intro a h; cases h), by decide +kernel⟩, by decide +kernel, by rfl, by decide +kernel,
    by decide +kernel, by decide +kernel, by decide +kernel, by
      intro x hx
      rcases List.mem_cons.1 hx with rfl | hx
      · exact ⟨tile .ready 0 .slots 1 0 0, by rfl, by rfl, by rfl⟩
      · rw [List.mem_singleton.1 hx]
        exact ⟨tile .ready 0 .slots 2 1 0, by rfl, by rfl, by rfl⟩, by rfl, by rfl, by rfl, by decide⟩
theorem wit_MatrixMultiply_sparse : let w := wMma [(0x93, 3)] 0x0F0F0F0F0F0F0F0F; let s := sMma w; let p := blockOf true 3
    (Instr.mmas (v3 0 6 0)).Alone s tMma w ∧ mmaBlock true (mmaImage 16 3) = p
    ∧ InSpad w ((v3 0 6 0).srcA w tMma).toNat 128 128 (mmaImage 16 3) ∧ p.pairs true tensor1.fmt tensor1.fmt = true
    ∧ 0 + 2 * p.kch ≤ 64 ∧ (masksOf w).all (fun x => (List.range 8).countP (fun j => bit x j) == 4) = true
    ∧ (masksOf (wMma [] 0)).any (fun x => (List.range 8).countP (fun j => bit x j) != 4) = true :=
  ⟨alone_of_ready (by rfl) (by rfl) (by rfl) (by decide), by decide +kernel,
    ⟨by decide +kernel, by decide +kernel, (by intro a h; cases h), by decide +kernel⟩, by decide +kernel, by decide, by decide +kernel,
    by decide +kernel⟩
def fullQueue : List Op := (List.range 16).map (fun i => { reads7 with id := 100 + i })
theorem wit_MatrixMultiply_full : let w := wMma [] 0; let s : State := { sMma w with ops := fullQueue }
    (Instr.mma (v3 0 6 0)).Alone s tMma w ∧ 16 ≤ s.queueLen w.core 4 :=
  ⟨alone_of_ready (by rfl) (by rfl) (by rfl) (by decide), by decide +kernel⟩
/-- E4M3 operands of which A is scaled, and no packet with the tag. -/
def scaledBlock : MmaBlock := { blockOf false 0 with asc := true, stile := 6, ascnt := 1024, stag := 9 }
theorem wit_MatrixMultiply_packet : scaledBlock.pairs false 3 3 = true
    ∧ (∀ x, ([] : List Packet).head? = some x → x.tag ≠ scaledBlock.stag ∨ x.bytes.length ≠ scaledBlock.ascnt) :=
  ⟨by decide, by intro x h; cases h⟩

/-! The matrix queue. -/

def mqTiles (e : Tile) : Workgroup := { w0 with spadSize := 131072, tiles := List.replicate 7 Tile.fresh ++ [e] }
def mqF (d : Reg) (off : Word) : RI8 × Thread := (⟨7, 4, d, fB⟩, { t0 with v := tn.v.set 4 off })
theorem wit_MatrixQueue : (Instr.accz 0 fB).Alone sHold t0 w0 ∧ sHold.queueLen w0.core 4 < 16 ∧ (0, w0.id) ∈ (sHold.core w0.core).accHolder
    ∧ (Instr.accz 1 fB).Alone sHold t0 w0 ∧ (1, w0.id) ∉ (sHold.core w0.core).accHolder
    ∧ (Instr.mwait fB).Alone sHold t0 w0 ∧ sHold.ops.filter (fun o => o.wg == w0.id && o.q == 4) = []
    ∧ (let s : State := { sHold with ops := fullQueue }
       (Instr.accz 0 fB).Alone s t0 w0 ∧ ¬ s.queueLen w0.core 4 < 16
       ∧ (Instr.mwait fB).Alone s t0 w0 ∧ s.ops.filter (fun o => o.wg == w0.id && o.q == 4) ≠ []) :=
  ⟨alone_of_ready (by rfl) (by rfl) (by rfl) (by decide), by decide +kernel, by decide +kernel,
    alone_of_ready (by rfl) (by rfl) (by rfl) (by decide), by decide +kernel, alone_of_ready (by rfl) (by rfl) (by rfl) (by decide),
    by decide +kernel, alone_of_ready (by rfl) (by rfl) (by rfl) (by decide), by decide +kernel,
    alone_of_ready (by rfl) (by rfl) (by rfl) (by decide), by decide +kernel⟩
theorem wit_MatrixQueue_moves : let e := tile .ready 0 .spad 513 0 0; let w := mqTiles e; let m := mqF 0 64
    let f := tile .filling 0 .spad 513 0 32768; let wf := mqTiles f
    (Instr.accld m.1).Alone (holding (lone m.2 w)) m.2 w ∧ w.tiles[7]? = some e ∧ (64 : Word).toNat % 64 = 0
    ∧ (64 : Word).toNat + 32768 ≤ 64 * e.size
    ∧ (Instr.accld m.1).Alone (holding (lone m.2 wf)) m.2 wf ∧ f.state ≠ .ready
    ∧ (Instr.accld (mqF 0 65).1).Alone (holding (lone (mqF 0 65).2 w)) (mqF 0 65).2 w ∧ (65 : Word).toNat % 64 ≠ 0
    ∧ (Instr.accst m.1).Alone (holding (lone m.2 wf)) m.2 wf ∧ wf.tiles[7]? = some f ∧ f.claimed + 32768 ≤ f.expected
    ∧ (Instr.acccvt ⟨7, 4, 0, fSr⟩ false 2).Alone (holding (lone m.2 wf)) m.2 wf ∧ (64 : Word).toNat + 8192 * elemBytes 2 ≤ f.bytes
    ∧ f.claimed + 8192 * elemBytes 2 ≤ f.expected :=
  ⟨alone_of_ready (by rfl) (by rfl) (by rfl) (by decide), by rfl, by decide, by decide,
    alone_of_ready (by rfl) (by rfl) (by rfl) (by decide), by decide, alone_of_ready (by rfl) (by rfl) (by rfl) (by decide), by decide,
    alone_of_ready (by rfl) (by rfl) (by rfl) (by decide), by rfl, by decide, alone_of_ready (by rfl) (by rfl) (by rfl) (by decide),
    by decide, by decide⟩

/-! Sparsity and scales. -/

def wFifo : Workgroup := { wt (tile .filling 0 .fifo 0 0 511) with k := Vector.replicate 64 0x0123456789ABCDEF }
/-- An entry of format CB4. -/
def sCb : State :=
  let s := lone (relT 1) w0
  { s with mem := tableCells ++ [(0x100100, 0x19), (0x100101, 0x40), (0x10010A, 5), (0x100118, 4), (0x10011C, 1), (0x100120, 1), (0x100124, 1),
      (0x100128, 1), (0x10012C, 1), (0x100130, 1), (0x100134, 1), (0x100138, 1), (0x100198, 4), (0x10019C, 1), (0x1001A0, 1), (0x1001A4, 1),
      (0x1001A8, 1), (0x1001AC, 1), (0x1001B0, 1), (0x1001B4, 1)] }
def cbTensor : Tensor := { tensor1 with fmt := 9 }
theorem wit_SparsityAndScales : (Instr.spcomp (v3x 10 2 0 12) 5).Runs sn
    ∧ (Instr.cbset (v3 0 4 8)).Alone sCb (relT 1) w0 ∧ (sCb.ctx w0.ctxn).desc = some bootDesc ∧ bits ((v3 0 4 8).srcA w0 (relT 1)) 31 12 = 0
    ∧ sCb.tensor w0 ((v3 0 4 8).srcA w0 (relT 1)).toNat = .ok cbTensor ∧ (bootDesc.tit + 256) % 256 = 0
    ∧ sCb.isCmp (bootDesc.tit + 256 + 0x78) = false ∧ sCb.mem.wf = true ∧ cbTensor.fmt = 9
    ∧ (let t := { relT 1 with v := (relT 1).v.set 8 0x20 }
       (Instr.cbset (v3 0 4 8)).Alone { sCb with threads := [t] } t w0 ∧ InSpad w0 ((v3 0 4 8).srcB w0 t).toNat 32 32 (List.replicate 32 0))
    ∧ tensor1.fmt ≠ 9
    ∧ (Instr.mscl (v3x 7 0 0 0) 511 0x11).Alone (lone t0 wFifo) t0 wFifo ∧ t0.status = .ready
    ∧ wFifo.tiles[7]? = some (tile .filling 0 .fifo 0 0 511) ∧ 0 + 511 ≤ (tile .filling 0 .fifo 0 0 511).expected
    ∧ (0 : Reg).toNat + (511 + 7) / 8 ≤ 64 :=
  ⟨runs_of_alone (alone_lone (by decide)), alone_of_ready (by rfl) (by rfl) (by rfl) (by decide), by rfl, by decide, by decide +kernel,
    by decide, by decide +kernel, by decide +kernel, by rfl,
    ⟨alone_of_ready (by rfl) (by rfl) (by rfl) (by decide), inSpad_empty (by rfl) (by rfl) _ _ _ (by decide) (by decide)⟩, by decide,
    alone_lone (by decide), by rfl, by rfl, by decide, by decide⟩

/-! The matrix unit. -/

def mmaOp (sparse : Option (Nat × List Byte)) : MmaOp :=
  { fmtA := 5, fmtB := 5, aslot := 0, bslot := 1, atile := 4, btile := 5, acc := 0, ovw := false, kch := 1, scaleA := none, scaleB := none
    stile := none, ctile := 7, cbA := [], cbB := [], sparse }
def mqOp (body : OpBody) : Op := { id := 90, core := 0, q := 4, wg := 1, issuer := 0, started := true, err := 0, body }
def sUnit (body : OpBody) : State := { lone t0 (wt intoTile) with ops := [mqOp body] }
theorem wit_AccumulatorOperations : (sUnit (.mma (mmaOp none))).headOp 0 4 = some (mqOp (.mma (mmaOp none)))
    ∧ (sUnit (.mma (mmaOp none))).ecc = [] ∧ (sUnit (.mma (mmaOp none))).accmem.wf = true
    ∧ (sUnit (.mma (mmaOp none))).wg 1 = some (wt intoTile)
    ∧ (∀ n ∈ [4, 5], (wt intoTile).tileIs n .draining = false) ∧ (mmaOp none).fmtA = 5 ∧ (mmaOp none).fmtB = 5 ∧ (mmaOp none).sparse = none
    ∧ (sUnit (.mma (mmaOp (some (3, []))))).headOp 0 4 = some (mqOp (.mma (mmaOp (some (3, []))))) :=
  ⟨by rfl, by rfl, by rfl, by rfl, by decide, by rfl, by rfl, by rfl, by rfl⟩
theorem wit_AccumulatorOperations_ends : (sUnit (.accz 7)).headOp 0 4 = some (mqOp (.accz 7)) ∧ (wt intoTile).spadErr = []
    ∧ (wt intoTile).spad.wf = true ∧ (wt intoTile).tiles[7]? = some intoTile ∧ intoTile.state ≠ .draining ∧ intoTile.kind = .spad
    ∧ (sUnit (.accld 7 7 64)).headOp 0 4 = some (mqOp (.accld 7 7 64)) ∧ (sUnit (.accst 7 7 64)).headOp 0 4 = some (mqOp (.accst 7 7 64))
    ∧ (sUnit (.acccvt 7 7 64 false 2 0 0 0 0 0 0 0)).headOp 0 4 = some (mqOp (.acccvt 7 7 64 false 2 0 0 0 0 0 0 0))
    ∧ (0 : BitVec 3) ≠ 5 :=
  ⟨by rfl, by rfl, by rfl, by rfl, by decide, by rfl, by rfl, by rfl, by rfl, by decide⟩

/-! Graphs: graph 7, directed, a multigraph, and graph 8, neither; both with three pages of store on die 0. -/

def gdesc (g : Nat) (directed multi : Bool) : GraphDesc :=
  { ctxn := 0, die := 0, g, directed, multi, idw := 40, vpw := 8, epw := 2, ranges := true
    parts := [(0, 0, 0xFF), (1000, 1, 0xFF)], sbase := 0x40000000000, ssize := 0x30000 }
def dM : GraphDesc := gdesc 7 true true
def dS : GraphDesc := gdesc 8 false false
/-- Vertices 5, 6 and 9 of each, and two edges from 5 to 6 in graph 7, one in graph 8. -/
def vert (g id : Nat) : Vertex := ⟨0, g, id, [1, 2, 3, 4, 5, 6, 7, 8]⟩
def edge7 (n : Nat) : Edge := ⟨0, 7, 5, 6, BitVec.ofNat 64 (2 ^ 28 + n), [10, 11]⟩
def edge8 : Edge := ⟨0, 8, 5, 6, 0x20000003, [12, 13]⟩
def graphed (s : State) : State :=
  { s with
    mem := s.mem ++ [(0x20008, 0xC7), (0x2000E, 0xF0), (0x2000F, 0x0F)]
    graphs := [dM, dS], verts := [vert 7 5, vert 7 6, vert 7 9, vert 8 5, vert 8 6, vert 8 9]
    edges := [edge7 2, edge7 1, edge8]
    issued := [⟨0, 7, 5, 6, (edge7 1).handle⟩, ⟨0, 7, 5, 6, (edge7 2).handle⟩, ⟨0, 8, 5, 6, edge8.handle⟩] }
/-- v4 and v5 name a vertex, v6 and v7 are operand B. -/
def tg (g id : Nat) (b : Dword) : Thread :=
  { t0 with v := (((tn.v.set 4 (BitVec.ofNat 32 id)).set 5 (BitVec.ofNat 32 (256 * g))).set 6 (bits b 31 0)).set 7 (bits b 63 32) }
def sg (t : Thread) (w : Workgroup) : State :=
  let s := graphed (lone t w)
  { s with mem := [(0x10000, 1), (0x10002, 2), (0x20000, 0x87), (0x20006, 0xF0), (0x20007, 0x0F), (0x20008, 0xC7),
      (0x2000E, 0xF0), (0x2000F, 0x0F)] }
def gf (idx : BitVec 4) (dirn : BitVec 2) (op : BitVec 4) : GraphForm :=
  ⟨⟨8, 4, 6, false, fX 16⟩, { op, idx, fall := false, mig := false, dirn, pd := 1 }⟩

def presentB : StorePage → Bool | .present _ => true | _ => false
theorem kept_of {s : State} {d : GraphDesc} {id adds : Nat}
    (h : (List.range (d.ssize / 65536)).all (fun p => presentB (s.storePage d (s.vertexHome d id).2 p)) = true)
    (hr : 65536 + s.storeBound d (s.vertexHome d id) + adds ≤ s.storePages d (s.vertexHome d id).2 * 65536)
    (hf : s.txns = [] := by rfl) : Kept s d id adds := by
  refine ⟨fun p hp => ?_, .inr hr, by rw [hf]; simp⟩
  have := (List.all_eq_true.1 h) p (List.mem_range.2 hp)
  cases hl : s.storePage d (s.vertexHome d id).2 p with
  | present mine => exact ⟨mine, rfl⟩
  | absent => simp [hl, presentB] at this
  | refused => simp [hl, presentB] at this

def ref (t : Thread) : Dword := (gf 0 0 0).v.srcA64 w0 t
def absent : Thread := tg 7 4 0
def edged : Thread := tg 7 5 0
def isolated : Thread := tg 7 9 0
theorem wit_VertexInstructions : absent.seen = none ∧ dM.directed = true
    ∧ AtHome (sg absent w0) absent w0 dM (ref absent) ∧ Kept (sg absent w0) dM 4 (64 + 4 * 8)
    ∧ (sg absent w0).vertex 0 7 4 = none ∧ (7 : BitVec 4).toNat < dM.vpw ∧ ¬ dM.vpw ≤ (7 : BitVec 4).toNat
    ∧ AtHome (sg edged w0) edged w0 dM (ref edged) ∧ Kept (sg edged w0) dM 5 (64 + 4 * 8)
    ∧ (sg edged w0).vertex 0 7 5 = some (vert 7 5) ∧ (bits (ref edged) 39 0).toNat = 5
    ∧ (∃ e ∈ (sg edged w0).edges, (e.ctxn == 0 && e.g == 7 && e.u == 5) = true)
    ∧ AtHome (sg isolated w0) isolated w0 dM (ref isolated) ∧ Kept (sg isolated w0) dM 9 (64 + 4 * 8)
    ∧ (sg isolated w0).vertex 0 7 9 = some (vert 7 9)
    ∧ (∀ e ∈ (sg isolated w0).edges, (e.ctxn == 0 && e.g == 7 && e.u == 9) = false ∧ (e.ctxn == 0 && e.g == 7 && e.v == 9) = false)
    ∧ (8 : BitVec 4).toNat ≤ 8 ∧ dM.vpw ≤ (8 : BitVec 4).toNat :=
  ⟨by rfl, by rfl, ⟨by rfl, by decide +kernel, by decide +kernel, by decide +kernel⟩, kept_of (by decide +kernel) (by decide +kernel), by decide +kernel,
    by decide, by decide, ⟨by rfl, by decide +kernel, by decide +kernel, by decide +kernel⟩, kept_of (by decide +kernel) (by decide +kernel), by decide +kernel,
    by decide +kernel, ⟨edge7 2, by simp [sg, graphed], by decide⟩, ⟨by rfl, by decide +kernel, by decide +kernel, by decide +kernel⟩,
    kept_of (by decide +kernel) (by decide +kernel), by decide +kernel, by decide, by decide, by decide⟩
def gAlone (i : GraphForm → Instr) (f : GraphForm) (t : Thread) : Prop := (i f).Alone (sg t w0) t w0
theorem wit_VertexInstructions_alone : gAlone .vins (gf 0 0 0) absent ∧ gAlone .vdel (gf 0 0 0) isolated ∧ gAlone .deg (gf 0 1 0) edged
    ∧ gAlone .vget (gf 7 0 0) edged ∧ gAlone .vset (gf 7 0 0) edged ∧ gAlone .vatom (gf 7 0 8) edged ∧ gAlone .vget (gf 8 0 0) edged
    ∧ gAlone .ghome (gf 0 0 0) edged ∧ gAlone .gstat (gf 0 0 0) edged
    ∧ (sg edged w0).graph 0 0 7 = some dM ∧ (∀ p ∈ dM.parts, p.2.2 = 0xFF ∨ p.2.2 = (sg edged w0).pkg) ∧ (sg edged w0).verts.length < 2 ^ 64 :=
  ⟨alone_of_ready (by rfl) (by rfl) (by rfl) (by decide), alone_of_ready (by rfl) (by rfl) (by rfl) (by decide),
    alone_of_ready (by rfl) (by rfl) (by rfl) (by decide), alone_of_ready (by rfl) (by rfl) (by rfl) (by decide),
    alone_of_ready (by rfl) (by rfl) (by rfl) (by decide), alone_of_ready (by rfl) (by rfl) (by rfl) (by decide),
    alone_of_ready (by rfl) (by rfl) (by rfl) (by decide), alone_of_ready (by rfl) (by rfl) (by rfl) (by decide),
    alone_of_ready (by rfl) (by rfl) (by rfl) (by decide), by rfl, by decide, by decide⟩

/-- A thread waits for VGET of vertex 5. -/
def away5 (i : Instr) : Thread := { edged with status := .data (.graph i 0x77) }
theorem wit_VertexInstructions_away : let f := gf 7 0 0; let i := Instr.vget f; let t := away5 i; let s := sg t w0
    t.status = .data (.graph i 0x77) ∧ s.thread t.key = some t ∧ s.wg t.wg = some w0 ∧ s.steps w0 = false
    ∧ s.graph w0.ctxn (dieOf (s.coreOf t)) (bits (ref edged) 55 40).toNat = some dM ∧ bits (ref edged) 63 56 = 0
    ∧ (bits (ref edged) 39 0).toNat < 2 ^ dM.idw ∧ s.vertex w0.ctxn dM.g (bits (ref edged) 39 0).toNat = some (vert 7 5)
    ∧ Kept s dM (bits (ref edged) 39 0).toNat 0 ∧ t.key ∈ s.threads.map Thread.key :=
  ⟨by rfl, by rfl, by rfl, by rfl, by decide +kernel, by decide +kernel, by decide +kernel, by decide +kernel, kept_of (by decide +kernel) (by decide +kernel),
    by decide⟩

/-! Edges. -/

/-- EINS from 5 to 6 and from 6 to 9, EFIND, EGET of entry 1 and 2, and EDEL by handle. -/
def toVertex (g id v : Nat) : Thread := tg g id (BitVec.ofNat 64 (g * 2 ^ 40 + v))
def refB (t : Thread) : Dword := (gf 0 0 0).v.srcB64 w0 t
def ends2 (g id v : Nat) : Prop := let t := toVertex g id v; let d := if g = 7 then dM else dS
  AtHome (sg t w0) t w0 d (ref t) ∧ Kept (sg t w0) d id (2 * (16 + 4 * 2)) ∧ Kept (sg t w0) d v (16 + 4 * 2)
    ∧ bits (refB t) 63 56 = 0 ∧ bits (refB t) 55 40 = bits (ref t) 55 40 ∧ (bits (refB t) 39 0).toNat < 2 ^ d.idw
    ∧ ((sg t w0).vertexHome d (bits (refB t) 39 0).toNat).1 = (sg t w0).pkg ∧ gAlone .eins (gf 0 0 0) t ∧ gAlone .efind (gf 0 0 0) t
theorem wit_GraphEdges_multi : ends2 7 5 6 := by
  refine ⟨⟨by rfl, by decide +kernel, by decide +kernel, by decide +kernel⟩, kept_of (by decide +kernel) (by decide +kernel), kept_of (by decide +kernel) (by decide +kernel),
    by decide +kernel, by decide +kernel, by decide +kernel, by decide +kernel, ?_, ?_⟩ <;> exact alone_of_ready (by rfl) (by rfl) (by rfl) (by decide)
theorem wit_GraphEdges_simple : ends2 8 6 5 ∧ ends2 8 6 9 := by
  constructor <;>
  refine ⟨⟨by rfl, by decide +kernel, by decide +kernel, by decide +kernel⟩, kept_of (by decide +kernel) (by decide +kernel), kept_of (by decide +kernel) (by decide +kernel),
    by decide +kernel, by decide +kernel, by decide +kernel, by decide +kernel, ?_, ?_⟩ <;> exact alone_of_ready (by rfl) (by rfl) (by rfl) (by decide)
theorem wit_GraphEdges_absent : ends2 7 4 6 ∧ (sg (toVertex 7 4 6) w0).vertex 0 7 4 = none := by
  refine ⟨⟨⟨by rfl, by decide +kernel, by decide +kernel, by decide +kernel⟩, kept_of (by decide +kernel) (by decide +kernel), kept_of (by decide +kernel) (by decide +kernel),
    by decide +kernel, by decide +kernel, by decide +kernel, by decide +kernel, ?_, ?_⟩, by decide +kernel⟩ <;> exact alone_of_ready (by rfl) (by rfl) (by rfl) (by decide)
theorem wit_GraphEdges : let s := sg edged w0
    s.adj dM 5 false = [(6, (edge7 1).handle), (6, (edge7 2).handle)] ∧ s.adj dS 6 false = [(5, edge8.handle)]
    ∧ (s.vertex 0 7 5).isSome = true ∧ (s.vertex 0 7 6).isSome = true ∧ dM.multi = true
    ∧ (s.vertex 0 8 5).isSome = true ∧ (s.vertex 0 8 6).isSome = true ∧ (s.vertex 0 8 9).isSome = true ∧ dS.multi = false
    ∧ s.edges.find? (fun e => (e.ctxn == 0 && e.g == 8) && ((e.u == 6 && e.v == 5) || (!dS.directed && e.u == 5 && e.v == 6))) = some edge8
    ∧ (∀ e ∈ s.edges, ((e.ctxn == 0 && e.g == 8) && ((e.u == 6 && e.v == 9) || (!dS.directed && e.u == 9 && e.v == 6))) = false)
    ∧ (s.adj dM 5 false).length < 4294967295 ∧ (s.adj dM 6 dM.directed).length < 4294967295
    ∧ (s.issued.filter (fun e => e.ctxn == 0)).length < 2 ^ 28 - 1 :=
  ⟨by decide +kernel, by decide +kernel, by rfl, by rfl, by rfl, by rfl, by rfl, by rfl, by rfl, by decide, by decide, by decide +kernel, by decide +kernel,
    by decide⟩
/-- The last entry of the list, and the place after it. -/
theorem wit_GraphEdges_entries : gAlone .eget (gf 0 0 0) (tg 7 5 1)
    ∧ ((sg (tg 7 5 1) w0).adj dM 5 false)[((gf 0 0 0).v.srcB w0 (tg 7 5 1)).toNat]? = some (6, (edge7 2).handle)
    ∧ gAlone .eget (gf 0 0 0) (tg 7 5 2)
    ∧ ((sg (tg 7 5 2) w0).adj dM 5 false).length ≤ ((gf 0 0 0).v.srcB w0 (tg 7 5 2)).toNat
    ∧ (let t := tg 7 6 (edge7 2).handle; let s := sg t w0
       gAlone .edel (gf 1 1 0) t ∧ gAlone .epget (gf 1 1 0) t ∧ gAlone .epset (gf 1 1 0) t ∧ edge7 2 ∈ s.edges
       ∧ (s.vertex 0 7 6).isSome = true ∧ (edge7 2).v = 6 ∧ (edge7 2).handle = refB t ∧ (1 : BitVec 4).toNat < dM.epw
       ∧ ∀ e' ∈ s.edges, (e'.ctxn == 0 && e'.g == 7) = true → e'.handle = refB t → e' = edge7 2)
    ∧ (let t := tg 7 6 99; let s := sg t w0
       gAlone .edel (gf 0 0 0) t ∧ gAlone .epget (gf 1 0 0) t ∧ gAlone .epset (gf 1 0 0) t
       ∧ ∀ e ∈ s.edges, (e.ctxn == 0 && e.g == 7) = true → e.handle ≠ refB t) :=
  ⟨alone_of_ready (by rfl) (by rfl) (by rfl) (by decide), by decide +kernel, alone_of_ready (by rfl) (by rfl) (by rfl) (by decide),
    by decide +kernel, ⟨alone_of_ready (by rfl) (by rfl) (by rfl) (by decide), alone_of_ready (by rfl) (by rfl) (by rfl) (by decide),
      alone_of_ready (by rfl) (by rfl) (by rfl) (by decide), by simp [sg, graphed], by rfl, by rfl, by decide +kernel, by decide, by decide +kernel⟩,
    ⟨alone_of_ready (by rfl) (by rfl) (by rfl) (by decide), alone_of_ready (by rfl) (by rfl) (by rfl) (by decide),
      alone_of_ready (by rfl) (by rfl) (by rfl) (by decide), by decide +kernel⟩⟩

/-! Cursors. -/

/-- The last operand of COPEN: start at neighbor 6. -/
theorem wit_Cursors_open : let t := tg 7 5 6; let f := gf 1 1 0
    AtHome (sg t w0) t w0 dM (ref t) ∧ Kept (sg t w0) dM 5 0 ∧ bits (refB t) 63 40 = 0 ∧ dM.directed = true ∧ gAlone .copen f t :=
  ⟨⟨by rfl, by decide +kernel, by decide +kernel, by decide +kernel⟩, kept_of (by decide +kernel) (by decide +kernel), by decide +kernel, by rfl,
    alone_of_ready (by rfl) (by rfl) (by rfl) (by decide)⟩
/-- Cursor 4 stands at the first edge from 5 to 6, or at the second and last. -/
def standing (g : Nat) (tie : BitVec 28) : BitVec 128 := cursorOf (BitVec.ofNat 16 g) 5 6 tie false true false
def tcur (c : BitVec 128) : Thread := { t0 with v := tn.v }.setCursor 4 c
theorem wit_Cursors_at : let c := standing 7 1; let t := tcur c; let s := sg t w0; let a : Dword := 0#8 ++ bits c 127 72
    t.cursor 4 = c ∧ bit c 0 = true ∧ AtHome s t w0 dM a ∧ Kept s dM 5 0
    ∧ (s.adj dM 5 (bit c 1)).find? (comesAfter true c) = some (6, (edge7 2).handle)
    ∧ gAlone .cpeek (gf 0 0 0) t ∧ gAlone .cnext (gf 0 0 0) t ∧ gAlone .crank (gf 0 0 0) t :=
  ⟨by decide, by decide, ⟨by rfl, by decide +kernel, by decide +kernel, by decide +kernel⟩, kept_of (by decide +kernel) (by decide +kernel), by decide +kernel,
    alone_of_ready (by rfl) (by rfl) (by rfl) (by decide), alone_of_ready (by rfl) (by rfl) (by rfl) (by decide),
    alone_of_ready (by rfl) (by rfl) (by rfl) (by decide)⟩
theorem wit_Cursors_end : let c := standing 7 2; let t := tcur c; let s := sg t w0; let a : Dword := 0#8 ++ bits c 127 72
    bit c 0 = true ∧ AtHome s t w0 dM a ∧ Kept s dM 5 0 ∧ (s.adj dM 5 (bit c 1)).find? (comesAfter true c) = none
    ∧ gAlone .cpeek (gf 0 0 0) t ∧ gAlone .cnext (gf 0 0 0) t :=
  ⟨by decide, ⟨by rfl, by decide +kernel, by decide +kernel, by decide +kernel⟩, kept_of (by decide +kernel) (by decide +kernel), by decide +kernel,
    alone_of_ready (by rfl) (by rfl) (by rfl) (by decide), alone_of_ready (by rfl) (by rfl) (by rfl) (by decide)⟩
def tAt (off : Word) : Thread := { t0 with v := tn.v.set 4 off }
theorem wit_Cursors_images : w0.foreign = none ∧ (Instr.csave (gf 0 0 0)).Alone (lone (tAt 0x1FF0) w0) (tAt 0x1FF0) w0
    ∧ (Instr.crest (gf 0 0 0)).Alone (lone (tAt 0x1FF0) w0) (tAt 0x1FF0) w0 ∧ InSpad w0 0x1FF0 16 16 (List.replicate 16 0)
    ∧ (Instr.cclose (gf 0 0 0)).Runs s0
    ∧ bit (0x8 : BitVec 128) 0 = false ∧ (0x8 : BitVec 128) ≠ 0 ∧ bit (0xD : BitVec 128) 2 = true ∧ bit (0xD : BitVec 128) 3 = true
    ∧ bits (0x11 : BitVec 128) 31 4 ≠ 0 ∧ bit (0x11 : BitVec 128) 2 = false :=
  ⟨by rfl, alone_lone (by decide), alone_lone (by decide), inSpad_empty (by rfl) (by rfl) _ _ _ (by decide) (by decide),
    runs_of_alone (alone_lone (by decide)), by decide, by decide, by decide, by decide, by decide, by decide⟩

/-! Streams: cursor 4 in graph 7 and cursor 6 in graph 8. -/

def tss (ca cb : BitVec 128) : Thread := ({ t0 with v := tn.v }.setCursor 4 ca).setCursor 6 cb
def starting (g id : Nat) : BitVec 128 := cursorOf (BitVec.ofNat 16 g) (BitVec.ofNat 40 id) 0 0 false false false
def streamB (ca cb : BitVec 128) (f : GraphForm) : Bool :=
  let t := tss ca cb
  let s := sg t w0
  readyB (.sinter f) t w0 && readyB (.sdiff f) t w0 && t.cursor 4 == ca && t.cursor 6 == cb && bit ca 0 && bit cb 0
  && s.graph 0 0 (bits ca 127 112).toNat == some dM && decide ((bits ca 111 72).toNat < 2 ^ dM.idw)
  && s.graph 0 0 (bits cb 127 112).toNat == some dS && decide ((bits cb 111 72).toNat < 2 ^ dS.idw)
  && decide (s.queueLen 0 5 < 32) && t.seen == none
theorem wit_GraphStreams : streamB (starting 7 5) (starting 8 5) (gf 3 0 0) = true := by decide +kernel
def streamOp (diff : Bool) (bound : Option Dword) : Op :=
  { id := 90, core := 0, q := 5, wg := 1, issuer := 0, started := false, err := 0, body := .stream diff 4 6 bound false 8 }
def tStream (ca cb : BitVec 128) : Thread := { tss ca cb with status := .blocked (.stream 90) }
def sStream (ca cb : BitVec 128) (diff : Bool) (bound : Option Dword) : State :=
  { sg (tStream ca cb) w0 with ops := [streamOp diff bound] }
/-- The entries after the two places. -/
def after (ca cb : BitVec 128) : Option (Nat × Dword) × Option (Nat × Dword) :=
  let s := sStream ca cb false none
  ((s.adj dM (bits ca 111 72).toNat (bit ca 1)).find? (comesAfter true ca), (s.adj dS (bits cb 111 72).toNat (bit cb 1)).find? (comesAfter false cb))
theorem wit_GraphStreams_step : let ca := starting 7 5; let cb := starting 8 5; let t := tStream ca cb; let s := sStream ca cb false (some 5)
    s.ops.find? (fun x => x.id == 90 && x.core == 0) = some (streamOp false (some 5)) ∧ s.thread ⟨1, 0⟩ = some t ∧ s.wg 1 = some w0
    ∧ t.status = .blocked (.stream 90) ∧ t.cursor 4 = ca ∧ t.cursor 6 = cb
    ∧ s.graph 0 0 (bits ca 127 112).toNat = some dM ∧ (bits ca 111 72).toNat < 2 ^ dM.idw
    ∧ (s.vertexHome dM (bits ca 111 72).toNat).1 = s.pkg ∧ Kept s dM (bits ca 111 72).toNat 0
    ∧ s.graph 0 0 (bits cb 127 112).toNat = some dS ∧ (bits cb 111 72).toNat < 2 ^ dS.idw
    ∧ (s.vertexHome dS (bits cb 111 72).toNat).1 = s.pkg ∧ Kept s dS (bits cb 111 72).toNat 0
    ∧ t.tidx ≠ 0xFFFF ∧ s.steps w0 = false :=
  ⟨by rfl, by rfl, by rfl, by rfl, by decide +kernel, by decide +kernel, by rfl, by decide, by decide +kernel, kept_of (by decide +kernel) (by decide +kernel),
    by rfl, by decide, by decide +kernel, kept_of (by decide +kernel) (by decide +kernel), by decide, by rfl⟩
/-- Equal neighbors, above the bound and at it; the lesser on either side; and a list that has ended on either side. -/
theorem wit_GraphStreams_entries : after (starting 7 5) (starting 8 5) = (some (6, (edge7 1).handle), some (6, edge8.handle))
    ∧ (∀ y, some (5 : Dword) = some y → y.toNat < 6) ∧ ¬ (∀ y, some (6 : Dword) = some y → y.toNat < 6)
    ∧ after (starting 7 5) (starting 8 6) = (some (6, (edge7 1).handle), some (5, edge8.handle))
    ∧ after (cursorOf 7 6 0 0 false false true) (starting 8 5) = (some (5, (edge7 1).handle), some (6, edge8.handle))
    ∧ after (starting 7 5) (starting 8 9) = (some (6, (edge7 1).handle), none) ∧ after (starting 7 9) (starting 8 5) = (none, some (6, edge8.handle)) :=
  ⟨by decide +kernel, (by intro y h; cases h; decide), (by intro h; exact absurd (h 6 rfl) (by decide)), by decide +kernel, by decide +kernel,
    by decide +kernel, by decide +kernel⟩

/-! Migration: the hedge has cores on dies 0 and 1. -/

def twoDies (s : State) : State :=
  { s.setVf { s.vf 1 with hedge := { (s.vf 1).hedge with cores := [(0, 4), (0, 1), (0, 0), (0, 0)] } } with
    frames := [{ first := 0, count := 16, vf := 1, cmp := false }, { first := 0x800000, count := 16, vf := 1, cmp := false }] }
/-- v4 and v5 hold an address of die 0 or die 1. -/
def toDie (die : Nat) : Thread := at5 (BitVec.ofNat 64 (0x50000 + die * 2 ^ 39))
def goF : V3 := v3 8 4 6
def sGo (t : Thread) (w : Workgroup) : State := twoDies (lone t w)
theorem wit_Migration_stays : (Instr.go goF false false 1).Alone (sGo (toDie 0) w0) (toDie 0) w0 ∧ (toDie 0).seen = none
    ∧ (sGo (toDie 0) w0).goHome w0 (toDie 0) false (goF.srcA64 w0 (toDie 0)) = .ok (some ((sGo (toDie 0) w0).pkg, 0))
    ∧ dieOf ((sGo (toDie 0) w0).coreOf (toDie 0)) = 0 :=
  ⟨alone_of_ready (by rfl) (by rfl) (by rfl) (by decide), by rfl, by decide +kernel, by rfl⟩
/-- The last hop, with the largest continuation: all 16 registers, eight k registers and one cursor, 192 bytes. -/
def laden : Thread := { toDie 1 with hops := 7, vb := 112, vn := 16, ub := 56, un := 8 }
theorem wit_Migration_leaves : (Instr.go goF false false 1).Alone (sGo laden w0) laden w0
    ∧ (sGo laden w0).goHome w0 laden false (goF.srcA64 w0 laden) = .ok (some ((sGo laden w0).pkg, 1))
    ∧ 1 ≠ dieOf ((sGo laden w0).coreOf laden) ∧ 1 ≠ dieOf w0.core ∧ laden.hops + 1 ≤ w0.kernel.hops ∧ laden.tag = 0
    ∧ (sGo laden w0).issued? laden = false ∧ carried laden ≤ 256 ∧ (sGo laden w0).reaches 0 1 = true
    ∧ (∃ c ∈ (sGo laden w0).hedgeCores (w0.ctxn / 16 + 1) 1, (sGo laden w0).guests c < 256) :=
  ⟨alone_of_ready (by rfl) (by rfl) (by rfl) (by decide), by decide +kernel, by decide, by decide, by decide, by rfl, by rfl, by decide, by rfl,
    64, by decide, by decide⟩
/-- A guest goes to the die of its origin core. -/
def guest (die : Nat) : Thread := { toDie die with away := some ⟨64, 0, []⟩, hops := 1, vn := 16 }
theorem wit_Migration_back : (Instr.go goF false false 1).Alone (sGo (guest 0) w0) (guest 0) w0 ∧ w0.foreign = none
    ∧ (sGo (guest 0) w0).goHome w0 (guest 0) false (goF.srcA64 w0 (guest 0)) = .ok (some ((sGo (guest 0) w0).pkg, 0))
    ∧ 0 = dieOf w0.core ∧ 0 ≠ dieOf ((sGo (guest 0) w0).coreOf (guest 0))
    ∧ (Instr.home fB).Alone (sGo (guest 0) w0) (guest 0) w0 ∧ (guest 0).away ≠ none
    ∧ (Instr.home fB).Alone s0 t0 w0 ∧ t0.away = none :=
  ⟨alone_of_ready (by rfl) (by rfl) (by rfl) (by decide), by rfl, by decide +kernel, by rfl, by decide,
    alone_of_ready (by rfl) (by rfl) (by rfl) (by decide), by decide, alone_lone (by decide), by rfl⟩
def tired : Thread := { toDie 1 with hops := 8 }
theorem wit_Migration_refused : (Instr.go goF false true 1).Alone (sGo tired w0) tired w0 ∧ (Instr.go goF false false 1).Alone (sGo tired w0) tired w0
    ∧ (sGo tired w0).goHome w0 tired false (goF.srcA64 w0 tired) = .ok (some ((sGo tired w0).pkg, 1))
    ∧ w0.kernel.hops < tired.hops + 1 ∧ w0.kernel.det = false
    ∧ (Instr.whereAt (v3 8 0 0)).Runs s0
    ∧ (Instr.carry 112 16 56 8 fB).Runs s0 ∧ (112 : Reg).toNat + (16 : BitVec 5).toNat ≤ w0.allot
    ∧ (56 : BitVec 6).toNat + (8 : BitVec 4).toNat ≤ 64
    ∧ (Instr.carry 113 16 57 8 fB).Alone s0 t0 w0 ∧ w0.allot < (113 : Reg).toNat + (16 : BitVec 5).toNat :=
  ⟨alone_of_ready (by rfl) (by rfl) (by rfl) (by decide), alone_of_ready (by rfl) (by rfl) (by rfl) (by decide), by decide +kernel, by decide,
    by rfl, runs_of_alone (alone_lone (by decide)), runs_of_alone (alone_lone (by decide)), by decide, by decide, alone_lone (by decide), by decide⟩

theorem wit_SystemRegisters : (Instr.csrr 0x040 8 fB).Runs s0 ∧ (Instr.csrr 0x100 8 fB).Alone s0 t0 w0 ∧ 0x100 ≤ (0x100 : BitVec 12).toNat
    ∧ (Instr.csrr 0x0FF 8 fB).Alone s0 t0 w0 ∧ (0x0FF : BitVec 12).toNat < 0x100
    ∧ (Instr.csrw false 0x001 4 fB).Runs s0 ∧ (Instr.csrw true 0x040 4 fB).Alone s0 t0 w0 ∧ (Instr.csrw true 0x030 4 fB).Alone s0 t0 w0
    ∧ (Instr.frec ⟨7, 0, 8, fB⟩).Runs (lone inHandler w0) ∧ inHandler.hnd = true ∧ (Instr.frec ⟨7, 0, 8, fB⟩).Alone s0 t0 w0 ∧ t0.hnd = false
    ∧ (Instr.tlbi ⟨0, 4, 0, fB⟩).Runs (lone (at5 0x5000000000050000) w0) ∧ (bits (0x5000000000050000 : Dword) 63 60).toNat ∈ [0, 1, 4, 5]
    ∧ (Instr.tlbi ⟨2, 4, 0, fB⟩).Alone s0 t0 w0
    ∧ (Instr.detchk false 1 fB).Runs s0 ∧ (Instr.detchk true 0 fB).Runs (lone t0 wd) ∧ wd.kernel.det = true
    ∧ (Instr.detchk true 0 fB).Alone s0 t0 w0 ∧ w0.kernel.det = false
    ∧ (Instr.space (v3 8 0 0)).Runs s0 ∧ (Instr.space (v3 8 0 0)).Alone (lone t0 wd) t0 wd
    ∧ (Instr.sread ⟨9, 0, 8, fB⟩ true).Alone (lone t0 wd) t0 wd ∧ (Instr.sread ⟨13, 0, 8, fB⟩ true).Alone s0 t0 w0
    ∧ (Instr.sread ⟨14, 0, 8, fB⟩ true).Alone (lone t0 wd) t0 wd ∧ ¬ (9 ≤ (14 : Byte).toNat ∧ (14 : Byte).toNat ≤ 13) :=
  ⟨runs_of_alone (alone_lone (by decide)), alone_lone (by decide), by decide, alone_lone (by decide), by decide,
    runs_of_alone (alone_lone (by decide)), alone_lone (by decide), alone_lone (by decide), runs_of_alone (alone_lone (by decide)), by rfl,
    alone_lone (by decide), by rfl, runs_of_alone (alone_lone (by decide)), by decide, alone_lone (by decide),
    runs_of_alone (alone_lone (by decide)), runs_of_alone (alone_lone (by decide)), by rfl, alone_lone (by decide), by rfl,
    runs_of_alone (alone_lone (by decide)), alone_lone (by decide), alone_lone (by decide), alone_lone (by decide), alone_lone (by decide), by decide⟩

/-! The scheduler. -/

/-- Two threads wait for data of one group, and a third runs. -/
def loading (n : Nat) : Thread := { t0 with tidx := n, status := .data .load, loads := [⟨9, 20, [1, 2, BitVec.ofNat 32 n]⟩] }
def sLoading : State := world [loading 0, loading 1, { t0 with tidx := 2 }] w0
theorem wit_SchedulerActs_data : (sLoading.threads.map Thread.key).Nodup
    ∧ (∃ t ∈ sLoading.threads, t.wg = 1 ∧ t.tidx ∈ [0, 1, 2] ∧ t.status = .data .load)
    ∧ (∀ t ∈ sLoading.threads, t.wg = 1 ∧ t.tidx ∈ [0, 1, 2] ∧ t.status = .data .load → ∃ l, t.loads.head? = some l ∧ l.group = 9) :=
  ⟨by decide, ⟨loading 0, by simp [sLoading, world], by decide⟩, by
    intro t ht h
    simp only [sLoading, world, List.mem_cons, List.not_mem_nil, or_false] at ht
    rcases ht with rfl | rfl | rfl
    · exact ⟨_, rfl, rfl⟩
    · exact ⟨_, rfl, rfl⟩
    · exact absurd h.2.2 (by decide)⟩
def tBin : Bin := { id := 5, core := 0, wg := 1, pc := 0x30000, threads := [⟨1, 0⟩, ⟨1, 1⟩], tag := 3 }
def filed (n : Nat) : Thread := { t0 with tidx := n, status := .filed }
def sBins : State := { world [filed 0, filed 1, { t0 with tidx := 2 }] w0 with
  bins := [tBin], groups := [⟨7, 0, [⟨1, 2⟩], false⟩, ⟨8, 0, [], true⟩, ⟨9, 0, [], true⟩] }
theorem wit_SchedulerActs_bins : sBins.bins.find? (fun b => b.core == 0 && b.id == 5) = some tBin ∧ tBin.threads ≠ []
    ∧ (∀ g ∈ sBins.groups, g.overdue = false → ∀ x ∈ sBins.groups, x.id = g.id → x = g) ∧ sBins.groups.any (fun g => !g.overdue) = true :=
  ⟨by rfl, by decide, by decide, by decide⟩
def yielding : Thread := { t0 with status := .blocked (.yield 0x30004) }
theorem wit_SchedulerActs_yield : let s := lone yielding w0
    s.thread yielding.key = some yielding ∧ s.wg yielding.wg = some w0 ∧ s.steps w0 = false ∧ yielding.status = .blocked (.yield 0x30004)
    ∧ (s.ctx w0.ctxn).shutter = .opened ∧ ((s.setCtx { s.ctx 0 with shutter := .draining }).ctx w0.ctxn).shutter ≠ .opened :=
  ⟨by rfl, by rfl, by rfl, by rfl, by rfl, by decide⟩
/-- A kernel of two roles, whose workgroup waits to grow to the second. -/
def wRole : Workgroup := { w0 with kernel := { w0.kernel with nroles := 2, roles := [⟨64, 0, 0⟩, ⟨128, 0, 4⟩] } }
def growing : Thread := { t0 with status := .blocked (.role 1 true 1 0x30004), loads := [⟨9, 20, [7]⟩] }
def sGrow : State := { lone growing wRole with grows := [⟨81, 0, 1, 1⟩] }
theorem wit_SchedulerActs_grow : sGrow.thread growing.key = some growing ∧ sGrow.wg growing.wg = some wRole ∧ sGrow.steps wRole = false
    ∧ wRole.frozen = false ∧ sGrow.growsOn wRole.core = [⟨81, 0, 1, 1⟩] ∧ sGrow.roleFits wRole 1 = true
    ∧ (sGrow.live wRole.id).filter (fun u => (u.roleTarget).isSome) = [growing] ∧ growing.status = .blocked (.role 1 true 1 0x30004) :=
  ⟨by rfl, by rfl, by rfl, by rfl, by rfl, by rfl, by rfl, by rfl⟩
def claiming : Thread := { t0 with status := .blocked (.oclaim 80) }
def aClaim : Claim := { id := 80, core := 0, wg := 1, acc := false, count := 60, kd := false, d := 8, pd := 1, keys := [⟨1, 0⟩], next := 0x3000C }
def sClaim (held : List (Nat × Nat)) : State :=
  let s : State := { lone claiming w0 with claims := [aClaim] }
  s.setCore { s.core 0 with slotHolder := held }
theorem wit_SchedulerActs_claim : let s := sClaim [(0, 1), (1, 1), (2, 1), (63, 1)]
    s.thread claiming.key = some claiming ∧ s.wg 1 = some w0 ∧ s.claimsOn w0.core = [aClaim] ∧ aClaim.keys = [claiming.key] ∧ 3 < 64
    ∧ (List.range 60).all (fun j => (s.core 0).slotHolder.all (fun p => p.1 != 3 + j)) = true
    ∧ (List.range 3).all (fun b => !(List.range 60).all (fun j => (s.core 0).slotHolder.all (fun p => p.1 != b + j))) = true :=
  ⟨by rfl, by rfl, by rfl, by rfl, by decide, by decide +kernel, by decide +kernel⟩
theorem wit_SchedulerActs_stall : let s := sClaim [(5, 1)]
    (s.wgs.filter (fun y => y.core == w0.core && y.foreign.isNone)) = [w0]
    ∧ (∀ u ∈ s.threads, u.wg = w0.id → u.status ≠ .ready ∧ u.status ≠ .filed) ∧ s.claims = [aClaim] ∧ s.grows = []
    ∧ s.grantOf aClaim.core aClaim.acc aClaim.count = none :=
  ⟨by rfl, by decide, by rfl, by rfl, by decide +kernel⟩
def wBig : Workgroup := { wRole with nthr := 1024, kernel := { wRole.kernel with roles := [⟨64, 0, 0⟩, ⟨255, 0, 4⟩, ⟨255, 0, 0⟩] } }
theorem wit_SchedulerActs_stalled : let w : Workgroup := { wBig with nthr := 1029 }; let s : State := { lone growing w with grows := [⟨81, 0, 1, 1⟩] }
    (s.wgs.filter (fun y => y.core == w.core && y.foreign.isNone)) = [w] ∧ s.grows = [⟨81, 0, 1, 1⟩] ∧ s.claims = []
    ∧ (s.roleFits { w with nthr := 1028 } 1 = true ∨ s.roleFits w 1 = false)
    ∧ (s.live w.id).filter (fun u => (u.roleTarget).isSome) = [growing] :=
  ⟨by rfl, by rfl, by rfl, by decide, by rfl⟩

/-! Guests. -/

def guestT (st : Status) (away : Option Away) : Thread := { t0 with status := st, away, hops := 2 }
def foreignW : Workgroup := { w0 with foreign := some 3 }
theorem wit_GuestMovement : (let t := guestT (.transit 0 64 none) (some ⟨64, 0, []⟩)
      let s := sGo t w0
      let x := s.setVf { s.vf 1 with hedge := { (s.vf 1).hedge with cores := [(0, 4), (0, 2), (0, 0), (0, 0)] } }
      x.thread t.key = some t ∧ x.wg t.wg = some w0 ∧ t.status = .transit x.pkg 64 none
      ∧ 65 ∈ x.hedgeCores (w0.ctxn / 16 + 1) (dieOf 64) ∧ x.guests 65 < 256)
    ∧ (let t := guestT (.transit 0 0 none) (some ⟨64, 0, []⟩); let s := lone t w0
      s.thread t.key = some t ∧ t.status = .transit s.pkg w0.core none ∧ w0.foreign = none)
    ∧ (let t := guestT (.transit 3 0 none) (some ⟨64, 0, []⟩); let s := lone t foreignW
      s.thread t.key = some t ∧ s.wg t.wg = some foreignW ∧ foreignW.foreign = some 3 ∧ (s.contBytes foreignW t).length ≤ 224)
    ∧ (let t := guestT .exiting (some ⟨64, 0, []⟩); let s := lone t w0
      s.thread t.key = some t ∧ s.bars = [] ∧ ∀ u ∈ s.threads, u.tidx ≠ 0xFFFF ∧ u.teamWait = none ∧ u.roleTarget = none)
    ∧ (let t := guestT .exiting (some ⟨64, 0, []⟩); let s := lone t foreignW
      s.thread t.key = some t ∧ s.wg t.wg = some foreignW ∧ foreignW.foreign ≠ none)
    ∧ (let t := guestT .ready (some ⟨64, 0, []⟩); let s := lone t w0; s.thread t.key = some t ∧ t.away ≠ none)
    ∧ (let t := guestT (.data (.slot 1)) none; let s := lone t w0; s.thread t.key = some t ∧ s.txns = []) :=
  ⟨⟨by rfl, by rfl, by rfl, by decide, by decide⟩, ⟨by rfl, by rfl, by rfl⟩, ⟨by rfl, by rfl, by rfl, by decide +kernel⟩,
    ⟨by rfl, by rfl, by decide⟩, ⟨by rfl, by rfl, by decide⟩, ⟨by rfl, by decide⟩, ⟨by rfl, by rfl⟩⟩

/-! Compressed memory: frames from 0x800000 are compressible; the last 16 bytes of a block, and a hedge whose reserve on die 0
covers a whole block or nothing. -/

def sCmp (reserve : Nat) : State :=
  let s := s0
  { s.setVf { s.vf 1 with hedge := { (s.vf 1).hedge with quota := 100 }, reserve := [reserve, 0, 0, 0], brbase := 0x60000, brlog := 8 } with
    frames := [{ first := 0, count := 16, vf := 1, cmp := false }, { first := 0x80, count := 16, vf := 1, cmp := true }], pools := [9, 9, 9, 9] }
def run8 : FrameRun := { first := 0x80, count := 16, vf := 1, cmp := true }
def wdata : List Byte := (List.range 16).map (fun i => BitVec.ofNat 8 (17 * i + 1))
theorem wit_CompressedMemory : (sCmp 16).frameOf 0x8003F0 = some run8 ∧ run8.cmp = true ∧ wdata ≠ [] ∧ 0x8003F0 % 1024 + wdata.length ≤ 1024
    ∧ (sCmp 16).held = [] ∧ (sCmp 16).gran.wf = true ∧ metaWfFrom none (sCmp 16).bmeta = true
    ∧ (sCmp 16).block (0x8003F0 / 1024) = some (List.replicate 1024 0) ∧ (sCmp 16).waitsOn 1 (homeDie 0x8003F0) = false
    ∧ 16 ≤ ((sCmp 16).vf 1).reserve.getD (homeDie 0x8003F0) 0 ∧ metaNg ((sCmp 16).metaOf (0x8003F0 / 1024)) ≤ ((sCmp 16).vf 1).used
    ∧ (sCmp 0).metaOf (0x8003F0 / 1024) = 0 ∧ ((sCmp 0).vf 1).reserve.getD (homeDie 0x8003F0) 0 = 0 ∧ (∃ y ∈ wdata, y ≠ 0) :=
  ⟨by decide +kernel, by rfl, by decide, by decide, by rfl, by rfl, by rfl, by decide +kernel, by rfl, by decide, by decide, by rfl, by decide,
    ⟨1, by decide, by decide⟩⟩
def sPost : State := let s := sCmp 0; s.setVf { s.vf 1 with brwait := [List.replicate 12 7], brprod := 255 }
theorem wit_CompressedMemory_post : let v := sPost.vf 1
    v.brwait = [List.replicate 12 7] ∧ (List.replicate 12 (7 : Byte)).length = 12 ∧ v.brprod < v.brcons.toNat + 2 ^ v.brlog.toNat
    ∧ ((bits v.brbase 51 0).toNat + 16 * (v.brprod % 2 ^ v.brlog.toNat)) % 16 = 0
    ∧ sPost.isCmp ((bits v.brbase 51 0).toNat + 16 * (v.brprod % 2 ^ v.brlog.toNat)) = false ∧ sPost.mem.wf = true :=
  ⟨by rfl, by rfl, by decide, by decide, by decide, by decide +kernel⟩
def heldBy (w : Writer) (keys : List Key) : Held :=
  { id := 33, vf := 1, die := 0, by' := w, keys, pa := 0x8003F0, op := .store wdata, dest := none, site := (0x30000, 0x55, 0x8003F0)
    need := 1, expired := false }
def tHeld (st : Status) : Thread := { t0 with status := st }
def pHdr : FlitHdr := ⟨0, 2, 1, 0x44, 0⟩
def sHeld (w : Writer) (keys : List Key) (t : Thread) : State := { lone t w0 with held := [heldBy w keys] }
theorem wit_CompressedMemory_held : (heldBy (.engine 0 5) []).need ≠ 0 ∧ (heldBy (.engine 0 5) []).expired = false
    ∧ (sHeld (.engine 0 5) [] t0).held = [heldBy (.engine 0 5) []] ∧ (heldBy (.frontEnd 1 4) []).by' = .frontEnd 1 4
    ∧ (heldBy (.peer pHdr) []).by' = .peer pHdr ∧ (heldBy (.thread 1 0) [t0.key]).keys = [t0.key]
    ∧ (let t := tHeld (.data (.held 33 9)); (sHeld (.thread 1 0) [t.key] t).thread t.key = some t ∧ t.status = .data (.held 33 9))
    ∧ (let t := tHeld .ready; (sHeld (.thread 1 0) [t.key] t).thread t.key = some t ∧ t.status = .ready) :=
  ⟨by decide, by rfl, by rfl, by rfl, by rfl, by rfl, ⟨by rfl, by rfl⟩, ⟨by rfl, by rfl⟩⟩
theorem wit_CompressedMemory_grants : let s := sCmp 7
    s.held = [] ∧ (s.vf 1).migok = false ∧ 3 < 4 ∧ s.pools.length = 4 ∧ (s.vf 1).reserve.length = 4 :=
  ⟨by rfl, by rfl, by decide, by rfl, by rfl⟩

/-! Workgroups: a launch of four workgroups of two threads; one is bound, and the record binds another. -/

def lkernel : Kernel := { w0.kernel with pmask := 5, stack := 0x80000, stkz := 0x100, roles := [⟨64, 0, 16⟩] }
def aLaunch : Launch :=
  { vf := 1, no := 1, ctxn := 0, cmd := 4, kernel := lkernel, nthr := 2, nwgx := 2, nwgy := 2, nwgz := 1
    params := (List.range 64).map (fun j => BitVec.ofNat 64 (1000 + j)), bound := [0], retired := 0, cancelled := false, status := 0 }
def bindRec (x y : Word) : BindRecord :=
  { ctxn := 0, launch := 1, wgx := x, wgy := y, wgz := 0, role := 0, cls := 0, gang := 0, rbase := 0, sbase := 0, ssize := 8192, seq := 7
    valid := true, tbase := 0, tcount := 8 }
def sBind (loaded : Option Nat) : State :=
  let s : State := { s0 with launches := [aLaunch], wgs := [], threads := [], groups := [] }
  s.setCore { s.core 0 with loaded }
theorem wit_WorkgroupLife_bound : let s := sBind (some 0); let r := bindRec 1 1
    r.valid = true ∧ (∀ x ∈ (s.core 0).slots, x.1 ≠ 15) ∧ (∀ x ∈ (s.core 0).waiting, x.1 ≠ 15) ∧ s.bindReason 0 r = none
    ∧ s.launchOf r = some aLaunch ∧ aLaunch.kernel.gang = 0 ∧ aLaunch.nthr ≤ 1024 ∧ (s.core 0).loaded = some r.ctxn.toNat
    ∧ (s.core 0).reload = none ∧ (∀ t ∈ s.threads, t.wg ≠ s.fresh) ∧ (∀ u ∈ s.wgs, u.id ≠ s.fresh) :=
  ⟨by rfl, by decide, by decide, by decide +kernel, by rfl, by rfl, by decide, by rfl, by rfl, by decide, by decide⟩
theorem wit_WorkgroupLife_rejected : (sBind (some 0)).bindReason 0 (bindRec 0 0) = some 3 ∧ (sBind (some 0)).bindReason 4 (bindRec 1 1) = some 1
    ∧ (sBind (some 0)).bindReason 0 { bindRec 1 1 with tcount := 7 } = some 2 ∧ (bindRec 0 0).ctxn.toNat < 1024 :=
  ⟨by decide +kernel, by decide +kernel, by decide +kernel, by decide⟩
theorem wit_WorkgroupLife_reload : (sBind none).bindReason 0 (bindRec 1 1) = none ∧ ((sBind none).core 0).loaded ≠ some (bindRec 1 1).ctxn.toNat
    ∧ (let s := (sBind none).setCore { (sBind none).core 0 with reload := some 0 }
       (s.core 0).reload = some 0 ∧ (s.core 0).waiting = [] ∧ (∀ w ∈ s.wgs, w.core = 0 → w.foreign ≠ none) ∧ (∀ o ∈ s.ops, o.core ≠ 0)
       ∧ s.guests 0 = 0) :=
  ⟨by decide +kernel, by decide, ⟨by rfl, by rfl, by decide, by decide, by rfl⟩⟩

/-- A workgroup whose threads have exited, the last but one and the last of its launch. -/
def gone : Thread := { t0 with status := .exited }
def launchCmd : Command := { id := 4, idx := 15, bytes := [], replay := false, status := 0, moves := [] }
def sRetire (bound : List Nat) : State :=
  let s := holding (lone gone w0)
  { s.setVf { s.vf 1 with cmds := [launchCmd], qbase := 0x70000, qlog := 4, taken := 16 } with
    launches := [{ aLaunch with bound, retired := 3 }] }
theorem wit_WorkgroupLife_retired : let s := sRetire [0, 1, 2, 3]
    s.wg w0.id = some w0 ∧ w0.started = true ∧ w0.foreign = none ∧ (∀ t ∈ s.threads, t.wg = w0.id → t.status = .exited)
    ∧ (∀ o ∈ s.ops, o.wg ≠ w0.id) ∧ NoArrivals s
    ∧ s.launches.find? (fun l => l.vf == w0.ctxn / 16 + 1 && l.no == w0.launch) = some { aLaunch with bound := [0, 1, 2, 3], retired := 3 }
    ∧ 3 + 1 = [0, 1, 2, 3].length ∧ [0, 1, 2, 3].length = aLaunch.nwgx * aLaunch.nwgy * aLaunch.nwgz ∧ aLaunch.status = 0
    ∧ (s.ctx 0).lost = false ∧ (s.ctx 0).faulted = false ∧ (s.vf 1).cmds = [launchCmd] ∧ launchCmd.id = aLaunch.cmd
    ∧ launchCmd.replay = false ∧ RingAt s (s.vf 1) launchCmd.idx :=
  ⟨by rfl, by rfl, by rfl, by decide, by decide, ⟨by rfl, by decide⟩, by rfl, by rfl, by rfl, by rfl, by rfl, by rfl, by rfl, by rfl, by rfl,
    ⟨by decide, by decide, by decide, by decide +kernel⟩⟩
theorem wit_WorkgroupLife_first : let l := { aLaunch with bound := [0, 1, 2, 3], retired := 2 }
    l.retired + 1 < l.bound.length ∧ l.retired + 1 ≤ l.bound.length := ⟨by decide, by decide⟩

/-! The shutter. -/

def sShut (sh : Shutter) (t : Thread) : State :=
  let s := lone t w0
  { s.setCtx { s.ctx 0 with shutter := sh, desc := some { bootDesc with save := 0x90000, savesz := Config.saveSize (128 * 1 + 8192) } } with
    launches := [{ aLaunch with ctxn := 3, bound := [] }] }
theorem wit_ShutterSequence : let s := sShut .opened t0
    (∃ w ∈ s.wgs, w.ctxn = 0 ∧ w.foreign = none) ∧ (s.ctx 0).shutter = .opened
    ∧ (∃ l ∈ s.launches, l.ctxn ≠ 0 ∧ l.ctxn / 16 = 0 / 16 ∧ l.cancelled = false ∧ l.bound.length < l.nwgx * l.nwgy * l.nwgz)
    ∧ (∀ l ∈ ({ s with launches := [aLaunch] } : State).launches, l.ctxn / 16 = 0 / 16 → l.ctxn = 0)
    ∧ ((sShut .draining t0).ctx 0).shutter = .draining ∧ ((sShut .closing t0).ctx 0).shutter = .closing ∧ w0.kernel.gang = 0
    ∧ (∀ u ∈ s.wgs, u.sstepFrz = false)
    ∧ (∀ t ∈ (sShut .closing yielding).threads, t.wg = w0.id → t.away = none ∧ ∃ b, t.status = .blocked b ∧ ∀ op, b ≠ .stream op)
    ∧ (∃ t ∈ (sShut .closing (loading 0)).threads, t.wg = w0.id ∧ t.status = .data .load) :=
  ⟨⟨w0, by simp [sShut, lone, world, State.setCtx, State.reset], by rfl, by rfl⟩, by rfl,
    ⟨{ aLaunch with ctxn := 3, bound := [] }, by simp [sShut], by decide⟩, by decide, by rfl, by rfl, by rfl, by decide,
    (by intro t ht _
        simp only [sShut, lone, world, State.setCtx, State.reset, State.placeInsn, State.setCore, State.setVf] at ht
        have : t = yielding := by simpa using ht
        subst this
        exact ⟨by rfl, .yield 0x30004, by rfl, fun op => by simp⟩),
    ⟨loading 0, by simp [sShut, lone, world, State.setCtx, State.reset, State.placeInsn, State.setCore, State.setVf], by decide⟩⟩
/-- A frozen workgroup that fills its save area. -/
def wFrozen : Workgroup := { w0 with frozen := true }
def tTile : Thread := { t0 with status := .blocked (.tile 3 none 0x30004) }
def sFrozen : State :=
  let s := holding (lone tTile wFrozen)
  s.setCtx { s.ctx 0 with desc := some { bootDesc with save := 0x90000, savesz := Config.saveSize (128 * 1 + 8192) } }
theorem wit_ShutterSequence_save : sFrozen.wg 1 = some wFrozen ∧ wFrozen.frozen = true ∧ (∀ o ∈ sFrozen.ops, o.wg ≠ 1)
    ∧ (sFrozen.ctx 0).desc = some { bootDesc with save := 0x90000, savesz := Config.saveSize (128 * 1 + 8192) }
    ∧ (∀ x ∈ sFrozen.saved, x.wg.ctxn ≠ 0) ∧ sFrozen.mem.wf = true
    ∧ Config.saveSize (wFrozen.allot * wFrozen.nthr + wFrozen.spadSize) ≤ Config.saveSize (128 * 1 + 8192)
    ∧ (∀ a, sFrozen.isCmp a = false) :=
  ⟨by rfl, by rfl, by decide, by rfl, by decide, by decide +kernel, Nat.le_refl _, by
    intro a
    unfold State.isCmp
    split
    · rename_i r h
      have hr := List.mem_of_find?_eq_some h
      rw [show sFrozen.frames = [{ first := 0, count := 16, vf := 1, cmp := false }] from rfl, List.mem_singleton] at hr
      rw [hr]
    · rfl⟩
def aSaved : Saved :=
  { wg := { w0 with core := 1 }, threads := [tTile, { t0 with tidx := 1, status := .filed }, { gone with tidx := 2 },
      { t0 with tidx := 3, status := .parked { kind := .resolve, fault := { code := 1 }, body := [], seq := some 3 } },
      { t0 with tidx := 4, status := .parked { kind := .sysc 0x30004, fault := { code := 1 }, body := [], seq := some 4 } }]
    slots := [], accs := [], claims := [], size := 0 }
def sRestore : State :=
  let s := sBind (some 0)
  { s with saved := [aSaved] }
theorem wit_ShutterSequence_restore : let s := sRestore; let r := { bindRec 0 0 with seq := 9 }
    s.saved.find? (fun y => y.wg.id == aSaved.wg.id) = some aSaved ∧ s.restoreOk 0 15 r aSaved = true ∧ (s.core 0).loaded = some aSaved.wg.ctxn
    ∧ NoArrivals s ∧ (aSaved.threads.map Thread.key).Nodup ∧ (∀ u ∈ s.threads, u.wg ≠ aSaved.wg.id) ∧ (∀ u ∈ s.wgs, u.id ≠ aSaved.wg.id)
    ∧ (∀ b ∈ s.bins, b.wg ≠ aSaved.wg.id) ∧ (∀ o ∈ s.overflow, o.key.wg ≠ aSaved.wg.id)
    ∧ (∀ t ∈ aSaved.threads, t.wg = aSaved.wg.id ∧ t.tidx ≠ 0xFFFF ∧ t.away = none ∧ t.teamWait = none ∧ t.roleTarget = none) :=
  ⟨by rfl, by decide +kernel, by rfl, ⟨by rfl, by decide⟩, by decide, by decide, by decide, by decide, by decide, by decide⟩

/-! Commands, in the last place of a ring of sixteen. -/

def sCmd0 (b : List Byte) : State :=
  let s := s0
  { s.setVf { s.vf 1 with qbase := 0x70000, qlog := 4, taken := 15, head := 15, tail := 16, ctxbase := 0x71000, logbase := 0x72000, loglog := 12
                          nextLaunch := 5 } with
    mem := memSetN s.mem 0x703C0 b }
def takesB (s : State) (b : List Byte) : Bool :=
  let v := s.vf 1
  !bit v.qbase 63 && (bits v.qbase 51 0).toNat % 64 == 0 && !s.isCmp (slotAt v v.taken) && s.mem.wf && v.cmds.isEmpty
  && decide (v.taken < v.tail) && !v.rpl && !v.qerr && !v.migok && s.held.isEmpty && s.txns.isEmpty && s.poison.isEmpty
  && b == (List.range 64).map (fun i => memGet s.mem (slotAt v v.taken + i))
theorem takes_of {s : State} {b : List Byte} (h : takesB s b = true) : TakesNext s 1 b := by
  simp only [takesB, Bool.and_eq_true, Bool.not_eq_true', beq_iff_eq, List.isEmpty_iff, decide_eq_true_eq] at h
  obtain ⟨⟨⟨⟨⟨⟨⟨⟨⟨⟨⟨⟨h1, h2⟩, h3⟩, h4⟩, h5⟩, h6⟩, h7⟩, h8⟩, h9⟩, ha⟩, hb⟩, hc⟩, hd⟩ := h
  exact ⟨⟨h1, h2, h3, h4⟩, ⟨h5, h6⟩, ⟨h7, h8, h9⟩, ⟨ha, hb⟩, hd, by rw [hc]; intro a h; cases h⟩
def z (n : Nat) : List Byte := List.replicate n 0
def badCmd : List Byte := [6] ++ z 63
def copyCmd : List Byte := [2, 0, 0, 0] ++ z 4 ++ natLe 10 0x50040 ++ z 6 ++ natLe 10 0x50100 ++ z 6 ++ natLe 8 64 ++ z 16
def waitCmd : List Byte := [3, 0, 0, 0] ++ z 4 ++ natLe 8 0x50008 ++ natLe 8 0x10 ++ z 40
def signalCmd : List Byte := [4, 0, 0, 0] ++ z 4 ++ natLe 8 0x50008 ++ natLe 8 0x1122334455667788 ++ z 40
def markCmd : List Byte := [5, 0, 0, 0] ++ z 4 ++ natLe 8 0x50080 ++ z 48
def badCopy : List Byte := [2, 0, 0, 0] ++ z 4 ++ natLe 10 0x40000000040 ++ z 6 ++ natLe 10 0x50100 ++ z 6 ++ natLe 8 64 ++ z 16
theorem wit_Commands : TakesNext (sCmd0 badCmd) 1 badCmd ∧ field badCmd 0 1 = 6 ∧ TakesNext (sCmd0 signalCmd) 1 signalCmd
    ∧ field signalCmd 0 1 = 4 ∧ field signalCmd 1 1 = 0 ∧ field signalCmd 2 2 < 16 ∧ zeroAt signalCmd 4 4 = true
    ∧ zeroAt signalCmd 0x18 36 = true
    ∧ (let s := sCmd0 signalCmd; let l := s.setCtx { s.ctx 0 with lost := true }; ((took l 1 signalCmd).ctx 0).lost = true)
    ∧ (let s := sCmd0 signalCmd; let l := s.setCtx { s.ctx 0 with faulted := true }; ((took l 1 signalCmd).ctx 0).faulted = true)
    ∧ (let s := took (sCmd0 signalCmd) 1 signalCmd; (s.ctx 0).lost = false ∧ (s.ctx 0).faulted = false ∧ (s.ctx 0).desc = some bootDesc) :=
  ⟨takes_of (by decide +kernel), by decide, takes_of (by decide +kernel), by decide, by decide, by decide,
    by decide, by decide, by rfl, by rfl, by rfl, by rfl, by rfl⟩
def okAt (s : State) (k : AccessKind) (va : BitVec 80) (pa : Nat) : Prop := s.checkVa (agentWg 0) (atDie 0) k va = .ok ⟨.main pa, false⟩
theorem wit_Commands_stores : let x := took (sCmd0 copyCmd) 1 copyCmd; let y := took (sCmd0 signalCmd) 1 signalCmd
    TakesNext (sCmd0 copyCmd) 1 copyCmd ∧ (taken (sCmd0 copyCmd) 1 copyCmd).wellFormed = true ∧ field copyCmd 0 1 = 2
    ∧ field copyCmd 0x28 8 = 64
    ∧ x.checkVa (agentWg 0) (atDie 0) { n := 64, align := 1, paths := [0, 1, 3] } 0x50040 = .ok ⟨.main 0x50040, false⟩
    ∧ okAt x { n := 64, align := 1, paths := [0, 3], write := true } 0x50100 0x50100
    ∧ x.isCmp 0x50040 = false ∧ x.isCmp 0x50100 = false ∧ x.reaches 0 (homeDie 0x50040) = true
    ∧ TakesNext (sCmd0 badCopy) 1 badCopy ∧ (taken (sCmd0 badCopy) 1 badCopy).wellFormed = true
    ∧ (match (took (sCmd0 badCopy) 1 badCopy).checkVa (agentWg 0) (atDie 0) { n := 64, align := 1, paths := [0, 1, 3] }
        0x40000000040 with | .ok _ => false | .error _ => true) = true
    ∧ (taken (sCmd0 signalCmd) 1 signalCmd).wellFormed = true
    ∧ okAt y { n := 8, align := 8, paths := [0], write := true } (vaOf 0x50008) 0x50008 :=
  ⟨takes_of (by decide +kernel), by decide +kernel, by decide +kernel, by decide +kernel, by rfl, by rfl, by rfl, by rfl,
    by rfl, takes_of (by decide +kernel), by decide +kernel, by decide +kernel, by decide +kernel, by rfl⟩
theorem wit_Commands_wait : let x := took (sCmd0 waitCmd) 1 waitCmd
    TakesNext (sCmd0 waitCmd) 1 waitCmd ∧ (taken (sCmd0 waitCmd) 1 waitCmd).wellFormed = true ∧ field waitCmd 0 1 = 3
    ∧ okAt x { n := 8, align := 8, paths := [0] } (vaOf 0x50008) 0x50008 :=
  ⟨takes_of (by decide +kernel), by decide +kernel, by decide +kernel, by rfl⟩
theorem wit_Commands_mark : let x := took (sCmd0 markCmd) 1 markCmd
    TakesNext (sCmd0 markCmd) 1 markCmd ∧ (taken (sCmd0 markCmd) 1 markCmd).wellFormed = true ∧ field markCmd 0 1 = 5
    ∧ field markCmd 8 8 = 0x50080
    ∧ (∃ r, x.frameOf 0x50080 = some r ∧ r.vf = 1) ∧ (∃ r, x.frameOf (0x50080 + 63) = some r ∧ r.vf = 1)
    ∧ (let back : State := { x.flushAll with
          images := x.flushAll.images.filter (fun i => !(x.flushAll.frameOf (1024 * i.block)).any (fun r => r.vf == 1)) }
       (bits (back.vf 1).logbase 51 0).toNat = 0x72000 ∧ (back.vf 1).logpos = 0
       ∧ (∀ i, i < 64 → back.isCmp (0x50080 + i) = false ∧ back.isCmp (0x72000 + i) = false)
       ∧ RingAt back (back.vf 1) 15 ∧ (back.vf 1).cmds = [taken (sCmd0 markCmd) 1 markCmd]) :=
  ⟨takes_of (by decide +kernel), by decide +kernel, by decide +kernel, by decide +kernel, ⟨_, by rfl, by rfl⟩, ⟨_, by rfl, by rfl⟩,
    by rfl, by rfl, by decide +kernel, ⟨by decide, by decide, by rfl, by decide +kernel⟩, by rfl⟩

/-! A Launch: its context's descriptor at 0x71000, kernel descriptor at 0x50200, parameters at 0x50300. -/

def launchCmdOf (nthr : Nat) : List Byte :=
  [1, 0, 0, 0] ++ natLe 4 nthr ++ natLe 8 0x50200 ++ natLe 8 0x50300 ++ natLe 4 2 ++ natLe 4 3 ++ natLe 4 4 ++ z 28
def ctxImage : List Byte :=
  natLe 8 3 ++ natLe 8 0x10000 ++ natLe 8 0 ++ natLe 8 0x100000 ++ natLe 8 0x400000 ++ natLe 8 0x40000 ++ natLe 8 6 ++ natLe 8 0 ++ natLe 8 0 ++ z 56
def kernelImage (age : Nat) : List Byte :=
  natLe 8 0x30000 ++ natLe 4 4096 ++ natLe 2 age ++ [2, 8] ++ natLe 4 (128 + 2048 * 1024 + 256) ++ natLe 4 8 ++ z 8 ++ natLe 4 0 ++ [0, 64, 0, 0]
    ++ natLe 4 0 ++ z 4 ++ natLe 8 0x80000 ++ natLe 8 0x100 ++ natLe 8 5 ++ z 56
def sLaunch (nthr age : Nat) : State :=
  let s := sCmd0 (launchCmdOf nthr)
  { s with mem := memSetN (memSetN (memSetN s.mem 0x71000 ctxImage) 0x50200 (kernelImage age)) 0x50300 (natLe 8 77) }
def readsLaunch (n age : Nat) (desc fits : Bool) : Bool :=
  let s := sLaunch n age
  let b := launchCmdOf n
  let c := taken s 1 b
  let x := took s 1 b
  match x.readCtx 0 with
  | none => false
  | some d =>
    let y0 := x.setCtx { x.ctx 0 with desc := some d }
    match y0.launchMoves 0 c with
    | none => false
    | some ms =>
      let y := y0.setVf { y0.vf 1 with cmds := [{ c with moves := ms }] }
      match y.readMoves (c.mover 1) ms with
      | none => false
      | some k => c.wellFormed && !needRemote ms && kernelOk (k.take 128) == desc
          && (!desc || y.launchFits 1 (kernelFields (k.take 128)) (field b 4 4) 24 == fits)
theorem wit_Commands_launch : TakesNext (sLaunch 1024 64) 1 (launchCmdOf 1024) ∧ readsLaunch 1024 64 true true = true :=
  ⟨takes_of (by decide +kernel), by decide +kernel⟩
theorem wit_Commands_rejected : TakesNext (sLaunch 1024 15) 1 (launchCmdOf 1024) ∧ readsLaunch 1024 15 false true = true :=
  ⟨takes_of (by decide +kernel), by decide +kernel⟩
/-- A Wait that has started. -/
def waiting : Command := { id := 4, idx := 15, bytes := waitCmd, replay := false, status := 0, moves := [
  { src := some (.main 0x50008), pad := 0, dst := some (.main 0x50008), size := 8, srcHalf := none, dstHalf := none }] }
def sWaiting (word : Nat) : State :=
  let s := sCmd0 waitCmd
  { s.setVf { s.vf 1 with taken := 16, cmds := [waiting] } with mem := memSetN s.mem 0x50008 (natLe 8 word) }
theorem wit_Commands_waiting : let s := sWaiting 0x10
    (s.vf 1).cmds = [waiting] ∧ field waiting.bytes 0 1 = 3 ∧ s.txns = [] ∧ s.held = [] ∧ s.isCmp 0x50008 = false
    ∧ s.reaches 0 (homeDie 0x50008) = true ∧ (∀ a ∈ s.poison, a < 0x50008) ∧ RingAt s (s.vf 1) waiting.idx
    ∧ field waiting.bytes 0x10 8 ≤ leNat ((List.range 8).map (fun i => memGet s.mem (0x50008 + i)))
    ∧ leNat ((List.range 8).map (fun i => memGet (sWaiting 0xF).mem (0x50008 + i))) < field waiting.bytes 0x10 8 :=
  ⟨by rfl, by decide, by rfl, by rfl, by rfl, by rfl, (by intro a h; cases h), ⟨by decide, by decide, by rfl, by decide +kernel⟩, by decide +kernel,
    by decide +kernel⟩
/-- TAIL of a full ring, at once and behind a write of the function; and tables that can be read. -/
def sBehind : State := { s0 with held := [heldBy (.host 1) []] }
theorem wit_Commands_tail : (15 : Dword).toNat < 2 ^ ((sCmd0 badCmd).vf 1).qlog.toNat ∧ (sCmd0 badCmd).hostWaits 1 = false
    ∧ sBehind.hostWaits 1 = true := ⟨by decide, by rfl, by rfl⟩
theorem legible_plain {s : State} (hp : s.poison = []) (hf : s.frames = [{ first := 0, count := 16, vf := 1, cmp := false }]) : Legible s :=
  ⟨hp, by rw [hf]; intro r hr; rw [List.mem_singleton.1 hr]⟩
theorem wit_Commands_legible : Legible (took (sCmd0 badCopy) 1 badCopy)
    ∧ (let at' (off : Nat) : BitVec 80 := BitVec.ofNat 80 (field copyCmd off 10)
       (at' 8).toNat % 128 + 64 ≤ 128 ∧ (at' 0x18).toNat % 128 + 64 ≤ 128 ∧ (bits (at' 8) 79 76).toNat = 0 ∧ (bits (at' 0x18) 79 76).toNat = 0)
    ∧ waiting.ended = none ∧ 0x50008 % 8 = 0 :=
  ⟨legible_plain rfl rfl, ⟨by decide, by decide, by decide, by decide⟩, by rfl, by decide⟩

/-! The driver. -/

def park (kind : ParkKind) : Park := { kind, fault := { code := 1, space := 1 }, body := List.replicate 60 9, seq := some 0x77 }
def tPark (kind : ParkKind) (vec : Dword) : Thread := { t0 with status := .parked (park kind), trapvec := vec }
def parkedB (t : Thread) : Bool :=
  let s := lone t w0
  (match t.status with | .parked p => s.parkedUnder 0 0x77 == [(t, p)] | _ => false) && s.thread t.key == some t && s.wg t.wg == some w0
  && !s.steps w0 && !(s.vf 1).migok
theorem wit_DriverActs_replies : parkedB (tPark .resolve 0x30080) = true ∧ parkedB (tPark (.sysc 0x30004) 0) = true
    ∧ parkedB (tPark (.debug 0x30008) 0) = true ∧ parkedB (tPark .resolve 0) = true ∧ (park .resolve).fault.sysc = none
    ∧ bits (0x30080 : Dword) 1 0 = 0 ∧ w0.foreign = none ∧ s0.parkedUnder 0 0x77 = [] :=
  ⟨by decide +kernel, by decide +kernel, by decide +kernel, by decide +kernel, by rfl, by decide, by rfl, by rfl⟩
def sFault : State := let s := { lone gone w0 with saved := [aSaved] }; s.setCtx { s.ctx 0 with faulted := true }
theorem wit_DriverActs_clear : 0 / 16 + 1 = 1 ∧ (∀ m, m / 16 = 0 / 16 → (sFault.ctx m).clearing = false) ∧ (sFault.vf 1).rpl = false
    ∧ (sFault.ctx 0).faulted = true ∧ sFault.ops = [] ∧ (s0.ctx 0).faulted = false ∧ (s0.ctx 0).lost = false
    ∧ (let s : State := { sFault with ops := [engineOp true] }
       engineOp true ∈ s.ops ∧ s.wg (engineOp true).wg = some w0 ∧ w0.foreign = none ∧ w0.ctxn = 0) :=
  ⟨by rfl, by
    intro m hm
    have : m < 16 := by omega
    interval_cases m <;> rfl, by rfl, by rfl, by rfl, by rfl, by rfl, ⟨List.mem_singleton.2 rfl, by rfl, by rfl, by rfl⟩⟩
/-- The debugger has selected thread 0 of workgroup 0 of context 0, which is held. -/
def sDebug (st : Status) : State := lone { t0 with status := st } w0
theorem wit_DriverActs_debug : let s := sDebug (.parked (park (.debug 0x30004))); let v := s.vf 1
    s.wgs.find? (fun w => w.ctxn == 16 * (1 - 1) + (bits v.dbgsel 51 48).toNat && w.foreign.isNone && w.lin == bits v.dbgsel 47 16) = some w0
    ∧ s.thread ⟨w0.id, (bits v.dbgsel 15 0).toNat⟩ = some { t0 with status := .parked (park (.debug 0x30004)) } ∧ v.no = 1
    ∧ 126 + 1 < min w0.allot 128 ∧ 126 % 2 = 0 ∧ v.rpl = false
    ∧ (let r := s.setVf { v with rpl := true, rplend := 7, rplcur := 7 }; (r.vf 1).rpl = true ∧ (r.vf 1).rplend.toNat ≤ (r.vf 1).rplcur ∧ (r.vf 1).cmds = []) :=
  ⟨by rfl, by rfl, by rfl, by decide, by decide, by rfl, by rfl, by decide, by rfl⟩

/-- What the debugger has written to a thread that it holds: its PC, its predicates, TRAPVEC, SSTEP and a pair of registers. -/
def written (off : Nat) (val : Dword) : Thread := { tPark (.debug 0x30008) 0 with dbg := [(off, val)] }
theorem wit_DriverActs_written : (tPark .resolve 0x30080).dbg = [] ∧ (tPark .resolve 0x30080).away = none ∧ s0.saved = [] ∧ s0.hostWaits 1 = false
    ∧ (∀ off ∈ [0, 8, 0x10, 0x68, 0x400 + 4 * 126], parkedB (written off 0x30010) = true) ∧ 126 + 1 < min w0.allot 128 ∧ 126 % 2 = 0 :=
  ⟨by rfl, by rfl, by rfl, by rfl, by decide +kernel, by decide, by decide⟩
/-- No workgroup is selected; a thread runs that is selected; and a write of the function is held. -/
theorem wit_DriverActs_ignored : (let s := s0.setVf { s0.vf 1 with dbgsel := 0x0001000000000000 }
      (s.vf 1).no = 1 ∧ s.wgs.find? (fun w => w.ctxn == 16 * (1 - 1) + (bits (s.vf 1).dbgsel 51 48).toNat && w.foreign.isNone
        && w.lin == bits (s.vf 1).dbgsel 47 16) = none)
    ∧ s0.thread ⟨w0.id, (bits (s0.vf 1).dbgsel 15 0).toNat⟩ = some t0 ∧ t0.status = .ready ∧ (0x8000 : BitVec 16) ≠ 0
    ∧ sBehind.hostWaits 1 = true ∧ (sBehind.vf 1).rpl = false :=
  ⟨⟨by rfl, by rfl⟩, by rfl, by rfl, by decide, by rfl, by rfl⟩

/-! Hedges and frames: function 2 is idle; the last frame of die 0, whose colour is 15. -/

def hedge2 : HedgeRecord :=
  { cores := [(4, 64), (0, 64), (0, 0), (0, 0)], cmask := 0x8080, wsbase := 0, wssize := 8192, quota := 0x3FFFFFF9C, rtgt := 0, toos := 0, gwt := 1
    rcq := 64, pceil := 3, quant := 0, drain := 0, escal := 0, pkgs := 0 }
def sHedge : State :=
  let s := sCmp 0
  { s.setVf { Vf.zero 2 with hedge := { hedge2 with cmask := 0x8000 } } with
    mgmt := { s.mgmt with faddr := 0x7FFFFF0000, fcount := 1 }, pools := [1024, 9, 9, 9] }
theorem wit_HedgesAndFrames : (∀ w ∈ sHedge.wgs, w.ctxn / 16 + 1 ≠ 2) ∧ (sHedge.vf 2).head = (sHedge.vf 2).tail ∧ (sHedge.vf 2).cmds = []
    ∧ sHedge.hedgeOk 2 hedge2 = true ∧ (∃ w ∈ sHedge.wgs, w.ctxn / 16 + 1 = 1)
    ∧ (∃ u ∈ sHedge.vfs, u.no ≠ 1 ∧ u.hedge.cmask &&& 0x8000 ≠ 0)
    ∧ sHedge.mgmt.fstat ≠ 1 ∧ sHedge.mgmt.faddr.toNat = 65536 * 8388607 ∧ sHedge.mgmt.fcount.toNat = 1 ∧ sHedge.mem.wf = true
    ∧ (let f := 8388607
       (sHedge.vf 2).hedge.cmask.getLsbD ((f % 16) ^^^ (f / 16 % 16) ^^^ (f / 256 % 16) ^^^ (f / 4096 % 16) ^^^ (f / 65536 % 16)) = true
       ∧ (sHedge.vf 1).hedge.cmask.getLsbD ((f % 16) ^^^ (f / 16 % 16) ^^^ (f / 256 % 16) ^^^ (f / 4096 % 16) ^^^ (f / 65536 % 16)) = false)
    ∧ (∀ r ∈ sHedge.frames, r.first + r.count ≤ 8388607 ∨ 8388607 + 1 ≤ r.first ∨ r.count = 0)
    ∧ 8388607 / 2 ^ 23 = 0 ∧ (8388607 + 1 - 1) / 2 ^ 23 = 0 ∧ sHedge.pools.length = 4 ∧ 1024 * 1 ≤ sHedge.pools.getD 0 0 :=
  ⟨by decide, by rfl, by rfl, by decide +kernel, ⟨w0, by simp [sHedge, sCmp, s0, lone, world, State.setVf, State.reset], by decide⟩,
    ⟨(sHedge.vf 2), by decide, by decide, by decide⟩, by decide, by decide, by decide, by decide +kernel, ⟨by decide, by decide⟩, by decide,
    by decide, by decide, by rfl, by decide⟩
theorem wit_HedgesAndFrames_full : let s : State := { sHedge with pools := [1023, 9, 9, 9] }
    s.pools.getD 0 0 < 1024 * 1
    ∧ (let r : State := { sHedge with frames := [{ first := 8388607, count := 1, vf := 2, cmp := false }] }
       ¬ (∀ x ∈ r.frames, x.first + x.count ≤ 8388607 ∨ 8388607 + 1 ≤ x.first ∨ x.count = 0) ∧ r.bmeta = [])
    ∧ ({ sHedge with mgmt := { sHedge.mgmt with fstat := 1, fnext := 4 } } : State).mgmt.fstat = 1 :=
  ⟨by decide, ⟨by decide, by rfl⟩, by rfl⟩

/-! Management: die 1 is hot, or too hot; and an image of the firmware whose version equals the floor. -/

def temps (die1 : Int) : List Word := List.replicate 8 0x100 ++ [BitVec.ofInt 32 die1] ++ List.replicate 23 5
def fwHeader (version : Nat) : List Byte :=
  natLe 4 0x57464E4B ++ [2, 1, 0, 0] ++ natLe 4 version ++ z 4 ++ natLe 8 67108864 ++ z 8 ++ List.replicate 48 3 ++ z 48 ++ List.replicate 96 5
    ++ natLe 4 3868 ++ List.replicate 3868 7 ++ z 0
theorem wit_Management : (∀ die, die < 4 → ((temps 919).getD (8 * die) 0).toInt < 920) ∧ (∃ die, die < 4 ∧ 920 ≤ ((temps 920).getD (8 * die) 0).toInt)
    ∧ s0.mgmt.fwstat ≠ 1 ∧ headerOk (fwHeader 6) = true ∧ headerOk (fwHeader 6 ++ [0]) = false :=
  ⟨by decide, ⟨1, by decide, by decide⟩, by decide, by decide +kernel, by decide +kernel⟩
/-- SHA-384 of "abc" (FIPS 180-4). -/
def abcDigest : List Byte :=
  [0xcb, 0x00, 0x75, 0x3f, 0x45, 0xa3, 0x5e, 0x8b, 0xb5, 0xa0, 0x3d, 0x69, 0x9a, 0xc6, 0x50, 0x07, 0x27, 0x2c, 0x32, 0xab, 0x0e, 0xde, 0xd1, 0x63,
   0x1a, 0x8b, 0x60, 0x5a, 0x43, 0xff, 0x5b, 0xed, 0x80, 0x86, 0x07, 0x2b, 0xa1, 0xe7, 0xcc, 0x23, 0x58, 0xba, 0xec, 0xa1, 0x34, 0xc8, 0x25, 0xa7]
theorem test_sha384_abc : sha384 [0x61, 0x62, 0x63] = abcDigest := by decide +kernel
/-- An image at 0x2000 of host memory, with the payload "abc" and an LMS signature of Winternitz parameter 8 and height 5. -/
def smallHeader (version : Nat) : List Byte :=
  natLe 4 0x57464E4B ++ [2, 1, 0, 0] ++ natLe 4 version ++ z 4 ++ natLe 8 3 ++ z 8 ++ abcDigest ++ z 48 ++ z 96
    ++ natLe 4 1292 ++ (z 7 ++ [4] ++ z 1123 ++ [5] ++ z 160) ++ z 2576
def sImage (version : Nat) : State :=
  { s0 with
    hostMem := memSetN (memSetN [] 0x3000 [0x61, 0x62, 0x63]) 0x2000 (smallHeader version)
    mgmt := { s0.mgmt with fwstat := 1, floors := [(1, 0), (2, 6)], fwaddr := 0x2000 } }
theorem image_header (links : Links) (h : ({ sImage 6 with links } : State).hostFrom 0 = true) :
    ({ sImage 6 with links } : State).imageBytes 0 4096 = some (smallHeader 6) := by
  have hl : (smallHeader 6).length = 4096 := by decide +kernel
  have hb : memGetN (memSetN (memSetN [] 0x3000 [0x61, 0x62, 0x63]) 0x2000 (smallHeader 6)) 0x2000 4096 = smallHeader 6 := by
    rw [← hl]
    exact memGetN_memSetN_same (by decide) _ _
  rw [State.imageBytes, h]
  exact congrArg some hb
theorem image_payload : (sImage 6).imageBytes 4096 3 = some [0x61, 0x62, 0x63] := by
  have hl : (smallHeader 6).length = 4096 := by decide +kernel
  have hb : memGetN (memSetN (memSetN [] 0x3000 [0x61, 0x62, 0x63]) 0x2000 (smallHeader 6)) 0x3000 3 = [0x61, 0x62, 0x63] := by
    have o (m : Memory) (i : Nat) (h : 0x3000 ≤ i) : memGet (memSetN m 0x2000 (smallHeader 6)) i = memGet m i :=
      memGet_memSetN_other (.inr (by rw [hl]; omega))
    rw [memGetN, memGetN, memGetN, memGetN, o _ _ (by decide), o _ _ (by decide), o _ _ (by decide)]
    decide
  exact congrArg some hb
theorem wit_Management_image : (sImage 6).mgmt.fwstat = 1 ∧ (sImage 6).imageBytes 0 4096 = some (smallHeader 6)
    ∧ headerOk (smallHeader 6) = true ∧ field (smallHeader 6) 0x10 8 = 3 ∧ (sImage 6).imageBytes 4096 3 = some [0x61, 0x62, 0x63]
    ∧ (smallHeader 6 |>.drop 0x20).take 48 = abcDigest ∧ lmsSetOk (lmsSig (smallHeader 6)) = true
    ∧ (sImage 6).mgmt.floors.find? (fun f => f.1 == field (smallHeader 6) 4 1) = some (field (smallHeader 6) 4 1, 6)
    ∧ field (smallHeader 5) 8 4 = 5 ∧ field (smallHeader 6) 8 4 = 6 :=
  ⟨by rfl, image_header s0.links (by decide), by decide +kernel, by decide +kernel, image_payload, by decide +kernel, by decide +kernel,
    by decide +kernel, by decide +kernel, by decide +kernel⟩
/-- No image can be read while both modules are down, nor a payload that host memory cannot give. -/
theorem wit_Management_unread : ({ sImage 6 with links := { s0.links with ucieUp := [false, false] } } : State).imageBytes 0 4096 = none
    ∧ (let s : State := { sImage 6 with ecc := [.host 0x3002] }; s.imageBytes 4096 3 = none ∧ s.hostBad (0, none) 0x2FFF 1 = false) :=
  ⟨by rfl, by rfl, by rfl⟩
def roomyMgmt (prod : Nat) : Mgmt := { Mgmt.reset with mlbase := 0x73000, mllog := 8, mlprod := BitVec.ofNat 64 prod }
theorem wit_Management_log : LogRoom (roomyMgmt 255) ∧ ¬ LogRoom (roomyMgmt 256) ∧ ({ roomyMgmt 255 with dropped := 3 } : Mgmt).dropped ≠ 0
    ∧ bit (roomyMgmt 255).mlbase 63 = false ∧ (bits (roomyMgmt 255).mlbase 51 0).toNat + 32 * (255 % 2 ^ 8) = 0x73000 + 32 * 255 :=
  ⟨by simp only [LogRoom, roomyMgmt]; decide, by simp only [LogRoom, roomyMgmt]; decide, by decide, by rfl, by decide⟩

/-! The host, at the end of a block. -/

theorem wit_HostAndLinks : s0.hostOpen = true ∧ 0x503FF + 1 ≤ 2 ^ 41 ∧ 0x503FF % 1024 + 1 ≤ 1024
    ∧ s0.frameOf 0x503FF = some { first := 0, count := 16, vf := 1, cmp := false } ∧ s0.hostq = [] ∧ s0.held = [] ∧ (s0.vf 1).migok = false
    ∧ s0.mem.wf = true ∧ (∀ a ∈ s0.poison, a < 0x503FF ∨ 0x503FF + 1 ≤ a) ∧ (heldBy (.host 1) []).expired = false
    ∧ (let s : State := { s0 with links := { s0.links with ucieUp := [false, false] } }
       s.hostOpen = false ∧ s.links.ucieUp[1]? = some false ∧ s.links.ideKeys[1]? = some none)
    ∧ s0.links.ucieUp.length = 2 ∧ s0.links.ideKeys.length = 2 ∧ s0.links.ucieUp[1]? = some true ∧ s0.links.dieUp[3]? = some true
    ∧ s0.links.portUp[17]? = some true ∧ s0.links.replays[17]? = some 0
    ∧ ({ s0.links with replays := List.replicate 18 15 } : Links).replays[17]? = some 15
    ∧ ({ s0.links with replays := List.replicate 18 16 } : Links).replays[17]? = some 16 ∧ (∃ p, p ≠ 17 ∧ s0.links.portUp[p]? = some true) :=
  ⟨by rfl, by decide, by decide, by decide, by rfl, by rfl, by rfl, by decide +kernel, (by intro a h; cases h), by rfl, ⟨by rfl, by rfl, by rfl⟩,
    by rfl, by rfl, by rfl, by rfl, by rfl, by rfl, by rfl, by rfl, ⟨0, by decide, by rfl⟩⟩

/-! Requests of package 2. -/

/-- A flit of package 2 stands at port 0, the first that the port receives. -/
def arrives (s : State) (b : FlitBody) : State := { s with rx := some (Flit.raw ⟨pHdr, b⟩ 0) }
def arrivesB (b : FlitBody) : Bool :=
  let r := Flit.raw ⟨pHdr, b⟩ 0
  r.hdr == pHdr && r.seq == 0 && r.body == some b
theorem arrives_of {s : State} {b : FlitBody} (h : arrivesB b = true)
    (hs : (s.links.portUp.getD 0 false && s.links.rxSeq.getD 0 0 == 0) = true := by decide) : Arrives (arrives s b) pHdr b := by
  simp only [arrivesB, Bool.and_eq_true, beq_iff_eq] at h hs
  exact ⟨hs.1, _, rfl, h.1.1, h.1.2.trans hs.2.symm, h.2⟩
theorem peer_s0 (pa n : Nat) (h : 0 < n ∧ pa % 1024 + n ≤ 1024 ∧ pa + n ≤ 2 ^ 41) (hf : pa / 65536 < 16) (b : FlitBody)
    (hl : s0.reaches 0 (homeDie pa) = true := by decide) : PeerAt (arrives s0 b) pHdr pa n := by
  refine ⟨h, ⟨{ first := 0, count := 16, vf := 1, cmp := false }, ?_, by rfl, by rfl⟩, (by intro a h; cases h), hl, by rfl, by rfl,
    (by decide +kernel : s0.mem.wf = true)⟩
  simp [State.frameOf, arrives, s0, lone, world, State.placeInsn, hf]

theorem wit_PackageRequests_read : PeerAt (arrives s0 (.read 0x50000 1024 0)) pHdr 0x50000 1024
    ∧ Arrives (arrives s0 (.read 0x50000 1024 0)) pHdr (.read 0x50000 1024 0) ∧ BitVec.ofNat 64 0x50000 = (0x50000 : Dword)
    ∧ PeerAt (arrives s0 (.write 0x503FF 0 [7])) pHdr 0x503FF 1 ∧ Arrives (arrives s0 (.write 0x503FF 0 [7])) pHdr (.write 0x503FF 0 [7]) :=
  ⟨peer_s0 _ _ (by decide) (by decide) _, arrives_of (by decide +kernel), by decide, peer_s0 _ _ (by decide) (by decide) _,
    arrives_of (by decide +kernel)⟩
/-- ACAS with the value that stands there, 0, and with another one; and an addition. -/
def acas (cmp : BitVec 32) : FlitBody := .atomic 0x50004 9 2 true 0 (0#64 ++ 0x99#32 ++ cmp)
theorem wit_PackageRequests_atomic : let add : FlitBody := .atomic 0x50004 0 2 true 0 0x99
    PeerAt (arrives s0 add) pHdr 0x50004 4 ∧ Arrives (arrives s0 add) pHdr add ∧ (0 : BitVec 4).toNat ≤ 8 ∧ 0x50004 % 4 = 0
    ∧ PeerAt (arrives s0 (acas 0)) pHdr 0x50004 4 ∧ Arrives (arrives s0 (acas 0)) pHdr (acas 0) ∧ Arrives (arrives s0 (acas 5)) pHdr (acas 5)
    ∧ BitVec.ofNat 32 (leNat ((List.range 4).map (fun i => memGet s0.mem (0x50004 + i)))) = 0 :=
  ⟨peer_s0 _ _ (by decide) (by decide) _, arrives_of (by decide +kernel), by decide, by decide, peer_s0 _ _ (by decide) (by decide) _,
    arrives_of (by decide +kernel), arrives_of (by decide +kernel), by decide +kernel⟩
theorem wit_PackageRequests_cell : let cell (op : BitVec 2) : FlitBody := .cell 0x50020 op 8 0 5
    PeerAt (arrives s0 (cell 0)) pHdr 0x50020 32 ∧ 0x50020 % 32 = 0 ∧ Arrives (arrives s0 (cell 0)) pHdr (cell 0)
    ∧ Arrives (arrives s0 (cell 1)) pHdr (cell 1) ∧ Arrives (arrives s0 (cell 2)) pHdr (cell 2) :=
  ⟨peer_s0 _ _ (by decide) (by decide) _, by decide, arrives_of (by decide +kernel), arrives_of (by decide +kernel),
    arrives_of (by decide +kernel)⟩
/-- The last byte of die 3, which no link reaches; an address that no frame backs; and a release behind a request that waits. -/
def noLinks (s : State) : State := { s with links := { s.links with dieUp := [false, false, false, false] } }
def queued2 : State := { s0 with flushes := [⟨pHdr, .flush⟩] }
theorem wit_PackageRequests_refused : let far : FlitBody := .read 0x1FFFFFFFFFF 1 0; let rel : FlitBody := .write 0x50000 2 [7]
    Arrives (arrives (noLinks s0) far) pHdr far ∧ (arrives (noLinks s0) far).reaches (portDie 0) (homeDie 0x1FFFFFFFFFF) = false
    ∧ (arrives (noLinks s0) far).peerWaits pHdr = false ∧ 0x1FFFFFFFFFF + 1 ≤ 2 ^ 41
    ∧ Arrives (arrives s0 far) pHdr far ∧ (arrives s0 far).reaches (portDie 0) (homeDie 0x1FFFFFFFFFF) = true
    ∧ (arrives s0 far).frameOf 0x1FFFFFFFFFF = none ∧ (arrives s0 far).peerWaits pHdr = false
    ∧ Arrives (arrives queued2 rel) pHdr rel ∧ releases 2 = true ∧ (arrives queued2 rel).peerWaits pHdr = true :=
  ⟨arrives_of (by decide +kernel), by decide, by rfl, by decide, arrives_of (by decide +kernel), by decide, by rfl, by rfl,
    arrives_of (by decide +kernel), by rfl, by rfl⟩
theorem wit_PackageRequests_flush : Arrives (arrives s0 .flush) pHdr .flush ∧ (arrives s0 .flush).peerWaits pHdr = false
    ∧ (let s := sHeld (.peer pHdr) [] t0; Arrives (arrives s .flush) pHdr .flush
       ∧ ∃ y ∈ s.held, y.expired = false ∧ y.by' = .peer pHdr) :=
  ⟨arrives_of (by decide +kernel), by rfl, arrives_of (by decide +kernel), heldBy (.peer pHdr) [], List.mem_singleton.2 rfl, by rfl, by rfl⟩
/-- Words 0 and 2 of VGET, and its operands: vertex 5 of graph 7. -/
def vgetWords : List Word := encode (.vget (gf 7 0 0))
def vgetAt (ctxn : Nat) : FlitBody := .graphop (vgetWords.getD 0 0) (vgetWords.getD 2 0) (ref edged) 0 0 ctxn 0 0
def sServe : State := arrives (sg edged w0) (vgetAt 0)
theorem wit_PackageRequests_graph : Arrives sServe pHdr (vgetAt 0) ∧ opcodeOf (bits (vgetWords.getD 0 0) 9 2).toNat = some .vget
    ∧ (∃ f, extract .vget { w0 := vgetWords.getD 0 0, ext := some (0, vgetWords.getD 2 0), lit := none } = .vget f
        ∧ f.w2.idx.toNat < dM.vpw)
    ∧ 0 / 16 + 1 = pHdr.vf.toNat ∧ (delivered sServe 0).homeGraph 0 (ref edged) = some dM ∧ (delivered sServe 0).txns = []
    ∧ sServe.reaches (portDie pHdr.port) dM.die = true
    ∧ (delivered sServe 0).vertex dM.ctxn dM.g (bits (ref edged) 39 0).toNat = some (vert 7 5)
    ∧ Kept (delivered sServe 0) dM (vert 7 5).id 0
    ∧ Arrives (arrives (sg edged w0) (vgetAt 16)) pHdr (vgetAt 16) ∧ 16 / 16 + 1 ≠ pHdr.vf.toNat
    ∧ (let b : FlitBody := .graphop 0xFFFFFFFF 0 0 0 0 0 0 0
       Arrives (arrives s0 b) pHdr b ∧ opcodeOf (bits (0xFFFFFFFF : Word) 9 2).toNat = none) :=
  ⟨arrives_of (by decide +kernel), by decide +kernel, ⟨_, rfl, by decide +kernel⟩, by rfl, by decide +kernel, by rfl, by decide, by decide +kernel,
    kept_of (by decide +kernel) (by decide +kernel), arrives_of (by decide +kernel), by decide, arrives_of (by decide +kernel), by decide⟩
theorem wit_PackageRequests_slots : Arrives (arrives (twoDies s0) (.slotreq 0 1)) pHdr (.slotreq 0 1)
    ∧ (∃ c ∈ (arrives (twoDies s0) (.slotreq 0 1)).hedgeCores pHdr.vf.toNat 1, (arrives (twoDies s0) (.slotreq 0 1)).guests c < 256)
    ∧ Arrives (arrives s0 (.slotreq 0 3)) pHdr (.slotreq 0 3)
    ∧ (∀ c ∈ (arrives s0 (.slotreq 0 3)).hedgeCores pHdr.vf.toNat 3, 256 ≤ (arrives s0 (.slotreq 0 3)).guests c) :=
  ⟨arrives_of (by decide +kernel), ⟨64, by decide, by decide⟩, arrives_of (by decide +kernel), by decide⟩
theorem wit_PackageRequests_recall : let t := guestT .ready (some ⟨64, 0, []⟩); let w : Workgroup := { w0 with foreign := some 2 }
    let b : FlitBody := .recall 0 0 0; let s := arrives (lone t w) b
    Arrives s pHdr b ∧ s.wgs.find? (fun y => y.foreign == some pHdr.spkg.toNat && y.ctxn == 0 && y.wgx == 0) = some w
    ∧ s.thread ⟨w.id, 0⟩ = some t ∧ t.status = .ready ∧ Drained s t ∧ Unanswered s t ∧ t.late = [] ∧ s.held = [] :=
  ⟨arrives_of (by decide +kernel), by rfl, by rfl, by rfl, drained _ rfl, (by intro a h; cases h), by rfl, by rfl⟩
/-- Nothing at a port; a port that is down, and a flit out of its turn; and a SLOTBSY with a payload, and a request of TYPE 0. -/
def rawFlit (vc ty len : Nat) : RawFlit :=
  { port := 0, bytes := [BitVec.ofNat 8 vc, BitVec.ofNat 8 ty, 0, 2, 1, BitVec.ofNat 8 len] ++ List.replicate 242 0 }
theorem wit_PackageRequests_none : s0.rx = none
    ∧ ({ s0.links with portUp := List.replicate 18 false } : Links).portUp.getD pHdr.port false = false
    ∧ (Flit.raw ⟨pHdr, .ack⟩ 1).seq ≠ s0.links.rxSeq.getD 0 0
    ∧ (rawFlit 0 0 0).body = none ∧ (rawFlit 0 0 0).vc = 0 ∧ (rawFlit 2 3 1).body = none ∧ (rawFlit 2 3 1).vc ≠ 0
    ∧ (rawFlit 2 3 1).seq = s0.links.rxSeq.getD 0 0 ∧ s0.links.portUp.getD 0 false = true :=
  ⟨by rfl, by rfl, by decide +kernel, by decide +kernel, by decide +kernel, by decide +kernel, by decide +kernel, by decide +kernel, by rfl⟩

/-! Responses of package 2. -/

def asks (b : TxnBy) (st : Status) : State := { lone (tHeld st) w0 with txns := [{ tag := pHdr.tag, pkg := 2, by' := b }] }
def waitsTxn : Thread := tHeld (.data (.txn 0x44 true))
theorem wit_PackageResponses : let s := asks (.fetch t0.key 0x30000) (.data (.fetch 0x44)); let t := tHeld (.data (.fetch 0x44))
    Arrives (arrives s0 .ack) pHdr .ack ∧ (∀ y ∈ s0.txns, y.tag ≠ pHdr.tag ∨ y.pkg ≠ pHdr.spkg.toNat)
    ∧ (let x := asks (.reply t0.key) (.data (.txn 0x44 true)); Arrives (arrives x (.data 0 [7])) pHdr (.data 0 [7])
       ∧ x.txns = [{ tag := pHdr.tag, pkg := pHdr.spkg.toNat, by' := .reply t0.key }] ∧ x.thread t0.key = some waitsTxn)
    ∧ (let x := asks (.slot t0.key) (.data (.txn 0x44 true)); Arrives (arrives x (.slotgnt 64)) pHdr (.slotgnt 64)
       ∧ Arrives (arrives x .slotbsy) pHdr .slotbsy
       ∧ x.txns = [{ tag := pHdr.tag, pkg := pHdr.spkg.toNat, by' := .slot t0.key }] ∧ x.thread t0.key = some waitsTxn)
    ∧ Arrives (arrives s (.data 0 [1, 2, 3, 4])) pHdr (.data 0 [1, 2, 3, 4]) ∧ Arrives (arrives s (.neg 6 0)) pHdr (.neg 6 0)
    ∧ s.txns = [{ tag := pHdr.tag, pkg := pHdr.spkg.toNat, by' := .fetch t.key 0x30000 }] ∧ s.thread t.key = some t
    ∧ (∀ u ∈ s.threads, u.status = .data (.fetch pHdr.tag) → u = t) ∧ t.status = .data (.fetch pHdr.tag) ∧ (s.threads.map Thread.key).Nodup :=
  ⟨arrives_of (by decide +kernel), by decide, ⟨arrives_of (by decide +kernel), by rfl, by rfl⟩,
    ⟨arrives_of (by decide +kernel), arrives_of (by decide +kernel), by rfl, by rfl⟩, arrives_of (by decide +kernel), arrives_of (by decide +kernel),
    by rfl, by rfl, by decide +kernel, by rfl, by decide⟩
/-- A thread of this package comes home with 16 registers, and a guest of package 3 arrives. -/
def contOf (pkg : Nat) : List Byte :=
  natLe 8 0x30020 ++ natLe 4 0 ++ natLe 2 0 ++ natLe 2 5 ++ [BitVec.ofNat 8 pkg, 2, 8, 0] ++ natLe 2 0x1234 ++ [112, 16, 0, 0, 0, 0] ++ natLe 4 0
    ++ natLe 4 1 ++ natLe 4 2 ++ natLe 4 3 ++ natLe 4 4 ++ (List.range 16).flatMap (fun i => natLe 4 (7 * i + 1))
def contBody (parts pkg : Nat) : FlitBody := .cont 0 parts (contOf pkg).length (contOf pkg)
def tGone : Thread := { t0 with status := .gone, away := some ⟨0, 2, []⟩, hops := 1 }
theorem wit_PackageResponses_home : let s := arrives (lone tGone w0) (contBody 1 0)
    Arrives s pHdr (contBody 1 0) ∧ field (contOf 0) 0x10 1 = s.pkg ∧ s.conts = [] ∧ (delivered s 0).returning (contOf 0) = some tGone
    ∧ s.wg tGone.wg = some w0 ∧ (15 : Nat) < field (contOf 0) 0x17 1 ∧ field (contOf 0) 0x16 1 + field (contOf 0) 0x17 1 ≤ 128
    ∧ Arrives (arrives s0 (contBody 1 0)) pHdr (contBody 1 0) ∧ (delivered (arrives s0 (contBody 1 0)) 0).returning (contOf 0) = none
    ∧ Arrives (arrives s0 (contBody 2 0)) pHdr (contBody 2 0) :=
  ⟨arrives_of (by decide +kernel), by decide, by rfl, by decide +kernel, by rfl, by decide, by decide, arrives_of (by decide +kernel),
    by decide +kernel, arrives_of (by decide +kernel)⟩
theorem wit_PackageResponses_guest : let s : State := { arrives State.reset (contBody 1 3) with
      conts := [⟨pHdr.spkg.toNat, pHdr.tag, [], some 66⟩] }
    Arrives s pHdr (contBody 1 3) ∧ field (contOf 3) 0x10 1 ≠ s.pkg ∧ s.conts = [⟨pHdr.spkg.toNat, pHdr.tag, [], some 66⟩]
    ∧ s.wgs = [] ∧ s.threads = [] ∧ field (contOf 3) 0x0C 2 ≠ 0xFFFF := by
  refine ⟨?_, by decide, by rfl, by rfl, by rfl, by decide⟩
  have h : Arrives (arrives State.reset (contBody 1 3)) pHdr (contBody 1 3) := arrives_of (by decide +kernel)
  exact h
theorem wit_PackageResponses_collective : s0.collRx = []
    ∧ Arrives (arrives s0 (.elem 1 4 2 0 [5, 6])) pHdr (.elem 1 4 2 0 [5, 6]) ∧ Arrives (arrives s0 (.cells 1 4 2 0 [77])) pHdr (.cells 1 4 2 0 [77])
    ∧ Arrives (arrives s0 (.codebook 1 4 2 (List.replicate 16 9))) pHdr (.codebook 1 4 2 (List.replicate 16 9))
    ∧ Arrives (arrives s0 (.done 1 4 2)) pHdr (.done 1 4 2) :=
  ⟨by rfl, arrives_of (by decide +kernel), arrives_of (by decide +kernel), arrives_of (by decide +kernel), arrives_of (by decide +kernel)⟩

/-! The step: ADD v0, v0, v0 placed where the next step fetches; ADDC without its extension words; and an input that waits. -/

def sAdd : State := State.reset.withFetchWord 32 0x48
def fetchB (ws : List Word) (s : State) (slice : Bool := false) : Bool :=
  let x := s.settle
  match x.pick with
  | none => false
  | some (g, c) =>
    let y := State.takeGroup { x with turn := true } g c
    match g.threads.head?.bind y.thread with
    | none => false
    | some t => match y.wg t.wg with
      | none => false
      | some w => s.agenda.isEmpty && !x.turn && x.ecc.isEmpty && x.held.isEmpty && x.kloads.isEmpty
          && g.threads.all (fun k => (y.thread k).any (fun u => u.status == .ready && u.late.isEmpty)) && t.key.isSlice == slice
          && ws.length == wordCount t.key.isSlice (ws.getD 0 0) (ws.getD 1 0)
          && (List.range ws.length).all (fun i => bits (t.pc + BitVec.ofNat 64 (4 * i)) 63 52 == bits t.pc 63 52
              && (match y.checkVa w (atCore g.core) { n := 4, align := 1, paths := [0], fetch := true } (vaOf (t.pc + BitVec.ofNat 64 (4 * i))) with
                  | .ok ⟨.main pa, _⟩ => y.reaches (dieOf g.core) (homeDie pa) && !y.isCmp pa && y.poison.isEmpty
                      && ws.getD i 0 == memGet y.mem (pa + 3) ++ memGet y.mem (pa + 2) ++ memGet y.mem (pa + 1) ++ memGet y.mem pa
                  | _ => false))
theorem wit_StepRunsDecoded : fetchB [0x48] sAdd = true ∧ decode [0x48] = .ok (.add ⟨0, 0, 0, false, fB⟩) :=
  ⟨by decide +kernel, by decide +kernel⟩
theorem wit_StepRunsDecoded_none : fetchB [0x50] (State.reset.withFetchWord 32 0x50) = true
    ∧ (match decode [0x50] with | .ok _ => false | .error _ => true) = true := ⟨by decide +kernel, by decide +kernel⟩
/-- A slice whose next word is ADD, which no slice may use. -/
def sSlice : State :=
  { sAdd with threads := [{ bootThread with tidx := 0xFFFF }, { bootThread with status := .filed }], groups := [{ id := 2, core := 0, threads := [⟨1, 0xFFFF⟩], overdue := false }] }
theorem wit_StepRunsDecoded_slice : fetchB [0x48] sSlice true = true ∧ decode [0x48] = .ok (.add ⟨0, 0, 0, false, fB⟩)
    ∧ sliceOk (.add ⟨0, 0, 0, false, fB⟩) = false := ⟨by decide +kernel, by decide +kernel, by decide⟩
theorem wit_StepRunsDecoded_input : ({ s0 with agenda := [⟨.deviceReset, none⟩] } : State).agenda = ⟨.deviceReset, none⟩ :: [] := rfl

/-! What an access or a wait needs besides: a path, an empty queue, links, and places at another die. -/

def spilling (win : List Dword) (top : Dword) : Thread :=
  { tc win with stkbase := 0x1000000000050000, stktop := top, stklim := 0x1000000000050100 }
theorem wit_CallsAndReturns_path : (let t := spilling [0x100, 0x200, 0x300, 0x400] 0x1000000000050000
      (Instr.call 4 fB).Alone (lone t w0) t w0 ∧ t.win.length = 4 ∧ t.stkbase.toNat ≤ t.stktop.toNat
      ∧ t.stktop.toNat + 8 ≤ t.stklim.toNat ∧ bits t.stktop 63 60 ≠ 0 ∧ Unanswered (lone t w0) t)
    ∧ (let t := spilling [] 0x1000000000050100
      (Instr.ret fB).Alone (lone t w0) t w0 ∧ t.win = [] ∧ t.stkbase.toNat + 8 ≤ t.stktop.toNat
      ∧ t.stktop.toNat ≤ t.stklim.toNat ∧ bits t.stktop 63 60 ≠ 0 ∧ Unanswered (lone t w0) t) :=
  ⟨⟨alone_lone (by decide), by decide, by decide, by decide, by decide, (by intro a h; cases h)⟩,
    ⟨alone_lone (by decide), by rfl, by decide, by decide, by decide, (by intro a h; cases h)⟩⟩
theorem wit_UniformInstructions_direct : (∀ x ∈ (lone t0 kn).kloads, t0.key ∉ x.keys) ∧ Direct (lone t0 kn) t0 0x5010F (.main 0x5010F) :=
  ⟨by decide, fun h => absurd h (by decide)⟩
/-- A line of die 1, read by a thread of die 0 on the ROD path. -/
def far : Thread := at5 0x1000008000050000
def line7 : Replica := ⟨0, 0x8000050000 / 64, List.replicate 64 7⟩
def sFar (b : Bool) : State := { twoDies (lone far w0) with replicas := if b then [line7] else [] }
theorem wit_LoadResults_replica (b : Bool) : (Instr.ld (memF 2 0)).Alone (sFar b) far w0
    ∧ Lands (sFar b) (memF 2 0) 4 w0 far (loadKind false 4) (.main 0x8000050000)
    ∧ bits (addressOf (memF 2 0) 4 w0 far) 63 60 = 1 ∧ homeDie 0x8000050000 ≠ dieOf ((sFar b).coreOf far)
    ∧ (sFar b).reaches (dieOf ((sFar b).coreOf far)) (homeDie 0x8000050000) = true
    ∧ (sFar b).isCmp (64 * (0x8000050000 / 64)) = false ∧ (sFar b).poison = [] := by
  cases b
  · exact ⟨alone_of_ready (by rfl) (by rfl) (by rfl) (by decide), lands (by rfl) (by decide +kernel), by rfl, by decide +kernel,
      by decide +kernel, by decide +kernel, by rfl⟩
  · exact ⟨alone_of_ready (by rfl) (by rfl) (by rfl) (by decide), lands (by rfl) (by decide +kernel), by rfl, by decide +kernel,
      by decide +kernel, by decide +kernel, by rfl⟩
theorem wit_LoadResults_held : (sFar false).replica 0 (0x8000050000 / 64) = none ∧ (sFar true).replica 0 (0x8000050000 / 64) = some line7
    ∧ Direct (lone (at5 0x50000) w0) (at5 0x50000) (addressOf (memF 4 0) 16 w0 (at5 0x50000)) (.main 0x50000) :=
  ⟨by rfl, by rfl, fun h => absurd h (by decide)⟩
/-- FENCE and CWB of a lone thread, whose own store waits, and ZFILL of the scratchpad. -/
theorem wit_FencesAndMaintenance_alone : s0.queue = [] ∧ (Instr.fence 3 4 1 fB).Alone s0 t0 w0 ∧ 2 ≤ (4 : BitVec 3).toNat
    ∧ (∀ p : Fin 7, bit (5 : BitVec 7) p = true → p.val ≤ 2 ∧ p.val ≠ 1)
    ∧ (Instr.cwb (lineF 0)).Alone (lone (at5 0x50000) w0) (at5 0x50000) w0
    ∧ (let t := at5 0x2000000000001000; (Instr.zfill (lineF 1)).Alone (lone t w0) t w0
      ∧ Lands (lone t w0) (lineF 1) 64 w0 t { n := 1024, align := 1024, paths := [0, 2], write := true, strict := true } (.spad 0x1000)
      ∧ w0.foreign = none ∧ Drained (lone t w0) t ∧ w0.spad.wf = true) :=
  ⟨by rfl, alone_lone (by decide), by decide, by decide, alone_lone (by decide), alone_lone (by decide), lands (by rfl) (by rfl), by rfl,
    drained _ rfl, by decide⟩
theorem wit_GuardFalseMemory_joins : ∀ j ∈ s0.joins, ∀ k ∈ s0.cur.keys, k ∉ j.waiting := by decide
theorem wit_Barriers_here : s0.barAbroad bk = false ∧ sPair.barAbroad bk = false := ⟨by decide, by decide⟩
theorem wit_QueuesAndTables_drained : Drained (lone (tt 0xFFF 0) w0) (tt 0xFFF 0) ∧ (0x40 : Nat) % 16 = 0 ∧ 0x40 + 256 ≤ w0.spadSize :=
  ⟨drained _ rfl, by decide, by decide⟩
theorem wit_VertexInstructions_group : let i := Instr.vget (gf 7 0 0); let t := away5 i; let s := sg t w0
    s.graphGroup 0x77 = [t.key] ∧ t.seen = (if (gf 7 0 0).w2.mig = true then some [7] else none) ∧ t.guard i.form = true ∧ i.step8 w0 t = true
    ∧ s.joins = [] ∧ (s.vertexHome dM (bits (ref edged) 39 0).toNat).1 = s.pkg
    ∧ s.reaches (dieOf (s.coreOf t)) (s.vertexHome dM (bits (ref edged) 39 0).toNat).2 = true ∧ (7 : Nat) < dM.vpw :=
  ⟨by rfl, by rfl, by decide, by decide, by rfl, by decide +kernel, by decide +kernel, by decide⟩
/-- One cursor named twice. -/
def sSelf : State := { sStream (starting 7 5) (starting 8 5) false none with
  ops := [{ streamOp false none with body := .stream false 4 4 none false 8 }] }
theorem wit_GraphStreams_self : (sSelf.streamsNow 0).find? (fun x => x.id == 90)
      = some { streamOp false none with body := .stream false 4 4 none false 8 }
    ∧ (sStream (starting 7 5) (starting 8 5) false (some 5)).streamsNow 0 = [streamOp false (some 5)] ∧ w0.frozen = false
    ∧ (sSelf.adj dM 5 false).all (fun z => decide (z.1 < 2 ^ 40)) = true :=
  ⟨by decide +kernel, by decide +kernel, by rfl, by decide +kernel⟩
theorem wit_SystemRegisters_tlbi : let s := lone (at5 0x5000000000050000) w0
    (Instr.tlbi ⟨0, 4, 0, fB⟩).Alone s (at5 0x5000000000050000) w0 ∧ s.flushAll.ops = [] ∧ s.flushAll.held = [] ∧ s.flushAll.txns = []
    ∧ (Instr.tlbi ⟨0, 4, 0, fB⟩).Alone (lone (at5 0x2000000000000000) w0) (at5 0x2000000000000000) w0
    ∧ (bits (0x2000000000000000 : Dword) 63 60).toNat ∉ [0, 1, 4, 5] :=
  ⟨alone_lone (by decide), by rfl, by rfl, by rfl, alone_lone (by decide), by decide⟩
theorem wit_GuestMovement_links : (let t := guestT (.transit 3 0 none) (some ⟨64, 0, []⟩); (lone t foreignW).portsFrom (dieOf ((lone t foreignW).coreOf t)) = true)
    ∧ (let t := guestT .gone (some ⟨0, 3, []⟩); let s := lone t w0
       s.thread t.key = some t ∧ t.recalled = false ∧ t.away = some ⟨0, 3, []⟩ ∧ s.held = []) :=
  ⟨by decide, ⟨by rfl, by rfl, by rfl, by rfl⟩⟩
/-- With module 0 alone and no link of die 0, the host does not reach die 1. -/
theorem wit_HostAndLinks_far : s0.hostFrom (homeDie 0x503FF) = true ∧ s0.hostFrom 0 = true ∧ s0.txns = []
    ∧ (let s : State := { s0 with links := { s0.links with ucieUp := [true, false], dieUp := [false, false, true, true] } }
       s.hostOpen = true ∧ s.hostFrom (homeDie 0x8000050000) = false ∧ 0x8000050000 < 2 ^ 41) :=
  ⟨by decide, by decide, by rfl, ⟨by decide, by decide, by decide⟩⟩
theorem wit_WorkgroupLife_flushed : (sRetire [0, 1, 2, 3]).flushAll = sRetire [0, 1, 2, 3] ∧ sFrozen.flushAll = sFrozen
    ∧ sFrozen.steps wFrozen = false ∧ sFrozen.held = [] ∧ sFrozen.txns = [] :=
  ⟨by rfl, by rfl, by rfl, by rfl, by rfl⟩

/-- A page of strictly ordered accesses. -/
def sOrd (t : Thread) (w : Workgroup) : State :=
  { lone t w with mem := [(0x10000, 1), (0x10002, 2), (0x20000, 0x8F), (0x20006, 0xF0), (0x20007, 0x0F)] }
theorem sound_ord (t : Thread) (w : Workgroup) (pa n : Nat) (hd : (sOrd t w).reaches (dieOf ((sOrd t w).coreOf t)) (homeDie pa) = true)
    (hp : (sOrd t w).isCmp pa = false) : Sound (sOrd t w) t pa n :=
  ⟨hp, (by intro a h; cases h), (by intro a h; cases h), hd, (by intro a h; cases h), (by intro a h; cases h)⟩
theorem intact_of {s : State} {w : Workgroup} (h : s.ecc = []) : Intact s w :=
  ⟨fun n => by rw [h]; simp, fun sl n => by rw [h]; simp⟩
theorem wit_Stores_ord : let t := at5 0x50000; let s := sOrd t w0
    (Instr.st (memF 3 0)).Alone s t w0 ∧ s.mem.wf = true ∧ LandsAt s (memF 3 0) 8 w0 t (storeKind 8) (.main 0x50000) true
    ∧ Sound s t 0x50000 8 ∧ LandsAt (lone t w0) (memF 3 0) 8 w0 t (storeKind 8) (.main 0x50000) false :=
  ⟨alone_of_ready (by rfl) (by rfl) (by rfl) (by decide), by decide +kernel, landsAt (by rfl) (by rfl),
    sound_ord _ _ _ _ (by decide) (by decide), landsAt (by rfl) (by rfl)⟩
theorem wit_UniformInstructions_ord : let s := sOrd t0 kn
    (Instr.kst kst8).Alone s t0 kn ∧ s.mem.wf = true
    ∧ s.checkEa kn (atCore (s.coreOf t0))
        { n := 8, align := 8, paths := [0, 2], write := true, strict := true, ordOk := true } 0x50010 0x50018 = .ok ⟨.main 0x50018, true⟩
    ∧ Sound s t0 0x50018 8 :=
  ⟨alone_of_ready (by rfl) (by rfl) (by rfl) (by decide), by decide +kernel, by rfl, sound_ord _ _ _ _ (by decide) (by decide)⟩
theorem wit_home : inHandler.away = none ∧ tw.away = none ∧ (∀ i, (teamOf i).kloads = []) := ⟨by rfl, by rfl, fun _ => rfl⟩
theorem wit_FencesAndMaintenance_cinv : (Instr.cinv (lineF 1)).Alone (lone (at5 0x1000000000050000) w0) (at5 0x1000000000050000) w0
    ∧ (lone (at5 0x1000000000050000) w0).queue = [] ∧ dieOf wsq.cur.core < 4 := ⟨alone_lone (by decide), by rfl, by decide⟩
/-- Tile 7 of the workgroup holds an uncorrectable error, or nothing does. -/
theorem wit_TileEntries_error : let w := wt (tile .ready 0 .spad 2 0 64); let s : State := { lone t0 w with ecc := [.tile w.id 7] }
    Ecc.tile w.id 7 ∈ s.ecc ∧ (Instr.twait false false 7 fB).Alone s t0 w ∧ (Instr.tstat ⟨7, 0, 8, fB⟩ false).Alone s t0 w
    ∧ w.kernel.det = false ∧ Ecc.tile w.id 7 ∉ (lone t0 w).ecc ∧ Intact (lone t0 w) w
    ∧ (Instr.tarm (v3 7 4 5)).Alone (lone t0 w) t0 w :=
  ⟨List.mem_singleton.2 rfl, alone_of_ready (by rfl) (by rfl) (by rfl) (by decide), alone_of_ready (by rfl) (by rfl) (by rfl) (by decide), by rfl,
    (by intro h; cases h), intact_of rfl, alone_lone (by decide)⟩
/-- A KLD of the first keep-mask register is to come; and one of a register that no mask uses. -/
theorem wit_MatrixMultiply_pending : let w := wMma [(0x93, 3)] 0x0F0F0F0F0F0F0F0F
    let p (k : Nat) : KPending := { wg := w.id, slice := false, k, keys := [], ea := 0 }
    let s : State := { sMma w with kloads := [p 0] }
    (Instr.mmas (v3 0 6 0)).Alone s tMma w ∧ Intact s w ∧ tMma.key.isSlice = false
    ∧ s.kloads.find? (fun x => decide (x.wg = w.id ∧ x.slice = false ∧ 0 ≤ x.k ∧ x.k < 0 + 2 * 16)) = some (p 0)
    ∧ ¬ ((p 32).wg = w.id ∧ (p 32).slice = false ∧ 0 ≤ (p 32).k ∧ (p 32).k < 0 + 2 * 16) ∧ (sMma w).kloads = [] :=
  ⟨alone_of_ready (by rfl) (by rfl) (by rfl) (by decide), intact_of rfl, by rfl, by decide, by decide, by rfl⟩
/-- A cursor image moves through the queue of its thread. -/
theorem wit_Cursors_queue : Drained (lone (tAt 0x1FF0) w0) (tAt 0x1FF0) ∧ Unanswered (lone (tAt 0x1FF0) w0) (tAt 0x1FF0)
    ∧ ((gf 0 0 0).v.srcA w0 (tAt 0x1FF0)).toNat = 0x1FF0 ∧ 0x1FF0 % 16 = 0 ∧ 0x1FF0 + 16 ≤ w0.spadSize :=
  ⟨drained _ rfl, (by intro a h; cases h), by decide, by decide, by decide⟩
theorem wit_SystemRegisters_tables : let s := lone (at5 0) w0
    (Instr.tlbi ⟨1, 4, 0, fB⟩).Alone s (at5 0) w0 ∧ (Instr.tlbi ⟨2, 4, 0, fB⟩).Alone s (at5 0) w0 ∧ Legible s.flushAll :=
  ⟨alone_lone (by decide), alone_lone (by decide), legible_plain rfl rfl⟩
/-- Recall of guests that hold or wait at a stream, and of a thread that is away while every port is down. -/
theorem wit_GuestMovement_recall : (let t := guestT (.blocked (.yield 0x30004)) (some ⟨64, 0, []⟩); let s := lone t w0
      s.thread t.key = some t ∧ t.away ≠ none ∧ Unanswered s t ∧ s.held = [] ∧ t.late = [])
    ∧ (let t := guestT (.blocked (.stream 90)) (some ⟨64, 0, []⟩); let s := lone t w0
      s.thread t.key = some t ∧ t.away ≠ none ∧ s.txns = [] ∧ t.status = .blocked (.stream 90))
    ∧ (let t := guestT .gone (some ⟨0, 3, []⟩); let s := lone t w0
      s.portsFrom (dieOf w0.core) = true ∧ t.away = some ⟨0, 3, []⟩ ∧ t.recalled = false ∧ NoArrivals s
      ∧ ∀ p, p < 18 → ({ s.links with portUp := [] } : Links).portUp.getD p false = false) :=
  ⟨⟨by rfl, by decide, (by intro a h; cases h), by rfl, by rfl⟩, ⟨by rfl, by decide, by rfl, by rfl⟩,
    ⟨by decide, by rfl, by rfl, ⟨by rfl, by decide⟩, by intro p _; simp⟩⟩
theorem wit_CompressedMemory_free : (sCmp 7).hostWaits 1 = false ∧ launchCmd.ended = none := ⟨by rfl, by rfl⟩
theorem wit_WorkgroupLife_legible : Legible (sBind none) := legible_plain rfl rfl
theorem wit_ShutterSequence_joins : sFrozen.joins = [] ∧ sFrozen.held = [] ∧ sFrozen.txns = [] ∧ aSaved.claims = [] :=
  ⟨by rfl, by rfl, by rfl, by rfl⟩
theorem wit_HedgesAndFrames_waits : sBehind.hostWaits 1 = true ∧ sHedge.hostWaits 2 = false ∧ sHedge.hostWaits 0 = false := ⟨by rfl, by rfl, by rfl⟩

/-! The encodings and the memories. -/

theorem wit_DecodeEncode : (Instr.add ⟨127, 127, 0, false, fL 0xFFFFFFFF⟩).wf = true
    ∧ (match decode [0x830C1448#32] with | .ok i => i.wf | .error _ => false) = true := ⟨by decide +kernel, by decide +kernel⟩
theorem wit_MemoryStaysCanonical : sAdd.memWf = true ∧ (match step sAdd with | .next s => s.memWf | _ => false) = true :=
  ⟨by decide +kernel, by decide +kernel⟩

/-! ## Decoding: one encoding of each instruction, its words built from the manual's field positions (R64 to R86, and the
word-2 layouts of the instruction chapters), never by the encoder -/

/-- Word 0 in form Z (OPC 9:2, LEN 1:0, FUNC 31:10), form V3 (D 16:10, A 23:17, B 30:24) and form RI8 (IMM 31:24). -/
def zw (opc len func : Nat) : Word := BitVec.ofNat 32 (opc * 2 ^ 2 + len + func * 2 ^ 10)
def vw (opc len d a b : Nat) : Word := BitVec.ofNat 32 (opc * 2 ^ 2 + len + d * 2 ^ 10 + a * 2 ^ 17 + b * 2 ^ 24)
def rw8 (opc len imm a d : Nat) : Word := BitVec.ofNat 32 (opc * 2 ^ 2 + len + d * 2 ^ 10 + a * 2 ^ 17 + imm * 2 ^ 24)
/-- A uniform instruction's word 0: FN 31:28, UB 27:22, UA 21:16, UD 15:10 (R170). -/
def uw (opc fn ub ua ud : Nat) : Word := BitVec.ofNat 32 (opc * 2 ^ 2 + ud * 2 ^ 10 + ua * 2 ^ 16 + ub * 2 ^ 22 + fn * 2 ^ 28)
/-- Word 1 with operand C, and the guard @p2 negated: C 12:6, GN 4, GP 3:0 (R74). -/
def cw (c : Nat) : Word := BitVec.ofNat 32 (c * 2 ^ 6 + 1 * 2 ^ 4 + 2)
/-- The form that this word 1 stands for. -/
def fG (c : Reg) : Form := ⟨.ext { w1 c with gn := true, gp := 2 }, none⟩
def v3g (d a b c : Reg) : V3 := ⟨d, a, b, false, fG c⟩
/-- Do these words decode to this instruction? -/
def reads (ws : List Word) (i : Instr) : Bool := match decode ws with | .ok j => j == i | .error _ => false

theorem test_decode_control :
    reads [0] .nop
    ∧ reads [BitVec.ofNat 32 (5 * 2 ^ 19 + 2 * 2 ^ 16 + 1 * 2 ^ 14 + 3 * 2 ^ 10 + 1 * 2 ^ 2), vw 0x3B 0 1 2 3]
        (.pfx ⟨false, 5, 2, false, true, 3⟩ (vw 0x3B 0 1 2 3) none)
    ∧ reads [zw 0x02 0 0x3FFFFF] (.bra 0x3FFFFF#22 fB)
    ∧ reads [BitVec.ofNat 32 (0x03 * 2 ^ 2 + 5 * 2 ^ 10 + 1 * 2 ^ 14 + 6 * 2 ^ 15)] (.brp 6 true 5)
    ∧ reads [vw 0x04 0 0 0 7] (.jmpr (v3 0 0 7))
    ∧ reads [zw 0x05 0 0x200001] (.call 0x200001#22 fB)
    ∧ reads [vw 0x06 1 0 0 0, 0x00000010#32, 0x00000002#32] (.callr ⟨0, 0, 0, false, fL 0x0000000200000010#64⟩)
    ∧ reads [zw 0x07 2 0, cw 0, 0] (.ret (fG 0))
    ∧ reads [zw 0x08 0 9] (.reform 9)
    ∧ reads [zw 0x09 0 0] (.exit fB)
    ∧ reads [zw 0x0A 0 0x155] (.yield 0x155 fB)
    ∧ reads [zw 0x0B 0 0xBEEF] (.trap 0xBEEF fB)
    ∧ reads [zw 0x0C 0 0x8001] (.brk 0x8001 fB)
    ∧ reads [BitVec.ofNat 32 (0x0D * 2 ^ 2 + 33 * 2 ^ 10 + 1 * 2 ^ 16 + 0x4001 * 2 ^ 17)] (.kbra 0x4001 true 33)
    ∧ reads [BitVec.ofNat 32 (0x0E * 2 ^ 2 + 7 * 2 ^ 10 + 2 * 2 ^ 14 + 1 * 2 ^ 16)] (.role true 2 7)
    ∧ reads [vw 0x0F 0 0 0 70] (.tsync (v3 0 0 70)) := by decide

theorem test_decode_integers :
    reads [vw 0x10 0 1 0 3] (.mov (v3 1 0 3))
    ∧ reads [vw 0x11 1 1 0 0, 0x89ABCDEF#32, 0x01234567#32] (.movl ⟨1, 0, 0, false, fL 0x0123456789ABCDEF#64⟩)
    ∧ reads [vw 0x12 0 100 2 64] (.add (v3 100 2 64))
    ∧ reads [vw 0x13 1 1 2 0, 0xFFFFFFFE#32, 0xFFFFFFFF#32] (.sub ⟨1, 2, 0, false, fL 0xFFFFFFFFFFFFFFFE#64⟩)
    ∧ reads [vw 0x14 2 1 2 3, cw 0, BitVec.ofNat 32 (4 * 2 ^ 4 + 5)] (.addc (v3g 1 2 3 0) ⟨false, 4, 5⟩)
    ∧ reads [vw 0x15 2 1 2 3, cw 0, BitVec.ofNat 32 (1 * 2 ^ 8 + 4 * 2 ^ 4)] (.subb (v3g 1 2 3 0) ⟨true, 4, 0⟩)
    ∧ reads [vw 0x16 0 1 2 3] (.mul (v3 1 2 3))
    ∧ reads [vw 0x17 0 1 2 3] (.mulhs (v3 1 2 3))
    ∧ reads [vw 0x18 0 1 2 3] (.mulhu (v3 1 2 3))
    ∧ reads [vw 0x19 2 1 2 3, cw 9, BitVec.ofNat 32 (4 * 2 ^ 4 + 5)] (.madw (v3g 1 2 3 9) ⟨false, 4, 5⟩)
    ∧ reads [vw 0x1A 0 1 2 3] (.min (v3 1 2 3))
    ∧ reads [vw 0x1B 0 1 2 3] (.max (v3 1 2 3))
    ∧ reads [vw 0x1C 0 1 2 3] (.minu (v3 1 2 3))
    ∧ reads [vw 0x1D 0 1 2 3] (.maxu (v3 1 2 3))
    ∧ reads [vw 0x1E 0 1 2 3] (.and (v3 1 2 3))
    ∧ reads [vw 0x1F 0 1 2 3] (.or (v3 1 2 3))
    ∧ reads [vw 0x20 0 1 2 3] (.xor (v3 1 2 3))
    ∧ reads [vw 0x21 0 1 2 3] (.andn (v3 1 2 3))
    ∧ reads [vw 0x22 0 1 2 3] (.shl (v3 1 2 3))
    ∧ reads [vw 0x23 0 1 2 3] (.shr (v3 1 2 3))
    ∧ reads [vw 0x24 0 1 2 3] (.sar (v3 1 2 3)) := by decide

theorem test_decode_fields :
    reads [vw 0x25 0 1 2 3] (.rotl (v3 1 2 3))
    ∧ reads [vw 0x26 2 1 2 3, cw 9, 0] (.fshl (v3g 1 2 3 9))
    ∧ reads [vw 0x27 0 1 2 0] (.popc (v3 1 2 0))
    ∧ reads [vw 0x28 0 1 2 0] (.clz (v3 1 2 0))
    ∧ reads [vw 0x29 0 1 2 0] (.brev (v3 1 2 0))
    ∧ reads [vw 0x2A 2 1 2 3, cw 0, 1] (.bfe (v3g 1 2 3 0) true)
    ∧ reads [vw 0x2B 2 1 2 3, cw 9, 0] (.bfi (v3g 1 2 3 9))
    ∧ reads [vw 0x2C 2 1 2 3, cw 0, BitVec.ofNat 32 (1 * 2 ^ 4 + 6)] (.sel (v3g 1 2 3 0) true 6)
    ∧ reads [BitVec.ofNat 32 (0x2D * 2 ^ 2 + 4 * 2 ^ 10 + 5 * 2 ^ 14 + 2 * 2 ^ 17 + 3 * 2 ^ 24)] (.cmp ⟨4, 5, 2, 3, false, fB⟩)
    ∧ reads [BitVec.ofNat 32 (0x2E * 2 ^ 2 + 4 * 2 ^ 10 + 1 * 2 ^ 14 + 2 * 2 ^ 17 + 3 * 2 ^ 24 + 2 ^ 31)]
        (.cmpu ⟨4, 1, 2, 3, true, fB⟩)
    ∧ reads [vw 0x2F 2 1 2 3, cw 0, BitVec.ofNat 32 (1 * 2 ^ 3 + 5)] (.lea (v3g 1 2 3 0) true 5)
    ∧ reads [BitVec.ofNat 32 (0x30 * 2 ^ 2 + 1 * 2 ^ 10 + 2 * 2 ^ 14 + 3 * 2 ^ 18 + 6 * 2 ^ 22)] (.plop 6 3 2 1 fB)
    ∧ reads [vw 0x31 0 1 0 0] (.ptov (v3 1 0 0))
    ∧ reads [vw 0x32 0 0 2 3] (.vtop (v3 0 2 3))
    ∧ reads [rw8 0x33 2 9 0 4, cw 0, 1] (.sread ⟨9, 0, 4, fG 0⟩ true)
    ∧ reads [vw 0x34 0 4 2 3] (.rng (v3 4 2 3))
    ∧ reads [vw 0x35 0 4 0 0] (.cyc (v3 4 0 0))
    ∧ reads [vw 0x36 0 1 2 3] (.divu (v3 1 2 3))
    ∧ reads [vw 0x37 0 1 2 3] (.remu (v3 1 2 3)) := by decide

theorem test_decode_float :
    reads [vw 0x38 0 1 2 3] (.fadd (v3 1 2 3))
    ∧ reads [vw 0x39 0 1 2 3] (.fsub (v3 1 2 3))
    ∧ reads [vw 0x3A 0 1 2 3] (.fmul (v3 1 2 3))
    ∧ reads [vw 0x3B 2 1 2 3, cw 9, 0] (.ffma (v3g 1 2 3 9))
    ∧ reads [vw 0x3C 0 1 2 3] (.fmin (v3 1 2 3))
    ∧ reads [vw 0x3D 0 1 2 3] (.fmax (v3 1 2 3))
    ∧ reads [BitVec.ofNat 32 (0x3E * 2 ^ 2 + 4 * 2 ^ 10 + 7 * 2 ^ 14 + 2 * 2 ^ 17 + 3 * 2 ^ 24)] (.fcmp ⟨4, 7, 2, 3, false, fB⟩)
    ∧ reads [vw 0x3F 0 1 2 0] (.frnd (v3 1 2 0))
    ∧ reads [rw8 0x40 0 0x12 2 1] (.fcvt ⟨0x12, 2, 1, fB⟩)
    ∧ reads [rw8 0x41 0 6 2 1] (.fsf ⟨6, 2, 1, fB⟩)
    ∧ reads [vw 0x42 0 1 2 0] (.fclass (v3 1 2 0))
    ∧ reads [vw 0x43 2 1 2 3, cw 0, 1] (.hadd2 (v3g 1 2 3 0) true)
    ∧ reads [vw 0x44 0 1 2 3] (.hmul2 (v3 1 2 3) false)
    ∧ reads [vw 0x45 2 1 2 3, cw 9, 1] (.hfma2 (v3g 1 2 3 9) true)
    ∧ reads [vw 0x46 0 1 2 3] (.hmax2 (v3 1 2 3) false)
    ∧ reads [vw 0x47 2 1 2 3, cw 0, 1] (.hmin2 (v3g 1 2 3 0) true)
    ∧ reads [vw 0x48 0 1 2 3] (.pack2 (v3 1 2 3) false)
    ∧ reads [rw8 0x49 0 3 2 1] (.unpk2 ⟨3, 2, 1, fB⟩)
    ∧ reads [vw 0x4A 1 4 2 0, 0x00000000#32, 0x3FF00000#32] (.dadd ⟨4, 2, 0, false, fL 0x3FF0000000000000#64⟩)
    ∧ reads [vw 0x4B 0 4 2 6] (.dmul (v3 4 2 6))
    ∧ reads [vw 0x4C 2 4 2 6, cw 8, 0] (.dfma (v3g 4 2 6 8))
    ∧ reads [rw8 0x4D 0 0x80 2 4] (.dcvt ⟨0x80, 2, 4, fB⟩)
    ∧ reads [vw 0x4E 0 1 2 3] (.fscl (v3 1 2 3))
    ∧ reads [vw 0x4F 0 1 2 3] (.fdiv (v3 1 2 3)) := by decide

/-- Every field of word 1 (R74), on an FFMA; A and C as k registers. -/
theorem test_decode_word1 :
    reads [vw 0x3B 2 1 2 3, BitVec.ofNat 32 (17 * 2 ^ 26 + 2 * 2 ^ 24 + 5 * 2 ^ 21 + 2 ^ 19 + 2 ^ 17 + 2 ^ 15 + 2 ^ 14 + 2 ^ 13
        + 9 * 2 ^ 6 + 2 ^ 5 + 3), 0]
      (.ffma ⟨1, 2, 3, false, ⟨.ext ⟨17, 2, 5, false, true, false, true, false, true, true, true, 9, true, false, 3⟩, none⟩⟩)
    ∧ reads [vw 0x3B 3 1 2 0, BitVec.ofNat 32 (2 ^ 24 + 2 ^ 20 + 2 ^ 18 + 2 ^ 16 + 15), 0, 0xC0000000#32, 0]
      (.ffma ⟨1, 2, 0, false, ⟨.ext ⟨0, 1, 0, true, false, true, false, true, false, false, false, 0, false, false, 15⟩,
        some 0xC0000000#64⟩⟩) := by decide

theorem test_decode_uniform :
    reads [uw 0x56 1 9 0 2] (.kmov ⟨1, 9, 0, 2, fB⟩)
    ∧ reads [uw 0x57 1 5 6 7] (.kadd ⟨1, 5, 6, 7, fB⟩)
    ∧ reads [uw 0x58 2 5 6 7] (.kmul ⟨2, 5, 6, 7, fB⟩)
    ∧ reads [uw 0x59 7 5 6 7] (.klea ⟨7, 5, 6, 7, fB⟩)
    ∧ reads [uw 0x5A 9 5 6 7] (.kcmp ⟨9, 5, 6, 7, fB⟩)
    ∧ reads [uw 0x5B 3 63 62 61] (.klog ⟨3, 63, 62, 61, fB⟩)
    ∧ reads [uw 0x5C 6 5 6 7] (.kld ⟨6, 5, 6, 7, fB⟩)
    ∧ reads [uw 0x5D 1 5 6 7] (.ksel ⟨1, 5, 6, 7, fB⟩)
    ∧ reads [uw 0x5E 3 5 6 7] (.kst ⟨3, 5, 6, 7, fB⟩) := by decide

theorem test_decode_team :
    reads [vw 0x50 2 1 2 3, cw 9, BitVec.ofNat 32 (2 ^ 5 + 2)] (.tshfl (v3g 1 2 3 9) false true 2)
    ∧ reads [vw 0x51 2 1 0 0, cw 9, BitVec.ofNat 32 (2 ^ 8 + 6 * 2 ^ 4 + 2)] (.tvote (v3g 1 0 0 9) false true 6 2)
    ∧ reads [vw 0x52 2 1 2 0, cw 0, BitVec.ofNat 32 (2 ^ 31 + 2 ^ 5 + 7)] (.tred (v3g 1 2 0 0) ⟨true, true, false, 7⟩)
    ∧ reads [vw 0x53 2 1 2 0, cw 9, BitVec.ofNat 32 (5 * 2 ^ 6 + 2 ^ 5 + 2 ^ 4)] (.rdfl (v3g 1 2 0 9) false 5 true true)
    ∧ reads [vw 0x54 2 1 2 0, cw 9, 2] (.tcoll (v3g 1 2 0 9) false 2)
    ∧ reads [vw 0x55 2 1 2 0, cw 9, BitVec.ofNat 32 (2 ^ 4 + 10)] (.tscan (v3g 1 2 0 9) ⟨false, false, true, 10⟩)
    ∧ reads [vw 0x5F 2 1 2 0, cw 0, BitVec.ofNat 32 (2 ^ 31 + 2 ^ 5)] (.tmatch (v3g 1 2 0 0) true true) := by decide

/-- Word 2 of a memory instruction (R198). -/
def mw (pd ret op sem scope tag sc ix sx sz : Nat) : Word :=
  BitVec.ofNat 32 (pd * 2 ^ 23 + ret * 2 ^ 22 + op * 2 ^ 18 + sem * 2 ^ 16 + scope * 2 ^ 13 + tag * 2 ^ 9 + sc * 2 ^ 6
    + ix * 2 ^ 4 + sx * 2 ^ 3 + sz)

theorem test_decode_memory :
    reads [rw8 0x60 2 0xF8 2 1, cw 9, mw 0 0 0 0 0 5 3 2 1 1]
      (.ld ⟨0xF8, 2, 1, fG 9, ⟨0, false, 0, 0, 0, 5, 3, 2, true, 1⟩⟩)
    ∧ reads [rw8 0x61 2 1 2 4, cw 0, mw 0 0 0 0 0 0 0 0 0 4] (.st ⟨1, 2, 4, fG 0, ⟨0, false, 0, 0, 0, 0, 0, 0, false, 4⟩⟩)
    ∧ reads [rw8 0x62 2 1 2 4, cw 0, mw 0 1 8 3 5 0 0 0 0 3] (.atom ⟨1, 2, 4, fG 0, ⟨0, true, 8, 3, 5, 0, 0, 0, false, 3⟩⟩)
    ∧ reads [rw8 0x63 2 1 2 4, cw 0, mw 9 0 0 2 4 0 0 0 0 2] (.acas ⟨1, 2, 4, fG 0, ⟨9, false, 0, 2, 4, 0, 0, 0, false, 2⟩⟩)
    ∧ reads [rw8 0x64 2 1 2 4, cw 0, mw 0 0 8 2 1 0 0 0 0 0]
      (.accadd ⟨1, 2, 4, fG 0, ⟨0, false, 8, 2, 1, 0, 0, 0, false, 0⟩⟩)
    ∧ reads [rw8 0x65 2 1 2 4, cw 0, mw 0 0 7 1 2 0 0 0 0 0] (.accrd ⟨1, 2, 4, fG 0, ⟨0, false, 7, 1, 2, 0, 0, 0, false, 0⟩⟩)
    ∧ reads [rw8 0x66 2 1 2 0, cw 0, mw 0 0 0 2 3 0 0 0 0 0]
      (.accclr ⟨1, 2, 0, fG 0, ⟨0, false, 0, 2, 3, 0, 0, 0, false, 0⟩⟩)
    ∧ reads [BitVec.ofNat 32 (0x67 * 2 ^ 2 + 0x55 * 2 ^ 10 + 4 * 2 ^ 17 + 2 * 2 ^ 20)] (.fence 2 4 0x55 fB)
    ∧ reads [rw8 0x68 3 0 2 0, cw 0, mw 0 0 0 0 0 0 0 0 0 0, 0x00000100#32, 0x00000001#32]
      (.pref ⟨0, 2, 0, ⟨(fG 0).mods, some 0x0000000100000100#64⟩, ⟨0, false, 0, 0, 0, 0, 0, 0, false, 0⟩⟩)
    ∧ reads [rw8 0x69 2 1 2 4, cw 0, mw 0 0 0 0 5 0 0 0 0 3] (.lda ⟨1, 2, 4, fG 0, ⟨0, false, 0, 0, 5, 0, 0, 0, false, 3⟩⟩)
    ∧ reads [rw8 0x6A 2 1 2 4, cw 9, mw 0 0 0 0 4 0 2 1 0 0] (.str ⟨1, 2, 4, fG 9, ⟨0, false, 0, 0, 4, 0, 2, 1, false, 0⟩⟩)
    ∧ reads [rw8 0x6B 2 1 2 4, cw 0, mw 0 0 0 0 0 0 0 0 0 0]
      (.wsqry ⟨1, 2, 4, fG 0, ⟨0, false, 0, 0, 0, 0, 0, 0, false, 0⟩⟩)
    ∧ reads [rw8 0x6C 2 1 2 0, cw 0, mw 0 0 0 0 4 0 0 0 0 2] (.cinv ⟨1, 2, 0, fG 0, ⟨0, false, 0, 0, 4, 0, 0, 0, false, 2⟩⟩)
    ∧ reads [rw8 0x6D 2 1 2 0, cw 0, mw 0 0 0 0 0 0 0 0 0 2] (.cwb ⟨1, 2, 0, fG 0, ⟨0, false, 0, 0, 0, 0, 0, 0, false, 2⟩⟩)
    ∧ reads [rw8 0x6E 2 1 2 0, cw 0, mw 0 0 0 0 0 0 0 0 0 1]
      (.zfill ⟨1, 2, 0, fG 0, ⟨0, false, 0, 0, 0, 0, 0, 0, false, 1⟩⟩) := by decide

theorem test_decode_async :
    reads [BitVec.ofNat 32 (0x70 * 2 ^ 2 + 9 * 2 ^ 10 + 1 * 2 ^ 14)] (.bar 1 9 fB)
    ∧ reads [BitVec.ofNat 32 (0x71 * 2 ^ 2 + 3 * 2 ^ 10 + 5 * 2 ^ 14)] (.bara 5 3 fB)
    ∧ reads [BitVec.ofNat 32 (0x72 * 2 ^ 2 + 2 * 2 ^ 10 + 4 * 2 ^ 14)] (.barw 4 2 fB)
    ∧ reads [vw 0x73 0 63 2 3] (.tarm (v3 63 2 3))
    ∧ reads [BitVec.ofNat 32 (0x74 * 2 ^ 2 + 33 * 2 ^ 10 + 2 ^ 16 + 2 ^ 17)] (.twait true true 33 fB)
    ∧ reads [vw 0x75 2 3 2 0, cw 0, 5] (.tcopy (v3g 3 2 0 0) 5)
    ∧ reads [zw 0x76 0 33] (.tdone 33 fB)
    ∧ reads [zw 0x77 0 0x21] (.qfence 0x21 fB)
    ∧ reads [vw 0x78 0 0 2 3] (.tidset (v3 0 2 3))
    ∧ reads [vw 0x79 0 0 2 3] (.tidget (v3 0 2 3))
    ∧ reads [vw 0x7A 0 0 2 0] (.xltld (v3 0 2 0))
    ∧ reads [rw8 0x7B 2 63 0 5, cw 0, 1] (.tstat ⟨63, 0, 5, fG 0⟩ true)
    ∧ reads [BitVec.ofNat 32 (0x7C * 2 ^ 2 + 5 * 2 ^ 10 + 0xA5 * 2 ^ 13)] (.qwait 0xA5 5 fB)
    ∧ reads [vw 0x7D 0 3 2 0] (.tcopyg (v3 3 2 0) 0)
    ∧ reads [vw 0x7E 0 0 2 0] (.coll (v3 0 2 0))
    ∧ reads [vw 0x7F 0 0 2 0] (.collw (v3 0 2 0)) := by decide

theorem test_decode_matrix :
    reads [rw8 0x80 2 0x83 0 5, cw 0, BitVec.ofNat 32 (2 ^ 4 + 6)] (.oclaim ⟨0x83, 0, 5, fG 0⟩ true 6)
    ∧ reads [rw8 0x81 0 3 2 0] (.orel ⟨3, 2, 0, fB⟩)
    ∧ reads [vw 0x82 0 0 2 0] (.mma (v3 0 2 0))
    ∧ reads [BitVec.ofNat 32 (0x83 * 2 ^ 2 + 2 * 2 ^ 17 + 3 * 2 ^ 24 + 2 ^ 31)] (.mmas ⟨0, 2, 3, true, fB⟩)
    ∧ reads [zw 0x84 0 7] (.accz 7 fB)
    ∧ reads [rw8 0x85 0 63 2 7] (.accld ⟨63, 2, 7, fB⟩)
    ∧ reads [rw8 0x86 0 63 2 7] (.accst ⟨63, 2, 7, fB⟩)
    ∧ reads [zw 0x87 0 0] (.mwait fB)
    ∧ reads [vw 0x88 2 1 2 0, cw 9, 2] (.spcomp (v3g 1 2 0 9) 2)
    ∧ reads [vw 0x89 0 0 2 3] (.cbset (v3 0 2 3))
    ∧ reads [vw 0x8A 0 1 0 0] (.mstat (v3 1 0 0))
    ∧ reads [vw 0x8B 2 5 6 0, BitVec.ofNat 32 (2 ^ 14 + 15), BitVec.ofNat 32 (256 * 2 ^ 16 + 0xBEEF)]
      (.mscl ⟨5, 6, 0, false, ⟨.ext { w1 0 with ak := true }, none⟩⟩ 256 0xBEEF)
    ∧ reads [rw8 0x8C 2 63 2 7, cw 0, BitVec.ofNat 32 (2 ^ 4 + 5)] (.acccvt ⟨63, 2, 7, fG 0⟩ true 5)
    ∧ reads [vw 0x8D 0 1 0 0] (.oqry (v3 1 0 0)) := by decide

/-- Word 2 of a graph or cursor instruction (R342). -/
def gw (op idx fall mig dirn pd : Nat) : Word :=
  BitVec.ofNat 32 (op * 2 ^ 12 + idx * 2 ^ 8 + fall * 2 ^ 7 + mig * 2 ^ 6 + dirn * 2 ^ 4 + pd)

theorem test_decode_graph :
    reads [vw 0x90 2 0 2 0, cw 0, gw 0 0 1 1 0 5] (.vins ⟨v3g 0 2 0 0, ⟨0, 0, true, true, 0, 5⟩⟩)
    ∧ reads [vw 0x91 2 0 2 0, cw 0, gw 0 0 0 1 0 5] (.vdel ⟨v3g 0 2 0 0, ⟨0, 0, false, true, 0, 5⟩⟩)
    ∧ reads [vw 0x92 2 4 2 0, cw 0, gw 0 9 0 0 0 5] (.vget ⟨v3g 4 2 0 0, ⟨0, 9, false, false, 0, 5⟩⟩)
    ∧ reads [vw 0x93 2 0 2 3, cw 0, gw 0 9 0 0 0 5] (.vset ⟨v3g 0 2 3 0, ⟨0, 9, false, false, 0, 5⟩⟩)
    ∧ reads [vw 0x94 2 4 2 0, cw 0, gw 0 0 0 0 1 5] (.deg ⟨v3g 4 2 0 0, ⟨0, 0, false, false, 1, 5⟩⟩)
    ∧ reads [vw 0x95 2 4 2 6, cw 0, gw 0 0 1 1 0 5] (.eins ⟨v3g 4 2 6 0, ⟨0, 0, true, true, 0, 5⟩⟩)
    ∧ reads [vw 0x96 2 0 2 6, cw 0, gw 0 0 0 0 1 5] (.edel ⟨v3g 0 2 6 0, ⟨0, 0, false, false, 1, 5⟩⟩)
    ∧ reads [vw 0x97 2 4 2 6, cw 0, gw 0 0 0 0 1 5] (.eget ⟨v3g 4 2 6 0, ⟨0, 0, false, false, 1, 5⟩⟩)
    ∧ reads [vw 0x98 2 4 2 6, cw 0, gw 0 9 0 0 1 5] (.epget ⟨v3g 4 2 6 0, ⟨0, 9, false, false, 1, 5⟩⟩)
    ∧ reads [vw 0x99 2 0 2 6, cw 8, gw 0 9 0 0 1 5] (.epset ⟨v3g 0 2 6 8, ⟨0, 9, false, false, 1, 5⟩⟩)
    ∧ reads [vw 0x9A 2 4 2 6, cw 0, gw 0 0 0 1 1 5] (.efind ⟨v3g 4 2 6 0, ⟨0, 0, false, true, 1, 5⟩⟩)
    ∧ reads [vw 0xA3 2 4 2 0, cw 0, gw 0 0 0 0 0 0] (.ghome ⟨v3g 4 2 0 0, ⟨0, 0, false, false, 0, 0⟩⟩)
    ∧ reads [vw 0xA4 2 0 2 6, cw 0, gw 8 9 0 0 0 5] (.vatom ⟨v3g 0 2 6 0, ⟨8, 9, false, false, 0, 5⟩⟩)
    ∧ reads [vw 0xA5 2 4 2 0, cw 0, gw 0 0 0 0 0 0] (.gstat ⟨v3g 4 2 0 0, ⟨0, 0, false, false, 0, 0⟩⟩) := by decide

theorem test_decode_cursors :
    reads [vw 0x9B 2 7 2 6, cw 0, gw 0 1 0 0 1 5] (.copen ⟨v3g 7 2 6 0, ⟨0, 1, false, false, 1, 5⟩⟩)
    ∧ reads [vw 0x9C 2 4 7 0, cw 0, gw 0 0 0 1 0 5] (.cnext ⟨v3g 4 7 0 0, ⟨0, 0, false, true, 0, 5⟩⟩)
    ∧ reads [vw 0x9D 2 4 7 0, cw 0, gw 0 0 1 1 0 5] (.cpeek ⟨v3g 4 7 0 0, ⟨0, 0, true, true, 0, 5⟩⟩)
    ∧ reads [vw 0x9E 2 7 0 0, cw 0, gw 0 0 0 0 0 0] (.cclose ⟨v3g 7 0 0 0, ⟨0, 0, false, false, 0, 0⟩⟩)
    ∧ reads [vw 0x9F 2 7 2 0, cw 0, gw 0 0 0 0 0 0] (.csave ⟨v3g 7 2 0 0, ⟨0, 0, false, false, 0, 0⟩⟩)
    ∧ reads [vw 0xA0 2 7 2 0, cw 0, gw 0 0 0 0 0 0] (.crest ⟨v3g 7 2 0 0, ⟨0, 0, false, false, 0, 0⟩⟩)
    ∧ reads [vw 0xA1 2 4 6 7, cw 8, gw 0 3 0 0 0 0] (.sinter ⟨v3g 4 6 7 8, ⟨0, 3, false, false, 0, 0⟩⟩)
    ∧ reads [vw 0xA2 2 4 6 7, cw 0, gw 0 2 1 1 0 0] (.sdiff ⟨v3g 4 6 7 0, ⟨0, 2, true, true, 0, 0⟩⟩)
    ∧ reads [vw 0xA6 2 4 7 0, cw 0, gw 0 0 0 0 0 5] (.crank ⟨v3g 4 7 0 0, ⟨0, 0, false, false, 0, 5⟩⟩) := by decide

theorem test_decode_system :
    reads [BitVec.ofNat 32 (0xB0 * 2 ^ 2 + 8 * 2 ^ 10 + 33 * 2 ^ 14 + 24 * 2 ^ 20 + 65 * 2 ^ 25)] (.carry 65 24 33 8 fB)
    ∧ reads [vw 0xB1 2 0 2 0, cw 0, BitVec.ofNat 32 (2 ^ 8 + 2 ^ 7 + 5)] (.go (v3g 0 2 0 0) true true 5)
    ∧ reads [zw 0xB2 0 0] (.home fB)
    ∧ reads [vw 0xB3 0 4 0 0] (.whereAt (v3 4 0 0))
    ∧ reads [BitVec.ofNat 32 (0xB4 * 2 ^ 2 + 65 * 2 ^ 10 + 0x123 * 2 ^ 17)] (.csrr 0x123 65 fB)
    ∧ reads [BitVec.ofNat 32 (0xB5 * 2 ^ 2 + 33 * 2 ^ 10 + 0x123 * 2 ^ 17 + 2 ^ 29)] (.csrw true 0x123 33 fB)
    ∧ reads [zw 0xB6 0 0] .eret
    ∧ reads [rw8 0xB7 0 3 4 0] (.sysc ⟨3, 4, 0, fB⟩)
    ∧ reads [rw8 0xB8 0 1 4 0] (.tlbi ⟨1, 4, 0, fB⟩)
    ∧ reads [BitVec.ofNat 32 (0xB9 * 2 ^ 2 + 5 * 2 ^ 10)] (.detchk false 5 fB)
    ∧ reads [rw8 0xBA 0 7 0 4] (.frec ⟨7, 0, 4, fB⟩)
    ∧ reads [vw 0xBB 0 4 0 0] (.space (v3 4 0 0))
    ∧ reads [zw 0x6F 0 1] (.reservedOpcode (zw 0x6F 0 1)) := by decide

/-! ## Ill-formed terms: one for each check (R71, R72, R75, R76, R84 to R87) -/

/-- ADDC has no base form. -/
theorem test_illformed_length : (Instr.addc (v3 1 2 3) ⟨false, 4, 5⟩).wf = false := by decide
/-- A negated guard that names no predicate. -/
theorem test_illformed_guard : (Instr.bra 1 ⟨.ext { w1 0 with gn := true }, none⟩).wf = false := by decide
/-- ROTL honours no RM. -/
theorem test_illformed_modifier : (Instr.rotl ⟨1, 2, 3, false, ⟨.ext { w1 0 with rm := 1 }, none⟩⟩).wf = false := by decide
/-- k64 does not exist. -/
theorem test_illformed_k_select : (Instr.add ⟨1, 2, 64, true, fB⟩).wf = false := by decide
/-- The high word of a 32-bit literal is no extension of its low word. -/
theorem test_illformed_literal : (Instr.add ⟨1, 2, 0, false, fL 0x100000000#64⟩).wf = false := by decide
/-- A literal takes the place of B, whose field is then zero. -/
theorem test_illformed_literal_b : (Instr.add ⟨1, 2, 3, false, fL 7⟩).wf = false := by decide
/-- MOV does not use A. -/
theorem test_illformed_unused_field : (Instr.mov (v3 1 2 3)).wf = false := by decide
/-- CMP has six conditions. -/
theorem test_illformed_code : (Instr.cmp ⟨4, 6, 2, 3, false, fB⟩).wf = false := by decide
/-- A prefixed form stands only inside `pfx`. -/
theorem test_illformed_prefixed : (Instr.add ⟨1, 2, 3, false, ⟨.pfx ⟨false, 0, 0, false, false, 15⟩, none⟩⟩).wf = false := by
  decide
/-- A PFX takes a literal only from an eligible successor of LEN 0x1. -/
theorem test_illformed_pfx_literal : (Instr.pfx ⟨false, 0, 0, false, false, 15⟩ (vw 0x12 0 1 2 3) (some 7)).wf = false := by
  decide
/-- NOP's opcode is assigned. -/
theorem test_illformed_reserved : (Instr.reservedOpcode 0).wf = false := by decide
/-- A set bit that no field assigns: NOP with bit 10. -/
theorem test_illformed_bits : decode [zw 0x00 0 1] = .error .reservedBits := by decide
/-- A PFX before BRA is refused as 0x06 when the pair runs. -/
theorem test_illformed_pair : prefixedInstr ⟨false, 0, 0, false, false, 15⟩ (zw 0x02 0 1) none = none := by decide

/-! ## Results of the manual's worked examples, one instruction each -/

/-- Registers v2 and v3 hold these words; v0, v1 and the rest zero. -/
def tw2 (a b : Word) : Thread := { t0 with v := (t0.v.set 2 a).set 3 b }
/-- Does v1 hold `x` after the instruction? -/
def gives (i : Instr) (t : Thread) (x : Word) : Bool :=
  match exec i (lone t w0) with
  | .next s => (s.thread t.key).any (fun u => u.v[1] == x)
  | _ => false
/-- Word 1 with a rounding mode and a clamp. -/
def fRC (rm : BitVec 3) (c : BitVec 2) : Form := ⟨.ext { w1 0 with rm := rm, clamp := c }, none⟩

theorem test_add_wraps : gives (.add (v3 1 2 3)) (tw2 0xFFFFFFFF 2) 1 := by decide
theorem test_add_saturates : gives (.add ⟨1, 2, 3, false, fRC 0 3⟩) (tw2 0x7FFFFFFF 1) 0x7FFFFFFF := by decide
/-- R163: SHL reads six bits of its count, ROTL five. -/
theorem test_shl_count : gives (.shl (v3 1 2 3)) (tw2 1 33) 0 := by decide
theorem test_rotl_count : gives (.rotl (v3 1 2 3)) (tw2 1 33) 2 := by decide
theorem test_fcvt_e4m3_nearer : gives (.fcvt ⟨0x30, 2, 1, fB⟩) (tw2 0x43E60000 0) 0x7E := by decide
theorem test_fcvt_e4m3_overflow : gives (.fcvt ⟨0x30, 2, 1, fB⟩) (tw2 0x43EB0000 0) 0x7F := by decide
/-- R151's bounds: 2 ulp about 2^1 for `.ex2`, and 2^−21 about sin 3 = 0.14112 for `.sin`. -/
theorem test_fsf_ex2_bound : fsfAllowed 2 false 1 1 0x40000002 = true ∧ fsfAllowed 2 false 1 1 0x40000003 = false := by decide
theorem test_fsf_sin_bound : fsfAllowed 4 false 3 1 0x3E1081C3 = true ∧ fsfAllowed 4 false 3 1 0x3E108200 = false := by decide
theorem test_fmul_overflow : gives (.fmul (v3 1 2 3)) (tw2 0x7F000000 0x40000000) 0x7F800000 := by decide
theorem test_fmul_saturates : gives (.fmul ⟨1, 2, 3, false, fRC 0 3⟩) (tw2 0x7F000000 0x40000000) 0x7F7FFFFF := by decide
theorem test_fadd_clamp01_nan : gives (.fadd ⟨1, 2, 3, false, fRC 0 1⟩) (tw2 0x7F800000 0xFF800000) 0 := by decide
/-- −0.25 rounds to −0 in RNE and to −1 in RDN. -/
theorem test_frnd_rne : gives (.frnd (v3 1 2 0)) (tw2 0xBE800000 0) 0x80000000 := by decide
theorem test_frnd_rdn : gives (.frnd ⟨1, 2, 0, false, fRC 2 0⟩) (tw2 0xBE800000 0) 0xBF800000 := by decide
/-- The third row of the 64 by 64 product: all ones times all ones plus 0xFFFFFFFE, low word in v0, high in v1. -/
theorem test_madw_high : gives (.madw ⟨0, 2, 3, false, fX 4⟩ ⟨true, 15, 0⟩)
    { tw2 0xFFFFFFFF 0xFFFFFFFF with v := (tw2 0xFFFFFFFF 0xFFFFFFFF).v.set 4 0xFFFFFFFE } 0xFFFFFFFE := by decide

/-- R40: a guarded BRA parts its group, also where its target is the next instruction; NOP does not. -/
def twoP : State := { two with threads := [{ tn with p := 4 }, { tn' with p := 0 }] }
def groupsAfter (i : Instr) (s : State) : List (List Key) :=
  match exec i s with | .next x => x.groups.map (fun g : Group => g.threads) | _ => []
theorem test_bra_parts : groupsAfter (.bra 2 (fG 0)) twoP = [[tn.key], [tn'.key]] := by decide +kernel
theorem test_nop_together : groupsAfter .nop twoP = [[tn.key, tn'.key]] := by decide +kernel

end Sys2Proof.Tests
end

section
/-! SUPPORT. Accesses that stay in one plain block, the event log, and the host's side of the package (R389, R401, R421 to R428,
R440): what each shared operation does, and from it the statement about host accesses and links. -/

namespace Sys2Proof.Machine

open Certificates

/-! ## Writes that stay in one plain block -/

/-- Bytes have been stored in a plain frame, and hold good data (R195). -/
def State.putBytes (s : State) (pa : Nat) (d : List Byte) : State :=
  { s with mem := memSetN s.mem pa d, poison := s.poison.filter (fun a => a < pa || pa + d.length ≤ a) }

theorem blockPieces_one {pa : Nat} {b : List Byte} (hb : b ≠ []) (hn : pa % 1024 + b.length ≤ 1024) :
    blockPieces (b.length + 1) pa b = [(pa, b)] := by
  have hmin : min b.length (1024 - pa % 1024) = b.length := by omega
  have hnil : ∀ n a, blockPieces n a [] = [] := fun n a => by cases n <;> rfl
  simp [blockPieces, hb, hmin, hnil]

theorem State.physWrite_store_plain (s : State) (vf : Nat) {pa : Nat} (d : List Byte) (now : Bool) (hp : s.isCmp pa = false) :
    s.physWrite vf pa (.store d) now = .done (s.putBytes pa d) (memGetN s.mem pa d.length) := by
  simp [State.physWrite, MemOp.isRaw, State.plainWrite, State.badFor, MemOp.consumes, MemOp.apply, State.healOp, MemOp.covers,
    MemOp.len, State.heal, State.putBytes, hp]

theorem State.quietStore_plain (s : State) (vf : Nat) {pa : Nat} {d : List Byte} (hp : s.isCmp pa = false) (hd : d ≠ [])
    (hn : pa % 1024 + d.length ≤ 1024) : s.quietStore vf pa d = s.putBytes pa d := by
  simp [State.quietStore, blockPieces_one hd hn, State.devPiece, hp, State.physWrite_store_plain s _ d _ hp]

/-- A host's write is logged for migration only while MIGOK is set (R416). -/
theorem State.logHost_off {s : State} {vf : Nat} (h : (s.vf vf).migok = false) (pa : Nat) (b : List Byte) :
    s.logHost vf pa b = s := by
  unfold State.logHost
  generalize hostEntries _ pa b = l
  induction l with
  | nil => rfl
  | cons x l ih => simpa [State.logAppend, h] using ih

theorem State.agentWrite_host_plain {s : State} {vf pa : Nat} {d : List Byte} (hp : s.isCmp pa = false) (hd : d ≠ [])
    (hn : pa % 1024 + d.length ≤ 1024) (hm : (s.vf vf).migok = false) :
    s.agentWrite vf (.host vf) pa d = s.bumpId.putBytes pa d := by
  have hp' : s.bumpId.isCmp pa = false := hp
  have hm' : ((s.bumpId.putBytes pa d).vf vf).migok = false := hm
  simp [State.agentWrite, blockPieces_one hd hn, State.blockWrite, State.attempt, State.newHeld, hp',
    State.physWrite_store_plain s.bumpId _ d _ hp', State.heldDone, State.logHost_off hm']

/-! ## Reads of one plain block -/

theorem memGetN_eq_map_range (m : Memory) (a n : Nat) : memGetN m a n = (List.range n).map (fun i => memGet m (a + i)) := by
  induction n generalizing a with
  | zero => rfl
  | succ n ih => simp [memGetN, ih, List.range_succ_eq_map, Nat.add_comm 1, Nat.add_assoc]

/-- Bytes put in a canonical memory are stored there, and nothing else of it changes. -/
theorem State.stored_putBytes {s : State} (hw : s.mem.wf = true) (pa : Nat) (d : List Byte) :
    Stored s (s.putBytes pa d) pa d where
  bytes i hi := by
    have h := congrArg (fun l => l.getD i 0) (memGetN_memSetN_same hw pa d)
    simpa [State.putBytes, memGetN_eq_map_range, List.getD_eq_getElem?_getD, hi] using h
  rest _ ha := memGet_memSetN_other ha

/-- What has been stored is a matter of main memory alone. -/
theorem stored_of_mem {s s' x x' : State} {pa : Nat} {b : List Byte} (h : Stored s s' pa b) (hx : x.mem = s.mem)
    (hx' : x'.mem = s'.mem) : Stored x x' pa b where
  bytes i hi := by rw [hx']; exact h.bytes i hi
  rest a ha := by rw [hx, hx']; exact h.rest a ha

theorem State.poisonAt_eq_false {s : State} {pa n : Nat} (h : ∀ a ∈ s.poison, a < pa ∨ pa + n ≤ a) : s.poisonAt pa n = false := by
  simp only [State.poisonAt, List.any_eq_false, Bool.and_eq_true, decide_eq_true_eq]
  intro a ha
  have := h a ha
  omega

/-- Good data of a plain frame reads as its bytes. -/
theorem State.physRead_plain {s : State} {pa n : Nat} (hp : s.isCmp pa = false) (hn : pa % 1024 + n ≤ 1024)
    (hg : ∀ a ∈ s.poison, a < pa ∨ pa + n ≤ a) :
    s.physRead pa n = some ((List.range n).map (fun i => memGet s.mem (pa + i))) := by
  have hf : pa % 65536 + n ≤ 65536 := by omega
  simp [State.physRead, hf, State.physPiece, State.poisonAt_eq_false hg, hp, memGetN_eq_map_range]

theorem State.frameOf_frameBase (s : State) (pa : Nat) : s.frameOf (pa / 65536 * 65536) = s.frameOf pa := by
  simp [State.frameOf]

theorem State.isCmp_of_frameOf {s : State} {pa : Nat} {r : FrameRun} (h : s.frameOf pa = some r) : s.isCmp pa = r.cmp := by
  simp [State.isCmp, h]

/-- A range of one block is backed for a hedge when its frame is (R414). -/
theorem State.backed_one {s : State} {vf pa n : Nat} {r : FrameRun} (h : s.frameOf pa = some r) (h0 : 0 < n)
    (hn : pa % 1024 + n ≤ 1024) (ht : pa + n ≤ 2 ^ 41) : s.backed vf pa n = (r.vf == vf) := by
  have hq : (pa % 65536 + n + 65535) / 65536 = 1 := by omega
  have hfit : decide (pa + n ≤ 2 ^ 41) = true := decide_eq_true ht
  simp only [State.backed, hfit, hq, List.range_one, List.all_cons, List.all_nil, Nat.mul_zero, Nat.add_zero, Bool.true_and,
    Bool.and_true, State.frameOf_frameBase, h, Option.any_some]

/-! ## The event log (R440) -/

theorem Mgmt.room_iff {m : Mgmt} : m.room = true ↔ LogRoom m := by
  simp [Mgmt.room, LogRoom, and_assoc]

/-- With nothing dropped before it, an event for which there is room in a log in the package is written at once. -/
theorem State.logEvent_room {s : State} (hr : LogRoom s.mgmt) (hd : s.mgmt.dropped = 0) (hb : bit s.mgmt.mlbase 63 = false)
    (code die vf : Nat) (detail : List Nat) : s.logEvent code die vf detail = s.writeLog code die vf detail := by
  have hreach : s.logReachable = true := by unfold State.logReachable; rw [hb]; rfl
  simp [State.logEvent, State.logDropped, hreach, hd, Mgmt.room_iff.2 hr]

/-- Without room an event is counted as dropped. -/
theorem State.logEvent_full {s : State} (hr : ¬ LogRoom s.mgmt) (code die vf : Nat) (detail : List Nat) :
    s.logEvent code die vf detail = { s with mgmt := { s.mgmt with dropped := s.mgmt.dropped + 1 } } := by
  have hr' : s.mgmt.room = false := Bool.eq_false_iff.2 (fun h => hr (Mgmt.room_iff.1 h))
  simp [State.logEvent, State.logDropped, hr']

/-- The entry of an event, as it stands in the log (R440). -/
def State.eventEntry (s : State) (code die vf : Nat) (detail : List Nat) : List Byte :=
  natLe 4 s.mgmt.mlprod.toNat ++ natLe 2 code ++ natLe 1 die ++ natLe 1 vf ++ natLe 8 ((s.tickDie die).dieNow die).toNat
    ++ natLe 16 (Config.logDetail code detail).toNat

@[simp] theorem State.length_eventEntry (s : State) (code die vf : Nat) (detail : List Nat) :
    (s.eventEntry code die vf detail).length = 32 := by
  simp [State.eventEntry]

/-- The place of the next entry of the log. -/
def Mgmt.logAt (m : Mgmt) : Nat := (bits m.mlbase 51 0).toNat + 32 * (m.mlprod.toNat % 2 ^ m.mllog.toNat)

/-- What follows the write of an entry: the next one has this number, and vector 3 tells the function concerned (R422; entry 47). -/
def State.entryTold (s : State) (next : Dword) (vf : Nat) : State :=
  { s with mgmt := { s.mgmt with mlprod := next } }.msix vf 3

theorem State.entryTold_mem (s : State) (next : Dword) (vf : Nat) : (s.entryTold next vf).mem = s.mem := rfl

/-- An entry changes its bytes, the log's position, the counter of its die and what is sent, and nothing else. -/
theorem State.entryTold_putBytes (s : State) (die pa : Nat) (b : List Byte) (next : Dword) (vf : Nat) :
    let s' := ((s.tickDie die).putBytes pa b).entryTold next vf
    s' = { s with
      mgmt := { s.mgmt with mlprod := next }, out := s.out ++ [.msix vf 3]
      mem := s'.mem, poison := s'.poison, dieCyc := s'.dieCyc, freeN := s'.freeN } := rfl

theorem State.writeLog_inPackage {s : State} (hb : bit s.mgmt.mlbase 63 = false) (code die vf : Nat) (detail : List Nat) :
    s.writeLog code die vf detail
      = ((s.tickDie die).quietStore 0 s.mgmt.logAt (s.eventEntry code die vf detail)).entryTold (s.mgmt.mlprod + 1) vf := by
  unfold State.writeLog
  simp only [hb, Bool.false_eq_true, if_false]
  rfl

/-- An entry that lies in a plain frame stays within one block, since entries are aligned. -/
theorem State.writeLog_plain {s : State} (hb : bit s.mgmt.mlbase 63 = false) (ha : s.mgmt.logAt % 32 = 0)
    (hp : s.isCmp s.mgmt.logAt = false) (code die vf : Nat) (detail : List Nat) :
    s.writeLog code die vf detail
      = ((s.tickDie die).putBytes s.mgmt.logAt (s.eventEntry code die vf detail)).entryTold (s.mgmt.mlprod + 1) vf := by
  have hlen := State.length_eventEntry s code die vf detail
  rw [State.writeLog_inPackage hb, State.quietStore_plain (s.tickDie die) 0 hp (List.ne_nil_of_length_pos (by omega)) (by omega)]

theorem State.logged_logEvent (s : State) (code die vf : Nat) (detail : List Nat) :
    Logged s (s.logEvent code die vf detail) code die vf where
  entry hr hd hb ha hp hw := by
    rw [State.logEvent_room hr hd hb, State.writeLog_plain hb ha hp]
    have hst := State.stored_putBytes (s := s.tickDie die) hw s.mgmt.logAt (s.eventEntry code die vf detail)
    exact ⟨natLe 16 (Config.logDetail code detail).toNat, length_natLe _ _, stored_of_mem hst rfl (State.entryTold_mem _ _ _),
      State.entryTold_putBytes _ _ _ _ _ _⟩
  full hr := State.logEvent_full hr code die vf detail

theorem State.failStranded_of_txns_nil {s : State} (h : s.txns = []) : s.failStranded = s := by
  simp [State.failStranded, h]

/-- While no transaction is outstanding, the loss of a link does nothing more than log its event (R428). -/
theorem logged_failStranded {s s' : State} {code die vf : Nat} (h : Logged s s' code die vf) (ht : s.txns = []) :
    Logged s s'.failStranded code die vf where
  entry hr hd hb ha hp hw := by
    obtain ⟨detail, hlen, hst, heq⟩ := h.entry hr hd hb ha hp hw
    have htx : s'.txns = [] := by rw [heq]; exact ht
    rw [State.failStranded_of_txns_nil htx]
    exact ⟨detail, hlen, hst, heq⟩
  full hr := by
    have heq := h.full hr
    have htx : s'.txns = [] := by rw [heq]; exact ht
    rw [State.failStranded_of_txns_nil htx, heq]

/-! ## Host accesses (R389, R401, R421, R426) -/

theorem hostReaches_main {s : State} {pa : Nat} (h : pa < regBase) : s.hostReaches pa = s.hostFrom (homeDie pa) := by
  simp [State.hostReaches, Nat.not_le.2 h]

theorem hostReaches_register {s : State} {pa : Nat} (h : regBase ≤ pa) : s.hostReaches pa = s.hostFrom 0 := by
  simp [State.hostReaches, h]

theorem hostGet_main {s : State} {vf pa n : Nat} (h : pa < regBase) :
    s.hostGet vf pa n = if s.backed vf pa n then s.physRead pa n else none := by
  simp [State.hostGet, Nat.not_le.2 h]

/-- Main memory lies below the register pages. -/
theorem lt_regBase {pa : Nat} (h : pa < 2 ^ 41) : pa < regBase := by
  unfold regBase; omega

theorem execHostRead_closed {s : State} (h : s.hostOpen = false) (vf pa len : Nat) : execHostRead vf pa len s = .next s := by
  simp [execHostRead, h]

theorem execHostRead_done {s : State} {vf pa len : Nat} {b : List Byte} (ho : s.hostOpen = true) (hr : s.hostReaches pa = true)
    (hg : s.hostGet vf pa len = some b) : execHostRead vf pa len s = .next { s with out := s.out ++ [.readDone vf b] } := by
  simp [execHostRead, ho, hr, hg]

/-- A read of memory that no module reaches, or that is not backed for the function, gets an error completion and logs nothing. -/
theorem execHostRead_error {s : State} {vf pa len : Nat} (ho : s.hostOpen = true) (hm : pa < regBase)
    (hb : s.hostReaches pa = false ∨ s.backed vf pa len = false) : execHostRead vf pa len s = .next (s.hostError vf) := by
  rcases hb with hr | hb
  · simp [execHostRead, ho, hr, State.hostError]
  · simp [execHostRead, ho, hostGet_main hm, hb, State.hostError]

/-- So does a read of a register page that is refused. -/
theorem execHostRead_register_error {s : State} {vf pa len : Nat} (ho : s.hostOpen = true) (hr : regBase ≤ pa)
    (hg : s.hostGet vf pa len = none) : execHostRead vf pa len s = .next (s.hostError vf) := by
  simp [execHostRead, ho, hg, State.hostError, Nat.not_lt.2 hr]

theorem execHostWrite_closed {s : State} (h : s.hostOpen = false) (vf pa : Nat) (b : List Byte) :
    execHostWrite vf pa b s = .next s := by
  simp [execHostWrite, h]

/-- A write queues behind a held one of its function. -/
theorem execHostWrite_waits {s : State} {vf : Nat} (ho : s.hostOpen = true) {h : Held} (hh : h ∈ s.held)
    (hv : h.by' = .host vf) (he : h.expired = false) (pa : Nat) (b : List Byte) :
    execHostWrite vf pa b s = .next { s with hostq := s.hostq ++ [(vf, pa, b)] } := by
  have hw : s.hostWaits vf = true := by
    have hblk : s.hostBlocked vf = true := List.any_eq_true.2 ⟨h, hh, by simp [hv, he]⟩
    simp [State.hostWaits, hblk]
  simp [execHostWrite, ho, hw]

/-- With nothing held and none queued, a write is performed at once. -/
theorem execHostWrite_performs {s : State} (ho : s.hostOpen = true) (hq : s.hostq = []) (hh : s.held = []) (vf pa : Nat)
    (b : List Byte) : execHostWrite vf pa b s = .next (s.hostPerform vf pa b) := by
  simp [execHostWrite, ho, State.hostWaits, State.hostBlocked, hq, hh]

theorem hostPerform_unbacked {s : State} {vf pa : Nat} {b : List Byte} (hm : pa < regBase)
    (hb : s.backed vf pa b.length = false) : s.hostPerform vf pa b = s.hostError vf := by
  simp [State.hostPerform, hb, Nat.not_le.2 hm]

theorem hostPerform_backed {s : State} {vf pa : Nat} {b : List Byte} (hm : pa < regBase) (hr : s.hostReaches pa = true)
    (hb : s.backed vf pa b.length = true) : s.hostPerform vf pa b = s.agentWrite vf (.host vf) pa b := by
  simp [State.hostPerform, hr, hb, Nat.not_le.2 hm]

/-! ## Register pages (R401) -/

theorem regPlace_page {page off : Nat} (h : off < 65536) : regPlace (regBase + 65536 * page + off) = (page, off) := by
  simp only [regPlace, Prod.mk.injEq]
  omega

theorem pageOk_own {vf : Nat} (h : vf ≤ 64) : pageOk vf vf = true := by
  simp [pageOk, h]

/-- A virtual function does not reach the page of the physical one. -/
theorem pageOk_physical {vf : Nat} (h : 1 ≤ vf) : pageOk vf 0 = false := by
  have h0 : vf ≠ 0 := by omega
  simp [pageOk, h0]

theorem hostGet_register (s : State) (vf n : Nat) {page off : Nat} (h : off < 65536) :
    s.hostGet vf (regBase + 65536 * page + off) n = if pageOk vf page then s.regRead page off n else none := by
  have hle : regBase ≤ regBase + 65536 * page + off := by omega
  simp [State.hostGet, hle, regPlace_page h]

theorem regRead_qbase (s : State) {vf : Nat} (h : 1 ≤ vf) : s.regRead vf 0x010 8 = some (natLe 8 (s.vf vf).qbase.toNat) := by
  have h0 : (vf == 0) = false := by simp; omega
  have hrow : regRow vf 0x010 = some ⟨0x010, 8, true⟩ := by
    unfold regRow
    rw [h0]
    rfl
  have hval : s.regValue vf 0x010 = (s.vf vf).qbase := by simp [State.regValue, h0]
  simp [State.regRead, hrow, hval]

/-! ## Translations of host pages (R423) -/

/-- Is this the entry of a page of a function, and of a PASID? -/
def HostPage.isOf (x : Nat × Option Nat) (page : Nat) (h : HostPage) : Bool := h.fn == x.1 && h.pasid == x.2 && h.page == page

theorem HostPage.isOf_iff {x : Nat × Option Nat} {page : Nat} {h : HostPage} :
    h.isOf x page = true ↔ x = (h.fn, h.pasid) ∧ page = h.page := by
  obtain ⟨fn, pasid⟩ := x
  simp only [HostPage.isOf, Bool.and_eq_true, beq_iff_eq, Prod.mk.injEq]
  exact and_congr (and_congr eq_comm eq_comm) eq_comm

theorem State.hostPa_of_find {s : State} {x : Nat × Option Nat} {pa : Nat} {h : HostPage}
    (hf : s.hostMap.find? (HostPage.isOf x (pa / 4096)) = some h) : s.hostPa x pa = 4096 * h.target + pa % 4096 := by
  unfold HostPage.isOf at hf
  simp [State.hostPa, hf]

theorem State.hostPa_of_unlisted {s : State} {x : Nat × Option Nat} {pa : Nat}
    (hf : s.hostMap.find? (HostPage.isOf x (pa / 4096)) = none) : s.hostPa x pa = pa := by
  unfold HostPage.isOf at hf
  simp [State.hostPa, hf]

/-- The other entries of the list when one is given anew. -/
def State.otherPages (s : State) (p : HostPage) : List HostPage :=
  s.hostMap.filter (fun h => !(HostPage.isOf (p.fn, p.pasid) p.page h))

theorem State.mapHost_hostMap (s : State) (p : HostPage) :
    (s.mapHost p).hostMap = if p.page = p.target then s.otherPages p else p :: s.otherPages p := by
  simp [State.mapHost, State.otherPages, HostPage.isOf]

/-- What is found among the other entries: nothing for the page itself, and what was found before for every other one. -/
theorem State.otherPages_find (s : State) (p : HostPage) (x : Nat × Option Nat) (page : Nat) :
    (s.otherPages p).find? (HostPage.isOf x page)
      = if p.isOf x page then none else s.hostMap.find? (HostPage.isOf x page) := by
  rw [State.otherPages, List.find?_filter]
  split
  · next hp =>
    obtain ⟨rfl, rfl⟩ := HostPage.isOf_iff.1 hp
    simp
  · next hp =>
    congr 1
    funext h
    by_cases hh : h.isOf x page
    · have hne : HostPage.isOf (p.fn, p.pasid) p.page h = false := by
        refine Bool.eq_false_iff.2 (fun hk => hp (HostPage.isOf_iff.2 ?_))
        obtain ⟨hx, hpage⟩ := HostPage.isOf_iff.1 hh
        obtain ⟨hk, hkpage⟩ := HostPage.isOf_iff.1 hk
        exact ⟨hx.trans hk.symm, hpage.trans hkpage.symm⟩
      simp [hne]
    · simp [hh]

/-- The translation given holds for its page, and every other page keeps its own. -/
theorem State.hostPa_mapHost (s : State) (p : HostPage) (x : Nat × Option Nat) (pa : Nat) :
    (s.mapHost p).hostPa x pa
      = if x = (p.fn, p.pasid) ∧ pa / 4096 = p.page then 4096 * p.target + pa % 4096 else s.hostPa x pa := by
  have hrest := State.otherPages_find s p x (pa / 4096)
  split
  · next hx =>
    have hp : p.isOf x (pa / 4096) = true := HostPage.isOf_iff.2 hx
    by_cases hown : p.page = p.target
    · rw [State.hostPa_of_unlisted (by simp [State.mapHost_hostMap, hown, hrest, hp])]
      omega
    · exact State.hostPa_of_find (by simp [State.mapHost_hostMap, hown, hp])
  · next hx =>
    have hp : p.isOf x (pa / 4096) = false := Bool.eq_false_iff.2 (fun h => hx (HostPage.isOf_iff.1 h))
    have hsame : (s.mapHost p).hostMap.find? (HostPage.isOf x (pa / 4096)) = s.hostMap.find? (HostPage.isOf x (pa / 4096)) := by
      rw [State.mapHost_hostMap]
      split <;> simp [hp, hrest]
    cases hf : s.hostMap.find? (HostPage.isOf x (pa / 4096)) with
    | none => rw [State.hostPa_of_unlisted (hsame.trans hf), State.hostPa_of_unlisted hf]
    | some h => rw [State.hostPa_of_find (hsame.trans hf), State.hostPa_of_find hf]

/-! ## The links' events (R421, R424, R428) -/

/-- The die of a host module is the module's number (R19). -/
theorem logs_ucieModuleDown {s : State} {m : Nat} (hm : m < 2) (h : s.links.ucieUp[m]? = some true) :
    Logs (.ucieModuleDown m) s (s.moduleDown m) 0x06 m 0 := by
  have hexec : execUcieModuleDown m s = .next ((s.moduleDown m).logEvent 0x06 m 0 [2, m]) := by
    simp [execUcieModuleDown, h, Nat.mod_eq_of_lt hm]
  exact ⟨_, hexec, State.logged_logEvent _ _ _ _ _⟩

theorem execUcieModuleDown_of_down {s : State} {m : Nat} (h : s.links.ucieUp[m]? = some false) :
    execUcieModuleDown m s = .next s := by
  simp [execUcieModuleDown, h]

theorem logs_ideIntegrityFailure {s : State} {m : Nat} {key : BitVec 256} (hm : m < 2) (h : s.links.ucieUp[m]? = some true)
    (hk : s.links.ideKeys[m]? = some (some key)) : Logs (.ideIntegrityFailure m) s (s.moduleDown m) 0x07 m 0 := by
  have hexec : execIdeIntegrityFailure m s = .next ((s.moduleDown m).logEvent 0x07 m 0 [m]) := by
    simp [execIdeIntegrityFailure, h, hk, Nat.mod_eq_of_lt hm]
  exact ⟨_, hexec, State.logged_logEvent _ _ _ _ _⟩

theorem execIdeIntegrityFailure_of_unkeyed {s : State} {m : Nat} (hk : s.links.ideKeys[m]? = some none) :
    execIdeIntegrityFailure m s = .next s := by
  simp [execIdeIntegrityFailure, hk]

theorem logs_dieLinkDown {s : State} {link : Nat} (h : s.links.dieUp[link]? = some true) (ht : s.txns = []) :
    Logs (.dieLinkDown link) s { s with links := { s.links with dieUp := s.links.dieUp.set link false } } 0x06 (linkDie link) 0 := by
  have hexec : execDieLinkDown link s = .next (State.failStranded (State.logEvent
      { s with links := { s.links with dieUp := s.links.dieUp.set link false } } 0x06 (linkDie link) 0 [1, link])) := by
    simp [execDieLinkDown, h]
  exact ⟨_, hexec, logged_failStranded (State.logged_logEvent _ _ _ _ _) ht⟩

theorem execDieLinkDown_of_down {s : State} {link : Nat} (h : s.links.dieUp[link]? = some false) :
    execDieLinkDown link s = .next s := by
  simp [execDieLinkDown, h]

/-- One more flit in a row has failed its CRC at a port. -/
def State.replayed (s : State) (port n : Nat) : State :=
  { s with links := { s.links with replays := s.links.replays.set port (n + 1) } }

/-- Up to the sixteenth failure in a row the flit is replayed, and the correction logged (R428, R443; entry 41). -/
theorem logs_flitCrcFail_replay {s : State} {port n : Nat} (h : s.links.portUp[port]? = some true)
    (hn : s.links.replays[port]? = some n) (hle : n < 16) :
    Logs (.flitCrcFail port) s (s.replayed port n) 0x01 (portDie port) 0 := by
  have hexec : execFlitCrcFail port s = .next ((s.replayed port n).logSoft .gnoip (portDie port) port) := by
    simp [execFlitCrcFail, h, hn, Nat.succ_le_of_lt hle, State.replayed]
  exact ⟨_, hexec, State.logged_logEvent _ _ _ _ _⟩

/-- The seventeenth takes the port down (R428; entry 41). -/
theorem logs_flitCrcFail_portDown {s : State} {port n : Nat} (h : s.links.portUp[port]? = some true)
    (hn : s.links.replays[port]? = some n) (hge : 16 ≤ n) (ht : s.txns = []) :
    Logs (.flitCrcFail port) s { s.replayed port n with
      links := { (s.replayed port n).links with portUp := s.links.portUp.set port false } } 0x06 (portDie port) 0 := by
  have hexec : execFlitCrcFail port s = .next ((s.replayed port n).portDown port) := by
    have hgt : ¬ n + 1 ≤ 16 := by omega
    simp [execFlitCrcFail, h, hn, hgt, State.replayed]
  exact ⟨_, hexec, logged_failStranded (State.logged_logEvent _ _ _ _ _) ht⟩

/-! ## Host accesses to one plain block -/

/-- What the statement asks of an access: the host can place it, and its bytes lie in one block of a backed plain frame. -/
structure HostAt (s : State) (pa n : Nat) (r : FrameRun) : Prop where
  opened : s.hostOpen = true
  linked : s.hostFrom (homeDie pa) = true
  top : pa + n ≤ 2 ^ 41
  pos : 0 < n
  block : pa % 1024 + n ≤ 1024
  frame : s.frameOf pa = some r
  plain : r.cmp = false

section
variable {s : State} {pa n : Nat} {r : FrameRun} (h : HostAt s pa n r)
include h

theorem HostAt.lt_regBase : pa < regBase := by
  have htop := h.top
  have hpos := h.pos
  exact Machine.lt_regBase (by omega)

theorem HostAt.reached : s.hostReaches pa = true := (hostReaches_main h.lt_regBase).trans h.linked

theorem HostAt.backed (vf : Nat) : s.backed vf pa n = (r.vf == vf) := State.backed_one h.frame h.pos h.block h.top

theorem HostAt.isCmp : s.isCmp pa = false := (State.isCmp_of_frameOf h.frame).trans h.plain

/-- The function of the frame reads its bytes (R389, R414). -/
theorem HostAt.read_own (hg : ∀ a ∈ s.poison, a < pa ∨ pa + n ≤ a) : execHostRead r.vf pa n s = .next { s with
    out := s.out ++ [.readDone r.vf ((List.range n).map (fun i => memGet s.mem (pa + i)))] } := by
  have hget : s.hostGet r.vf pa n = s.physRead pa n := by simp [hostGet_main h.lt_regBase, h.backed]
  exact execHostRead_done h.opened h.reached (hget.trans (State.physRead_plain h.isCmp h.block hg))

theorem HostAt.read_other {vf : Nat} (hv : r.vf ≠ vf) : execHostRead vf pa n s = .next (s.hostError vf) :=
  execHostRead_error h.opened h.lt_regBase (.inr ((h.backed vf).trans (beq_eq_false_iff_ne.2 hv)))

end

/-- The function of the frame stores its bytes, and nothing else changes but the count of identifiers (R414, R426). -/
theorem HostAt.write_own {s : State} {pa : Nat} {data : List Byte} {r : FrameRun} (h : HostAt s pa data.length r)
    (hq : s.hostq = []) (hh : s.held = []) (hm : (s.vf r.vf).migok = false) (hw : s.mem.wf = true) :
    ∃ s', execHostWrite r.vf pa data s = .next s' ∧ StoredOnly s s' pa data := by
  have hd : data ≠ [] := List.ne_nil_of_length_pos h.pos
  have hexec : execHostWrite r.vf pa data s = .next (s.bumpId.putBytes pa data) := by
    rw [execHostWrite_performs h.opened hq hh, hostPerform_backed h.lt_regBase h.reached (by simp [h.backed]),
      State.agentWrite_host_plain h.isCmp hd h.block hm]
  exact ⟨_, hexec, stored_of_mem (State.stored_putBytes (s := s.bumpId) hw pa data) rfl rfl, rfl⟩

theorem HostAt.write_other {s : State} {vf pa : Nat} {data : List Byte} {r : FrameRun} (h : HostAt s pa data.length r)
    (hq : s.hostq = []) (hh : s.held = []) (hv : r.vf ≠ vf) : execHostWrite vf pa data s = .next (s.hostError vf) := by
  rw [execHostWrite_performs h.opened hq hh, hostPerform_unbacked h.lt_regBase ((h.backed vf).trans (beq_eq_false_iff_ne.2 hv))]

/-! ## Register pages -/

/-- A virtual function reads its QBASE (R401). -/
theorem execHostRead_qbase {s : State} {vf : Nat} (h1 : 1 ≤ vf) (h64 : vf ≤ 64) (ho : s.hostOpen = true)
    (hf : s.hostFrom 0 = true) : execHostRead vf (regBase + 65536 * vf + 0x010) 8 s
      = .next { s with out := s.out ++ [.readDone vf (natLe 8 (s.vf vf).qbase.toNat)] } := by
  have hget : s.hostGet vf (regBase + 65536 * vf + 0x010) 8 = some (natLe 8 (s.vf vf).qbase.toNat) := by
    rw [hostGet_register s vf 8 (by omega), pageOk_own h64, if_pos rfl, regRead_qbase s h1]
  exact execHostRead_done ho ((hostReaches_register (by omega)).trans hf) hget

/-- The page of the physical function is closed to it. -/
theorem execHostRead_physical {s : State} {vf : Nat} (h1 : 1 ≤ vf) (ho : s.hostOpen = true) :
    execHostRead vf (regBase + 0x3800) 8 s = .next (s.hostError vf) := by
  have hget : s.hostGet vf (regBase + 65536 * 0 + 0x3800) 8 = none := by
    rw [hostGet_register s vf 8 (by omega), pageOk_physical h1]
    rfl
  exact execHostRead_register_error ho (by omega) hget

end Sys2Proof.Machine
end

section
namespace Sys2Proof.Proofs

open Sys2Proof Machine Certificates

/-- Settles O52: host accesses by where their bytes lie, the translations by page, and each link by its event, which does no
more than log while no transaction is outstanding. -/
theorem hostAndLinks : Obligations.HostAndLinks := by
  intro s
  refine ⟨?accesses, ?closed, ?unreached, ?registers, ?translations, ?modules, ?dieLinks, ?ports⟩
  case accesses =>
    intro vf pa data r len hopen hfrom htop hblock0 hblock hframe hplain hlen
    subst hlen
    have h : HostAt s pa data.length r := ⟨hopen, hfrom, htop, hblock0, hblock, hframe, hplain⟩
    refine ⟨?_, h.read_other, fun hq hh => ⟨?_, h.write_other hq hh⟩,
      fun x hx hby hex => execHostWrite_waits hopen hx hby hex pa data⟩
    · rintro rfl
      exact h.read_own
    · rintro rfl
      exact h.write_own hq hh
  case closed => exact fun vf pa len data hc => ⟨execHostRead_closed hc vf pa len, execHostWrite_closed hc vf pa data⟩
  case unreached =>
    intro vf pa len hopen hfrom hpa
    have hm := lt_regBase hpa
    exact execHostRead_error hopen hm (.inl ((hostReaches_main hm).trans hfrom))
  case registers =>
    exact fun vf h1 h64 hopen hfrom => ⟨execHostRead_qbase h1 h64 hopen hfrom, execHostRead_physical h1 hopen⟩
  case translations =>
    exact fun vf pasid page target => ⟨_, rfl, rfl, State.hostPa_mapHost s ⟨vf, pasid, page, target⟩⟩
  case modules =>
    exact fun m hm _ _ => ⟨fun key => rfl,
      fun hup => ⟨logs_ucieModuleDown hm hup, fun key hkey => logs_ideIntegrityFailure hm hup hkey⟩,
      execUcieModuleDown_of_down, execIdeIntegrityFailure_of_unkeyed⟩
  case dieLinks => exact fun link => ⟨logs_dieLinkDown, execDieLinkDown_of_down⟩
  case ports =>
    exact fun port n hup hn => ⟨logs_flitCrcFail_replay hup hn, logs_flitCrcFail_portDown hup hn⟩

end Sys2Proof.Proofs
end

section
/-! SUPPORT. The words of an instruction (R64 to R91): a field of a word that the encoder joins is the operand that it was made
from, layout by layout; from it, that every well-formed instruction is read from its encoding, and that no bit of words that
decode is dropped. -/

namespace Sys2Proof

/-! ## Fields of a word -/

@[simp] theorem bits_or {w : Nat} (x y : BitVec w) (hi lo : Nat) : bits (x ||| y) hi lo = bits x hi lo ||| bits y hi lo :=
  BitVec.extractLsb_or ..

@[simp] theorem bits_zero {w : Nat} (hi lo : Nat) : bits (0#w) hi lo = 0 := by
  ext i hi; simp

/-- A Bool at a position is there, and nowhere else. -/
theorem getLsbD_at1 (b : Bool) (i j : Nat) : (at1 b i).getLsbD j = (b && decide (i = j ∧ j < 32)) := by
  cases b
  · simp [at1]
  · rw [Bool.eq_iff_iff]
    simp [at1]
    omega

/-- A field from a position up is there, and nowhere else. -/
theorem getLsbD_at_ {n : Nat} (x : BitVec n) (i j : Nat) :
    (at_ x i).getLsbD j = (decide (i ≤ j ∧ j < 32) && x.getLsbD (j - i)) := by
  rw [at_, BitVec.getLsbD_shiftLeft, BitVec.getLsbD_setWidth]
  by_cases hj : j < 32
  · have hlt : j - i < 32 := by omega
    by_cases hi : i ≤ j
    · simp [hj, hlt, hi, Nat.not_lt.2 hi]
    · simp [hi, Nat.not_le.1 hi]
  · simp [hj]

@[simp] theorem getElem_at1 (b : Bool) {i j : Nat} (h : j < 32) : (at1 b i)[j] = (b && decide (i = j)) := by
  rw [← BitVec.getLsbD_eq_getElem, getLsbD_at1]
  simp [h]

@[simp] theorem getElem_at_off {n : Nat} (x : BitVec n) {i j : Nat} (hj : j < 32) (h : j < i ∨ i + n ≤ j) :
    (at_ x i)[j] = false := by
  rw [← BitVec.getLsbD_eq_getElem, getLsbD_at_]
  rcases h with h | h
  · simp [Nat.not_le.2 h]
  · simp [BitVec.getLsbD_of_ge x (j - i) (by omega)]

@[simp] theorem bits_at1_off (b : Bool) {i hi lo : Nat} (hle : lo ≤ hi) (h : i < lo ∨ hi < i) : bits (at1 b i) hi lo = 0 := by
  apply BitVec.eq_of_getLsbD_eq
  intro j hj
  have hne : i ≠ lo + j := by omega
  simp [getLsbD_at1, hne]

@[simp] theorem bits_at_off {n : Nat} (x : BitVec n) {i hi lo : Nat} (hle : lo ≤ hi) (h : hi < i ∨ i + n ≤ lo) :
    bits (at_ x i) hi lo = 0 := by
  apply BitVec.eq_of_getLsbD_eq
  intro j hj
  rcases h with h | h
  · have hoff : ¬ i ≤ lo + j := by omega
    simp [getLsbD_at_, hoff]
  · simp [getLsbD_at_, BitVec.getLsbD_of_ge x (lo + j - i) (by omega)]

@[simp] theorem bits_at_same {n : Nat} (x : BitVec n) {hi lo : Nat} (hle : lo ≤ hi) (h : hi < 32) :
    bits (at_ x lo) hi lo = x.setWidth (hi - lo + 1) := by
  apply BitVec.eq_of_getLsbD_eq
  intro j hj
  have hw : lo + j < 32 := by omega
  rw [BitVec.getLsbD_extractLsb, getLsbD_at_]
  simp [hj, hw]

/-! ## OPC and LEN (R65, R69, R91) -/

theorem Opc.code_lt (o : Opc) : o.code < 256 := by cases o <;> decide

theorem opcodeOf_code (o : Opc) : opcodeOf o.code = some o := by cases o <;> rfl

theorem Form.len_lt (f : Form) : f.len < 4 := by
  obtain ⟨mods, lit⟩ := f
  cases mods <;> cases lit <;> simp [Form.len]

theorem head_eq (o : Opc) (f : Form) : head o f = at_ (BitVec.ofNat 8 o.code) 2 ||| at_ (BitVec.ofNat 2 f.len) 0 := by
  have ho := o.code_lt
  have hf := f.len_lt
  simp [head, at_, BitVec.setWidth_ofNat_of_le_of_lt, ho, hf]

@[simp] theorem bits_head_opc (o : Opc) (f : Form) : bits (head o f) 9 2 = BitVec.ofNat 8 o.code := by simp [head_eq]

@[simp] theorem bits_head_len (o : Opc) (f : Form) : bits (head o f) 1 0 = BitVec.ofNat 2 f.len := by simp [head_eq]

@[simp] theorem bits_head_off (o : Opc) (f : Form) {hi lo : Nat} (hle : lo ≤ hi) (h : 10 ≤ lo) : bits (head o f) hi lo = 0 := by
  have h2 : 2 ≤ lo := by omega
  simp [head_eq, hle, h, h2]

@[simp] theorem getElem_head_off (o : Opc) (f : Form) {i : Nat} (hi : i < 32) (h : 10 ≤ i) : (head o f)[i] = false := by
  have h2 : 2 ≤ i := by omega
  simp [head_eq, h, h2]

/-! ## Words 1 and 2, and the literal (R74, R84, R86) -/

@[simp] theorem Word1.word1Of_encode (w : Word1) : word1Of w.encode = w := by
  simp [word1Of, Word1.encode]

@[simp] theorem Prefix.prefixOf_encode (p : Prefix) : prefixOf p.encode = p := by
  simp [prefixOf, Prefix.encode]

@[simp] theorem literalOf_halves (l : Dword) : literalOf (l.setWidth 32) ((l >>> 32).setWidth 32) = l := by
  apply BitVec.eq_of_getLsbD_eq
  intro i hi
  rw [literalOf, BitVec.getLsbD_append]
  split
  · next h => simp [h]
  · next h =>
    have hlo : i - 32 < 32 := by omega
    have heq : 32 + (i - 32) = i := by omega
    simp [hlo, heq]

@[simp] theorem literalOf_low (lo hi : Word) : (literalOf lo hi).setWidth 32 = lo := BitVec.setWidth_append_eq_right

@[simp] theorem literalOf_high (lo hi : Word) : (literalOf lo hi >>> 32).setWidth 32 = hi := by
  apply BitVec.eq_of_getLsbD_eq
  intro i h
  rw [BitVec.getLsbD_setWidth, BitVec.getLsbD_ushiftRight, literalOf, BitVec.getLsbD_append]
  simp [h]

/-- The words of an instruction in a form, split as the decoder splits them. -/
def Form.split (f : Form) (w0 w2 : Word) : Words :=
  { w0, ext := match f.mods with | .ext w => some (w.encode, w2) | _ => none, lit := f.lit }

@[simp] theorem Form.split_w0 (f : Form) (w0 w2 : Word) : (f.split w0 w2).w0 = w0 := rfl

theorem Form.split_form {f : Form} (hp : f.isPrefixed = false) (w0 w2 : Word) : (f.split w0 w2).form = f := by
  obtain ⟨mods, lit⟩ := f
  cases mods with
  | base => rfl
  | pfx p => cases hp
  | ext w => simp [Words.form, Form.split]

theorem Form.split_w2 {f : Form} {w2 : Word} (h : f.isExt = true ∨ w2 = 0) (w0 : Word) : (f.split w0 w2).w2 = w2 := by
  obtain ⟨mods, lit⟩ := f
  cases mods with
  | ext w => rfl
  | base | pfx p =>
    have h0 : w2 = 0 := h.resolve_left Bool.false_ne_true
    simp [Words.w2, Form.split, h0]

theorem Form.toNat_len {f : Form} {w0 : Word} (hlen : bits w0 1 0 = BitVec.ofNat 2 f.len) : (bits w0 1 0).toNat = f.len := by
  rw [hlen, BitVec.toNat_ofNat, Nat.mod_eq_of_lt f.len_lt]

/-- LEN tells how many words follow, so that a form's words are split as they were joined (R65). -/
theorem splitWords_tailWords {f : Form} {w0 : Word} (hlen : bits w0 1 0 = BitVec.ofNat 2 f.len) (w2 : Word) :
    splitWords (w0 :: f.tailWords w2) = .ok (f.split w0 w2) := by
  have hn := Form.toNat_len hlen
  obtain ⟨mods, lit⟩ := f
  cases lit with
  | none => cases mods <;> simp only [Form.len] at hn <;> simp only [splitWords, hn] <;> rfl
  | some l => cases mods <;> simp only [Form.len] at hn <;> simp [splitWords, hn, Form.tailWords, Form.split]

/-! ## The checks of a form -/

@[simp] theorem firstError_eq_none {a b : Option DecodeError} : firstError a b = none ↔ a = none ∧ b = none := by
  cases a <;> simp [firstError]

@[simp] theorem codeIf_eq_none {b : Bool} : codeIf b = none ↔ b = true := by
  cases b <;> simp [codeIf]

theorem Form.contains_len {sp : FormSpec} {f : Form} (h : f.check sp = none) : sp.lens.contains f.len = true := by
  by_contra hc
  rw [Form.check, if_pos (by simpa using hc)] at h
  cases h

theorem V3.form_check {sp : FormSpec} {f : V3} (h : f.check sp = none) : f.fm.check sp = none := by
  cases hc : f.fm.check sp with
  | none => rfl
  | some e => simp [V3.check, hc] at h

theorem RI8.form_check {sp : FormSpec} {f : RI8} (h : f.check sp = none) : f.fm.check sp = none := by
  cases hc : f.fm.check sp with
  | none => rfl
  | some e => simp [RI8.check, hc] at h

theorem Uniform.form_check {sp : FormSpec} {f : Uniform} (h : f.check sp = none) : f.fm.check sp = none := by
  cases hc : f.fm.check sp with
  | none => rfl
  | some e => simp [Uniform.check, hc] at h

theorem Form.isExt_of_len {f : Form} (h : 2 ≤ f.len) : f.isExt = true := by
  obtain ⟨mods, lit⟩ := f
  cases mods <;> cases lit <;> simp_all [Form.len, Form.isExt]

/-- An instruction that is offered with word 1 only has the extended form. -/
theorem Form.isExt_of_check {sp : FormSpec} {f : Form} (hl : ∀ n ∈ sp.lens, 2 ≤ n) (h : f.check sp = none) : f.isExt = true :=
  Form.isExt_of_len (hl _ (List.contains_iff_mem.1 (Form.contains_len h)))

/-! ## The layouts (R69, R70, R74): the fields of the words that the encoder makes are the operands -/

/-- Word 0 in layout V3. -/
def V3.word0 (o : Opc) (f : V3) : Word := head o f.fm ||| at_ f.d 10 ||| at_ f.a 17 ||| at_ f.b 24 ||| at1 f.kb 31

/-- Word 0 of a comparison. -/
def CmpForm.word0 (o : Opc) (f : CmpForm) : Word :=
  head o f.fm ||| at_ f.pd 10 ||| at_ f.cond 14 ||| at_ f.a 17 ||| at_ f.b 24 ||| at1 f.kb 31

/-- Word 0 in layout RI8. -/
def RI8.word0 (o : Opc) (f : RI8) : Word := head o f.fm ||| at_ f.d 10 ||| at_ f.a 17 ||| at_ f.imm 24

/-- Word 0 of the uniform instructions. -/
def Uniform.word0 (o : Opc) (f : Uniform) : Word :=
  head o f.fm ||| at_ f.ud 10 ||| at_ f.ua 16 ||| at_ f.ub 22 ||| at_ f.fn 28

/-- Words of an opcode from which every operand of an instruction is read, in a form that the opcode offers. -/
structure Instr.ReadFrom (i : Instr) (o : Opc) (w0 w2 : Word) : Prop where
  encode_eq : encode i = w0 :: i.form.tailWords w2
  opc : bits w0 9 2 = BitVec.ofNat 8 o.code
  len : bits w0 1 0 = BitVec.ofNat 2 i.form.len
  check : i.form.check (formSpec o) = none
  extract_eq : extract o (i.form.split w0 w2) = i

/-- The base form of a memory instruction stands for one word 2 (R197). -/
theorem MemForm.w2_of_check {o : Opc} {f : MemForm} (h : f.check o = none) : f.fm.isExt = true ∨ f.w2 = MemW2.base := by
  have hcodes := codeIf_eq_none.1 (firstError_eq_none.1 h).2
  unfold MemForm.codesOk at hcodes
  -- of the conjunction of the rules, this is the first
  iterate 13 replace hcodes := Bool.and_elim_left hcodes
  simpa using hcodes

theorem MemForm.split_mem {f : MemForm} (hp : f.fm.isPrefixed = false) (hw : f.fm.isExt = true ∨ f.w2 = MemW2.base) (o : Opc) :
    (f.fm.split (RI8.word0 o ⟨f.imm, f.a, f.d, f.fm⟩) f.w2.encode).mem = f := by
  obtain ⟨imm, a, d, ⟨mods, lit⟩, w2⟩ := f
  cases mods with
  | pfx p => cases hp
  | base =>
    obtain rfl : w2 = MemW2.base := hw.resolve_left Bool.false_ne_true
    simp [Words.mem, Words.form, Form.split, RI8.word0]
  | ext w => simp [Words.mem, Words.form, Form.split, RI8.word0, MemW2.encode]

section
variable {i : Instr} {o : Opc} {w2 : Word} (hp : i.form.isPrefixed = false)
include hp

theorem readFrom_v3 {f : V3} (he : encode i = f.encode o w2) (hf : i.form = f.fm) (hc : f.check (formSpec o) = none)
    (hw : f.fm.isExt = true ∨ w2 = 0) (hx : ∀ x : Words, x.v3 = f → x.w2 = w2 → extract o x = i) :
    i.ReadFrom o (f.word0 o) w2 where
  encode_eq := by rw [he, hf]; rfl
  opc := by simp [V3.word0]
  len := by simp [V3.word0, hf]
  check := by rw [hf]; exact V3.form_check hc
  extract_eq := by
    rw [hf] at hp ⊢
    exact hx _ (by simp [Words.v3, Form.split_form hp, V3.word0]) (Form.split_w2 hw _)

theorem readFrom_cmp {f : CmpForm} (he : encode i = f.encode o) (hf : i.form = f.fm) (hc : f.check (formSpec o) = none)
    (hx : ∀ x : Words, x.cmpForm = f → extract o x = i) : i.ReadFrom o (f.word0 o) 0 where
  encode_eq := by rw [he, hf]; rfl
  opc := by simp [CmpForm.word0]
  len := by simp [CmpForm.word0, hf]
  check := by rw [hf]; exact V3.form_check hc
  extract_eq := by
    rw [hf] at hp ⊢
    exact hx _ (by simp [Words.cmpForm, Form.split_form hp, CmpForm.word0])

theorem readFrom_ri8 {f : RI8} (he : encode i = f.encode o w2) (hf : i.form = f.fm) (hc : f.check (formSpec o) = none)
    (hw : f.fm.isExt = true ∨ w2 = 0) (hx : ∀ x : Words, x.ri8 = f → x.w2 = w2 → extract o x = i) :
    i.ReadFrom o (f.word0 o) w2 where
  encode_eq := by rw [he, hf]; rfl
  opc := by simp [RI8.word0]
  len := by simp [RI8.word0, hf]
  check := by rw [hf]; exact RI8.form_check hc
  extract_eq := by
    rw [hf] at hp ⊢
    exact hx _ (by simp [Words.ri8, Form.split_form hp, RI8.word0]) (Form.split_w2 hw _)

theorem readFrom_uniform {f : Uniform} (he : encode i = f.encode o) (hf : i.form = f.fm) (hc : f.check (formSpec o) = none)
    (hx : ∀ x : Words, x.uniform = f → extract o x = i) : i.ReadFrom o (f.word0 o) 0 where
  encode_eq := by rw [he, hf]; rfl
  opc := by simp [Uniform.word0]
  len := by simp [Uniform.word0, hf]
  check := by rw [hf]; exact Uniform.form_check hc
  extract_eq := by
    rw [hf] at hp ⊢
    exact hx _ (by simp [Words.uniform, Form.split_form hp, Uniform.word0])

theorem readFrom_z {fm : Form} {func : Word} (he : encode i = encodeZ o fm func) (hf : i.form = fm)
    (hc : fm.check (formSpec o) = none) (hopc : bits func 9 2 = 0) (hlen : bits func 1 0 = 0)
    (hx : ∀ x : Words, x.w0 = head o fm ||| func → x.form = fm → extract o x = i) :
    i.ReadFrom o (head o fm ||| func) 0 where
  encode_eq := by rw [he, hf]; rfl
  opc := by simp [hopc]
  len := by simp [hlen, hf]
  check := by rw [hf]; exact hc
  extract_eq := by
    rw [hf] at hp ⊢
    exact hx _ rfl (Form.split_form hp _ _)

theorem readFrom_mem {f : MemForm} (he : encode i = f.encode o) (hf : i.form = f.fm) (hc : f.check o = none)
    (hx : ∀ x : Words, x.mem = f → extract o x = i) :
    i.ReadFrom o (RI8.word0 o ⟨f.imm, f.a, f.d, f.fm⟩) f.w2.encode where
  encode_eq := by rw [he, hf]; rfl
  opc := by simp [RI8.word0]
  len := by simp [RI8.word0, hf]
  check := by rw [hf]; exact RI8.form_check (firstError_eq_none.1 hc).1
  extract_eq := by
    rw [hf] at hp ⊢
    exact hx _ (MemForm.split_mem hp (MemForm.w2_of_check hc) o)

theorem readFrom_graph {f : GraphForm} (he : encode i = f.encode o) (hf : i.form = f.v.fm) (hc : f.check o = none)
    (hl : ∀ n ∈ (formSpec o).lens, 2 ≤ n)
    (hx : ∀ x : Words, x.graph = f → extract o x = i) : i.ReadFrom o (f.v.word0 o) f.w2.encode := by
  obtain ⟨hv, -⟩ := firstError_eq_none.1 hc
  refine readFrom_v3 hp he hf hv (.inl (Form.isExt_of_check hl (V3.form_check hv))) fun x hxv hxw => hx x ?_
  simp [Words.graph, hxv, hxw, GraphW2.encode]

end

/-! ## Every legal instruction is read from its words -/

/-- Layout V3 with a word 2 that only the extended form has. -/
theorem readFrom_v3_ext {i : Instr} {o : Opc} {w2 : Word} {f : V3} (hp : i.form.isPrefixed = false) (he : encode i = f.encode o w2)
    (hf : i.form = f.fm) (hc : f.check (formSpec o) = none) (hl : ∀ n ∈ (formSpec o).lens, 2 ≤ n)
    (hx : ∀ x : Words, x.v3 = f → x.w2 = w2 → extract o x = i) : i.ReadFrom o (f.word0 o) w2 :=
  readFrom_v3 hp he hf hc (.inl (Form.isExt_of_check hl (V3.form_check hc))) hx

/-- A field of word 2 that must be clear in the base form (R74). -/
theorem isExt_or_at1 {f : Form} {b : Bool} (h : (f.isExt || !b) = true) (n : Nat) : f.isExt = true ∨ at1 b n = 0 := by
  cases b
  · exact .inr rfl
  · exact .inl (by simpa using h)

/-- Each instruction by its layout: what its word 2 holds is read back where it has one, and is clear where it has none. -/
theorem Instr.exists_readFrom {i : Instr} (hopc : i.opc.isSome = true) (hnp : i.opc ≠ some .pfx) (hill : i.illegal = none)
    (hp : i.form.isPrefixed = false) : ∃ o w0 w2, i.opc = some o ∧ i.ReadFrom o w0 w2 := by
  cases i with
  | pfx p w lit => exact absurd rfl hnp
  -- words that hold an opcode only, or no word 1
  | nop => exact ⟨_, _, _, rfl, readFrom_z hp (fm := .plain) (func := 0) rfl rfl rfl rfl rfl (fun _ _ _ => rfl)⟩
  | eret => exact ⟨_, _, _, rfl, readFrom_z hp rfl rfl rfl rfl rfl (fun _ _ _ => rfl)⟩
  | brp | reform | kbra | role =>
    exact ⟨_, _, _, rfl, readFrom_z hp rfl rfl rfl (by simp) (by simp) (fun x h0 _ => by simp [extract, h0])⟩
  -- form Z
  | bra | call | ret | exit | yield | trap | brk | tdone | accz | mwait | home | plop | csrr =>
    exact ⟨_, _, _, rfl, readFrom_z hp rfl rfl hill (by simp) (by simp) (fun x h0 hf => by simp [extract, h0, hf])⟩
  | fence | bar | bara | barw | twait | qfence | qwait | carry | csrw | detchk =>
    exact ⟨_, _, _, rfl, readFrom_z hp rfl rfl (firstError_eq_none.1 hill).1 (by simp) (by simp)
      (fun x h0 hf => by simp [extract, h0, hf])⟩
  -- layout V3 without fields in word 2
  | jmpr f | callr f | tsync f | mov f | movl f | add f | sub f | mul f | mulhs f | mulhu f | min f | max f | minu f | maxu f
  | and f | or f | xor f | andn f | shl f | shr f | sar f | rotl f | fshl f | popc f | clz f | brev f | bfi f | ptov f | vtop f
  | rng f | cyc f | divu f | remu f | fadd f | fsub f | fmul f | ffma f | fmin f | fmax f | frnd f | fclass f | dadd f | dmul f
  | dfma f | fscl f | fdiv f | tidset f | tidget f | xltld f | coll f | collw f | mma f | cbset f | mstat f | oqry f | whereAt f
  | space f => exact ⟨_, _, _, rfl, readFrom_v3 hp rfl rfl hill (.inr rfl) (by rintro x rfl -; rfl)⟩
  | mmas f | tarm f =>
    exact ⟨_, _, _, rfl, readFrom_v3 hp rfl rfl (firstError_eq_none.1 hill).1 (.inr rfl) (by rintro x rfl -; rfl)⟩
  | cmp f | cmpu f => exact ⟨_, _, _, rfl, readFrom_cmp hp rfl rfl (firstError_eq_none.1 hill).1 (by rintro x rfl; rfl)⟩
  | fcmp f => exact ⟨_, _, _, rfl, readFrom_cmp hp rfl rfl hill (by rintro x rfl; rfl)⟩
  -- layout V3 with fields in word 2, clear in a base form
  | bfe f b | hadd2 f b | hmul2 f b | hfma2 f b | hmax2 f b | hmin2 f b | pack2 f b =>
    obtain ⟨hc, hcode⟩ := firstError_eq_none.1 hill
    exact ⟨_, _, _, rfl, readFrom_v3 hp rfl rfl hc (isExt_or_at1 (codeIf_eq_none.1 hcode) 0)
      (fun x hv hw => by simp [extract, hv, hw])⟩
  | lea f zx sh =>
    obtain ⟨hc, hcode⟩ := firstError_eq_none.1 hill
    have hw : f.fm.isExt = true ∨ at1 zx 3 ||| at_ sh 0 = 0 := by
      refine (Bool.or_eq_true_iff.1 (codeIf_eq_none.1 hcode)).imp_right fun h => ?_
      simp only [Bool.and_eq_true, Bool.not_eq_true', beq_iff_eq] at h
      rw [h.1, h.2]
      rfl
    exact ⟨_, _, _, rfl, readFrom_v3 hp rfl rfl hc hw (fun x hv hw => by simp [extract, hv, hw])⟩
  | tcopy f rel | tcopyg f rel =>
    obtain ⟨hc, hcode⟩ := firstError_eq_none.1 hill
    have hw : f.fm.isExt = true ∨ at_ rel 0 = 0 := by
      simp only [codeIf_eq_none, Bool.and_eq_true, Bool.or_eq_true, beq_iff_eq] at hcode
      exact hcode.1.2.imp_right fun h => by rw [h]; rfl
    exact ⟨_, _, _, rfl, readFrom_v3 hp rfl rfl hc hw (fun x hv hw => by simp [extract, hv, hw])⟩
  -- layout V3 in the extended form only
  | addc f cy | subb f cy | madw f cy =>
    exact ⟨_, _, _, rfl, readFrom_v3_ext hp rfl rfl (firstError_eq_none.1 hill).1 (by decide)
      (fun x hv hw => by simp [extract, hv, Words.carry, hw, CarryW2.encode])⟩
  | tred f w | tscan f w =>
    exact ⟨_, _, _, rfl, readFrom_v3_ext hp rfl rfl (firstError_eq_none.1 hill).1 (by decide)
      (fun x hv hw => by simp [extract, hv, Words.team, hw, TeamW2.encode])⟩
  | tshfl | tvote | rdfl | tcoll | tmatch | spcomp | mscl =>
    exact ⟨_, _, _, rfl, readFrom_v3_ext hp rfl rfl (firstError_eq_none.1 hill).1 (by decide)
      (fun x hv hw => by simp [extract, hv, hw])⟩
  | sel | go =>
    exact ⟨_, _, _, rfl, readFrom_v3_ext hp rfl rfl hill (by decide) (fun x hv hw => by simp [extract, hv, hw])⟩
  -- layout RI8
  | sysc f => exact ⟨_, _, _, rfl, readFrom_ri8 hp rfl rfl hill (.inr rfl) (by rintro x rfl -; rfl)⟩
  | fcvt f | fsf f | dcvt f | unpk2 f | orel f | accld f | accst f | tlbi f | frec f =>
    exact ⟨_, _, _, rfl, readFrom_ri8 hp rfl rfl (firstError_eq_none.1 hill).1 (.inr rfl) (by rintro x rfl -; rfl)⟩
  | sread f kd | tstat f kd =>
    obtain ⟨hc, hcode⟩ := firstError_eq_none.1 hill
    have hw : (f.fm.isExt || !kd) = true := by
      simp only [codeIf_eq_none, Bool.and_eq_true, Bool.or_eq_true] at hcode ⊢
      tauto
    exact ⟨_, _, _, rfl, readFrom_ri8 hp rfl rfl hc (isExt_or_at1 hw 0) (fun x hv hw => by simp [extract, hv, hw])⟩
  | oclaim | acccvt =>
    obtain ⟨hc, -⟩ := firstError_eq_none.1 hill
    exact ⟨_, _, _, rfl, readFrom_ri8 hp rfl rfl hc (.inl (Form.isExt_of_check (by decide) (RI8.form_check hc)))
      (fun x hv hw => by simp [extract, hv, hw])⟩
  -- the uniform instructions, memory, and the graph
  | kmov f | kadd f | kmul f | klea f | kcmp f | klog f | kld f | ksel f | kst f =>
    exact ⟨_, _, _, rfl, readFrom_uniform hp rfl rfl (firstError_eq_none.1 hill).1 (by rintro x rfl; rfl)⟩
  | ld f | st f | atom f | acas f | accadd f | accrd f | accclr f | pref f | lda f | str f | wsqry f | cinv f | cwb f | zfill f =>
    exact ⟨_, _, _, rfl, readFrom_mem hp rfl rfl hill (by rintro x rfl; rfl)⟩
  | vins f | vdel f | vget f | vset f | deg f | eins f | edel f | eget f | epget f | epset f | efind f | copen f | cnext f | cpeek f
  | cclose f | csave f | crest f | sinter f | sdiff f | ghome f | vatom f | gstat f | crank f =>
    exact ⟨_, _, _, rfl, readFrom_graph hp rfl rfl hill (by decide) (by rintro x rfl; rfl)⟩
  -- events have no words
  | _ => cases hopc

/-! ## The decoder -/

theorem decode_reserved {w0 : Word} (h : opcodeOf (bits w0 9 2).toNat = none) (ws : List Word) :
    decode (w0 :: ws) = .ok (.reservedOpcode w0) := by
  simp only [decode, h]

theorem decode_pfx {w0 : Word} (h : opcodeOf (bits w0 9 2).toNat = some .pfx) (ws : List Word) :
    decode (w0 :: ws) = decodePrefix w0 ws := by
  simp only [decode, h]

theorem decode_plain {w0 : Word} {o : Opc} (h : opcodeOf (bits w0 9 2).toNat = some o) (ho : o ≠ .pfx) (ws : List Word) :
    decode (w0 :: ws) = decodePlain o (w0 :: ws) := by
  simp only [decode, h]

/-- The decoder gives an instruction when it is what the words' fields say, the opcode offers their length, its encoding begins
the words, and no check refuses it (R90). -/
theorem decodePlain_eq_ok {o : Opc} {ws : List Word} {i : Instr} :
    decodePlain o ws = .ok i ↔ ∃ x, splitWords ws = .ok x ∧ (formSpec o).lens.contains (bits x.w0 1 0).toNat = true
      ∧ encode i <+: ws ∧ i.illegal = none ∧ extract o x = i := by
  unfold decodePlain
  cases splitWords ws with
  | error e => simp
  | ok x =>
    simp only [Except.ok.injEq, exists_eq_left']
    split
    · next hlen => simp_all
    split
    · next hpre =>
      simp only [Bool.not_eq_true', ← Bool.not_eq_true, List.isPrefixOf_iff_prefix] at hpre
      simp only [reduceCtorEq, false_iff]
      rintro ⟨-, hi, -, rfl⟩
      exact hpre hi
    · next hlen hpre =>
      simp only [Bool.not_eq_true', Bool.not_eq_false, List.isPrefixOf_iff_prefix] at hlen hpre
      cases hill : (extract o x).illegal with
      | some e =>
        simp only [reduceCtorEq, false_iff]
        rintro ⟨-, -, hi, rfl⟩
        rw [hill] at hi
        cases hi
      | none =>
        constructor
        · intro h
          cases h
          exact ⟨hlen, hpre, hill, rfl⟩
        · rintro ⟨-, -, -, rfl⟩
          rfl

theorem getLsbD_eq_of_bits {x y : Word} {hi lo j : Nat} (h : bits x hi lo = bits y hi lo) (hlo : lo ≤ j) (hhi : j ≤ hi) :
    x.getLsbD j = y.getLsbD j := by
  have hj := congrArg (·.getLsbD (j - lo)) h
  have hle : j - lo < hi - lo + 1 := by omega
  simpa only [BitVec.getLsbD_extractLsb, hle, decide_true, Bool.true_and, Nat.add_sub_cancel' hlo] using hj

/-- The fields of a PFX word, with the bits that hold none, are all of it (R86). -/
theorem eq_of_prefixOf {x y : Word} (h : prefixOf x = prefixOf y) (htop : bits x 31 27 = bits y 31 27)
    (hopc : bits x 9 2 = bits y 9 2) (hlen : bits x 1 0 = bits y 1 0) : x = y := by
  obtain ⟨hfk, hf, hrm, hgz, hgn, hgp⟩ := Prefix.mk.inj h
  apply BitVec.eq_of_getLsbD_eq
  intro j hj
  have hcases : 27 ≤ j ∨ j = 26 ∨ (19 ≤ j ∧ j ≤ 25) ∨ (16 ≤ j ∧ j ≤ 18) ∨ j = 15 ∨ j = 14 ∨ (10 ≤ j ∧ j ≤ 13)
      ∨ (2 ≤ j ∧ j ≤ 9) ∨ j ≤ 1 := by
    omega
  rcases hcases with hr | rfl | ⟨hl, hr⟩ | ⟨hl, hr⟩ | rfl | rfl | ⟨hl, hr⟩ | ⟨hl, hr⟩ | hr
  · exact getLsbD_eq_of_bits htop hr (by omega)
  · exact hfk
  · exact getLsbD_eq_of_bits hf hl hr
  · exact getLsbD_eq_of_bits hrm hl hr
  · exact hgz
  · exact hgn
  · exact getLsbD_eq_of_bits hgp hl hr
  · exact getLsbD_eq_of_bits hopc hl hr
  · exact getLsbD_eq_of_bits hlen (Nat.zero_le j) hr

@[simp] theorem Prefix.encode_opc (p : Prefix) : bits p.encode 9 2 = 1 := by simp [Prefix.encode]
@[simp] theorem Prefix.encode_len (p : Prefix) : bits p.encode 1 0 = 0 := by simp [Prefix.encode]
@[simp] theorem Prefix.encode_top (p : Prefix) : bits p.encode 31 27 = 0 := by simp [Prefix.encode]

theorem code_of_opcodeOf : ∀ n : Fin 256, (opcodeOf n.val).all (fun o => o.code == n.val) = true := by decide +kernel

theorem eq_code_of_opcodeOf {w : Word} {o : Opc} (h : opcodeOf (bits w 9 2).toNat = some o) :
    bits w 9 2 = BitVec.ofNat 8 o.code := by
  have hc := code_of_opcodeOf (bits w 9 2).toFin
  rw [BitVec.val_toFin, h] at hc
  rw [beq_iff_eq.1 hc, BitVec.ofNat_toNat, BitVec.setWidth_eq]

theorem prefixOf_encode {w0 : Word} (hopc : opcodeOf (bits w0 9 2).toNat = some .pfx) (hlen : bits w0 1 0 = 0)
    (htop : bits w0 31 27 = 0) : (prefixOf w0).encode = w0 :=
  eq_of_prefixOf (by simp) (by simp [htop]) ((Prefix.encode_opc _).trans (eq_code_of_opcodeOf hopc).symm) (by simp [hlen])

@[simp] theorem extract_opc (o : Opc) (x : Words) : (extract o x).opc = some o := by cases o <;> rfl

theorem extract_not_prefixed (o : Opc) (x : Words) : (extract o x).form.isPrefixed = false := by
  obtain ⟨w0, ext, lit⟩ := x
  cases ext <;> cases o <;> rfl

theorem Instr.exists_of_opc_pfx {i : Instr} (h : i.opc = some .pfx) : ∃ p w lit, i = .pfx p w lit := by
  cases i with
  | pfx p w lit => exact ⟨p, w, lit, rfl⟩
  | _ => cases h

theorem Instr.wf_pfx (p : Prefix) (w : Word) (lit : Option Dword) :
    (Instr.pfx p w lit).wf = (lit.isSome == (prefixEligible w && (bits w 1 0).toNat == 1)) := rfl

theorem encode_pfx_none (p : Prefix) (w : Word) : encode (.pfx p w none) = [p.encode, w] := rfl

theorem encode_pfx_some (p : Prefix) (w : Word) (l : Dword) :
    encode (.pfx p w (some l)) = [p.encode, w, l.setWidth 32, (l >>> 32).setWidth 32] := rfl

/-- A PFX pair is split as its encoder joins it (R86, R107). -/
theorem decode_encode_pfx {p : Prefix} {w : Word} {lit : Option Dword} (h : (Instr.pfx p w lit).wf = true) :
    decode (encode (.pfx p w lit)) = .ok (.pfx p w lit) := by
  have hlit : lit.isSome = (prefixEligible w && (bits w 1 0).toNat == 1) := beq_iff_eq.1 h
  have hopc : opcodeOf (bits p.encode 9 2).toNat = some .pfx := by rw [p.encode_opc]; rfl
  cases lit with
  | none =>
    rw [encode_pfx_none, decode_pfx hopc]
    simpa [decodePrefix] using hlit
  | some l =>
    rw [encode_pfx_some, decode_pfx hopc]
    simpa [decodePrefix] using hlit

theorem Instr.ReadFrom.decode_encode {i : Instr} {o : Opc} {w0 w2 : Word} (h : i.ReadFrom o w0 w2) (ho : o ≠ .pfx)
    (hill : i.illegal = none) : decode (encode i) = .ok i := by
  have hopc : opcodeOf (bits w0 9 2).toNat = some o := by
    rw [h.opc, BitVec.toNat_ofNat, Nat.mod_eq_of_lt o.code_lt, opcodeOf_code]
  have hself : encode i <+: w0 :: i.form.tailWords w2 := by rw [h.encode_eq]
  rw [h.encode_eq, decode_plain hopc ho]
  refine decodePlain_eq_ok.2 ⟨_, splitWords_tailWords h.len w2, ?_, hself, hill, h.extract_eq⟩
  rw [Form.split_w0, Form.toNat_len h.len]
  exact Form.contains_len h.check

/-- Every well-formed instruction decodes from its encoding. -/
theorem decode_encode {i : Instr} (h : i.wf = true) : decode (encode i) = .ok i := by
  have hwf := h
  unfold Instr.wf at h
  split at h
  · exact decode_encode_pfx hwf
  · exact decode_reserved (Option.isNone_iff_eq_none.1 h) []
  · next hpfx _ =>
    simp only [Bool.and_eq_true, Option.isNone_iff_eq_none, Bool.not_eq_true'] at h
    obtain ⟨⟨hopc, hill⟩, hp⟩ := h
    have hne : i.opc ≠ some .pfx := fun ho => by
      obtain ⟨p, w, lit, rfl⟩ := Instr.exists_of_opc_pfx ho
      exact hpfx p w lit rfl
    obtain ⟨o, w0, w2, ho, hread⟩ := Instr.exists_readFrom hopc hne hill hp
    exact hread.decode_encode (fun hpf => hne (hpf ▸ ho)) hill

theorem decode_of_encode_eq {ws : List Word} {i : Instr} (hwf : i.wf = true) (h : encode i = ws) : decode ws = .ok i :=
  h ▸ decode_encode hwf

theorem Instr.wf_of_legal {i : Instr} {o : Opc} (hopc : i.opc = some o) (ho : o ≠ .pfx) (hill : i.illegal = none)
    (hp : i.form.isPrefixed = false) : i.wf = true := by
  unfold Instr.wf
  split
  · exact absurd (Option.some.inj hopc).symm ho
  · cases hopc
  · simp [hopc, hill, hp]

theorem encode_of_decodePlain {o : Opc} {ws : List Word} {i : Instr} (ho : o ≠ .pfx) (h : decodePlain o ws = .ok i) :
    i.wf = true ∧ encode i <+: ws := by
  obtain ⟨x, -, -, hpre, hill, rfl⟩ := decodePlain_eq_ok.1 h
  exact ⟨Instr.wf_of_legal (extract_opc o x) ho hill (extract_not_prefixed o x), hpre⟩

theorem encode_of_decodePrefix {w0 : Word} {ws : List Word} {i : Instr} (hopc : opcodeOf (bits w0 9 2).toNat = some .pfx)
    (h : decodePrefix w0 ws = .ok i) : i.wf = true ∧ encode i <+: w0 :: ws := by
  unfold decodePrefix at h
  split at h
  · cases h
  next hlen =>
  split at h
  · cases h
  next htop =>
  have henc : (prefixOf w0).encode = w0 := prefixOf_encode hopc (by simpa [BitVec.toNat_eq] using hlen) (by simpa using htop)
  split at h
  · cases h
  next s rest =>
  split at h
  · next hlit =>
    split at h
    · cases h
      refine ⟨?_, by simp [encode_pfx_some, henc]⟩
      rw [Instr.wf_pfx, hlit]
      rfl
    · cases h
  · next hlit =>
    cases h
    refine ⟨?_, by simp [encode_pfx_none, henc]⟩
    rw [Instr.wf_pfx, Bool.eq_false_iff.2 hlit]
    rfl

/-- Words that decode begin with the encoding of a well-formed instruction, which is what they decode to. -/
theorem encode_of_decode {ws : List Word} {i : Instr} (h : decode ws = .ok i) : i.wf = true ∧ encode i <+: ws := by
  cases ws with
  | nil => cases h
  | cons w0 ws =>
    cases hopc : opcodeOf (bits w0 9 2).toNat with
    | none =>
      rw [decode_reserved hopc] at h
      cases h
      exact ⟨Option.isNone_iff_eq_none.2 hopc, List.prefix_append [w0] ws⟩
    | some o =>
      by_cases ho : o = .pfx
      · subst ho
        rw [decode_pfx hopc] at h
        exact encode_of_decodePrefix hopc h
      · rw [decode_plain hopc ho] at h
        exact encode_of_decodePlain ho h

end Sys2Proof
end

section
/-! SUPPORT. What a PFX pair executes as (R86 to R88), and what a memory instruction does for a group whose guards are all false
(R40, R75). -/

namespace Sys2Proof.Machine

/-! ## PFX pairs (R86 to R88) -/

theorem Instr.mapForm_opc (g : Form → Form) (i : Instr) : (i.mapForm g).opc = i.opc := by cases i <;> rfl

/-- The successor of a PFX has the form that is put in place of its own. -/
theorem form_mapForm_extract {o : Opc} (ho : o.prefixable = true) (g : Form → Form) (x : Words) :
    ((extract o x).mapForm g).form = g x.form := by
  cases o <;> simp only [Opc.prefixable, Bool.false_eq_true] at ho <;> rfl

theorem prefixEligible_opc {w : Word} {o : Opc} (hopc : opcodeOf (bits w 9 2).toNat = some o) (h : prefixEligible w = true) :
    o.prefixable = true := by
  simp only [prefixEligible, hopc, Bool.and_eq_true] at h
  exact h.1

/-- What a PFX pair executes as, where it is not refused (R87). -/
theorem prefixedInstr_eq_some {p : Prefix} {w : Word} {lit : Option Dword} {i : Instr} (h : prefixedInstr p w lit = some i) :
    ∃ o, opcodeOf (bits w 9 2).toNat = some o ∧ prefixEligible w = true ∧ i.illegal = none
      ∧ i = (extract o ⟨w, none, lit⟩).mapForm (fun f => { f with mods := .pfx p }) := by
  unfold prefixedInstr at h
  split at h
  · cases h
  next hel =>
  split at h
  · cases h
  next o hopc =>
  dsimp only at h
  split at h
  · cases h
  split at h
  · cases h
  next hill =>
  cases h
  exact ⟨o, hopc, by simpa using hel, hill, rfl⟩

/-- An instruction that a PFX may precede means the same in a pair, and goes on. -/
theorem execPrefixed_eq {i : Instr} {o : Opc} (hopc : i.opc = some o) (ho : o.prefixable = true) (s : State) :
    ∃ s', execPrefixed i s = .next s' ∧ exec i s = .next s' := by
  cases i with
  | mov | movl | add | sub | mul | mulhs | mulhu | min | max | minu | maxu | and | or | xor | andn | shl | shr | sar | rotl | fshl
  | popc | clz | brev | bfe | bfi | cmp | cmpu | lea | plop | ptov | vtop | sread | rng | cyc | divu | remu | fadd | fsub | fmul
  | ffma | fmin | fmax | fcmp | frnd | fcvt | fsf | fclass | hadd2 | hmul2 | hfma2 | hmax2 | hmin2 | pack2 | unpk2 | dadd | dmul
  | dfma | dcvt | fscl | fdiv => exact ⟨_, rfl, rfl⟩
  | _ => cases hopc <;> cases ho

theorem exec_pfx_some {p : Prefix} {w : Word} {lit : Option Dword} {i : Instr} (h : prefixedInstr p w lit = some i) (s : State) :
    exec (.pfx p w lit) s = execPrefixed i s := by
  show execPfx p w lit s = _
  rw [execPfx, h]

theorem exec_pfx_none {p : Prefix} {w : Word} {lit : Option Dword} (h : prefixedInstr p w lit = none) (s : State) :
    exec (.pfx p w lit) s = .next (s.raiseAll (trapOf 0x06)) := by
  show execPfx p w lit s = _
  rw [execPfx, h]

/-! ## Memory instructions of a group whose guards are all false (R40, R75) -/

/-- A group whose guards are all false goes on past an instruction that acts for its threads, whatever that does. -/
theorem forThreads_guardFalse {i : Instr} {s : State} (body : State → Workgroup → Thread → Res) (hnd : s.cur.keys.Nodup)
    (hj : ∀ j ∈ s.joins, ∀ k ∈ s.cur.keys, k ∉ j.waiting)
    (hl : ∀ k ∈ s.cur.keys, ∃ t w, s.thread k = some t ∧ s.wg k.wg = some w ∧ s.steps w = false ∧ t.guard i.form = false) :
    i.Did (fun _ t => t) s (s.forThreads i body) := by
  have hruns : i.Runs s := ⟨hnd, hj, fun k hk => by
    obtain ⟨t, w, ht, hw, hs, hg⟩ := hl k hk
    exact ⟨t, w, ht, hw, hs, fun h => absurd (hg.symm.trans h) Bool.false_ne_true⟩⟩
  refine forThreads_did hruns (fun _ _ => rfl) fun k hk s' t w _ ht _ hg => ?_
  obtain ⟨u, _, hu, _, _, hf⟩ := hl k hk
  obtain rfl : u = t := Option.some.inj (hu.symm.trans ht)
  exact absurd (hf.symm.trans hg) Bool.false_ne_true

theorem State.tagGroup_untagged {f : MemForm} (h : f.w2.tag = 0) (s : State) (i : Instr) : s.tagGroup i f = s := by
  simp [State.tagGroup, h]

theorem State.load_untagged {f : MemForm} (h : f.w2.tag = 0) (s : State) (i : Instr) (k : AccessKind) (sem : BitVec 2) :
    ∃ body, s.load i f k sem = .next (s.forThreads i body) := by
  unfold State.load
  simp only [State.tagGroup_untagged h]
  exact ⟨_, rfl⟩

/-- What R75 says holds of these memory instructions where no run-ahead tag is declared. -/
theorem exec_guardFalse_untagged {f : MemForm} {i : Instr} {s : State}
    (hi : i = .ld f ∨ i = .lda f ∨ i = .st f ∨ i = .str f ∨ i = .atom f ∨ i = .acas f ∨ i = .accadd f ∨ i = .accrd f
      ∨ i = .accclr f ∨ i = .cinv f ∨ i = .cwb f ∨ i = .zfill f)
    (htag : f.w2.tag = 0) (hnd : s.cur.keys.Nodup) (hj : ∀ j ∈ s.joins, ∀ k ∈ s.cur.keys, k ∉ j.waiting)
    (hl : ∀ k ∈ s.cur.keys, ∃ t w, s.thread k = some t ∧ s.wg k.wg = some w ∧ s.steps w = false ∧ t.guard f.fm = false) :
    ∃ s', exec i s = .next s' ∧ i.Did (fun _ t => t) s s' := by
  obtain ⟨hform, body, hbody⟩ : i.form = f.fm ∧ ∃ body, exec i s = .next (s.forThreads i body) := by
    rcases hi with rfl | rfl | rfl | rfl | rfl | rfl | rfl | rfl | rfl | rfl | rfl | rfl
    case inl | inr.inl => exact ⟨rfl, State.load_untagged htag s _ _ _⟩
    all_goals exact ⟨rfl, _, rfl⟩
  exact ⟨_, hbody, forThreads_guardFalse body hnd hj (by rw [hform]; exact hl)⟩

/-- LD with run-ahead tag 1 under the guard @p0. -/
def guardedTaggedLoad : MemForm :=
  { imm := 0, a := 4, d := 8
    fm := ⟨.ext { dscl := 0, clamp := 0, rm := 0, absC := false, absB := false, absA := false, negC := false, negB := false
                  negA := false, ak := false, ck := false, c := 0, gz := false, gn := false, gp := 0 }, none⟩
    w2 := { MemW2.base with tag := 1 } }

/-- The boot machine with its one thread, whose p0 is false, at execution. -/
def bootAtIssue : State :=
  { State.reset.placeInsn 32 0 with
    groups := [], cur := { id := 2, core := 0, pkg := 0, keys := [bootThread.key], insn := 0 } }

/-- It is an instruction that words stand for. -/
theorem guardedTaggedLoad_wf : (Instr.ld guardedTaggedLoad).wf = true := by decide

/-- The thread takes the tag, though its guard is false (R40). -/
theorem execLd_guardedTaggedLoad :
    ∃ s', exec (.ld guardedTaggedLoad) bootAtIssue = .next s' ∧ (s'.thread bootThread.key).map Thread.tag = some 1 :=
  ⟨_, rfl, by rfl⟩

end Sys2Proof.Machine
end

section
namespace Sys2Proof.Proofs

open Sys2Proof Machine Certificates

/-- Settles O57: by the layouts of the words, each operand is read back from its own bits; and the decoder takes only words that
begin with the encoding of what it has read. -/
theorem decodeEncode : Obligations.DecodeEncode := ⟨fun _ => decode_encode, fun _ _ => encode_of_decode⟩

/-- Settles O10: the pair is its successor with the form of the PFX, whose meaning in a pair is its own. -/
theorem prefixedPair : Obligations.PrefixedPair := by
  intro p w lit s
  constructor
  · intro i h
    obtain ⟨o, hopc, hel, hill, rfl⟩ := prefixedInstr_eq_some h
    have hpre := prefixEligible_opc hopc hel
    have hi := (Instr.mapForm_opc (fun f => { f with mods := .pfx p }) (extract o ⟨w, none, lit⟩)).trans (extract_opc o _)
    obtain ⟨s', hpair, halone⟩ := execPrefixed_eq hi hpre s
    exact ⟨form_mapForm_extract hpre _ _, hel, hi.trans hopc.symm, hill, s', (exec_pfx_some h s).trans hpair, halone⟩
  · intro h
    exact ⟨_, exec_pfx_none h s, rfl, rfl⟩

/-- Refutes O26: a load with a run-ahead tag gives the tag to every thread of its group that holds none, whatever its guard (R40),
so that a thread with a false guard does not keep its pending tag. -/
theorem not_guardFalseMemory : ¬ Obligations.GuardFalseMemory := by
  intro h
  obtain ⟨s', hexec, htag⟩ := execLd_guardedTaggedLoad
  obtain ⟨s'', hexec', hdid⟩ := h guardedTaggedLoad _ (.inl rfl) rfl bootAtIssue (by decide) (by decide)
    (fun k hk => ⟨bootThread, bootWg, by rw [List.mem_singleton.1 hk]; rfl, by rw [List.mem_singleton.1 hk]; rfl, rfl, by decide⟩)
  obtain rfl : s' = s'' := by rw [hexec] at hexec'; cases hexec'; rfl
  have hthread := hdid.group bootThread.key (by decide) bootThread bootWg rfl rfl
  rw [hthread] at htag
  exact absurd htag (by decide)

/-- Settles O56: each example is the encoding of the instruction that it stands for, which is well formed. -/
theorem decodeWords : Obligations.DecodeWords := by
  refine ⟨?_, ?_, ?_, ?_, ?_, ?_, ?_, ?_, ?_, ?_, ?_, ?_, ?_, ?_, ?_, ?_, ?_, ?_, ?_, ?_, ?_⟩
  all_goals exact decode_of_encode_eq (by decide) (by decide)

end Sys2Proof.Proofs
end

section
/-! SUPPORT. The branches of a group (R40, R102, R105): an instruction that only sends threads elsewhere. -/

namespace Sys2Proof.Machine

open Certificates

/-- Words from the PC (R70, R102). -/
theorem branchTo_eq_mul {n : Nat} (t : Thread) (off : BitVec n) : branchTo t off = t.pc + off.signExtend 64 * 4 := by
  rw [branchTo, ← BitVec.mul_twoPow_eq_shiftLeft]
  rfl

/-- A branch that is run for its group sends each thread where its body says, whether the thread counts as having taken it or not. -/
theorem turns_of_exec_forBranch {i : Instr} {takes : Thread → Bool} {body : State → Workgroup → Thread → Res}
    {ok : Workgroup → Thread → Prop} {go : Workgroup → Thread → Thread}
    (hexec : ∀ s, exec i s = .next (s.forBranch i takes body)) (hkey : ∀ w t, (go w t).key = t.key)
    (hbody : ∀ s w t, ok w t → body s w { t with took := takes t } = .go s { go w t with took := takes t }) : Turns i ok go := by
  intro s hr hok
  exact ⟨_, hexec s, forBranch_went hr hkey fun k hk s' t w _ ht hw hg => hbody s' w t (hok k hk t w ht hw hg)⟩

/-- The same for an instruction that keeps no account of the way that a thread took (KBRA). -/
theorem turns_of_exec_forThreads {i : Instr} {body : State → Workgroup → Thread → Res} {ok : Workgroup → Thread → Prop}
    {go : Workgroup → Thread → Thread} (hexec : ∀ s, exec i s = .next (s.forThreads i body))
    (hkey : ∀ w t, (go w t).key = t.key) (hbody : ∀ s w t, ok w t → body s w t = .go s (go w t)) : Turns i ok go := by
  intro s hr hok
  exact ⟨_, hexec s, forThreads_went hr hkey fun k hk s' t w _ ht hw hg => hbody s' w t (hok k hk t w ht hw hg)⟩

/-- NOP (R106). -/
theorem nop_gives : Gives .nop (fun _ t => t) := fun _ hr => alu_did hr fun _ _ => rfl

/-- BRA (R102): each thread goes to the target. -/
theorem bra_turns (off : BitVec 22) (fm : Form) :
    Turns (.bra off fm) (fun _ _ => True) (fun _ t => { t with pc := t.pc + off.signExtend 64 * 4 }) := by
  refine turns_of_exec_forBranch (fun _ => rfl) (fun _ _ => rfl) fun s w t _ => ?_
  rw [branchTo_eq_mul]
  rfl

/-- BRP (R102): a thread goes to the target where its predicate, negated by PN, is true, and on where it is false. -/
theorem brp_turns (off : BitVec 17) (pn : Bool) (pp : PReg) :
    Turns (.brp off pn pp) (fun _ _ => True) (fun _ t =>
      { t with pc := if (t.pred pp ^^ pn) = true then t.pc + off.signExtend 64 * 4 else t.pc + 4 }) := by
  refine turns_of_exec_forBranch (fun _ => rfl) (fun _ _ => rfl) fun s w t _ => ?_
  rw [branchTo_eq_mul, Bool.bne_eq_xor]
  change Res.go s (if (t.pred pp ^^ pn) = true then _ else _) = _
  split <;> rfl

/-- JMPR (R67, R102): where the operand is aligned, each thread goes to it. -/
theorem jmpr_turns (f : V3) :
    Turns (.jmpr f) (fun w t => bits (f.srcB64 w t) 1 0 = 0) (fun w t => { t with pc := f.srcB64 w t }) := by
  refine turns_of_exec_forBranch (fun _ => rfl) (fun _ _ => rfl) fun s w t haligned => ?_
  have hpass : ¬ (bits (f.srcB64 w t) 1 0 != 0) = true := by simp [haligned]
  exact if_neg hpass

/-- KBRA (R102, R105): a thread goes to the target where its k register is not zero, with KZ where it is zero, and on otherwise. -/
theorem kbra_turns (off : BitVec 15) (kz : Bool) (kr : BitVec 6) :
    Turns (.kbra off kz kr) (fun _ _ => True) (fun w t =>
      { t with pc := if (decide (kread w t kr.toNat ≠ 0) ^^ kz) = true then t.pc + off.signExtend 64 * 4 else t.pc + 4 }) := by
  refine turns_of_exec_forThreads (fun _ => rfl) (fun _ _ => rfl) fun s w t _ => ?_
  rw [branchTo_eq_mul, Bool.bne_eq_xor, bne, beq_eq_decide, ← decide_not]
  split <;> rfl

end Sys2Proof.Machine
end

section
namespace Sys2Proof.Proofs

open Sys2Proof Machine Certificates

/-- Settles O11: each of these instructions is run for the threads of its group, and what its body makes of one thread is the turn
that the statement names; a guard-false thread does not reach the body. -/
theorem branches : Obligations.Branches := ⟨nop_gives, bra_turns, brp_turns, jmpr_turns, kbra_turns⟩

end Sys2Proof.Proofs
end

section
/-! SUPPORT. Accumulation cells (R133 to R135): what CellAdd leaves while nothing overflows. -/

namespace Sys2Proof.Machine

/-! ## Cells -/

/-- The sums that N of a cell holds without overflow (R133). -/
def InCell (n : Int) : Prop := -(2 ^ 247 : Int) ≤ n ∧ n < 2 ^ 247

/-- What an addend adds to N: nothing where it is a NaN (R134). -/
def Num.inCell : Num → Int
  | .nan => 0
  | .inf s => if s then -(2 ^ 250 : Int) else 2 ^ 250
  | .fin s n d => cellAddend s n d

theorem inCell_cellN (c : BitVec 256) : InCell (cellN c) := ⟨BitVec.le_toInt _, BitVec.toInt_lt⟩

theorem cellOf_ov (n : Int) (nv ov : Bool) : bit (cellOf n nv ov) 0 = ov := by
  cases nv <;> cases ov <;> simp [cellOf]

theorem cellOf_nv (n : Int) (nv ov : Bool) : bit (cellOf n nv ov) 1 = nv := by
  cases nv <;> cases ov <;> simp [cellOf]

theorem cellN_cellOf {n : Int} (h : InCell n) (nv ov : Bool) : cellN (cellOf n nv ov) = n := by
  have hbits : bits (cellOf n nv ov) 255 8 = BitVec.ofInt 248 n := by
    apply BitVec.eq_of_getLsbD_eq
    intro i hi
    have h1 : 8 + i < 256 := by omega
    cases nv <;> cases ov <;> simp [cellOf, hi, h1]
  rw [cellN, hbits]
  exact BitVec.toInt_ofInt_eq_self (by omega) h.1 h.2

theorem cellAdd_nan (c : BitVec 256) : cellAdd c .nan = cellOf (cellN c) true (bit c 0) := rfl

/-- CellAdd of a value that is not a NaN saturates at the ends of N (R134). -/
theorem cellAdd_of_ne_nan (c : BitVec 256) {x : Num} (hx : x ≠ .nan) : cellAdd c x =
    if (2 ^ 247 : Int) - 1 < cellN c + x.inCell then cellOf ((2 ^ 247 : Int) - 1) (bit c 1) true
    else if cellN c + x.inCell < -(2 ^ 247 : Int) then cellOf (-(2 ^ 247 : Int)) (bit c 1) true
    else cellOf (cellN c + x.inCell) (bit c 1) (bit c 0) := by
  cases x with
  | nan => exact absurd rfl hx
  | inf s => rfl
  | fin s n d => rfl

/-- While N stays in range, CellAdd adds the addend to N and keeps OV (R134). -/
theorem cellAdd_inCell {c : BitVec 256} {x : Num} (h : InCell (cellN c + x.inCell)) :
    cellAdd c x = cellOf (cellN c + x.inCell) (bit c 1 || x == .nan) (bit c 0) := by
  obtain ⟨hlo, hhi⟩ := h
  by_cases hx : x = .nan
  · subst hx
    have hn : cellN c + Num.inCell .nan = cellN c := Int.add_zero _
    rw [cellAdd_nan, hn, beq_self_eq_true, Bool.or_true]
  · have hnan : (x == Num.nan) = false := by simpa using hx
    rw [cellAdd_of_ne_nan c hx, if_neg (by omega), if_neg (by omega), hnan, Bool.or_false]

/-- An addition that leaves OV clear has stayed in range, and found OV clear. -/
theorem inCell_of_cellAdd {c : BitVec 256} {x : Num} (h : bit (cellAdd c x) 0 = false) :
    InCell (cellN c + x.inCell) ∧ bit c 0 = false := by
  by_cases hx : x = .nan
  · subst hx
    rw [cellAdd_nan, cellOf_ov] at h
    exact ⟨(Int.add_zero _).symm ▸ inCell_cellN c, h⟩
  · rw [cellAdd_of_ne_nan c hx] at h
    split at h
    · cases (cellOf_ov _ _ _).symm.trans h
    split at h
    · cases (cellOf_ov _ _ _).symm.trans h
    · next hhi hlo => exact ⟨⟨by omega, by omega⟩, (cellOf_ov _ _ _).symm.trans h⟩

/-- Two additions without overflow leave the sum of the addends, and NV where one is a NaN. -/
theorem cellAdd_cellAdd {c : BitVec 256} {x y : Num} (h : bit (cellAdd (cellAdd c x) y) 0 = false) :
    cellAdd (cellAdd c x) y
      = cellOf (cellN c + (x.inCell + y.inCell)) (bit c 1 || (x == .nan || y == .nan)) false := by
  obtain ⟨hy, hov⟩ := inCell_of_cellAdd h
  obtain ⟨hx, hc⟩ := inCell_of_cellAdd hov
  have hadd := cellAdd_inCell hx
  rw [cellAdd_inCell hy, hov, hadd, cellN_cellOf hx, cellOf_nv, Int.add_assoc, Bool.or_assoc]

/-- Additions to a cell commute while nothing overflows (R135). -/
theorem cellAdd_comm {c : BitVec 256} {x y : Num} (h : bit (cellAdd (cellAdd c x) y) 0 = false)
    (h' : bit (cellAdd (cellAdd c y) x) 0 = false) : cellAdd (cellAdd c x) y = cellAdd (cellAdd c y) x := by
  rw [cellAdd_cellAdd h, cellAdd_cellAdd h', Int.add_comm x.inCell, Bool.or_comm (x == .nan)]

/-- A multiple of 2^−120 is added whole (R134). -/
theorem inCell_fin_pow (neg : Bool) (k : Nat) : Num.inCell (.fin neg k (2 ^ 120)) = if neg = true then -(k : Int) else k := by
  simp only [Num.inCell, cellAddend, Nat.mul_div_cancel k (Nat.two_pow_pos 120)]

end Sys2Proof.Machine
end

section
namespace Sys2Proof.Proofs

open Sys2Proof Machine Certificates

/-- Settles O23: without overflow two additions leave the sum of their addends, in either order, and a multiple of 2^−120 is its
own addend. -/
theorem cellsAreExact : Obligations.CellsAreExact := by
  refine ⟨fun c x y _ hxy hyx _ _ _ => cellAdd_comm hxy hyx, fun c neg k => ?_⟩
  intro d hlo hhi
  have hk : Num.inCell (.fin neg k (2 ^ 120)) = d := inCell_fin_pow neg k
  have hin : InCell (cellN c + Num.inCell (.fin neg k (2 ^ 120))) := by rw [hk]; exact ⟨hlo, hhi⟩
  rw [cellAdd_inCell hin, cellN_cellOf hin, cellOf_ov, hk]
  exact ⟨rfl, rfl⟩

end Sys2Proof.Proofs
end

section
/-! SUPPORT. The instruction of a lone thread whose step goes on: the thread becomes what its body says, and the rest of the state
is what the body leaves. -/

namespace Sys2Proof.Machine

open Certificates

/-- The state that the body of an instruction leaves, as far as the thread's group rests on it. -/
structure State.KeepsGroup (s x : State) : Prop where
  threads : x.threads = s.threads
  cur : x.cur = s.cur
  joins : x.joins = s.joins
  ctxs : x.ctxs = s.ctxs

theorem State.KeepsGroup.thread {s x : State} (h : s.KeepsGroup x) (k : Key) : x.thread k = s.thread k := by
  rw [State.thread, h.threads, State.thread]

theorem State.KeepsGroup.steps {s x : State} (h : s.KeepsGroup x) {w w' : Workgroup} (hs : w'.sstepEn = w.sstepEn)
    (hc : w'.ctxn = w.ctxn) : x.steps w' = s.steps w := by
  simp only [State.steps, State.ctx, h.ctxs, hs, hc]

/-- A lone thread that is put back forms its group again, and nothing else changes. -/
theorem went_setThread_formGroup {x : State} {t u : Thread} (hc : x.cur.keys = [t.key]) (ht : (x.thread t.key).isSome)
    (hu : u.key = t.key) :
    Went (fun _ _ => goes u) x ((x.setThread { u with took := false }).formGroup x.cur.core [t.key]) := by
  have hmem : ∀ k, k ∈ x.cur.keys ↔ k = t.key := fun k => by rw [hc, List.mem_singleton]
  have hself : (x.setThread { u with took := false }).thread t.key = some { u with took := false } := by
    have h := State.thread_setThread_same (s := x) (t := { u with took := false }) (by rw [← hu] at ht; exact ht)
    rw [← hu]
    exact h
  obtain ⟨-, -, -, hgroup⟩ := State.formGroup_all x.cur.core [[t.key]] (x.setThread { u with took := false }) (by simp)
  obtain ⟨g, hg, hcore, hkeys⟩ := hgroup [t.key] (List.mem_singleton_self _)
  refine ⟨fun k hk _ _ _ _ => ?_, fun k hk => ?_, ?_, fun k hk => ⟨g, hg, ?_, hcore, fun j hj => ?_⟩⟩
  · rw [(hmem k).1 hk, State.thread_formGroup, hself]
    simp [goes]
  · have hne : k ≠ t.key := fun h => hk ((hmem k).2 h)
    have hne' : k ≠ ({ u with took := false } : Thread).key := fun h => hne (h.trans hu)
    rw [State.thread_formGroup, State.thread_setThread_other hne']
    cases hx : x.thread k <;> simp [hne]
  · exact (State.sameBut_setThread x _).trans (State.sameBut_formGroup _ _ _)
  · rw [(hmem k).1 hk]
    exact (hkeys _).2 (List.mem_singleton_self _)
  · rw [List.mem_singleton.1 ((hkeys j).1 hj), (hmem k).1 hk]

/-- How much the count of identifiers has advanced is no matter. -/
theorem went_fresh {f : Workgroup → Thread → Thread} {x s' : State} (h : Went f x s') (n : Nat) :
    Went f { x with fresh := n } s' := ⟨h.group, h.others, by
      have hrest := h.rest
      unfold State.sameBut at hrest ⊢
      rw [← hrest], h.ready⟩

section
variable {i : Instr} {s x : State} {t u : Thread} {w w' : Workgroup} {body : State → Workgroup → Thread → Res}

/-- The step of a lone thread that goes on. -/
theorem went_of_alone (h : i.Alone s t w) (hb : body s w t = .go x u) (hk : u.key = t.key) (hx : s.KeepsGroup x)
    (hw : x.wg t.wg = some w') (hs : w'.sstepEn = w.sstepEn) (hc : w'.ctxn = w.ctxn) :
    Went (fun _ _ => goes u) x (s.forThreads i body) := by
  have hlive : (x.thread t.key).isSome := by rw [hx.thread, h.thread]; rfl
  rw [forThreads_go h hb hk hlive hw ((hx.steps hs hc).trans h.steps) ((hx.steps rfl rfl).trans h.steps) hx.cur hx.joins]
  exact went_setThread_formGroup (by rw [hx.cur, h.keys]) hlive hk

/-- The step of a lone thread that stores bytes of main memory. -/
theorem storesAt_of_alone {pa : Nat} {b : List Byte} (h : i.Alone s t w) (hexec : exec i s = .next (s.forThreads i body))
    (hb : body s w t = .go (s.bumpId.putBytes pa b) u) (hk : u.key = t.key) (hm : s.mem.wf = true) : StoresAt i s u pa b := by
  have hwent := went_of_alone h hb hk ⟨rfl, rfl, rfl, rfl⟩ h.wg rfl rfl
  have hrest := hwent.rest.eq
  refine ⟨_, hexec, stored_of_mem (State.stored_putBytes (s := s.bumpId) hm pa b) rfl (by rw [hrest]), ?_⟩
  have hfresh := went_fresh hwent s.fresh
  rw [hrest] at hfresh ⊢
  exact hfresh

/-- The step of a lone thread that changes nothing but the thread. -/
theorem becomes_of_alone (h : i.Alone s t w) (hexec : exec i s = .next (s.forThreads i body))
    (hb : body s w t = .go s u) (hk : u.key = t.key) : Becomes i s u :=
  ⟨_, hexec, went_of_alone h hb hk ⟨rfl, rfl, rfl, rfl⟩ h.wg rfl rfl⟩

end

end Sys2Proof.Machine
end

section
/-! SUPPORT. Accesses of a lone thread to main memory (R182, R194, R202), and the cell instructions (R205). -/

namespace Sys2Proof.Machine

open Certificates

/-! ## Memory operands -/

theorem src32_eq_bits (w : Workgroup) (t : Thread) (isK : Bool) (n : Reg) :
    (if isK = true then bits (kread w t n.toNat) 31 0 else t.reg n.toNat) = src32 w t isK n := by
  cases isK
  · rfl
  · apply BitVec.eq_of_toNat_eq
    simp [src32]

theorem mul_two_pow_eq_shiftLeft (x : Dword) (n : Nat) : x * 2 ^ n = x <<< n := by
  apply BitVec.eq_of_toNat_eq
  simp [BitVec.toNat_mul, BitVec.toNat_pow, Nat.shiftLeft_eq]

/-- The effective address as the statements write it (R182). -/
theorem addressOf_eq_memEa (f : MemForm) (unit : Nat) (w : Workgroup) (t : Thread) : addressOf f unit w t = memEa f unit w t := by
  have hoff : f.fm.lit.getD (f.imm.signExtend 64 * BitVec.ofNat 64 unit) = memOffset f unit := by
    unfold memOffset
    cases f.fm.lit <;> rfl
  have hix : ∀ ix : BitVec 2, ix = 0 ∨ ix = 1 ∨ ix = 2 ∨ ix = 3 := by decide
  unfold addressOf memEa memIndex
  simp only [hoff, src32_eq_bits, mul_two_pow_eq_shiftLeft]
  rcases hix f.w2.ix with h | h | h | h <;> rw [h] <;> rfl

theorem State.takeReplies_unanswered {s : State} {t : Thread} (h : Unanswered s t) : s.takeReplies t.key = none := by
  have hnil : s.replies.filter (fun r => r.key == t.key) = [] :=
    List.filter_eq_nil_iff.2 fun r hr => by simpa using h r hr
  simp [State.takeReplies, hnil]

/-- An operand that lands passes the checks of R194. -/
theorem State.memCheck_lands {s : State} {f : MemForm} {unit : Nat} {w : Workgroup} {t : Thread} {k : AccessKind} {l : Loc}
    (h : Lands s f unit w t k l) : ∃ ord, s.memCheck f unit w t k = .ok ⟨l, ord⟩ := by
  obtain ⟨ord, -, hcheck⟩ := h
  rw [addressOf_eq_memEa] at hcheck
  exact ⟨ord, hcheck⟩

/-- The access of a thread that no response waits for is made at the place where its operand lands. -/
theorem State.memAccess_lands {s : State} {f : MemForm} {unit : Nat} {w : Workgroup} {t : Thread} {k : AccessKind} {l : Loc}
    (h : Lands s f unit w t k l) (hu : Unanswered s t) (go : Target → Acc) :
    ∃ ord, s.memAccess f unit w t k go = .ok (go ⟨l, ord⟩) := by
  obtain ⟨ord, hcheck⟩ := State.memCheck_lands h
  exact ⟨ord, by simp only [State.memAccess, State.access, State.takeReplies_unanswered hu, hcheck]⟩

/-- The physical address of a leaf: the offset in the page is that of the virtual address (R190). -/
theorem State.leaf_pa {s : State} {x : Site} {ctxn root : Nat} {va : BitVec 80} {l : Leaf} (h : s.leaf x ctxn root va = some l) :
    ∃ frame size, l.pa = frame * 65536 + va.toNat % 2 ^ size := by
  obtain ⟨e, -, he⟩ := Option.bind_eq_some_iff.1 h
  unfold leafOf at he
  dsimp only at he
  split at he
  · cases he
  · cases he
    exact ⟨_, _, rfl⟩

theorem State.placeOf_main {s : State} {ctxn pa : Nat} {k : AccessKind} {acc : Bool} {l : Leaf}
    (h : s.placeOf ctxn k acc l = some (.main pa)) : pa = l.pa := by
  unfold State.placeOf at h
  split_ifs at h <;> cases h
  rfl

/-- An access of main memory: its address is aligned, and its place is behind a leaf of that address (R194). -/
theorem State.checkVa_main {s : State} {w : Workgroup} {x : Site} {k : AccessKind} {va : BitVec 80} {pa : Nat} {ord : Bool}
    (h : s.checkVa w x k va = .ok ⟨.main pa, ord⟩) :
    va.toNat % 2 ^ 68 % k.align = 0 ∧ ∃ ctxn root l, s.leaf x ctxn root va = some l ∧ pa = l.pa := by
  unfold State.checkVa at h
  dsimp only at h
  split at h
  · cases h
  split at h
  · cases h
  split at h
  · split_ifs at h
  split at h
  · cases h
  next halign =>
  split at h
  · split_ifs at h
    cases h
  split at h
  · split_ifs at h
    cases h
  split at h
  · cases h
  split at h
  · split_ifs at h
  split at h
  · cases h
  next l hl =>
  split at h
  · split_ifs at h
  split at h
  · cases h
  next p hp =>
  cases h
  exact ⟨by simpa using halign, _, _, l, hl, State.placeOf_main hp⟩

/-- A cell lies at a multiple of its 32 bytes (R133, R194). -/
theorem State.cell_aligned_of_lands {s : State} {f : MemForm} {unit : Nat} {w : Workgroup} {t : Thread} {k : AccessKind} {pa : Nat}
    (h : Lands s f unit w t k (.main pa)) (hk : k.align = 32) : pa % 32 = 0 := by
  obtain ⟨ord, -, hcheck⟩ := h
  unfold State.checkEa at hcheck
  split at hcheck
  · cases hcheck
  obtain ⟨halign, ctxn, root, l, hl, rfl⟩ := State.checkVa_main hcheck
  obtain ⟨frame, size, hpa⟩ := State.leaf_pa hl
  generalize (vaOf (addressOf f unit w t)).toNat = va at halign hpa
  have hdvd : 32 ∣ va := by rw [hk] at halign; omega
  have hoff : 32 ∣ va % 2 ^ size := by
    rcases Nat.le_total 5 size with hs | hs
    · exact (Nat.dvd_mod_iff (Nat.pow_dvd_pow 2 hs)).2 hdvd
    · rw [Nat.mod_eq_zero_of_dvd ((Nat.pow_dvd_pow 2 hs).trans hdvd)]
      exact Nat.dvd_zero 32
  omega

/-! ## Stores that wait -/

theorem ahead_eq_nil {p : Queued → Bool} {l : List Queued} (h : ∀ q ∈ l, p q = false) : ahead p l = [] := by
  induction l with
  | nil => rfl
  | cons x r ih =>
    have hr : ahead p r = [] := ih fun q hq => h q (List.mem_cons_of_mem x hq)
    simp [ahead, hr, h x List.mem_cons_self]

/-- A release of a thread for which no store waits does nothing (R226). -/
theorem State.release_drained {s : State} {t : Thread} (h : Drained s t) : s.release (s.coreOf t) t.key = s := by
  have hqueue : s.drainQueue t.key = s := by
    rw [State.drainQueue, ahead_eq_nil fun q hq => by simpa using (h q hq).2]
    rfl
  have hcore : s.coreOrder (s.coreOf t) = [] := by
    refine List.filter_eq_nil_iff.2 fun q hq => ?_
    simp [(h q hq).1]
  rw [State.release, hqueue, State.flushCore, hcore]
  rfl

/-! ## Writes and reads of a cell -/

/-- A write of a cell in a plain frame whose data is good. -/
theorem State.attempt_cell {s : State} {h : Held} {b : List Byte} (hc : h.op.isCell = true) (hp : s.isCmp h.pa = false)
    (hg : ∀ a ∈ s.poison, a < h.pa ∨ h.pa + 32 ≤ a) (hb : h.op.apply (memGetN s.mem h.pa 32) = some b)
    (hl : b.length = 32) : s.attempt h = .done (s.putBytes h.pa b) (memGetN s.mem h.pa 32) := by
  obtain ⟨id, vf, die, by', keys, pa, op, dest, site, need, expired⟩ := h
  have hgood := State.poisonAt_eq_false hg
  cases op with
  | cellAdd f v | cellClear =>
    simp_all [State.attempt, State.physWrite, MemOp.isRaw, State.plainWrite, State.badFor, MemOp.consumes, MemOp.len, State.healOp,
      MemOp.covers, State.heal, State.putBytes]
  | _ => cases hc

/-- A lone thread's write of a cell that it reaches. -/
theorem State.writeLoc_cell {s : State} {w : Workgroup} {t : Thread} {pa : Nat} {op : MemOp} {b : List Byte}
    (hs : Sound s t pa 32) (hc : op.isCell = true) (hb : op.apply (memGetN s.mem pa 32) = some b) (hl : b.length = 32)
    (sem : BitVec 2) (va : BitVec 80) (keys : List Key) :
    s.writeLoc w t (.main pa) op sem none va keys = .got (s.bumpId.putBytes pa b) (memGetN s.mem pa 32) := by
  have hq : s.queues pa op = none := by
    cases op with
    | cellAdd f v | cellClear => rfl
    | _ => cases hc
  have hattempt := State.attempt_cell (s := s.bumpId)
    (h := s.newHeld (vfOfCtx w.ctxn) (.thread t.wg t.tidx) keys pa op none (t.pc, s.cur.insn, va.setWidth 128))
    hc hs.plain hs.clean hb hl
  have hrel : (if op.isCell && !releases sem then s else s.release (s.coreOf t) t.key) = s := by
    rw [State.release_drained hs.queue, ite_self]
  simp only [State.writeLoc, State.writeMain, hs.link, Bool.not_true, Bool.false_eq_true, if_false, hq, hrel, State.writeHome,
    hattempt]
  rfl

/-- A lone thread reads a cell that it reaches past the stores that wait, of which there are none (R231). -/
theorem State.readCell_main {s : State} {w : Workgroup} {t : Thread} {pa : Nat} (hs : Sound s t pa 32) (ha : pa % 32 = 0)
    (f : MemForm) : s.readCell w t f (.main pa) = .got s (memGetN s.mem pa 32) := by
  have hrel : (if releases f.w2.sem then s.release (s.coreOf t) t.key else s) = s := by
    rw [State.release_drained hs.queue, ite_self]
  have hread : s.physRead pa 32 = some (memGetN s.mem pa 32) := by
    rw [State.physRead_plain hs.plain (by omega) hs.clean, memGetN_eq_map_range]
  have hover : s.overlay (.thread t.wg t.tidx) pa (memGetN s.mem pa 32) = memGetN s.mem pa 32 := by
    have hnone : s.held.filter (fun h => h.by' == .thread t.wg t.tidx) = [] :=
      List.filter_eq_nil_iff.2 fun h hh => by simpa using hs.held h hh
    rw [State.overlay, hnone]
    rfl
  simp only [State.readCell, hrel, hs.link, hread, hover, Bool.not_true, Bool.false_eq_true, if_false]

@[simp] theorem length_memGetN (m : Memory) (a n : Nat) : (memGetN m a n).length = n := by
  simp [memGetN_eq_map_range]

/-! ## The cell instructions (R134, R136, R205) -/

/-- What ACCADD adds, by its format (R134, R205). -/
theorem addendValue_accadd (op : BitVec 4) (t : Thread) (d : Nat) :
    addendValue op.toNat (if op == 0 then (t.reg d).setWidth 64 else t.pair d) = (match op with
      | 0 => Fmt.fp32.decode (t.reg d).toNat
      | 7 => Machine.Num.ofInt (t.pair d).toInt
      | 8 => Fmt.fp64.decode (t.pair d).toNat
      | o => addendValue o.toNat (t.pair d)) := by
  by_cases h0 : op = 0
  · subst h0
    have hreg : ((t.reg d).setWidth 64).toNat = (t.reg d).toNat := BitVec.toNat_setWidth_of_le (by decide)
    exact congrArg Fmt.fp32.decode hreg
  have hpair : (if op == 0 then (t.reg d).setWidth 64 else t.pair d) = t.pair d := if_neg (by simpa using h0)
  rw [hpair]
  split
  · exact absurd rfl h0
  · have hnat : BitVec.ofNat 64 (t.pair d).toNat = t.pair d := by simp
    exact congrArg (fun x : Dword => Machine.Num.ofInt x.toInt) hnat
  · rfl
  · rfl

/-- What ACCRD makes of the thread, from the cell (R136, R205). -/
def accrdResult (f : MemForm) (t : Thread) (cell : BitVec 256) : Thread :=
  if f.w2.op = 0 then t.setReg f.d.toNat (BitVec.ofNat 32 (cellRead cell 0))
  else t.setPair f.d.toNat (BitVec.ofNat 64 (cellRead cell f.w2.op.toNat))

@[simp] theorem accrdResult_key (f : MemForm) (t : Thread) (cell : BitVec 256) : (accrdResult f t cell).key = t.key := by
  unfold accrdResult
  split <;> simp

@[simp] theorem accrdResult_pc (f : MemForm) (t : Thread) (cell : BitVec 256) : (accrdResult f t cell).pc = t.pc := by
  unfold accrdResult
  split <;> simp [Thread.setPair]

section
variable {s : State} {t : Thread} {w : Workgroup} {f : MemForm} {pa : Nat} (hs : Sound s t pa 32)
include hs

/-- An instruction that writes a cell, for a lone thread that reaches it. -/
theorem storesAt_of_cellWrite {i : Instr} {op : Thread → MemOp} {b : List Byte} (hexec : exec i s = s.cellWrite i f op)
    (hwords : i.words = f.fm.words) (hm : s.mem.wf = true) (h : i.Alone s t w) (hl : Lands s f 32 w t (cellKind true) (.main pa))
    (hc : (op t).isCell = true) (hb : (op t).apply (memGetN s.mem pa 32) = some b) (hlen : b.length = 32) :
    StoresAt i s { t with pc := t.pc + BitVec.ofNat 64 (4 * f.fm.words) } pa b := by
  obtain ⟨ord, hacc⟩ := State.memAccess_lands hl hs.first
    (fun g => s.writeLoc w t g.loc (op t) f.w2.sem none (memVa f 32 w t) [t.key])
  rw [← hwords]
  refine storesAt_of_alone h hexec ?_ rfl hm
  dsimp only
  rw [hacc, State.writeLoc_cell hs hc hb hlen]
  rfl

theorem accadd_storesAt (hm : s.mem.wf = true) (h : (Instr.accadd f).Alone s t w)
    (hl : Lands s f 32 w t (cellKind true) (.main pa)) :
    StoresAt (.accadd f) s { t with pc := t.pc + BitVec.ofNat 64 (4 * f.fm.words) } pa
      (natLe 32 (cellAdd (BitVec.ofNat 256 (leNat (memGetN s.mem pa 32))) (addendValue f.w2.op.toNat
        (if f.w2.op == 0 then (t.reg f.d.toNat).setWidth 64 else t.pair f.d.toNat))).toNat) :=
  storesAt_of_cellWrite hs rfl rfl hm h hl rfl rfl (length_natLe _ _)

theorem accclr_storesAt (hm : s.mem.wf = true) (h : (Instr.accclr f).Alone s t w)
    (hl : Lands s f 32 w t (cellKind true) (.main pa)) :
    StoresAt (.accclr f) s { t with pc := t.pc + BitVec.ofNat 64 (4 * f.fm.words) } pa (List.replicate 32 0) :=
  storesAt_of_cellWrite hs rfl rfl hm h hl rfl rfl rfl

theorem accrd_becomes (h : (Instr.accrd f).Alone s t w) (hl : Lands s f 32 w t (cellKind false) (.main pa)) :
    Becomes (.accrd f) s { accrdResult f t (BitVec.ofNat 256 (leNat (memGetN s.mem pa 32))) with
      pc := t.pc + BitVec.ofNat 64 (4 * f.fm.words) } := by
  obtain ⟨ord, hacc⟩ := State.memAccess_lands hl hs.first (fun g => s.readCell w t f g.loc)
  refine becomes_of_alone h rfl ?_ (accrdResult_key f t _)
  dsimp only
  rw [hacc, State.readCell_main hs (State.cell_aligned_of_lands hl rfl)]
  have hres : ∀ cell, (if f.w2.op == 0 then t.setReg f.d.toNat (BitVec.ofNat 32 (cellRead cell f.w2.op.toNat))
      else t.setPair f.d.toNat (BitVec.ofNat 64 (cellRead cell f.w2.op.toNat))) = accrdResult f t cell := by
    intro cell
    unfold accrdResult
    by_cases h0 : f.w2.op = 0
    · simp [h0]
    · rw [if_neg h0, if_neg (by simpa using h0)]
  have htake : (memGetN s.mem pa 32).take 32 = memGetN s.mem pa 32 := List.take_of_length_le (by simp)
  simp only [Acc.res, htake, hres, Thread.onward, accrdResult_pc]
  rfl

end

end Sys2Proof.Machine
end

section
namespace Sys2Proof.Proofs

open Sys2Proof Machine Certificates

/-- Settles O22: the operand lands at a cell that the lone thread reaches past no store of its own, so that each instruction does
to its 32 bytes what CellAdd, the clear or the reading gives. -/
theorem cellInstructions : Obligations.CellInstructions := by
  intro s t w f pa hm hs
  refine ⟨fun h hl => ?_, fun h hl => accclr_storesAt hs hm h hl, fun h hl => accrd_becomes hs h hl⟩
  have hst := accadd_storesAt hs hm h hl
  rw [addendValue_accadd] at hst
  exact hst

end Sys2Proof.Proofs
end

section
/-! SUPPORT. What the engines share: runs of bytes in a canonical memory, the workgroup and the tile that an operation changes
(R240, R242), and the operations of a queue. -/

namespace Sys2Proof.Machine

open Certificates

/-! ## Numbers and bytes -/

theorem getD_natLe (n x : Nat) {j : Nat} (hj : j < n) : (natLe n x).getD j 0 = BitVec.ofNat 8 (x / 256 ^ j) := by
  induction n generalizing x j with
  | zero => omega
  | succ n ih =>
    cases j with
    | zero => simp [natLe]
    | succ j => rw [natLe, List.getD_cons_succ, ih _ (by omega), Nat.div_div_eq_div_mul, Nat.pow_succ']

/-- Bytes are those of the number that they hold. -/
theorem natLe_leNat (l : List Byte) : natLe l.length (leNat l) = l := by
  induction l with
  | nil => rfl
  | cons b l ih =>
    have hb := b.isLt
    have hdiv : (b.toNat + 256 * leNat l) / 256 = leNat l := by omega
    have hlow : BitVec.ofNat 8 (b.toNat + 256 * leNat l) = b := by
      apply BitVec.eq_of_toNat_eq
      simp only [BitVec.toNat_ofNat]
      omega
    rw [List.length_cons, leNat, natLe, hdiv, hlow, ih]

/-- The bytes that stand in a row of pieces of one size. -/
theorem getD_flatMap_range {α : Type} {f : Nat → List α} {k : Nat} (hf : ∀ i, (f i).length = k) (d : α) {n i j : Nat}
    (hi : i < n) (hj : j < k) : ((List.range n).flatMap f).getD (i * k + j) d = (f i).getD j d := by
  induction n with
  | zero => omega
  | succ n ih =>
    have hlen : ((List.range n).flatMap f).length = n * k := by simp [List.length_flatMap, hf]
    rw [List.range_succ, List.flatMap_append, List.flatMap_singleton]
    rcases Nat.lt_or_eq_of_le (Nat.le_of_lt_succ hi) with h | h
    · have hlt : i * k + j < n * k := by nlinarith
      rw [List.getD_append _ _ _ _ (by omega), ih h]
    · subst h
      rw [List.getD_append_right _ _ _ _ (by omega), hlen, Nat.add_sub_cancel_left]

theorem length_flatMap_range {α : Type} {f : Nat → List α} {k : Nat} (hf : ∀ i, (f i).length = k) (n : Nat) :
    ((List.range n).flatMap f).length = n * k := by
  simp [List.length_flatMap, hf]

/-- Runs of indices, one after another, are all the indices. -/
theorem flatten_map_range {α : Type} (g : Nat → α) (b n : Nat) :
    ((List.range n).map (fun h => (List.range b).map (fun j => g (b * h + j)))).flatten = (List.range (b * n)).map g := by
  induction n with
  | zero => rfl
  | succ n ih =>
    rw [List.range_succ, List.map_append, List.flatten_append, ih, Nat.mul_succ, List.range_add, List.map_append]
    simp

/-! ## Runs of bytes in memory -/

theorem memGetN_add (m : Memory) (a k n : Nat) : memGetN m a (k + n) = memGetN m a k ++ memGetN m (a + k) n := by
  simp [memGetN_eq_map_range, List.range_add, Nat.add_assoc]

theorem memSetN_append (m : Memory) (a : Nat) (l r : List Byte) :
    memSetN m a (l ++ r) = memSetN (memSetN m a l) (a + l.length) r := by
  induction l generalizing m a with
  | nil => rfl
  | cons b l ih => simp only [List.cons_append, memSetN, ih, List.length_cons, Nat.add_assoc, Nat.add_comm 1]

/-- Pieces of one size that are stored one after another are stored as one run. -/
theorem foldl_memSetN_range {f : Nat → List Byte} {k : Nat} (hf : ∀ i, (f i).length = k) (m : Memory) (a n : Nat) :
    (List.range n).foldl (fun m i => memSetN m (a + i * k) (f i)) m = memSetN m a ((List.range n).flatMap f) := by
  induction n with
  | zero => rfl
  | succ n ih =>
    rw [List.range_succ, List.foldl_append, ih, List.flatMap_append, memSetN_append, length_flatMap_range hf]
    simp

theorem getD_memGetN (m : Memory) (a : Nat) {n i : Nat} (hi : i < n) : (memGetN m a n).getD i 0 = memGet m (a + i) := by
  simp [memGetN_eq_map_range, List.getD_eq_getElem?_getD, hi]

/-- A run of bytes that is stored in a canonical memory. -/
theorem holds_memSetN {m : Memory} (hm : m.wf = true) (a : Nat) (l : List Byte) :
    Holds m (memSetN m a l) a l.length (fun i => l.getD i 0) := by
  intro x
  split
  · next hx =>
    obtain ⟨hlo, hhi⟩ := hx
    have hi : x - a < l.length := by omega
    have h := getD_memGetN (memSetN m a l) a hi
    rw [memGetN_memSetN_same hm] at h
    rw [Nat.add_sub_cancel' hlo] at h
    exact h.symm
  · next hx => exact memGet_memSetN_other (by omega)

/-- The same with the bytes told by place. -/
theorem holds_memSetN_of_getD {m : Memory} (hm : m.wf = true) (a : Nat) {l : List Byte} {n : Nat} {f : Nat → Byte}
    (hn : l.length = n) (hf : ∀ i, i < n → l.getD i 0 = f i) : Holds m (memSetN m a l) a n f := by
  intro x
  rw [holds_memSetN hm a l x, hn]
  split
  · next hx => exact hf _ (by omega)
  · rfl

/-! ## The workgroup that an operation changes -/

/-- A change of workgroups keeps their names. -/
def KeepsId (f : Workgroup → Workgroup) : Prop := ∀ w, (f w).id = w.id

theorem State.wg_modWg {f : Workgroup → Workgroup} (hf : KeepsId f) (s : State) (n k : Nat) :
    (s.modWg n f).wg k = (s.wg k).map (fun w => if k = n then f w else w) := by
  have hfind : (s.modWg n f).wg k = (s.wg k).map (fun w => if w.id == n then f w else w) := by
    refine find?_map_of_iff (p := fun w : Workgroup => w.id == k) s.wgs fun w => ?_
    split
    · rw [hf]
    · rfl
  rw [hfind]
  cases hw : s.wg k with
  | none => rfl
  | some w => simp [State.wg_id hw]

theorem State.wg_modWg_same {f : Workgroup → Workgroup} (hf : KeepsId f) {s : State} {n : Nat} {w : Workgroup}
    (hw : s.wg n = some w) :
    (s.modWg n f).wg n = some (f w) := by
  rw [State.wg_modWg hf, hw, Option.map_some, if_pos rfl]

theorem State.wg_modWg_other {f : Workgroup → Workgroup} (hf : KeepsId f) (s : State) {n k : Nat} (hk : k ≠ n) :
    (s.modWg n f).wg k = s.wg k := by
  rw [State.wg_modWg hf]
  simp [hk]

/-- Two changes of one workgroup are one. -/
theorem State.modWg_modWg {f : Workgroup → Workgroup} (hf : KeepsId f) (s : State) (n : Nat) (g : Workgroup → Workgroup) :
    (s.modWg n f).modWg n g = s.modWg n (g ∘ f) := by
  simp only [State.modWg, List.map_map]
  congr 2
  funext w
  by_cases hw : w.id = n
  · have hfw : (f w).id = n := (hf w).trans hw
    simp [hw, hfw]
  · simp [hw]

/-! ## Tiles (R240, R242) -/

/-- The arrival of bytes as the statements write it. -/
theorem arrive_eq_arrived (e : Tile) (n : Nat) : e.arrive n = arrived e n := by
  simp only [Tile.arrive, arrived, Tile.makeReady, Bool.and_eq_true, beq_iff_eq, decide_eq_true_eq]

/-- No tile begins to drain by an arrival. -/
theorem arrived_state_draining (e : Tile) (n : Nat) : (arrived e n).state = .draining ↔ e.state = .draining := by
  unfold arrived
  split
  · next h => simp [h.1]
  · rfl

/-- Arrivals at a tile add up. -/
theorem arrived_arrived (e : Tile) (n m : Nat) : arrived (arrived e n) m = arrived e (n + m) := by
  unfold arrived
  split
  · next h =>
    have hsum : e.state = .filling ∧ e.expected ≤ e.arrived + (n + m) := ⟨h.1, by omega⟩
    simp [hsum, Nat.add_assoc]
  · next h => simp [Nat.add_assoc]

/-- What an arrival with its ERR makes of a tile. -/
def arrivedErr (n err : Nat) (e : Tile) : Tile := { arrived e n with err := nextErr e.err err }

theorem arrivedErr_eq (n err : Nat) :
    arrivedErr n err = fun e => { arrived e n with err := if err = 0 then e.err else err } := by
  funext e
  simp [arrivedErr, nextErr]

theorem arrivedErr_zero (n : Nat) : arrivedErr n 0 = fun e => arrived e n := by
  funext e
  unfold arrivedErr arrived
  split <;> rfl

theorem State.arrive_eq (s : State) (wg tile n err : Nat) :
    s.arrive wg tile n err = s.modWg wg (fun w => { w with tiles := w.tiles.modify tile (arrivedErr n err) }) := by
  unfold State.arrive State.modTile arrivedErr
  simp only [arrive_eq_arrived]

/-! ## The end of an operation -/

theorem State.headOp_core {s : State} {core q : Nat} {o : Op} (h : s.headOp core q = some o) : o.core = core := by
  have := List.find?_some h
  simp_all

/-- The end of an operation none of whose tiles drains (R240). -/
theorem State.endOp_quiet {s : State} {o : Op} {reads : List Nat}
    (h : ∀ n ∈ reads, ∀ w, s.wg o.wg = some w → w.tileIs n .draining = false) :
    s.endOp o reads = { s with ops := s.ops.filter (fun x => x.id != o.id) } := by
  unfold State.endOp
  dsimp only
  have hwg : ∀ k, State.wg { s with ops := s.ops.filter (fun x => x.id != o.id) } k = s.wg k := fun _ => rfl
  induction reads with
  | nil => rfl
  | cons n r ih =>
    have hn : (s.wg o.wg).any (fun w => w.tileIs n .draining) = false := by
      cases hw : s.wg o.wg with
      | none => rfl
      | some w => exact h n List.mem_cons_self w hw
    rw [List.foldl_cons, hwg, hn, Bool.false_and, if_neg Bool.false_ne_true]
    exact ih fun m hm => h m (List.mem_cons_of_mem n hm)

/-! ## Errors -/

theorem State.eccClear_nil {s : State} (h : s.ecc = []) (f : Nat → Ecc) (a n : Nat) : s.eccClear f a n = s := by
  unfold State.eccClear
  rw [h, List.filter_nil, ← h]

theorem State.eccAt_nil {s : State} (h : s.ecc = []) (f : Nat → Ecc) (a n : Nat) : s.eccAt f a n = false := by
  simp [State.eccAt, h]

end Sys2Proof.Machine
end

section
/-! SUPPORT. The matrix queue (R242, R275, R283, R296): what its operations do to accumulator memory, and how they end. -/

namespace Sys2Proof.Machine

open Certificates

/-! ## The start, and the words of the array -/

theorem State.setOp_eq (s : State) (o : Op) :
    s.setOp o = { s with ops := s.ops.map (fun x => if x.id = o.id then o else x) } := by
  simp [State.setOp]

theorem execMmaStart_mma {s : State} {core : Nat} {o : Op} {m : MmaOp} (h : s.headOp core 4 = some o) (hb : o.body = .mma m) :
    execMmaStart core s = .next (s.setOp { o with started := true }) := by
  simp only [execMmaStart, h, hb]

/-- The first word of an operation's rows. -/
def MmaOp.base (m : MmaOp) (core : Nat) : Nat :=
  core * 2 ^ 18 + m.acc * 32768 + 4 * ((m.sparse.map (fun x => 16 * x.1)).getD 0 * 128)

/-- The words of an operation stand one after another. -/
theorem MmaOp.place_eq (m : MmaOp) (core i : Nat) : m.place core i = m.base core + i * 4 := by
  unfold MmaOp.place MmaOp.base accAddr
  omega

/-- The new bytes of a word. -/
def State.mmaBytes (s : State) (core : Nat) (m : MmaOp) (i : Nat) : List Byte :=
  natLe 4 (s.mmaWord core m (i / 128) (i % 128) (leNat (memGetN s.accmem (m.base core + i * 4) 4)))

@[simp] theorem State.length_mmaBytes (s : State) (core : Nat) (m : MmaOp) (i : Nat) : (s.mmaBytes core m i).length = 4 :=
  length_natLe _ _

theorem State.mmaErr_nil {s : State} (h : s.ecc = []) (core : Nat) (m : MmaOp) : s.mmaErr core m = false := by
  simp [State.mmaErr, h]

/-- Without errors the words of an operation are stored as one run. -/
theorem State.mmaRun_eq {s : State} (h : s.ecc = []) (core : Nat) (m : MmaOp) :
    s.mmaRun core m = memSetN s.accmem (m.base core) ((List.range (m.rows * 128)).flatMap (s.mmaBytes core m)) := by
  rw [← foldl_memSetN_range (fun i => s.length_mmaBytes core m i)]
  simp only [State.mmaRun, State.mmaErr_nil h, Bool.false_eq_true, if_false, MmaOp.place_eq, State.mmaBytes]

theorem State.holds_mmaRun {s : State} (h : s.ecc = []) (hw : s.accmem.wf = true) (core : Nat) (m : MmaOp) :
    Holds s.accmem (s.mmaRun core m) (m.base core) (m.rows * 128 * 4)
      (fun i => (s.mmaBytes core m (i / 4)).getD (i % 4) 0) := by
  rw [State.mmaRun_eq h]
  refine holds_memSetN_of_getD hw _ (length_flatMap_range (fun i => s.length_mmaBytes core m i) _) fun i hi => ?_
  have hsplit := Nat.div_add_mod' i 4
  have hb := getD_flatMap_range (fun i => s.length_mmaBytes core m i) 0 (n := m.rows * 128) (i := i / 4) (j := i % 4)
    (by omega) (by omega)
  rw [hsplit] at hb
  exact hb

/-- Bytes of a run read as they are held. -/
theorem memGetN_of_holds {m m' : Memory} {a n : Nat} {f : Nat → Byte} (h : Holds m m' a n f) {i k : Nat} (hk : i + k ≤ n) :
    memGetN m' (a + i) k = (List.range k).map (fun j => f (i + j)) := by
  rw [memGetN_eq_map_range]
  refine List.map_congr_left fun j hj => ?_
  have hj := List.mem_range.1 hj
  rw [h, if_pos (by omega)]
  congr 1
  omega

/-- The new value of each word of an operation (R131, R275). -/
theorem State.mmaRun_word {s : State} (h : s.ecc = []) (hw : s.accmem.wf = true) (core : Nat) (m : MmaOp) {i : Nat}
    (hi : i < m.rows * 128) : leNat (memGetN (s.mmaRun core m) (m.base core + i * 4) 4)
      = s.mmaWord core m (i / 128) (i % 128) (leNat (memGetN s.accmem (m.base core + i * 4) 4)) % 2 ^ 32 := by
  have hrow : (List.range 4).map (fun j => (s.mmaBytes core m ((i * 4 + j) / 4)).getD ((i * 4 + j) % 4) 0)
      = s.mmaBytes core m i := by
    refine List.ext_getElem (by simp) fun j hj hlen => ?_
    have hj : j < 4 := by simpa using hj
    have hdiv : (i * 4 + j) / 4 = i := by omega
    have hmod : (i * 4 + j) % 4 = j := by omega
    rw [List.getElem_map, List.getElem_range, hdiv, hmod, List.getD_eq_getElem _ _ hlen]
  rw [memGetN_of_holds (State.holds_mmaRun h hw core m) (by omega), hrow, State.mmaBytes, leNat_natLe]
  rfl

/-! ## The end of an operation of the array (R271, R275) -/

/-- What the end of an operation of the array leaves of its workgroup: its packets are gone, and 64 bytes have arrived. -/
def MmaOp.ended (m : MmaOp) (o : Op) (w : Workgroup) : Workgroup :=
  { w with packets := w.packets.filter (fun p => p.reserved != some o.id)
           tiles := w.tiles.modify m.ctile (arrivedErr 64 o.err) }

theorem MmaOp.ended_keepsId (m : MmaOp) (o : Op) : KeepsId (m.ended o) := fun _ => rfl

/-- The workgroup as the statement writes it. -/
theorem MmaOp.modWg_ended (m : MmaOp) (s : State) (o : Op) : s.modWg o.wg (m.ended o) = { s with
    wgs := s.wgs.map (fun y => if y.id = o.wg then
      { y with packets := y.packets.filter (fun p => p.reserved != some o.id)
               tiles := y.tiles.modify m.ctile (fun e => { arrived e 64 with err := if o.err = 0 then e.err else o.err }) }
      else y) } := by
  simp only [State.modWg, beq_iff_eq, MmaOp.ended, arrivedErr_eq]

theorem State.arrive_freePackets (s : State) (o : Op) (m : MmaOp) :
    (s.freePackets o).arrive o.wg m.ctile 64 o.err = s.modWg o.wg (m.ended o) := by
  rw [State.arrive_eq, State.freePackets, State.modWg_modWg]
  · rfl
  · exact fun _ => rfl

/-- An arrival makes no tile of a workgroup drain, or end to. -/
theorem tileIs_draining_modify {w w' : Workgroup} {c n err : Nat} (h : w'.tiles = w.tiles.modify c (arrivedErr n err)) (k : Nat) :
    w'.tileIs k .draining = w.tileIs k .draining := by
  simp only [Workgroup.tileIs, Workgroup.tile, h, List.getElem?_modify]
  cases w.tiles[k]? with
  | none => rfl
  | some e =>
    by_cases hc : c = k
    · have hst := arrived_state_draining e n
      simp only [hc, if_true, Option.map_eq_map, Option.map_some, Option.any_some, arrivedErr]
      rw [Bool.eq_iff_iff, beq_iff_eq, beq_iff_eq, hst]
    · simp [hc]

theorem execMmaComplete_started {s : State} {core : Nat} {o : Op} {m : MmaOp} {w : Workgroup} (h : s.headOp core 4 = some o)
    (hb : o.body = .mma m) (hst : o.started = true) (he : s.ecc = []) (hw : s.wg o.wg = some w)
    (hd : ∀ n ∈ m.tiles, w.tileIs n .draining = false) :
    execMmaComplete core s = .next { s.modWg o.wg (m.ended o) with
      accmem := s.mmaRun core m, ops := s.ops.filter (fun x => x.id != o.id) } := by
  have hclear : ∀ l : List Nat, l.foldl (fun x i => State.eccClear x .acc (m.place core i) 4) { s with accmem := s.mmaRun core m }
      = { s with accmem := s.mmaRun core m } :=
    List.foldl_fixed' fun i => State.eccClear_nil (s := { s with accmem := s.mmaRun core m }) he _ _ _
  have hquiet : ∀ n ∈ m.tiles, ∀ y, (State.modWg { s with accmem := s.mmaRun core m } o.wg (m.ended o)).wg o.wg = some y →
      y.tileIs n .draining = false := by
    intro n hn y hy
    obtain rfl := Option.some.inj ((State.wg_modWg_same (m.ended_keepsId o) hw).symm.trans hy)
    rw [tileIs_draining_modify (w := w) rfl, hd n hn]
  simp only [execMmaComplete, h, hb, hst, State.mmaErr_nil he, Bool.not_true, Bool.false_eq_true, if_false, hclear,
    State.arrive_freePackets, State.endOp_quiet hquiet]
  rfl

/-- An INT8 entry of operand memory. -/
theorem State.toInt_operand_int8 (s : State) (core slot row k : Nat) :
    (BitVec.ofNat 8 (s.operand core slot row k 5)).toInt
      = (memGet s.opmem (core * 2 ^ 20 + slot * 16384 + row * 256 + k)).toInt := by
  have hnat : s.operand core slot row k 5
      = (memGet s.opmem (core * 2 ^ 20 + slot * 16384 + row * 256 + k * 1)).toNat + 256 * 0 := rfl
  rw [hnat, Nat.mul_one, Nat.mul_zero, Nat.add_zero, BitVec.ofNat_toNat, BitVec.setWidth_eq]

/-- The sum of products of INT8 operands (R132). -/
theorem State.mmaWord_int8 {m : MmaOp} (ha : m.fmtA = 5) (hb : m.fmtB = 5) (hs : m.sparse = none) (s : State) (core r n old : Nat) :
    s.mmaWord core m r n old = (BitVec.ofInt 32 ((if m.ovw = true then 0 else (old : Int))
      + ((List.range (16 * m.kch)).map (fun k =>
        (memGet s.opmem (core * 2 ^ 20 + m.aslot * 16384 + r * 256 + k)).toInt
          * (memGet s.opmem (core * 2 ^ 20 + (m.bslot + n / 64) * 16384 + n % 64 * 256 + k)).toInt)).sum)).toNat := by
  have hks : ((List.range m.chunks).map (m.chunk r)).flatten = (List.range (16 * m.kch)).map (fun k => (k, k)) := by
    rw [← flatten_map_range (fun k => (k, k))]
    simp only [MmaOp.chunks, hs, Option.isSome_none, Bool.false_eq_true, if_false]
    congr 2
    funext h
    simp only [MmaOp.chunk, hs]
  have hold : ((if m.ovw = true then 0 else old : Nat) : Int) = if m.ovw = true then 0 else (old : Int) := by
    split <;> rfl
  simp only [State.mmaWord, ha, hb, hks, List.map_map, beq_self_eq_true, if_true, hold, Function.comp_def, State.toInt_operand_int8]

end Sys2Proof.Machine
end

section
/-! SUPPORT. The other operations of the matrix queue (R242, R283), where no memory holds an error. -/

namespace Sys2Proof.Machine

open Certificates

theorem accAddr_zero (core a : Nat) : accAddr core a 0 = core * 2 ^ 18 + a * 32768 := by
  simp [accAddr]

/-! ## Accumulator words -/

section
variable {s : State} (he : s.ecc = [])
include he

theorem State.accWord_clean (core a i : Nat) :
    s.accWord core a i = leNat (memGetN s.accmem (core * 2 ^ 18 + a * 32768 + 4 * i) 4) := by
  rw [State.accWord, State.eccAt_nil he, if_neg Bool.false_ne_true, accAddr]

theorem State.accErr_clean (core a : Nat) : s.accErr core a = 0 := by
  rw [State.accErr, State.eccAt_nil he, if_neg Bool.false_ne_true]

theorem State.logAcc_clean (o : Op) (a : Nat) : s.logAcc o a = s := by
  rw [State.logAcc, State.accErr_clean he]
  rfl

/-- The bytes of an accumulator tile are those of its words. -/
theorem State.getD_accBytes (core a : Nat) {i : Nat} (hi : i < 32768) :
    (s.accBytes core a).getD i 0 = memGet s.accmem (core * 2 ^ 18 + a * 32768 + i) := by
  have hsplit := Nat.div_add_mod' i 4
  have hword := getD_flatMap_range (f := fun i => natLe 4 (s.accWord core a i)) (fun _ => length_natLe 4 _) 0
    (n := 8192) (i := i / 4) (j := i % 4) (by omega) (by omega)
  have hbytes := natLe_leNat (memGetN s.accmem (core * 2 ^ 18 + a * 32768 + 4 * (i / 4)) 4)
  rw [length_memGetN] at hbytes
  have haddr : core * 2 ^ 18 + a * 32768 + 4 * (i / 4) + i % 4 = core * 2 ^ 18 + a * 32768 + i := by omega
  rw [hsplit, State.accWord_clean he, hbytes, getD_memGetN _ _ (by omega), haddr] at hword
  exact hword

end

/-! ## Stores in a tile of the scratchpad -/

/-- A workgroup after bytes have been stored in its scratchpad and have arrived at a tile. -/
def Workgroup.tileStored (w : Workgroup) (off tile : Nat) (b : List Byte) : Workgroup :=
  { w.spadPut off b with tiles := w.tiles.modify tile (arrivedErr b.length 0) }

theorem Workgroup.tileStored_keepsId (off tile : Nat) (b : List Byte) : KeepsId (fun w => w.tileStored off tile b) := fun _ => rfl

/-- The end of an operation that has stored bytes in a tile of the scratchpad. -/
theorem State.storeTile_ends {s : State} {o : Op} {tile off : Nat} {w : Workgroup} {e : Tile} (hw : s.wg o.wg = some w)
    (ht : w.tiles[tile]? = some e) (hk : e.kind = .spad) (b : List Byte) :
    ((s.storeTile o tile off b).arrive o.wg tile b.length 0).endOp o []
      = { s.modWg o.wg (fun w => w.tileStored (64 * e.base + off) tile b) with ops := s.ops.filter (fun x => x.id != o.id) } := by
  have htile : (s.wg o.wg).bind (fun w => w.tile tile) = some e := by rw [hw]; exact ht
  have hloc : tileLoc e off = .spad (64 * e.base + off) := by rw [tileLoc, hk]
  have hstore : s.storeTile o tile off b = s.modWg o.wg (fun w => w.spadPut (64 * e.base + off) b) := by
    simp only [State.storeTile, htile, hloc]
  rw [hstore, State.arrive_eq, State.modWg_modWg, State.endOp_quiet (by simp)]
  · rfl
  · exact fun _ => rfl

/-- What the end of an operation that stores in the scratchpad leaves. -/
theorem exists_tileStored {s : State} {i : Instr} {o : Op} {tile off n : Nat} {w : Workgroup} {e : Tile} {b : List Byte}
    {byte : Nat → Byte} (hw : s.wg o.wg = some w) (ht : w.tiles[tile]? = some e) (hk : e.kind = .spad) (hwf : w.spad.wf = true)
    (herr : w.spadErr = []) (hexec : exec i s = .next (((s.storeTile o tile off b).arrive o.wg tile b.length 0).endOp o []))
    (hlen : b.length = n) (hbyte : ∀ j, j < n → b.getD j 0 = byte j) :
    ∃ (s' : State) (y : Workgroup), exec i s = .next s' ∧ s'.wg o.wg = some y
      ∧ Holds w.spad y.spad (64 * e.base + off) n byte
      ∧ y = { w with spad := y.spad, tiles := w.tiles.modify tile (fun e => arrived e n) }
      ∧ s' = { s with ops := s.ops.filter (fun x => x.id != o.id), wgs := s'.wgs }
      ∧ ∀ k, k ≠ o.wg → s'.wg k = s.wg k := by
  rw [State.storeTile_ends hw ht hk] at hexec
  have hid := Workgroup.tileStored_keepsId (64 * e.base + off) tile b
  refine ⟨_, _, hexec, State.wg_modWg_same hid hw, holds_memSetN_of_getD hwf _ hlen hbyte, ?_, rfl,
    fun k hk => State.wg_modWg_other hid s hk⟩
  have herr' : (w.spadErr.filter fun a => a < 64 * e.base + off || 64 * e.base + off + b.length ≤ a) = w.spadErr := by
    rw [herr, List.filter_nil]
  simp only [Workgroup.tileStored, Workgroup.spadPut, arrivedErr_zero, hlen] at herr' ⊢
  rw [herr']

/-! ## The operations (R283) -/

section
variable {s : State} {core : Nat} {o : Op} (h : s.headOp core 4 = some o)
include h

theorem execMqOpComplete_head : exec (.mqOpComplete core) s = .next (s.mqRun o) := by
  show execMqOpComplete core s = _
  rw [execMqOpComplete, h]

theorem execMqOpComplete_accz (he : s.ecc = []) {a : Nat} (hb : o.body = .accz a) :
    exec (.mqOpComplete core) s = .next { s with
      accmem := memDrop s.accmem (core * 2 ^ 18 + a * 32768) 32768, ops := s.ops.filter (fun x => x.id != o.id) } := by
  rw [execMqOpComplete_head h, State.mqRun]
  simp only [hb, State.eccClear_nil he, State.headOp_core h, accAddr_zero]
  rw [State.endOp_quiet (by simp)]

theorem execMqOpComplete_accld (he : s.ecc = []) {w : Workgroup} (hw : s.wg o.wg = some w) (hs : w.spadErr = [])
    {a tile off : Nat} {e : Tile} (hb : o.body = .accld a tile off) (ht : w.tiles[tile]? = some e) (hd : e.state ≠ .draining) :
    exec (.mqOpComplete core) s = .next { s with
      accmem := memSetN s.accmem (core * 2 ^ 18 + a * 32768)
        ((List.range 32768).map (fun i => memGet w.spad (64 * e.base + off + i)))
      ops := s.ops.filter (fun x => x.id != o.id) } := by
  have hbase : ((w.tile tile).map (·.base)).getD 0 = e.base := by rw [Workgroup.tile, ht]; rfl
  have hgood : ∀ x n, w.spadBad x n = false := fun x n => by rw [Workgroup.spadBad, hs]; rfl
  have hquiet : w.tileIs tile .draining = false := by
    rw [Workgroup.tileIs, Workgroup.tile, ht]
    simpa using hd
  have hend : ∀ m, State.endOp { s with accmem := m } o [tile]
      = { s with accmem := m, ops := s.ops.filter (fun x => x.id != o.id) } := by
    refine fun m => State.endOp_quiet fun n hn y hy => ?_
    rw [List.mem_singleton.1 hn, Option.some.inj (hy.symm.trans hw), hquiet]
  rw [execMqOpComplete_head h, State.mqRun]
  simp only [hb, hw, hbase, hgood, Bool.false_eq_true, if_false, State.eccClear_nil he, State.headOp_core h, accAddr_zero, hend]

theorem execMqOpComplete_accst (he : s.ecc = []) {a tile off : Nat} (hb : o.body = .accst a tile off) :
    exec (.mqOpComplete core) s = .next (((s.storeTile o tile off (s.accBytes core a)).arrive o.wg tile 32768 0).endOp o []) := by
  rw [execMqOpComplete_head h, State.mqRun]
  simp only [hb, State.logAcc_clean he, State.accErr_clean he, State.headOp_core h]

/-- The bytes that an ACCCVT stores, but in mode SR (R283). -/
def State.cvtBytes (s : State) (core a : Nat) (src : Bool) (fmt : Nat) (dscl : BitVec 5) (clamp : BitVec 2)
    (rm : BitVec 3) :
    List Byte :=
  (List.range 8192).flatMap (fun i => natLe (elemBytes fmt) (cvtElem src fmt dscl clamp rm 0 (s.accWord core a i)))

theorem execMqOpComplete_acccvt (he : s.ecc = []) {w : Workgroup} (hw : s.wg o.wg = some w) {a tile off : Nat} {src : Bool}
    {fmt : BitVec 4} {dscl : BitVec 5} {clamp : BitVec 2} {rm : BitVec 3} {k0 k1 c0 c1 : Word}
    (hb : o.body = .acccvt a tile off src fmt dscl clamp rm k0 k1 c0 c1) (hrm : rm ≠ 5) :
    exec (.mqOpComplete core) s = .next (((s.storeTile o tile off (s.cvtBytes core a src fmt.toNat dscl clamp rm)).arrive o.wg tile
      (8192 * elemBytes fmt.toNat) 0).endOp o []) := by
  have hsr : (rm == 5) = false := by simpa using hrm
  rw [execMqOpComplete_head h, State.mqRun]
  simp only [hb, hw, hsr, Bool.false_eq_true, if_false, State.logAcc_clean he, State.accErr_clean he, State.headOp_core h,
    State.cvtBytes]

end

@[simp] theorem State.length_accBytes (s : State) (core a : Nat) : (s.accBytes core a).length = 32768 :=
  length_flatMap_range (fun _ => length_natLe 4 _) 8192

theorem State.length_cvtBytes (s : State) (core a : Nat) (src : Bool) (fmt : Nat) (dscl : BitVec 5) (clamp : BitVec 2)
    (rm : BitVec 3) :
    (s.cvtBytes core a src fmt dscl clamp rm).length = 8192 * elemBytes fmt :=
  length_flatMap_range (fun _ => length_natLe _ _) 8192

theorem State.getD_cvtBytes {s : State} (he : s.ecc = []) (core a : Nat) (src : Bool) (fmt : Nat) (dscl : BitVec 5)
    (clamp : BitVec 2) (rm : BitVec 3) {i : Nat} (hi : i < 8192 * elemBytes fmt) :
    (s.cvtBytes core a src fmt dscl clamp rm).getD i 0 = BitVec.ofNat 8 (cvtElem src fmt dscl clamp rm 0
      (leNat (memGetN s.accmem (core * 2 ^ 18 + a * 32768 + 4 * (i / elemBytes fmt)) 4)) / 256 ^ (i % elemBytes fmt)) := by
  have hpos : 0 < elemBytes fmt := Nat.pos_of_ne_zero fun h0 => by simp [h0] at hi
  have hmod := Nat.mod_lt i hpos
  have hdiv : i / elemBytes fmt < 8192 := Nat.div_lt_of_lt_mul (by rw [Nat.mul_comm]; exact hi)
  have h := getD_flatMap_range (f := fun i => natLe (elemBytes fmt) (cvtElem src fmt dscl clamp rm 0 (s.accWord core a i)))
    (fun _ => length_natLe _ _) 0 hdiv hmod
  rw [Nat.div_add_mod', getD_natLe _ _ hmod, State.accWord_clean he] at h
  exact h

end Sys2Proof.Machine
end

section
namespace Sys2Proof.Proofs

open Sys2Proof Machine Certificates

/-- The array's operation starts and ends as stated: its words stand one after another, and the sum of INT8 products is the new
word itself. -/
theorem matrixArray : Certificates.MatrixArray := by
  intro s core o m h hb
  refine ⟨?start, fun hst he hwf w hw hd => ?complete, fun ha hb' hs r n old => State.mmaWord_int8 ha hb' hs s core r n old⟩
  case start =>
    show execMmaStart core s = _
    rw [execMmaStart_mma h hb, State.setOp_eq]
  case complete =>
    intro rows row0 at'
    have hrows : m.rows = rows := by
      simp only [MmaOp.rows, rows]
      cases m.sparse <;> rfl
    have hplace : ∀ r n, at' r n = m.base core + (r * 128 + n) * 4 := by
      intro r n
      simp only [at', row0, MmaOp.base]
      omega
    have hrun := State.holds_mmaRun he hwf core m
    refine ⟨_, execMmaComplete_started h hb hst he hw hd, fun r n hr hn => ?_, fun a ha => ?_, ?_⟩
    · have hdiv : (r * 128 + n) / 128 = r := by omega
      have hmod : (r * 128 + n) % 128 = n := by omega
      have hword := State.mmaRun_word he hwf core m (i := r * 128 + n) (by omega)
      rw [hdiv, hmod, ← hplace] at hword
      exact hword
    · rw [hplace, hplace] at ha
      exact (hrun a).trans (if_neg (by omega))
    · rw [MmaOp.modWg_ended]

/-- The other operations of the matrix queue. -/
theorem matrixQueueEnds : Certificates.MatrixQueueEnds := by
  intro s core o w h hw he hs hacc hspad acc left stores
  refine ⟨fun a hb => ?accz, fun a tile off e hb ht hd => ?accld, fun a tile off e hb ht hk => ?accst,
    fun a tile off src fmt dscl clamp rm k0 k1 c0 c1 e hb ht hk hrm => ?acccvt⟩
  case accz => exact ⟨_, memGet_memDrop _ _ _, execMqOpComplete_accz h he hb⟩
  case accld =>
    refine ⟨_, holds_memSetN_of_getD hacc _ (by simp) fun i hi => ?_, execMqOpComplete_accld h he hw hs hb ht hd⟩
    simp [List.getD_eq_getElem?_getD, hi]
  case accst =>
    have hexec := execMqOpComplete_accst h he hb
    rw [← State.length_accBytes s core a] at hexec
    exact exists_tileStored hw ht hk hspad hs hexec (State.length_accBytes s core a) fun i hi => State.getD_accBytes he core a hi
  case acccvt =>
    have hlen := State.length_cvtBytes s core a src fmt.toNat dscl clamp rm
    have hexec := execMqOpComplete_acccvt h he hw hb hrm
    rw [← hlen] at hexec
    exact exists_tileStored hw ht hk hspad hs hexec hlen fun i hi => State.getD_cvtBytes he core a src fmt.toNat dscl clamp rm hi

/-- Settles O36: the words of a matrix operation, and the bytes that the other operations store, stand one after another, so
that each is one run of bytes in accumulator memory or in the scratchpad; then the bytes arrive and the operation leaves. -/
theorem accumulatorOperations : Obligations.AccumulatorOperations := ⟨matrixArray, matrixQueueEnds⟩

end Sys2Proof.Proofs
end

section
/-! SUPPORT. The issue of a collective (R261, R262). -/

namespace Sys2Proof.Machine

open Certificates

/-- An operand that lies in the scratchpad reads as its bytes (R246). -/
theorem Workgroup.spadRead_inSpad {w : Workgroup} {off n align : Nat} {b : List Byte} (h : InSpad w off n align b) :
    w.spadRead off n align = .ok b := by
  have hgood : w.spadBad off n = false := by
    refine List.any_eq_false.2 fun a ha => ?_
    have := h.clean a ha
    simp only [Bool.and_eq_true, decide_eq_true_eq]
    omega
  have haligned : (off % align != 0) = false := by simp [h.aligned]
  have hwithin : ¬ w.spadSize < off + n := Nat.not_lt.2 h.within
  simp only [Workgroup.spadRead, Workgroup.spadWord, haligned, Bool.false_eq_true, if_false, hwithin, hgood, h.bytes,
    memGetN_eq_map_range]

/-- A collective whose descriptor, tensors and tile pass the checks of R261 and R262, with the elements that it reads and writes. -/
structure Collects (s : State) (w : Workgroup) (a : Nat) (b : List Byte) (src dst : Tensor) (ct : Tile) (rs ws : List Move) :
    Prop where
  operand : InSpad w a 64 64 b
  ok : (collDesc b).ok w = true
  source : s.tensor w (collDesc b).src = .ok src
  target : s.tensor w (collDesc b).dst = .ok dst
  fits : (collDesc b).fits src dst = true
  tile : w.tiles[(collDesc b).ctile]? = some ct
  filling : ct.state = .filling
  room : ct.claimed + dst.bytes ≤ ct.expected
  reads : s.wholeMoves w src false (boxPlaces src.ext) = .ok rs
  writes : s.wholeMoves w dst true (boxPlaces dst.ext) = .ok ws

section
variable {s : State} {w : Workgroup} {a : Nat} {b : List Byte} {src dst : Tensor} {ct : Tile} {rs ws : List Move}

theorem State.collIssue_collects (h : Collects s w a b src dst ct rs ws) (t : Thread) :
    s.collIssue w t a = .ok (s.joinColl w t (collDesc b) src dst rs ws, (collDesc b).ctile) := by
  have htile : w.tile (collDesc b).ctile = some ct := h.tile
  have hstate : (ct.state != .filling) = false := by simp [h.filling]
  have hroom : ¬ ct.expected < ct.claimed + dst.bytes := Nat.not_lt.2 h.room
  simp only [State.collIssue, Workgroup.spadRead_inSpad h.operand, h.ok, State.tensorPair, h.source, h.target, h.fits, htile,
    hstate, hroom, h.reads, h.writes, Bool.not_true, Bool.false_eq_true, if_false, Bool.false_or, decide_false]

/-- What a collective's issue leaves of its workgroup (R262). -/
def Workgroup.joinedColl (d : CollDesc) (dst : Tensor) (y : Workgroup) : Workgroup :=
  { y with tiles := y.tiles.modify d.ctile (fun e => { e with claimed := e.claimed + dst.bytes })
           colls := y.colls.set d.gid (y.colls.getD d.gid 0 + 1) }

theorem State.joinColl_wgs (s : State) (w : Workgroup) (t : Thread) (d : CollDesc) (src dst : Tensor) (rs ws : List Move) :
    (s.joinColl w t d src dst rs ws).wgs = (s.modWg w.id (Workgroup.joinedColl d dst)).wgs := by
  have hmod : (s.modTile w.id d.ctile (fun e => { e with claimed := e.claimed + dst.bytes })).modWg w.id
      (fun y => { y with colls := listSet y.colls d.gid (· + 1) }) = s.modWg w.id (Workgroup.joinedColl d dst) := by
    rw [State.modTile, State.modWg_modWg]
    · rfl
    · exact fun _ => rfl
  rw [← hmod]
  rfl

theorem State.joinColl_keeps (s : State) (w : Workgroup) (t : Thread) (d : CollDesc) (src dst : Tensor) (rs ws : List Move) :
    s.KeepsGroup (s.joinColl w t d src dst rs ws) := ⟨rfl, rfl, rfl, rfl⟩

theorem State.wg_joinColl {s : State} {w : Workgroup} {n : Nat} (hw : s.wg n = some w) (t : Thread) (d : CollDesc)
    (src dst : Tensor) (rs ws : List Move) : (s.joinColl w t d src dst rs ws).wg n = some (w.joinedColl d dst) := by
  rw [State.wg, State.joinColl_wgs, State.wg_id hw]
  exact State.wg_modWg_same (f := Workgroup.joinedColl d dst) (fun _ => rfl) hw

/-- One more participant has joined the collective. -/
theorem State.joinColl_part (s : State) (w : Workgroup) (t : Thread) (d : CollDesc) (src dst : Tensor) (rs ws : List Move) :
    let c := s.collOf w d.gid (w.colls.getD d.gid 0)
    ∃ c' ∈ (s.joinColl w t d src dst rs ws).colls, c'.id = c.id ∧ c'.gang = c.gang ∧ c'.gid = c.gid ∧ c'.size = c.size
      ∧ ∃ p : CollPart, c'.parts = c.parts ++ [p] ∧ p.wg = w.id ∧ p.index = w.lin.toNat - w.gang * w.kernel.gsize
        ∧ p.op = d.op ∧ p.root = d.root ∧ p.writes = ws := by
  intro c
  have hkeeps : ∀ b : Bool, let c0 := if c.parts.isEmpty then { c with fabric := b } else c
      c0.id = c.id ∧ c0.gang = c.gang ∧ c0.gid = c.gid ∧ c0.size = c.size ∧ c0.parts = c.parts := by
    intro b
    dsimp only
    split <;> exact ⟨rfl, rfl, rfl, rfl, rfl⟩
  refine ⟨_, List.mem_append_right _ (List.mem_singleton_self _), ?_⟩
  obtain ⟨hid, hgang, hgid, hsize, hparts⟩ := hkeeps (isReduce d.op && d.scope != 3
    && decide ((s.colls.filter (fun x => x.gang.1 == vfOfCtx w.ctxn && x.fabric)).length < (s.vf (vfOfCtx w.ctxn)).hedge.rcq.toNat))
  exact ⟨hid, hgang, hgid, hsize, _, congrArg (· ++ [_]) hparts, rfl, rfl, rfl, rfl, rfl⟩

/-- What a collective has joined, as the statement says it: one more participant, its claim, and an operation on queue 6. -/
def JoinsColl (s : State) (w : Workgroup) (t : Thread) (d : CollDesc) (dst : Tensor) (rs ws : List Move) (x : State) : Prop :=
  let c := s.collOf w d.gid (w.colls.getD d.gid 0)
  x.wgs = s.wgs.map (fun y => if y.id = w.id then
    { y with tiles := y.tiles.modify d.ctile (fun e => { e with claimed := e.claimed + dst.bytes })
             colls := y.colls.set d.gid (y.colls.getD d.gid 0 + 1) } else y)
  ∧ x.ops = s.ops ++ [{ id := s.fresh + 1, core := w.core, q := 6, wg := w.id, issuer := t.tidx, started := false, err := 0
                        body := .copy rs none d.ctile d.ctile false false 0 dst.bytes 0 }]
  ∧ (∃ c' ∈ x.colls, c'.id = c.id ∧ c'.gang = c.gang ∧ c'.gid = c.gid ∧ c'.size = c.size
      ∧ ∃ p : CollPart, c'.parts = c.parts ++ [p] ∧ p.wg = w.id ∧ p.index = w.lin.toNat - w.gang * w.kernel.gsize
        ∧ p.op = d.op ∧ p.root = d.root ∧ p.writes = ws)
  ∧ x = { s with wgs := x.wgs, ops := x.ops, colls := x.colls, fresh := s.fresh + 2 }

theorem State.joinColl_joins (s : State) (w : Workgroup) (t : Thread) (d : CollDesc) (src dst : Tensor) (rs ws : List Move) :
    JoinsColl s w t d dst rs ws (s.joinColl w t d src dst rs ws) := by
  refine ⟨?_, rfl, s.joinColl_part w t d src dst rs ws, rfl⟩
  rw [State.joinColl_wgs]
  simp only [State.modWg, beq_iff_eq, Workgroup.joinedColl]

section
variable {t : Thread} {f : V3}

/-- COLL issues its collective and goes on (R262). -/
theorem coll_acts (ha : (Instr.coll f).Alone s t w) (h : Collects s w (f.srcA w t).toNat b src dst ct rs ws) :
    ∃ x, JoinsColl s w t (collDesc b) dst rs ws x ∧ Acts (.coll f) s t t x := by
  refine ⟨_, s.joinColl_joins w t (collDesc b) src dst rs ws, _, rfl, ?_⟩
  refine went_of_alone ha ?_ rfl (s.joinColl_keeps w t (collDesc b) src dst rs ws) (s.wg_joinColl ha.wg t _ src dst rs ws) rfl rfl
  rw [State.collIssue_collects h]
  rfl

/-- COLLW issues its collective and waits for its tile (R262). -/
theorem collw_waits (ha : (Instr.collw f).Alone s t w) (h : Collects s w (f.srcA w t).toNat b src dst ct rs ws) :
    ∃ x, JoinsColl s w t (collDesc b) dst rs ws x ∧ exec (.collw f) s = .next (x.setThread
      { t with status := .blocked (.tile (collDesc b).ctile none (t.pc + BitVec.ofNat 64 (4 * f.fm.words)))
               insn := s.cur.insn }) := by
  refine ⟨_, s.joinColl_joins w t (collDesc b) src dst rs ws, ?_⟩
  have hkeeps := s.joinColl_keeps w t (collDesc b) src dst rs ws
  have hlive : ((s.joinColl w t (collDesc b) src dst rs ws).thread t.key).isSome := by rw [hkeeps.thread, ha.thread]; rfl
  show execCollw f s = _
  rw [execCollw, forThreads_hold ha (s' := s.joinColl w t (collDesc b) src dst rs ws)
    (t' := { t with status := .blocked (.tile (collDesc b).ctile none (pcAfter t.pc (Instr.collw f).words)) })
    (by simp only [State.collIssue_collects h]) rfl hlive rfl rfl rfl]
  rfl

end

end

end Sys2Proof.Machine
end

section
namespace Sys2Proof.Proofs

open Sys2Proof Machine Certificates

/-- The issue of a collective. -/
theorem collectives : Certificates.Collectives := by
  intro s t w f b src dst ct rs ws d hop hok hsrc hdst hfits htile hfill hroom hrs hws c joins
  have h : Collects s w (f.srcA w t).toNat b src dst ct rs ws := ⟨hop, hok, hsrc, hdst, hfits, htile, hfill, hroom, hrs, hws⟩
  exact ⟨fun ha => coll_acts ha h, fun ha => collw_waits ha h⟩

end Sys2Proof.Proofs
end

section
/-! SUPPORT. What a collective reads (R245, R262): the places of a whole tensor, and the bytes of its elements in plain frames. -/

namespace Sys2Proof.Machine

open Certificates

/-! ## Places -/

/-- The places of a box stand in row-major order (R248). -/
theorem map_rowMajor_boxPlaces (ext : List Nat) : (boxPlaces ext).map (rowMajor ext) = List.range ext.prod := by
  induction ext with
  | nil => rfl
  | cons b r ih =>
    have hrow : ∀ y, ((List.range b).map (fun j => j :: y)).map (rowMajor (b :: r))
        = (List.range b).map (fun j => b * rowMajor r y + j) := by
      intro y
      rw [List.map_map]
      exact List.map_congr_left fun j _ => Nat.add_comm j _
    have hflat : (boxPlaces (b :: r)).map (rowMajor (b :: r))
        = (((boxPlaces r).map (rowMajor r)).map (fun h => (List.range b).map (fun j => b * h + j))).flatten := by
      rw [boxPlaces, List.map_flatMap]
      simp only [hrow, List.flatMap_def, List.map_map]
      rfl
    rw [hflat, ih, flatten_map_range (fun k => k), List.map_id', List.prod_cons]

/-! ## Bytes of plain frames -/

/-- Bytes of main memory lie in plain frames and hold good data. -/
structure State.PlainAt (s : State) (pa n : Nat) : Prop where
  plain : ∀ i, i < n → s.isCmp (pa + i) = false
  clean : ∀ a ∈ s.poison, a < pa ∨ pa + n ≤ a

theorem State.PlainAt.drop {s : State} {pa n k : Nat} (h : s.PlainAt pa (k + n)) : s.PlainAt (pa + k) n where
  plain i hi := by rw [Nat.add_assoc]; exact h.plain (k + i) (by omega)
  clean a ha := by have := h.clean a ha; omega

theorem State.PlainAt.take {s : State} {pa n k : Nat} (h : s.PlainAt pa (k + n)) : s.PlainAt pa k where
  plain i hi := h.plain i (by omega)
  clean a ha := by have := h.clean a ha; omega

theorem State.physPiece_plain {s : State} {pa n : Nat} (h : s.PlainAt pa n) (hn : 0 < n) :
    s.physPiece pa n = some (memGetN s.mem pa n) := by
  have hplain : s.isCmp pa = false := h.plain 0 hn
  simp [State.physPiece, State.poisonAt_eq_false h.clean, hplain]

/-- Bytes are read frame by frame. -/
theorem State.physFrames_plain {s : State} {fuel pa n : Nat} (h : s.PlainAt pa n) (hf : n = 0 ∨ pa % 65536 + n ≤ fuel * 65536) :
    s.physFrames pa n fuel = some (memGetN s.mem pa n) := by
  induction fuel generalizing pa n with
  | zero =>
    obtain rfl : n = 0 := by omega
    rfl
  | succ fuel ih =>
    rcases Nat.eq_zero_or_pos n with rfl | hn
    · rfl
    · obtain ⟨k, hk⟩ : ∃ k, min n (65536 - pa % 65536) = k := ⟨_, rfl⟩
      have hpos : 0 < k := by omega
      have hleft : n - k = 0 ∨ (pa + k) % 65536 + (n - k) ≤ fuel * 65536 := by
        rcases Nat.le_total n (65536 - pa % 65536) with hle | hle
        · rw [Nat.min_eq_left hle] at hk
          exact .inl (by omega)
        · rw [Nat.min_eq_right hle] at hk
          have hframe : (pa + k) % 65536 = 0 := by omega
          exact .inr (by omega)
      obtain ⟨r, rfl⟩ : ∃ r, n = k + r := ⟨n - k, by omega⟩
      have hne : (k + r == 0) = false := by simp; omega
      rw [Nat.add_sub_cancel_left] at hleft
      have hrest : State.physFrames s (pa + k) r fuel = some (memGetN s.mem (pa + k) r) := ih h.drop hleft
      simp only [State.physFrames, hne, Bool.false_eq_true, if_false, hk, State.physPiece_plain h.take hpos, Option.bind_some,
        Nat.add_sub_cancel_left, hrest, Option.map_some, memGetN_add]

theorem State.physRead_plainAt {s : State} {pa n : Nat} (h : s.PlainAt pa n) (hn : 0 < n) :
    s.physRead pa n = some (memGetN s.mem pa n) := by
  unfold State.physRead
  split
  · exact State.physPiece_plain h hn
  · exact State.physFrames_plain h (.inr (by omega))

/-! ## Moves with only a source -/

/-- A move that reads bytes of main memory (R248). -/
def sourceMove (a size : Nat) : Move :=
  { src := some (.main a), pad := 0, dst := none, size, srcHalf := none, dstHalf := none }

section
variable {s : State} {m : Mover} {a size : Nat} (h : s.PlainAt a size) (hn : 0 < size)
  (hr : s.reaches (dieOf m.core) (homeDie a) = true) (hx : m.xlt = none)
include h hn hr hx

theorem State.moveValue_sourceMove : s.moveValue m (sourceMove a size) = (memGetN s.mem a size, false) := by
  simp only [State.moveValue, sourceMove, State.readPlace, hr, if_true, State.physRead_plainAt h hn, Mover.convert, hx]

theorem State.readSource_sourceMove : s.readSource m (sourceMove a size) = (s, 0) := by
  rw [State.readSource, State.moveValue_sourceMove h hn hr hx]
  rfl

end

end Sys2Proof.Machine
end

section
/-! SUPPORT. How the operation of a participant writes its destination and ends (R137, R242, R250, R262). -/

namespace Sys2Proof.Machine

open Certificates

/-! ## An operation under way -/

/-- A state in which an operation has come to `o`, and has changed its workgroup. -/
def State.withOp (s : State) (o : Op) (f : Workgroup → Workgroup) : State := (s.setOp o).modWg o.wg f

theorem State.setOp_setOp (s : State) {o o' : Op} (h : o'.id = o.id) : (s.setOp o).setOp o' = s.setOp o' := by
  simp only [State.setOp, List.map_map]
  congr 2
  funext x
  by_cases hx : x.id = o.id
  · simp [hx, h]
  · simp [hx, h]

theorem State.find?_setOp {s : State} {o o' : Op} (h : s.ops.find? (fun x => x.id == o.id) = some o') :
    (s.setOp o).ops.find? (fun x => x.id == o.id) = some o := by
  rw [State.setOp, find?_map_of_iff (p := fun x : Op => x.id == o.id) s.ops, h]
  · have := List.find?_some h
    simp_all
  · intro x
    by_cases hx : x.id = o.id <;> simp [hx]

/-- What is left once an operation has gone does not depend on what it had become. -/
theorem State.filter_setOp (s : State) (o : Op) :
    (s.setOp o).ops.filter (fun x => x.id != o.id) = s.ops.filter (fun x => x.id != o.id) := by
  unfold State.setOp
  dsimp only
  induction s.ops with
  | nil => rfl
  | cons x l ih =>
    by_cases hx : x.id = o.id
    · simpa [hx] using ih
    · simpa [hx] using ih

theorem State.wg_withOp_same {s : State} {o : Op} {f : Workgroup → Workgroup} (hf : KeepsId f) {w : Workgroup}
    (hw : s.wg o.wg = some w) : (s.withOp o f).wg o.wg = some (f w) :=
  State.wg_modWg_same (s := s.setOp o) hf hw

theorem State.setOp_withOp (s : State) {o o' : Op} (h : o'.id = o.id) (hw : o'.wg = o.wg) (f : Workgroup → Workgroup) :
    (s.withOp o f).setOp o' = s.withOp o' f := by
  have hcomm : (s.withOp o f).setOp o' = ((s.setOp o).setOp o').modWg o.wg f := rfl
  rw [hcomm, State.setOp_setOp s h, State.withOp, hw]

theorem State.modWg_withOp (s : State) (o : Op) {f : Workgroup → Workgroup} (hf : KeepsId f) (g : Workgroup → Workgroup) :
    (s.withOp o f).modWg o.wg g = s.withOp o (g ∘ f) :=
  State.modWg_modWg hf (s.setOp o) o.wg g

/-! ## Bytes at a destination -/

/-- A workgroup whose scratchpad holds some runs of bytes, and one of whose tiles has changed. -/
def Workgroup.filled (runs : List (Nat × List Byte)) (tile : Nat) (g : Tile → Tile) (w : Workgroup) : Workgroup :=
  { runs.foldl (fun w x => w.spadPut x.1 x.2) w with tiles := w.tiles.modify tile g }

/-- How many bytes some runs are. -/
def runBytes (runs : List (Nat × List Byte)) : Nat := (runs.map (fun x => x.2.length)).sum

theorem Workgroup.filled_eq (runs : List (Nat × List Byte)) (tile : Nat) (g : Tile → Tile) (w : Workgroup) :
    w.filled runs tile g = { w with
      spad := runs.foldl (fun m x => memSetN m x.1 x.2) w.spad, spadErr := (w.filled runs tile g).spadErr
      tiles := w.tiles.modify tile g } := by
  have hfold : ∀ w : Workgroup, runs.foldl (fun w x => w.spadPut x.1 x.2) w = { w with
      spad := runs.foldl (fun m x => memSetN m x.1 x.2) w.spad
      spadErr := (runs.foldl (fun w x => w.spadPut x.1 x.2) w).spadErr } := by
    induction runs with
    | nil => exact fun _ => rfl
    | cons x r ih =>
      intro w
      rw [List.foldl_cons, ih]
      rfl
  unfold Workgroup.filled
  rw [hfold]

theorem Workgroup.filled_keepsId (runs : List (Nat × List Byte)) (tile : Nat) (g : Tile → Tile) :
    KeepsId (Workgroup.filled runs tile g) := by
  intro w
  rw [Workgroup.filled_eq]

theorem Workgroup.spadPut_filled (runs : List (Nat × List Byte)) (tile : Nat) (g : Tile → Tile) (x : Nat × List Byte)
    (w : Workgroup) : (w.filled runs tile g).spadPut x.1 x.2 = w.filled (runs ++ [x]) tile g := by
  simp only [Workgroup.filled, List.foldl_append, List.foldl_cons, List.foldl_nil]
  rfl

/-- A workgroup one of whose tiles has changed. -/
def Workgroup.modTile (tile : Nat) (g : Tile → Tile) (w : Workgroup) : Workgroup := { w with tiles := w.tiles.modify tile g }

theorem Workgroup.modTile_comp_filled (runs : List (Nat × List Byte)) (tile : Nat) (g h : Tile → Tile) :
    Workgroup.modTile tile h ∘ Workgroup.filled runs tile g = Workgroup.filled runs tile (h ∘ g) := by
  funext w
  simp only [Function.comp, Workgroup.modTile, Workgroup.filled, List.modify_modify_eq]

/-! ## Arrivals while an operation is under way -/

theorem arrived_setErr (e : Tile) (x n : Nat) : arrived { e with err := x } n = { arrived e n with err := x } := by
  by_cases h : e.state = .filling ∧ e.expected ≤ e.arrived + n
  · simp [arrived, h]
  · simp [arrived, h]

theorem arrivedErr_comp (n m err : Nat) : arrivedErr m 0 ∘ arrivedErr n err = arrivedErr (n + m) err := by
  funext e
  simp only [Function.comp, arrivedErr, arrived_setErr, arrived_arrived]
  rfl

/-- The count of the elements out of range stops at its bound when a copy ends (R250). -/
def capOor (e : Tile) : Tile := { e with oor := min 0xFFFF e.oor }

theorem capOor_comp_arrivedErr (n err : Nat) : capOor ∘ arrivedErr n err = arrivedErr n err ∘ capOor := by
  funext e
  by_cases h : e.state = .filling ∧ e.expected ≤ e.arrived + n
  · simp [arrivedErr, capOor, arrived, h]
  · simp [arrivedErr, capOor, arrived, h]

theorem State.arrive_modTile (s : State) (wg tile n err : Nat) :
    s.arrive wg tile n err = s.modWg wg (Workgroup.modTile tile (arrivedErr n err)) :=
  State.arrive_eq s wg tile n err

theorem State.opArrives_copy {s : State} {o : Op} (h : s.ops.find? (fun x => x.id == o.id) = some o) {ms : List Move}
    {x : Option (List (BitVec 16))} {dt ct : Nat} {out scl : Bool} {stag : BitVec 16} {bytes oor : Nat}
    (hb : o.body = .copy ms x dt ct out scl stag bytes oor) (nibs err : Nat) :
    s.opArrives o.id nibs err = (s.setOp { o with counted := min (2 * bytes) (o.counted + nibs), err := nextErr o.err err }).modWg
      o.wg (Workgroup.modTile ct (arrivedErr (min (2 * bytes) (o.counted + nibs) / 2 - o.counted / 2) err)) := by
  simp only [State.opArrives, h, hb, State.arrive_modTile]

/-- The arrival of `k` bytes of an operation that has counted `c`. -/
theorem State.opArrives_withOp {s : State} {o o' : Op} (h : s.ops.find? (fun x => x.id == o.id) = some o') {ms : List Move}
    {dt ct : Nat} {stag : BitVec 16} {bytes oor c k err : Nat}
    (hb : o.body = .copy ms none dt ct false false stag bytes oor) (hc : o.counted = 2 * c) (hk : c + k ≤ bytes)
    {runs : List (Nat × List Byte)} {g : Tile → Tile} :
    (s.withOp o (Workgroup.filled runs ct g)).opArrives o.id (2 * k) err
      = s.withOp { o with counted := 2 * (c + k), err := nextErr o.err err }
          (Workgroup.filled runs ct (arrivedErr k err ∘ g)) := by
  have hfind : (s.withOp o (Workgroup.filled runs ct g)).ops.find? (fun x => x.id == o.id) = some o := State.find?_setOp h
  have hn : min (2 * bytes) (2 * c + 2 * k) = 2 * (c + k) := by omega
  have hdiff : 2 * (c + k) / 2 - 2 * c / 2 = k := by omega
  have hid := Workgroup.filled_keepsId runs ct g
  rw [State.opArrives_copy hfind hb, hc, hn, hdiff, ← Workgroup.modTile_comp_filled,
    State.setOp_withOp s (o := o) (o' := { o with counted := 2 * (c + k), err := nextErr o.err err }) rfl rfl]
  exact State.modWg_withOp s { o with counted := 2 * (c + k), err := nextErr o.err err } hid _

/-! ## The writes of a copy -/

/-- A move that stores literal bytes in the scratchpad. -/
def storeMove (x : Nat × List Byte) : Move :=
  { src := some (.lit x.2), pad := 0, dst := some (.spad x.1), size := x.2.length, srcHalf := none, dstHalf := none }

theorem State.onePart_storeMove (s : State) (o : Op) (ctxn : Nat) (x : Nat × List Byte) :
    s.onePart (o.mover ctxn none) [storeMove x]
      = (s.modWg o.wg (fun w => w.spadPut x.1 x.2)).opArrives o.id (2 * x.2.length) 0 := by
  have hvalue : s.moveValue (o.mover ctxn none) (storeMove x) = (x.2, false) := rfl
  have hread : s.readSources (o.mover ctxn none) [storeMove x] = (s, 0) := rfl
  have hblock : s.blockOf (storeMove x) = none := rfl
  have hwritten : s.written (o.mover ctxn none) (storeMove x) = (none, x.2) := rfl
  have hnibs : ([storeMove x].map (o.mover ctxn none).nibs).sum = 2 * x.2.length := rfl
  unfold State.onePart
  simp only [hread, hblock, hwritten, hnibs]
  rfl

/-- Such a move is a write of its own. -/
theorem State.runMoves_storeMove (m : Mover) (fuel : Nat) (s : State) (x : Nat × List Byte) (r : List Move) :
    State.runMoves m (fuel + 1) s (storeMove x :: r) = State.runMoves m fuel (s.onePart m [storeMove x]) r := by
  have hblock : s.blockOf (storeMove x) = none := rfl
  have hsame : s.sameWrite (storeMove x) = fun _ => false := rfl
  have halone : ((r.take 1).takeWhile (s.sameWrite (storeMove x))).length = 0 := by
    rw [hsame]
    cases r <;> rfl
  simp only [State.runMoves, hblock, Option.isSome_none, Bool.false_eq_true, if_false, halone, List.take_zero, List.drop_zero]

theorem State.runMoves_storeMoves {s : State} {o o' : Op} (h : s.ops.find? (fun x => x.id == o.id) = some o') {ms : List Move}
    {dt ct : Nat} {stag : BitVec 16} {bytes oor c err ctxn fuel : Nat}
    (hb : o.body = .copy ms none dt ct false false stag bytes oor) (hc : o.counted = 2 * c)
    {runs todo : List (Nat × List Byte)} (hfuel : todo.length ≤ fuel) (hsum : c + runBytes todo ≤ bytes) :
    State.runMoves (o.mover ctxn none) fuel (s.withOp o (Workgroup.filled runs ct (arrivedErr c err))) (todo.map storeMove)
      = s.withOp { o with counted := 2 * (c + runBytes todo) }
          (Workgroup.filled (runs ++ todo) ct (arrivedErr (c + runBytes todo) err)) := by
  induction todo generalizing o c runs fuel with
  | nil =>
    have hstay : ({ o with counted := 2 * (c + runBytes []) } : Op) = o := by
      rw [runBytes, List.map_nil, List.sum_nil, Nat.add_zero, ← hc]
    rw [hstay]
    cases fuel <;> simp [State.runMoves, runBytes]
  | cons x r ih =>
    obtain ⟨fuel, rfl⟩ : ∃ k, fuel = k + 1 := ⟨fuel - 1, by simp at hfuel; omega⟩
    have hbytes : runBytes (x :: r) = x.2.length + runBytes r := by simp [runBytes]
    rw [hbytes] at hsum ⊢
    have hid := Workgroup.filled_keepsId runs ct (arrivedErr c err)
    have hput : (fun w : Workgroup => w.spadPut x.1 x.2) ∘ Workgroup.filled runs ct (arrivedErr c err)
        = Workgroup.filled (runs ++ [x]) ct (arrivedErr c err) := funext fun w => Workgroup.spadPut_filled runs ct _ x w
    have hstep : (s.withOp o (Workgroup.filled runs ct (arrivedErr c err))).onePart (o.mover ctxn none) [storeMove x]
        = s.withOp { o with counted := 2 * (c + x.2.length) }
            (Workgroup.filled (runs ++ [x]) ct (arrivedErr (c + x.2.length) err)) := by
      rw [State.onePart_storeMove, State.modWg_withOp s o hid, hput, State.opArrives_withOp h hb hc (by omega), arrivedErr_comp]
      rfl
    have hrest := ih (o := { o with counted := 2 * (c + x.2.length) }) h hb rfl (runs := runs ++ [x]) (fuel := fuel)
      (by simpa using hfuel) (by omega)
    rw [List.map_cons, State.runMoves_storeMove, hstep]
    rw [Nat.add_assoc, List.append_assoc] at hrest
    exact hrest

/-! ## From the values to the end -/

/-- An operation that waits for nothing, none of whose bytes have arrived, writes in the scratchpad of its workgroup and has
its tile there. -/
structure State.Pending (s : State) (o : Op) (tile bytes : Nat) : Prop where
  found : s.ops.find? (fun x => x.id == o.id) = some o
  lives : ∃ w, s.wg o.wg = some w
  free : s.opWaits o = false
  fresh : o.counted = 0
  copies : ∃ ms, o.body = .copy ms none tile tile false false 0 bytes 0

/-- An operation with the moves of a copy, which counts at one tile. -/
def Op.copying (o : Op) (ms : List Move) (tile bytes : Nat) : Op := { o with body := .copy ms none tile tile false false 0 bytes 0 }

/-- The end of a copy whose first `c` bytes have arrived. -/
theorem State.endCopy_withOp {s : State} {o : Op} {tile bytes c err : Nat} (hc : o.counted = 2 * c) (hsum : c ≤ bytes)
    (runs : List (Nat × List Byte)) :
    (s.withOp o (Workgroup.filled runs tile (arrivedErr c err))).endCopy o 0 tile tile false bytes 0
      = { s.modWg o.wg (Workgroup.filled runs tile (arrivedErr bytes err ∘ capOor)) with
          ops := s.ops.filter (fun x => x.id != o.id) } := by
  have hleft : bytes - 2 * c / 2 = bytes - c := by omega
  have htile : arrivedErr (bytes - c) 0 ∘ capOor ∘ arrivedErr c err = arrivedErr bytes err ∘ capOor := by
    rw [capOor_comp_arrivedErr, ← Function.comp_assoc, arrivedErr_comp, Nat.add_sub_cancel' hsum]
  have hid := Workgroup.filled_keepsId runs tile
  have hend : ((s.withOp o (Workgroup.filled runs tile (arrivedErr c err))).modWg o.wg (Workgroup.modTile tile capOor)).arrive
      o.wg tile (bytes - c) 0 = s.withOp o (Workgroup.filled runs tile (arrivedErr bytes err ∘ capOor)) := by
    rw [State.modWg_withOp s o (hid _), Workgroup.modTile_comp_filled, State.arrive_modTile, State.modWg_withOp s o (hid _),
      Workgroup.modTile_comp_filled, htile]
  calc (s.withOp o (Workgroup.filled runs tile (arrivedErr c err))).endCopy o 0 tile tile false bytes 0
      = (s.withOp o (Workgroup.filled runs tile (arrivedErr bytes err ∘ capOor))).endOp o [] := by
        rw [← hend, ← hleft, ← hc]
        rfl
    _ = { s.modWg o.wg (Workgroup.filled runs tile (arrivedErr bytes err ∘ capOor)) with
          ops := (s.setOp o).ops.filter (fun x => x.id != o.id) } := rfl
    _ = _ := by rw [State.filter_setOp]

theorem State.runCopy_of_moveAll {s s' : State} {o o' : Op} {w : Workgroup} {ms : List Move} {tile bytes : Nat}
    (hb : o.body = .copy ms none tile tile false false 0 bytes 0) (hw : s.wg o.wg = some w)
    (hmoves : (s.setOp (o.copying [] tile bytes)).moveAll (o.mover w.ctxn none) ms = s')
    (hfind : s'.ops.find? (fun x => x.id == o.id) = some o') (hfree : s'.opWaits o' = false) :
    s.runCopy o = s'.endCopy o' 0 tile tile false bytes 0 := by
  unfold Op.copying at hmoves
  simp only [State.runCopy, hb, hw, hmoves, hfind, hfree, Bool.false_eq_true, if_false]

theorem State.runCopy_storeMoves {s : State} {o o' : Op} (h : s.ops.find? (fun x => x.id == o.id) = some o')
    (hw : ∃ w, s.wg o.wg = some w) (hfree : s.opWaits o = false) {runs : List (Nat × List Byte)} {tile bytes err : Nat}
    (hc : o.counted = 0) (hb : o.body = .copy (runs.map storeMove) none tile tile false false 0 bytes 0)
    (hsum : runBytes runs ≤ bytes) :
    (s.withOp o (Workgroup.filled [] tile (arrivedErr 0 err))).runCopy o
      = { s.modWg o.wg (Workgroup.filled runs tile (arrivedErr bytes err ∘ capOor)) with
          ops := s.ops.filter (fun x => x.id != o.id) } := by
  obtain ⟨w, hw⟩ := hw
  have hid := Workgroup.filled_keepsId [] tile (arrivedErr 0 err)
  have hmoves : ((s.withOp o (Workgroup.filled [] tile (arrivedErr 0 err))).setOp (o.copying [] tile bytes)).moveAll
      (o.mover w.ctxn none) (runs.map storeMove)
        = s.withOp { o.copying [] tile bytes with counted := 2 * (0 + runBytes runs) }
            (Workgroup.filled runs tile (arrivedErr (0 + runBytes runs) err)) := by
    rw [State.setOp_withOp s (o := o) (o' := o.copying [] tile bytes) rfl rfl, State.moveAll, List.length_map]
    exact State.runMoves_storeMoves (o := o.copying [] tile bytes) (c := 0) (runs := []) h rfl hc (Nat.le_refl _) (by omega)
  rw [State.runCopy_of_moveAll hb (State.wg_withOp_same hid hw) hmoves
    (State.find?_setOp (o := { o.copying [] tile bytes with counted := 2 * (0 + runBytes runs) }) h) hfree]
  exact State.endCopy_withOp (o := { o.copying [] tile bytes with counted := 2 * (0 + runBytes runs) }) rfl (by omega) runs

/-- The ERR of an operation of which nothing has arrived. -/
theorem State.opArrives_setOp {s : State} {o o' : Op} (h : s.ops.find? (fun x => x.id == o.id) = some o') {ms : List Move}
    {tile bytes : Nat} (hb : o.body = .copy ms none tile tile false false 0 bytes 0) (hc : o.counted = 0) (err : Nat) :
    (s.setOp o).opArrives o.id 0 err
      = s.withOp { o with counted := 0, err := nextErr o.err err } (Workgroup.filled [] tile (arrivedErr 0 err)) := by
  rw [State.opArrives_copy (State.find?_setOp h) hb, hc, Nat.min_zero, Nat.zero_div,
    State.setOp_setOp s (o := o) (o' := { o with counted := 0, err := nextErr o.err err }) rfl]
  rfl

theorem State.finishPart_of_opArrives {s s' : State} {o o' : Op} {ms rs : List Move} {tile bytes err : Nat}
    (hb : o.body = .copy rs none tile tile false false 0 bytes 0)
    (hstart : (s.setOp { o.copying ms tile bytes with started := true }).opArrives o.id 0 err = s')
    (hfind : s'.ops.find? (fun x => x.id == o.id) = some o') : s.finishPart o ms err = s'.runCopy o' := by
  unfold Op.copying at hstart
  dsimp only at hstart
  simp only [State.finishPart, hb, hstart, hfind]

/-- An operation that has been given the values to store, and the ERR met so far. -/
def Op.given (o : Op) (runs : List (Nat × List Byte)) (tile bytes err : Nat) : Op :=
  { o.copying (runs.map storeMove) tile bytes with started := true, counted := 0, err := nextErr o.err err }

/-- An operation that is given its values stores them, and ends. -/
theorem State.finishPart_eq {s : State} {o : Op} {tile bytes : Nat} (h : s.Pending o tile bytes) {runs : List (Nat × List Byte)}
    (hsum : runBytes runs ≤ bytes) (err : Nat) :
    s.finishPart o (runs.map storeMove) err
      = { s.modWg o.wg (Workgroup.filled runs tile (arrivedErr bytes err ∘ capOor)) with
          ops := s.ops.filter (fun x => x.id != o.id) } := by
  obtain ⟨hfound, hlives, hfree, hfresh, ms, hbody⟩ := h
  have hstart := State.opArrives_setOp (o := { o.copying (runs.map storeMove) tile bytes with started := true }) hfound rfl hfresh
    err
  have hfind : (s.withOp (o.given runs tile bytes err) (Workgroup.filled [] tile (arrivedErr 0 err))).ops.find?
      (fun x => x.id == o.id) = some _ := State.find?_setOp (o := o.given runs tile bytes err) hfound
  have hrun := State.runCopy_storeMoves (o := o.given runs tile bytes err) (err := err) hfound hlives hfree rfl rfl hsum
  rw [State.finishPart_of_opArrives hbody hstart hfind]
  exact hrun

end Sys2Proof.Machine
end

section
/-! SUPPORT. The operations of a collective end one after another, each in its own workgroup (R262). -/

namespace Sys2Proof.Machine

open Certificates

/-- The operations of some participants have ended, each after a change of its workgroup. -/
structure State.EndedWith (s s' : State) (l : List (CollPart × Op)) (F : CollPart × Op → Workgroup → Workgroup) : Prop where
  parts : ∀ x ∈ l, ∀ w, s.wg x.2.wg = some w → s'.wg x.2.wg = some (F x w)
  others : ∀ k, (∀ x ∈ l, x.2.wg ≠ k) → s'.wg k = s.wg k
  rest : s' = { s with ops := s.ops.filter (fun o => !(l.map (·.2.id)).contains o.id), wgs := s'.wgs }

/-- A state in which an operation has ended after a change of its workgroup. -/
def State.ended (s : State) (o : Op) (f : Workgroup → Workgroup) : State :=
  { s.modWg o.wg f with ops := s.ops.filter (fun x => x.id != o.id) }

/-- The end of an operation leaves the others as they are. -/
theorem State.Pending.ended {s : State} {o y : Op} {f : Workgroup → Workgroup} (hf : KeepsId f) {tile bytes : Nat}
    (h : s.Pending y tile bytes) (hne : y.id ≠ o.id) : (s.ended o f).Pending y tile bytes where
  found := by
    have hfind : (s.ended o f).ops.find? (fun x => x.id == y.id) = s.ops.find? (fun x => x.id == y.id) := by
      rw [State.ended, List.find?_filter]
      congr 1
      funext x
      by_cases hx : x.id = y.id
      · simp [hx, hne]
      · simp [hx]
    rw [hfind]
    exact h.found
  lives := by
    obtain ⟨w, hw⟩ := h.lives
    exact ⟨_, (State.wg_modWg hf s o.wg y.wg).trans (congrArg _ hw)⟩
  free := h.free
  fresh := h.fresh
  copies := h.copies

/-- Operations of different workgroups end one after another. -/
theorem State.endedWith_foldl {step : State → CollPart × Op → State} {F : CollPart × Op → Workgroup → Workgroup}
    {tile : CollPart → Nat} {bytes : Nat} (hF : ∀ x, KeepsId (F x)) {l : List (CollPart × Op)} {s : State}
    (hstep : ∀ s, ∀ x ∈ l, s.Pending x.2 (tile x.1) bytes → step s x = s.ended x.2 (F x))
    (hpending : ∀ x ∈ l, s.Pending x.2 (tile x.1) bytes) (hwgs : (l.map (·.2.wg)).Nodup) (hids : (l.map (·.2.id)).Nodup) :
    s.EndedWith (l.foldl step s) l F := by
  induction l generalizing s with
  | nil => exact ⟨by simp, fun _ _ => rfl, by simp⟩
  | cons x r ih =>
    simp only [List.map_cons, List.nodup_cons, List.mem_map, not_exists, not_and] at hwgs hids
    obtain ⟨hwg, hwgs⟩ := hwgs
    obtain ⟨hid, hids⟩ := hids
    have hrest : ∀ y ∈ r, (s.ended x.2 (F x)).Pending y.2 (tile y.1) bytes := fun y hy =>
      (hpending y (List.mem_cons_of_mem x hy)).ended (hF x) (hid y hy)
    obtain ⟨hparts, hothers, hall⟩ := ih (fun s y hy => hstep s y (List.mem_cons_of_mem x hy)) hrest hwgs hids
    rw [List.foldl_cons, hstep s x List.mem_cons_self (hpending x List.mem_cons_self)]
    refine ⟨?_, ?_, ?_⟩
    · intro y hy w hw
      rcases List.mem_cons.1 hy with rfl | hy
      · rw [hothers _ fun z hz => hwg z hz]
        exact State.wg_modWg_same (hF y) hw
      · refine hparts y hy w ?_
        exact (State.wg_modWg_other (hF x) s (hwg y hy)).trans hw
    · intro k hk
      rw [hothers k fun y hy => hk y (List.mem_cons_of_mem x hy)]
      exact State.wg_modWg_other (hF x) s (hk x List.mem_cons_self).symm
    · rw [hall]
      simp only [State.ended, State.modWg, List.filter_filter, List.map_cons, List.contains_cons]
      congr 1
      refine List.filter_congr fun o _ => ?_
      rw [Bool.not_or, Bool.and_comm]
      rfl

/-! ## The values that are written -/

/-- The bytes of elements at a destination. -/
def elemRuns (dst dsize n : Nat) (v : Nat → Nat) : List (Nat × List Byte) :=
  (List.range n).map (fun k => (dst + k * dsize, natLe dsize (v k)))

@[simp] theorem runBytes_elemRuns (dst dsize n : Nat) (v : Nat → Nat) : runBytes (elemRuns dst dsize n v) = n * dsize := by
  simp [runBytes, elemRuns, Function.comp_def, length_natLe]

/-- A scratchpad that has taken elements holds their bytes. -/
theorem holds_filled_elemRuns {w : Workgroup} (hw : w.spad.wf = true) (dst dsize n : Nat) (v : Nat → Nat) (tile : Nat)
    (g : Tile → Tile) :
    Holds w.spad (w.filled (elemRuns dst dsize n v) tile g).spad dst (n * dsize)
      (fun i => BitVec.ofNat 8 (v (i / dsize) / 256 ^ (i % dsize))) := by
  have hlen : ∀ k, (natLe dsize (v k)).length = dsize := fun k => length_natLe dsize (v k)
  rw [Workgroup.filled_eq, elemRuns, List.foldl_map]
  dsimp only
  rw [foldl_memSetN_range (f := fun k => natLe dsize (v k)) hlen]
  refine holds_memSetN_of_getD hw dst (length_flatMap_range hlen n) fun i hi => ?_
  have hpos : 0 < dsize := Nat.pos_of_ne_zero fun h => by simp [h] at hi
  have hmod := Nat.mod_lt i hpos
  have hget := getD_flatMap_range hlen 0 (Nat.div_lt_of_lt_mul (Nat.mul_comm n dsize ▸ hi)) hmod
  rw [Nat.div_add_mod', getD_natLe _ _ hmod] at hget
  exact hget

/-- A move that is to write bytes of the scratchpad (R248). -/
def targetMove (off size : Nat) : Move :=
  { src := none, pad := 0, dst := some (.spad off), size, srcHalf := none, dstHalf := none }

/-- A participant that takes a value for each of its elements stores them in row-major order. -/
theorem collWrites_eq {pkgs : List Nat} {ps : List Partaker} {lost : Bool} {p : CollPart} {here dst dsize n : Nat} {v : Nat → Nat}
    (hn : n = p.dst.ext.prod)
    (hw : p.writes = (List.range n).map (fun k => targetMove (dst + k * dsize) dsize))
    (hv : ∀ x, collValue pkgs ps lost p here x = some (v (rowMajor p.dst.ext x), false)) :
    collWrites pkgs ps lost p here = ((elemRuns dst dsize n v).map storeMove, false) := by
  have hpair : List.zip (boxPlaces p.dst.ext) p.writes
      = (boxPlaces p.dst.ext).map (fun x => (x, targetMove (dst + rowMajor p.dst.ext x * dsize) dsize)) := by
    rw [hw, hn, ← map_rowMajor_boxPlaces, List.map_map, ← List.map_prod_left_eq_zip]
    rfl
  have htaken : (List.zip (boxPlaces p.dst.ext) p.writes).filterMap (fun x => (collValue pkgs ps lost p here x.1).map (fun v =>
      (({ x.2 with src := some (.lit (natLe x.2.size v.1)) } : Move), v.2)))
        = (elemRuns dst dsize n v).map (fun r => (storeMove r, false)) := by
    rw [hpair, List.filterMap_map, elemRuns, hn, ← map_rowMajor_boxPlaces, List.map_map, List.map_map]
    refine List.filterMap_eq_map_iff_forall_eq_some.2 fun x _ => ?_
    simp only [Function.comp, hv, Option.map_some, targetMove, storeMove, length_natLe]
  unfold collWrites
  simp [htaken, Function.comp_def]

end Sys2Proof.Machine
end

section
/-! SUPPORT. What the participants of a gathered collective supply, and what each of them takes (R262). -/

namespace Sys2Proof.Machine

open Certificates

/-! ## Folds -/

theorem foldl_fixed {α β : Type} {f : β → α → β} {b : β} {l : List α} (h : ∀ x ∈ l, f b x = b) :
    l.foldl f b = b := by
  induction l with
  | nil => rfl
  | cons x r ih =>
    rw [List.foldl_cons, h x List.mem_cons_self]
    exact ih fun y hy => h y (List.mem_cons_of_mem x hy)

/-! ## What a participant supplies -/

/-- A participant with its operation, which is to read `n` elements of `size` bytes of main memory from `src`, and waits for
nothing. -/
structure State.Supplied (s : State) (x : CollPart × Op) (n size bytes src tile : Nat) : Prop where
  pending : s.Pending x.2 tile bytes
  home : x.2.wg = x.1.wg
  name : x.2.id = x.1.engine
  moves : x.2.body = .copy ((List.range n).map (fun k => sourceMove (src + k * size) size)) none tile tile false false 0 bytes 0
  plain : ∀ k, k < n → s.PlainAt (src + k * size) size
  near : ∀ k, k < n → s.reaches (dieOf x.2.core) (homeDie (src + k * size)) = true
  positive : 0 < size

section
variable {s : State} {x : CollPart × Op} {n size bytes src tile : Nat} (h : s.Supplied x n size bytes src tile)
include h

/-- The element of a participant's source at a position, as a number. -/
theorem State.Supplied.sourceOf :
    s.sourceOf x.2 = (List.range n).map (fun k => (leNat (memGetN s.mem (src + k * size) size), false)) := by
  obtain ⟨w, hw⟩ := h.pending.lives
  simp only [State.sourceOf, h.moves, hw, List.map_map]
  refine List.map_congr_left fun k hk => ?_
  have hk := List.mem_range.1 hk
  simp only [Function.comp]
  rw [State.moveValue_sourceMove (h.plain k hk) h.positive (h.near k hk) rfl]

theorem State.Supplied.readPart : s.readPart x.2 = s := by
  obtain ⟨w, hw⟩ := h.pending.lives
  have hread : s.readSources (x.2.mover w.ctxn none) ((List.range n).map (fun k => sourceMove (src + k * size) size)) = (s, 0) := by
    refine foldl_fixed fun mv hmv => ?_
    obtain ⟨k, hk, rfl⟩ := List.mem_map.1 hmv
    have hk := List.mem_range.1 hk
    dsimp only
    rw [State.readSource_sourceMove (h.plain k hk) h.positive (h.near k hk) rfl]
    rfl
  simp only [State.readPart, h.moves, hw, hread]

theorem State.Supplied.unread : s.unread x.2 = false := by
  have hmain : needRemote ((List.range n).map (fun k => sourceMove (src + k * size) size)) = false := by
    simp [needRemote, sourceMove]
  simp only [State.unread, h.moves, hmain, Bool.and_false]

/-- All elements of such a participant can be read. -/
theorem State.Supplied.bad_localPart (j : Nat) : (s.localPart x.1 x.2).bad j = false := by
  simp only [State.localPart, h.sourceOf, List.getD_eq_getElem?_getD, List.getElem?_map]
  cases (List.range n)[j]? <;> rfl

theorem State.Supplied.value_localPart {k : Nat} (hk : k < n) :
    (s.localPart x.1 x.2).value k = leNat (memGetN s.mem (src + k * size) size) := by
  simp [State.localPart, h.sourceOf, List.getD_eq_getElem?_getD, hk]

theorem State.Supplied.cell_localPart {k : Nat} (hk : k < n) (a : BitVec 256) :
    (s.localPart x.1 x.2).cell k a
      = cellAdd a (addendValue x.1.fmt (BitVec.ofNat 64 (leNat (memGetN s.mem (src + k * size) size)))) := by
  simp [State.localPart, h.sourceOf, List.getD_eq_getElem?_getD, hk]

end

/-! ## What a participant takes -/

theorem collValue_broadcast {pkgs : List Nat} {ps : List Partaker} {lost : Bool} {p : CollPart} {here : Nat} {x : List Nat}
    {q : Partaker} (hop : p.op = 2) (hroot : ps.find? (fun q => q.index == p.root) = some q) :
    collValue pkgs ps lost p here x = some (q.elem (rowMajor q.src.ext x)) := by
  simp only [collValue, hop, hroot]

theorem collValue_reduction {pkgs : List Nat} {ps : List Partaker} {p : CollPart} {here : Nat} {x : List Nat} (hop : p.op = 4) :
    collValue pkgs ps false p here x = some (sumOf (ps.map (fun q => (q, rowMajor q.src.ext x))) p.dstFmt) := by
  simp [collValue, hop]

/-- A sum of elements that can all be read. -/
theorem sumOf_good {ps : List (Partaker × Nat)} (h : ∀ q ∈ ps, q.1.bad q.2 = false) (fmt : Nat) :
    sumOf ps fmt = (cellRead (ps.foldl (fun c q => q.1.cell q.2 c) 0) fmt, false) := by
  have hany : ps.any (fun q => q.1.bad q.2) = false := by simpa using h
  simp only [sumOf, reduced, hany, Bool.false_eq_true, if_false]

/-! ## Agreement -/

/-- Participants that are alike agree. -/
theorem partsAgree_of_alike {l : List CollPart} {op fmt : Nat} {sh : Shape}
    (h : ∀ p ∈ l, p.op = op ∧ p.fmt = fmt ∧ p.src = sh ∧ p.dst = sh) : partsAgree l = true := by
  cases l with
  | nil => rfl
  | cons p r =>
    obtain ⟨hop, hfmt, hsrc, hdst⟩ := h p List.mem_cons_self
    have hall : ∀ q ∈ r, q.op = op ∧ q.fmt = fmt ∧ q.src = sh ∧ q.dst = sh := fun q hq => h q (List.mem_cons_of_mem p hq)
    simp only [partsAgree, hop, hfmt, hsrc, hdst, beq_self_eq_true, Bool.or_true, Bool.and_true, List.all_eq_true]
    intro q hq
    obtain ⟨hop, hfmt, hsrc, hdst⟩ := hall q hq
    simp [hop, hfmt, hsrc, hdst]

/-- Participants of two operations disagree. -/
theorem partsAgree_of_op_ne {l : List CollPart} {p q : CollPart} (hp : p ∈ l) (hq : q ∈ l) (h : p.op ≠ q.op) :
    partsAgree l = false := by
  cases l with
  | nil => simp at hp
  | cons a r =>
    obtain ⟨b, hb, hne⟩ : ∃ b ∈ r, b.op ≠ a.op := by
      rcases List.mem_cons.1 hp with rfl | hp
      · rcases List.mem_cons.1 hq with rfl | hq
        · exact absurd rfl h
        · exact ⟨q, hq, h.symm⟩
      · by_cases hpa : p.op = a.op
        · rcases List.mem_cons.1 hq with rfl | hq
          · exact absurd hpa h
          · exact ⟨q, hq, fun hqa => h (hpa.trans hqa.symm)⟩
        · exact ⟨p, hp, hpa⟩
    have hall : r.all (fun q => q.op == a.op && q.fmt == a.fmt && q.src.gext == a.src.gext && q.dst.gext == a.dst.gext
        && ((a.op != 2 && a.op != 4) || (q.src.ext == a.src.ext && q.dst.ext == a.dst.ext))) = false := by
      rw [List.all_eq_false]
      exact ⟨b, hb, by simp [hne]⟩
    rw [partsAgree, hall, Bool.false_and]

end Sys2Proof.Machine
end

section
/-! SUPPORT. A gathered collective completes (R137, R262). -/

namespace Sys2Proof.Machine

open Certificates

/-- The change that the end of its operation makes in a participant's workgroup. -/
def takesRuns (runs : CollPart → List (Nat × List Byte)) (tile : CollPart → Nat) (bytes err : Nat) (x : CollPart × Op) :
    Workgroup → Workgroup :=
  Workgroup.filled (runs x.1) (tile x.1) (arrivedErr bytes err ∘ capOor)

/-- A state without a collective that is complete. -/
def State.without (s : State) (c : Coll) : State := { s with colls := s.colls.filter (fun x => x.id != c.id) }

theorem State.Supplied.without {s : State} {x : CollPart × Op} {n size bytes src tile : Nat} (c : Coll)
    (h : s.Supplied x n size bytes src tile) : (s.without c).Supplied x n size bytes src tile := by
  obtain ⟨⟨hfound, hlives, hfree, hfresh, hcopies⟩, hhome, hname, hmoves, hplain, hnear, hpos⟩ := h
  exact ⟨⟨hfound, hlives, hfree, hfresh, hcopies⟩, hhome, hname, hmoves,
    fun k hk => ⟨(hplain k hk).plain, (hplain k hk).clean⟩, hnear, hpos⟩

/-- A destination has taken bytes, or is as it was. -/
def Takes (f : Option (Nat → Byte)) (m m' : Memory) (a n : Nat) : Prop :=
  match f with
  | some g => Holds m m' a n g
  | none => m' = m

theorem Workgroup.filled_frame (runs : List (Nat × List Byte)) (tile : Nat) (g : Tile → Tile) (w : Workgroup) :
    w.filled runs tile g = { w with
      spad := (w.filled runs tile g).spad, spadErr := (w.filled runs tile g).spadErr, tiles := w.tiles.modify tile g } := by
  rw [Workgroup.filled_eq]

/-- What the participants here supply. -/
def suppliers (s : State) (c : Coll) : List Partaker := (s.collOps c).map (fun x => s.localPart x.1 x.2)

theorem find?_suppliers (s : State) (c : Coll) (root : Nat) :
    (suppliers s c).find? (fun q => q.index == root)
      = ((s.collOps c).find? (fun x => x.1.index == root)).map (fun x => s.localPart x.1 x.2) := by
  rw [suppliers, List.find?_map]
  rfl

theorem copyCodebook_of_fmt (s : State) (c : Coll) (rx : List CollRx) {p : CollPart} (hp : p.fmt ≠ 9) :
    s.copyCodebook c rx p = s := by
  simp [State.copyCodebook, hp]

section
variable {s : State} {c : Coll} {sh : Shape} {n size dsize fmt : Nat} {src dst tile : CollPart → Nat}
  (h : Gathered s c sh n size dsize fmt src dst tile)
include h

/-! ## The participants and their operations -/

theorem map_fst_collOps : (s.collOps c).map (·.1) = c.parts := by
  have hfound : ∀ p ∈ c.parts, (((s.ops.find? (fun o => o.id == p.engine)).map (fun o => (p, o))).map (·.1)) = some p := by
    intro p hp
    obtain ⟨o, w, ho, -⟩ := h.reads p hp
    rw [ho]
    rfl
  rw [State.collOps, List.map_filterMap, List.filterMap_eq_map_iff_forall_eq_some.2 hfound, List.map_id']

theorem supplied_of_mem_collOps {x : CollPart × Op} (hx : x ∈ s.collOps c) :
    x.1 ∈ c.parts ∧ s.Supplied x n size (n * dsize) (src x.1) (tile x.1) := by
  obtain ⟨p, hp, hmap⟩ := List.mem_filterMap.1 hx
  obtain ⟨o, w, ho, hwg, hw, -, hfree, hfresh, hbody, hsrc⟩ := h.reads p hp
  rw [ho] at hmap
  obtain rfl : (p, o) = x := Option.some.inj hmap
  have hid : o.id = p.engine := by simpa using List.find?_some ho
  have hpending : s.Pending o (tile p) (n * dsize) := ⟨hid ▸ ho, ⟨w, hwg ▸ hw⟩, hfree, hfresh, ⟨_, hbody⟩⟩
  refine ⟨hp, ⟨hpending, hwg, hid, hbody, fun k hk => ?_, fun k hk => ?_, h.positive.1⟩⟩
  · obtain ⟨hplain, -, hclean⟩ := hsrc k hk
    exact ⟨hplain, hclean⟩
  · exact (hsrc k hk).2.1

theorem map_wg_collOps : (s.collOps c).map (·.2.wg) = c.parts.map (·.wg) := by
  rw [← map_fst_collOps h, List.map_map]
  exact List.map_congr_left fun x hx => (supplied_of_mem_collOps h hx).2.home

theorem map_id_collOps : (s.collOps c).map (·.2.id) = c.parts.map (·.engine) := by
  rw [← map_fst_collOps h, List.map_map]
  exact List.map_congr_left fun x hx => (supplied_of_mem_collOps h hx).2.name

/-! ## Nobody is away -/

theorem collAway_eq_nil : s.collAway c = [] := by
  rw [State.collAway, List.filter_eq_nil_iff]
  intro i hi
  have := h.all.2.2 i (List.mem_range.1 hi)
  simpa using this

theorem collIdle_gathered : s.collIdle c = true := by
  have hfree : (s.collOps c).all (fun x => !s.opWaits x.2) = true := by
    rw [List.all_eq_true]
    intro x hx
    rw [(supplied_of_mem_collOps h hx).2.pending.free]
    rfl
  simp [State.collIdle, h.all.1, h.all.2.1, collAway_eq_nil h, hfree]

theorem unread_gathered : (s.collOps c).any (fun x => s.unread x.2) = false := by
  rw [List.any_eq_false]
  intro x hx
  simp [(supplied_of_mem_collOps h hx).2.unread]

theorem exec_collectiveComplete : exec (.collectiveComplete c.id) s = .next (s.collFinish c) := by
  have hheard : s.collHeard c = true := by simp [State.collHeard, collAway_eq_nil h]
  have hexec : exec (.collectiveComplete c.id) s = execCollectiveComplete c.id s := rfl
  simp only [hexec, execCollectiveComplete, h.here, collIdle_gathered h, unread_gathered h, collAway_eq_nil h, hheard,
    Bool.not_true, Bool.false_eq_true, if_false, List.isEmpty_nil, if_true, Bool.true_or]

/-! ## The end -/

/-- The operations of a gathered collective end one after another. -/
theorem endedWith_gathered {step : State → CollPart × Op → State} {runs : CollPart → List (Nat × List Byte)} {err : Nat}
    (hruns : ∀ p ∈ c.parts, runBytes (runs p) ≤ n * dsize)
    (hstep : ∀ s', ∀ x ∈ s.collOps c, step s' x = s'.finishPart x.2 ((runs x.1).map storeMove) err) :
    (s.without c).EndedWith ((s.collOps c).foldl step (s.without c)) (s.collOps c) (takesRuns runs tile (n * dsize) err) := by
  refine State.endedWith_foldl (tile := tile) (bytes := n * dsize) (fun x => Workgroup.filled_keepsId _ _ _) ?_ ?_ ?_ ?_
  · intro s' x hx hpending
    rw [hstep s' x hx]
    exact State.finishPart_eq hpending (hruns _ (supplied_of_mem_collOps h hx).1) err
  · exact fun x hx => ((supplied_of_mem_collOps h hx).2.without c).pending
  · exact map_wg_collOps h ▸ h.distinct.1
  · exact map_id_collOps h ▸ h.distinct.2

theorem completed_of_endedWith {s' : State} {runs : CollPart → List (Nat × List Byte)} {err : Nat} {f : Option (Nat → Byte)}
    (hend : (s.without c).EndedWith s' (s.collOps c) (takesRuns runs tile (n * dsize) err))
    (hf : ∀ p ∈ c.parts, ∀ w : Workgroup, w.spad.wf = true →
      ∀ g, Takes f w.spad (w.filled (runs p) (tile p) g).spad (dst p) (n * dsize)) :
    Completed s s' c n dsize err dst tile f := by
  obtain ⟨hparts, hothers, hrest⟩ := hend
  refine ⟨?_, ?_, ?_⟩
  · intro p hp w hw
    obtain ⟨x, hx, rfl⟩ : ∃ x ∈ s.collOps c, x.1 = p := List.mem_map.1 (map_fst_collOps h ▸ hp)
    have hhome := (supplied_of_mem_collOps h hx).2.home
    obtain ⟨_, v, -, -, hv, hwf, -⟩ := h.reads x.1 hp
    obtain rfl : v = w := Option.some.inj (hv.symm.trans hw)
    have hy := hparts x hx v (hhome ▸ hw)
    rw [hhome] at hy
    refine ⟨_, hy, hf x.1 hp v hwf _, ?_⟩
    rw [List.modify_modify_eq, ← arrivedErr_eq]
    exact Workgroup.filled_frame _ _ _ v
  · intro k hk
    refine hothers k fun x hx => ?_
    obtain ⟨hp, hx⟩ := supplied_of_mem_collOps h hx
    exact hx.home ▸ hk x.1 hp
  · rw [map_id_collOps h] at hrest
    rw [hrest]
    rfl

/-! ## Participants that disagree -/

theorem collFinish_disagree (hne : partsAgree c.parts = false) :
    s.collFinish c = (s.collOps c).foldl (fun s x => s.finishPart x.2 [] 3) (s.without c) := by
  have haway := collAway_eq_nil h
  have hdrop : s.dropArrived c = s.collRx := by rw [State.dropArrived, haway]; rfl
  simp only [State.collFinish, hne, Bool.false_and, Bool.not_false, if_true, hdrop]
  rfl

theorem collective_disagrees (hne : partsAgree c.parts = false) :
    ∃ s', exec (.collectiveComplete c.id) s = .next s' ∧ Completed s s' c n dsize 3 dst tile none := by
  refine ⟨_, exec_collectiveComplete h, ?_⟩
  rw [collFinish_disagree h hne]
  exact completed_of_endedWith h (endedWith_gathered h (runs := fun _ => []) (fun _ _ => Nat.zero_le _) fun _ _ _ => rfl)
    fun _ _ _ _ _ => rfl

/-! ## Participants that agree -/

theorem collFinish_agree (hagree : partsAgree c.parts = true) :
    s.collFinish c = (s.collOps c).foldl (fun s' x =>
      let w := collWrites [s.pkg] (suppliers s c) false x.1 s.pkg
      s'.finishPart x.2 w.1 (if w.2 then 1 else 0)) (s.without c) := by
  have haway := collAway_eq_nil h
  have hdrop : s.dropArrived c = s.collRx := by rw [State.dropArrived, haway]; rfl
  have hheard : s.collHeard c = true := by simp [State.collHeard, haway]
  have hnone : s.collArrived c = [] := by rw [State.collArrived, haway]; rfl
  have hread : ((s.collOps c).filter (fun x => x.1.taken)).foldl (fun s x => s.readPart x.2) (s.without c) = s.without c :=
    foldl_fixed fun x hx => ((supplied_of_mem_collOps h (List.mem_of_mem_filter hx)).2.without c).readPart
  have hcopy : c.parts.foldl (fun s p => s.copyCodebook c [] p) (s.without c) = s.without c :=
    foldl_fixed fun p hp => copyCodebook_of_fmt _ c [] ((h.shape p hp).1 ▸ h.positive.2.2)
  have hlocal : c.parts.all (fun p => ([] : List CollRx).all (rxAgrees [s.pkg] p [])) = true := by simp
  have hwithout : ({ s with colls := s.colls.filter (fun x => x.id != c.id), collRx := s.collRx } : State) = s.without c := rfl
  simp only [State.collFinish, hagree, hheard, hnone, hdrop, List.filter_nil, List.map_nil, List.foldr_nil, hlocal, Bool.and_self,
    Bool.not_true, Bool.false_eq_true, if_false, hwithout, hread, hcopy, List.append_nil, suppliers]
  rfl

/-- Participants that agree, each of which takes the same value at a place, complete without ERR. -/
theorem collective_agrees (hagree : partsAgree c.parts = true) {v : Nat → Nat}
    (hv : ∀ p ∈ c.parts, ∀ x, collValue [s.pkg] (suppliers s c) false p s.pkg x = some (v (rowMajor sh.ext x), false))
    {f : Nat → Byte} (hf : ∀ i, i < n * dsize → BitVec.ofNat 8 (v (i / dsize) / 256 ^ (i % dsize)) = f i) :
    ∃ s', exec (.collectiveComplete c.id) s = .next s' ∧ Completed s s' c n dsize 0 dst tile (some f) := by
  have hwrites : ∀ x ∈ s.collOps c, collWrites [s.pkg] (suppliers s c) false x.1 s.pkg
      = ((elemRuns (dst x.1) dsize n v).map storeMove, false) := by
    intro x hx
    have hp := (supplied_of_mem_collOps h hx).1
    have hdst := (h.shape x.1 hp).2.2
    exact collWrites_eq (hdst ▸ h.count) (h.writes x.1 hp) (hdst ▸ hv x.1 hp)
  refine ⟨_, exec_collectiveComplete h, ?_⟩
  rw [collFinish_agree h hagree]
  refine completed_of_endedWith h (runs := fun p => elemRuns (dst p) dsize n v) (endedWith_gathered h (fun p _ => ?_) ?_) ?_
  · rw [runBytes_elemRuns]
  · intro s' x hx
    simp only [hwrites x hx, Bool.false_eq_true, if_false]
  · intro p hp w hw g
    have hholds := holds_filled_elemRuns hw (dst p) dsize n v (tile p) g
    intro a
    rw [hholds a]
    split
    · next ha => exact hf _ (by omega)
    · rfl

/-! ## Broadcast -/

/-- Each participant of a broadcast takes the elements of the root. -/
theorem collective_broadcasts {root : Nat} {q : CollPart} (hop : ∀ p ∈ c.parts, p.op = 2 ∧ p.root = root)
    (hroot : c.parts.find? (fun q => q.index == root) = some q) (hsize : dsize = size) :
    ∃ s', exec (.collectiveComplete c.id) s = .next s'
      ∧ Completed s s' c n size 0 dst tile (some (fun i => memGet s.mem (src q + i))) := by
  subst hsize
  obtain ⟨x, hx, rfl⟩ : ∃ x, (s.collOps c).find? (fun x => x.1.index == root) = some x ∧ x.1 = q := by
    rw [← map_fst_collOps h, List.find?_map, Option.map_eq_some_iff] at hroot
    exact hroot
  obtain ⟨hp, hsup⟩ := supplied_of_mem_collOps h (List.mem_of_find?_eq_some hx)
  have hagree : partsAgree c.parts = true := partsAgree_of_alike fun p hp => ⟨(hop p hp).1, h.shape p hp⟩
  refine collective_agrees h hagree (v := (s.localPart x.1 x.2).value) ?_ ?_
  · intro p hp' y
    obtain ⟨hop, hpr⟩ := hop p hp'
    have hfind : (suppliers s c).find? (fun q => q.index == p.root) = some (s.localPart x.1 x.2) := by
      rw [find?_suppliers, hpr, hx]
      rfl
    have hext : (s.localPart x.1 x.2).src.ext = sh.ext := congrArg Shape.ext (h.shape x.1 hp).2.1
    rw [collValue_broadcast hop hfind, hext, Partaker.elem, hsup.bad_localPart]
  · intro i hi
    have hpos : 0 < dsize := h.positive.1
    have hk : i / dsize < n := Nat.div_lt_of_lt_mul (Nat.mul_comm n dsize ▸ hi)
    have hmod := Nat.mod_lt i hpos
    have hbytes := natLe_leNat (memGetN s.mem (src x.1 + i / dsize * dsize) dsize)
    rw [length_memGetN] at hbytes
    rw [hsup.value_localPart hk, ← getD_natLe _ _ hmod, hbytes, getD_memGetN _ _ hmod, Nat.add_assoc, Nat.div_add_mod']

/-! ## Reduction -/

/-- The sum that each participant of a reduction takes. -/
theorem sum_suppliers {k : Nat} (hk : k < n) :
    (suppliers s c).foldl (fun a q => q.cell k a) 0 = c.parts.foldl (fun a p => cellAdd a (addendValue fmt
      (BitVec.ofNat 64 (leNat ((List.range size).map (fun i => memGet s.mem (src p + k * size + i))))))) 0 := by
  rw [suppliers, List.foldl_map, ← map_fst_collOps h, List.foldl_map]
  refine List.foldl_ext _ _ _ fun a x hx => ?_
  obtain ⟨hp, hsup⟩ := supplied_of_mem_collOps h hx
  rw [hsup.cell_localPart hk, (h.shape x.1 hp).1, memGetN_eq_map_range]

/-- Each participant of a reduction takes the rounded sums. -/
theorem collective_reduces {dfmt : Nat} (hop : ∀ p ∈ c.parts, p.op = 4 ∧ p.dstFmt = dfmt) :
    ∃ s', exec (.collectiveComplete c.id) s = .next s'
      ∧ Completed s s' c n dsize 0 dst tile (some (fun i => BitVec.ofNat 8 (cellRead
          (c.parts.foldl (fun a p => cellAdd a (addendValue fmt (BitVec.ofNat 64 (leNat ((List.range size).map
            (fun j => memGet s.mem (src p + i / dsize * size + j))))))) 0) dfmt / 256 ^ (i % dsize)))) := by
  have hagree : partsAgree c.parts = true := partsAgree_of_alike fun p hp => ⟨(hop p hp).1, h.shape p hp⟩
  refine collective_agrees h hagree (v := fun k => cellRead ((suppliers s c).foldl (fun a q => q.cell k a) 0) dfmt) ?_ ?_
  · intro p hp y
    obtain ⟨hop, hfmt⟩ := hop p hp
    have hplaces : (suppliers s c).map (fun q => (q, rowMajor q.src.ext y))
        = (suppliers s c).map (fun q => (q, rowMajor sh.ext y)) := by
      refine List.map_congr_left fun q hq => ?_
      obtain ⟨x, hx, rfl⟩ := List.mem_map.1 hq
      have hext : (s.localPart x.1 x.2).src.ext = sh.ext := congrArg Shape.ext (h.shape x.1 (supplied_of_mem_collOps h hx).1).2.1
      rw [hext]
    have hgood : ∀ q ∈ (suppliers s c).map (fun q => (q, rowMajor sh.ext y)), q.1.bad q.2 = false := by
      intro q hq
      obtain ⟨r, hr, rfl⟩ := List.mem_map.1 hq
      obtain ⟨x, hx, rfl⟩ := List.mem_map.1 hr
      exact (supplied_of_mem_collOps h hx).2.bad_localPart _
    rw [collValue_reduction hop, hplaces, sumOf_good hgood, hfmt, List.foldl_map]
  · intro i hi
    rw [sum_suppliers h (Nat.div_lt_of_lt_mul (Nat.mul_comm n dsize ▸ hi))]

end

end Sys2Proof.Machine
end

section
namespace Sys2Proof.Proofs

open Sys2Proof Machine Certificates

/-- The completion of a collective. -/
theorem collectiveCompletion : Certificates.CollectiveCompletion := by
  intro s c sh n size dsize fmt src dst tile h value
  refine ⟨fun root q => collective_broadcasts h, fun dfmt hop _ => collective_reduces h hop, fun p hp q hq hne => ?_⟩
  exact collective_disagrees h (partsAgree_of_op_ne hp hq hne)

/-- Settles O31, by what the issue of a collective adds to its gang's collective, and, for its completion, by ending the
participants' operations one after another: each stores the same values in row-major order in a workgroup of its own. -/
theorem collectiveOperations : Obligations.CollectiveOperations := ⟨collectives, collectiveCompletion⟩

end Sys2Proof.Proofs
end

section
/-! SUPPORT. What instructions that change only registers of their threads give, with rounding (R77, R128) and without.
The lemmas take the model's own meaning of an instruction (`execFrnd`, say) as `hexec`: it is `exec` at that instruction. -/

namespace Sys2Proof.Machine

open Certificates

/-! ## The stochastic stream (R128) -/

/-- One more than a doubleword: its low word. -/
theorem append_add_one_low (h l : Word) : ((h ++ l) + 1#64).setWidth 32 = l + 1#32 := by
  have hl := l.isLt
  apply BitVec.eq_of_toNat_eq
  rw [BitVec.toNat_setWidth, BitVec.toNat_add, BitVec.toNat_append, ← Nat.shiftLeft_add_eq_or_of_lt hl, Nat.shiftLeft_eq,
    BitVec.toNat_add, BitVec.toNat_ofNat, BitVec.toNat_ofNat]
  omega

/-- And its high word, which takes the carry. -/
theorem append_add_one_high (h l : Word) :
    (((h ++ l) + 1#64) >>> 32).setWidth 32 = if l = BitVec.allOnes 32 then h + 1#32 else h := by
  have hl := l.isLt
  have hh := h.isLt
  have hones : l = BitVec.allOnes 32 ↔ l.toNat = 2 ^ 32 - 1 := by rw [← BitVec.toNat_inj, BitVec.toNat_allOnes]
  apply BitVec.eq_of_toNat_eq
  rw [BitVec.toNat_setWidth, BitVec.toNat_ushiftRight, Nat.shiftRight_eq_div_pow, BitVec.toNat_add, BitVec.toNat_append,
    ← Nat.shiftLeft_add_eq_or_of_lt hl, Nat.shiftLeft_eq, BitVec.toNat_ofNat]
  split
  case isTrue hwrap =>
    rw [BitVec.toNat_add, BitVec.toNat_ofNat, hones.1 hwrap]
    omega
  case isFalse hstay =>
    have := mt hones.2 hstay
    omega

/-- The 64-bit counter advances by one: its low word by one, its high word where the low one wraps. -/
theorem Thread.srAdvance_one (t : Thread) : t.srAdvance 1 = { t with
    srctr0 := t.srctr0 + 1, srctr1 := if t.srctr0 = BitVec.allOnes 32 then t.srctr1 + 1 else t.srctr1 } := by
  show { t with srctr0 := BitVec.setWidth 32 _, srctr1 := BitVec.setWidth 32 _ } = _
  rw [append_add_one_low, append_add_one_high]
  rfl

/-! ## Instructions over a group -/

/-- A thread's name, and its place in the stochastic stream, are as they were. -/
structure SameStream (t t' : Thread) : Prop where
  key : t'.key = t.key
  low : t'.srctr0 = t.srctr0
  high : t'.srctr1 = t.srctr1

theorem setReg_sameStream (t : Thread) (n : Nat) (x : Word) : SameStream t (t.setReg n x) := by
  constructor <;> simp [Thread.key]

theorem setPair_sameStream (t : Thread) (n : Nat) (x : Dword) : SameStream t (t.setPair n x) := by
  constructor <;> simp [Thread.key]

/-- An instruction that writes a register of each thread with a value that the thread and its workgroup decide. -/
theorem gives_setReg {i : Instr} {d : Nat} {x y : Workgroup → Thread → Word}
    (hexec : ∀ s, exec i s = s.alu i fun w t => t.setReg d (x w t)) (heq : ∀ w t, x w t = y w t) :
    Gives i fun w t => t.setReg d (y w t) := by
  obtain rfl : x = y := funext fun w => funext (heq w)
  intro s hr
  rw [hexec]
  exact alu_did hr fun _ t => (setReg_sameStream t d _).key

/-- The same for a predicate. -/
theorem gives_setPred {i : Instr} {p : PReg} {x y : Workgroup → Thread → Bool}
    (hexec : ∀ s, exec i s = s.alu i fun w t => t.setPred p (x w t)) (heq : ∀ w t, x w t = y w t) :
    Gives i fun w t => t.setPred p (y w t) := by
  obtain rfl : x = y := funext fun w => funext (heq w)
  intro s hr
  rw [hexec]
  exact alu_did hr fun _ t => by simp [Thread.key]

/-- An instruction that rounds, and writes nothing that names the thread or its place in the stochastic stream. -/
theorem rounds_of_exec {i : Instr} {g : Workgroup → Thread → (Nat → Word) → Thread}
    (hexec : ∀ s, exec i s = s.rounding i fun w t l => g w t fun n => l.getD n 0)
    (hkeep : ∀ w t r, SameStream t (g w t r)) : Rounds i g := by
  intro s hr
  rw [hexec, State.rounding]
  simp only [beq_iff_eq, Thread.srAdvance_one, (hkeep _ _ _).low, (hkeep _ _ _).high]
  refine alu_did hr fun w t => ?_
  split
  · exact (hkeep w t _).key
  · exact (hkeep w t _).key

/-- The same where the model's meaning takes the words of the block as a list. -/
theorem rounds_of_exec_rounding {i : Instr} {x : Workgroup → Thread → List Word → Thread}
    {g : Workgroup → Thread → (Nat → Word) → Thread} (hexec : ∀ s, exec i s = s.rounding i x)
    (heq : ∀ w t l, x w t l = g w t fun n => l.getD n 0)
    (hkeep : ∀ w t r, SameStream t (g w t r)) : Rounds i g := by
  obtain rfl : x = fun w t l => g w t fun n => l.getD n 0 := funext fun w => funext fun t => funext (heq w t)
  exact rounds_of_exec hexec hkeep

/-- A rounding instruction that writes a register. -/
theorem rounds_setReg {i : Instr} {d : Nat} {x : Workgroup → Thread → List Word → Word}
    {y : Workgroup → Thread → (Nat → Word) → Word}
    (hexec : ∀ s, exec i s = s.rounding i fun w t l => t.setReg d (x w t l))
    (heq : ∀ w t l, x w t l = y w t fun n => l.getD n 0) : Rounds i fun w t r => t.setReg d (y w t r) :=
  rounds_of_exec_rounding hexec (fun w t l => congrArg (t.setReg d) (heq w t l)) fun _ t _ => setReg_sameStream t d _

/-- A rounding instruction that writes a pair of registers. -/
theorem rounds_setPair {i : Instr} {d : Nat} {x : Workgroup → Thread → List Word → Dword}
    {y : Workgroup → Thread → (Nat → Word) → Dword}
    (hexec : ∀ s, exec i s = s.rounding i fun w t l => t.setPair d (x w t l))
    (heq : ∀ w t l, x w t l = y w t fun n => l.getD n 0) : Rounds i fun w t r => t.setPair d (y w t r) :=
  rounds_of_exec_rounding hexec (fun w t l => congrArg (t.setPair d) (heq w t l)) fun _ t _ => setPair_sameStream t d _

/-! ## FP32 and FP64 arithmetic (R143, R146, R147, R154) -/

/-- An FP32 instruction is its exact result, finished once. -/
theorem roundsFp32_of_exec {i : Instr} {f : V3} {e : Num → Num → Num → Num}
    (hexec : ∀ s, exec i s = s.fp32 i f fun w t => e (V3.numA f w t) (V3.numB f w t) (V3.numC f w t)) : RoundsFp32 i f e :=
  rounds_setReg hexec fun _ _ _ => rfl

/-- The same for FP64. -/
theorem roundsFp64_of_exec {i : Instr} {f : V3} {e : Num → Num → Num → Num} (hexec : ∀ s, exec i s = s.fp64 i f e) :
    RoundsFp64 i f e :=
  rounds_setPair hexec fun _ _ _ => rfl

/-- FRND (R146): a value that is not finite stays as it is. -/
theorem frnd_rounds (f : V3) : Rounds (.frnd f) fun w t r => t.setReg f.d.toNat (BitVec.ofNat 32 (clamped .fp32 f.fm
    (match sourceIn .fp32 f.fm.modA (f.srcA w t) with
     | .fin s n d => .fin s (roundInt f.fm.rm (r 0) s n d).natAbs 1
     | x => x))) := by
  refine rounds_setReg (fun s => (rfl : _ = execFrnd f s)) fun w t l => ?_
  show BitVec.ofNat 32 (clamped .fp32 f.fm (roundIntegral f.fm.rm (l.getD 0 0) (sourceIn .fp32 f.fm.modA (f.srcA w t)))) = _
  cases sourceIn .fp32 f.fm.modA (f.srcA w t) <;> rfl

/-- FSCL (R147): the exponent is limited from both sides. -/
theorem fscl_rounds (f : V3) : Rounds (.fscl f) fun w t r => t.setReg f.d.toNat (BitVec.ofNat 32 (Fmt.fp32.clampEncode f.fm.clamp
    (Fmt.fp32.round f.fm.rm (r 0)
      ((sourceIn .fp32 f.fm.modA (f.srcA w t)).scale (max (-512) (min 511 (f.srcB w t).toInt)))))) := by
  refine rounds_setReg (fun s => (rfl : _ = execFscl f s)) fun w t l => ?_
  rw [min_comm 511]
  rfl

theorem fp32Arithmetic : Fp32Arithmetic := fun f =>
  ⟨roundsFp32_of_exec fun _ => rfl, roundsFp32_of_exec fun _ => rfl, roundsFp32_of_exec fun _ => rfl,
    roundsFp32_of_exec fun _ => rfl, roundsFp32_of_exec fun _ => rfl, frnd_rounds f, fscl_rounds f⟩

theorem fp64Arithmetic : Fp64Arithmetic := fun _ =>
  ⟨roundsFp64_of_exec fun _ => rfl, roundsFp64_of_exec fun _ => rfl, roundsFp64_of_exec fun _ => rfl⟩

end Sys2Proof.Machine
end

section
/-! SUPPORT. The values that the floating-point instructions select, classify, convert and look up (R144 to R153), and what the
instructions give. -/

namespace Sys2Proof.Machine

open Certificates

/-! ## Fields of a word as numbers -/

theorem toNat_bits {n : Nat} (x : BitVec n) (hi lo : Nat) : (bits x hi lo).toNat = x.toNat / 2 ^ lo % 2 ^ (hi - lo + 1) := by
  rw [BitVec.extractLsb_toNat, Nat.shiftRight_eq_div_pow]

theorem toNat_bits_low {n : Nat} (x : BitVec n) (hi : Nat) : (bits x hi 0).toNat = x.toNat % 2 ^ (hi + 1) := by
  rw [toNat_bits, Nat.pow_zero, Nat.div_one, Nat.sub_zero]

/-- ABS and NEG of the low bits of a register, read in a format (R77, R139). -/
theorem modNum_decode_low {n : Nat} (fmt : Fmt) (m : Bool × Bool) (x : BitVec n) (hi : Nat) :
    modNum m (fmt.decode (x.toNat % 2 ^ (hi + 1))) = sourceIn fmt m (bits x hi 0) := by
  rw [← toNat_bits_low]
  rfl

/-! ## Minimum and maximum (R144) -/

/-- The order of the selection is that of values, with −0 before +0. -/
theorem selectMinMax_eq (isMax : Bool) (a b : Num) : selectMinMax isMax a b
    = if a = .nan then b else if b = .nan then a else if (comesBefore a b != isMax) = true then a else b := by
  cases a with
  | nan => cases b <;> rfl
  | inf s => cases b <;> cases s <;> simp [selectMinMax, comesBefore, isNeg, Num.lt]
  | fin s n d => cases b <;> cases s <;> simp [selectMinMax, comesBefore, isNeg, Num.lt]

theorem selectMinMax_false (a b : Num) : selectMinMax false a b = smaller a b := by
  simp [selectMinMax_eq, smaller]

theorem selectMinMax_true (a b : Num) : selectMinMax true a b = larger a b := by
  rw [selectMinMax_eq, larger]
  cases comesBefore a b <;> rfl

theorem fmin_gives (f : V3) : Gives (.fmin f) fun w t => t.setReg f.d.toNat (BitVec.ofNat 32 (clamped .fp32 f.fm
    (smaller (sourceIn .fp32 f.fm.modA (f.srcA w t)) (sourceIn .fp32 f.fm.modB (f.srcB w t))))) :=
  gives_setReg (fun s => (rfl : _ = execFmin f s)) fun _ _ =>
    congrArg (fun y => BitVec.ofNat 32 (clamped .fp32 f.fm y)) (selectMinMax_false _ _)

theorem fmax_gives (f : V3) : Gives (.fmax f) fun w t => t.setReg f.d.toNat (BitVec.ofNat 32 (clamped .fp32 f.fm
    (larger (sourceIn .fp32 f.fm.modA (f.srcA w t)) (sourceIn .fp32 f.fm.modB (f.srcB w t))))) :=
  gives_setReg (fun s => (rfl : _ = execFmax f s)) fun _ _ =>
    congrArg (fun y => BitVec.ofNat 32 (clamped .fp32 f.fm y)) (selectMinMax_true _ _)

/-! ## Classes (R148) -/

/-- The one bit of nine, by the exponent, the fraction and the sign. -/
theorem classMask_eq (x : Word) : BitVec.ofNat 32 (classMask x) = 1 <<< (
    if bits x 30 23 = 255 then (if bits x 22 0 ≠ 0 then 8 else if bit x 31 = true then 0 else 7)
    else if bits x 30 23 = 0 ∧ bits x 22 0 = 0 then (if bit x 31 = true then 3 else 4)
    else if bits x 30 23 = 0 then (if bit x 31 = true then 2 else 5)
    else if bit x 31 = true then 1 else 6) := by
  have hexp (n : Byte) : bits x 30 23 = n ↔ x.toNat / 2 ^ 23 % 256 = n.toNat := by
    rw [← BitVec.toNat_inj, toNat_bits]
    rfl
  have hones : bits x 30 23 = 255 ↔ x.toNat / 2 ^ 23 % 256 = 255 := hexp 255
  have hzero : bits x 30 23 = 0 ↔ x.toNat / 2 ^ 23 % 256 = 0 := hexp 0
  have hfrac : bits x 22 0 = 0 ↔ x.toNat % 2 ^ 23 = 0 := by
    rw [← BitVec.toNat_inj, toNat_bits_low]
    rfl
  simp only [classMask, beq_iff_eq, bne_iff_ne, ne_eq, hones, hzero, hfrac]
  generalize x.toNat / 2 ^ 23 % 256 = e
  generalize x.toNat % 2 ^ 23 = fr
  by_cases he : e = 255
  case pos =>
    by_cases hf : fr = 0 <;> cases bit x 31 <;> simp [he, hf]
  case neg =>
    by_cases he0 : e = 0
    case pos => by_cases hf : fr = 0 <;> cases bit x 31 <;> simp [he0, hf]
    case neg => cases bit x 31 <;> simp [he, he0]

theorem fclass_gives (f : V3) : Gives (.fclass f) fun w t =>
    let x := f.srcA w t
    t.setReg f.d.toNat (1 <<< (
      if bits x 30 23 = 255 then (if bits x 22 0 ≠ 0 then 8 else if bit x 31 = true then 0 else 7)
      else if bits x 30 23 = 0 ∧ bits x 22 0 = 0 then (if bit x 31 = true then 3 else 4)
      else if bits x 30 23 = 0 then (if bit x 31 = true then 2 else 5)
      else if bit x 31 = true then 1 else 6)) :=
  gives_setReg (fun s => (rfl : _ = execFclass f s)) fun w t => classMask_eq (f.srcA w t)

/-! ## Comparisons (R145) -/

/-- No value lies below a NaN, and a NaN lies below none. -/
theorem Num.ne_nan_of_lt {x y : Num} (h : x.lt y = true) : x ≠ .nan ∧ y ≠ .nan := by
  constructor
  · rintro rfl
    cases h
  · rintro rfl
    cases x <;> cases h

theorem Num.ordered_and_lt (x y : Num) : (decide (x ≠ .nan) && decide (y ≠ .nan) && x.lt y) = x.lt y := by
  cases h : x.lt y with
  | false => exact Bool.and_false _
  | true => simp [Num.ne_nan_of_lt h]

theorem Num.unordered_eq (x y : Num) : (x == .nan || y == .nan) = !(decide (x ≠ .nan) && decide (y ≠ .nan)) := by
  simp only [Bool.not_and, decide_not, Bool.not_not, beq_eq_decide]

theorem Num.eqv_eq (x y : Num) : x.eqv y = (decide (x ≠ .nan) && decide (y ≠ .nan) && !x.lt y && !y.lt x) := by
  simp only [Num.eqv, bne, decide_not, beq_eq_decide]

/-- Each condition of FCMP, where "ordered" says that neither value is a NaN; no value lies below or above a NaN. -/
theorem fcmpHolds_eq (cond : BitVec 3) (a b : Num) : fcmpHolds cond a b =
    let ordered := decide (a ≠ .nan) && decide (b ≠ .nan)
    match cond with
    | 0 => ordered && !a.lt b && !b.lt a
    | 1 => !(ordered && !a.lt b && !b.lt a)
    | 2 => ordered && a.lt b
    | 3 => ordered && !b.lt a
    | 4 => ordered && b.lt a
    | 5 => ordered && !a.lt b
    | 6 => ordered
    | _ => !ordered := by
  have hcond : ∀ c : BitVec 3, c = 0 ∨ c = 1 ∨ c = 2 ∨ c = 3 ∨ c = 4 ∨ c = 5 ∨ c = 6 ∨ c = 7 := by decide
  have hun := Num.unordered_eq a b
  have hord : (!(a == .nan || b == .nan)) = (decide (a ≠ .nan) && decide (b ≠ .nan)) := by rw [hun, Bool.not_not]
  rcases hcond cond with rfl | rfl | rfl | rfl | rfl | rfl | rfl | rfl
  · exact Num.eqv_eq a b
  · show ((a == .nan || b == .nan) || !a.eqv b) = _
    rw [hun, Num.eqv_eq]
    cases decide (a ≠ .nan) && decide (b ≠ .nan) <;> rfl
  · exact (Num.ordered_and_lt a b).symm
  · exact congrArg (· && !b.lt a) hord
  · show b.lt a = (decide (a ≠ .nan) && decide (b ≠ .nan) && b.lt a)
    rw [Bool.and_comm (decide (a ≠ .nan)), Num.ordered_and_lt]
  · exact congrArg (· && !a.lt b) hord
  · exact hord
  · exact hun

theorem fcmp_gives (f : CmpForm) : Gives (.fcmp f) fun w t =>
    let a := sourceIn .fp32 f.fm.modA (f.srcA w t)
    let b := sourceIn .fp32 f.fm.modB (f.srcB w t)
    let ordered := decide (a ≠ .nan) && decide (b ≠ .nan)
    t.setPred f.pd (match f.cond with
      | 0 => ordered && !a.lt b && !b.lt a
      | 1 => !(ordered && !a.lt b && !b.lt a)
      | 2 => ordered && a.lt b
      | 3 => ordered && !b.lt a
      | 4 => ordered && b.lt a
      | 5 => ordered && !a.lt b
      | 6 => ordered
      | _ => !ordered) :=
  gives_setPred (fun s => (rfl : _ = execFcmp f s)) fun _ _ => fcmpHolds_eq _ _ _

/-! ## Conversions (R149, R150) -/

/-- The format codes of a well-formed conversion (R140). -/
theorem codes_of_cvtOk {f : RI8} {isD : Bool} (h : cvtOk f isD = true) :
    (bits f.imm 7 4).toNat ≤ 8 ∧ ((bits f.imm 3 0).toNat ≤ 8 ∨ (bits f.imm 3 0).toNat = 10) := by
  have hcodes := (Bool.and_eq_true_iff.1 h).1
  generalize (bits f.imm 7 4).toNat = dst at hcodes ⊢
  generalize (bits f.imm 3 0).toNat = src at hcodes ⊢
  cases isD with
  | false =>
    simp only [Bool.false_eq_true, if_false, Bool.and_eq_true, Bool.or_eq_true, decide_eq_true_iff, beq_iff_eq] at hcodes
    omega
  | true =>
    simp only [if_true, Bool.and_eq_true, List.contains_eq_mem, decide_eq_true_iff, List.mem_cons, List.not_mem_nil, or_false]
      at hcodes
    omega

theorem eq_true_of_firstError_codeIf {a : Option DecodeError} {b : Bool} (h : (firstError a (codeIf b)).isNone = true) :
    b = true := by
  cases a with
  | some e => cases h
  | none =>
    cases b with
    | false => cases h
    | true => rfl

theorem cvtOk_of_wf_fcvt {f : RI8} (h : (Instr.fcvt f).wf = true) : cvtOk f false = true :=
  eq_true_of_firstError_codeIf (Bool.and_eq_true_iff.1 (Bool.and_eq_true_iff.1 h).1).2

theorem cvtOk_of_wf_dcvt {f : RI8} (h : (Instr.dcvt f).wf = true) : cvtOk f true = true :=
  eq_true_of_firstError_codeIf (Bool.and_eq_true_iff.1 (Bool.and_eq_true_iff.1 h).1).2

/-- An E8M0 scale is the power of two that its biased exponent names (R120). -/
theorem e8m0_eq (b : Nat) : e8m0 b
    = let e := b % 256
      if e = 255 then .nan else if 127 ≤ e then .fin false (2 ^ (e - 127)) 1 else .fin false 1 (2 ^ (127 - e)) := by
  unfold e8m0
  generalize b % 256 = e
  simp only [beq_iff_eq]
  split
  · rfl
  · simp only [Num.scale, scale2]
    by_cases he : 127 ≤ e
    case pos =>
      have hexp : ((e : Int) - 127).toNat = e - 127 := by omega
      simp [he, hexp]
    case neg =>
      have hneg : ¬ (0 : Int) ≤ (e : Int) - 127 := by omega
      have hexp : (-((e : Int) - 127)).toNat = 127 - e := by omega
      rw [if_neg hneg, if_neg he, hexp, Nat.one_mul]

/-- ABS and NEG of an INT64 (R77): the sign bit tells a negative value. -/
theorem cvtSource_int64 (m : Bool × Bool) (x : Dword) : cvtSource 7 m x.toNat = converted 7 m x := by
  have hsign : (m.1 && bit x 63) = true ↔ m.1 = true ∧ x.toInt < 0 := by
    rw [Bool.and_eq_true, show bit x 63 = x.msb from rfl, BitVec.msb_eq_toInt, decide_eq_true_iff]
  unfold cvtSource converted
  simp only [BitVec.ofNat_toNat, BitVec.setWidth_eq, hsign]

theorem ofNat_toNat_eq_bits {n : Nat} (x : BitVec n) (hi : Nat) : BitVec.ofNat (hi + 1) x.toNat = bits x hi 0 := by
  apply BitVec.eq_of_toNat_eq
  rw [toNat_bits_low, BitVec.toNat_ofNat]

/-- The source of a conversion, in each of the formats (R139, R149). -/
theorem cvtSource_eq_converted {fmt : Nat} (h : fmt ≤ 8 ∨ fmt = 10) (m : Bool × Bool) (x : Dword) :
    cvtSource fmt m x.toNat = converted fmt m x := by
  have hfloat (g : Fmt) (hi : Nat) := modNum_decode_low g m x hi
  rcases h with h | rfl
  · interval_cases fmt
    · exact hfloat .fp32 31
    · exact hfloat .fp16 15
    · exact hfloat .bf16 15
    · exact hfloat .e4m3 7
    · exact hfloat .e5m2 7
    · exact congrArg (fun y : BitVec 8 => Num.ofInt (modInt m (y.signExtend 32)).toInt) (ofNat_toNat_eq_bits x 7)
    · exact congrArg (fun y : Word => Num.ofInt (modInt m y).toInt) (ofNat_toNat_eq_bits x 31)
    · exact cvtSource_int64 m x
    · show modNum m (Fmt.fp64.decode (x.toNat % 2 ^ 64)) = _
      rw [Nat.mod_eq_of_lt x.isLt]
      rfl
  · show modNum m (e8m0 (x.toNat % 2 ^ (7 + 1))) = _
    rw [← toNat_bits_low x 7, e8m0_eq, Nat.mod_eq_of_lt (bits x 7 0).isLt]
    rfl

/-- The result of a conversion, in each of the formats (R125, R149, R150). -/
theorem cvtResult_eq_convertedTo {fmt : Nat} (h : fmt ≤ 8) (f : Form) (r : Word) (x : Num) :
    cvtResult fmt f r x = convertedTo fmt f r x := by
  interval_cases fmt <;> rfl

/-- FCVT (R149). -/
theorem fcvt_rounds {f : RI8} (hwf : (Instr.fcvt f).wf = true) :
    Rounds (.fcvt f) fun w t r => t.setReg f.d.toNat (BitVec.ofNat 32 (convertedTo (bits f.imm 7 4).toNat f.fm (r 0)
      (converted (bits f.imm 3 0).toNat f.fm.modA ((f.srcA w t).setWidth 64)))) := by
  obtain ⟨hdst, hsrc⟩ := codes_of_cvtOk (cvtOk_of_wf_fcvt hwf)
  refine rounds_setReg (fun s => (rfl : _ = execFcvt f s)) fun w t l => ?_
  rw [cvtResult_eq_convertedTo hdst, ← cvtSource_eq_converted hsrc, BitVec.toNat_setWidth_of_le (by decide)]

/-- INT64 and FP64 take a pair of registers (R150). -/
theorem cvtRegs_eq_two (fmt : Nat) : (cvtRegs fmt == 2) = decide (fmt = 7 ∨ fmt = 8) := by
  unfold cvtRegs
  by_cases h7 : fmt = 7
  · simp [h7]
  · by_cases h8 : fmt = 8 <;> simp [h7, h8]

/-- The source of DCVT, a pair or one register, as a number (R150). -/
theorem dcvtSource_eq (src : Nat) (x : Dword) (y : Word) :
    (if (cvtRegs src == 2) = true then x.toNat else y.toNat) = (if src = 7 ∨ src = 8 then x else y.setWidth 64).toNat := by
  simp only [cvtRegs_eq_two, decide_eq_true_iff]
  split
  · rfl
  · exact (BitVec.toNat_setWidth_of_le (by decide)).symm

/-- DCVT (R150). -/
theorem dcvt_rounds {f : RI8} (hwf : (Instr.dcvt f).wf = true) :
    Rounds (.dcvt f) fun w t r =>
      let dst := (bits f.imm 7 4).toNat
      let src := (bits f.imm 3 0).toNat
      let x := converted src f.fm.modA (if src = 7 ∨ src = 8 then f.srcA64 w t else (f.srcA w t).setWidth 64)
      let y := convertedTo dst f.fm (r 0) x
      if dst = 7 ∨ dst = 8 then t.setPair f.d.toNat (BitVec.ofNat 64 y) else t.setReg f.d.toNat (BitVec.ofNat 32 y) := by
  obtain ⟨hdst, hsrc⟩ := codes_of_cvtOk (cvtOk_of_wf_dcvt hwf)
  refine rounds_of_exec_rounding (fun s => (rfl : _ = execDcvt f s)) (fun w t l => ?_) fun w t r => ?_
  · simp only [dcvtSource_eq, cvtResult_eq_convertedTo hdst, cvtSource_eq_converted hsrc]
    simp only [cvtRegs_eq_two, decide_eq_true_iff]
  · dsimp only
    split
    · exact setPair_sameStream t _ _
    · exact setReg_sameStream t _ _

/-! ## Special functions (R151) -/

/-- FP32's encoding of an exact value, rounded to nearest. -/
def nearestFp32 (x : Num) : Nat := Fmt.fp32.clampEncode 0 (Fmt.fp32.round 0 0 x)

/-- The sign bit of an FP32 encoding. -/
def signFp32 (s : Bool) : Nat := if s = true then 0x80000000 else 0

theorem nearestFp32_nan : nearestFp32 .nan = 0x7FC00000 := rfl

theorem nearestFp32_inf (s : Bool) : nearestFp32 (.inf s) = signFp32 s + 0x7F800000 := by cases s <;> rfl

theorem nearestFp32_zero (s : Bool) (d : Nat) : nearestFp32 (.fin s 0 d) = signFp32 s := by cases s <;> rfl

theorem nearestFp32_one (s : Bool) : nearestFp32 (.fin s 1 1) = signFp32 s + 0x3F800000 := by cases s <;> rfl

/-- At a special value FSF writes the value of the table. -/
theorem fsfResult_of_special {fn : Nat} {a y : Num} (h : fsfSpecial fn a = some y) : fsfResult fn a = nearestFp32 y := by
  unfold fsfResult
  rw [h]
  rfl

theorem fsfResult_nan (fn : Nat) : fsfResult fn .nan = 0x7FC00000 := (fsfResult_of_special rfl).trans nearestFp32_nan

/-- Where the value is not zero, the logarithm and the inverse square root are special at a negative one. -/
theorem fsfSpecial_negative {fn n : Nat} (hfn : fn = 1 ∨ fn = 3) (hn : n ≠ 0) (d : Nat) :
    fsfSpecial fn (.fin true n d) = some .nan := by
  rcases hfn with rfl | rfl <;> exact if_neg (by simpa using hn)

theorem fsfResult_negative {fn n : Nat} (hfn : fn = 1 ∨ fn = 3) (hn : n ≠ 0) (d : Nat) :
    fsfResult fn (.fin true n d) = 0x7FC00000 :=
  (fsfResult_of_special (fsfSpecial_negative hfn hn d)).trans nearestFp32_nan

/-- The logarithm of 1 is exact. -/
theorem fsfSpecial_lg2_one {d : Nat} (hd : d ≠ 0) : fsfSpecial 3 (.fin false d d) = some (.fin false 0 1) := by
  show (if (d == 0) = true then _ else if (d == d) = true then _ else _) = _
  rw [if_neg (by simpa using hd), if_pos (beq_self_eq_true d)]

/-- SIN, COS and TANH are special at no finite value but zero. -/
theorem fsfSpecial_none {fn n : Nat} (hfn : fn = 4 ∨ fn = 5 ∨ fn = 6) (hn : n ≠ 0) (s : Bool) (d : Nat) :
    fsfSpecial fn (.fin s n d) = none := by
  rcases hfn with rfl | rfl | rfl <;> exact if_neg (by simpa using hn)

/-- SIN and TANH are odd: the sign bit of the result flips. -/
theorem fsfResult_odd {fn n : Nat} (hfn : fn = 4 ∨ fn = 6) (hn : n ≠ 0) (d : Nat) :
    fsfResult fn (.fin true n d) = (fsfResult fn (.fin false n d) + 0x80000000) % 0x100000000 := by
  have hnone := fsfSpecial_none (hfn.imp_right .inr) hn
  unfold fsfResult
  rw [hnone true d, hnone false d]
  rcases hfn with rfl | rfl <;> simp

/-- COS is even. -/
theorem fsfResult_even {n : Nat} (hn : n ≠ 0) (d : Nat) : fsfResult 5 (.fin true n d) = fsfResult 5 (.fin false n d) := by
  have hnone := fsfSpecial_none (.inr (.inl rfl)) hn
  unfold fsfResult
  rw [hnone true d, hnone false d]
  rfl

/-- The special values of the table: at the zeros, at the infinities, and the logarithm of 1. -/
theorem fsfResult_table (s : Bool) (d : Nat) : let sg := if s = true then 0x80000000 else 0
    fsfResult 0 (.fin s 0 d) = sg + 0x7F800000 ∧ fsfResult 0 (.inf s) = sg
    ∧ fsfResult 1 (.fin s 0 d) = sg + 0x7F800000 ∧ fsfResult 1 (.inf false) = 0 ∧ fsfResult 1 (.inf true) = 0x7FC00000
    ∧ fsfResult 2 (.fin s 0 d) = 0x3F800000 ∧ fsfResult 2 (.inf s) = (if s = true then 0 else 0x7F800000)
    ∧ fsfResult 3 (.fin s 0 d) = 0xFF800000 ∧ fsfResult 3 (.inf false) = 0x7F800000
    ∧ fsfResult 3 (.inf true) = 0x7FC00000 ∧ (d ≠ 0 → fsfResult 3 (.fin false d d) = 0)
    ∧ fsfResult 4 (.fin s 0 d) = sg ∧ fsfResult 4 (.inf s) = 0x7FC00000
    ∧ fsfResult 5 (.fin s 0 d) = 0x3F800000 ∧ fsfResult 5 (.inf s) = 0x7FC00000
    ∧ fsfResult 6 (.fin s 0 d) = sg ∧ fsfResult 6 (.inf s) = sg + 0x3F800000 := by
  have hnan {fn : Nat} {a : Num} (h : fsfSpecial fn a = some .nan) := (fsfResult_of_special h).trans nearestFp32_nan
  have hinf {fn : Nat} {a : Num} (b : Bool) (h : fsfSpecial fn a = some (.inf b)) :=
    (fsfResult_of_special h).trans (nearestFp32_inf b)
  have hzero {fn : Nat} {a : Num} (b : Bool) (h : fsfSpecial fn a = some (.fin b 0 1)) :=
    (fsfResult_of_special h).trans (nearestFp32_zero b 1)
  have hone {fn : Nat} {a : Num} (b : Bool) (h : fsfSpecial fn a = some (.fin b 1 1)) :=
    (fsfResult_of_special h).trans (nearestFp32_one b)
  have hex2 : fsfResult 2 (.inf s) = if s = true then 0 else 0x7F800000 := by
    cases s with
    | false => exact hinf false rfl
    | true => exact hzero false rfl
  exact ⟨hinf s rfl, hzero s rfl,
    hinf s rfl, hzero false rfl, hnan rfl,
    hone false rfl, hex2,
    hinf true rfl, hinf false rfl, hnan rfl, fun hd => hzero false (fsfSpecial_lg2_one hd),
    hzero s rfl, hnan rfl,
    hone false rfl, hnan rfl,
    hzero s rfl, hone s rfl⟩

theorem fsf_gives (f : RI8) : Gives (.fsf f) fun w t => t.setReg f.d.toNat (BitVec.ofNat 32 (clamped .fp32 f.fm
    (Fmt.fp32.decode (fsfResult f.imm.toNat (sourceIn .fp32 f.fm.modA (f.srcA w t)))))) :=
  gives_setReg (fun s => (rfl : _ = execFsf f s)) fun _ _ => rfl

/-! ## Packed pairs (R152, R153) -/

/-- The element of a packed source that an instruction names. -/
theorem packedElem_eq (fmt : Fmt) (m : Bool × Bool) (x : Word) (hi : Bool) :
    packedElem fmt m x hi = sourceIn fmt m (if hi = true then bits x 31 16 else bits x 15 0) := by
  cases hi with
  | false => exact modNum_decode_low fmt m x 15
  | true =>
    have hhigh : (bits x 31 16).toNat = x.toNat / 65536 := by
      rw [toNat_bits, Nat.mod_eq_of_lt (by have := x.isLt; omega)]
      rfl
    show modNum m (fmt.decode (x.toNat / 65536)) = _
    rw [← hhigh]
    rfl

theorem packedElem_low (fmt : Fmt) (m : Bool × Bool) (x : Word) : packedElem fmt m x false = sourceIn fmt m (bits x 15 0) :=
  packedElem_eq fmt m x false

theorem packedElem_high (fmt : Fmt) (m : Bool × Bool) (x : Word) : packedElem fmt m x true = sourceIn fmt m (bits x 31 16) :=
  packedElem_eq fmt m x true

/-- A packed instruction is its exact result in each half, finished once, with the word of the block that is the half's own. -/
theorem roundsPacked_of_exec {i : Instr} {f : V3} {bf : Bool} {e : Num → Num → Num → Num}
    (hexec : ∀ s, exec i s = s.packed i f bf e) : RoundsPacked i f bf e := by
  refine rounds_of_exec (fun s => ?_) fun _ t _ => setReg_sameStream t _ _
  rw [hexec]
  unfold State.packed
  simp only [packedElem_low, packedElem_high]
  rfl

/-- A packed selection is the selection in each half. -/
theorem selectsPacked_of_exec {i : Instr} {f : V3} {bf isMax : Bool} {pick : Num → Num → Num}
    (hexec : ∀ s, exec i s = s.packedSelect i f bf isMax) (hpick : ∀ a b, selectMinMax isMax a b = pick a b) :
    SelectsPacked i f bf pick := by
  refine gives_setReg hexec fun w t => ?_
  simp only [packedElem_low, packedElem_high, hpick]
  rfl

theorem pack2_rounds (f : V3) (bf : Bool) : Rounds (.pack2 f bf) fun w t r =>
    let fmt := if bf = true then Fmt.bf16 else Fmt.fp16
    let lo := rounded fmt f.fm (r 0) (sourceIn .fp32 f.fm.modA (f.srcA w t))
    let hi := rounded fmt f.fm (r 1) (sourceIn .fp32 f.fm.modB (f.srcB w t))
    t.setReg f.d.toNat (BitVec.ofNat 32 (lo + 65536 * hi)) :=
  rounds_of_exec (fun s => (rfl : execPack2 f bf s = _)) fun _ t _ => setReg_sameStream t _ _

theorem unpk2_gives (f : RI8) : Gives (.unpk2 f) fun w t =>
    let fmt := if bit f.imm 1 = true then Fmt.bf16 else Fmt.fp16
    let x := if bit f.imm 0 = true then bits (f.srcA w t) 31 16 else bits (f.srcA w t) 15 0
    t.setReg f.d.toNat (BitVec.ofNat 32 (clamped .fp32 f.fm (sourceIn fmt f.fm.modA x))) :=
  gives_setReg (fun s => (rfl : _ = execUnpk2 f s)) fun w t =>
    congrArg (fun y => BitVec.ofNat 32 (clamped .fp32 f.fm y))
      (packedElem_eq (packedFmt (bit f.imm 1)) f.fm.modA (f.srcA w t) (bit f.imm 0))

end Sys2Proof.Machine
end

section
namespace Sys2Proof.Proofs

open Sys2Proof Machine Certificates

/-- Settles O5: each instruction is its exact result, finished once, in a write that leaves the stochastic stream as it is, which
then advances by one block under SR. -/
theorem floatArithmetic : Obligations.FloatArithmetic := ⟨fp32Arithmetic, fp64Arithmetic⟩

/-- Settles O6: the selection orders values with −0 before +0, no value lies below a NaN, and the class mask has the bit that the
exponent, the fraction and the sign decide. -/
theorem fp32Selection : Obligations.Fp32Selection := ⟨fun f => ⟨fmin_gives f, fmax_gives f, fclass_gives f⟩, fcmp_gives⟩

/-- Settles O7: the format codes of a well-formed conversion leave ten formats of sources and nine of results, and in each the
element is what the model reads or writes. -/
theorem conversions : Obligations.Conversions := fun _ => ⟨fcvt_rounds, dcvt_rounds⟩

/-- Settles O8: the table by its special values, and the symmetries because the free value is asked for the magnitude alone. -/
theorem specialFunctions : Obligations.SpecialFunctions :=
  ⟨fsf_gives, fun fn _ => fsfResult_nan fn, rfl, rfl, rfl, fsfResult_table, fun _ d hn =>
    ⟨fsfResult_negative (.inl rfl) hn d, fsfResult_negative (.inr rfl) hn d,
      fsfResult_odd (.inl rfl) hn d, fsfResult_odd (.inr rfl) hn d, fsfResult_even hn d⟩⟩

/-- Settles O9: each half of a packed instruction is the instruction on an element, with a word of the block of its own. -/
theorem packedPairs : Obligations.PackedPairs :=
  ⟨fun f bf => ⟨roundsPacked_of_exec fun _ => rfl, roundsPacked_of_exec fun _ => rfl, roundsPacked_of_exec fun _ => rfl,
    selectsPacked_of_exec (fun _ => rfl) selectMinMax_false, selectsPacked_of_exec (fun _ => rfl) selectMinMax_true,
    pack2_rounds f bf⟩, unpk2_gives⟩

end Sys2Proof.Proofs
end

section
/-! SUPPORT. The values of the integer instructions (R161 to R166), each as its rule states it, and what the instructions give. -/

namespace Sys2Proof.Machine

open Certificates

/-! ## Instructions over a group -/

/-- An instruction that changes only what the thread and its workgroup decide of the thread. -/
theorem gives_of_exec {i : Instr} {x y : Workgroup → Thread → Thread} (hexec : ∀ s, exec i s = s.alu i x)
    (heq : ∀ w t, x w t = y w t) (hkey : ∀ w t, (y w t).key = t.key) : Gives i y := by
  obtain rfl : x = y := funext fun w => funext (heq w)
  intro s hr
  rw [hexec]
  exact alu_did hr hkey

/-- A two-source instruction yields what its meaning computes of the two modified sources (R77). -/
theorem yields_of_exec {i : Instr} {f : V3} {g h : Word → Word → Word} (hexec : ∀ s, exec i s = s.alu2 i f g)
    (heq : ∀ a b, g a b = h a b) : Yields i f h :=
  gives_setReg hexec fun _ _ => heq _ _

/-! ## Arithmetic (R158, R161) -/

theorem narrow32_eq (clamp : BitVec 2) (e : Int) :
    narrow32 clamp e = if clamp = 3#2 then nearest32 e else BitVec.ofInt 32 e := by
  simp only [narrow32, satInt, nearest32, beq_iff_eq, min_comm e]
  rfl

theorem ofInt_toInt_sub {n : Nat} (x y : BitVec n) : BitVec.ofInt n (x.toInt - y.toInt) = x - y := by
  rw [Int.sub_eq_add_neg, BitVec.ofInt_add, BitVec.ofInt_neg, BitVec.ofInt_toInt, BitVec.ofInt_toInt, BitVec.sub_eq_add_neg]

theorem add_yields (f : V3) :
    Yields (.add f) f fun a b => if f.fm.clamp = 3#2 then nearest32 (a.toInt + b.toInt) else a + b :=
  yields_of_exec (fun s => (rfl : _ = execAdd f s)) fun a b => by
    rw [narrow32_eq, BitVec.ofInt_add, BitVec.ofInt_toInt, BitVec.ofInt_toInt]

theorem sub_yields (f : V3) :
    Yields (.sub f) f fun a b => if f.fm.clamp = 3#2 then nearest32 (a.toInt - b.toInt) else a - b :=
  yields_of_exec (fun s => (rfl : _ = execSub f s)) fun a b => by rw [narrow32_eq, ofInt_toInt_sub]

theorem mul_yields (f : V3) :
    Yields (.mul f) f fun a b => if f.fm.clamp = 3#2 then nearest32 (a.toInt * b.toInt) else a * b :=
  yields_of_exec (fun s => (rfl : _ = execMul f s)) fun a b => by
    rw [narrow32_eq, BitVec.ofInt_mul, BitVec.ofInt_toInt, BitVec.ofInt_toInt]

/-- The high word of a signed number is its quotient by 2^32. -/
theorem bits_ofInt_high (e : Int) : bits (BitVec.ofInt 64 e) 63 32 = BitVec.ofInt 32 (e / 2 ^ 32) := by
  apply BitVec.eq_of_toNat_eq
  rw [toNat_bits, BitVec.toNat_ofInt, BitVec.toNat_ofInt]
  omega

theorem bits_ofNat_high (n : Nat) : bits (BitVec.ofNat 64 n) 63 32 = BitVec.ofNat 32 (n / 2 ^ 32) := by
  apply BitVec.eq_of_toNat_eq
  rw [toNat_bits, BitVec.toNat_ofNat, BitVec.toNat_ofNat]
  omega

/-- The product of two sign-extended words is that of the two numbers. -/
theorem mulhs_yields (f : V3) : Yields (.mulhs f) f fun a b => bits (a.signExtend 64 * b.signExtend 64) 63 32 :=
  yields_of_exec (fun s => (rfl : _ = execMulhs f s)) fun a b => by
    rw [BitVec.signExtend, BitVec.signExtend, ← BitVec.ofInt_mul, bits_ofInt_high]

theorem mulhu_yields (f : V3) : Yields (.mulhu f) f fun a b => bits (a.setWidth 64 * b.setWidth 64) 63 32 :=
  yields_of_exec (fun s => (rfl : _ = execMulhu f s)) fun a b => by
    rw [← BitVec.ofNat_toNat, ← BitVec.ofNat_toNat, ← BitVec.ofNat_mul, bits_ofNat_high]

/-! ## Minimum and maximum (R161) -/

/-- Of two words of equal rank it does not matter which is taken. -/
theorem ite_le_eq_ite_lt {β : Type} [LinearOrder β] {rank : Word → β} (hrank : Function.Injective rank) (a b : Word) :
    (if rank a ≤ rank b then a else b) = if rank a < rank b then a else b := by
  rcases lt_trichotomy (rank a) (rank b) with hlt | heq | hgt
  · rw [if_pos hlt.le, if_pos hlt]
  · obtain rfl := hrank heq
    rw [if_pos le_rfl, if_neg (lt_irrefl _)]
  · rw [if_neg (not_le.2 hgt), if_neg (not_lt.2 hgt.le)]

theorem ite_ge_eq_ite_lt {β : Type} [LinearOrder β] (rank : Word → β) (a b : Word) :
    (if rank b ≤ rank a then a else b) = if rank a < rank b then b else a := by
  simp only [← not_le, ite_not]

theorem min_yields (f : V3) : Yields (.min f) f fun a b => if a.slt b then a else b :=
  yields_of_exec (fun s => (rfl : _ = execMin f s)) fun a b => by
    simp only [BitVec.slt_eq_decide, decide_eq_true_eq]
    exact ite_le_eq_ite_lt (fun _ _ => BitVec.toInt_inj.1) a b

theorem max_yields (f : V3) : Yields (.max f) f fun a b => if a.slt b then b else a :=
  yields_of_exec (fun s => (rfl : _ = execMax f s)) fun a b => by
    simp only [BitVec.slt_eq_decide, decide_eq_true_eq]
    exact ite_ge_eq_ite_lt BitVec.toInt a b

theorem minu_yields (f : V3) : Yields (.minu f) f fun a b => if a.ult b then a else b :=
  yields_of_exec (fun s => (rfl : _ = execMinu f s)) fun a b => by
    simp only [BitVec.ult_eq_decide, decide_eq_true_eq]
    exact ite_le_eq_ite_lt (fun _ _ => BitVec.toNat_inj.1) a b

theorem maxu_yields (f : V3) : Yields (.maxu f) f fun a b => if a.ult b then b else a :=
  yields_of_exec (fun s => (rfl : _ = execMaxu f s)) fun a b => by
    simp only [BitVec.ult_eq_decide, decide_eq_true_eq]
    exact ite_ge_eq_ite_lt BitVec.toNat a b

/-! ## Division (R161) -/

theorem divu_yields (f : V3) : Yields (.divu f) f fun a b => if b = 0 then BitVec.allOnes 32 else a / b :=
  yields_of_exec (fun s => (rfl : _ = execDivu f s)) fun a b => by
    rw [← BitVec.toNat_udiv, BitVec.ofNat_toNat, BitVec.setWidth_eq]
    simp only [beq_iff_eq]
    rfl

theorem remu_yields (f : V3) : Yields (.remu f) f fun a b => if b = 0 then a else a % b :=
  yields_of_exec (fun s => (rfl : _ = execRemu f s)) fun a b => by
    rw [← BitVec.toNat_umod, BitVec.ofNat_toNat, BitVec.setWidth_eq]
    simp only [beq_iff_eq]

/-! ## Counts and reversal of bits (R161) -/

theorem popBits_eq_countP (a : Word) (n : Nat) : popBits a n = (List.range n).countP (fun i => bit a i) := by
  induction n with
  | zero => rfl
  | succ n ih => rw [popBits, ih, List.range_succ, List.countP_append, List.countP_singleton]

/-- The leading zeros of the low bits: all of them, or those above the highest set bit. -/
theorem leadZeros_eq (a : Word) (n : Nat) :
    leadZeros a n = if a.toNat % 2 ^ n = 0 then n else n - 1 - (a.toNat % 2 ^ n).log2 := by
  induction n with
  | zero => simp [leadZeros, Nat.mod_one]
  | succ n ih =>
    have hlow : a.toNat % 2 ^ n < 2 ^ n := Nat.mod_lt _ (Nat.two_pow_pos n)
    have hsucc : a.toNat % 2 ^ (n + 1) = a.toNat % 2 ^ n + 2 ^ n * (bit a n).toNat := by
      rw [Nat.mod_pow_succ, ← Nat.toNat_testBit, BitVec.testBit_toNat]
    rw [leadZeros, hsucc, ih]
    generalize a.toNat % 2 ^ n = r at hlow
    cases bit a n
    case true =>
      have hlog : (r + 2 ^ n).log2 = n := (Nat.log2_eq_iff (by omega)).2 ⟨by omega, by rw [Nat.pow_succ]; omega⟩
      simp [hlog]
    case false =>
      by_cases hzero : r = 0
      case pos => simp [hzero]
      case neg =>
        have hlog : r.log2 < n := (Nat.log2_lt hzero).2 hlow
        simp only [Bool.false_eq_true, if_false, Bool.toNat_false, Nat.mul_zero, Nat.add_zero, hzero]
        omega

theorem leadZeros_word (a : Word) :
    BitVec.ofNat 32 (leadZeros a 32) = if a = 0 then 32#32 else BitVec.ofNat 32 (31 - a.toNat.log2) := by
  have hzero : a.toNat = 0 ↔ a = 0 := (BitVec.toNat_inj (y := 0#32))
  rw [leadZeros_eq, Nat.mod_eq_of_lt a.isLt, apply_ite (BitVec.ofNat 32)]
  simp only [hzero]

theorem reverse_eq_ofFnLE (a : Word) : a.reverse = BitVec.ofFnLE (fun i : Fin 32 => bit a (31 - i)) := by
  apply BitVec.eq_of_getLsbD_eq
  intro i hi
  rw [BitVec.getLsbD_reverse, BitVec.getLsbD_ofFnLE, dif_pos hi, BitVec.getMsbD]
  simp only [hi, decide_true, Bool.true_and]

/-! ## Shifts (R161, R163) -/

theorem ofNat_two_pow {w : Nat} (n : Nat) : BitVec.ofNat w (2 ^ n) = 2 ^ n := by
  apply BitVec.eq_of_toNat_eq
  rw [BitVec.toNat_pow, BitVec.ofNat_eq_ofNat, BitVec.toNat_ofNat, BitVec.toNat_ofNat, ← Nat.pow_mod]

/-- A shift to the left multiplies by a power of two. -/
theorem shiftLeft_eq_mul_two_pow {w : Nat} (x : BitVec w) (n : Nat) : x <<< n = x * 2 ^ n := by
  apply BitVec.eq_of_toNat_eq
  rw [BitVec.toNat_shiftLeft, Nat.shiftLeft_eq, ← ofNat_two_pow, BitVec.toNat_mul, BitVec.toNat_ofNat, Nat.mul_mod_mod]

theorem lea_gives (f : V3) (zx : Bool) (sh : BitVec 3) : Gives (.lea f zx sh) fun w t =>
    let b := if zx then (f.srcB w t).setWidth 64 else (f.srcB w t).signExtend 64
    t.setPair f.d.toNat (f.srcA64 w t + b * 2 ^ sh.toNat) :=
  gives_of_exec (fun s => (rfl : _ = execLea f zx sh s)) (fun w t => by simp only [shiftLeft_eq_mul_two_pow])
    fun _ t => (setPair_sameStream t _ _).key

/-! ## Carry chains (R162) -/

theorem carryIn_eq (cy : CarryW2) (t : Thread) : carryIn cy t = if cy.ciz = true ∨ t.pred cy.pi = false then 0 else 1 := by
  unfold carryIn
  cases cy.ciz <;> cases t.pred cy.pi <;> rfl

theorem addc_gives (f : V3) (cy : CarryW2) : Gives (.addc f cy) fun w t =>
    let cin := if cy.ciz = true ∨ t.pred cy.pi = false then 0 else 1
    (t.setReg f.d.toNat (f.srcA w t + f.srcB w t + BitVec.ofNat 32 cin)).setPred cy.po
      (decide (2 ^ 32 ≤ (f.srcA w t).toNat + (f.srcB w t).toNat + cin)) := by
  refine gives_of_exec (fun s => (rfl : _ = execAddc f cy s)) (fun w t => ?_) fun _ t => by simp
  simp only [carryIn_eq, BitVec.ofNat_add, BitVec.ofNat_toNat, BitVec.setWidth_eq]

/-- A borrow: the difference falls below zero where the second number and the borrow are greater than the first. -/
theorem subb_gives (f : V3) (cy : CarryW2) : Gives (.subb f cy) fun w t =>
    let cin := if cy.ciz = true ∨ t.pred cy.pi = false then 0 else 1
    (t.setReg f.d.toNat (f.srcA w t - f.srcB w t - BitVec.ofNat 32 cin)).setPred cy.po
      (decide ((f.srcA w t).toNat < (f.srcB w t).toNat + cin)) := by
  refine gives_of_exec (fun s => (rfl : _ = execSubb f cy s)) (fun w t => ?_) fun _ t => by simp
  have hdiff (a b : Word) (c : Nat) : BitVec.ofInt 32 ((a.toNat : Int) - b.toNat - c) = a - b - BitVec.ofNat 32 c := by
    simp only [Int.sub_eq_add_neg, BitVec.ofInt_add, BitVec.ofInt_neg, BitVec.ofInt_natCast, BitVec.ofNat_toNat,
      BitVec.setWidth_eq, BitVec.sub_eq_add_neg]
  have hborrow (a b c : Nat) : (a : Int) - b - c < 0 ↔ a < b + c := by omega
  simp only [carryIn_eq, hdiff, hborrow]

theorem madw_gives (f : V3) (cy : CarryW2) : Gives (.madw f cy) fun w t =>
    let cin := if cy.ciz = true ∨ t.pred cy.pi = false then 0 else 1
    (t.setPair f.d.toNat ((f.srcA w t).setWidth 64 * (f.srcB w t).setWidth 64 + f.srcC64 w t + BitVec.ofNat 64 cin)).setPred
      cy.po (decide (2 ^ 64 ≤ (f.srcA w t).toNat * (f.srcB w t).toNat + (f.srcC64 w t).toNat + cin)) := by
  refine gives_of_exec (fun s => (rfl : _ = execMadw f cy s)) (fun w t => ?_) fun _ t => by simp
  simp only [carryIn_eq, BitVec.ofNat_add, BitVec.ofNat_mul, BitVec.ofNat_toNat, BitVec.setWidth_eq]

theorem carryChains : CarryChains := fun f cy => ⟨addc_gives f cy, subb_gives f cy, madw_gives f cy⟩

/-! ## Shifts and rotates (R163) -/

theorem shiftLeft_count (a b : Word) :
    a <<< (b.toNat % 64) = let n := (bits b 5 0).toNat; if 32 ≤ n then 0 else a * 2 ^ n := by
  rw [toNat_bits_low]
  dsimp only
  split
  case isTrue hout => exact BitVec.shiftLeft_eq_zero hout
  case isFalse => exact shiftLeft_eq_mul_two_pow a _

/-- A shift to the right within the word divides by a power of two. -/
theorem ushiftRight_eq_div_two_pow (x : Word) {n : Nat} (h : n < 32) : x >>> n = x / 2 ^ n := by
  have hpow : 2 ^ n < 2 ^ 32 := Nat.pow_lt_pow_right (by decide) h
  apply BitVec.eq_of_toNat_eq
  rw [BitVec.toNat_ushiftRight, Nat.shiftRight_eq_div_pow, BitVec.toNat_udiv, BitVec.toNat_pow, BitVec.ofNat_eq_ofNat,
    BitVec.toNat_ofNat, ← Nat.pow_mod, Nat.mod_eq_of_lt hpow]

theorem ushiftRight_count (a b : Word) :
    a >>> (b.toNat % 64) = let n := (bits b 5 0).toNat; if 32 ≤ n then 0 else a / 2 ^ n := by
  rw [toNat_bits_low]
  dsimp only
  split
  case isTrue hout => exact BitVec.ushiftRight_eq_zero hout
  case isFalse hin => exact ushiftRight_eq_div_two_pow a (not_le.1 hin)

/-- An arithmetic shift divides the signed number, rounding down. -/
theorem sshiftRight_eq_ofInt (a : Word) (n : Nat) : a.sshiftRight n = BitVec.ofInt 32 (a.toInt / 2 ^ n) := by
  rw [← BitVec.ofInt_toInt (x := a.sshiftRight n), BitVec.toInt_sshiftRight, Int.shiftRight_eq_div_pow]
  norm_cast

theorem sar_yields (f : V3) :
    Yields (.sar f) f fun a b => BitVec.ofInt 32 (a.toInt / 2 ^ (min (bits b 5 0).toNat 31)) :=
  yields_of_exec (fun s => (rfl : _ = execSar f s)) fun a b => by rw [toNat_bits_low]; exact sshiftRight_eq_ofInt a _

theorem rotl_yields (f : V3) :
    Yields (.rotl f) f fun a b => let n := (bits b 4 0).toNat; (a <<< n) ||| (a >>> (32 - n)) :=
  yields_of_exec (fun s => (rfl : _ = execRotl f s)) fun a b => by
    rw [toNat_bits_low]
    exact BitVec.rotateLeft_eq_rotateLeftAux_of_lt (Nat.mod_lt _ (by decide))

/-- The high word of a shifted pair takes in the low one from above. -/
theorem bits_append_shiftLeft (a b : Word) {n : Nat} (h : n < 32) :
    bits ((a ++ b) <<< n) 63 32 = (a <<< n) ||| (b >>> (32 - n)) := by
  apply BitVec.eq_of_getLsbD_eq
  intro i hi
  have hi32 : i < 32 := hi
  rw [BitVec.getLsbD_extractLsb, BitVec.getLsbD_shiftLeft, BitVec.getLsbD_append, BitVec.getLsbD_or, BitVec.getLsbD_shiftLeft,
    BitVec.getLsbD_ushiftRight]
  have hdword : 32 + i < 64 := by omega
  have hpast : ¬ 32 + i < n := by omega
  by_cases hin : i < n
  case pos =>
    have hplace : 32 + i - n = 32 - n + i := by omega
    have hword : 32 - n + i < 32 := by omega
    simp [hi32, hin, hplace, hword, hdword, hpast]
  case neg =>
    have hplace : 32 + i - n - 32 = i - n := by omega
    have hword : ¬ 32 + i - n < 32 := by omega
    have hout : b.getLsbD (32 - n + i) = false := BitVec.getLsbD_of_ge b _ (by omega)
    simp [hi32, hin, hplace, hword, hout, hdword, hpast]

theorem fshl_gives (f : V3) : Gives (.fshl f) fun w t => t.setReg f.d.toNat
    (let n := (bits (f.srcC w t) 4 0).toNat; (f.srcA w t <<< n) ||| (f.srcB w t >>> (32 - n))) :=
  gives_setReg (fun s => (rfl : _ = execFshl f s)) fun w t => by
    rw [toNat_bits_low]
    exact bits_append_shiftLeft _ _ (Nat.mod_lt _ (by decide))

/-! ## Bit fields (R163) -/

theorem fieldOf_eq (b : Word) : fieldOf b = (fieldPos b, fieldLen b) := by
  rw [fieldLen, fieldPos, toNat_bits_low, toNat_bits]
  rfl

theorem fieldPos_add_fieldLen_le (b : Word) : fieldPos b + fieldLen b ≤ 32 := by
  have hpos : fieldPos b < 2 ^ 5 := (bits b 4 0).isLt
  unfold fieldLen
  omega

/-- A mask of the low bits takes a number modulo a power of two. -/
theorem toNat_and_two_pow_sub_one (x : Word) {n : Nat} (h : n ≤ 32) : (x &&& (2 ^ n - 1)).toNat = x.toNat % 2 ^ n := by
  have hmask : (2 : Word) ^ n - 1 = BitVec.ofNat 32 (2 ^ n - 1) := by
    obtain ⟨m, hm⟩ := Nat.exists_eq_add_of_lt (Nat.two_pow_pos n)
    rw [← ofNat_two_pow, hm, Nat.zero_add, BitVec.ofNat_add, Nat.add_sub_cancel]
    exact BitVec.add_sub_cancel _ _
  have hlt : 2 ^ n - 1 < 2 ^ 32 := Nat.sub_one_lt_of_le (Nat.two_pow_pos n) (Nat.pow_le_pow_right (by decide) h)
  rw [BitVec.toNat_and, hmask, BitVec.toNat_ofNat, Nat.mod_eq_of_lt hlt, Nat.and_two_pow_sub_one_eq_mod]

/-- The bits of a word from a place on, as many as fit in it. -/
theorem field_eq_ofNat (a : Word) (p : Nat) {n : Nat} (h : n ≤ 32) :
    (a >>> p) &&& (2 ^ n - 1) = BitVec.ofNat 32 (a.toNat / 2 ^ p % 2 ^ n) := by
  apply BitVec.eq_of_toNat_eq
  rw [toNat_and_two_pow_sub_one _ h, BitVec.toNat_ushiftRight, Nat.shiftRight_eq_div_pow, BitVec.toNat_ofNat]
  have hle : a.toNat / 2 ^ p % 2 ^ n < 2 ^ 32 :=
    lt_of_lt_of_le (Nat.mod_lt _ (Nat.two_pow_pos n)) (Nat.pow_le_pow_right (by decide) h)
  exact (Nat.mod_eq_of_lt hle).symm

theorem ofInt_sub_two_pow (x n : Nat) : BitVec.ofInt 32 ((x : Int) - 2 ^ n) = BitVec.ofNat 32 x - 2 ^ n := by
  have hpow : BitVec.ofInt 32 (2 ^ n) = 2 ^ n := by
    rw [← ofNat_two_pow, ← BitVec.ofInt_natCast]
    norm_cast
  rw [Int.sub_eq_add_neg, BitVec.ofInt_add, BitVec.ofInt_neg, BitVec.ofInt_natCast, hpow, BitVec.sub_eq_add_neg]

theorem bfeResult_eq (sx : Bool) (a b : Word) : bfeResult sx a b =
    let x := (a >>> fieldPos b) &&& (2 ^ fieldLen b - 1)
    if fieldLen b = 0 then 0
    else if sx = true ∧ bit x (fieldLen b - 1) = true then x - 2 ^ fieldLen b else x := by
  have hlen : fieldLen b ≤ 32 := le_trans (Nat.le_add_left _ _) (fieldPos_add_fieldLen_le b)
  simp only [bfeResult, fieldOf_eq, field_eq_ofNat a _ hlen, ofInt_sub_two_pow, BitVec.getLsbD_ofNat]
  by_cases hzero : fieldLen b = 0
  case pos => simp [hzero, Nat.mod_one]
  case neg =>
    have htop : fieldLen b - 1 < 32 := by omega
    simp [hzero, htop]

theorem getLsbD_fieldMask {p n i : Nat} (h : i < 32) :
    (BitVec.ofNat 32 ((2 ^ n - 1) * 2 ^ p)).getLsbD i = decide (p ≤ i ∧ i < p + n) := by
  rw [BitVec.getLsbD_ofNat, Nat.testBit_mul_two_pow, Nat.testBit_two_pow_sub_one]
  by_cases hp : p ≤ i
  case pos => simp [h, hp, Nat.sub_lt_iff_lt_add' hp]
  case neg => simp [hp]

/-- Inside the field the bits of A moved up to it, outside those of C. -/
theorem bfiResult_eq (a b c : Word) : bfiResult a b c = BitVec.ofFnLE (fun i : Fin 32 =>
    if fieldPos b ≤ i ∧ i < fieldPos b + fieldLen b then bit a (i - fieldPos b) else bit c i) := by
  apply BitVec.eq_of_getLsbD_eq
  intro i hi
  simp only [bfiResult, fieldOf_eq, BitVec.getLsbD_or, BitVec.getLsbD_and, BitVec.getLsbD_not, BitVec.getLsbD_shiftLeft,
    getLsbD_fieldMask hi, BitVec.getLsbD_ofFnLE, hi, decide_true, Bool.true_and]
  by_cases hfield : fieldPos b ≤ i ∧ i < fieldPos b + fieldLen b
  case pos => simp [hfield, not_lt.2 hfield.1]
  case neg => simp [hfield]

theorem shiftsAndFields : ShiftsAndFields := fun f =>
  ⟨yields_of_exec (fun s => (rfl : _ = execShl f s)) shiftLeft_count,
    yields_of_exec (fun s => (rfl : _ = execShr f s)) ushiftRight_count, sar_yields f, rotl_yields f, fshl_gives f,
    fun sx => yields_of_exec (fun s => (rfl : _ = execBfe f sx s)) (bfeResult_eq sx),
    gives_setReg (fun s => (rfl : _ = execBfi f s)) fun _ _ => bfiResult_eq _ _ _⟩

/-! ## Comparisons and selection (R164) -/

theorem cmpHolds_eq (cond : BitVec 3) (a b : Int) : cmpHolds cond a b = (match cond with
    | 0 => a == b | 1 => a != b | 2 => decide (a < b) | 3 => decide (a ≤ b) | 4 => decide (b < a) | _ => decide (b ≤ a)) := by
  have hcond : ∀ c : BitVec 3, c = 0 ∨ c = 1 ∨ c = 2 ∨ c = 3 ∨ c = 4 ∨ c = 5 ∨ c = 6 ∨ c = 7 := by decide
  rcases hcond cond with rfl | rfl | rfl | rfl | rfl | rfl | rfl | rfl
  all_goals rfl

/-- A condition on signed words is that on their values. -/
theorem cmpHolds_toInt (cond : BitVec 3) (a b : Word) : cmpHolds cond a.toInt b.toInt = (match cond with
    | 0 => a == b | 1 => a != b | 2 => a.slt b | 3 => a.sle b | 4 => b.slt a | _ => b.sle a) := by
  have heq : (a.toInt == b.toInt) = (a == b) := by rw [Bool.eq_iff_iff, beq_iff_eq, beq_iff_eq, BitVec.toInt_inj]
  simp only [cmpHolds_eq, bne, heq]
  rfl

theorem cmpHolds_toNat (cond : BitVec 3) (a b : Word) : cmpHolds cond a.toNat b.toNat = (match cond with
    | 0 => a == b | 1 => a != b | 2 => a.ult b | 3 => a.ule b | 4 => b.ult a | _ => b.ule a) := by
  have heq : ((a.toNat : Int) == b.toNat) = (a == b) := by
    rw [Bool.eq_iff_iff, beq_iff_eq, beq_iff_eq, Int.natCast_inj, BitVec.toNat_inj]
  simp only [cmpHolds_eq, bne, heq, Int.ofNat_lt, Int.ofNat_le]
  rfl

theorem sel_gives (f : V3) (sn : Bool) (spr : PReg) : Gives (.sel f sn spr) fun w t =>
    t.setReg f.d.toNat (if (t.pred spr ^^ sn) = true then f.srcA w t else f.srcB w t) :=
  gives_setReg (fun s => (rfl : _ = execSel f sn spr s)) fun w t => by
    cases t.pred spr <;> cases sn <;> rfl

/-! ## Predicates (R165, R166) -/

theorem lutBit_eq (lut : BitVec 4) (a b : Bool) : lutBit lut a b = bit lut (2 * a.toNat + b.toNat) := by
  cases a <;> cases b <;> rfl

/-- Predicate n is bit n, and p15 reads true. -/
theorem Thread.pred_ofNat (t : Thread) {n : Nat} (h : n < 16) :
    t.pred (BitVec.ofNat 4 n) = (t.p ||| 0x8000#16).getLsbD n := by
  have hp15 : ∀ i < 16, (BitVec.ofNat 4 i == 15#4) = (0x8000#16).getLsbD i := by decide
  rw [Thread.pred, hp15 n h, BitVec.toNat_ofNat, Nat.mod_eq_of_lt h, BitVec.getLsbD_or, Bool.or_comm]

theorem ptov_word (t : Thread) : (t.p ||| 0x8000#16).setWidth 32
    = BitVec.ofFnLE (fun i : Fin 32 => decide (i < 16) && t.pred (BitVec.ofNat 4 i)) := by
  apply BitVec.eq_of_getLsbD_eq
  intro i hi
  rw [BitVec.getLsbD_setWidth, BitVec.getLsbD_ofFnLE, dif_pos hi, decide_eq_true hi, Bool.true_and]
  by_cases hlow : i < 16
  case pos => rw [t.pred_ofNat hlow, decide_eq_true (show (⟨i, hi⟩ : Fin 32) < 16 from hlow), Bool.true_and]
  case neg =>
    rw [BitVec.getLsbD_of_ge _ _ (not_lt.1 hlow), decide_eq_false (show ¬ (⟨i, hi⟩ : Fin 32) < 16 from hlow), Bool.false_and]

/-- The predicates that the mask names take the bits of the value; p15 is never named. -/
theorem vtop_word (p : BitVec 16) (a b : Word) :
    (p &&& ~~~(b.setWidth 16 &&& 0x7FFF#16)) ||| (a.setWidth 16 &&& (b.setWidth 16 &&& 0x7FFF#16))
    = BitVec.ofFnLE (fun i : Fin 16 => if i < 15 ∧ bit b i = true then bit a i else bit p i) := by
  have hmask : ∀ i : Fin 16, (0x7FFF#16).getLsbD i = decide (i < 15) := by decide
  apply BitVec.eq_of_getLsbD_eq
  intro i hi
  have hm := hmask ⟨i, hi⟩
  simp only [BitVec.getLsbD_or, BitVec.getLsbD_and, BitVec.getLsbD_not, BitVec.getLsbD_setWidth, BitVec.getLsbD_ofFnLE, hi,
    hm, decide_true, Bool.true_and, dif_pos]
  by_cases hlow : (⟨i, hi⟩ : Fin 16) < 15
  case pos => cases hb : b.getLsbD i <;> simp [hlow, bit, hb]
  case neg => simp [hlow]

end Sys2Proof.Machine
end

section
/-! SUPPORT. What SREAD, RNG and CYC give (R167 to R169). -/

namespace Sys2Proof.Machine

open Certificates

/-- To go on is to be at the next PC, for a thread whose PC has not changed. -/
theorem Thread.onward_eq {t u : Thread} (h : u.pc = t.pc) (i : Instr) : u.onward i = { u with pc := pcAfter t.pc i.words } := by
  rw [Thread.onward, h]

/-! ## SREAD (R167) -/

/-- The value of a selector rests on the thread, its workgroup, its core and the package's number. -/
theorem State.sameBut.special {s s' : State} (h : s.sameBut s') (w : Workgroup) (t : Thread) (sel : Nat) :
    special s' w t sel = special s w t sel := by
  unfold Machine.special
  rw [h.coreOf t, h.pkg]

/-- SREAD of a v register writes the value of its selector, where deterministic mode allows it. -/
theorem sread_givesIf (f : RI8) : GivesIf (.sread f false)
    (fun _ w _ => w.kernel.det = false ∨ ¬ (9 ≤ f.imm.toNat ∧ f.imm.toNat ≤ 13))
    (fun s w t => t.setReg f.d.toNat (BitVec.ofNat 32 (special s w t f.imm.toNat))) := by
  intro s hr hok
  refine ⟨_, (rfl : _ = execSread f false s), forThreads_did hr (fun _ _ => (setReg_sameStream _ _ _).key)
    fun k hk s' t w hsame ht hw hg => ?_⟩
  have hallowed : (w.kernel.det && placementSel f.imm.toNat) = false := by
    rcases hok k hk t w ht hw hg with hdet | hsel
    · rw [hdet, Bool.false_and]
    · simp only [placementSel, Bool.and_eq_false_iff, decide_eq_false_iff_not]
      omega
  simp only [hallowed, hsame.special, Bool.false_eq_true, if_false]
  exact congrArg (Res.go s') (Thread.onward_eq (Thread.pc_setReg t _ _) _)

/-- The values of the selectors that R167 lists. -/
theorem special_of_listed (s : State) (w : Workgroup) (t : Thread) (sel : Nat) : sel ≤ 15 →
    BitVec.ofNat 32 (special s w t sel) =
      if w.foreign ≠ none ∧ sel ∈ [3, 4, 5, 6, 7, 8, 14, 15] then BitVec.ofNat 32 (originSel w sel)
      else match sel with
      | 0 => BitVec.ofNat 32 t.tidx
      | 1 => BitVec.ofNat 32 (t.tidx / 32)
      | 2 => BitVec.ofNat 32 (t.tidx % 32)
      | 3 => w.wgx | 4 => w.wgy | 5 => w.wgz | 6 => w.nwgx | 7 => w.nwgy | 8 => w.nwgz
      | 9 => BitVec.ofNat 32 (s.coreOf t)
      | 10 => BitVec.ofNat 32 (s.coreOf t / 4)
      | 11 => BitVec.ofNat 32 (s.coreOf t / 64)
      | 12 => BitVec.ofNat 32 s.pkg
      | 13 => BitVec.ofNat 32 w.core
      | 14 => BitVec.ofNat 32 w.nthr
      | _ => BitVec.ofNat 32 w.role := by
  intro h
  have horigin : (w.foreign.isSome && (decide (3 ≤ sel) && decide (sel ≤ 8) || decide (14 ≤ sel))) = true
      ↔ w.foreign ≠ none ∧ sel ∈ [3, 4, 5, 6, 7, 8, 14, 15] := by
    simp only [Bool.and_eq_true, Bool.or_eq_true, decide_eq_true_eq, Option.isSome_iff_ne_none, List.mem_cons,
      List.not_mem_nil, or_false]
    exact and_congr_right fun _ => by omega
  unfold special
  by_cases hfar : w.foreign ≠ none ∧ sel ∈ [3, 4, 5, 6, 7, 8, 14, 15]
  case pos => rw [if_pos hfar, if_pos (horigin.2 hfar)]
  case neg =>
    rw [if_neg hfar, if_neg (mt horigin.1 hfar)]
    interval_cases sel
    all_goals simp only [BitVec.ofNat_toNat, BitVec.setWidth_eq]

/-! ## RNG and CYC (R168, R169) -/

/-- The key of the generator is a doubleword, its low word first. -/
theorem rng_gives (f : V3) : Gives (.rng f) fun w t =>
    let a := f.a.toNat
    let key := f.srcB64 w t
    t.setRegs f.d.toNat
      (philox (t.reg a) (t.reg (a + 1)) (t.reg (a + 2)) (t.reg (a + 3)) (bits key 31 0) (bits key 63 32)) := by
  have hlow (key : Dword) : key.setWidth 32 = bits key 31 0 := rfl
  have hhigh (key : Dword) : (key >>> 32).setWidth 32 = bits key 63 32 := rfl
  refine gives_of_exec (fun s => (rfl : _ = execRng f s)) (fun w t => ?_) fun _ t => by simp
  simp only [hhigh, hlow]

/-- The counter advances before the threads read it. -/
theorem runs_tickCore {i : Instr} {s : State} (h : i.Runs s) (core : Nat) : i.Runs (s.tickCore core) :=
  ⟨h.nodup, h.joins, h.live⟩

theorem cyc_reads (f : V3) {s : State} (hr : (Instr.cyc f).Runs s)
    (hdet : ∀ k ∈ s.cur.keys, ∀ w, s.wg k.wg = some w → w.kernel.det = false) :
    ∃ s', exec (.cyc f) s = .next s'
      ∧ (Instr.cyc f).Did (fun _ t => t.setPair f.d.toNat ((s.tickCore s.cur.core).core s.cur.core).cyc)
          (s.tickCore s.cur.core) s' := by
  refine ⟨_, (rfl : _ = execCyc f s), forThreads_did (runs_tickCore hr _) (fun _ _ => (setPair_sameStream _ _ _).key)
    fun k hk s' t w _ _ hw _ => ?_⟩
  simp only [hdet k hk w hw, Bool.false_eq_true, if_false]
  exact congrArg (Res.go s') (Thread.onward_eq (Thread.setPair_pc t _ _) _)

/-! ## A selector outside of R167's list -/

theorem after_v {i : Instr} (eff : Workgroup → Thread → Thread) (w : Workgroup) {t : Thread} (hg : t.guard i.form = true) :
    (i.after eff w t).v = (eff w t).v := by
  rw [Instr.after, if_pos hg]

/-- What an instruction makes of the registers of a guard-true thread is determined. -/
theorem GivesIf.registers_eq {i : Instr} {ok : State → Workgroup → Thread → Prop}
    {e e' : State → Workgroup → Thread → Thread} (h : GivesIf i ok e) (h' : GivesIf i ok e') {s : State} (hr : i.Runs s)
    (hok : ∀ k ∈ s.cur.keys, ∀ t w, s.thread k = some t → s.wg k.wg = some w → t.guard i.form = true → ok s w t)
    {k : Key} {t : Thread} {w : Workgroup} (hk : k ∈ s.cur.keys) (ht : s.thread k = some t) (hw : s.wg k.wg = some w)
    (hg : t.guard i.form = true) : (e s w t).v = (e' s w t).v := by
  obtain ⟨x, hx, hdid⟩ := h s hr hok
  obtain ⟨x', hx', hdid'⟩ := h' s hr hok
  obtain rfl : x = x' := by
    rw [hx] at hx'
    cases hx'
    rfl
  have hsame := Option.some.inj ((hdid.group k hk t w ht hw).symm.trans (hdid'.group k hk t w ht hw))
  rw [← after_v (e s) w hg, hsame, after_v (e' s) w hg]

/-- SREAD v8 with selector 16, which R167 does not list. -/
def unlistedSread : RI8 := { imm := 16, a := 0, d := 8, fm := ⟨.base, none⟩ }

/-- A guest of package 3 at execution: a thread away from home, and the stand-in for its workgroup, in a role. -/
def guestWg (role : Nat) : Workgroup := { bootWg with foreign := some 3, role }
def guestThread : Thread := { bootThread with away := some ⟨1, 0, []⟩, vn := 128 }
def guestAtIssue (role : Nat) : State := { bootAtIssue with threads := [guestThread], wgs := [guestWg role] }

theorem runs_guestAtIssue (role : Nat) : (Instr.sread unlistedSread false).Runs (guestAtIssue role) := by
  refine ⟨List.nodup_singleton _, fun j hj => absurd hj List.not_mem_nil, fun k hk => ?_⟩
  obtain rfl : k = guestThread.key := List.mem_singleton.1 hk
  exact ⟨guestThread, guestWg role, rfl, rfl, rfl, fun _ => ⟨rfl, .inr rfl⟩⟩

/-- The model reads the role of the guest's origin, which the role of the stand-in says nothing of. -/
theorem special_guestWg (role : Nat) :
    special (guestAtIssue role) (guestWg role) guestThread 16 = originSel bootWg 16 := rfl

end Sys2Proof.Machine
end

section
namespace Sys2Proof.Proofs

open Sys2Proof Machine Certificates

/-- Settles O1: the model computes with integers, and the value of each result is that of the operation on words. -/
theorem integerResults : Obligations.IntegerResults := fun f =>
  ⟨yields_of_exec (fun s => (rfl : _ = execMov f s)) fun _ _ => rfl,
    gives_of_exec (fun s => (rfl : _ = execMovl f s)) (fun _ _ => rfl) fun _ t => (setPair_sameStream t _ _).key,
    add_yields f, sub_yields f, mul_yields f, mulhs_yields f, mulhu_yields f, min_yields f, max_yields f, minu_yields f,
    maxu_yields f, yields_of_exec (fun s => (rfl : _ = execAnd f s)) fun _ _ => rfl,
    yields_of_exec (fun s => (rfl : _ = execOr f s)) fun _ _ => rfl,
    yields_of_exec (fun s => (rfl : _ = execXor f s)) fun _ _ => rfl,
    yields_of_exec (fun s => (rfl : _ = execAndn f s)) fun _ _ => rfl, divu_yields f, remu_yields f,
    yields_of_exec (fun s => (rfl : _ = execPopc f s)) fun a _ => congrArg (BitVec.ofNat 32) (popBits_eq_countP a 32),
    yields_of_exec (fun s => (rfl : _ = execClz f s)) fun a _ => leadZeros_word a,
    yields_of_exec (fun s => (rfl : _ = execBrev f s)) fun a _ => reverse_eq_ofFnLE a, lea_gives f⟩

/-- Settles O2: a chain adds numbers, and its words and its carry follow from the sum; a field is what a mask takes of a shifted
word. -/
theorem carriesAndFields : Obligations.CarriesAndFields := ⟨carryChains, shiftsAndFields⟩

/-- Settles O3: a condition on words is that on their values, and predicates move bit by bit. -/
theorem predicatesAndSelects : Obligations.PredicatesAndSelects :=
  ⟨fun f _ => ⟨gives_setPred (fun s => (rfl : _ = execCmp f s)) fun _ _ => cmpHolds_toInt _ _ _,
      gives_setPred (fun s => (rfl : _ = execCmpu f s)) fun _ _ => cmpHolds_toNat _ _ _⟩,
    sel_gives,
    fun lut pb pa pd fm => gives_setPred (fun s => (rfl : _ = execPlop lut pb pa pd fm s)) fun _ _ => lutBit_eq _ _ _,
    fun f => gives_setReg (fun s => (rfl : _ = execPtov f s)) fun _ t => ptov_word t,
    fun f => gives_of_exec (fun s => (rfl : _ = execVtop f s))
      (fun w t => congrArg (fun p => { t with p := p }) (vtop_word t.p (f.srcA w t) (f.srcB w t))) fun _ _ => rfl⟩

/-- Refutes O4: it is stated for every selector. R167 lists 0 to 15, and the others raise 0x06 at decode; for one of them (16) the
model reads the role of a guest's origin, and the statement names the role that the stand-in holds here. With role 0 and with role
1, the origin would have that role. What it says of the listed selectors, of RNG and of CYC holds (`sread_givesIf` with
`special_of_listed`, `rng_gives`, `cyc_reads`). -/
theorem not_specialValues : ¬ Obligations.SpecialValues := by
  intro ⟨hsread, _, _⟩
  have hrole (role : Nat) : BitVec.ofNat 32 (originSel bootWg 16) = BitVec.ofNat 32 role := by
    have hregs : (guestThread.setReg 8 (BitVec.ofNat 32 (special (guestAtIssue role) (guestWg role) guestThread 16))).v
        = (guestThread.setReg 8 (BitVec.ofNat 32 role)).v :=
      GivesIf.registers_eq (sread_givesIf unlistedSread) (hsread unlistedSread) (runs_guestAtIssue role)
        (fun _ _ _ _ _ _ _ => .inr (by decide)) (List.mem_singleton_self guestThread.key) (w := guestWg role) rfl rfl rfl
    rw [special_guestWg] at hregs
    exact congrArg (fun v : VRegs => v[8]) hregs
  exact absurd ((hrole 0).symm.trans (hrole 1)) (by decide)

end Sys2Proof.Proofs
end

section
/-! SUPPORT. The checks of an access (R182, R183, R185, R194) and the walk of the page table (R188 to R190). -/

namespace Sys2Proof.Machine

open Certificates

/-! ## The fields of an 80-bit address (R181) -/

theorem vaOf_eq_append (ea : Dword) : vaOf ea = bits ea 63 52 ++ (bits ea 51 0).setWidth 68 := by
  apply BitVec.eq_of_getLsbD_eq
  intro i hi
  simp only [vaOf, BitVec.getLsbD_or, BitVec.getLsbD_shiftLeft, BitVec.getLsbD_append, BitVec.getLsbD_setWidth]
  by_cases h : i < 68
  · simp [h, hi]
  · have hhigh : (bits ea 51 0).getLsbD i = false := BitVec.getLsbD_of_ge _ _ (by omega)
    simp [h, hi, hhigh]
    intro; omega

theorem toNat_vaOf (ea : Dword) : (vaOf ea).toNat = (bits ea 63 52).toNat * 2 ^ 68 + (bits ea 51 0).toNat := by
  have hlow : (bits ea 51 0).toNat < 2 ^ 52 := (bits ea 51 0).isLt
  rw [vaOf_eq_append, BitVec.toNat_append, BitVec.toNat_setWidth, Nat.mod_eq_of_lt (by omega),
    ← Nat.shiftLeft_add_eq_or_of_lt (by omega), Nat.shiftLeft_eq]

theorem toNat_vaOf_mod (ea : Dword) : (vaOf ea).toNat % 2 ^ 68 = (bits ea 51 0).toNat := by
  have hlow : (bits ea 51 0).toNat < 2 ^ 52 := (bits ea 51 0).isLt
  rw [toNat_vaOf]
  omega

theorem bits_vaOf_path (ea : Dword) : (bits (vaOf ea) 79 76).toNat = (bits ea 63 60).toNat := by
  have hlow : (bits ea 51 0).toNat < 2 ^ 52 := (bits ea 51 0).isLt
  have hdiv : ea.toNat / 2 ^ 60 = ea.toNat / 2 ^ 52 / 2 ^ 8 := by rw [Nat.div_div_eq_div_mul, ← Nat.pow_add]
  rw [toNat_bits, toNat_vaOf, toNat_bits ea 63 60, toNat_bits ea 63 52, hdiv]
  omega

theorem bits_vaOf_region (ea : Dword) : bits (vaOf ea) 75 68 = bits ea 59 52 := by
  apply BitVec.eq_of_toNat_eq
  simp only [toNat_bits, toNat_vaOf]
  omega

/-- The address of a fault's record (R300), as the statements write it. -/
theorem setWidth_vaOf (ea : Dword) :
    (vaOf ea).setWidth 128 = (bits ea 51 0).setWidth 128 ||| ((bits ea 63 52).setWidth 128 <<< 68) := by
  have hlow : (bits ea 51 0).toNat < 2 ^ 52 := (bits ea 51 0).isLt
  have hhigh : (bits ea 63 52).toNat < 2 ^ 12 := (bits ea 63 52).isLt
  apply BitVec.eq_of_toNat_eq
  rw [BitVec.or_comm, BitVec.toNat_or, BitVec.toNat_shiftLeft, BitVec.toNat_setWidth, BitVec.toNat_setWidth,
    BitVec.toNat_setWidth, toNat_vaOf, Nat.mod_eq_of_lt (a := (bits ea 63 52).toNat) (by omega), Nat.shiftLeft_eq,
    Nat.mod_eq_of_lt (a := (bits ea 51 0).toNat) (by omega),
    Nat.mod_eq_of_lt (a := (bits ea 63 52).toNat * 2 ^ 68) (by omega), ← Nat.shiftLeft_eq,
    ← Nat.shiftLeft_add_eq_or_of_lt (b := (bits ea 51 0).toNat) (by omega), Nat.shiftLeft_eq]
  omega

/-! ## The checks of an access (R183, R185, R194) -/

section
variable (s : State) (w : Workgroup) (x : Site) {k : AccessKind} {base ea : Dword}

/-- The sum leaves the base's path and region (R182). -/
theorem State.checkEa_leaves (h : bits ea 63 52 ≠ bits base 63 52) :
    s.checkEa w x k base ea = .error (dataFault 3 (vaOf ea) k.n false) := by
  simp [State.checkEa, h]

theorem State.checkEa_stays (h : bits ea 63 52 = bits base 63 52) : s.checkEa w x k base ea = s.checkVa w x k (vaOf ea) := by
  simp [State.checkEa, h]

variable (hfetch : k.fetch = false)
include hfetch

theorem State.checkVa_noPath (hpath : 6 ≤ (bits ea 63 60).toNat) :
    s.checkVa w x k (vaOf ea) = .error (dataFault 4 (vaOf ea) k.n false) := by
  simp only [State.checkVa, bits_vaOf_path, hfetch, Bool.false_and, Bool.false_eq_true, if_false, hpath, if_true]

/-- A path that the instruction does not accept (R183). -/
theorem State.checkVa_otherPath (hpath : (bits ea 63 60).toNat ≤ 5) (hno : (bits ea 63 60).toNat ∉ k.paths) :
    s.checkVa w x k (vaOf ea) = .error (dataFault
      (if (bits ea 63 60).toNat = 5 then 0x16
        else if k.strict = true ∧ ((bits ea 63 60).toNat = 1 ∨ (bits ea 63 60).toNat = 3) then 0x02 else 0x04)
      (vaOf ea) k.n false) := by
  have hlt : ¬ 6 ≤ (bits ea 63 60).toNat := by omega
  simp only [State.checkVa, bits_vaOf_path, hfetch, Bool.false_and, Bool.false_eq_true, if_false, hlt, List.contains_eq_mem, hno,
    decide_false, Bool.not_false, if_true, beq_iff_eq, Bool.and_eq_true, Bool.or_eq_true]
  split_ifs <;> rfl

theorem State.checkVa_misaligned (hpath : (bits ea 63 60).toNat ≤ 5) (hin : (bits ea 63 60).toNat ∈ k.paths)
    (halign : (bits ea 51 0).toNat % k.align ≠ 0) :
    s.checkVa w x k (vaOf ea) = .error (dataFault 5 (vaOf ea) k.n false) := by
  have hlt : ¬ 6 ≤ (bits ea 63 60).toNat := by omega
  simp only [State.checkVa, bits_vaOf_path, toNat_vaOf_mod, hfetch, Bool.false_and, Bool.false_eq_true, if_false, hlt,
    List.contains_eq_mem, hin, decide_true, Bool.not_true, bne_iff_ne, ne_eq, halign, not_false_eq_true, if_true]

/-- An aligned access of the scratchpad path lies in the allotment, or raises 0x03 (R185). -/
theorem State.checkVa_spad (hpath : (bits ea 63 60).toNat = 2) (hin : 2 ∈ k.paths)
    (halign : (bits ea 51 0).toNat % k.align = 0) :
    s.checkVa w x k (vaOf ea) = if bits ea 59 52 ≠ 0 ∨ w.spadSize < (bits ea 51 0).toNat + k.n
      then .error (dataFault 3 (vaOf ea) k.n false) else .ok ⟨.spad (bits ea 51 0).toNat, false⟩ := by
  simp only [State.checkVa, bits_vaOf_path, bits_vaOf_region, toNat_vaOf_mod, hfetch, hpath, Bool.false_and, Bool.false_eq_true,
    if_false, Nat.reduceLeDiff, List.contains_eq_mem, hin, decide_true, Bool.not_true, bne_iff_ne, ne_eq, halign,
    not_true_eq_false, beq_self_eq_true, if_true, Bool.or_eq_true, decide_eq_true_eq]

end

/-- The record of a fault of a data access, by its code. -/
theorem exists_dataFault {s : State} {w : Workgroup} {x : Site} {k : AccessKind} {base ea : Dword} {c : Byte}
    (h : s.checkEa w x k base ea = .error (dataFault c (vaOf ea) k.n false)) :
    ∃ r, s.checkEa w x k base ea = .error r ∧ r.code = c ∧ r.space = 1
      ∧ r.addr = (bits ea 51 0).setWidth 128 ||| ((bits ea 63 52).setWidth 128 <<< 68) :=
  ⟨_, h, rfl, rfl, setWidth_vaOf ea⟩

theorem accessChecks : AccessChecks := by
  intro s w x k base ea path fault hfetch _ _
  refine ⟨fun h => exists_dataFault (s.checkEa_leaves w x h), fun h => ?_⟩
  have hfault : ∀ {c : Byte}, s.checkVa w x k (vaOf ea) = .error (dataFault c (vaOf ea) k.n false) → fault c :=
    fun hc => exists_dataFault ((s.checkEa_stays w x h).trans hc)
  refine ⟨fun hp => hfault (s.checkVa_noPath w x hfetch hp), fun hp hno => hfault (s.checkVa_otherPath w x hfetch hp hno),
    fun hp hin ha => hfault (s.checkVa_misaligned w x hfetch hp hin ha), fun hp hin ha => ?_⟩
  have hspad := s.checkVa_spad w x hfetch hp hin ha
  refine ⟨fun hout => hfault (hspad.trans (if_pos hout)), fun hr hsize => ?_⟩
  rw [s.checkEa_stays w x h, hspad, if_neg (not_or.2 ⟨not_not.2 hr, Nat.not_lt.2 hsize⟩)]

/-! ## The page walk (R188 to R190) -/

section
variable {s : State} {va : BitVec 80} {table lo : Nat} {size : Option Nat} {rest : List (Nat × Option Nat)}

/-- The entry that a level of the walk reads. -/
def State.entryAt (s : State) (va : BitVec 80) (table lo : Nat) : Dword := s.pte table (va.toNat / 2 ^ lo % 8192)

/-- An entry that names the next table (R190). -/
structure NamesTable (e : Dword) : Prop where
  valid : bit e 0 = true
  leaf : bit e 7 = false
  high : bits e 63 60 = 0
  flags : bits e 6 1 = 0
  region : bits e 15 8 = 0
  pkg : bits e 59 52 = 0

theorem State.walkFrom_invalid (h : bit (s.entryAt va table lo) 0 = false) : s.walkFrom va ((lo, size) :: rest) table = none := by
  unfold State.entryAt at h
  simp only [State.walkFrom, h, Bool.not_false, if_true]

theorem State.walkFrom_leaf (hv : bit (s.entryAt va table lo) 0 = true) (hl : bit (s.entryAt va table lo) 7 = true) :
    s.walkFrom va ((lo, size) :: rest) table = size.map (fun n => (s.entryAt va table lo, n)) := by
  unfold State.entryAt at *
  simp only [State.walkFrom, hv, hl, Bool.not_true, Bool.false_eq_true, if_false, if_true]

/-- A level that may hold no leaf finds none at a valid leaf entry. -/
theorem State.walkFrom_noLeaf (hl : bit (s.entryAt va table lo) 0 = false ∨ bit (s.entryAt va table lo) 7 = true) :
    s.walkFrom va ((lo, none) :: rest) table = none := by
  cases hv : bit (s.entryAt va table lo) 0 with
  | false => exact State.walkFrom_invalid hv
  | true => exact State.walkFrom_leaf hv (hl.resolve_left (by simp [hv]))

/-- The last level holds leaves alone. -/
theorem State.walkFrom_last (hl : bit (s.entryAt va table lo) 0 = false ∨ bit (s.entryAt va table lo) 7 = false) :
    s.walkFrom va [(lo, size)] table = none := by
  cases hv : bit (s.entryAt va table lo) 0 with
  | false => exact State.walkFrom_invalid hv
  | true =>
    have h7 := hl.resolve_left (by simp [hv])
    unfold State.entryAt at *
    simp only [State.walkFrom, hv, h7, Bool.not_true, Bool.false_eq_true, if_false, List.isEmpty_nil, if_true]

theorem State.walkFrom_next {r : Nat × Option Nat} (h : NamesTable (s.entryAt va table lo)) :
    s.walkFrom va ((lo, size) :: r :: rest) table
      = s.walkFrom va (r :: rest) ((bits (s.entryAt va table lo) 51 16).toNat * 65536) := by
  obtain ⟨hv, hl, hh, hf, hr, hp⟩ := h
  unfold State.entryAt at *
  rw [State.walkFrom]
  simp only [hv, hl, hh, hf, hr, hp, Bool.not_true, Bool.false_eq_true, if_false, List.isEmpty_cons, bne_self_eq_false, Bool.or_self]

end

/-- A walk that finds no leaf entry has no leaf. -/
theorem State.walk_none {s : State} {root : Nat} {va : BitVec 80} (h : s.walkEntry root va = none) : s.walk root va = none := by
  simp [State.walk, h]

/-- The leaf of a level 3 entry that R190 does not refuse. -/
theorem leafOf_level3 {e : Dword} (va : BitVec 80) (hh : bits e 63 60 = 0) (hhost : bit e 5 = true → bits e 59 52 = 0xFF)
    (hord : bit e 3 = true → bit e 4 = false ∧ bit e 6 = false) :
    leafOf e 16 va = some { pa := (bits e 51 16).toNat * 65536 + va.toNat % 65536, pkg := (bits e 59 52).toNat
                            region := (bits e 15 8).toNat, graph := bit e 6, host := bit e 5, cmp := bit e 4
                            ord := bit e 3, x := bit e 2, w := bit e 1 } := by
  have hpkg : (bit e 5 && bits e 59 52 != 0xFF) = false := by
    cases h : bit e 5
    · rfl
    · simp [hhost h]
  have hplain : (bit e 3 && (bit e 4 || bit e 6)) = false := by
    cases h : bit e 3
    · rfl
    · obtain ⟨h4, h6⟩ := hord h
      rw [h4, h6]
      rfl
  simp only [leafOf, hh, hpkg, hplain, bne_self_eq_false, Bool.or_false, Nat.sub_self, Nat.pow_zero, Nat.mod_one,
    Bool.false_eq_true, if_false, Nat.reducePow]

theorem pageWalk : PageWalk := by
  intro s root va e nextOk down e0 e1 e2 e3
  have hnext : ∀ {x}, nextOk x → NamesTable x := fun ⟨h0, h7, hh, hf, hr, hp⟩ => ⟨h0, h7, hh, hf, hr, hp⟩
  have to1 (h0 : nextOk e0) : s.walkEntry root va = s.walkFrom va [(42, some 42), (29, some 29), (16, some 16)] (down e0) :=
    State.walkFrom_next (hnext h0)
  have to2 (h0 : nextOk e0) (h1 : nextOk e1) : s.walkEntry root va = s.walkFrom va [(29, some 29), (16, some 16)] (down e1) :=
    (to1 h0).trans (State.walkFrom_next (hnext h1))
  have to3 (h0 : nextOk e0) (h1 : nextOk e1) (h2 : nextOk e2) : s.walkEntry root va = s.walkFrom va [(16, some 16)] (down e2) :=
    (to2 h0 h1).trans (State.walkFrom_next (hnext h2))
  refine ⟨fun h0 h1 h2 hv hl hh hhost hord => ?_, fun h0 => ?_, fun h0 hv => ?_, fun h0 h1 hv => ?_, fun h0 h1 h2 hl => ?_⟩
  · have hentry : s.walkEntry root va = some (e3, 16) := (to3 h0 h1 h2).trans (State.walkFrom_leaf hv hl)
    rw [State.walk, hentry]
    exact leafOf_level3 va hh hhost hord
  · exact State.walk_none (State.walkFrom_noLeaf h0)
  · exact State.walk_none ((to1 h0).trans (State.walkFrom_invalid hv))
  · exact State.walk_none ((to2 h0 h1).trans (State.walkFrom_invalid hv))
  · exact State.walk_none ((to3 h0 h1 h2).trans (State.walkFrom_last hl))

end Sys2Proof.Machine
end

section
namespace Sys2Proof.Proofs

open Sys2Proof Machine Certificates

/-- Settles O25: each check by the branch of R194 that fails first, and the walk level by level. -/
theorem addressTranslation : Obligations.AddressTranslation := ⟨accessChecks, pageWalk⟩

end Sys2Proof.Proofs
end

section
/-! SUPPORT. Stores of a lone thread (R196, R201, R225, R234): what a store queue shows to its thread, and a store at the place of
a leaf. -/

namespace Sys2Proof.Machine

open Certificates

/-! ## The bytes of registers -/

theorem natLe_eq_map_range (n x : Nat) : natLe n x = (List.range n).map (fun j => BitVec.ofNat 8 (x / 256 ^ j)) := by
  induction n generalizing x with
  | zero => rfl
  | succ n ih =>
    simp only [natLe, ih, List.range_succ_eq_map, List.map_cons, List.map_map, Nat.pow_zero, Nat.div_one, Nat.div_div_eq_div_mul]
    simp [Nat.pow_succ']

/-- The bytes of a store, as the statements write them (R201). -/
theorem groupBytes_eq_storedBytes (t : Thread) (d : Nat) {n : Nat} (hn : n ≤ 16) : t.groupBytes d n = storedBytes t d n := by
  have hwords : wordsToBytes (t.regs d 4)
      = (List.range (4 * 4)).map (fun i => BitVec.ofNat 8 ((t.reg (d + i / 4)).toNat / 256 ^ (i % 4))) := by
    rw [← flatten_map_range, wordsToBytes, Thread.regs, List.flatMap_def, List.map_map]
    refine congrArg List.flatten (List.map_congr_left fun h _ => ?_)
    rw [Function.comp, natLe_eq_map_range]
    refine List.map_congr_left fun j hj => ?_
    have hlt := List.mem_range.1 hj
    rw [Nat.mul_add_div (by omega), Nat.div_eq_of_lt hlt, Nat.mul_add_mod, Nat.mod_eq_of_lt hlt, Nat.add_zero]
  rw [Thread.groupBytes, hwords, storedBytes, ← List.map_take, List.take_range, Nat.min_eq_left hn]

@[simp] theorem length_storedBytes (t : Thread) (d n : Nat) : (storedBytes t d n).length = n := by
  simp [storedBytes]

/-! ## What a store queue shows (R202, R225) -/

@[simp] theorem length_layer (a : Nat) (b : List Byte) (x : Nat) (data : List Byte) : (layer a b x data).length = b.length := by
  simp [layer]

/-- One byte with a store over it. -/
theorem getD_layer (a : Nat) {b : List Byte} (x : Nat) (data : List Byte) (h : b.length = 1) :
    (layer a b x data).getD 0 0 = if x ≤ a ∧ a < x + data.length then data.getD (a - x) 0 else b.getD 0 0 := by
  simp [layer, h]

theorem State.coreOrder_append (s : State) (q : Queued) (core : Nat) (hq : q.by'.isNone = false) :
    ({ s with queue := s.queue ++ [q] } : State).coreOrder core = s.coreOrder core := by
  simp [State.coreOrder, hq]

theorem State.queueOf_append (s : State) {q : Queued} {k : Key} (hq : q.by' = some k) :
    ({ s with queue := s.queue ++ [q] } : State).queueOf k = s.queueOf k ++ [q] := by
  simp [State.queueOf, hq]

section
variable {s : State} {t : Thread} (h : Drained s t)
include h

theorem State.queueOf_drained : s.queueOf t.key = [] :=
  List.filter_eq_nil_iff.2 fun q hq => by simpa using (h q hq).2

theorem State.coreOrder_drained : s.coreOrder (s.coreOf t) = [] :=
  List.filter_eq_nil_iff.2 fun q hq => by simp [(h q hq).1]

/-- A release covers nothing of a thread for which no store waits. -/
theorem State.markOut_drained : s.markOut (s.coreOf t) t.key = s := by
  have hmap : s.queue.map (fun q => if q.by' == some t.key || (q.by'.isNone && q.core == s.coreOf t) then { q with out := true } else q)
      = s.queue := by
    refine (List.map_congr_left fun q hq => ?_).trans (List.map_id s.queue)
    obtain ⟨hcore, hkey⟩ := h q hq
    simp [hcore, hkey]
  rw [State.markOut, hmap]

/-- Of a thread for which no store waits, the next store is what it sees. -/
theorem seenByte_append {q : Queued} {pa : Nat} (hq : q.by' = some t.key) (hl : q.loc = .main pa) (a : Nat) :
    seenByte { s with queue := s.queue ++ [q] } t a
      = if pa ≤ a ∧ a < pa + q.data.length then q.data.getD (a - pa) 0 else seenByte s t a := by
  have hcore : ({ s with queue := s.queue ++ [q] } : State).coreOrder (s.coreOf t) = [] := by
    rw [State.coreOrder_append s q _ (by simp [hq]), State.coreOrder_drained h]
  have hown : ({ s with queue := s.queue ++ [q] } : State).queueOf t.key = [q] := by
    rw [State.queueOf_append s hq, State.queueOf_drained h, List.nil_append]
  have hseen : seenByte s t a = memGet s.mem a := by
    simp [seenByte, State.coreView, State.coreOrder_drained h, State.queueOf_drained h]
  rw [hseen]
  show ((State.coreView { s with queue := s.queue ++ [q] } (s.coreOf t) t.key a [memGet s.mem a]).getD 0 0 = _)
  simp only [State.coreView, hcore, hown, List.nil_append, List.foldl_cons, List.foldl_nil, hl]
  exact getD_layer a pa q.data rfl

end

/-- The scratchpad with the thread's next store over it. -/
theorem State.spadView_append (s : State) {q : Queued} {k : Key} {off : Nat} (hq : q.by' = some k) (hl : q.loc = .spad off) (a : Nat)
    (b : List Byte) :
    ({ s with queue := s.queue ++ [q] } : State).spadView k a b = layer a (s.spadView k a b) off q.data := by
  simp only [State.spadView, State.queueOf_append s hq, List.foldl_append, List.foldl_cons, List.foldl_nil, hl]

@[simp] theorem State.length_spadView (s : State) (k : Key) (a : Nat) (b : List Byte) : (s.spadView k a b).length = b.length := by
  unfold State.spadView
  generalize s.queueOf k = l
  induction l generalizing b with
  | nil => rfl
  | cons q l ih =>
    rw [List.foldl_cons, ih]
    split
    · exact length_layer _ _ _ _
    · rfl

/-- That a release covers a store changes neither its place nor its bytes. -/
theorem State.spadView_markOut (s : State) (core : Nat) (k k' : Key) (a : Nat) (b : List Byte) :
    (s.markOut core k).spadView k' a b = s.spadView k' a b := by
  unfold State.spadView State.queueOf State.markOut
  simp only
  generalize s.queue = l
  induction l generalizing b with
  | nil => rfl
  | cons q l ih =>
    have hby : ∀ p : Bool, (if p then { q with out := true } else q).by' = q.by' := fun p => by cases p <;> rfl
    have hloc : ∀ p : Bool, (if p then { q with out := true } else q).loc = q.loc := fun p => by cases p <;> rfl
    have hdata : ∀ p : Bool, (if p then { q with out := true } else q).data = q.data := fun p => by cases p <;> rfl
    simp only [List.map_cons, List.filter_cons, hby]
    split
    · simp only [List.foldl_cons, hloc, hdata, ih]
    · exact ih b

theorem State.spadView_covered (s : State) (t : Thread) (out : Bool) (k : Key) (a : Nat) (b : List Byte) :
    (covered s t out).spadView k a b = s.spadView k a b := by
  cases out
  · rfl
  · exact State.spadView_markOut s _ _ k a b

/-! ## A store enters the queue -/

/-- A store of the thread as it waits at its place. -/
def queuedAt (s : State) (t : Thread) (w : Workgroup) (l : Loc) (b : List Byte) (out : Bool) : Queued :=
  { waiting s t w with loc := l, data := b, out }

/-- A store that enters the queue, with the release that may cover it and those before it (R234). -/
theorem covers_enqueue (s : State) (t : Thread) (w : Workgroup) (f : MemForm) (sem : BitVec 2) (l : Loc) (d b : List Byte) :
    let out := releases sem && decide (3 ≤ f.w2.scope.toNat)
    (Acc.got (s.enqueue (s.coreOf t) t.key (vfOfCtx w.ctxn) l d) b).covers f sem (s.coreOf t) t.key
      = .got { s with queue := (covered s t out).queue ++ [queuedAt s t w l d out] } b := by
  intro out
  have hcovers : ∀ y : State, (Acc.got y b).covers f sem (s.coreOf t) t.key
      = if out = true then .got (y.markOut (s.coreOf t) t.key) b else .got y b := fun _ => rfl
  rw [hcovers]
  cases out
  · rfl
  · simp [State.markOut, State.enqueue, covered, queuedAt, waiting, vfOfCtx]

/-! ## Writes at a place of main memory -/

theorem storeKind_eq (n : Nat) :
    storeKind n = { n, align := n, paths := [0, 2], write := true, strict := true, ordOk := n == 4 || n == 8 } := by
  rw [storeKind, Bool.decide_or]
  rfl

theorem State.memAccess_landsAt {s : State} {f : MemForm} {unit : Nat} {w : Workgroup} {t : Thread} {k : AccessKind} {l : Loc}
    {ord : Bool} (h : LandsAt s f unit w t k l ord) (go : Target → Acc) :
    s.memAccess f unit w t k go = .ok (go ⟨l, ord⟩) := by
  obtain ⟨hfirst, hcheck⟩ := h
  rw [addressOf_eq_memEa] at hcheck
  simp only [State.memAccess, State.access, State.takeReplies_unanswered hfirst, State.memCheck, hcheck]

/-- A write that is performed is done at its home, whichever granules it might take. -/
theorem State.writeHome_performs {s y : State} {t : Thread} {vf pa : Nat} {op : MemOp} {old : List Byte} (hp : s.isCmp pa = false)
    (hw : ∀ now, s.bumpId.physWrite vf pa op now = .done y old) (dest : Option RmwDest) (va : BitVec 80) (keys : List Key) :
    s.writeHome t vf pa op dest va keys = .got y old := by
  have hp' : s.bumpId.isCmp pa = false := hp
  simp only [State.writeHome, State.attempt, State.newHeld, hp', Bool.false_and, Bool.false_eq_true, if_false, hw]

section
variable {s : State} {t : Thread} {w : Workgroup} {pa n : Nat} (hs : Sound s t pa n)
include hs

/-- A store to a plain page enters the queue (R225). -/
theorem State.writeAt_queues {d : List Byte} (hd : d.length = n) (sem : BitVec 2) (dest : Option RmwDest) (va : BitVec 80)
    (keys : List Key) : s.writeAt w t ⟨.main pa, false⟩ (.store d) sem dest va keys
      = .got (s.enqueue (s.coreOf t) t.key (vfOfCtx w.ctxn) (.main pa) d) [] := by
  have hq : s.queues pa (.store d) = some d := by
    simp [State.queues, hs.plain, hd, State.poisonAt_eq_false hs.clean]
  simp [State.writeAt, State.writeLoc, State.writeMain, hs.link, hq]

/-- A store to a page with ORD is performed at once (R196). -/
theorem State.writeAt_ord (d : List Byte) (sem : BitVec 2) (dest : Option RmwDest) (va : BitVec 80) (keys : List Key) :
    s.writeAt w t ⟨.main pa, true⟩ (.store d) sem dest va keys = .got (s.bumpId.putBytes pa d) (memGetN s.mem pa d.length) := by
  have hhome := State.writeHome_performs (t := t) (vf := vfOfCtx w.ctxn) hs.plain
    (fun now => State.physWrite_store_plain s.bumpId _ d now hs.plain) dest va keys
  simp only [State.writeAt, hs.link, Bool.not_true, Bool.false_eq_true, if_false, State.release_drained hs.queue, hhome]
  rfl

/-- Another write of a lone thread is performed at once, when no store of it waits (R202, R225). -/
theorem State.writeLoc_performs {op : MemOp} {y : State} {old : List Byte} (hq : s.queues pa op = none)
    (hw : ∀ now, s.bumpId.physWrite (vfOfCtx w.ctxn) pa op now = .done y old) (sem : BitVec 2) (dest : Option RmwDest)
    (va : BitVec 80) (keys : List Key) : s.writeLoc w t (.main pa) op sem dest va keys = .got y old := by
  have hrel : (if op.isCell && !releases sem then s else s.release (s.coreOf t) t.key) = s := by
    rw [State.release_drained hs.queue, ite_self]
  simp only [State.writeLoc, State.writeMain, hs.link, Bool.not_true, Bool.false_eq_true, if_false, hq, hrel]
  exact State.writeHome_performs hs.plain hw dest va keys

end

theorem State.writeAt_spad {s : State} {w : Workgroup} {t : Thread} (hw : w.foreign = none) (off : Nat) (d : List Byte) (ord : Bool)
    (sem : BitVec 2) (dest : Option RmwDest) (va : BitVec 80) (keys : List Key) :
    s.writeAt w t ⟨.spad off, ord⟩ (.store d) sem dest va keys
      = .got (s.enqueue (s.coreOf t) t.key (vfOfCtx w.ctxn) (.spad off) d) [] := by
  cases ord <;> simp [State.writeAt, State.writeLoc, hw, State.writeSpad]

/-! ## The store instructions (R201) -/

section
variable {s x : State} {t u : Thread} {w : Workgroup} {i : Instr} {body : State → Workgroup → Thread → Res} {l : Loc}
  {b : List Byte} {out : Bool}

/-- The step of a lone thread whose store enters the queue. -/
theorem went_of_enqueue (h : i.Alone s t w)
    (hb : body s w t = .go { s with queue := (covered s t out).queue ++ [queuedAt s t w l b out] } u) (hk : u.key = t.key) :
    Went (fun _ _ => goes u) { s with queue := (covered s t out).queue ++ [queuedAt s t w l b out] } (s.forThreads i body) :=
  went_of_alone h hb hk ⟨rfl, rfl, rfl, rfl⟩ h.wg rfl rfl

/-- Of a thread for which no store waits, that store is what it sees of its bytes. -/
theorem enqueues_of_alone {pa : Nat} (h : i.Alone s t w) (hd : Drained s t) (hexec : exec i s = .next (s.forThreads i body))
    (hb : body s w t = .go { s with queue := (covered s t out).queue ++ [queuedAt s t w (.main pa) b out] } u)
    (hk : u.key = t.key) : Enqueues i s t w u pa b out := by
  have hwent := went_of_enqueue h hb hk
  have hcov : covered s t out = s := by
    cases out
    · rfl
    · exact State.markOut_drained hd
  refine ⟨_, hexec, fun a => ?_, hwent⟩
  rw [hwent.rest.eq, hcov]
  exact seenByte_append hd (q := queuedAt s t w (.main pa) b out) rfl rfl a

theorem enqueuesSpad_of_alone {off : Nat} (h : i.Alone s t w) (hexec : exec i s = .next (s.forThreads i body))
    (hb : body s w t = .go { s with queue := (covered s t out).queue ++ [queuedAt s t w (.spad off) b out] } u)
    (hk : u.key = t.key) : EnqueuesSpad i s t w u off b out := by
  have hwent := went_of_enqueue h hb hk
  refine ⟨_, hexec, fun a x => ?_, hwent⟩
  have hview := State.spadView_append (covered s t out) (q := queuedAt s t w (.spad off) b out) (k := t.key) rfl rfl a [x]
  rw [State.spadView_covered] at hview
  rw [hwent.rest.eq]
  refine (congrArg (fun l => l.getD 0 0) hview).trans ?_
  exact getD_layer a off b (State.length_spadView s t.key a [x])

end

/-- ST and STR as stores of one kind, and when a store is covered by a release at DIE scope or wider (R226, R234). -/
theorem exec_store {i : Instr} {f : MemForm} (hi : i = .st f ∨ i = .str f) (s : State) :
    ∃ sem, exec i s = s.store i f sem ∧ i.words = f.fm.words
      ∧ (releases sem && decide (3 ≤ f.w2.scope.toNat)) = decide (i = .str f ∧ 3 ≤ f.w2.scope.toNat) := by
  rcases hi with rfl | rfl
  · exact ⟨0, rfl, rfl, by simp [releases]⟩
  · exact ⟨2, rfl, rfl, by simp [releases]⟩

/-- What a store does for one thread. -/
def storeBody (i : Instr) (f : MemForm) (sem : BitVec 2) (s : State) (w : Workgroup) (t : Thread) : Res :=
  match s.memAccess f (memBytes f) w t (storeKind (memBytes f)) (fun g =>
      s.writeAt w t g (.store (t.groupBytes f.d.toNat (memBytes f))) sem none (memVa f (memBytes f) w t) [t.key]) with
  | .error r => .fault s r
  | .ok a => (a.covers f sem (s.coreOf t) t.key).res i t (memVa f (memBytes f) w t) (memBytes f) (0, 0) none (fun _ => t)

theorem State.store_eq (s : State) (i : Instr) (f : MemForm) (sem : BitVec 2) :
    s.store i f sem = .next (s.forThreads i (storeBody i f sem)) := by
  unfold State.store storeBody
  simp only [storeKind_eq] <;> rfl

section
variable {s : State} {t : Thread} {w : Workgroup} {i : Instr} {f : MemForm} {sem : BitVec 2} {l : Loc} {ord : Bool}
  (hn : memBytes f ≤ 16) (hl : LandsAt s f (memBytes f) w t (storeKind (memBytes f)) l ord)
include hn hl

/-- The step of a thread whose store enters the queue. -/
theorem storeBody_enqueue (hw : s.writeAt w t ⟨l, ord⟩ (.store (storedBytes t f.d.toNat (memBytes f))) sem none
      (memVa f (memBytes f) w t) [t.key]
      = .got (s.enqueue (s.coreOf t) t.key (vfOfCtx w.ctxn) l (storedBytes t f.d.toNat (memBytes f))) []) :
    storeBody i f sem s w t = .go { s with queue :=
      (covered s t (releases sem && decide (3 ≤ f.w2.scope.toNat))).queue ++ [queuedAt s t w l (storedBytes t f.d.toNat (memBytes f))
        (releases sem && decide (3 ≤ f.w2.scope.toNat))] } (t.onward i) := by
  rw [storeBody, State.memAccess_landsAt hl, groupBytes_eq_storedBytes t _ hn]
  dsimp only
  rw [hw, covers_enqueue]
  rfl

/-- The step of a thread whose store is performed at once. -/
theorem storeBody_performed {y : State} {b : List Byte} (hw : s.writeAt w t ⟨l, ord⟩ (.store (storedBytes t f.d.toNat (memBytes f)))
      sem none (memVa f (memBytes f) w t) [t.key] = .got y b) (hy : y.markOut (s.coreOf t) t.key = y) :
    storeBody i f sem s w t = .go y (t.onward i) := by
  have hcov : (Acc.got y b).covers f sem (s.coreOf t) t.key = .got y b := by
    unfold Acc.covers
    simp only [hy, ite_self]
  rw [storeBody, State.memAccess_landsAt hl, groupBytes_eq_storedBytes t _ hn]
  dsimp only
  rw [hw, hcov]
  rfl

end

end Sys2Proof.Machine
end

section
namespace Sys2Proof.Proofs

open Sys2Proof Machine Certificates

/-- Settles O20: a store enters the thread's queue, which shows it to the thread before all else; at a page with ORD it is performed
at once, since no earlier store waits. -/
theorem stores : Obligations.Stores := by
  rintro s t w f n i rfl hn hi h u b out
  obtain ⟨sem, hexec, hwords, hout⟩ := exec_store hi s
  rw [State.store_eq] at hexec
  have hu : t.onward i = u := by rw [Thread.onward, pcAfter, hwords]
  refine ⟨fun pa hs => ⟨fun hl => ?_, fun hl hm => ?_⟩, fun off ⟨ord, hl⟩ hf => ?_⟩
  · have hb := storeBody_enqueue (i := i) hn hl (State.writeAt_queues hs (length_storedBytes _ _ _) sem none _ _)
    rw [hout, hu] at hb
    exact enqueues_of_alone h hs.queue hexec hb rfl
  · have hb := storeBody_performed (i := i) (sem := sem) hn hl (State.writeAt_ord hs _ sem none _ _)
      (State.markOut_drained (s := s.bumpId.putBytes pa b) hs.queue)
    rw [hu] at hb
    exact storesAt_of_alone h hexec hb rfl hm
  · have hb := storeBody_enqueue (i := i) hn hl (State.writeAt_spad hf off _ ord sem none _ _)
    rw [hout, hu] at hb
    exact enqueuesSpad_of_alone h hexec hb rfl

end Sys2Proof.Proofs
end

section
/-! SUPPORT. Atomic operations (R203, R204): read-modify-writes of plain memory, and ATOM and ACAS of a lone thread. -/

namespace Sys2Proof.Machine

open Certificates

/-! ## Numbers that bytes hold -/

theorem leNat_lt (l : List Byte) : leNat l < 256 ^ l.length := by
  induction l with
  | nil => simp [leNat]
  | cons b l ih =>
    have hb := b.isLt
    rw [leNat, List.length_cons, Nat.pow_succ']
    omega

theorem leNat_memGetN_lt (m : Memory) (a n : Nat) : leNat (memGetN m a n) < 256 ^ n := by
  have h := leNat_lt (memGetN m a n)
  rwa [length_memGetN] at h

theorem natLe_leNat_memGetN (m : Memory) (a n : Nat) : natLe n (leNat (memGetN m a n)) = memGetN m a n := by
  have h := natLe_leNat (memGetN m a n)
  rwa [length_memGetN] at h

/-! ## Read-modify-writes of plain frames -/

/-- Does an operation make new bytes of those that it finds, in one place? -/
def MemOp.modifies : MemOp → Bool
  | .atom _ _ _ => true
  | .cas _ _ _ => true
  | .cellAdd _ _ => true
  | .cellClear => true
  | _ => false

section
variable {s : State} {pa : Nat} {op : MemOp} (hop : op.modifies = true) (hp : s.isCmp pa = false)
  (hg : ∀ a ∈ s.poison, a < pa ∨ pa + op.len ≤ a)
include hop hp hg

theorem State.physWrite_modifies (vf : Nat) (now : Bool) {b : List Byte} (hb : op.apply (memGetN s.mem pa op.len) = some b)
    (hl : b.length = op.len) : s.physWrite vf pa op now = .done (s.putBytes pa b) (memGetN s.mem pa op.len) := by
  have hgood := State.poisonAt_eq_false hg
  cases op with
  | atom | cas | cellAdd | cellClear =>
    simp_all [State.physWrite, MemOp.isRaw, State.plainWrite, State.badFor, MemOp.consumes, State.healOp, MemOp.covers, State.heal,
      State.putBytes]
  | _ => cases hop

/-- An operation that writes nothing (R204). -/
theorem State.physWrite_none (vf : Nat) (now : Bool) (hb : op.apply (memGetN s.mem pa op.len) = none) :
    s.physWrite vf pa op now = .done s (memGetN s.mem pa op.len) := by
  have hgood := State.poisonAt_eq_false hg
  cases op with
  | atom | cas | cellAdd | cellClear =>
    simp_all [State.physWrite, MemOp.isRaw, State.plainWrite, State.badFor, MemOp.consumes]
  | _ => cases hop

end

theorem State.queues_modifies {op : MemOp} (hop : op.modifies = true) (s : State) (pa : Nat) : s.queues pa op = none := by
  cases op with
  | atom | cas | cellAdd | cellClear => rfl
  | _ => cases hop

/-- What an operation leaves of plain memory: new bytes, or the bytes as they were. -/
def State.modified (s : State) (pa : Nat) (op : MemOp) : State :=
  (op.apply (memGetN s.mem pa op.len)).elim s (s.putBytes pa)

/-- The bytes that stand there then. -/
def MemOp.leaves (op : MemOp) (old : List Byte) : List Byte := (op.apply old).getD old

theorem MemOp.length_of_apply {op : MemOp} (hop : op.modifies = true) {old b : List Byte} (h : op.apply old = some b) :
    b.length = op.len := by
  cases op with
  | cas n e w =>
    rw [MemOp.apply] at h
    split at h <;> cases h
    exact length_natLe _ _
  | atom | cellAdd =>
    cases h
    exact length_natLe _ _
  | cellClear =>
    cases h
    rfl
  | _ => cases hop

theorem State.physWrite_modified {s : State} {pa : Nat} {op : MemOp} (hop : op.modifies = true) (hp : s.isCmp pa = false)
    (hg : ∀ a ∈ s.poison, a < pa ∨ pa + op.len ≤ a) (vf : Nat) (now : Bool) :
    s.physWrite vf pa op now = .done (s.modified pa op) (memGetN s.mem pa op.len) := by
  unfold State.modified
  cases hb : op.apply (memGetN s.mem pa op.len) with
  | none => exact State.physWrite_none hop hp hg vf now hb
  | some b => exact State.physWrite_modifies hop hp hg vf now hb (op.length_of_apply hop hb)

/-- In a canonical memory the bytes stand there, whether the operation has written them or not. -/
theorem State.stored_modified {s : State} (hm : s.mem.wf = true) (pa : Nat) (op : MemOp) :
    Stored s (s.modified pa op) pa (op.leaves (memGetN s.mem pa op.len)) := by
  unfold State.modified MemOp.leaves
  cases op.apply (memGetN s.mem pa op.len) with
  | none => exact ⟨fun i hi => (getD_memGetN s.mem pa (by simpa using hi)).symm, fun _ _ => rfl⟩
  | some b => exact State.stored_putBytes hm pa b

/-- What the operation changes besides: it ends errors of its bytes. -/
theorem State.modified_eq (s : State) (pa : Nat) (op : MemOp) :
    s.modified pa op = { s with mem := (s.modified pa op).mem, poison := (s.modified pa op).poison } := by
  unfold State.modified
  cases op.apply (memGetN s.mem pa op.len) <;> rfl

/-! ## The results of atomic operations (R203, R204) -/

/-- The operation on numbers is the one on values. -/
theorem atomResult_toNat {n : Nat} (op : BitVec 4) (h : op.toNat ≤ 8) (old x : BitVec (8 * n)) :
    atomResult op.toNat n old.toNat x.toNat = (atomicResult op old x).toNat := by
  have hcode : op = 0 ∨ op = 1 ∨ op = 2 ∨ op = 3 ∨ op = 4 ∨ op = 5 ∨ op = 6 ∨ op = 7 ∨ op = 8 := by
    revert op; decide
  have heq : old.toInt = x.toInt → old.toNat = x.toNat := fun he => congrArg BitVec.toNat (BitVec.eq_of_toInt_eq he)
  rcases hcode with rfl | rfl | rfl | rfl | rfl | rfl | rfl | rfl | rfl
  · exact (BitVec.toNat_add old x).symm
  · show (if (BitVec.ofNat (8 * n) old.toNat).toInt ≤ (BitVec.ofNat (8 * n) x.toNat).toInt then old.toNat else x.toNat)
      = (if old.slt x then old else x).toNat
    simp only [BitVec.ofNat_toNat, BitVec.setWidth_eq, BitVec.slt, decide_eq_true_eq]
    split_ifs <;> omega
  · show (if (BitVec.ofNat (8 * n) old.toNat).toInt ≥ (BitVec.ofNat (8 * n) x.toNat).toInt then old.toNat else x.toNat)
      = (if old.slt x then x else old).toNat
    simp only [BitVec.ofNat_toNat, BitVec.setWidth_eq, BitVec.slt, decide_eq_true_eq]
    split_ifs <;> omega
  · show min old.toNat x.toNat = (if old.ult x then old else x).toNat
    simp only [BitVec.ult, decide_eq_true_eq]
    split_ifs <;> omega
  · show max old.toNat x.toNat = (if old.ult x then x else old).toNat
    simp only [BitVec.ult, decide_eq_true_eq]
    split_ifs <;> omega
  · exact (BitVec.toNat_and old x).symm
  · exact (BitVec.toNat_or old x).symm
  · exact (BitVec.toNat_xor old x).symm
  · rfl

section
variable {n : Nat} {l : List Byte} {old x : BitVec (8 * n)} (hold : leNat l = old.toNat)
include hold

theorem MemOp.leaves_atom {op : BitVec 4} (h : op.toNat ≤ 8) {d : Dword} (hd : d.toNat % 2 ^ (8 * n) = x.toNat) :
    (MemOp.atom op.toNat n d).leaves l = natLe n (atomicResult op old x).toNat := by
  rw [← atomResult_toNat op h, ← hold, ← hd]
  rfl

theorem MemOp.leaves_cas (hl : l.length = n) {e v : Dword} (he : e.toNat % 2 ^ (8 * n) = x.toNat) :
    (MemOp.cas n e v).leaves l = natLe n (if old = x then v.toNat else old.toNat) := by
  have hsame : (leNat l == e.toNat % 2 ^ (8 * n)) = decide (old = x) := by
    rw [hold, he, Bool.eq_iff_iff, beq_iff_eq, decide_eq_true_iff, BitVec.toNat_inj]
  rw [MemOp.leaves, MemOp.apply, hsame]
  by_cases h : old = x
  · simp [h]
  · simp [h, ← hold, ← hl, natLe_leNat]

end

/-! ## ATOM and ACAS of a lone thread -/

section
variable {t : Thread} {key : Key} {d : Nat} {op : MemOp} {l : List Byte}

/-- The old value that an operation returns (R203). -/
theorem Thread.rmwResult_word (hl : l.length = 4) : t.rmwResult ⟨key, d, 4, none⟩ op l = t.setReg d (BitVec.ofNat 32 (leNat l)) := by
  unfold Thread.rmwResult
  dsimp only
  rw [List.take_of_length_le (Nat.le_of_eq hl)]
  rfl

theorem Thread.rmwResult_pair (hl : l.length = 8) :
    t.rmwResult ⟨key, d, 8, none⟩ op l = t.setPair d (BitVec.ofNat 64 (leNat l)) := by
  unfold Thread.rmwResult
  dsimp only
  rw [List.take_of_length_le (Nat.le_of_eq hl)]
  rfl

/-- And the predicate of ACAS (R204). -/
theorem Thread.rmwResult_cas_word {p : PReg} {e v : Dword} (hl : l.length = 4) :
    t.rmwResult ⟨key, d, 4, some p⟩ (.cas 4 e v) l
      = (t.setReg d (BitVec.ofNat 32 (leNat l))).setPred p (leNat l == e.toNat % 2 ^ 32) := by
  unfold Thread.rmwResult
  dsimp only
  rw [List.take_of_length_le (Nat.le_of_eq hl)]
  rfl

theorem Thread.rmwResult_cas_pair {p : PReg} {e v : Dword} (hl : l.length = 8) :
    t.rmwResult ⟨key, d, 8, some p⟩ (.cas 8 e v) l
      = (t.setPair d (BitVec.ofNat 64 (leNat l))).setPred p (leNat l == e.toNat % 2 ^ 64) := by
  unfold Thread.rmwResult
  dsimp only
  rw [List.take_of_length_le (Nat.le_of_eq hl)]
  rfl

end

/-- What a read-modify-write makes of its thread. -/
def Thread.returned (t : Thread) (op : MemOp) (dest : Option RmwDest) (old : List Byte) : Thread :=
  match dest with
  | some d => t.rmwResult d op old
  | none => t

theorem Thread.rmwResult_keeps (t : Thread) (d : RmwDest) (op : MemOp) (old : List Byte) :
    (t.rmwResult d op old).key = t.key ∧ (t.rmwResult d op old).pc = t.pc := by
  unfold Thread.rmwResult
  constructor <;> (dsimp only; split <;> split_ifs <;> simp [Thread.setPair])

theorem Thread.returned_key (t : Thread) (op : MemOp) (dest : Option RmwDest) (old : List Byte) :
    (t.returned op dest old).key = t.key := by
  cases dest with
  | none => rfl
  | some d => exact (t.rmwResult_keeps d op old).1

theorem Thread.returned_pc (t : Thread) (op : MemOp) (dest : Option RmwDest) (old : List Byte) :
    (t.returned op dest old).pc = t.pc := by
  cases dest with
  | none => rfl
  | some d => exact (t.rmwResult_keeps d op old).2

/-- The step of a lone thread that leaves main memory with other bytes. -/
theorem storesAt_of_stored {i : Instr} {s y : State} {t u : Thread} {w : Workgroup} {body : State → Workgroup → Thread → Res}
    {pa : Nat} {b : List Byte} {m : Memory} {p : List Nat} (h : i.Alone s t w) (hexec : exec i s = .next (s.forThreads i body))
    (hb : body s w t = .go y u) (hk : u.key = t.key) (hy : y = { s.bumpId with mem := m, poison := p }) (hst : Stored s y pa b) :
    StoresAt i s u pa b := by
  subst hy
  have hwent := went_of_alone h hb hk ⟨rfl, rfl, rfl, rfl⟩ h.wg rfl rfl
  have hrest := hwent.rest.eq
  refine ⟨_, hexec, stored_of_mem hst rfl (by rw [hrest]), ?_⟩
  have hfresh := went_fresh hwent s.fresh
  rw [hrest] at hfresh ⊢
  exact hfresh

section
variable {s : State} {t : Thread} {w : Workgroup} {f : MemForm} {pa : Nat} {op : MemOp} {dest : Option RmwDest}
  (hs : Sound s t pa (memBytes f)) (hl : Lands s f (memBytes f) w t (atomicKind (memBytes f)) (.main pa))
  (hop : op.modifies = true) (hlen : op.len = memBytes f)
include hs hl hop hlen

/-- A read-modify-write of a lone thread that reaches its bytes. -/
theorem State.rmw_performs (i : Instr) : s.rmw i f w t op dest
    = .go (s.bumpId.modified pa op) ((t.returned op dest (memGetN s.mem pa (memBytes f))).onward i) := by
  obtain ⟨ord, hacc⟩ := State.memAccess_lands hl hs.first
    (fun g => s.writeLoc w t g.loc op f.w2.sem dest (memVa f (memBytes f) w t) [t.key])
  rw [atomicKind] at hacc
  have hwrite := fun now => State.physWrite_modified (s := s.bumpId) hop hs.plain (by rw [hlen]; exact hs.clean) (vfOfCtx w.ctxn) now
  unfold State.rmw
  dsimp only
  rw [hacc, State.writeLoc_performs hs (State.queues_modifies hop s pa) hwrite]
  simp only [Acc.res, State.bumpId_mem, hlen]
  rfl

theorem storesAt_of_rmw {i : Instr} {body : State → Workgroup → Thread → Res} (hm : s.mem.wf = true) (h : i.Alone s t w)
    (hexec : exec i s = .next (s.forThreads i body)) (hbody : body s w t = s.rmw i f w t op dest) (hwords : i.words = f.fm.words) :
    StoresAt i s { t.returned op dest (memGetN s.mem pa (memBytes f)) with pc := t.pc + BitVec.ofNat 64 (4 * f.fm.words) } pa
      (op.leaves (memGetN s.mem pa (memBytes f))) := by
  have hb := hbody.trans (State.rmw_performs hs hl hop hlen (dest := dest) i)
  rw [Thread.onward_eq (t.returned_pc op dest _), hwords] at hb
  have hst := State.stored_modified (s := s.bumpId) hm pa op
  rw [hlen] at hst
  exact storesAt_of_stored h hexec hb (t.returned_key op dest _) (State.modified_eq s.bumpId pa op) (stored_of_mem hst rfl rfl)

end

section
variable {s : State} {t : Thread} {w : Workgroup} {f : MemForm}

/-- ATOM as a read-modify-write, outside of deterministic mode where it returns a value (R203, R211). -/
def atomBody (f : MemForm) (s : State) (w : Workgroup) (t : Thread) : Res :=
  if w.kernel.det && f.w2.ret then .fault s (trapOf 0x13)
  else s.rmw (.atom f) f w t
    (.atom f.w2.op.toNat (memBytes f) (if memBytes f == 8 then t.pair f.d.toNat else (t.reg f.d.toNat).setWidth 64))
    (if f.w2.ret then some ⟨t.key, f.d.toNat, memBytes f, none⟩ else none)

theorem exec_atom (f : MemForm) (s : State) : exec (.atom f) s = .next (s.forThreads (.atom f) (atomBody f)) := rfl

/-- ACAS, outside of deterministic mode (R204, R211). -/
def acasBody (f : MemForm) (s : State) (w : Workgroup) (t : Thread) : Res :=
  if w.kernel.det then .fault s (trapOf 0x13)
  else s.rmw (.acas f) f w t
    (.cas (memBytes f) (if memBytes f == 8 then t.pair f.d.toNat else (t.reg f.d.toNat).setWidth 64)
      (if memBytes f == 8 then t.pair (f.d.toNat + 2) else (t.reg (f.d.toNat + 1)).setWidth 64))
    (some ⟨t.key, f.d.toNat, memBytes f, some f.w2.pd⟩)

theorem exec_acas (f : MemForm) (s : State) : exec (.acas f) s = .next (s.forThreads (.acas f) (acasBody f)) := rfl

theorem toNat_setWidth_word (x : Word) : (x.setWidth 64).toNat = x.toNat := BitVec.toNat_setWidth_of_le (by decide)

theorem toNat_beq_toNat {n : Nat} (x y : BitVec n) : (x.toNat == y.toNat) = (x == y) := by
  rw [Bool.eq_iff_iff, beq_iff_eq, beq_iff_eq, BitVec.toNat_inj]

/-- The word and the doubleword that stand at an address. -/
def State.word (s : State) (pa : Nat) : Word := BitVec.ofNat 32 (leNat (memGetN s.mem pa 4))
def State.dword (s : State) (pa : Nat) : Dword := BitVec.ofNat 64 (leNat (memGetN s.mem pa 8))

theorem State.toNat_word (s : State) (pa : Nat) : leNat (memGetN s.mem pa 4) = (s.word pa).toNat :=
  (Nat.mod_eq_of_lt (leNat_memGetN_lt s.mem pa 4)).symm

theorem State.toNat_dword (s : State) (pa : Nat) : leNat (memGetN s.mem pa 8) = (s.dword pa).toNat :=
  (Nat.mod_eq_of_lt (leNat_memGetN_lt s.mem pa 8)).symm

variable {pa : Nat} (hm : s.mem.wf = true) (hs : Sound s t pa (memBytes f))
  (hl : Lands s f (memBytes f) w t (atomicKind (memBytes f)) (.main pa))
include hm hs hl

theorem atom_storesAt_word (h : (Instr.atom f).Alone s t w) (hdet : w.kernel.det = false ∨ f.w2.ret = false)
    (hop : f.w2.op.toNat ≤ 8) (hn : memBytes f = 4) :
    StoresAt (.atom f) s { (if f.w2.ret = true then t.setReg f.d.toNat (s.word pa) else t) with
      pc := t.pc + BitVec.ofNat 64 (4 * f.fm.words) } pa (natLe 4 (atomicResult f.w2.op (s.word pa) (t.reg f.d.toNat)).toNat) := by
  have hbody : atomBody f s w t = s.rmw (.atom f) f w t (.atom f.w2.op.toNat 4 ((t.reg f.d.toNat).setWidth 64))
      (if f.w2.ret then some ⟨t.key, f.d.toNat, 4, none⟩ else none) := by
    have hno : (w.kernel.det && f.w2.ret) = false := by rcases hdet with hd | hd <;> simp [hd]
    simp [atomBody, hno, hn]
  have hst := storesAt_of_rmw (op := .atom f.w2.op.toNat 4 ((t.reg f.d.toNat).setWidth 64)) hs hl rfl hn.symm hm h (exec_atom f s)
    hbody rfl
  have hleaves := MemOp.leaves_atom (n := 4) (s.toNat_word pa) hop (d := (t.reg f.d.toNat).setWidth 64) (x := t.reg f.d.toNat)
    (by rw [toNat_setWidth_word]; exact Nat.mod_eq_of_lt (t.reg f.d.toNat).isLt)
  rw [hn, hleaves] at hst
  cases hret : f.w2.ret <;> rw [hret] at hst
  · exact hst
  · rw [if_pos rfl, Thread.returned, Thread.rmwResult_word (length_memGetN _ _ _)] at hst
    exact hst

theorem atom_storesAt_pair (h : (Instr.atom f).Alone s t w) (hdet : w.kernel.det = false ∨ f.w2.ret = false)
    (hop : f.w2.op.toNat ≤ 8) (hn : memBytes f = 8) :
    StoresAt (.atom f) s { (if f.w2.ret = true then t.setPair f.d.toNat (s.dword pa) else t) with
      pc := t.pc + BitVec.ofNat 64 (4 * f.fm.words) } pa (natLe 8 (atomicResult f.w2.op (s.dword pa) (t.pair f.d.toNat)).toNat) := by
  have hbody : atomBody f s w t = s.rmw (.atom f) f w t (.atom f.w2.op.toNat 8 (t.pair f.d.toNat))
      (if f.w2.ret then some ⟨t.key, f.d.toNat, 8, none⟩ else none) := by
    have hno : (w.kernel.det && f.w2.ret) = false := by rcases hdet with hd | hd <;> simp [hd]
    simp [atomBody, hno, hn]
  have hst := storesAt_of_rmw (op := .atom f.w2.op.toNat 8 (t.pair f.d.toNat)) hs hl rfl hn.symm hm h (exec_atom f s) hbody rfl
  have hleaves := MemOp.leaves_atom (n := 8) (s.toNat_dword pa) hop (d := t.pair f.d.toNat) (x := t.pair f.d.toNat)
    (Nat.mod_eq_of_lt (t.pair f.d.toNat).isLt)
  rw [hn, hleaves] at hst
  cases hret : f.w2.ret <;> rw [hret] at hst
  · exact hst
  · rw [if_pos rfl, Thread.returned, Thread.rmwResult_pair (length_memGetN _ _ _)] at hst
    exact hst

theorem acas_storesAt_word (h : (Instr.acas f).Alone s t w) (hdet : w.kernel.det = false) (hn : memBytes f = 4) :
    StoresAt (.acas f) s { ((t.setReg f.d.toNat (s.word pa)).setPred f.w2.pd (s.word pa == t.reg f.d.toNat)) with
      pc := t.pc + BitVec.ofNat 64 (4 * f.fm.words) } pa
      (natLe 4 (if s.word pa = t.reg f.d.toNat then t.reg (f.d.toNat + 1) else s.word pa).toNat) := by
  have hbody : acasBody f s w t = s.rmw (.acas f) f w t
      (.cas 4 ((t.reg f.d.toNat).setWidth 64) ((t.reg (f.d.toNat + 1)).setWidth 64))
      (some ⟨t.key, f.d.toNat, 4, some f.w2.pd⟩) := by simp [acasBody, hdet, hn]
  have he : ((t.reg f.d.toNat).setWidth 64 : Dword).toNat % 2 ^ 32 = (t.reg f.d.toNat).toNat := by
    rw [toNat_setWidth_word]; exact Nat.mod_eq_of_lt (t.reg f.d.toNat).isLt
  have hst := storesAt_of_rmw (op := .cas 4 ((t.reg f.d.toNat).setWidth 64) ((t.reg (f.d.toNat + 1)).setWidth 64)) hs hl rfl
    hn.symm hm h (exec_acas f s) hbody rfl
  rw [hn, MemOp.leaves_cas (n := 4) (s.toNat_word pa) (length_memGetN _ _ _) he, toNat_setWidth_word, ← apply_ite BitVec.toNat,
    Thread.returned, Thread.rmwResult_cas_word (length_memGetN _ _ _), s.toNat_word pa, he,
    toNat_beq_toNat, BitVec.ofNat_toNat, BitVec.setWidth_eq] at hst
  exact hst

theorem acas_storesAt_pair (h : (Instr.acas f).Alone s t w) (hdet : w.kernel.det = false) (hn : memBytes f = 8) :
    StoresAt (.acas f) s { ((t.setPair f.d.toNat (s.dword pa)).setPred f.w2.pd (s.dword pa == t.pair f.d.toNat)) with
      pc := t.pc + BitVec.ofNat 64 (4 * f.fm.words) } pa
      (natLe 8 (if s.dword pa = t.pair f.d.toNat then t.pair (f.d.toNat + 2) else s.dword pa).toNat) := by
  have hbody : acasBody f s w t = s.rmw (.acas f) f w t (.cas 8 (t.pair f.d.toNat) (t.pair (f.d.toNat + 2)))
      (some ⟨t.key, f.d.toNat, 8, some f.w2.pd⟩) := by simp [acasBody, hdet, hn]
  have he : (t.pair f.d.toNat).toNat % 2 ^ 64 = (t.pair f.d.toNat).toNat := Nat.mod_eq_of_lt (t.pair f.d.toNat).isLt
  have hst := storesAt_of_rmw (op := .cas 8 (t.pair f.d.toNat) (t.pair (f.d.toNat + 2))) hs hl rfl hn.symm hm h
    (exec_acas f s) hbody rfl
  rw [hn, MemOp.leaves_cas (n := 8) (s.toNat_dword pa) (length_memGetN _ _ _) he, ← apply_ite BitVec.toNat,
    Thread.returned, Thread.rmwResult_cas_pair (length_memGetN _ _ _), s.toNat_dword pa, he,
    toNat_beq_toNat, BitVec.ofNat_toNat, BitVec.setWidth_eq] at hst
  exact hst

end

end Sys2Proof.Machine
end

section
namespace Sys2Proof.Proofs

open Sys2Proof Machine Certificates

/-- Settles O21: an atomic operation finds its bytes in a plain frame, and what it leaves of them stands there. -/
theorem atomics : Obligations.Atomics := by
  intro s t w f pa hm hs hl
  have hbytes : ∀ {z : BitVec 3}, f.w2.sz = z → memBytes f = 2 ^ z.toNat := by rintro _ rfl; rfl
  refine ⟨fun h hdet hop => ⟨fun hz => ?_, fun hz => ?_⟩, fun h hdet => ⟨fun hz => ?_, fun hz => ?_⟩⟩
  · exact atom_storesAt_word hm hs hl h hdet hop (hbytes hz)
  · exact atom_storesAt_pair hm hs hl h hdet hop (hbytes hz)
  · exact acas_storesAt_word hm hs hl h hdet (hbytes hz)
  · exact acas_storesAt_pair hm hs hl h hdet (hbytes hz)

end Sys2Proof.Proofs
end

section
/-! SUPPORT. Stores that are performed (R225, R226): what they leave of threads, groups and replicas, and which stores wait after
a drain, a release and a flush. -/

namespace Sys2Proof.Machine

/-! ## What the performance of stores leaves -/

/-- Stores have been performed between two states: the threads, their groups and contexts, and the replicas, are as before; a
workgroup keeps what single steps rest on. -/
structure State.StoresOnly (s x : State) : Prop extends s.KeepsGroup x where
  replicas : x.replicas = s.replicas
  wg : ∀ n w, s.wg n = some w → ∃ w', x.wg n = some w' ∧ w'.sstepEn = w.sstepEn ∧ w'.ctxn = w.ctxn

theorem State.StoresOnly.of_wgs {s x : State} (h : s.KeepsGroup x) (hr : x.replicas = s.replicas) (hw : x.wgs = s.wgs) :
    s.StoresOnly x :=
  { h with replicas := hr, wg := fun n w hs => ⟨w, by rw [State.wg, hw]; exact hs, rfl, rfl⟩ }

theorem State.StoresOnly.refl (s : State) : s.StoresOnly s := .of_wgs ⟨rfl, rfl, rfl, rfl⟩ rfl rfl

theorem State.StoresOnly.trans {s x y : State} (h : s.StoresOnly x) (h' : x.StoresOnly y) : s.StoresOnly y where
  threads := h'.threads.trans h.threads
  cur := h'.cur.trans h.cur
  joins := h'.joins.trans h.joins
  ctxs := h'.ctxs.trans h.ctxs
  replicas := h'.replicas.trans h.replicas
  wg := fun n w hw => by
    obtain ⟨w', hw', hs', hc'⟩ := h.wg n w hw
    obtain ⟨w'', hw'', hs'', hc''⟩ := h'.wg n w' hw'
    exact ⟨w'', hw'', hs''.trans hs', hc''.trans hc'⟩

theorem State.StoresOnly.foldl {α : Type} {f : State → α → State} (hf : ∀ (s : State) a, s.StoresOnly (f s a)) (l : List α) (s : State) :
    s.StoresOnly (l.foldl f s) := by
  induction l generalizing s with
  | nil => exact .refl s
  | cons a l ih => exact (hf s a).trans (ih (f s a))

/-- A write to physical memory changes neither what waits nor what threads rest on. -/
def State.WritesOnly (s x : State) : Prop := s.StoresOnly x ∧ x.queue = s.queue

theorem State.WritesOnly.of_wgs {s x : State} (h : s.KeepsGroup x) (hr : x.replicas = s.replicas) (hw : x.wgs = s.wgs)
    (hq : x.queue = s.queue) : s.WritesOnly x := ⟨.of_wgs h hr hw, hq⟩

theorem State.WritesOnly.refl (s : State) : s.WritesOnly s := ⟨.refl s, rfl⟩

theorem State.WritesOnly.trans {s x y : State} (h : s.WritesOnly x) (h' : x.WritesOnly y) : s.WritesOnly y :=
  ⟨h.1.trans h'.1, h'.2.trans h.2⟩

theorem State.writesOnly_healOp (s : State) (pa : Nat) (op : MemOp) : s.WritesOnly (s.healOp pa op) := by
  unfold State.healOp
  induction op.covers generalizing s with
  | nil => exact .refl s
  | cons x l ih => exact State.WritesOnly.trans (x := s.heal (pa + x.1) x.2) (.of_wgs ⟨rfl, rfl, rfl, rfl⟩ rfl rfl rfl) (ih _)

theorem State.writesOnly_account (s : State) (vf die old new : Nat) : s.WritesOnly (s.account vf die old new) := by
  unfold State.account
  dsimp only
  split <;> exact .of_wgs ⟨rfl, rfl, rfl, rfl⟩ rfl rfl rfl

theorem State.writesOnly_setBlock (s : State) (vf pa : Nat) (op : MemOp) (w : Word) (g : List Byte) :
    s.WritesOnly (s.setBlock vf pa op w g) := by
  have himage : s.WritesOnly (if op.isRaw then s.writeBack (pa / 1024) else s.keepImage (pa / 1024)) := by
    unfold State.keepImage
    split_ifs <;> exact .of_wgs ⟨rfl, rfl, rfl, rfl⟩ rfl rfl rfl
  unfold State.setBlock
  dsimp only
  generalize (if op.isRaw then s.writeBack (pa / 1024) else s.keepImage (pa / 1024)) = x at himage
  have hput : s.WritesOnly ((x.account vf (homeDie pa) (metaNg (x.metaOf (pa / 1024))) (metaNg w)).putBlock (pa / 1024) w g) :=
    (himage.trans (x.writesOnly_account ..)).trans (.of_wgs ⟨rfl, rfl, rfl, rfl⟩ rfl rfl rfl)
  exact hput.trans (State.writesOnly_healOp _ pa op)

/-- The state that a write leaves where it is performed. -/
theorem State.writesOnly_physWrite {s x : State} {vf pa : Nat} {op : MemOp} {now : Bool} {old : List Byte}
    (h : s.physWrite vf pa op now = .done x old) : s.WritesOnly x := by
  unfold State.physWrite at h
  split at h
  · unfold State.cmpWrite at h
    split at h
    · cases h
    split at h
    · cases h
    dsimp only at h
    split_ifs at h <;> cases h
    · exact .refl s
    · exact s.writesOnly_setBlock ..
  · unfold State.plainWrite at h
    split at h
    · cases h
      exact .of_wgs ⟨rfl, rfl, rfl, rfl⟩ rfl rfl rfl
    · split at h
      · cases h
      dsimp only at h
      split at h <;> cases h
      · next b _ =>
        have hmem : s.WritesOnly { s with mem := memSetN s.mem pa b } := .of_wgs ⟨rfl, rfl, rfl, rfl⟩ rfl rfl rfl
        exact hmem.trans (State.writesOnly_healOp _ pa op)
      · exact .refl s

theorem State.writesOnly_spadPut (s : State) (id off : Nat) (b : List Byte) :
    s.WritesOnly (s.modWg id (fun w => w.spadPut off b)) := by
  refine ⟨{ threads := rfl, cur := rfl, joins := rfl, ctxs := rfl, replicas := rfl, wg := fun n w hw => ?_ }, rfl⟩
  have hid : KeepsId (fun w : Workgroup => w.spadPut off b) := fun _ => rfl
  rw [State.wg_modWg hid, hw]
  refine ⟨_, rfl, ?_⟩
  split <;> exact ⟨rfl, rfl⟩

theorem State.writesOnly_perform (s : State) (q : Queued) : s.WritesOnly (s.perform q) := by
  unfold State.perform
  split
  · split
    · next h => exact State.writesOnly_physWrite h
    · exact .refl s
  · split
    · exact s.writesOnly_spadPut ..
    · exact .refl s
  · exact .refl s

theorem State.storesOnly_queue (s : State) (l : List Queued) : s.StoresOnly { s with queue := l } :=
  .of_wgs ⟨rfl, rfl, rfl, rfl⟩ rfl rfl

/-- A store leaves what waits, and is performed for every agent. -/
def State.performOut (s : State) (q : Queued) : State := State.perform { s with queue := s.queue.erase q } q

theorem State.storesOnly_performOut (s : State) (q : Queued) : s.StoresOnly (s.performOut q) :=
  (s.storesOnly_queue _).trans (State.writesOnly_perform _ q).1

theorem State.queue_performOut (s : State) (q : Queued) : (s.performOut q).queue = s.queue.erase q :=
  (State.writesOnly_perform { s with queue := s.queue.erase q } q).2

theorem State.storesOnly_commit (s : State) (q : Queued) : s.StoresOnly (s.commit q) := by
  unfold State.commit
  dsimp only
  split
  · exact s.storesOnly_performOut q
  · exact s.storesOnly_queue _

theorem State.storesOnly_drainQueue (s : State) (k : Key) : s.StoresOnly (s.drainQueue k) := .foldl State.storesOnly_commit _ s

theorem State.flushCore_eq (s : State) (core : Nat) : s.flushCore core = (s.coreOrder core).foldl State.performOut s := rfl

theorem State.storesOnly_flushCore (s : State) (core : Nat) : s.StoresOnly (s.flushCore core) := .foldl State.storesOnly_performOut _ s

theorem State.storesOnly_release (s : State) (core : Nat) (k : Key) : s.StoresOnly (s.release core k) :=
  (s.storesOnly_drainQueue k).trans (State.storesOnly_flushCore _ core)

theorem State.storesOnly_flushAll (s : State) : s.StoresOnly s.flushAll :=
  (State.StoresOnly.foldl State.storesOnly_commit _ s).trans (.foldl State.storesOnly_performOut _ _)

/-! ## Which stores still wait -/

/-- Steps that each take one store out of the queue, and put in none that is the same. -/
theorem count_foldl_erase {f : State → Queued → State} {x : Queued}
    (hf : ∀ s q, (f s q).queue.count x = (s.queue.erase q).count x) (l : List Queued) (s : State) :
    (l.foldl f s).queue.count x = s.queue.count x - l.count x := by
  induction l generalizing s with
  | nil => rfl
  | cons q l ih =>
    rw [List.foldl_cons, ih, hf, List.count_erase, List.count_cons, BEq.comm]
    omega

theorem State.count_commit (s : State) (q : Queued) {x : Queued} (hx : x.by'.isSome = true) :
    (s.commit q).queue.count x = (s.queue.erase q).count x := by
  unfold State.commit
  dsimp only
  split
  · exact congrArg (List.count x) (s.queue_performOut q)
  · have hne : ({ q with by' := none } : Queued) ≠ x := by
      rintro rfl
      cases hx
    rw [List.count_append, List.count_singleton, beq_eq_false_iff_ne.2 hne]
    rfl

/-- Every store that is named stands among those that go ahead. -/
theorem count_ahead {p : Queued → Bool} {x : Queued} (hx : p x = true) (l : List Queued) : (ahead p l).count x = l.count x := by
  induction l with
  | nil => rfl
  | cons q l ih =>
    rw [ahead, List.count_cons]
    by_cases hq : q = x
    · simp [hq, hx, ih]
    · split <;> simp [hq, ih]

/-- After a drain no store of the thread waits in its queue (R202). -/
theorem State.not_mem_drainQueue (s : State) {k : Key} {q : Queued} (h : q ∈ (s.drainQueue k).queue) : q.by' ≠ some k := by
  intro hk
  have hcount := count_foldl_erase (fun s q' => s.count_commit q' (x := q) (by rw [hk]; rfl)) (ahead (fun q => q.by' == some k) s.queue) s
  rw [count_ahead (by simp [hk]), Nat.sub_self] at hcount
  exact List.count_eq_zero.1 hcount h

/-- A flush takes the stores of the core's order, and puts none in. -/
theorem State.count_flushCore (s : State) (core : Nat) (x : Queued) :
    (s.flushCore core).queue.count x = s.queue.count x - (s.coreOrder core).count x :=
  count_foldl_erase (fun s q => congrArg (List.count x) (s.queue_performOut q)) (s.coreOrder core) s

theorem State.mem_of_mem_flushCore {s : State} {core : Nat} {q : Queued} (h : q ∈ (s.flushCore core).queue) : q ∈ s.queue := by
  rw [← List.count_pos_iff, s.count_flushCore] at h
  exact List.count_pos_iff.1 (by omega)

/-- After a flush no store of the core's order waits (R226). -/
theorem State.not_mem_flushCore (s : State) {core : Nat} {q : Queued} (h : q ∈ (s.flushCore core).queue) (hq : q.by' = none) :
    q.core ≠ core := by
  intro hcore
  have hcount := s.count_flushCore core q
  rw [State.coreOrder, List.count_filter (by simp [hq, hcore]), Nat.sub_self] at hcount
  exact List.count_eq_zero.1 hcount h

/-- After a release neither the thread's queue nor its core's order holds a store (R226, R227). -/
theorem State.not_mem_release (s : State) {core : Nat} {k : Key} {q : Queued} (h : q ∈ (s.release core k).queue) :
    q.by' ≠ some k ∧ (q.by' = none → q.core ≠ core) :=
  ⟨s.not_mem_drainQueue (State.mem_of_mem_flushCore h), State.not_mem_flushCore _ h⟩

section
variable {s : State} (h : s.queue = [])
include h

theorem State.drainQueue_nil (k : Key) : s.drainQueue k = s := by
  rw [State.drainQueue, h]
  rfl

theorem State.release_nil (core : Nat) (k : Key) : s.release core k = s := by
  rw [State.release, State.drainQueue_nil h, State.flushCore, State.coreOrder, h]
  rfl

theorem State.flushAll_nil : s.flushAll = s := by
  simp [State.flushAll, h]

end

/-! ## Instructions that have stores performed -/

section
variable {i : Instr} {s x : State} {t u : Thread} {w : Workgroup} {body : State → Workgroup → Thread → Res}
  {eff : Workgroup → Thread → Thread}

/-- The step of a lone thread that goes on at the next instruction. -/
theorem did_of_alone (h : i.Alone s t w) (hb : body s w t = .go x (u.onward i)) (hk : u.key = t.key) (hpc : u.pc = t.pc)
    (heff : ∀ w', eff w' t = u) (hx : s.KeepsGroup x)
    (hw : ∃ w', x.wg t.wg = some w' ∧ w'.sstepEn = w.sstepEn ∧ w'.ctxn = w.ctxn) : i.Did eff x (s.forThreads i body) := by
  obtain ⟨w', hw', hs, hc⟩ := hw
  have hwent := went_of_alone h hb hk hx hw' hs hc
  refine ⟨fun k hmem t' w₁ ht' hw₁ => ?_, hwent.others, hwent.rest, hwent.ready⟩
  have hkey : k = t.key := by simpa [hx.cur, h.keys] using hmem
  have hself : t' = t := by
    rw [hx.thread, hkey, h.thread] at ht'
    exact (Option.some.inj ht').symm
  rw [hwent.group k hmem t' w₁ ht' hw₁, hself, Instr.after, if_pos h.guard, heff, ← hpc]
  rfl

/-- The same where the thread has stores performed, and replicas may go. -/
theorem did_of_storesOnly {l : List Replica} (h : i.Alone s t w) (hb : body s w t = .go { x with replicas := l } (t.onward i))
    (hx : s.StoresOnly x) : i.Did (fun _ t => t) { x with replicas := l } (s.forThreads i body) :=
  did_of_alone h hb rfl rfl (fun _ => rfl) ⟨hx.threads, hx.cur, hx.joins, hx.ctxs⟩ (hx.wg _ _ h.wg)

end

end Sys2Proof.Machine
end

section
/-! SUPPORT. Instructions whose threads drop replicas (R207, R232), and change nothing else but themselves. -/

namespace Sys2Proof.Machine

open Certificates

/-- The state where only these replicas are left. -/
def State.keeping (s : State) (p : Replica → Bool) : State := { s with replicas := s.replicas.filter p }

theorem State.keeping_true (s : State) : s.keeping (fun _ => true) = s := by
  rw [State.keeping, List.filter_true]

theorem State.keeping_keeping (s : State) (p q : Replica → Bool) : (s.keeping p).keeping q = s.keeping (fun r => p r && q r) := by
  simp [State.keeping, List.filter_filter, Bool.and_comm]

/-- Does each thread of the group that acts leave a replica? -/
def State.spares (s : State) (i : Instr) (keeps : Workgroup → Thread → Replica → Bool) (ks : List Key) (r : Replica) : Bool :=
  ks.all (fun k => match s.thread k, s.wg k.wg with
    | some t, some w => !t.guard i.form || keeps w t r
    | _, _ => true)

theorem State.spares_cons {s : State} {i : Instr} {keeps : Workgroup → Thread → Replica → Bool} {k : Key} {t : Thread}
    {w : Workgroup} (ht : s.thread k = some t) (hw : s.wg k.wg = some w) (ks : List Key) :
    s.spares i keeps (k :: ks) = fun r => (!t.guard i.form || keeps w t r) && s.spares i keeps ks r := by
  funext r
  simp [State.spares, ht, hw]

/-- Two states that differ at most as threads of one group make them differ, and in their replicas. -/
def State.sameButReplicas (s y : State) : Prop := ({ s with replicas := y.replicas } : State).sameBut y

theorem State.sameButReplicas.eq {s y : State} (h : s.sameButReplicas y) :
    y = { s with threads := y.threads, groups := y.groups, fresh := y.fresh, replicas := y.replicas } := State.sameBut.eq h

theorem State.sameButReplicas.step {s y : State} (h : s.sameButReplicas y) (p : Replica → Bool) (u : Thread) :
    s.sameButReplicas ((y.keeping p).setThread u) := by
  rw [h.eq]
  rfl

section
variable {i : Instr} {keeps : Workgroup → Thread → Replica → Bool} {body : State → Workgroup → Thread → Res} {s0 : State}

/-- What every thread that acts does: it goes on at the next instruction. -/
def passes (i : Instr) (y : State) (_ : Workgroup) (t : Thread) : Res := .go y (t.onward i)

/-- The step of a thread that drops replicas is a step that changes nothing but the thread, from the state without them. -/
theorem stepThread_keeping {s : State} {acc : List Key} {k : Key} {t : Thread} {w : Workgroup} (ht : s.thread k = some t)
    (hw : s.wg k.wg = some w)
    (hok : t.guard i.form = true → i.step8 w t = true ∧ (t.away = none ∨ (i.opc.map Opc.homeFirst).getD false = false))
    (hb : t.guard i.form = true → body s w t = .go (s.keeping (keeps w t)) (t.onward i)) :
    State.stepThread i body (s, acc) k
      = State.stepThread i (passes i) (s.keeping (fun r => !t.guard i.form || keeps w t r), acc) k := by
  have ht' : (s.keeping (fun r => !t.guard i.form || keeps w t r)).thread k = some t := ht
  have hw' : (s.keeping (fun r => !t.guard i.form || keeps w t r)).wg k.wg = some w := hw
  unfold State.stepThread State.stepOf
  simp only [ht, hw, ht', hw']
  cases hg : t.guard i.form with
  | false => simp [State.keeping_true]
  | true =>
    obtain ⟨h8, ha⟩ := hok hg
    have hhome : (t.away.isSome && (i.opc.map Opc.homeFirst).getD false) = false := by rcases ha with ha | ha <;> simp [ha]
    simp [hhome, h8, hb hg, passes]

/-- A group of which each thread is done with its instruction goes on. -/
theorem forThreads_whole (hj : ∀ j ∈ s0.joins, ∀ k ∈ s0.cur.keys, k ∉ j.waiting)
    (hk : (s0.cur.keys.foldl (State.stepThread i body) (s0, [])).2 = s0.cur.keys) :
    s0.forThreads i body = (s0.cur.keys.foldl (State.stepThread i body) (s0, [])).1.finish s0.curPc s0.cur.keys := by
  have hparted : s0.parted (s0.cur.keys.foldl (State.stepThread i body) (s0, [])) = false :=
    State.parted_not hj fun k hmem => Or.inl (by rw [hk]; simpa using hmem)
  simp [State.forThreads, hparted, hk]

/-- Each thread of a group that goes on at the next instruction is done with the one before. -/
theorem foldl_passes (hr : i.Runs s0) : (s0.cur.keys.foldl (State.stepThread i (passes i)) (s0, [])).2 = s0.cur.keys :=
  (foldl_quiet (g := fun _ t => t.onward i) (fun _ _ => rfl) (zeroDest_key i) s0.cur.keys s0 [] hr.nodup (State.sameBut_refl s0)
    (fun _ _ => rfl) hr.live (fun _ _ _ _ _ _ _ _ _ => rfl)).2.1

variable (hr : i.Runs s0) (hb : ∀ k ∈ s0.cur.keys, ∀ y t w, s0.sameButReplicas y → s0.thread k = some t → s0.wg k.wg = some w →
  t.guard i.form = true → body y w t = .go (y.keeping (keeps w t)) (t.onward i))
include hr hb

/-- All the threads' steps: the replicas that every one of them spares are left. -/
theorem foldl_keeping (ks : List Key) (s : State) (acc : List Key) (hnd : ks.Nodup) (hs : s0.sameButReplicas s)
    (hth : ∀ k ∈ ks, s.thread k = s0.thread k) (hmem : ∀ k ∈ ks, k ∈ s0.cur.keys) :
    ks.foldl (State.stepThread i body) (s, acc)
      = ks.foldl (State.stepThread i (passes i)) (s.keeping (s0.spares i keeps ks), acc) := by
  induction ks generalizing s acc with
  | nil => exact congrArg (·, acc) s.keeping_true.symm
  | cons k r ih =>
    obtain ⟨t, w, ht, hw, hst, hok⟩ := hr.live k (hmem k List.mem_cons_self)
    obtain ⟨hkr, hnr⟩ := List.nodup_cons.1 hnd
    have hts : s.thread k = some t := (hth k List.mem_cons_self).trans ht
    have hws : ∀ p, (s.keeping p).wg k.wg = some w := fun p => by
      rw [hs.eq]
      exact hw
    have hsteps : ∀ p, (s.keeping p).steps w = false := fun p => by
      rw [hs.eq]
      exact hst
    have hone := stepThread_keeping (acc := acc) hts (hws (fun _ => true)) hok
      (hb k (hmem k List.mem_cons_self) s t w hs ht hw)
    have hquiet : ∀ p, State.stepThread i (passes i) (s.keeping p, acc) k
        = ((s.keeping p).setThread (if t.guard i.form then t.onward i else { i.zeroDest w t with pc := pcAfter t.pc i.words }),
          acc ++ [k]) := fun p =>
      stepThread_quiet (g := fun _ t => t.onward i) hts (hws p) (hsteps p)
        (show t.key = k from State.thread_key ht) hok fun _ => rfl
    have hkey : (if t.guard i.form then t.onward i else { i.zeroDest w t with pc := pcAfter t.pc i.words } : Thread).key = k := by
      rw [← State.thread_key ht]
      split
      · rfl
      · exact zeroDest_key i w t
    rw [List.foldl_cons, List.foldl_cons, hone, hquiet, hquiet, ih _ _ hnr (hs.step _ _) (fun x hx => ?_)
      (fun x hx => hmem x (List.mem_cons_of_mem k hx)), State.spares_cons ht hw, ← State.keeping_keeping]
    · rfl
    · have hne : x ≠ k := by
        rintro rfl
        exact hkr hx
      rw [State.thread_setThread_other (by rw [hkey]; exact hne)]
      exact hth x (List.mem_cons_of_mem k hx)

/-- A group whose threads drop replicas and go on at the next instruction. -/
theorem forThreads_keeping :
    i.Did (fun _ t => t) (s0.keeping (s0.spares i keeps s0.cur.keys)) (s0.forThreads i body) := by
  have hfold := foldl_keeping hr hb s0.cur.keys s0 [] hr.nodup (State.sameBut_refl s0) (fun _ _ => rfl) (fun _ h => h)
  have hruns : i.Runs (s0.keeping (s0.spares i keeps s0.cur.keys)) := ⟨hr.nodup, hr.joins, hr.live⟩
  have hkeys := foldl_passes hruns
  have hsame : s0.forThreads i body = (s0.keeping (s0.spares i keeps s0.cur.keys)).forThreads i (passes i) := by
    rw [forThreads_whole hr.joins ((congrArg Prod.snd hfold).trans hkeys), forThreads_whole hruns.joins hkeys, hfold]
    rfl
  rw [hsame]
  exact forThreads_did hruns (fun _ _ => rfl) (fun _ _ _ _ _ _ _ _ _ => rfl)

end

end Sys2Proof.Machine
end

section
/-! SUPPORT. FENCE (R210, R228, R231, R232): the stores that it has performed, and the replicas that it drops. -/

namespace Sys2Proof.Machine

open Certificates

section
variable {kind : BitVec 2} {sc : BitVec 3} {pm : BitVec 7} {fm : Form} {s : State}

theorem exec_fence (kind : BitVec 2) (sc : BitVec 3) (pm : BitVec 7) (fm : Form) (s : State) :
    exec (.fence kind sc pm fm) s = .next (s.forThreads (.fence kind sc pm fm)
      (fun s _ t => .go (s.fence (s.coreOf t) t.key kind sc pm) (t.onward (.fence kind sc pm fm)))) := rfl

/-- The order that a FENCE asks for, without its ROD point. -/
def State.fenceStores (s : State) (core : Nat) (k : Key) (kind : BitVec 2) (sc : BitVec 3) (pm : BitVec 7) : State :=
  if (List.range 7).any (fun p => p != 0 && p != 2 && namesPath pm p) || (kind != 0 && 2 ≤ sc.toNat) then s.release core k
  else if kind == 0 then s else s.drainQueue k

theorem State.fence_eq (core : Nat) (k : Key) :
    s.fence core k kind sc pm
      = { s.fenceStores core k kind sc pm with
          replicas := if bit pm 1 then [] else (s.fenceStores core k kind sc pm).replicas } := by
  unfold State.fence State.fenceStores namesPath State.rodPoint
  cases bit pm 1 <;> rfl

theorem State.storesOnly_fenceStores (core : Nat) (k : Key) : s.StoresOnly (s.fenceStores core k kind sc pm) := by
  unfold State.fenceStores
  split_ifs
  · exact s.storesOnly_release core k
  · exact .refl s
  · exact s.storesOnly_drainQueue k

/-- One that releases at a scope wider than its core (R228). -/
theorem State.fenceStores_wide (core : Nat) (k : Key) (hk : kind ≠ 0) (hs : 2 ≤ sc.toNat) :
    s.fenceStores core k kind sc pm = s.release core k := by
  rw [State.fenceStores, bne_iff_ne.2 hk, decide_eq_true hs, Bool.and_self, Bool.or_true, if_pos rfl]

/-- A mask that names no path but GEN and SPAD asks for no more than the order of the core (R230). -/
theorem names_no_other (h : ∀ p : Fin 7, bit pm p = true → p.val ≤ 2 ∧ p.val ≠ 1) :
    (List.range 7).any (fun p => p != 0 && p != 2 && namesPath pm p) = false := by
  rw [List.any_eq_false]
  intro p hp hnames
  rw [Bool.and_eq_true, Bool.and_eq_true, bne_iff_ne, bne_iff_ne] at hnames
  obtain ⟨⟨h0, h2⟩, hbit⟩ := hnames
  obtain ⟨hle, hne⟩ : p ≤ 2 ∧ p ≠ 1 := h ⟨p, List.mem_range.1 hp⟩ hbit
  omega

theorem State.fenceStores_core (core : Nat) (k : Key) (hk : kind ≠ 0) (hs : sc.toNat ≤ 1)
    (h : ∀ p : Fin 7, bit pm p = true → p.val ≤ 2 ∧ p.val ≠ 1) : s.fenceStores core k kind sc pm = s.drainQueue k := by
  have hs' : ¬ 2 ≤ sc.toNat := by omega
  rw [State.fenceStores, names_no_other h, decide_eq_false hs', Bool.and_false, Bool.or_false, if_neg Bool.false_ne_true,
    beq_eq_false_iff_ne.2 hk, if_neg Bool.false_ne_true]

theorem State.fenceStores_acquire (core : Nat) (k : Key) (h : ∀ p : Fin 7, bit pm p = true → p.val ≤ 2 ∧ p.val ≠ 1) :
    s.fenceStores core k 0 sc pm = s := by
  simp [State.fenceStores, names_no_other h]

/-- A mask without ROD asks for no ROD point (R232). -/
theorem bit_rod_false (h : ∀ p : Fin 7, bit pm p = true → p.val ≤ 2 ∧ p.val ≠ 1) : bit pm 1 = false :=
  Bool.eq_false_iff.2 fun hbit => (h 1 hbit).2 rfl

/-- Where no store waits a FENCE does at most drop replicas. -/
theorem State.fence_nil (h : s.queue = []) (core : Nat) (k : Key) : s.fence core k kind sc pm = s.keeping (fun _ => !bit pm 1) := by
  have hstores : s.fenceStores core k kind sc pm = s := by
    unfold State.fenceStores
    rw [State.release_nil h, State.drainQueue_nil h, ite_self, ite_self]
  rw [State.fence_eq, hstores, State.keeping]
  cases bit pm 1 <;> simp

/-- The replicas that a group leaves which drops every one, or none. -/
theorem State.spares_const {i : Instr} {b : Bool} (hr : i.Runs s) (r : Replica) :
    s.spares i (fun _ _ _ => !b) s.cur.keys r = false
      ↔ b = true ∧ ∃ k ∈ s.cur.keys, ∃ t, s.thread k = some t ∧ t.guard i.form = true := by
  unfold State.spares
  rw [List.all_eq_false]
  refine ⟨fun ⟨k, hk, hfalse⟩ => ?_, fun ⟨hb, k, hk, t, ht, hg⟩ => ⟨k, hk, ?_⟩⟩ <;>
    obtain ⟨t', w, ht', hw, -⟩ := hr.live k hk
  · rw [ht', hw] at hfalse
    simp only [Bool.or_eq_true, Bool.not_eq_true', not_or, Bool.not_eq_false] at hfalse
    exact ⟨hfalse.2, k, hk, t', ht', hfalse.1⟩
  · rw [ht] at ht'
    cases ht'
    simp [ht, hw, hg, hb]

end

end Sys2Proof.Machine
end

section
namespace Sys2Proof.Proofs

open Sys2Proof Machine Certificates

theorem fences : Fences := by
  intro kind sc pm fm i rod
  refine ⟨fun s hr hq => ⟨_, exec_fence kind sc pm fm s, ?_⟩, fun s t w h => ⟨_, exec_fence kind sc pm fm s, ?_⟩⟩
  · have hdid := forThreads_keeping (keeps := fun _ _ _ => !bit pm 1) hr fun k hk y t w hy ht hw hg => by
      have hqueue : y.queue = [] := by rw [hy.eq]; exact hq
      exact congrArg (Res.go · (t.onward i)) (State.fence_nil (kind := kind) (sc := sc) hqueue (y.coreOf t) t.key)
    refine ⟨_, hdid, fun hdrop => ?_, fun hkeep => ?_⟩
    · exact List.filter_eq_nil_iff.2 fun r _ => by rw [(State.spares_const hr r).2 hdrop]; exact Bool.false_ne_true
    · exact List.filter_eq_self.2 fun r _ => Bool.not_eq_false _ ▸ fun h => hkeep ((State.spares_const hr r).1 h)
  · have hstores := s.storesOnly_fenceStores (s.coreOf t) t.key (kind := kind) (sc := sc) (pm := pm)
    have hdid := did_of_storesOnly h (body := fun s _ t => .go (s.fence (s.coreOf t) t.key kind sc pm) (t.onward i))
      (congrArg (Res.go · (t.onward i)) (State.fence_eq (s.coreOf t) t.key)) hstores
    refine ⟨_, hdid, fun hrod => ?_, fun hk hs => ?_, fun hk hs hp => ?_, fun hk hp => ?_⟩
    · exact if_pos hrod
    · rw [State.fenceStores_wide _ _ hk hs]
      exact ⟨rfl, fun q hq => State.not_mem_release s hq⟩
    · rw [bit_rod_false hp, State.fenceStores_core _ _ hk hs hp]
      exact ⟨rfl, fun q hq => s.not_mem_drainQueue hq⟩
    · subst hk
      rw [bit_rod_false hp, State.fenceStores_acquire _ _ hp]
      rfl

end Sys2Proof.Proofs
end

section
/-! SUPPORT. What the checks of an access read of the state (R188 to R194). -/

namespace Sys2Proof.Machine

open Certificates

/-- Two states with the same memory, frames, cached translations, contexts and workgroups. -/
structure State.SameMaps (s y : State) : Prop where
  mem : y.mem = s.mem
  gran : y.gran = s.gran
  bmeta : y.bmeta = s.bmeta
  poison : y.poison = s.poison
  frames : y.frames = s.frames
  tlb : y.tlb = s.tlb
  bounds : y.bounds = s.bounds
  ctxs : y.ctxs = s.ctxs
  vfs : y.vfs = s.vfs
  pkg : y.pkg = s.pkg
  wgs : y.wgs = s.wgs

theorem State.sameMaps_of_sameButReplicas {s y : State} (h : s.sameButReplicas y) : s.SameMaps y := by
  rw [h.eq]
  exact ⟨rfl, rfl, rfl, rfl, rfl, rfl, rfl, rfl, rfl, rfl, rfl⟩

namespace State.SameMaps

variable {s y : State} (h : s.SameMaps y)
include h

theorem frameOf (pa : Nat) : y.frameOf pa = s.frameOf pa := by rw [State.frameOf, h.frames, State.frameOf]

theorem isCmp (pa : Nat) : y.isCmp pa = s.isCmp pa := by simp only [State.isCmp, h.frameOf]

theorem poisonAt (pa n : Nat) : y.poisonAt pa n = s.poisonAt pa n := by simp only [State.poisonAt, h.poison]

theorem block (b : Nat) : y.block b = s.block b := by
  simp only [State.block, State.granules, State.metaOf, h.gran, h.bmeta]

theorem blocks (b n : Nat) : y.blocks b n = s.blocks b n := by
  induction n generalizing b with
  | zero => rfl
  | succ n ih => simp only [State.blocks, h.block, ih]

theorem physPiece (pa n : Nat) : y.physPiece pa n = s.physPiece pa n := by
  simp only [State.physPiece, h.poisonAt, h.isCmp, h.blocks, h.mem]

theorem physFrames (pa n fuel : Nat) : y.physFrames pa n fuel = s.physFrames pa n fuel := by
  induction fuel generalizing pa n with
  | zero => rfl
  | succ fuel ih => simp only [State.physFrames, h.physPiece, ih]

theorem physNat (pa n : Nat) : y.physNat pa n = s.physNat pa n := by
  simp only [State.physNat, State.physRead, h.physPiece, h.physFrames]

theorem pte (table idx : Nat) : y.pte table idx = s.pte table idx := by simp only [State.pte, h.physNat]

theorem walkFrom (va : BitVec 80) (levels : List (Nat × Option Nat)) (table : Nat) :
    y.walkFrom va levels table = s.walkFrom va levels table := by
  induction levels generalizing table with
  | nil => rfl
  | cons x levels ih => simp only [State.walkFrom, h.pte, ih]

theorem leaf (x : Site) (ctxn root : Nat) (va : BitVec 80) : y.leaf x ctxn root va = s.leaf x ctxn root va := by
  simp only [State.leaf, State.leafEntry, State.walkEntry, h.walkFrom, h.tlb]

theorem boundsOf (x : Site) (ctxn : Nat) (d : CtxDesc) (g : Nat) : y.boundsOf x ctxn d g = s.boundsOf x ctxn d g := by
  simp only [State.boundsOf, State.boundsEntry, h.physNat, h.bounds]

theorem regionOk (x : Site) (ctxn : Nat) (d : CtxDesc) (va : BitVec 80) (n : Nat) :
    y.regionOk x ctxn d va n = s.regionOk x ctxn d va n := by
  simp only [State.regionOk, h.boundsOf]

theorem frameOk (vf pa : Nat) (cmp : Bool) : y.frameOk vf pa cmp = s.frameOk vf pa cmp := by simp only [State.frameOk, h.frameOf]

theorem placeOf (ctxn : Nat) (k : AccessKind) (acc : Bool) (l : Leaf) : y.placeOf ctxn k acc l = s.placeOf ctxn k acc l := by
  simp only [State.placeOf, h.frameOk, h.pkg]

theorem ctx (n : Nat) : y.ctx n = s.ctx n := by simp only [State.ctx, h.ctxs]

theorem vf (n : Nat) : y.vf n = s.vf n := by simp only [State.vf, h.vfs]

theorem checkVa (w : Workgroup) (x : Site) (k : AccessKind) (va : BitVec 80) : y.checkVa w x k va = s.checkVa w x k va := by
  simp only [State.checkVa, h.ctx, h.vf, h.regionOk, h.leaf, h.placeOf]

theorem coreOf (t : Thread) : y.coreOf t = s.coreOf t := by simp only [State.coreOf, State.wg, h.wgs]

/-- The checks of a memory operand give what they gave. -/
theorem memCheck (f : MemForm) (unit : Nat) (w : Workgroup) (t : Thread) (k : AccessKind) :
    y.memCheck f unit w t k = s.memCheck f unit w t k := by
  simp only [State.memCheck, State.checkEa, h.checkVa, h.coreOf]

end State.SameMaps

end Sys2Proof.Machine
end

section
/-! SUPPORT. The instructions that maintain memory (R206 to R209). -/

namespace Sys2Proof.Machine

open Certificates

/-! ## CINV and CWB -/

/-- The access of a maintenance instruction that accepts one path (R194, R198). -/
def maintainKind (f : MemForm) (path : Nat) : AccessKind := { n := rangeBytes f, align := rangeBytes f, paths := [path] }

/-- CINV or CWB of one thread: `act` is what it does at a place of main memory. -/
def maintainBody (i : Instr) (f : MemForm) (path : Nat) (act : State → Thread → Nat → State) (s : State) (w : Workgroup)
    (t : Thread) : Res :=
  match s.memCheck f 64 w t (maintainKind f path) with
  | .error r => .fault s r
  | .ok g => match g.loc with
    | .main pa => .go (act s t pa) (t.onward i)
    | _ => .go s (t.onward i)

theorem State.maintain_eq (s : State) (i : Instr) (f : MemForm) (path : Nat) (act : State → Thread → Nat → State) :
    s.maintain i f path act = .next (s.forThreads i (maintainBody i f path act)) := rfl

section
variable {i : Instr} {f : MemForm} {path : Nat} {act : State → Thread → Nat → State} {s : State} {w : Workgroup} {t : Thread} {l : Loc}
  {ord : Bool}

theorem maintainBody_main {pa : Nat} (h : s.memCheck f 64 w t (maintainKind f path) = .ok ⟨.main pa, ord⟩) :
    maintainBody i f path act s w t = .go (act s t pa) (t.onward i) := by
  simp only [maintainBody, h]

theorem maintainBody_elsewhere (h : s.memCheck f 64 w t (maintainKind f path) = .ok ⟨l, ord⟩) (hl : ∀ pa, l ≠ .main pa) :
    maintainBody i f path act s w t = .go s (t.onward i) := by
  cases l with
  | main pa => exact absurd rfl (hl pa)
  | _ => simp only [maintainBody, h]

end

/-- The dies whose replicas CINV drops (R207). -/
def cinvDies (s : State) (f : MemForm) (t : Thread) : List Nat := if f.w2.scope == 4 then List.range 4 else [dieOf (s.coreOf t)]

theorem mem_cinvDies {s : State} {f : MemForm} {t : Thread} {d : Nat} :
    d ∈ cinvDies s f t ↔ (f.w2.scope = 4 ∧ d < 4) ∨ f.w2.scope ≠ 4 ∧ d = dieOf (s.coreOf t) := by
  unfold cinvDies
  by_cases h : f.w2.scope = 4
  · rw [if_pos (beq_iff_eq.2 h), List.mem_range]
    tauto
  · rw [if_neg (by simpa using h), List.mem_singleton]
    tauto

/-- A replica that is on none of the dies, or meets no byte of the range. -/
def spared (dies : List Nat) (pa n : Nat) (r : Replica) : Bool :=
  !(dies.contains r.die && pa < 64 * r.line + 64 && 64 * r.line < pa + n)

theorem State.dropReplicas_eq (s : State) (dies : List Nat) (pa n : Nat) : s.dropReplicas dies pa n = s.keeping (spared dies pa n) := rfl

theorem spared_iff {dies : List Nat} {pa n : Nat} {r : Replica} :
    spared dies pa n r = true ↔ ¬ ((pa < 64 * r.line + 64 ∧ 64 * r.line < pa + n) ∧ r.die ∈ dies) := by
  rw [spared, Bool.not_eq_true', ← Bool.not_eq_true, Bool.and_eq_true, Bool.and_eq_true, decide_eq_true_iff, decide_eq_true_iff,
    List.contains_iff_mem]
  tauto

/-- What CINV does at a place of main memory. -/
def cinvAt (f : MemForm) (s : State) (t : Thread) (pa : Nat) : State := s.flushAll.dropReplicas (cinvDies s f t) pa (rangeBytes f)

theorem exec_cinv (f : MemForm) (s : State) :
    exec (.cinv f) s = .next (s.forThreads (.cinv f) (maintainBody (.cinv f) f 1 (cinvAt f))) := rfl

/-- The replicas that CINV of a thread keeps. -/
def cinvKeeps (s : State) (f : MemForm) (w : Workgroup) (t : Thread) (r : Replica) : Bool :=
  match s.memCheck f 64 w t (maintainKind f 1) with
  | .ok ⟨.main pa, _⟩ => spared (cinvDies s f t) pa (rangeBytes f) r
  | _ => true

section
variable {f : MemForm} {s : State} {w : Workgroup} {t : Thread} {l : Loc} (h : Lands s f 64 w t (maintainKind f 1) l)
include h

theorem cinvKeeps_eq_false (r : Replica) : cinvKeeps s f w t r = false
    ↔ ∃ pa, l = .main pa ∧ (pa < 64 * r.line + 64 ∧ 64 * r.line < pa + rangeBytes f) ∧ r.die ∈ cinvDies s f t := by
  obtain ⟨ord, hcheck⟩ := State.memCheck_lands h
  unfold cinvKeeps
  rw [hcheck]
  cases l with
  | main pa =>
    rw [← Bool.not_eq_true, spared_iff, not_not]
    exact ⟨fun hr => ⟨pa, rfl, hr⟩, fun ⟨_, hl, hr⟩ => by cases hl; exact hr⟩
  | _ => simp

/-- CINV where no store waits. -/
theorem cinvBody_keeping {y : State} (hy : s.sameButReplicas y) (hq : s.queue = []) :
    maintainBody (.cinv f) f 1 (cinvAt f) y w t = .go (y.keeping (cinvKeeps s f w t)) (t.onward (.cinv f)) := by
  obtain ⟨ord, hcheck⟩ := State.memCheck_lands h
  have hmaps := State.sameMaps_of_sameButReplicas hy
  have hcheck' := (hmaps.memCheck f 64 w t (maintainKind f 1)).trans hcheck
  have hqueue : y.queue = [] := by
    rw [hy.eq]
    exact hq
  by_cases hl : ∃ pa, l = .main pa
  · obtain ⟨pa, rfl⟩ := hl
    have hkeeps : cinvKeeps s f w t = spared (cinvDies y f t) pa (rangeBytes f) := by
      funext r
      simp only [cinvKeeps, hcheck, cinvDies, hmaps.coreOf]
    rw [maintainBody_main hcheck', cinvAt, State.flushAll_nil hqueue, State.dropReplicas_eq, hkeeps]
  · have hkeeps : cinvKeeps s f w t = fun _ => true := by
      funext r
      refine Bool.eq_true_of_not_eq_false fun hr => hl ?_
      obtain ⟨pa, hpa, -⟩ := (cinvKeeps_eq_false h r).1 hr
      exact ⟨pa, hpa⟩
    rw [maintainBody_elsewhere hcheck' fun pa hpa => hl ⟨pa, hpa⟩, hkeeps, State.keeping_true]

end

/-- A thread of the group that acts, at the place of its range. -/
def CinvActs (s : State) (f : MemForm) (k : Key) (l : Loc) : Prop :=
  ∃ t w, s.thread k = some t ∧ s.wg k.wg = some w ∧ t.guard f.fm = true ∧ Lands s f 64 w t (maintainKind f 1) l

/-- Does CINV of a group drop a replica? -/
def CinvDrops (s : State) (f : MemForm) (r : Replica) : Prop :=
  ∃ k ∈ s.cur.keys, ∃ pa, CinvActs s f k (.main pa) ∧ (pa < 64 * r.line + 64 ∧ 64 * r.line < pa + rangeBytes f)
    ∧ ((f.w2.scope = 4 ∧ r.die < 4) ∨ f.w2.scope ≠ 4 ∧ ∃ t, s.thread k = some t ∧ r.die = dieOf (s.coreOf t))

theorem spares_cinv_iff {f : MemForm} {s : State} (hr : (Instr.cinv f).Runs s)
    (hl : ∀ k ∈ s.cur.keys, ∀ t, s.thread k = some t → t.guard f.fm = true → ∃ l, CinvActs s f k l) (r : Replica) :
    s.spares (.cinv f) (cinvKeeps s f) s.cur.keys r = true ↔ ¬ CinvDrops s f r := by
  rw [← Bool.not_eq_false, not_iff_not]
  unfold State.spares
  rw [List.all_eq_false]
  constructor
  · rintro ⟨k, hk, hfalse⟩
    obtain ⟨t, w, ht, hw, -⟩ := hr.live k hk
    rw [ht, hw] at hfalse
    simp only [Bool.or_eq_true, Bool.not_eq_true', not_or, Bool.not_eq_false, Bool.not_eq_true] at hfalse
    obtain ⟨hg, hkeeps⟩ := hfalse
    obtain ⟨l, t', w', ht', hw', hg', hland⟩ := hl k hk t ht hg
    cases ht.symm.trans ht'
    cases hw.symm.trans hw'
    obtain ⟨pa, rfl, hmeets, hdie⟩ := (cinvKeeps_eq_false hland r).1 hkeeps
    refine ⟨k, hk, pa, ⟨t, w, ht, hw, hg, hland⟩, hmeets, ?_⟩
    exact (mem_cinvDies.1 hdie).imp_right fun ⟨hs, hd⟩ => ⟨hs, t, ht, hd⟩
  · rintro ⟨k, hk, pa, ⟨t, w, ht, hw, hg, hland⟩, hmeets, hdie⟩
    have hdie' : r.die ∈ cinvDies s f t := mem_cinvDies.2 (hdie.imp_right fun ⟨hs, t', ht', hd⟩ => by
      cases ht.symm.trans ht'
      exact ⟨hs, hd⟩)
    have hkeeps := (cinvKeeps_eq_false hland r).2 ⟨pa, rfl, hmeets, hdie'⟩
    refine ⟨k, hk, ?_⟩
    have hg' : t.guard (Instr.cinv f).form = true := hg
    simp [ht, hw, hg', hkeeps]

section
variable {f : MemForm} {s : State} {w : Workgroup} {t : Thread} {l : Loc} (h : Lands s f 64 w t (maintainKind f 1) l)
include h

/-- CINV of a lone thread. -/
theorem cinvBody_main {pa : Nat} (hl : l = .main pa) : maintainBody (.cinv f) f 1 (cinvAt f) s w t
    = .go (s.flushAll.keeping (spared (cinvDies s f t) pa (rangeBytes f))) (t.onward (.cinv f)) := by
  subst hl
  obtain ⟨ord, hcheck⟩ := State.memCheck_lands h
  exact maintainBody_main hcheck

end

/-- What CWB does at a place of main memory. -/
def cwbAt (f : MemForm) (s : State) (t : Thread) (pa : Nat) : State := (s.release (s.coreOf t) t.key).cleanRange pa (rangeBytes f)

theorem exec_cwb (f : MemForm) (s : State) :
    exec (.cwb f) s = .next (s.forThreads (.cwb f) (maintainBody (.cwb f) f 0 (cwbAt f))) := rfl

/-- No modified line of a range that has been written back is left. -/
theorem State.not_meets_of_mem_cleanRange {s : State} {pa n : Nat} {i : Image} (h : i ∈ (s.cleanRange pa n).images) :
    1024 * i.block + 1024 ≤ pa ∨ pa + n ≤ 1024 * i.block := by
  have hkept := (List.mem_filter.1 h).2
  simpa using hkept

/-- CWB of a lone thread. -/
theorem cwb_alone {f : MemForm} {s : State} {t : Thread} {w : Workgroup} {l : Loc} (h : (Instr.cwb f).Alone s t w)
    (hl : Lands s f 64 w t (maintainKind f 0) l) : ∃ s', exec (.cwb f) s = .next s'
      ∧ ∃ x : State, (Instr.cwb f).Did (fun _ t => t) x s'
        ∧ (∀ pa, l = .main pa → { x with images := [] } = { s.release (s.coreOf t) t.key with images := [] }
            ∧ ∀ i ∈ x.images, 1024 * i.block + 1024 ≤ pa ∨ pa + rangeBytes f ≤ 1024 * i.block)
        ∧ ((∀ pa, l ≠ .main pa) → x = s) := by
  obtain ⟨ord, hcheck⟩ := State.memCheck_lands hl
  refine ⟨_, exec_cwb f s, ?_⟩
  by_cases hmain : ∃ pa, l = .main pa
  · obtain ⟨pa, rfl⟩ := hmain
    have hrel := s.storesOnly_release (s.coreOf t) t.key
    have hdid := did_of_alone h (maintainBody_main (i := .cwb f) (act := cwbAt f) hcheck) rfl rfl (eff := fun _ t => t) (fun _ => rfl)
      ⟨hrel.threads, hrel.cur, hrel.joins, hrel.ctxs⟩ (hrel.wg _ _ h.wg)
    refine ⟨_, hdid, fun pa' hpa => ?_, fun hno => absurd rfl (hno pa)⟩
    cases hpa
    exact ⟨rfl, fun i hi => State.not_meets_of_mem_cleanRange hi⟩
  · have hno : ∀ pa, l ≠ .main pa := fun pa hpa => hmain ⟨pa, hpa⟩
    have hdid := did_of_alone h (maintainBody_elsewhere (i := .cwb f) (act := cwbAt f) hcheck hno) rfl rfl (eff := fun _ t => t)
      (fun _ => rfl) ⟨rfl, rfl, rfl, rfl⟩ ⟨w, h.wg, rfl, rfl⟩
    exact ⟨s, hdid, fun pa hpa => absurd hpa (hno pa), fun _ => rfl⟩

/-! ## ZFILL -/

/-- The access of ZFILL (R194, R208). -/
def zfillKind (f : MemForm) : AccessKind :=
  { n := rangeBytes f, align := rangeBytes f, paths := [0, 2], write := true, strict := true }

theorem Workgroup.spadPut_replicate (w : Workgroup) (off n : Nat) : w.spadPut off (List.replicate n 0)
    = { w with spad := memSetN w.spad off (List.replicate n 0)
               spadErr := w.spadErr.filter (fun a => decide (a < off ∨ off + n ≤ a)) } := by
  simp [Workgroup.spadPut, Bool.decide_or]

/-- ZFILL of one thread (R208). -/
def zfillBody (f : MemForm) (s : State) (w : Workgroup) (t : Thread) : Res :=
  match s.memAccess f 64 w t (zfillKind f) (fun g => s.zeroRange w t (memVa f 64 w t) (rangeBytes f) g.loc) with
  | .error r => .fault s r
  | .ok a => a.res (.zfill f) t (memVa f 64 w t) (rangeBytes f) (0, 0) none (fun _ => t)

theorem exec_zfill (f : MemForm) (s : State) : exec (.zfill f) s = .next (s.forThreads (.zfill f) (zfillBody f)) := rfl

/-- A range of plain memory becomes zero. -/
def State.zeroed (s : State) (pa n : Nat) : State := { s with mem := memDrop s.mem pa n }.heal pa n

theorem State.physWrite_zero {s : State} {pa n : Nat} (hp : s.isCmp pa = false) (vf : Nat) (now : Bool) :
    s.physWrite vf pa (.zero n) now = .done (s.zeroed pa n) [] := by
  simp [State.physWrite, hp, MemOp.isRaw, State.plainWrite, State.zeroed]

theorem stored_memDrop {s y : State} {pa n : Nat} (h : y.mem = memDrop s.mem pa n) : Stored s y pa (List.replicate n 0) := by
  constructor
  · intro i hi
    rw [List.length_replicate] at hi
    rw [h, memGet_memDrop, if_pos (by omega), List.getD_replicate _ hi]
  · intro a ha
    rw [List.length_replicate] at ha
    rw [h, memGet_memDrop, if_neg (by omega)]

section
variable {f : MemForm} {s : State} {w : Workgroup} {t : Thread} {n : Nat}

theorem State.zeroRange_main {pa : Nat} (hs : Sound s t pa n) (va : BitVec 80) :
    s.zeroRange w t va n (.main pa) = .got (s.bumpId.zeroed pa n) [] := by
  have hplain : s.isCmp pa = false := hs.plain
  simp only [State.zeroRange, hplain, Bool.and_false, Bool.false_eq_true, if_false]
  exact State.writeLoc_performs (op := .zero n) hs rfl (fun now => State.physWrite_zero (s := s.bumpId) hs.plain _ now) 0 none va
    [t.key]

/-- A drain of a queue that holds no store does nothing (R202). -/
theorem State.drainQueue_drained (hd : Drained s t) : s.drainQueue t.key = s := by
  rw [State.drainQueue, ahead_eq_nil fun q hq => by simpa using (hd q hq).2]
  rfl

/-- The scratchpad of a workgroup where a range has become zero. -/
theorem State.zeroRange_spad {off : Nat} (hw : w.foreign = none) (hwg : s.wg t.wg = some w) (hd : Drained s t) (va : BitVec 80) :
    ∃ old, s.zeroRange w t va n (.spad off) = .got (s.modWg w.id (fun x => x.spadPut off (List.replicate n 0))) old := by
  have hid : (s.wg w.id).getD w = w := by
    rw [State.wg_id hwg, hwg]
    rfl
  refine ⟨memGetN w.spad off n, ?_⟩
  simp only [State.zeroRange, State.writeLoc, hw, State.writeSpad, State.drainQueue_drained hd, hid]
  rfl

theorem zfill_storesAt {pa : Nat} (h : (Instr.zfill f).Alone s t w) (hl : Lands s f 64 w t (zfillKind f) (.main pa))
    (hs : Sound s t pa (rangeBytes f)) :
    StoresAt (.zfill f) s (t.onward (.zfill f)) pa (List.replicate (rangeBytes f) 0) := by
  obtain ⟨ord, hacc⟩ := State.memAccess_lands hl hs.first (fun g => s.zeroRange w t (memVa f 64 w t) (rangeBytes f) g.loc)
  refine storesAt_of_stored h (exec_zfill f s) (y := s.bumpId.zeroed pa (rangeBytes f)) ?_ rfl rfl (stored_memDrop rfl)
  rw [zfillBody, hacc]
  dsimp only
  rw [State.zeroRange_main hs, Acc.res]

theorem zfill_went_spad {off : Nat} (h : (Instr.zfill f).Alone s t w) (hl : Lands s f 64 w t (zfillKind f) (.spad off))
    (hw : w.foreign = none) (hd : Drained s t) :
    Went (fun _ _ => goes (t.onward (.zfill f))) (s.modWg w.id (fun x => x.spadPut off (List.replicate (rangeBytes f) 0)))
      (s.forThreads (.zfill f) (zfillBody f)) := by
  obtain ⟨ord, hland⟩ := hl
  obtain ⟨old, hzero⟩ := State.zeroRange_spad (n := rangeBytes f) (off := off) hw h.wg hd (memVa f 64 w t)
  have hid : KeepsId (fun x : Workgroup => x.spadPut off (List.replicate (rangeBytes f) 0)) := fun _ => rfl
  have hwg : (s.modWg w.id (fun x => x.spadPut off (List.replicate (rangeBytes f) 0))).wg t.wg
      = some (w.spadPut off (List.replicate (rangeBytes f) 0)) := by
    rw [State.wg_id h.wg]
    exact State.wg_modWg_same hid h.wg
  refine went_of_alone h ?_ rfl ⟨rfl, rfl, rfl, rfl⟩ hwg rfl rfl
  rw [zfillBody, State.memAccess_landsAt hland]
  dsimp only
  rw [hzero, Acc.res]

/-! ## WSQRY -/

/-- How far a bank of the weight store is into its refresh period (R187). -/
def bankTime (now : Dword) (off : Nat) : Nat := (now.toNat + 65536 * 16 - off / 2 ^ 25 % 16 * 4096) % 65536

theorem wsqryResult_eq (now : Dword) (off : Nat) : wsqryResult now off
    = if bankTime now off < 2048 then (0, BitVec.ofNat 32 (2048 - bankTime now off))
      else (BitVec.ofNat 32 (65536 - bankTime now off), 2048) := rfl

/-- The results of WSQRY (R209). -/
def Thread.queried (t : Thread) (d into : Nat) : Thread :=
  if into < 2048 then (t.setReg d 0).setReg (d + 1) (BitVec.ofNat 32 (2048 - into))
  else (t.setReg d (BitVec.ofNat 32 (65536 - into))).setReg (d + 1) 2048

theorem Thread.queried_key (t : Thread) (d into : Nat) : (t.queried d into).key = t.key := by
  unfold Thread.queried
  split <;> simp [Thread.key]

theorem Thread.queried_pc (t : Thread) (d into : Nat) : (t.queried d into).pc = t.pc := by
  unfold Thread.queried
  split <;> simp

theorem Thread.setReg_wsqryResult (t : Thread) (d : Nat) (now : Dword) (off : Nat) :
    (t.setReg d (wsqryResult now off).1).setReg (d + 1) (wsqryResult now off).2 = t.queried d (bankTime now off) := by
  rw [wsqryResult_eq, Thread.queried]
  generalize bankTime now off = into
  by_cases h : into < 2048
  · simp only [h, if_true]
  · simp only [h, if_false]

/-- WSQRY of one thread on a die whose counter has advanced (R209, R211). -/
def wsqryBody (f : MemForm) (die : Nat) (s : State) (w : Workgroup) (t : Thread) : Res :=
  if w.kernel.det then .fault s (trapOf 0x13)
  else match s.memCheck f 4 w t { n := 1, align := 1, paths := [3] } with
    | .error r => .fault s r
    | .ok g => match g.loc with
      | .wst _ off =>
        let x := wsqryResult (s.dieNow die) off
        .go s (((t.setReg f.d.toNat x.1).setReg (f.d.toNat + 1) x.2).onward (.wsqry f))
      | _ => .go s (t.onward (.wsqry f))

theorem exec_wsqry (f : MemForm) (s : State) : exec (.wsqry f) s
    = .next ((s.tickDie (dieOf s.cur.core)).forThreads (.wsqry f) (wsqryBody f (dieOf s.cur.core))) := rfl

theorem State.sameMaps_tickDie (s : State) (die : Nat) : s.SameMaps (s.tickDie die) :=
  ⟨rfl, rfl, rfl, rfl, rfl, rfl, rfl, rfl, rfl, rfl, rfl⟩

theorem alone_tickDie {i : Instr} (h : i.Alone s t w) (die : Nat) : i.Alone (s.tickDie die) t w :=
  ⟨h.keys, h.joins, h.thread, h.wg, h.steps, h.guard, h.step8, h.home⟩

theorem wsqryBody_lands {die die' off : Nat} (hdet : w.kernel.det = false)
    (hl : Lands s f 4 w t { n := 1, align := 1, paths := [3] } (.wst die' off)) :
    wsqryBody f die (s.tickDie die) w t = .go (s.tickDie die)
      ((t.queried f.d.toNat (bankTime ((s.tickDie die).dieNow die) off)).onward (.wsqry f)) := by
  obtain ⟨ord, hcheck⟩ := State.memCheck_lands hl
  have hcheck' := ((s.sameMaps_tickDie die).memCheck f 4 w t { n := 1, align := 1, paths := [3] }).trans hcheck
  simp only [wsqryBody, hdet, hcheck', Bool.false_eq_true, if_false, Thread.setReg_wsqryResult]

end

end Sys2Proof.Machine
end

section
namespace Sys2Proof.Proofs

open Sys2Proof Machine Certificates

theorem cinv_group (f : MemForm) {s : State} (hr : (Instr.cinv f).Runs s) (hq : s.queue = [])
    (hl : ∀ k ∈ s.cur.keys, ∀ t, s.thread k = some t → t.guard f.fm = true → ∃ l, CinvActs s f k l) :
    ∃ s', exec (.cinv f) s = .next s' ∧ ∃ l, (Instr.cinv f).Did (fun _ t => t) { s with replicas := l } s'
      ∧ ∀ r, r ∈ l ↔ r ∈ s.replicas ∧ ¬ CinvDrops s f r := by
  have hdid := forThreads_keeping (i := .cinv f) (keeps := cinvKeeps s f) (body := maintainBody (.cinv f) f 1 (cinvAt f)) hr
    fun k hk y t w hy ht hw hg => by
      obtain ⟨l, t', w', ht', hw', -, hland⟩ := hl k hk t ht hg
      cases ht.symm.trans ht'
      cases hw.symm.trans hw'
      exact cinvBody_keeping hland hy hq
  refine ⟨_, exec_cinv f s, _, hdid, fun r => ?_⟩
  rw [List.mem_filter, spares_cinv_iff hr hl]

theorem maintenance : Maintenance := by
  unfold Maintenance
  intro span meets
  have hspan : span = rangeBytes := by
    funext f
    simp only [span, rangeBytes]
    generalize f.w2.sz = z
    revert z
    decide
  clear_value span
  subst hspan
  refine ⟨?pref, ?cinvGroup, ?cinvAlone, ?cwb, ?zfill, ?wsqry⟩
  case pref => exact fun f s hr => alu_did hr fun _ _ => rfl
  case cinvGroup =>
    intro f s n acts gone hr hl hq
    exact cinv_group f hr hq hl
  case cinvAlone =>
    intro f s t w pa h hl
    have hdid := did_of_storesOnly h (cinvBody_main hl rfl) s.storesOnly_flushAll
    refine ⟨_, exec_cinv f s, _, hdid, fun r => ?_⟩
    rw [List.mem_filter, spared_iff, mem_cinvDies, s.storesOnly_flushAll.replicas]
  case cwb =>
    intro f s t w l n h hl
    exact cwb_alone h hl
  case zfill =>
    intro s t w f n u kind h
    refine ⟨fun pa _ hl hs => zfill_storesAt h hl hs, fun off hl hw hd _ => ⟨_, exec_zfill f s, ?_⟩⟩
    have hwent := zfill_went_spad h hl hw hd
    rw [show (fun x : Workgroup => x.spadPut off (List.replicate (rangeBytes f) 0)) = _ from
      funext fun x => x.spadPut_replicate off (rangeBytes f)] at hwent
    exact hwent
  case wsqry =>
    intro s t w f die off h hdet hl hdie _
    subst hdie
    exact ⟨_, exec_wsqry f s, did_of_alone (alone_tickDie h _) (wsqryBody_lands hdet hl) (t.queried_key _ _) (t.queried_pc _ _) (fun _ => rfl)
      ⟨rfl, rfl, rfl, rfl⟩ ⟨w, h.wg, rfl, rfl⟩⟩

/-- Settles O24: FENCE and the instructions that maintain memory act on the stores that wait and on the replicas; each of their
threads goes on. -/
theorem fencesAndMaintenance : Obligations.FencesAndMaintenance := ⟨fences, maintenance⟩

end Sys2Proof.Proofs
end

section
/-! SUPPORT. Flits that arrive, and what answers them (R427, R428, R430). -/

namespace Sys2Proof.Machine

open Certificates

/-! ## The flit that has arrived -/

theorem State.answer_eq (s : State) (h : FlitHdr) (b : FlitBody) : s.answer h b = answered s h b := by
  simp only [State.answer, State.send, answered, sent, BitVec.ofNat_toNat, BitVec.setWidth_eq]

theorem State.delivered_eq (s : State) (port : Nat) : s.delivered port = Certificates.delivered s port := rfl

section
variable {s : State} {f : State → Flit → State}

theorem State.withRx_none (h : s.rx = none) : s.withRx f = .next s := by
  simp only [State.withRx, h]

theorem State.withRx_arrives {h : FlitHdr} {b : FlitBody} (ha : Arrives s h b) :
    s.withRx f = .next (f (Certificates.delivered s h.port) ⟨h, b⟩) := by
  obtain ⟨hup, r, hr, rfl, hseq, hbody⟩ := ha
  have hup' : s.links.portUp.getD r.port false = true := hup
  have hseq' : r.seq = s.links.rxSeq.getD r.port 0 := hseq
  simp only [State.withRx, hr, hup', hseq', hbody, Bool.not_true, bne_self_eq_false, Bool.or_self, Bool.false_eq_true, if_false]
  rfl

variable {r : RawFlit} (hr : s.rx = some r)
include hr

/-- Nothing arrives at a port that is down, or out of turn (R428). -/
theorem State.withRx_unheard (h : s.links.portUp.getD r.port false = false ∨ r.seq ≠ s.links.rxSeq.getD r.port 0) :
    s.withRx f = .next { s with rx := none } := by
  have hcond : (!s.links.portUp.getD r.port false || r.seq != s.links.rxSeq.getD r.port 0) = true := by
    rw [Bool.or_eq_true, Bool.not_eq_true', bne_iff_ne]
    exact h
  simp only [State.withRx, hr, hcond, if_true]

/-- A malformed flit (R430). -/
theorem State.withRx_malformed (hup : s.links.portUp.getD r.port false = true) (hseq : r.seq = s.links.rxSeq.getD r.port 0)
    (hbody : r.body = none) :
    s.withRx f = .next ((Certificates.delivered s r.port).discardFlit r.hdr r.vc r.ty) := by
  simp only [State.withRx, hr, hup, hseq, hbody, Bool.not_true, bne_self_eq_false, Bool.or_self, Bool.false_eq_true, if_false]
  rfl

end

/-- A discarded flit is logged, and a request is refused (R430, R440). -/
theorem State.discardFlit_logs (x : State) (h : FlitHdr) (vc ty : Nat) : ∃ y, Logged x y 0x0E (portDie h.port) h.vf.toNat
    ∧ x.discardFlit h vc ty = if vc = 0 then answered y h (.neg 5 0) else y := by
  refine ⟨_, State.logged_logEvent x 0x0E (portDie h.port) h.vf.toNat [h.port, vc, ty, h.spkg.toNat], ?_⟩
  simp only [State.discardFlit, State.answer_eq, beq_iff_eq]

/-! ## Requests of memory in their turn -/

section
variable {s : State} {h : FlitHdr} {b : FlitBody} {p : FlitBody → Bool} (ha : Arrives s h b) (hp : p b = true)
include ha hp

theorem State.serveIf_now (hw : s.peerWaits h = false) :
    s.serveIf p = .next ((Certificates.delivered s h.port).serveNow ⟨h, b⟩) := by
  have hw' : (Certificates.delivered s h.port).peerWaits h = false := hw
  simp only [State.serveIf, State.withRx_arrives ha, hp, if_true, State.serveIn, hw', Bool.and_false, Bool.false_eq_true, if_false]

/-- A request that comes after earlier ones waits for them (R430, R431). -/
theorem State.serveIf_waits (hw : s.peerWaits h = true) (ho : ordersAll b = true) :
    s.serveIf p = .next { Certificates.delivered s h.port with flushes := s.flushes ++ [⟨h, b⟩] } := by
  have hw' : (Certificates.delivered s h.port).peerWaits h = true := hw
  simp only [State.serveIf, State.withRx_arrives ha, hp, if_true, State.serveIn, hw', ho, Bool.and_self]
  rfl

end

/-! ## Addresses of requests -/

theorem toNat_addr {pa : Nat} (h : pa < 2 ^ 41) : (bits (BitVec.ofNat 64 pa : Dword) 51 0).toNat = pa := by
  rw [toNat_bits, BitVec.toNat_ofNat]
  omega

/-- An address below 2^41 names no RAW window (R397). -/
theorem wireAddr_ofNat {pa : Nat} (h : pa < 2 ^ 41) : wireAddr (BitVec.ofNat 64 pa) = ⟨pa, false, false⟩ := by
  have hhigh : ∀ i, 41 ≤ i → bit (BitVec.ofNat 64 pa : Dword) i = false := fun i hi => by
    rw [bit, BitVec.getLsbD_ofNat, Nat.testBit_lt_two_pow (h.trans_le (Nat.pow_le_pow_right (by decide) hi)), Bool.and_false]
  rw [wireAddr, toNat_addr h, hhigh 63 (by decide), hhigh 62 (by decide)]

section
variable {s : State} {h : FlitHdr} {pa n : Nat}

theorem State.wireRefuses_unreached (hr : s.reaches (portDie h.port) (homeDie pa) = false) :
    s.wireRefuses h ⟨pa, false, false⟩ n = some 1 := by
  simp only [State.wireRefuses, hr, Bool.not_false, Bool.or_true, if_true]

/-- A range whose first frame is not backed is not backed (R414). -/
theorem State.backed_none (vf : Nat) (hn : 0 < n) (hf : s.frameOf pa = none) : s.backed vf pa n = false := by
  have hfirst : 0 ∈ List.range ((pa % 65536 + n + 65535) / 65536) := List.mem_range.2 (by omega)
  have hall : (List.range ((pa % 65536 + n + 65535) / 65536)).all
      (fun i => (s.frameOf (pa / 65536 * 65536 + 65536 * i)).any (fun r => r.vf == vf)) = false :=
    List.all_eq_false.2 ⟨0, hfirst, by simp [State.frameOf_frameBase, hf]⟩
  simp only [State.backed, hall, Bool.and_false]

theorem State.wireRefuses_unbacked (hn : 0 < n) (ht : pa + n ≤ 2 ^ 41) (hr : s.reaches (portDie h.port) (homeDie pa) = true)
    (hf : s.frameOf pa = none) : s.wireRefuses h ⟨pa, false, false⟩ n = some 6 := by
  have htop : decide (2 ^ 41 < pa + n) = false := decide_eq_false (by omega)
  simp only [State.wireRefuses, htop, hr, State.backed_none _ hn hf, Bool.not_true, Bool.not_false, Bool.or_self, Bool.false_eq_true,
    if_false, if_true]

end

end Sys2Proof.Machine

namespace Sys2Proof.Certificates

open Machine

theorem PeerAt.delivered {s : State} {h : FlitHdr} {pa n : Nat} (hp : PeerAt s h pa n) (port : Nat) :
    PeerAt (Certificates.delivered s port) h pa n :=
  ⟨hp.size, hp.frame, hp.clean, hp.link, hp.free, hp.turn, hp.mem⟩

section
variable {x : State} {h : FlitHdr} {pa n : Nat} (hp : PeerAt x h pa n)
include hp

theorem PeerAt.plain : x.isCmp pa = false := by
  obtain ⟨r, hr, -, hcmp⟩ := hp.frame
  exact (State.isCmp_of_frameOf hr).trans hcmp

theorem PeerAt.lt_top : pa < 2 ^ 41 := by
  obtain ⟨h0, -, htop⟩ := hp.size
  omega

theorem PeerAt.wireRefuses : x.wireRefuses h ⟨pa, false, false⟩ n = none := by
  obtain ⟨h0, hone, htop⟩ := hp.size
  obtain ⟨r, hr, hvf, -⟩ := hp.frame
  have hbacked := State.backed_one (vf := fnOf h) hr h0 hone htop
  have hmine : (r.vf == fnOf h) = true := beq_iff_eq.2 hvf
  have htop' : decide (2 ^ 41 < pa + n) = false := decide_eq_false (by omega)
  simp only [State.wireRefuses, htop', hp.link, hbacked, hmine, Bool.not_true, Bool.or_self, Bool.false_and, Bool.false_eq_true,
    if_false]

end

end Sys2Proof.Certificates
end

section
/-! SUPPORT. Requests of memory of another package (R205, R389, R398, R431). -/

namespace Sys2Proof.Machine

open Certificates

/-! ## MIGOK (R416) -/

theorem State.vf_no (s : State) (n : Nat) : (s.vf n).no = n := by
  unfold State.vf
  cases hv : s.vfs.find? (fun v => v.no == n) with
  | none => rfl
  | some v => simpa using List.find?_some hv

theorem State.vf_setVf (s : State) (v : Vf) : (s.setVf v).vf v.no = v := by
  unfold State.vf State.setVf
  dsimp only
  split
  · next h =>
    rw [find?_map_of_iff (p := fun u : Vf => u.no == v.no) s.vfs fun u => by split <;> simp_all]
    obtain ⟨u, hu, hno⟩ := List.any_eq_true.1 h
    cases hfind : s.vfs.find? (fun u => u.no == v.no) with
    | none => exact absurd hno (by simpa using List.find?_eq_none.1 hfind u hu)
    | some y =>
      have hy := List.find?_some hfind
      simp only [Option.map_some, Option.getD_some, hy, if_true]
  · next h =>
    have hnone : s.vfs.find? (fun u => u.no == v.no) = none :=
      List.find?_eq_none.2 fun u hu hno => h (List.any_eq_true.2 ⟨u, hu, hno⟩)
    simp [List.find?_append, hnone]

theorem State.migok_clearMigok (s : State) (n : Nat) : ((s.clearMigok n).vf n).migok = false := by
  have h := State.vf_setVf s { s.vf n with migok := false }
  have hno : ({ s.vf n with migok := false } : Vf).no = n := s.vf_no n
  rw [hno] at h
  rw [State.clearMigok, h]

section
variable {s : State} {h : FlitHdr} {pa n : Nat}

/-! ## READ (R389, R431) -/

/-- The bytes of a range of main memory. -/
def State.bytesAt (s : State) (pa n : Nat) : List Byte := (List.range n).map (fun i => memGet s.mem (pa + i))

theorem State.take_drop_bytesAt (s : State) (pa n k j : Nat) :
    ((s.bytesAt pa n).drop k).take j = s.bytesAt (pa + k) (min j (n - k)) := by
  refine List.ext_getElem (by simp [State.bytesAt]) fun i h₁ h₂ => ?_
  simp [State.bytesAt, Nat.add_assoc]

/-- The answers to a READ: one flit for every 224 bytes. -/
theorem foldl_dataFlits (s : State) (pa n : Nat) (h : FlitHdr) (x : State) :
    (dataFlits (s.bytesAt pa n)).foldl (fun x b => x.answer h b) x = (List.range ((n + 223) / 224)).foldl
      (fun y i => answered y h (.data (224 * i) (s.bytesAt (pa + 224 * i) (min 224 (n - 224 * i))))) x := by
  have hlen : (s.bytesAt pa n).length = n := by simp [State.bytesAt]
  rw [dataFlits, hlen, List.foldl_map]
  simp only [State.answer_eq, State.take_drop_bytesAt]

theorem State.serveRead_refused {r : Byte} (hpa : pa < 2 ^ 41) (hr : s.wireRefuses h ⟨pa, false, false⟩ n = some r) :
    s.serveRead h (BitVec.ofNat 64 pa) n = answered s h (.neg r 0) := by
  simp only [State.serveRead, wireAddr_ofNat hpa, hr, State.answer_eq]

theorem State.serveWrite_refused {r : Byte} {b : List Byte} (hpa : pa < 2 ^ 41)
    (hr : s.wireRefuses h ⟨pa, false, false⟩ b.length = some r) :
    s.serveWrite h (BitVec.ofNat 64 pa) b = answered s h (.neg r 0) := by
  simp only [State.serveWrite, wireAddr_ofNat hpa, hr, State.answer_eq]

variable (hp : PeerAt s h pa n)
include hp

theorem State.physRead_peer : s.physRead pa n = some (s.bytesAt pa n) := State.physRead_plain hp.plain hp.size.2.1 hp.clean

theorem State.serveRead_performs : s.serveRead h (BitVec.ofNat 64 pa) n = (List.range ((n + 223) / 224)).foldl
    (fun y i => answered y h (.data (224 * i) (s.bytesAt (pa + 224 * i) (min 224 (n - 224 * i))))) s := by
  rw [← foldl_dataFlits]
  simp only [State.serveRead, wireAddr_ofNat hp.lt_top, hp.wireRefuses, State.wireRead, State.physRead_peer hp, Bool.not_false, if_true]

/-! ## Writes -/

/-- A write of a peer in a plain frame, with its MIGOK cleared. -/
theorem State.attempt_peer {op : MemOp} {y : State} {old : List Byte} (dest : Option RmwDest) (site : Dword × Word × BitVec 128)
    (hw : ∀ now, s.bumpId.physWrite h.vf.toNat pa op now = .done y old) :
    s.bumpId.attempt (s.newHeld (fnOf h) (.peer h) [] pa op dest site) = .done y old := by
  have hplain : s.bumpId.isCmp pa = false := hp.plain
  simp only [State.attempt, State.newHeld, hplain, Bool.false_and, Bool.false_eq_true, if_false, fnOf, hw]

end

/-- The statement about a request that stores, from the state that its write leaves. -/
theorem peerStores_of {i : Instr} {s : State} {h : FlitHdr} {pa : Nat} {b : List Byte} {r : FlitBody} {y : State}
    (hst : Stored (Certificates.delivered s h.port) y pa b)
    (hy : y = { Certificates.delivered s h.port with mem := y.mem, poison := y.poison, fresh := y.fresh })
    (hexec : exec i s = .next (answered (y.clearMigok h.vf.toNat) h r)) : PeerStores i s h pa b r := by
  refine ⟨y.clearMigok h.vf.toNat, _, stored_of_mem hst rfl rfl, ?_, State.migok_clearMigok y _, hexec, rfl⟩
  rw [hy]
  rfl

end Sys2Proof.Machine
end

section
/-! SUPPORT. Writes and read-modify-writes of another package (R203 to R205, R416, R431), and its FLUSH (R430). -/

namespace Sys2Proof.Machine

open Certificates

section
variable {x : State} {h : FlitHdr} {pa : Nat}

theorem State.serveWrite_performs {b : List Byte} (hp : PeerAt x h pa b.length) : x.serveWrite h (BitVec.ofNat 64 pa) b
    = answered ((x.bumpId.putBytes pa b).clearMigok h.vf.toNat) h .ack := by
  obtain ⟨hpos, hone, -⟩ := hp.size
  have hpieces := blockPieces_one (List.ne_nil_of_length_pos hpos) hone
  have hwrite := State.attempt_peer hp none (0, 0, BitVec.ofNat 128 pa)
    (fun now => State.physWrite_store_plain x.bumpId h.vf.toNat b now hp.plain)
  simp only [State.serveWrite, wireAddr_ofNat hp.lt_top, hp.wireRefuses, Bool.not_false, if_true, hpieces, List.map_cons, List.map_nil,
    State.peerWrite, State.peerPieces, hwrite, Bool.false_eq_true, if_false, State.answer_eq]
  rfl

variable {op : MemOp} (hop : op.modifies = true) (hp : PeerAt x h pa op.len)
include hop hp

theorem State.peerRmw_performs (ha : pa % op.len = 0) (dest : Option RmwDest) : x.peerRmw h pa op dest
    = answered ((x.bumpId.modified pa op).clearMigok h.vf.toNat) h (peerDone op dest (memGetN x.mem pa op.len)) := by
  have hwrite := State.attempt_peer hp dest (0, 0, BitVec.ofNat 128 pa)
    (fun now => State.physWrite_modified (s := x.bumpId) hop hp.plain hp.clean h.vf.toNat now)
  simp only [State.peerRmw, hp.wireRefuses, ha, bne_self_eq_false, Bool.false_eq_true, if_false, hwrite, State.answer_eq,
    State.bumpId_mem]
  rfl

end

/-! ## Requests that are performed at once -/

section
variable {s : State} {h : FlitHdr} (hw : s.peerWaits h = false)
include hw

theorem exec_gRead {addr : Dword} {n : Nat} {sem : BitVec 2} (ha : Arrives s h (.read addr n sem)) :
    exec .gRead s = .next ((Certificates.delivered s h.port).serveRead h addr n) := by
  change execGRead s = _
  unfold execGRead
  exact State.serveIf_now ha rfl hw

theorem exec_gWrite {addr : Dword} {sem : BitVec 2} {b : List Byte} (ha : Arrives s h (.write addr sem b)) :
    exec .gWrite s = .next ((Certificates.delivered s h.port).serveWrite h addr b) := by
  change execGWrite s = _
  unfold execGWrite
  exact State.serveIf_now ha rfl hw

theorem exec_gAtomic {addr : Dword} {op : BitVec 4} {sz : BitVec 3} {ret : Bool} {sem : BitVec 2} {opnd : BitVec 128}
    (ha : Arrives s h (.atomic addr op sz ret sem opnd)) :
    exec .gAtomic s = .next ((Certificates.delivered s h.port).serveAtomic h addr op sz ret opnd) := by
  change execGAtomic s = _
  unfold execGAtomic
  exact State.serveIf_now ha rfl hw

theorem exec_gCell {addr v : Dword} {op sem : BitVec 2} {fmt : BitVec 4} (ha : Arrives s h (.cell addr op fmt sem v)) :
    exec .gCell s = .next ((Certificates.delivered s h.port).serveCell h addr op fmt v) := by
  change execGCell s = _
  unfold execGCell
  exact State.serveIf_now ha rfl hw

theorem exec_gFlush (ha : Arrives s h .flush) : exec .gFlush s = .next (answered (Certificates.delivered s h.port) h .ack) := by
  have hnow : (Certificates.delivered s h.port).serveNow ⟨h, .flush⟩ = answered (Certificates.delivered s h.port) h .ack :=
    State.answer_eq _ _ _
  rw [← hnow]
  change execGFlush s = _
  unfold execGFlush
  exact State.serveIf_now ha (beq_self_eq_true _) hw

end

/-! ## The statements about requests that store -/

section
variable {i : Instr} {s : State} {h : FlitHdr} {pa n : Nat} {op : MemOp} (hop : op.modifies = true) (hlen : op.len = n)
  (hp : PeerAt s h pa n) (ha : pa % n = 0)
include hop hlen hp ha

theorem peerStores_of_rmw (dest : Option RmwDest) (hexec : exec i s = .next ((Certificates.delivered s h.port).peerRmw h pa op dest)) :
    PeerStores i s h pa (op.leaves (memGetN s.mem pa n)) (peerDone op dest (memGetN s.mem pa n)) := by
  subst hlen
  have hp' := hp.delivered h.port
  rw [State.peerRmw_performs hop hp' ha] at hexec
  have hst := State.stored_modified (s := (Certificates.delivered s h.port).bumpId) hp'.mem pa op
  refine peerStores_of (stored_of_mem hst rfl rfl) ?_ hexec
  rw [State.modified_eq]
  rfl

end

theorem peerStores_write {s : State} {h : FlitHdr} {pa : Nat} {sem : BitVec 2} {b : List Byte} (hp : PeerAt s h pa b.length)
    (ha : Arrives s h (.write (BitVec.ofNat 64 pa) sem b)) : PeerStores .gWrite s h pa b .ack := by
  have hp' := hp.delivered h.port
  have hexec := exec_gWrite hp.turn ha
  rw [State.serveWrite_performs hp'] at hexec
  have hst := State.stored_putBytes (s := (Certificates.delivered s h.port).bumpId) hp'.mem pa b
  exact peerStores_of (stored_of_mem hst rfl rfl) rfl hexec

/-! ## ATOMIC (R203, R204) -/

section
variable {s : State} {h : FlitHdr} {pa : Nat} {op : BitVec 4} {ret : Bool} {sem : BitVec 2} {opnd : BitVec 128}

/-- Where the old value of an ATOMIC of a word goes: back with the answer, where it is asked for. -/
def wordDest (ret : Bool) : Option RmwDest := if ret then some { key := ⟨0, 0⟩, d := 0, n := 4, pd := none } else none

theorem exec_gAtomic_word (ha : Arrives s h (.atomic (BitVec.ofNat 64 pa) op 2 ret sem opnd)) (hw : s.peerWaits h = false)
    (hpa : pa < 2 ^ 41) :
    exec .gAtomic s = .next ((Certificates.delivered s h.port).peerRmw h pa (atomicOp op 4 opnd) (wordDest ret)) := by
  rw [exec_gAtomic hw ha, State.serveAtomic, toNat_addr hpa]
  rfl

/-- The operand of an ATOMIC of a word. -/
theorem atomicOp_word (h9 : op ≠ 9) : atomicOp op 4 opnd = .atom op.toNat 4 (opnd.setWidth 64) := by
  simp only [atomicOp, beq_eq_false_iff_ne.2 h9, Bool.false_eq_true, if_false]

theorem atomicOp_cas : atomicOp 9 4 opnd = .cas 4 (BitVec.ofNat 64 (opnd.toNat % 2 ^ (8 * 4)))
    (BitVec.ofNat 64 (opnd.toNat / 2 ^ (8 * 4) % 2 ^ (8 * 4))) := rfl

/-- What an ATOMIC answers: the old value where it is asked for. -/
theorem peerDone_word {old : List Byte} (hl : old.length = 4) {n : Nat} (o : Nat) (d : Dword) :
    peerDone (.atom o n d) (wordDest ret) old = if ret = true then .data 0 old else .ack := by
  cases ret
  · rfl
  · exact congrArg (FlitBody.data 0) (List.take_of_length_le (Nat.le_of_eq hl))

theorem peerDone_wordCas {old : List Byte} (hl : old.length = 4) (e v : Dword) :
    peerDone (.cas 4 e v) (wordDest ret) old
      = if ret = true then .data 0 (old ++ [if leNat old == e.toNat % 2 ^ 32 then 1 else 0]) else .ack := by
  cases ret
  · rfl
  · have htake : old.take 4 = old := List.take_of_length_le (Nat.le_of_eq hl)
    change FlitBody.data 0 (old.take 4 ++ natLe 1 (if leNat old == e.toNat % 2 ^ 32 then 1 else 0)) = _
    rw [htake]
    cases leNat old == e.toNat % 2 ^ 32 <;> rfl

theorem toNat_casExpected : (BitVec.ofNat 64 (opnd.toNat % 2 ^ (8 * 4))).toNat % 2 ^ (8 * 4) = (bits opnd 31 0).toNat := by
  rw [BitVec.toNat_ofNat, toNat_bits_low]
  omega

theorem toNat_casNew : (BitVec.ofNat 64 (opnd.toNat / 2 ^ (8 * 4) % 2 ^ (8 * 4))).toNat = (bits opnd 63 32).toNat := by
  rw [BitVec.toNat_ofNat, toNat_bits]
  omega

variable (hp : PeerAt s h pa 4) (h4 : pa % 4 = 0) (ha : Arrives s h (.atomic (BitVec.ofNat 64 pa) op 2 ret sem opnd))
include hp h4 ha

theorem peerStores_atomic (hop : op.toNat ≤ 8) : PeerStores .gAtomic s h pa
    (natLe 4 (atomicResult op (s.word pa) (bits opnd 31 0)).toNat)
    (if ret = true then .data 0 (memGetN s.mem pa 4) else .ack) := by
  have h9 : op ≠ 9 := by
    rintro rfl
    exact absurd hop (by decide)
  have hexec := exec_gAtomic_word ha hp.turn hp.lt_top
  rw [atomicOp_word h9] at hexec
  have hst := peerStores_of_rmw (n := 4) rfl rfl hp h4 (wordDest ret) hexec
  have hopnd : (opnd.setWidth 64).toNat % 2 ^ (8 * 4) = (bits opnd 31 0).toNat := by
    rw [BitVec.toNat_setWidth, toNat_bits_low]
    omega
  rw [MemOp.leaves_atom (n := 4) (s.toNat_word pa) hop hopnd, peerDone_word (length_memGetN _ _ _)] at hst
  exact hst

/-- ACAS of another package: it stores where the expected word stands there, and tells so. -/
theorem peerStores_cas (h9 : op = 9) : PeerStores .gAtomic s h pa
    (if s.word pa = bits opnd 31 0 then natLe 4 (bits opnd 63 32).toNat else memGetN s.mem pa 4)
    (if ret = true then .data 0 (memGetN s.mem pa 4 ++ [if s.word pa = bits opnd 31 0 then 1 else 0]) else .ack) := by
  subst h9
  have hexec := exec_gAtomic_word ha hp.turn hp.lt_top
  rw [atomicOp_cas] at hexec
  have hst := peerStores_of_rmw (n := 4) rfl rfl hp h4 (wordDest ret) hexec
  have hsame : (leNat (memGetN s.mem pa 4) == (BitVec.ofNat 64 (opnd.toNat % 2 ^ (8 * 4))).toNat % 2 ^ 32)
      = decide (s.word pa = bits opnd 31 0) := by
    rw [s.toNat_word pa, toNat_casExpected, toNat_beq_toNat, Bool.beq_eq_decide_eq]
  rw [MemOp.leaves_cas (n := 4) (s.toNat_word pa) (length_memGetN _ _ _) toNat_casExpected, toNat_casNew,
    peerDone_wordCas (length_memGetN _ _ _), hsame] at hst
  by_cases heq : s.word pa = bits opnd 31 0
  · simpa [heq] using hst
  · rw [if_neg heq, ← s.toNat_word pa, natLe_leNat_memGetN] at hst
    simpa [heq] using hst

end

/-! ## CELL (R134, R136, R205) -/

section
variable {s : State} {h : FlitHdr} {pa : Nat} {op sem : BitVec 2} {fmt : BitVec 4} {v : Dword} (hp : PeerAt s h pa 32)
  (ha : pa % 32 = 0)
include hp ha

theorem peerStores_cellAdd (hr : Arrives s h (.cell (BitVec.ofNat 64 pa) 0 fmt sem v)) : PeerStores .gCell s h pa
    (natLe 32 (cellAdd (BitVec.ofNat 256 (leNat (memGetN s.mem pa 32))) (addendValue fmt.toNat v)).toNat) .ack := by
  have hexec := exec_gCell hp.turn hr
  have hserve : (Certificates.delivered s h.port).serveCell h (BitVec.ofNat 64 pa) 0 fmt v
      = (Certificates.delivered s h.port).peerRmw h pa (.cellAdd fmt.toNat v) none := by
    rw [State.serveCell, toNat_addr hp.lt_top]
    rfl
  exact peerStores_of_rmw (op := .cellAdd fmt.toNat v) rfl rfl hp ha none (hexec.trans (congrArg _ hserve))

theorem peerStores_cellClear (hr : Arrives s h (.cell (BitVec.ofNat 64 pa) 2 fmt sem v)) :
    PeerStores .gCell s h pa (List.replicate 32 0) .ack := by
  have hexec := exec_gCell hp.turn hr
  have hserve : (Certificates.delivered s h.port).serveCell h (BitVec.ofNat 64 pa) 2 fmt v
      = (Certificates.delivered s h.port).peerRmw h pa .cellClear none := by
    rw [State.serveCell, toNat_addr hp.lt_top]
    rfl
  exact peerStores_of_rmw (op := .cellClear) rfl rfl hp ha none (hexec.trans (congrArg _ hserve))

theorem exec_gCell_read (hr : Arrives s h (.cell (BitVec.ofNat 64 pa) 1 fmt sem v)) :
    exec .gCell s = .next (answered (Certificates.delivered s h.port) h (.data 0 (s.bytesAt pa 32))) := by
  have hp' := hp.delivered h.port
  have hserve : (Certificates.delivered s h.port).serveCell h (BitVec.ofNat 64 pa) 1 fmt v
      = (Certificates.delivered s h.port).serveCellRead h pa := by
    rw [State.serveCell, toNat_addr hp.lt_top]
    rfl
  rw [exec_gCell hp.turn hr, hserve, State.serveCellRead, hp'.wireRefuses, State.physRead_peer hp', ← State.answer_eq]
  simp only [ha, bne_self_eq_false, Bool.false_eq_true, if_false]
  rfl

end

/-! ## What is refused (R414, R428, R430) -/

section
variable {i : Instr} {s : State} {h : FlitHdr} {pa n : Nat}

/-- A request that its port's die cannot take home, and one of a frame that is not backed. -/
theorem refused_of (hexec : ∀ r, (Certificates.delivered s h.port).wireRefuses h ⟨pa, false, false⟩ n = some r →
      exec i s = .next (answered (Certificates.delivered s h.port) h (.neg r 0))) (hn : 0 < n) (ht : pa + n ≤ 2 ^ 41) :
    (s.reaches (portDie h.port) (homeDie pa) = false → exec i s = .next (answered (Certificates.delivered s h.port) h (.neg 1 0)))
    ∧ (s.reaches (portDie h.port) (homeDie pa) = true → s.frameOf pa = none →
        exec i s = .next (answered (Certificates.delivered s h.port) h (.neg 6 0))) :=
  ⟨fun hr => hexec 1 (State.wireRefuses_unreached hr), fun hr hf => hexec 6 (State.wireRefuses_unbacked hn ht hr hf)⟩

end

end Sys2Proof.Machine
end

section
/-! SUPPORT. Graph operations of another package (R337, R350, R431). -/

namespace Sys2Proof.Machine

open Certificates

/-- The agent of a home that keeps its graph whole needs nothing for an operation that adds nothing (R339, R340). -/
theorem State.agentNeeds_kept {s : State} {d : GraphDesc} {id : Nat} (h : Kept s d id 0) :
    ∃ n, s.agentNeeds false d id 0 = .ok { s with freeN := n } := by
  have hroom : ∀ n, s.storeFull n d id 0 = false := fun n => by simp [State.storeFull]
  unfold State.agentNeeds
  dsimp only
  split
  · exact ⟨s.freeN, rfl⟩
  · simp only [hroom, Bool.false_eq_true, if_false]
    cases hpage : (Config.graphPage s.freeN d.ctxn d.g id).filter (fun p => p < d.ssize / 65536) with
    | none => exact ⟨_, rfl⟩
    | some p =>
      obtain ⟨mine, hmine⟩ := h.pages p (by simpa using (Option.filter_eq_some_iff.1 hpage).2)
      simp only [Option.map_some, hmine]
      exact ⟨_, rfl⟩

theorem State.graphWaits_free {s : State} (ht : s.txns = []) (fl : Flit) (ctxn : Nat) (a b : Dword) (ca cb : BitVec 128) :
    s.graphWaits fl .vget ctxn a b ca cb = false := by
  have hlocked : ∀ g id, s.locked ctxn g id = false := fun g id => by simp [State.locked, ht]
  simp [State.graphWaits, State.graphLocked, hlocked]

/-- The property word in the result of VGET (R345). -/
theorem bits_gval (x : Word) : bits (BitVec.ofNat 128 x.toNat) 31 0 = x := by
  apply BitVec.eq_of_toNat_eq
  have hx := x.isLt
  rw [toNat_bits_low, BitVec.toNat_ofNat]
  omega

section
variable {s : State} {h : FlitHdr} {insn w2 : Word} {a b c : Dword} {ctxn : Nat} {ca cb : BitVec 128}

/-- The opcode and the fields of a GRAPHOP (R431). -/
def graphopOf (insn w2 : Word) : Option (Opc × GraphForm) :=
  (opcodeOf (bits insn 9 2).toNat).bind (fun o =>
    (graphFormOf (extract o { w0 := insn, ext := some (0, w2), lit := none })).map (fun f => (o, f)))

theorem State.graphReply_malformed (hop : graphopOf insn w2 = none) : s.graphReply ⟨h, .graphop insn w2 a b c ctxn ca cb⟩
    = (s.discardFlit h 0 5, true) := by
  unfold graphopOf at hop
  simp only [State.graphReply, hop]

theorem graphopOf_vget {f : GraphForm} (hex : extract .vget { w0 := insn, ext := some (0, w2), lit := none } = .vget f)
    (hopc : opcodeOf (bits insn 9 2).toNat = some .vget) : graphopOf insn w2 = some (.vget, f) := by
  simp only [graphopOf, hopc, Option.bind_some, hex, graphFormOf, Option.map_some]

variable {f : GraphForm} (hop : graphopOf insn w2 = some (.vget, f))
include hop

theorem State.graphReply_otherHedge (hv : ctxn / 16 + 1 ≠ h.vf.toNat) :
    s.graphReply ⟨h, .graphop insn w2 a b c ctxn ca cb⟩ = (answered s h (.neg 1 0), true) := by
  have hv' : (vfOfCtx ctxn != fnOf h) = true := bne_iff_ne.2 hv
  unfold graphopOf at hop
  simp only [State.graphReply, hop, hv', if_true, State.answer_eq]

/-- VGET of another package at the home of its vertex (R345, R350). -/
theorem State.graphReply_vget {d : GraphDesc} {v : Vertex} (hv : ctxn / 16 + 1 = h.vf.toNat) (hd : s.homeGraph ctxn a = some d)
    (ht : s.txns = []) (hr : s.reaches (portDie h.port) d.die = true)
    (hvert : s.vertex d.ctxn d.g (bits a 39 0).toNat = some v) (hk : Kept s d v.id 0) :
    ∃ n, s.graphReply ⟨h, .graphop insn w2 a b c ctxn ca cb⟩
      = (answered { s with freeN := n } h (.graphres true (BitVec.ofNat 128 (v.prop f.w2.idx.toNat).toNat) 0 cb 0 false), true) := by
  have hv' : (vfOfCtx ctxn != fnOf h) = false := by
    rw [bne_eq_false_iff_eq]
    exact hv
  obtain ⟨n, hneeds⟩ := State.agentNeeds_kept hk
  have hop' : s.graphOp false d .vget f.w2 a b c ca
      = .ok ({ s with freeN := n }, gval (v.prop f.w2.idx.toNat).toNat true) := by
    have hvert' : s.vertex d.ctxn d.g (refId a) = some v := hvert
    simp only [State.graphOp, hvert', hneeds]
    rfl
  have hserve : s.graphServe h .vget f ctxn a b c ca cb
      = .ok ({ s with freeN := n }, some (.graphres true (BitVec.ofNat 128 (v.prop f.w2.idx.toNat).toNat) 0 cb 0 false)) := by
    have hwalks : walks .vget = false := rfl
    have hmut : mutates .vget = false := rfl
    have hstream : (Opc.vget == Opc.sinter || Opc.vget == Opc.sdiff) = false := rfl
    simp only [State.graphServe, hstream, hwalks, Bool.false_eq_true, if_false, hd, hr, Bool.not_true, hop', hmut]
    rfl
  unfold graphopOf at hop
  refine ⟨n, ?_⟩
  simp only [State.graphReply, hop, hv', Bool.false_eq_true, if_false, State.graphWaits_free ht, hserve, State.answer_eq]

end

/-- A GRAPHOP that is answered at once. -/
theorem exec_gGraphop {s y : State} {h : FlitHdr} {b : FlitBody} (ha : Arrives s h b)
    (hr : (Certificates.delivered s h.port).graphReply ⟨h, b⟩ = (y, true)) : exec .gGraphop s = .next y := by
  change execGGraphop s = _
  simp only [execGGraphop, State.withRx_arrives ha, hr, if_true]

end Sys2Proof.Machine
end

section
/-! SUPPORT. Guests of another package: their slots, and their way home (R366, R376, R432). -/

namespace Sys2Proof.Machine

open Certificates

/-! ## SLOTREQ -/

section
variable {s : State} {vf die : Nat}

theorem State.guestCore_free (h : ∃ c ∈ s.hedgeCores vf die, s.guests c < 256) :
    ∃ c, s.guestCore vf die = some c ∧ c ∈ s.hedgeCores vf die ∧ s.guests c < 256 := by
  obtain ⟨c, hc, hfree⟩ := h
  have hmem : c ∈ s.freeGuestCores vf die := List.mem_filter.2 ⟨hc, decide_eq_true hfree⟩
  have hpos : 0 < (s.freeGuestCores vf die).length := List.length_pos_of_mem hmem
  have hidx : Config.guestCore s.freeN % max (s.freeGuestCores vf die).length 1 < (s.freeGuestCores vf die).length := by
    rw [max_eq_left hpos]
    exact Nat.mod_lt _ hpos
  refine ⟨_, List.getElem?_eq_getElem hidx, ?_⟩
  obtain ⟨hcore, hroom⟩ := List.mem_filter.1 (List.getElem_mem hidx)
  exact ⟨hcore, of_decide_eq_true hroom⟩

theorem State.guestCore_none (h : ∀ c ∈ s.hedgeCores vf die, 256 ≤ s.guests c) : s.guestCore vf die = none := by
  have hnil : s.freeGuestCores vf die = [] :=
    List.filter_eq_nil_iff.2 fun c hc => by simpa using h c hc
  simp [State.guestCore, hnil]

end

section
variable {s : State} {h : FlitHdr} {ctxn die : Nat} (ha : Arrives s h (.slotreq ctxn die)) (hv : ctxn / 16 + 1 = h.vf.toNat)
include ha hv

theorem exec_gSlotreq_granted {c : Nat} (hc : s.guestCore h.vf.toNat die = some c) : exec .gSlotreq s = .next (answered
    { (Certificates.delivered s h.port).bump with
      conts := s.conts ++ [{ spkg := h.spkg.toNat, tag := h.tag, parts := [], core := some c }] } h (.slotgnt c)) := by
  have hv' : (vfOfCtx ctxn == fnOf h) = true := beq_iff_eq.2 hv
  have hc' : (Certificates.delivered s h.port).guestCore (fnOf h) die = some c := hc
  change execGSlotreq s = _
  simp only [execGSlotreq, State.withRx_arrives ha, hv', if_true, hc', State.answer_eq]
  rfl

theorem exec_gSlotreq_busy (hc : s.guestCore h.vf.toNat die = none) :
    exec .gSlotreq s = .next (answered (Certificates.delivered s h.port) h .slotbsy) := by
  have hv' : (vfOfCtx ctxn == fnOf h) = true := beq_iff_eq.2 hv
  have hc' : (Certificates.delivered s h.port).guestCore (fnOf h) die = none := hc
  change execGSlotreq s = _
  simp only [execGSlotreq, State.withRx_arrives ha, hv', if_true, hc', State.answer_eq]

end

/-! ## A thread leaves its group, bin or queue (R43) -/

/-- Two states that differ at most in threads, groups, bins, the overflow queue and the count of identifiers. -/
def State.FilesOnly (s y : State) : Prop :=
  y = { s with threads := y.threads, groups := y.groups, bins := y.bins, overflow := y.overflow, fresh := y.fresh }

theorem State.FilesOnly.refl (s : State) : s.FilesOnly s := rfl

theorem State.FilesOnly.trans {s y z : State} (h : s.FilesOnly y) (h' : y.FilesOnly z) : s.FilesOnly z := by
  unfold State.FilesOnly at *
  rw [h', h]

theorem State.filesOnly_formGroup (s : State) (c : Nat) (ks : List Key) : s.FilesOnly (s.formGroup c ks) := by
  unfold State.formGroup
  split <;> rfl

theorem State.filesOnly_refillBins (c n : Nat) (s : State) : s.FilesOnly (s.refillBins c n) := by
  induction n generalizing s with
  | zero => exact .refl s
  | succ n ih =>
    unfold State.refillBins
    split
    · exact .refl s
    split
    · exact .refl s
    dsimp only
    split
    · refine State.FilesOnly.trans (State.FilesOnly.trans ?_ (State.filesOnly_formGroup _ _ _)) (ih _)
      rfl
    · refine State.FilesOnly.trans ?_ (ih _)
      rfl

theorem State.filesOnly_refillAll (s : State) : s.FilesOnly s.refillAll := by
  unfold State.refillAll
  generalize (s.overflow.map (·.core)).dedup = l
  induction l generalizing s with
  | nil => exact .refl s
  | cons c l ih => exact State.FilesOnly.trans (State.filesOnly_refillBins c _ s) (ih _)

theorem State.filesOnly_unqueue (s : State) (k : Key) : s.FilesOnly (s.unqueue k) := by
  refine State.FilesOnly.trans ?_ (State.filesOnly_refillAll _)
  rfl

/-- Threads that the overflow queue held may have become ready (R43, R44). -/
theorem State.refillAll_ready (s : State) : ∃ p : Key → Bool, ∀ k, s.refillAll.thread k
    = (s.thread k).map (fun t => if p k then { t with status := .ready } else t) := by
  unfold State.refillAll
  generalize (s.overflow.map (·.core)).dedup = l
  induction l generalizing s with
  | nil => exact ⟨fun _ => false, fun k => by simp⟩
  | cons c l ih =>
    obtain ⟨⟨p, hp⟩, -⟩ := State.refillBins_ready c s.overflow.length s
    obtain ⟨q, hq⟩ := ih (s.refill c)
    refine ⟨fun k => p k || q k, fun k => ?_⟩
    rw [List.foldl_cons, hq, State.refill, hp, Option.map_map]
    congr 1
    funext t
    cases hpk : p k <;> cases hqk : q k <;> simp [hpk, hqk]

/-- A thread's leaving its group, bin or queue changes at most the status of others. -/
theorem State.thread_unqueue (s : State) (k j : Key) :
    ∃ st : Status → Status, (s.unqueue k).thread j = (s.thread j).map (fun u => { u with status := st u.status }) := by
  obtain ⟨p, hp⟩ := State.refillAll_ready ({ s with
    groups := (s.groups.map (fun g => { g with threads := g.threads.filter (· != k) })).filter (fun g => !g.threads.isEmpty)
    bins := (s.bins.map (fun b => { b with threads := b.threads.filter (· != k) })).filter (fun b => !b.threads.isEmpty)
    overflow := s.overflow.filter (fun o => o.key != k) } : State)
  refine ⟨fun st => if p j then .ready else st, (hp j).trans ?_⟩
  refine congrArg (Option.map · (s.thread j)) (funext fun u => ?_)
  cases p j <;> rfl

/-! ## RECALL -/

section
variable {x : State} {w : Workgroup} {t : Thread}

/-- A thread that its origin has called home (R376). -/
def Thread.called (t : Thread) : Thread := { t with recalled := true }

/-- The loads of a thread that land leave it recalled. -/
theorem Thread.setRegs_recall (l : List Word) (n : Nat) (t : Thread) :
    t.called.setRegs n l = (t.setRegs n l).called := by
  induction l generalizing n t with
  | nil => rfl
  | cons v l ih =>
    have hone : t.called.setReg n v = (t.setReg n v).called := by
      unfold Thread.setReg Thread.called
      split <;> rfl
    rw [Thread.setRegs, hone, ih, Thread.setRegs]

theorem Thread.landLoads_recall (t : Thread) : t.called.landLoads = (landed t).called := by
  have hfold : ∀ (l : List LoadPending) (t : Thread), l.foldl (fun t l => t.setRegs l.dest l.data) t.called
      = (l.foldl (fun t l => t.setRegs l.dest l.data) t).called := by
    intro l
    induction l with
    | nil => intro t; rfl
    | cons y l ih => intro t; rw [List.foldl_cons, Thread.setRegs_recall, ih, List.foldl_cons]
  rw [Thread.landLoads, hfold]
  rfl

/-- The step of a guest home whose stores have been performed. -/
theorem State.recallFrom_drained (hd : Drained x t) (w : Workgroup) (pc : Dword) (done : Option Dword) : x.recallFrom w t pc done
    = (x.unqueue t.key).setThread { t.landLoads with pc, status := .transit (w.foreign.getD x.pkg) w.core done, seen := none } := by
  have hfiles := x.filesOnly_unqueue t.key
  have hcore : (x.unqueue t.key).coreOf t = x.coreOf t := by
    rw [hfiles]
    rfl
  have hdrained : Drained (x.unqueue t.key) t := by
    intro q hq
    rw [hcore]
    rw [hfiles] at hq
    exact hd q hq
  have hrelease := State.release_drained hdrained
  rw [hcore] at hrelease
  rw [State.recallFrom, hrelease]

/-- A guest that is ready or filed, and that nothing holds, goes home at once (R376). -/
theorem State.recall_now (hs : t.status = .ready ∨ t.status = .filed) (hu : Unanswered x t)
    (hl : ∀ l ∈ t.late, l.fault.code ≠ 0x0B) (hh : ∀ y ∈ x.held, y.expired = false → t.key ∉ y.keys) (w : Workgroup) :
    x.recall w t = x.recallFrom w t t.pc none := by
  have hasks : x.replies.any (fun r => r.key == t.key) = false :=
    List.any_eq_false.2 fun r hr => by simpa using hu r hr
  have hheld : x.held.any (fun h => h.keys.contains t.key && !h.expired) = false :=
    List.any_eq_false.2 fun y hy => by
      cases he : y.expired
      · simpa using hh y hy he
      · simp
  have hlate : t.late.find? (fun l => l.fault.code == 0x0B) = none :=
    List.find?_eq_none.2 fun l hl' => by simpa using hl l hl'
  unfold State.recall State.asksAway State.recallNow
  rcases hs with hs | hs <;> cases haway : t.away <;>
    simp only [hs, hasks, hheld, hlate, Bool.not_true, Bool.or_self, Bool.false_eq_true, if_false]

end

/-- A guest as RECALL sends it home. -/
def Thread.homeward (t : Thread) (w : Workgroup) (pkg : Nat) : Thread :=
  { landed t with recalled := true, status := .transit pkg w.core none, seen := none }

theorem landed_keeps (t : Thread) : (landed t).key = t.key ∧ (landed t).pc = t.pc := by
  have hfold : ∀ (l : List LoadPending) (t : Thread), (l.foldl (fun t l => t.setRegs l.dest l.data) t).key = t.key
      ∧ (l.foldl (fun t l => t.setRegs l.dest l.data) t).pc = t.pc := by
    intro l
    induction l with
    | nil => exact fun t => ⟨rfl, rfl⟩
    | cons y l ih =>
      intro t
      rw [List.foldl_cons, (ih _).1, (ih _).2]
      simp [Thread.key]
  exact hfold t.loads t

/-- RECALL of a guest that is ready or filed (R376). -/
theorem State.recall_homeward {x : State} {w : Workgroup} {t : Thread} {pkg : Nat} (hw : w.foreign = some pkg)
    (hs : t.status = .ready ∨ t.status = .filed) (hd : Drained x t) (hu : Unanswered x t) (hl : ∀ l ∈ t.late, l.fault.code ≠ 0x0B)
    (hh : ∀ y ∈ x.held, y.expired = false → t.key ∉ y.keys) :
    (x.setThread t.called).recall w t.called = ((x.setThread t.called).unqueue t.key).setThread (t.homeward w pkg) := by
  have hdrained : Drained (x.setThread t.called) t.called := hd
  rw [State.recall_now (x := x.setThread t.called) (t := t.called) hs hu hl hh, State.recallFrom_drained hdrained,
    Thread.landLoads_recall, hw]
  refine congrArg (State.setThread _) ?_
  rw [Thread.homeward, show t.called.pc = (landed t).pc from (landed_keeps t).2.symm]
  rfl

section
variable {x : State} {w : Workgroup} {t : Thread} {pkg : Nat}

/-- Nothing changes but threads, and where they are filed. -/
theorem State.filesOnly_recall (x : State) (v u : Thread) (k : Key) :
    x.FilesOnly (((x.setThread v).unqueue k).setThread u) := by
  have hfirst : x.FilesOnly (x.setThread v) := rfl
  refine (hfirst.trans (State.filesOnly_unqueue _ k)).trans ?_
  rfl

theorem State.thread_recalled_other {k j : Key} {v u : Thread} (hv : v.key = k) (hu : u.key = k) (hj : j ≠ k) :
    ∃ st : Status → Status, (((x.setThread v).unqueue k).setThread u).thread j
      = (x.thread j).map (fun y => { y with status := st y.status }) := by
  obtain ⟨st, hst⟩ := State.thread_unqueue (x.setThread v) k j
  refine ⟨st, ?_⟩
  rw [State.thread_setThread_other (by rw [hu]; exact hj), hst, State.thread_setThread_other (by rw [hv]; exact hj)]

theorem State.thread_recalled_same {k : Key} {v u y : Thread} (hv : v.key = k) (hu : u.key = k) (hk : x.thread k = some y) :
    (((x.setThread v).unqueue k).setThread u).thread k = some u := by
  subst hu
  obtain ⟨st, hst⟩ := State.thread_unqueue (x.setThread v) u.key u.key
  refine State.thread_setThread_same ?_
  have hself : (x.setThread v).thread v.key = some v := State.thread_setThread_same (by rw [hv, hk]; rfl)
  rw [hst, ← hv, hself]
  rfl

end

end Sys2Proof.Machine
end

section
namespace Sys2Proof.Proofs

open Sys2Proof Machine Certificates

/-- An instruction that acts on a flit that its port delivers, and on nothing else. -/
def TakesFlit (g : State → Out1) : Prop := ∃ f, ∀ s, g s = State.withRx s f

theorem takesFlit_withRx (f : State → Flit → State) : TakesFlit (fun s => s.withRx f) := ⟨f, fun _ => rfl⟩

theorem takesFlit_serveIf (p : FlitBody → Bool) : TakesFlit (fun s => s.serveIf p) := takesFlit_withRx _

/-- The instructions that act on a flit, with their meanings. -/
def flitInstrs : List (Instr × (State → Out1)) :=
  [(Instr.malformedGnoipFlit, execMalformedGnoipFlit), (Instr.gRead, execGRead), (Instr.gWrite, execGWrite),
    (Instr.gAtomic, execGAtomic), (Instr.gCell, execGCell), (Instr.gGraphop, execGGraphop),
    (Instr.gFlush, execGFlush), (Instr.gData, execGData), (Instr.gAck, execGAck),
    (Instr.gNeg, execGNeg), (Instr.gGraphres, execGGraphres), (Instr.gSlotreq, execGSlotreq),
    (Instr.gSlotgnt, execGSlotgnt), (Instr.gSlotbsy, execGSlotbsy), (Instr.gCont, execGCont),
    (Instr.gRecall, execGRecall), (Instr.gElem, execGElem), (Instr.gCells, execGCells),
    (Instr.gCodebook, execGCodebook), (Instr.gDone, execGDone)]

theorem takesFlit_of_mem {p : Instr × (State → Out1)} (hp : p ∈ flitInstrs) : TakesFlit p.2 ∧ exec p.1 = p.2 := by
  unfold flitInstrs at hp
  fin_cases hp <;> refine ⟨?_, rfl⟩ <;> dsimp only
  exacts [takesFlit_withRx _, takesFlit_serveIf _, takesFlit_serveIf _, takesFlit_serveIf _, takesFlit_serveIf _, takesFlit_withRx _,
    takesFlit_serveIf _, takesFlit_withRx _, takesFlit_withRx _, takesFlit_withRx _, takesFlit_withRx _, takesFlit_withRx _,
    takesFlit_withRx _, takesFlit_withRx _, takesFlit_withRx _, takesFlit_withRx _, takesFlit_withRx _, takesFlit_withRx _,
    takesFlit_withRx _, takesFlit_withRx _]

/-- A request of the hedge is held, so that a later one waits for it (R430). -/
theorem State.peerWaits_held {s : State} {h p : FlitHdr} {y : Held} (hy : y ∈ s.held) (he : y.expired = false)
    (hby : y.by' = .peer p) (hpkg : p.spkg = h.spkg) (hvf : p.vf = h.vf) : s.peerWaits h = true := by
  have hheld : s.held.any (fun x => !x.expired && (match x.by' with | .peer p => sameHedge p h | _ => false)) = true :=
    List.any_eq_true.2 ⟨y, hy, by simp [he, hby, sameHedge, hpkg, hvf]⟩
  unfold State.peerWaits
  rw [Bool.or_eq_true, Bool.or_eq_true]
  exact Or.inl (Or.inl hheld)

/-- What RECALL of another package does to its guest (R376). -/
theorem gRecall_homeward {s : State} {h : FlitHdr} {ctxn tidx : Nat} {lin : Word} {w : Workgroup} {t : Thread}
    (ha : Arrives s h (.recall ctxn lin tidx))
    (hw : s.wgs.find? (fun y => y.foreign == some h.spkg.toNat && y.ctxn == ctxn && y.wgx == lin) = some w)
    (ht : s.thread ⟨w.id, tidx⟩ = some t) (hs : t.status = .ready ∨ t.status = .filed) (hd : Drained s t) (hu : Unanswered s t)
    (hl : ∀ l ∈ t.late, l.fault.code ≠ 0x0B) (hh : ∀ y ∈ s.held, y.expired = false → ⟨w.id, tidx⟩ ∉ y.keys) :
    exec .gRecall s = .next ((((delivered s h.port).setThread t.called).unqueue ⟨w.id, tidx⟩).setThread
      (t.homeward w h.spkg.toNat)) := by
  have hkey := State.thread_key ht
  have hforeign : w.foreign = some h.spkg.toNat := by
    have hfound := List.find?_some hw
    simp only [Bool.and_eq_true, beq_iff_eq] at hfound
    exact hfound.1.1
  have hw' : (delivered s h.port).wgs.find? (fun y => y.foreign == some h.spkg.toNat && y.ctxn == ctxn && y.wgx == lin) = some w := hw
  have ht' : (delivered s h.port).thread ⟨w.id, tidx⟩ = some t := ht
  rw [← hkey] at hh
  have hrecall := State.recall_homeward (x := delivered s h.port) hforeign hs hd hu hl hh
  change execGRecall s = _
  simp only [execGRecall, State.withRx_arrives ha, hw', ht']
  rw [hkey] at hrecall
  exact congrArg Host.Outcome.next hrecall

/-- Settles O53: a flit that arrives is taken from its port in one way, and each kind of request is served from the state that the
port leaves. -/
theorem packageRequests : Obligations.PackageRequests := by
  intro s h x bytes refused
  have hbytes : ∀ pa n, bytes pa n = memGetN s.mem pa n := fun pa n => (memGetN_eq_map_range s.mem pa n).symm
  refine ⟨?read, ?write, ?atomic, ?cell, ?graphop, ?flush, ?slotreq, ?guest, ?unheard⟩
  case read =>
    intro pa n sem hpa ha
    refine ⟨fun hp => ?_, fun hn ht hw => refused_of (fun r hr => ?_) hn ht⟩
    · rw [exec_gRead hp.turn ha, State.serveRead_performs (hp.delivered h.port)]
      rfl
    · rw [exec_gRead hw ha, State.serveRead_refused hpa hr]
  case write =>
    intro pa sem b hpa ha
    refine ⟨fun hp => peerStores_write hp ha, fun hn ht hw => refused_of (fun r hr => ?_) hn ht, fun ho hw => ?_⟩
    · rw [exec_gWrite hw ha, State.serveWrite_refused hpa hr]
    · change execGWrite s = _
      unfold execGWrite
      exact State.serveIf_waits ha rfl hw ho
  case atomic =>
    intro pa op ret sem opnd hp h4 ha old back
    have hold : old = s.word pa := congrArg (fun b => BitVec.ofNat 32 (leNat b)) (hbytes pa 4)
    refine ⟨fun hop => ?_, fun h9 heq => ?_, fun h9 hne => ?_⟩
    · rw [hbytes]
      exact peerStores_atomic hp h4 ha hop
    · have hst := peerStores_cas hp h4 ha h9
      have heq' : s.word pa = bits opnd 31 0 := hold.symm.trans heq
      rw [if_pos heq', if_pos heq'] at hst
      rw [hbytes]
      exact hst
    · have hst := peerStores_cas hp h4 ha h9
      have hne' : s.word pa ≠ bits opnd 31 0 := fun heq => hne (hold.trans heq)
      rw [if_neg hne', if_neg hne'] at hst
      rw [hbytes]
      exact hst
  case cell =>
    intro pa op fmt sem v hp h32 ha
    refine ⟨?_, ?_, ?_⟩ <;> rintro rfl
    · rw [hbytes]
      exact peerStores_cellAdd hp h32 ha
    · exact exec_gCell_read hp h32 ha
    · exact peerStores_cellClear hp h32 ha
  case graphop =>
    intro insn w2 a b c ctxn ca cb ha
    refine ⟨fun hno => ?_, fun f d v hex hopc hv hd ht hr hidx hvert hk => ?_, fun f hex hopc hv => ?_⟩
    · have hop : graphopOf insn w2 = none := by simp only [graphopOf, hno, Option.bind_none]
      obtain ⟨y, hlog, hy⟩ := State.discardFlit_logs x h 0 5
      refine ⟨y, hlog, ?_⟩
      rw [exec_gGraphop ha (State.graphReply_malformed hop), ← State.delivered_eq]
      exact congrArg _ hy
    · obtain ⟨n, hreply⟩ := State.graphReply_vget (c := c) (ca := ca) (graphopOf_vget hex hopc) hv hd ht hr hvert hk
      exact ⟨_, n, 0, bits_gval _, exec_gGraphop ha hreply⟩
    · exact exec_gGraphop ha (State.graphReply_otherHedge (graphopOf_vget hex hopc) hv)
  case flush =>
    intro ha
    refine ⟨fun hw => exec_gFlush hw ha, fun y hy p he hby hpkg hvf => ?_⟩
    change execGFlush s = _
    unfold execGFlush
    exact State.serveIf_waits ha (beq_self_eq_true _) (State.peerWaits_held hy he hby hpkg hvf) rfl
  case slotreq =>
    intro ctxn die ha hv cores
    refine ⟨fun hfree => ?_, fun hfull => exec_gSlotreq_busy ha hv (State.guestCore_none hfull)⟩
    obtain ⟨c, hc, hmem, hroom⟩ := State.guestCore_free hfree
    exact ⟨c, _, hmem, hroom, exec_gSlotreq_granted ha hv hc⟩
  case guest =>
    intro ctxn lin tidx w t ha hw ht hs hd hu hl hh
    have hexec := gRecall_homeward ha hw ht hs hd hu hl hh
    have hkey := State.thread_key ht
    have hhome : (t.homeward w h.spkg.toNat).key = ⟨w.id, tidx⟩ := (landed_keeps t).1.trans hkey
    exact ⟨_, hexec, State.thread_recalled_same hkey hhome ht, fun k hk => State.thread_recalled_other hkey hhome hk,
      State.filesOnly_recall _ _ _ _⟩
  case unheard =>
    intro i hi
    obtain ⟨p, hp, rfl⟩ := List.mem_map.1 (show i ∈ flitInstrs.map Prod.fst from hi)
    obtain ⟨⟨f, hf⟩, hexec⟩ := takesFlit_of_mem hp
    rw [hexec, hf]
    refine ⟨State.withRx_none, fun r hr => ⟨State.withRx_unheard hr, fun hup hseq hbody => ?_⟩⟩
    obtain ⟨y, hlog, hy⟩ := State.discardFlit_logs (delivered s r.port) r.hdr r.vc r.ty
    exact ⟨y, hlog, (State.withRx_malformed hr hup hseq hbody).trans (congrArg Host.Outcome.next hy)⟩

end Sys2Proof.Proofs
end

section
/-! SUPPORT. A fault of a lone thread (R300 to R304): it leaves the group at execution and its joins as they are, and the thread
parked, under way or filed, so that nothing more happens at the end of the instruction. -/

namespace Sys2Proof.Machine

/-! ## What posting a record leaves -/

/-- Two states with one group at execution, and with the same groups that wait for their threads. -/
structure State.KeepsIssue (s x : State) : Prop where
  cur : x.cur = s.cur
  joins : x.joins = s.joins

theorem State.KeepsIssue.refl (s : State) : s.KeepsIssue s := ⟨rfl, rfl⟩

theorem State.KeepsIssue.trans {s x y : State} (h : s.KeepsIssue x) (h' : x.KeepsIssue y) : s.KeepsIssue y :=
  ⟨h'.cur.trans h.cur, h'.joins.trans h.joins⟩

theorem State.KeepsIssue.foldl {α : Type} {f : State → α → State} (hf : ∀ (s : State) a, s.KeepsIssue (f s a)) (l : List α)
    (s : State) : s.KeepsIssue (l.foldl f s) := by
  induction l generalizing s with
  | nil => exact .refl s
  | cons a l ih => exact (hf s a).trans (ih (f s a))

theorem State.StoresOnly.keepsIssue {s x : State} (h : s.StoresOnly x) : s.KeepsIssue x := ⟨h.cur, h.joins⟩

/-- A write that meets uncorrectable data writes nothing (R195). -/
theorem State.eq_of_physWrite_bad {s x : State} {vf pa : Nat} {op : MemOp} {now : Bool} (h : s.physWrite vf pa op now = .bad x) :
    x = s := by
  unfold State.physWrite at h
  split at h
  · unfold State.cmpWrite at h
    split at h
    · cases h
      rfl
    split at h
    · cases h
      rfl
    dsimp only at h
    split_ifs at h
  · unfold State.plainWrite at h
    split at h
    · cases h
    · split at h
      · cases h
        rfl
      · dsimp only at h
        split at h <;> cases h

theorem State.keepsIssue_devPiece (s : State) (vf pa : Nat) (d : List Byte) : s.KeepsIssue (s.devPiece vf pa d).1 := by
  unfold State.devPiece
  dsimp only
  split
  · exact ⟨rfl, rfl⟩
  · split
    · next h => exact (State.writesOnly_physWrite h).1.keepsIssue
    · next h =>
      rw [State.eq_of_physWrite_bad h]
      exact .refl s
    · exact ⟨rfl, rfl⟩

theorem State.keepsIssue_putHost (s : State) (x : Nat × Option Nat) (pa : Nat) (b : List Byte) :
    s.KeepsIssue (s.putHost x pa b) := by
  unfold State.putHost
  split
  · exact ⟨rfl, rfl⟩
  · refine State.KeepsIssue.foldl ?_ _ s
    exact fun _ _ => ⟨rfl, rfl⟩

/-- The write of an event log entry (R440). -/
theorem State.keepsIssue_writeLog (s : State) (code die vf : Nat) (detail : List Nat) :
    s.KeepsIssue (s.writeLog code die vf detail) := by
  have htick : s.KeepsIssue (s.tickDie die) := ⟨rfl, rfl⟩
  have htold : ∀ (y : State) (m : Mgmt), y.KeepsIssue (({ y with mgmt := m } : State).msix vf 3) := fun _ _ => ⟨rfl, rfl⟩
  refine State.KeepsIssue.trans (htick.trans ?_) (htold _ _)
  split
  · exact State.keepsIssue_putHost _ _ _ _
  · refine State.KeepsIssue.foldl ?_ _ _
    exact fun s x => s.keepsIssue_devPiece 0 x.1 x.2

theorem State.keepsIssue_logEvent (s : State) (code die vf : Nat) (detail : List Nat) :
    s.KeepsIssue (s.logEvent code die vf detail) := by
  have hdropped : s.KeepsIssue s.logDropped := by
    unfold State.logDropped
    split
    · have hreset : s.KeepsIssue { s with mgmt := { s.mgmt with dropped := 0 } } := ⟨rfl, rfl⟩
      exact hreset.trans (State.keepsIssue_writeLog _ _ _ _ _)
    · exact .refl s
  unfold State.logEvent
  dsimp only
  split
  · exact hdropped.trans (State.keepsIssue_writeLog _ _ _ _ _)
  · exact hdropped.trans ⟨rfl, rfl⟩

theorem State.keepsIssue_devStore (s : State) (vf pa : Nat) (d : List Byte) : s.KeepsIssue (s.devStore vf pa d) := by
  refine .foldl (fun s x => ?_) _ s
  dsimp only
  split
  · refine (s.keepsIssue_devPiece vf x.1 x.2).trans ?_
    unfold State.logBad
    split <;> exact State.keepsIssue_logEvent _ _ _ _ _
  · exact s.keepsIssue_devPiece vf x.1 x.2

theorem State.keepsIssue_writeRecord (s : State) (c : Context) (body : List Byte) : s.KeepsIssue (s.writeRecord c body) := by
  unfold State.writeRecord
  split
  · exact .refl s
  · exact (s.keepsIssue_devStore _ _ _).trans ⟨rfl, rfl⟩

/-- A record is posted, or waits for room (R302). -/
theorem State.postRecord_keeps (s : State) (ctxn : Nat) (body : List Byte) (keys : List Key) :
    s.KeepsIssue (s.postRecord ctxn body keys).1 ∧ s.sameRuns (s.postRecord ctxn body keys).1 := by
  unfold State.postRecord
  dsimp only
  split
  · exact ⟨s.keepsIssue_writeRecord _ _, s.writeRecord_keeps _ _⟩
  · exact ⟨⟨rfl, rfl⟩, rfl, rfl, rfl⟩

/-! ## What becomes of the thread -/

/-- A thread has left its instruction, and does not wait at it together with the others of its group (R40). -/
structure State.Leaves (s x : State) (k : Key) : Prop extends s.KeepsIssue x where
  apart : (x.thread k).any Thread.together = false

/-- A thread that is put back with a status in which it does not wait with its group. -/
theorem State.leaves_setThread {s x : State} {u : Thread} (hx : s.KeepsIssue x) (hlive : (x.thread u.key).isSome = true)
    (hu : u.together = false) : s.Leaves (x.setThread u) u.key where
  toKeepsIssue := hx.trans ⟨rfl, rfl⟩
  apart := by rw [State.thread_setThread_same hlive, Option.any_some, hu]

theorem State.leaves_fileThread {s x : State} {u : Thread} (hx : s.KeepsIssue x) (hlive : (x.thread u.key).isSome = true)
    (tag : BitVec 4) : s.Leaves (x.fileThread u tag) u.key := by
  have hrest := x.fileThread_rest u tag
  have hcur : (x.fileThread u tag).cur = x.cur := by
    have h := congrArg State.cur hrest
    exact h
  have hjoins : (x.fileThread u tag).joins = x.joins := by
    have h := congrArg State.joins hrest
    exact h
  refine ⟨hx.trans ⟨hcur, hjoins⟩, ?_⟩
  obtain ⟨st, hst, hthread⟩ := x.fileThread_same u tag hlive
  rw [hthread]
  rcases hst with rfl | rfl <;> rfl

/-- A trapping fault is delivered (R304, R305, R375). -/
theorem State.leaves_deliver {s x : State} {t : Thread} (hx : s.KeepsIssue x) (hlive : (x.thread t.key).isSome = true)
    (w : Workgroup) (r : Raise) (latch : BitVec 512) : s.Leaves (x.deliver w t r latch) t.key := by
  have hrelease : ∀ core, s.KeepsIssue (x.release core t.key) ∧ ((x.release core t.key).thread t.key).isSome = true := by
    intro core
    have hstores := x.storesOnly_release core t.key
    exact ⟨hx.trans hstores.keepsIssue, by rw [hstores.thread, hlive]⟩
  unfold State.deliver
  split
  · exact State.leaves_setThread (u := { t with status := .transit (w.foreign.getD x.pkg) w.core none, hops := 0, seen := none })
      (hrelease _).1 (hrelease _).2 rfl
  have hhome : s.KeepsIssue (if t.away.isSome then x.release (x.coreOf t) t.key else x)
      ∧ ((if t.away.isSome then x.release (x.coreOf t) t.key else x).thread t.key).isSome = true := by
    split
    · exact hrelease _
    · exact ⟨hx, hlive⟩
  dsimp only
  generalize (if t.away.isSome = true then x.release (x.coreOf t) t.key else x) = y at hhome ⊢
  obtain ⟨hy, hylive⟩ := hhome
  split
  · obtain ⟨hkeeps, hapart⟩ := State.leaves_setThread (u := t.atHome.parkForever r) hy hylive rfl
    exact ⟨hkeeps.trans ⟨rfl, rfl⟩, hapart⟩
  · next u hu =>
    have hkey : u.key = t.key := by
      unfold Thread.enter at hu
      split at hu
      · cases hu
      · cases hu
        rfl
    rw [← hkey] at hylive ⊢
    exact State.leaves_fileThread hy hylive 0

/-- A thread is parked, or enters its handler (R303, R304). -/
theorem State.leaves_settleFault {s x : State} {t : Thread} (hx : s.KeepsIssue x) (ht : x.thread t.key = some t) {w : Workgroup}
    (hw : x.wg t.wg = some w) (debug : Bool) (r : Raise) (body : List Byte) (seq : Option Word) :
    s.Leaves (x.settleFault debug r body seq t.key) t.key := by
  have hlive : (x.thread t.key).isSome = true := by rw [ht]; rfl
  have hw' : x.wg t.key.wg = some w := hw
  have hpark : ∀ (i : Word) (kind : ParkKind), s.Leaves (x.setThread { t with
      insn := i, seen := none, status := .parked { kind, fault := r, body, seq } }) t.key :=
    fun _ _ => State.leaves_setThread (u := { t with insn := _, seen := none, status := .parked _ }) hx hlive rfl
  unfold State.settleFault
  simp only [ht, hw']
  split
  · exact hpark _ _
  split
  · exact hpark _ _
  split
  · exact hpark _ _
  · exact State.leaves_deliver (t := { t with insn := _, seen := none }) hx hlive w r _

/-- A fault that no table or operand with an error has caused. -/
theorem State.leaves_raise {s : State} {t : Thread} {w : Workgroup} (ht : s.thread t.key = some t) (hw : s.wg t.wg = some w)
    (core pkg : Nat) (insn : Word) {r : Raise} (hr : r.code ∉ [1, 2, 3, 0x0C]) :
    s.Leaves (s.raise core pkg insn [t.key] r) t.key := by
  have hw' : s.wg t.key.wg = some w := hw
  unfold State.raise
  simp only [List.head?_cons, Option.bind_some, ht, hw', State.logFault_quiet s core w r hr, List.foldl_cons, List.foldl_nil]
  generalize recordBody _ _ _ _ _ _ _ _ = body
  obtain ⟨hkeeps, hthreads, hwgs, -⟩ := s.postRecord_keeps w.ctxn body [t.key]
  refine State.leaves_settleFault (w := w) hkeeps ?_ ?_ _ r body _
  · rw [State.thread, hthreads]
    exact ht
  · rw [State.wg, hwgs]
    exact hw

/-! ## The end of the instruction -/

/-- A thread that is alone and faults: the fault is raised, and nothing else happens. -/
theorem forThreads_fault {i : Instr} {s x : State} {t : Thread} {w : Workgroup} (h : i.Alone s t w)
    {body : State → Workgroup → Thread → Res} {r : Raise} (hb : body s w t = .fault x r)
    (hl : s.Leaves (x.raiseCur t.key r) t.key) : s.forThreads i body = x.raiseCur t.key r := by
  have hparted : s.parted (x.raiseCur t.key r, []) = false := by
    refine State.parted_not (by simpa [h.keys] using h.joins) fun k hk => .inr ?_
    rw [h.keys, List.mem_singleton] at hk
    rw [hk]
    exact hl.apart
  unfold State.forThreads
  rw [stepThread_alone h, hb]
  simp only [hparted, Bool.false_eq_true, if_false]
  exact finish_none (by rw [hl.cur, h.keys]) (by rw [hl.joins]; exact h.joins) hl.apart

/-- An instruction of a lone thread that faults before it changes anything. -/
theorem exec_fault_of_alone {i : Instr} {s : State} {t : Thread} {w : Workgroup} {body : State → Workgroup → Thread → Res}
    {r : Raise} (h : i.Alone s t w) (hexec : exec i s = .next (s.forThreads i body)) (hb : body s w t = .fault s r)
    (hr : r.code ∉ [1, 2, 3, 0x0C]) : exec i s = .next (s.raiseCur t.key r) := by
  rw [hexec, forThreads_fault h hb (State.leaves_raise h.thread h.wg _ _ _ hr)]

end Sys2Proof.Machine
end

section
/-! SUPPORT. Calls and returns (R213 to R220): the window of return addresses, and the accesses of the spill area. -/

namespace Sys2Proof.Machine

open Certificates

/-! ## The window (R213, R216) -/

/-- A thread that takes a branch, and leaves those of its group that do not (R40). -/
def Thread.branching (t : Thread) : Thread := { t with took := true }

/-- What it reaches does not depend on that. -/
theorem sound_branching {s : State} {t : Thread} {pa n : Nat} (h : Sound s t pa n) : Sound s t.branching pa n :=
  ⟨h.plain, h.first, h.queue, h.link, h.clean, h.held⟩

/-- A call with room in its window pushes the return address and goes to its target. -/
theorem State.spill_push {t : Thread} (h : t.win.length < 4) (s : State) (w : Workgroup) (i : Instr) (tgt : Dword) :
    s.spill w t i tgt = .go s { t with win := t.win ++ [pcAfter t.pc i.words], pc := tgt } := if_pos h

/-- A return with an entry in its window pops the newest, where it is aligned. -/
theorem State.popReturn_pop {t : Thread} {ra : Dword} (h : t.win.getLast? = some ra) (ha : bits ra 1 0 = 0) (s : State)
    (w : Workgroup) : s.popReturn w t = .go s { t with win := t.win.dropLast, pc := ra } := by
  simp [State.popReturn, h, ha]

/-- CALL with room in the window. -/
theorem call_turns (off : BitVec 22) (fm : Form) :
    Turns (.call off fm) (fun _ t => t.win.length < 4) (fun _ t =>
      { t with win := t.win ++ [t.pc + BitVec.ofNat 64 (4 * fm.words)], pc := t.pc + off.signExtend 64 * 4 }) := by
  refine turns_of_exec_forBranch (fun _ => rfl) (fun _ _ => rfl) fun s w t hroom => ?_
  rw [branchTo_eq_mul]
  exact State.spill_push (t := t.branching) hroom s w _ _

/-- An aligned target passes the check of CALLR (R67). -/
theorem callr_aligned {f : V3} {w : Workgroup} {t : Thread} (h : bits (f.srcB64 w t) 1 0 = 0) (fault go : Res) :
    (if (bits (f.srcB64 w t) 1 0 != 0) = true then fault else go) = go := if_neg (by simp [h])

/-- CALLR with room in the window. -/
theorem callr_turns (f : V3) :
    Turns (.callr f) (fun w t => t.win.length < 4 ∧ bits (f.srcB64 w t) 1 0 = 0) (fun w t =>
      { t with win := t.win ++ [t.pc + BitVec.ofNat 64 (4 * f.fm.words)], pc := f.srcB64 w t }) := by
  refine turns_of_exec_forBranch (fun _ => rfl) (fun _ _ => rfl) fun s w t ⟨hroom, haligned⟩ => ?_
  exact (callr_aligned (t := t.branching) haligned _ _).trans
    (State.spill_push (t := t.branching) hroom s w _ _)

/-- RET with an entry in the window. -/
theorem ret_turns (fm : Form) :
    Turns (.ret fm) (fun _ t => ∃ ra, t.win.getLast? = some ra ∧ bits ra 1 0 = 0) (fun _ t =>
      { t with win := t.win.dropLast, pc := t.win.getLast?.getD 0 }) := by
  refine turns_of_exec_forBranch (fun _ => rfl) (fun _ _ => rfl) fun s w t ⟨ra, hlast, haligned⟩ => ?_
  rw [hlast]
  exact State.popReturn_pop (t := t.branching) hlast haligned s w

/-! ## Places of main memory (R190, R194) -/

/-- An aligned access of main memory is aligned at its place too: a page is no smaller than what it is aligned to. -/
theorem State.aligned_of_checkEa {s : State} {w : Workgroup} {x : Site} {k : AccessKind} {base ea : Dword} {pa m : Nat} {ord : Bool}
    (h : s.checkEa w x k base ea = .ok ⟨.main pa, ord⟩) (hk : k.align = 2 ^ m) (hm : m ≤ 16) : pa % 2 ^ m = 0 := by
  unfold State.checkEa at h
  split at h
  · cases h
  obtain ⟨halign, ctxn, root, l, hl, rfl⟩ := State.checkVa_main h
  obtain ⟨frame, size, hpa⟩ := State.leaf_pa hl
  rw [hk] at halign
  have hva : 2 ^ m ∣ (vaOf ea).toNat := (Nat.dvd_mod_iff (Nat.pow_dvd_pow 2 (by omega))).1 (Nat.dvd_of_mod_eq_zero halign)
  have hoff : 2 ^ m ∣ (vaOf ea).toNat % 2 ^ size := by
    rcases Nat.le_total m size with hs | hs
    · exact (Nat.dvd_mod_iff (Nat.pow_dvd_pow 2 hs)).2 hva
    · rw [Nat.mod_eq_zero_of_dvd ((Nat.pow_dvd_pow 2 hs).trans hva)]
      exact Nat.dvd_zero _
  have hframe : 2 ^ m ∣ frame * 65536 := Dvd.dvd.mul_left (Nat.pow_dvd_pow 2 hm) frame
  rw [hpa]
  exact Nat.mod_eq_zero_of_dvd (Nat.dvd_add hframe hoff)

/-- A leaf with ORD refuses an access that no ORD page takes (R193, R196). -/
theorem State.placeOf_ord {s : State} {ctxn : Nat} {k : AccessKind} {acc : Bool} {l : Leaf} {p : Loc}
    (h : s.placeOf ctxn k acc l = some p) (hk : k.ordOk = false) : l.ord = false := by
  unfold State.placeOf at h
  split at h
  · cases h
  · next hpass =>
    simp only [hk, Bool.not_false, Bool.and_true, Bool.not_eq_true, Bool.or_eq_false_iff] at hpass
    exact hpass.2

/-- An access that no ORD page takes, and that passes its checks, lands in a page without ORD (R193, R194). -/
theorem State.ord_of_checkEa {s : State} {w : Workgroup} {x : Site} {k : AccessKind} {base ea : Dword} {g : Target}
    (h : s.checkEa w x k base ea = .ok g) (hk : k.ordOk = false) : g.ord = false := by
  unfold State.checkEa at h
  split at h
  · cases h
  unfold State.checkVa at h
  dsimp only at h
  split at h
  · cases h
  split at h
  · cases h
  split at h
  · split_ifs at h
  split at h
  · cases h
  split at h
  · split_ifs at h
    cases h
    rfl
  split at h
  · split_ifs at h
    cases h
    rfl
  split at h
  · cases h
  split at h
  · split_ifs at h
  split at h
  · cases h
  split at h
  · split_ifs at h
  split at h
  · cases h
  next hp =>
  cases h
  exact State.placeOf_ord hp (by simp [hk])

/-- A lone thread reads bytes of one block that it reaches as they stand in memory: no store of its own lies over them (R202). -/
theorem State.readMain_sound {s : State} {t : Thread} {pa n : Nat} (hs : Sound s t pa n) (hn : pa % 1024 + n ≤ 1024) (vf : Nat) :
    s.readMain t vf pa n false = .got s (memGetN s.mem pa n) := by
  have hread : s.physRead pa n = some (memGetN s.mem pa n) := by
    rw [State.physRead_plain hs.plain hn hs.clean, memGetN_eq_map_range]
  have hview : s.coreView (s.coreOf t) t.key pa (memGetN s.mem pa n) = memGetN s.mem pa n := by
    simp [State.coreView, State.coreOrder_drained hs.queue, State.queueOf_drained hs.queue]
  have hover : s.overlay (.thread t.wg t.tidx) pa (memGetN s.mem pa n) = memGetN s.mem pa n := by
    have hnone : s.held.filter (fun h => h.by' == .thread t.wg t.tidx) = [] :=
      List.filter_eq_nil_iff.2 fun h hh => by simpa using hs.held h hh
    rw [State.overlay, hnone]
    rfl
  simp only [State.readMain, hs.link, hread, hview, hover, Bool.not_true, Bool.false_eq_true, if_false, Bool.false_and]

/-! ## The checks of a spill or a refill (R194, R216; log entry 57) -/

theorem State.spillCheck_gen {t : Thread} (h : bits t.stktop 63 60 = 0) (s : State) (w : Workgroup) (write : Bool) (ea : Dword) :
    s.spillCheck w t write ea = s.checkEa w (atCore (s.coreOf t)) (spillKind write) ea ea := by
  have hpath : eaPath t.stktop = 0 := congrArg BitVec.toNat h
  simp [State.spillCheck, hpath]

theorem State.spillCheck_path {t : Thread} (h : bits t.stktop 63 60 ≠ 0) (s : State) (w : Workgroup) (write : Bool) (ea : Dword) :
    s.spillCheck w t write ea = .error (dataFault 0x04 (vaOf ea) 8 false) := by
  have hpath : eaPath t.stktop ≠ 0 := fun h0 => h (BitVec.eq_of_toNat_eq h0)
  simp [State.spillCheck, hpath]

/-- The access of a thread that no response waits for, by its checks. -/
theorem State.access_ok {s : State} {t : Thread} (hu : Unanswered s t) {check : Except Raise Target} {g : Target}
    (h : check = .ok g) (go : Target → Acc) : s.access t.key check go = .ok (go g) := by
  simp only [State.access, State.takeReplies_unanswered hu, h]

theorem State.access_error {s : State} {t : Thread} (hu : Unanswered s t) {check : Except Raise Target} {r : Raise}
    (h : check = .error r) (go : Target → Acc) : s.access t.key check go = .error r := by
  simp only [State.access, State.takeReplies_unanswered hu, h]

/-! ## A call with a full window (R216) -/

section
variable {s : State} {t : Thread} {w : Workgroup}

/-- Outside of the spill area a call faults. -/
theorem State.spill_outside (hw : t.win.length = 4) (h : t.stktop.toNat < t.stkbase.toNat ∨ t.stklim.toNat < t.stktop.toNat + 8)
    (i : Instr) (tgt : Dword) : s.spill w t i tgt = .fault s (trapOf 0x0D) := by
  simp [State.spill, hw, h]

section
variable (hw : t.win.length = 4) (hbase : t.stkbase.toNat ≤ t.stktop.toNat) (hlim : t.stktop.toNat + 8 ≤ t.stklim.toNat)
include hw hbase hlim

/-- On a path other than GEN a spill faults. -/
theorem State.spill_path (hpath : bits t.stktop 63 60 ≠ 0) (hu : Unanswered s t) (i : Instr) (tgt : Dword) :
    s.spill w t i tgt = .fault s (dataFault 0x04 (vaOf t.stktop) 8 false) := by
  unfold State.spill
  dsimp only
  rw [if_neg (by omega), if_neg (by simp; omega), State.access_error hu (s.spillCheck_path hpath w true t.stktop)]

/-- In plain main memory the oldest entry enters the thread's store queue. -/
theorem State.spill_queues (hpath : bits t.stktop 63 60 = 0) {pa : Nat} {ord : Bool}
    (hcheck : s.checkEa w (atCore (s.coreOf t)) (spillKind true) t.stktop t.stktop = .ok ⟨.main pa, ord⟩) (hs : Sound s t pa 8)
    (i : Instr) (tgt : Dword) : s.spill w t i tgt
      = .go (s.enqueue (s.coreOf t) t.key (vfOfCtx w.ctxn) (.main pa) (natLe 8 (t.win.headD 0).toNat))
        { t with win := t.win.drop 1 ++ [pcAfter t.pc i.words], stktop := t.stktop + 8, pc := tgt } := by
  obtain rfl : ord = false := State.ord_of_checkEa hcheck rfl
  unfold State.spill
  dsimp only
  rw [if_neg (by omega), if_neg (by simp; omega), State.access_ok hs.first ((s.spillCheck_gen hpath w true t.stktop).trans hcheck),
    State.writeAt_queues hs (length_natLe 8 _)]

end

/-! ## A return with an empty window (R216) -/

/-- Outside of the spill area a return faults. -/
theorem State.popReturn_outside (hw : t.win = []) (h : t.stktop.toNat < t.stkbase.toNat + 8 ∨ t.stklim.toNat < t.stktop.toNat) :
    s.popReturn w t = .fault s (trapOf 0x0D) := by
  simp [State.popReturn, hw, h]

section
variable (hw : t.win = []) (hbase : t.stkbase.toNat + 8 ≤ t.stktop.toNat) (hlim : t.stktop.toNat ≤ t.stklim.toNat)
include hw hbase hlim

/-- On a path other than GEN a refill faults. -/
theorem State.popReturn_path (hpath : bits t.stktop 63 60 ≠ 0) (hu : Unanswered s t) :
    s.popReturn w t = .fault s (dataFault 0x04 (vaOf (t.stktop - 8)) 8 false) := by
  unfold State.popReturn
  rw [List.getLast?_eq_none_iff.2 hw]
  dsimp only
  rw [if_neg (by simp; omega), State.access_error hu (s.spillCheck_path hpath w false (t.stktop - 8))]

/-- From plain main memory a return refills the newest spilled entry, where it is aligned. -/
theorem State.popReturn_refills (hpath : bits t.stktop 63 60 = 0) {pa : Nat} {ord : Bool}
    (hcheck : s.checkEa w (atCore (s.coreOf t)) (spillKind false) (t.stktop - 8) (t.stktop - 8) = .ok ⟨.main pa, ord⟩)
    (hs : Sound s t pa 8) (ha : bits (BitVec.ofNat 64 (leNat (memGetN s.mem pa 8))) 1 0 = 0) :
    s.popReturn w t = .go s { t with stktop := t.stktop - 8, pc := BitVec.ofNat 64 (leNat (memGetN s.mem pa 8)) } := by
  obtain rfl : ord = false := State.ord_of_checkEa hcheck rfl
  have haligned : pa % 2 ^ 3 = 0 := State.aligned_of_checkEa hcheck rfl (by decide)
  have hread : s.readAt w t ⟨.main pa, false⟩ 8 0 false = .got s (memGetN s.mem pa 8) :=
    State.readMain_sound hs (by omega) (vfOfCtx w.ctxn)
  unfold State.popReturn
  rw [List.getLast?_eq_none_iff.2 hw]
  dsimp only
  rw [if_neg (by simp; omega), State.access_ok hs.first ((s.spillCheck_gen hpath w false (t.stktop - 8)).trans hcheck), hread]
  exact if_neg (by simp [ha])

end

end

/-! ## The instructions -/

/-- A call and its target, which for CALLR is aligned (R215). -/
def Calls (i : Instr) (w : Workgroup) (t : Thread) (tgt : Dword) : Prop :=
  (∃ off fm, i = .call off fm ∧ tgt = t.pc + off.signExtend 64 * 4)
    ∨ (∃ f : V3, i = .callr f ∧ tgt = f.srcB64 w t ∧ bits tgt 1 0 = 0)

/-- A call of a lone thread is its push, of a thread that takes its branch (R216, R218). -/
theorem exec_calls {i : Instr} {w : Workgroup} {t : Thread} {tgt : Dword} (h : Calls i w t tgt) (s : State) :
    ∃ body, exec i s = .next (s.forThreads i body) ∧ body s w t = s.spill w t.branching i tgt := by
  obtain ⟨off, fm, rfl, rfl⟩ | ⟨f, rfl, rfl, haligned⟩ := h
  · refine ⟨_, rfl, ?_⟩
    rw [← branchTo_eq_mul]
    rfl
  · exact ⟨_, rfl, callr_aligned (t := t.branching) haligned _ _⟩

/-- A return of a lone thread is its pop, of a thread that takes its branch too. -/
theorem exec_ret (fm : Form) (w : Workgroup) (t : Thread) (s : State) :
    ∃ body, exec (.ret fm) s = .next (s.forThreads (.ret fm) body) ∧ body s w t = s.popReturn w t.branching := ⟨_, rfl, rfl⟩

end Sys2Proof.Machine
end

section
namespace Sys2Proof.Proofs

open Sys2Proof Machine Certificates

/-- The spills of calls and the refills of returns. -/
theorem callSpill : CallSpill := by
  refine fun s t w pa => ⟨fun i tgt hcalls h hwin => ?_, fun fm h hwin => ?_⟩
  · obtain ⟨body, hexec, hbody⟩ := exec_calls hcalls s
    refine ⟨fun hbase hlim hpath ⟨ord, hcheck⟩ hs => ?_, fun hbase hlim hpath hu => ?_, fun hout => ?_⟩
    · have hspill := hbody.trans (State.spill_queues (t := t.branching) hwin hbase hlim hpath hcheck (sound_branching hs) i tgt)
      have hqueued := enqueues_of_alone (out := false) h hs.queue hexec hspill (congrArg₂ Key.mk rfl rfl)
      exact hqueued
    · exact exec_fault_of_alone h hexec (hbody.trans (State.spill_path (t := t.branching) hwin hbase hlim hpath hu i tgt))
        (show (0x04 : Byte) ∉ _ by decide)
    · exact exec_fault_of_alone h hexec (hbody.trans (State.spill_outside (t := t.branching) hwin hout i tgt))
        (show (0x0D : Byte) ∉ _ by decide)
  · obtain ⟨body, hexec, hbody⟩ := exec_ret fm w t s
    refine ⟨fun hbase hlim hpath ⟨ord, hcheck⟩ hs haligned => ?_, fun hbase hlim hpath hu => ?_, fun hout => ?_⟩
    · have hrefill := State.popReturn_refills (t := t.branching) hwin hbase hlim hpath hcheck (sound_branching hs) haligned
      have hbecomes := becomes_of_alone h hexec (hbody.trans hrefill) (congrArg₂ Key.mk rfl rfl)
      exact hbecomes
    · exact exec_fault_of_alone h hexec (hbody.trans (State.popReturn_path (t := t.branching) hwin hbase hlim hpath hu))
        (show (0x04 : Byte) ∉ _ by decide)
    · exact exec_fault_of_alone h hexec (hbody.trans (State.popReturn_outside (t := t.branching) hwin hout))
        (show (0x0D : Byte) ∉ _ by decide)

/-- Settles O12: a call or a return with room in the window is a branch that moves one entry; at the ends of the window its one
access is a store that enters the thread's queue, or a load past which no store of the thread waits, and its faults change nothing
before they are raised. -/
theorem callsAndReturns : Obligations.CallsAndReturns := ⟨⟨call_turns, callr_turns, ret_turns⟩, callSpill⟩

end Sys2Proof.Proofs
end

section
/-! SUPPORT. Instructions of a lone thread that act on the rest of the state, wait, or read a tile entry with an error (R241,
R256, R443). -/

namespace Sys2Proof.Machine

open Certificates

/-! ## What an entry of the event log leaves (R440) -/

theorem State.storesOnly_devPiece (s : State) (vf pa : Nat) (d : List Byte) : s.StoresOnly (s.devPiece vf pa d).1 := by
  unfold State.devPiece
  dsimp only
  split
  · exact .of_wgs ⟨rfl, rfl, rfl, rfl⟩ rfl rfl
  · split
    · next h => exact (State.writesOnly_physWrite h).1
    · next h =>
      rw [State.eq_of_physWrite_bad h]
      exact .refl s
    · exact .of_wgs ⟨rfl, rfl, rfl, rfl⟩ rfl rfl

theorem State.storesOnly_putHost (s : State) (x : Nat × Option Nat) (pa : Nat) (b : List Byte) :
    s.StoresOnly (s.putHost x pa b) := by
  unfold State.putHost
  split
  · exact .of_wgs ⟨rfl, rfl, rfl, rfl⟩ rfl rfl
  · refine .foldl (fun s i => ?_) _ s
    exact .of_wgs ⟨rfl, rfl, rfl, rfl⟩ rfl rfl

theorem State.storesOnly_writeLog (s : State) (code die vf : Nat) (detail : List Nat) :
    s.StoresOnly (s.writeLog code die vf detail) := by
  have htick : s.StoresOnly (s.tickDie die) := .of_wgs ⟨rfl, rfl, rfl, rfl⟩ rfl rfl
  have htold : ∀ (y : State) (m : Mgmt), y.StoresOnly (({ y with mgmt := m } : State).msix vf 3) :=
    fun _ _ => .of_wgs ⟨rfl, rfl, rfl, rfl⟩ rfl rfl
  refine State.StoresOnly.trans (htick.trans ?_) (htold _ _)
  split
  · exact State.storesOnly_putHost _ _ _ _
  · refine State.StoresOnly.foldl ?_ _ _
    exact fun s x => s.storesOnly_devPiece 0 x.1 x.2

/-- Logging an event changes neither threads nor what they rest on. -/
theorem State.storesOnly_logEvent (s : State) (code die vf : Nat) (detail : List Nat) :
    s.StoresOnly (s.logEvent code die vf detail) := by
  have hdropped : s.StoresOnly s.logDropped := by
    unfold State.logDropped
    split
    · have hreset : s.StoresOnly { s with mgmt := { s.mgmt with dropped := 0 } } := .of_wgs ⟨rfl, rfl, rfl, rfl⟩ rfl rfl
      exact hreset.trans (State.storesOnly_writeLog _ _ _ _ _)
    · exact .refl s
  unfold State.logEvent
  dsimp only
  split
  · exact hdropped.trans (State.storesOnly_writeLog _ _ _ _ _)
  · exact hdropped.trans (.of_wgs ⟨rfl, rfl, rfl, rfl⟩ rfl rfl)

/-! ## A fault that has its cause logged (R300, R443) -/

/-- A fault that logs no more than its cause leaves the thread apart from its group. -/
theorem State.leaves_raise_of_logFault {s : State} {t : Thread} {w : Workgroup} (ht : s.thread t.key = some t)
    (hw : s.wg t.wg = some w) {core : Nat} {r : Raise} (hlog : s.StoresOnly (s.logFault core w r)) (pkg : Nat) (insn : Word) :
    s.Leaves (s.raise core pkg insn [t.key] r) t.key := by
  have hw' : s.wg t.key.wg = some w := hw
  obtain ⟨v, hv, -, -⟩ := hlog.wg _ _ hw
  unfold State.raise
  simp only [List.head?_cons, Option.bind_some, ht, hw', List.foldl_cons, List.foldl_nil]
  generalize recordBody _ _ _ _ _ _ _ _ = body
  obtain ⟨hkeeps, hthreads, hwgs, -⟩ := (s.logFault core w r).postRecord_keeps w.ctxn body [t.key]
  refine State.leaves_settleFault (w := v) (hlog.keepsIssue.trans hkeeps) ?_ ?_ _ r body _
  · rw [State.thread, hthreads]
    exact (hlog.thread _).trans ht
  · rw [State.wg, hwgs]
    exact hv

/-- A fault of a tile entry logs at most the error of the entry. -/
theorem State.storesOnly_logFault_tile (s : State) (core : Nat) (w : Workgroup) {r : Raise} (hr : r.space = 4) :
    s.StoresOnly (s.logFault core w r) := by
  have hspace : (r.space == 1) = false ∧ (r.space == 2) = false ∧ (r.space == 3) = false := by rw [hr]; decide
  unfold State.logFault
  simp only [hspace, Bool.or_false, Bool.and_false, Bool.false_and, Bool.false_eq_true, if_false]
  split
  · exact State.storesOnly_logEvent _ _ _ _ _
  · exact .refl s

/-- The ERR of a tile as the statements write its fault. -/
theorem tileFault_eq_errFault (n err : Nat) : tileFault n err = errFault n err := by
  unfold tileFault errFault
  split
  · rfl
  · rfl
  · next h1 h2 => rw [if_neg h1, if_neg h2]

/-! ## The outcomes of a lone thread -/

/-- A change of workgroups that keeps what a step of their threads rests on. -/
def KeepsSteps (g : Workgroup → Workgroup) : Prop := ∀ w, (g w).id = w.id ∧ (g w).sstepEn = w.sstepEn ∧ (g w).ctxn = w.ctxn

theorem KeepsSteps.keepsId {g : Workgroup → Workgroup} (h : KeepsSteps g) : KeepsId g := fun w => (h w).1

theorem KeepsSteps.comp {g g' : Workgroup → Workgroup} (h : KeepsSteps g) (h' : KeepsSteps g') : KeepsSteps (g' ∘ g) := fun w =>
  ⟨(h' (g w)).1.trans (h w).1, (h' (g w)).2.1.trans (h w).2.1, (h' (g w)).2.2.trans (h w).2.2⟩

section
variable {i : Instr} {s x : State} {t u : Thread} {w : Workgroup} {body : State → Workgroup → Thread → Res} {r : Raise}
  (h : i.Alone s t w)
include h

/-- No thread of its group stands before a lone thread (R256). -/
theorem State.inTurn_alone (go : Res) : s.inTurn t go = go := by
  have hbehind : s.behind t = [] := by
    refine List.filter_eq_nil_iff.2 fun k hk => ?_
    rw [h.keys, List.mem_singleton] at hk
    simp [hk, Thread.key]
  simp [State.inTurn, hbehind]

variable (hexec : exec i s = .next (s.forThreads i body))
include hexec

/-- A lone thread that goes on, where its workgroup has kept what its step rests on. -/
theorem acts_of_alone (hb : body s w t = .go x (u.onward i)) (hk : u.key = t.key) (hpc : u.pc = t.pc) (hx : s.KeepsGroup x)
    (hw : ∃ w', x.wg t.wg = some w' ∧ w'.sstepEn = w.sstepEn ∧ w'.ctxn = w.ctxn) : Acts i s t u x := by
  obtain ⟨w', hw', hs, hc⟩ := hw
  have hwent := went_of_alone h hb hk hx hw' hs hc
  rw [Thread.onward, hpc] at hwent
  exact ⟨_, hexec, hwent⟩

/-- A lone thread whose registers alone change. -/
theorem acts_self (hb : body s w t = .go s (u.onward i)) (hk : u.key = t.key) (hpc : u.pc = t.pc) : Acts i s t u s :=
  acts_of_alone h hexec hb hk hpc ⟨rfl, rfl, rfl, rfl⟩ ⟨w, h.wg, rfl, rfl⟩

/-- A lone thread that changes its workgroup. -/
theorem acts_of_wgs {g : Workgroup → Workgroup} (hg : KeepsSteps g) (hwgs : x.wgs = (s.modWg w.id g).wgs)
    (hb : body s w t = .go x (t.onward i)) (hx : s.KeepsGroup x) : Acts i s t t x := by
  refine acts_of_alone h hexec hb rfl rfl hx ⟨g w, ?_, (hg w).2⟩
  rw [State.wg, hwgs, State.wg_id h.wg]
  exact State.wg_modWg_same hg.keepsId h.wg

/-- A lone thread that waits. -/
theorem waits_of_alone {st : Wait} (hb : body s w t = .hold s { t with status := .blocked st }) : Waits i s t st := by
  have hlive : (s.thread t.key).isSome := by rw [h.thread]; rfl
  rw [Waits, hexec, forThreads_hold h hb rfl hlive rfl rfl rfl]

/-- A lone thread that takes the fault of a tile's ERR. -/
theorem raises_errFault {n err : Nat} (hb : body s w t = .fault s (errFault n err)) : Raises i s t (errFault n err) := by
  rw [Raises, hexec, forThreads_fault h hb (State.leaves_raise_of_logFault h.thread h.wg
    (s.storesOnly_logFault_tile _ w rfl) _ _)]

/-- A lone thread that takes a fault without an address, which no table or operand has caused. -/
theorem raises_trap {code : Byte} (hb : body s w t = .fault s (trapOf code)) (hc : code ∉ [1, 2, 3, 0x0C]) :
    Raises i s t { code } :=
  exec_fault_of_alone h hexec hb hc

end

end Sys2Proof.Machine
end

section
/-! SUPPORT. Tile entries (R239, R240, R258 to R260, R443): what each of their instructions does for a lone thread. -/

namespace Sys2Proof.Machine

open Certificates

theorem keepsSteps_modTile (n : Nat) (g : Tile → Tile) : KeepsSteps (Workgroup.modTile n g) := fun _ => ⟨rfl, rfl, rfl⟩

theorem State.modTile_eq (s : State) (wg n : Nat) (g : Tile → Tile) : s.modTile wg n g = s.modWg wg (Workgroup.modTile n g) := rfl

/-- The image of an entry holds each field at its place (R239). -/
theorem Tile.image_fields (e : Tile) (hoor : e.oor < 2 ^ 16) (harr : e.arrived < 2 ^ 21) (hcl : e.claimed < 2 ^ 21)
    (hexp : e.expected < 2 ^ 21) (herr : e.err < 4) (hsize : e.size < 2 ^ 14) (hbase : e.base < 2 ^ 13) :
    (bits e.image 127 112).toNat = e.oor ∧ (bits e.image 111 91).toNat = e.arrived ∧ (bits e.image 90 70).toNat = e.claimed
      ∧ (bits e.image 69 49).toNat = e.expected ∧ bit e.image 48 = e.phase ∧ (bits e.image 47 46).toNat = e.state.code
      ∧ (bits e.image 45 44).toNat = e.err ∧ (bits e.image 31 30).toNat = e.kind.code ∧ (bits e.image 29 16).toNat = e.size
      ∧ (bits e.image 12 0).toNat = e.base := by
  have hst : e.state.code < 4 := by cases e.state <;> decide
  have hkind : e.kind.code < 3 := by cases e.kind <;> decide
  have hp : (if e.phase then 2 ^ 48 else 0 : Nat) = e.phase.toNat * 2 ^ 48 := by cases e.phase <;> rfl
  have hp1 : e.phase.toNat < 2 := Bool.toNat_lt _
  have himage : e.image.toNat = e.base + e.size * 2 ^ 16 + e.kind.code * 2 ^ 30 + e.err * 2 ^ 44 + e.state.code * 2 ^ 46
      + e.phase.toNat * 2 ^ 48 + e.expected * 2 ^ 49 + e.claimed * 2 ^ 70 + e.arrived * 2 ^ 91 + e.oor * 2 ^ 112 := by
    rw [Tile.image, BitVec.toNat_ofNat, hp, Nat.mod_eq_of_lt (by omega)]
  have hbit : bit e.image 48 = e.phase := by
    have hmod : e.image.toNat / 2 ^ 48 % 2 = e.phase.toNat := by rw [himage]; omega
    rw [bit, ← BitVec.testBit_toNat, Nat.testBit_eq_decide_div_mod_eq, hmod]
    cases e.phase <;> rfl
  simp only [toNat_bits, himage]
  refine ⟨by omega, by omega, by omega, by omega, hbit, by omega, by omega, by omega, by omega, by omega⟩

/-! ## TARM (R239, R258) -/

/-- A placement word that is well formed names a range that a workgroup may arm for `b` bytes (R258). -/
structure State.Places (s : State) (w : Workgroup) (a : Word) (kind : TileKind) (cap b : Nat) : Prop where
  placed : placement a = some (kind, (bits a 29 16).toNat, (bits a 12 0).toNat)
  bytes : ∀ e : Tile, (armTile e (kind, (bits a 29 16).toNat, (bits a 12 0).toNat) b).bytes = cap
  room : b ≤ cap
  spad : kind = .spad → ((bits a 29 16).toNat + (bits a 12 0).toNat) * 64 ≤ w.spadSize
  slots : kind = .slots → ∀ j, j < (bits a 29 16).toNat → ((bits a 12 0).toNat + j, w.id) ∈ (s.core w.core).slotHolder
  fifo : kind = .fifo → s.gateHolds w .fifoFree = true

/-- The entry that a placement word arms, as the statement writes it. -/
theorem armTile_eq (e : Tile) (kind : TileKind) (size base b : Nat) : armTile e (kind, size, base) b =
    { oor := 0, arrived := 0, claimed := 0, expected := b, phase := if b = 0 then !e.phase else e.phase,
      state := if b = 0 then .ready else .filling, err := 0, kind, size, base } := by
  by_cases hb : b = 0 <;> simp [armTile, Tile.makeReady, hb]

/-- The bytes of an armed entry are those of its kind and size. -/
theorem bytes_armTile (e : Tile) (kind : TileKind) (size base b : Nat) : (armTile e (kind, size, base) b).bytes =
    match kind with | .spad => 64 * size | .slots => 16384 * size | .fifo => 8192 := by
  rw [armTile_eq]
  rfl

theorem mem_heldSlots {s : State} {w : Workgroup} {n : Nat} (h : (n, w.id) ∈ (s.core w.core).slotHolder) :
    n ∈ s.heldSlots w :=
  List.mem_map.2 ⟨(n, w.id), List.mem_filter.2 ⟨h, beq_self_eq_true w.id⟩, rfl⟩

theorem State.healTile_eq (s : State) (wg n : Nat) :
    s.healTile wg n = { s with ecc := s.ecc.filter (fun x => decide (x ≠ .tile wg n)) } := by
  have hne : (fun x : Ecc => x != .tile wg n) = fun x => decide (x ≠ .tile wg n) := by
    funext x
    by_cases hx : x = .tile wg n <;> simp [hx]
  rw [State.healTile, hne]

section
variable {s : State} {t : Thread} {w : Workgroup} {e : Tile} {a : Word} {kind : TileKind} {cap b n : Nat}

/-- TARM of a placement that holds: it depends on the entry's state alone. -/
theorem State.tarm_places (h : s.Places w a kind cap b) (he : w.tiles[n]? = some e) (i : Instr) :
    s.tarm i w t n a b = if e.state = .draining then .hold s (t.gated (.notDraining n) (natLe 4 a.toNat ++ natLe 4 b))
      else if e.state = .empty then
        t.done ((s.modTile w.id n (fun _ => armTile e (kind, (bits a 29 16).toNat, (bits a 12 0).toNat) b)).healTile w.id n) i
      else .fault s (trapOf 0x07) := by
  obtain ⟨hplaced, hcap, hroom, hspad, hslots, hfifo⟩ := h
  have htile : w.tile n = some e := he
  have hbytes : ¬ cap < b := Nat.not_lt.2 hroom
  have hin : (kind == .spad && decide (w.spadSize < ((bits a 29 16).toNat + (bits a 12 0).toNat) * 64)) = false := by
    cases kind
    case spad => simpa only [beq_self_eq_true, Bool.true_and, decide_eq_false_iff_not, Nat.not_lt] using hspad rfl
    all_goals rfl
  have hheld : (kind == .slots && !(List.range (bits a 29 16).toNat).all
      (fun j => (s.heldSlots w).contains ((bits a 12 0).toNat + j))) = false := by
    cases kind
    case slots => simpa using fun j hj => mem_heldSlots (hslots rfl j hj)
    all_goals rfl
  have hfree : (kind == .fifo && !s.gateHolds w .fifoFree) = false := by
    cases kind
    case fifo => simp [hfifo rfl]
    all_goals rfl
  simp only [State.tarm, htile, hplaced, hcap, hbytes, hin, hheld, hfree, decide_false, Bool.or_false, Bool.false_eq_true,
    if_false, beq_iff_eq, bne_iff_ne, ne_eq, ite_not]

/-- What TARM does for a thread of its group (R256, R258). -/
def tarmBody (f : V3) (s : State) (w : Workgroup) (t : Thread) : Res :=
  s.inTurn t (match t.seen with
    | some (x :: l) => s.tarm (.tarm f) w t f.d.toNat (BitVec.ofNat 32 (field (x :: l) 0 4)) (field (x :: l) 4 4)
    | _ => s.tarm (.tarm f) w t f.d.toNat (f.srcA w t) (f.srcB w t).toNat)

theorem exec_tarm (f : V3) (s : State) : exec (.tarm f) s = .next (s.forThreads (.tarm f) (tarmBody f)) := rfl

variable {f : V3} (ha : (Instr.tarm f).Alone s t w) (hseen : t.seen = none)
include ha hseen

/-- A lone thread that has met no gate takes its registers. -/
theorem tarmBody_alone : tarmBody f s w t = s.tarm (.tarm f) w t f.d.toNat (f.srcA w t) (f.srcB w t).toNat := by
  rw [tarmBody, State.inTurn_alone ha, hseen]

/-- TARM arms an entry that is EMPTY, and faults where it fills or is READY (R258). -/
theorem tarm_arms (h : s.Places w (f.srcA w t) kind cap (f.srcB w t).toNat) (he : w.tiles[f.d.toNat]? = some e) :
    let b := (f.srcB w t).toNat
    (e.state = .empty → Acts (.tarm f) s t t { s.modTile w.id f.d.toNat (fun _ =>
        { oor := 0, arrived := 0, claimed := 0, expected := b, phase := if b = 0 then !e.phase else e.phase,
          state := if b = 0 then .ready else .filling, err := 0, kind, size := (bits (f.srcA w t) 29 16).toNat,
          base := (bits (f.srcA w t) 12 0).toNat }) with
        ecc := s.ecc.filter (fun x => decide (x ≠ .tile w.id f.d.toNat)) })
    ∧ (e.state = .filling ∨ e.state = .ready → Raises (.tarm f) s t { code := 0x07 }) := by
  intro b
  have hbody := (tarmBody_alone ha hseen).trans (State.tarm_places h he (.tarm f))
  refine ⟨fun hempty => ?_, fun hstate => ?_⟩
  · refine acts_of_wgs ha (exec_tarm f s) (keepsSteps_modTile f.d.toNat _) rfl (hbody.trans ?_) ⟨rfl, rfl, rfl, rfl⟩
    rw [hempty, if_neg (by decide), if_pos rfl, Thread.done, hseen, State.healTile_eq, armTile_eq]
    rfl
  · refine raises_trap ha (exec_tarm f s) (hbody.trans ?_) (by decide)
    rcases hstate with hstate | hstate <;> rw [hstate, if_neg (by decide), if_neg (by decide)]

end

/-- A placement word of the scratchpad (R239). -/
theorem State.Places.of_spad {s : State} {w : Workgroup} {a : Word} {b : Nat} (hr : bits a 15 13 = 0) (hk : bits a 31 30 = 0)
    (h1 : 1 ≤ (bits a 29 16).toNat) (h2 : (bits a 29 16).toNat ≤ 8192)
    (hfit : 64 * ((bits a 12 0).toNat + (bits a 29 16).toNat) ≤ w.spadSize) (hb : b ≤ 64 * (bits a 29 16).toNat) :
    s.Places w a .spad (64 * (bits a 29 16).toNat) b where
  placed := by
    unfold placement
    generalize (bits a 29 16).toNat = size at h1 h2 ⊢
    generalize (bits a 12 0).toNat = base
    simp [hr, hk, h1, h2]
  bytes _ := bytes_armTile _ _ _ _ _
  room := hb
  spad _ := by omega
  slots h := nomatch h
  fifo h := nomatch h

/-- A placement word of slots that the workgroup holds (R239, R266). -/
theorem State.Places.of_slots {s : State} {w : Workgroup} {a : Word} {b : Nat} (hr : bits a 15 13 = 0) (hk : bits a 31 30 = 1)
    (h1 : 1 ≤ (bits a 29 16).toNat) (h2 : (bits a 12 0).toNat + (bits a 29 16).toNat ≤ 64)
    (hheld : ∀ j, j < (bits a 29 16).toNat → ((bits a 12 0).toNat + j, w.id) ∈ (s.core w.core).slotHolder)
    (hb : b ≤ 16384 * (bits a 29 16).toNat) : s.Places w a .slots (16384 * (bits a 29 16).toNat) b where
  placed := by
    unfold placement
    generalize (bits a 29 16).toNat = size at h1 h2 ⊢
    generalize (bits a 12 0).toNat = base at h2 ⊢
    have hsize : size ≤ 64 := by omega
    have hbase : base ≤ 63 := by omega
    simp [hr, hk, h1, h2, hsize, hbase]
  bytes _ := bytes_armTile _ _ _ _ _
  room := hb
  spad h := nomatch h
  slots _ := hheld
  fifo h := nomatch h

/-- A placement word of the scale FIFO, of which no other workgroup of the core has an entry in use (R239, R258). -/
theorem State.Places.of_fifo {s : State} {w : Workgroup} {a : Word} {b : Nat} (hr : bits a 15 13 = 0) (hk : bits a 31 30 = 2)
    (h1 : (bits a 29 16).toNat = 0) (h2 : (bits a 12 0).toNat = 0)
    (hfree : ∀ y ∈ s.wgs, y.id ≠ w.id → y.core = w.core → ∀ z ∈ y.tiles, z.kind = .fifo → z.state = .empty)
    (hb : b ≤ 8192) : s.Places w a .fifo 8192 b where
  placed := by simp [placement, hr, hk, h1, h2]
  bytes _ := bytes_armTile _ _ _ _ _
  room := hb
  spad h := nomatch h
  slots h := nomatch h
  fifo _ := by simpa [State.gateHolds] using hfree

/-! ## TWAIT (R242, R255, R260) -/

/-- What ERR of a tile, or an error of its entry, stands for (R242, R443). -/
theorem State.tileErr_one {s : State} {w : Workgroup} {n : Nat} {e : Tile} (he : w.tiles[n]? = some e) :
    s.tileErr w [n] = if Ecc.tile w.id n ∈ s.ecc then some (errFault n 1)
      else if e.err = 0 then none else some (errFault n e.err) := by
  have htile : w.tile n = some e := he
  have hbad : s.tileBad w n = decide (Ecc.tile w.id n ∈ s.ecc) := List.contains_eq_mem _ _
  by_cases hecc : Ecc.tile w.id n ∈ s.ecc
  · simp [State.tileErr, hbad, hecc, tileFault_eq_errFault]
  · by_cases herr : e.err = 0 <;> simp [State.tileErr, hbad, hecc, htile, herr, tileFault_eq_errFault]

/-- The condition of a TWAIT as the statement writes it. -/
theorem Tile.waitHolds_iff (e : Tile) (ph phw : Bool) :
    e.waitHolds (if phw then some ph else none) = true ↔ if phw = true then e.phase = ph else e.state = .ready := by
  cases phw <;> simp [Tile.waitHolds]

/-- What TWAIT does for a thread of its group. -/
def twaitBody (ph phw : Bool) (tile : BitVec 6) (fm : Form) (s : State) (w : Workgroup) (t : Thread) : Res :=
  match w.tile tile.toNat with
  | none => .fault s (trapOf 0x07)
  | some e =>
    if e.waitHolds (if phw then some ph else none) then
      (match s.tileErr w [tile.toNat] with
        | some r => .fault s r
        | none => .go s (t.onward (.twait ph phw tile fm)))
    else .hold s { t with status := .blocked (.tile tile.toNat (if phw then some ph else none)
      (pcAfter t.pc (Instr.twait ph phw tile fm).words)) }

theorem exec_twait (ph phw : Bool) (tile : BitVec 6) (fm : Form) (s : State) : exec (.twait ph phw tile fm) s
    = .next (s.forThreads (.twait ph phw tile fm) (twaitBody ph phw tile fm)) := rfl

/-- TWAIT goes on where its condition holds, and delivers ERR; elsewhere it waits. -/
theorem twait_cases {s : State} {t : Thread} {w : Workgroup} {e : Tile} {ph phw : Bool} {tile : BitVec 6} {fm : Form}
    (h : (Instr.twait ph phw tile fm).Alone s t w) (he : w.tiles[tile.toNat]? = some e) :
    let holds : Prop := if phw = true then e.phase = ph else e.state = .ready
    (holds → e.err = 0 → Ecc.tile w.id tile.toNat ∉ s.ecc → Acts (.twait ph phw tile fm) s t t s)
    ∧ (holds → e.err ≠ 0 → Ecc.tile w.id tile.toNat ∉ s.ecc → Raises (.twait ph phw tile fm) s t (errFault tile.toNat e.err))
    ∧ (holds → Ecc.tile w.id tile.toNat ∈ s.ecc → Raises (.twait ph phw tile fm) s t (errFault tile.toNat 1))
    ∧ (¬ holds → Waits (.twait ph phw tile fm) s t
        (.tile tile.toNat (if phw = true then some ph else none) (t.pc + BitVec.ofNat 64 (4 * fm.words)))) := by
  intro holds
  have htile : w.tile tile.toNat = some e := he
  have hexec := exec_twait ph phw tile fm s
  have hgoes : holds → e.waitHolds (if phw then some ph else none) = true := (e.waitHolds_iff ph phw).2
  refine ⟨fun hh herr hecc => acts_self h hexec ?_ rfl rfl, fun hh herr hecc => raises_errFault h hexec ?_,
    fun hh hecc => raises_errFault h hexec ?_, fun hh => waits_of_alone h hexec ?_⟩
  · simp only [twaitBody, htile, hgoes hh, if_true, State.tileErr_one he, hecc, if_false, herr]
  · simp only [twaitBody, htile, hgoes hh, if_true, State.tileErr_one he, hecc, if_false, herr]
  · simp only [twaitBody, htile, hgoes hh, if_true, State.tileErr_one he, hecc]
  · simp only [twaitBody, htile, mt (e.waitHolds_iff ph phw).1 hh]
    rfl

/-! ## TDONE (R240, R259) -/

/-- A queued operation of a workgroup reads a tile. -/
theorem State.tileRead_iff {s : State} {wg n : Nat} :
    s.tileRead wg n = true ↔ ∃ o ∈ s.ops, o.wg = wg ∧ o.body.readsTile n = true := by
  simp [State.tileRead]

/-- What a tile that enters EMPTY makes of its workgroup, as the statement writes it. -/
def Workgroup.emptied (n : Nat) (y : Workgroup) : Workgroup :=
  { y with tiles := y.tiles.modify n (fun e => { e with state := .empty, arrived := 0, claimed := 0 })
           packets := y.packets.filter (fun p => p.tile != n || p.reserved.isSome) }

theorem State.emptyTile_eq (s : State) (wg n : Nat) : s.emptyTile wg n = s.modWg wg (Workgroup.emptied n) := by
  have hkept : (fun p : Packet => !(p.tile == n && p.reserved.isNone)) = fun p => p.tile != n || p.reserved.isSome := by
    funext p
    cases hp : p.reserved <;> simp [bne]
  rw [State.emptyTile, State.modTile_eq, hkept, State.modWg_modWg (keepsSteps_modTile n _).keepsId]
  rfl

/-- What TDONE does for a thread of its group. -/
def tdoneBody (tile : BitVec 6) (fm : Form) (s : State) (w : Workgroup) (t : Thread) : Res :=
  if !w.tileIs tile.toNat .ready then .fault s (trapOf 0x07)
  else if s.tileRead w.id tile.toNat then
    .go (s.modTile w.id tile.toNat (fun e => { e with state := .draining })) (t.onward (.tdone tile fm))
  else .go (s.emptyTile w.id tile.toNat) (t.onward (.tdone tile fm))

theorem exec_tdone (tile : BitVec 6) (fm : Form) (s : State) :
    exec (.tdone tile fm) s = .next (s.forThreads (.tdone tile fm) (tdoneBody tile fm)) := rfl

theorem Workgroup.tileIs_eq {w : Workgroup} {n : Nat} {e : Tile} (he : w.tiles[n]? = some e) (st : TileState) :
    w.tileIs n st = (e.state == st) := by
  have htile : w.tile n = some e := he
  rw [Workgroup.tileIs, htile, Option.any_some]

section
variable {s : State} {t : Thread} {w : Workgroup} {e : Tile} {tile : BitVec 6} {fm : Form} (h : (Instr.tdone tile fm).Alone s t w)
  (he : w.tiles[tile.toNat]? = some e)
include h he

/-- TDONE of a READY entry that nothing reads empties it. -/
theorem tdone_empties (hr : e.state = .ready) (hnone : ∀ o ∈ s.ops, o.wg = w.id → o.body.readsTile tile.toNat = false) :
    Acts (.tdone tile fm) s t t (s.modWg w.id (Workgroup.emptied tile.toNat)) := by
  have hread : s.tileRead w.id tile.toNat = false := by
    refine Bool.eq_false_iff.2 fun hread => ?_
    obtain ⟨o, ho, hwg, hreads⟩ := State.tileRead_iff.1 hread
    rw [hnone o ho hwg] at hreads
    cases hreads
  refine acts_of_wgs h (exec_tdone tile fm s) (g := Workgroup.emptied tile.toNat) (fun _ => ⟨rfl, rfl, rfl⟩) rfl ?_
    ⟨rfl, rfl, rfl, rfl⟩
  simp [tdoneBody, Workgroup.tileIs_eq he, hr, hread, State.emptyTile_eq]

/-- TDONE of a READY entry that a queued operation reads leaves it DRAINING. -/
theorem tdone_drains (hr : e.state = .ready) (hsome : ∃ o ∈ s.ops, o.wg = w.id ∧ o.body.readsTile tile.toNat = true) :
    Acts (.tdone tile fm) s t t (s.modTile w.id tile.toNat (fun e => { e with state := .draining })) := by
  refine acts_of_wgs h (exec_tdone tile fm s) (keepsSteps_modTile tile.toNat _) rfl ?_ ⟨rfl, rfl, rfl, rfl⟩
  simp [tdoneBody, Workgroup.tileIs_eq he, hr, State.tileRead_iff.2 hsome]

theorem tdone_faults (hr : e.state ≠ .ready) : Raises (.tdone tile fm) s t { code := 0x07 } := by
  refine raises_trap h (exec_tdone tile fm s) ?_ (by decide)
  simp [tdoneBody, Workgroup.tileIs_eq he, hr]

end

/-! ## TSTAT (R195, R256, R260, R443) -/

theorem keepsSteps_kwrite (slice : Bool) (n : Nat) (x : Dword) : KeepsSteps (fun w => kwrite w slice n x) := by
  intro w
  dsimp only
  unfold kwrite
  split_ifs <;> exact ⟨rfl, rfl, rfl⟩

/-- A 128-bit image goes to two consecutive k registers. -/
def Workgroup.kwrite2 (slice : Bool) (d : Nat) (x : BitVec 128) (w : Workgroup) : Workgroup :=
  kwrite (kwrite w slice d (bits x 63 0)) slice (d + 1) (bits x 127 64)

theorem keepsSteps_kwrite2 (slice : Bool) (d : Nat) (x : BitVec 128) : KeepsSteps (Workgroup.kwrite2 slice d x) :=
  (keepsSteps_kwrite slice d _).comp (keepsSteps_kwrite slice (d + 1) _)

/-- What TSTAT does for a thread of its group. -/
def tstatBody (f : RI8) (kd : Bool) (s : State) (w : Workgroup) (t : Thread) : Res :=
  if t.tidx == 0xFFFF && !kd then .fault s (trapOf 0x06)
  else if w.kernel.det then .fault s (trapOf 0x13)
  else match w.tile f.imm.toNat with
    | none => .fault s (trapOf 0x07)
    | some e =>
      if s.tileBad w f.imm.toNat then
        .go (s.logEcc .tile (dieOf w.core) (vfOfCtx w.ctxn) f.imm.toNat)
          ((t.tstatLate s.cur.insn f.imm.toNat f.d.toNat kd).onward (.tstat f kd))
      else if kd then
        .go (s.modWg w.id (Workgroup.kwrite2 (t.tidx == 0xFFFF) f.d.toNat e.image)) (t.onward (.tstat f kd))
      else .go s (((t.setPair f.d.toNat (bits e.image 63 0)).setPair (f.d.toNat + 2) (bits e.image 127 64)).onward (.tstat f kd))

theorem exec_tstat (f : RI8) (kd : Bool) (s : State) :
    exec (.tstat f kd) s = .next (s.forThreads (.tstat f kd) (tstatBody f kd)) := rfl

section
variable {s : State} {t : Thread} {w : Workgroup} {e : Tile} {f : RI8} {kd : Bool} (h : (Instr.tstat f kd).Alone s t w)
  (he : w.tiles[f.imm.toNat]? = some e) (hdet : w.kernel.det = false)
include h he hdet

/-- TSTAT of a thread reads the image into four registers. -/
theorem tstat_reads (hkd : kd = false) (hsl : t.tidx ≠ 0xFFFF) (hecc : Ecc.tile w.id f.imm.toNat ∉ s.ecc) :
    Acts (.tstat f kd) s t ((t.setPair f.d.toNat (bits e.image 63 0)).setPair (f.d.toNat + 2) (bits e.image 127 64)) s := by
  have htile : w.tile f.imm.toNat = some e := he
  refine acts_self h (exec_tstat f kd s) ?_ (by simp [Thread.key]) (by simp)
  simp [tstatBody, htile, hdet, hkd, hsl, State.tileBad, hecc]

/-- TSTAT of the uniform form reads it into two k registers. -/
theorem tstat_kwrites (hkd : kd = true) (hecc : Ecc.tile w.id f.imm.toNat ∉ s.ecc) :
    Acts (.tstat f kd) s t t (s.modWg w.id (Workgroup.kwrite2 (decide (t.tidx = 0xFFFF)) f.d.toNat e.image)) := by
  have htile : w.tile f.imm.toNat = some e := he
  refine acts_of_wgs h (exec_tstat f kd s) (keepsSteps_kwrite2 _ f.d.toNat e.image) rfl ?_ ⟨rfl, rfl, rfl, rfl⟩
  simp [tstatBody, htile, hdet, hkd, State.tileBad, hecc, beq_eq_decide]

/-- TSTAT of an entry that cannot be read logs the error, and the fault is late (R195). -/
theorem tstat_late (hsl : kd = false → t.tidx ≠ 0xFFFF) (hecc : Ecc.tile w.id f.imm.toNat ∈ s.ecc) :
    Acts (.tstat f kd) s t { t with late := t.late ++ [{
        fault := { errFault f.imm.toNat 1 with site := some (t.pc, s.cur.insn) }
        dest := if kd = true then (0, 0) else (f.d.toNat, 4)
        pd := none, kd := if kd = true then some f.d.toNat else none }] }
      (s.logEcc .tile (dieOf w.core) (w.ctxn / 16 + 1) f.imm.toNat) := by
  have htile : w.tile f.imm.toNat = some e := he
  have hstores : s.StoresOnly (s.logEcc .tile (dieOf w.core) (w.ctxn / 16 + 1) f.imm.toNat) := State.storesOnly_logEvent _ _ _ _ _
  have hform : (t.tidx == 0xFFFF && !kd) = false := by
    cases kd
    · simpa using hsl rfl
    · simp
  refine acts_of_alone h (exec_tstat f kd s) ?_ rfl rfl hstores.toKeepsGroup (hstores.wg _ _ h.wg)
  rw [← tileFault_eq_errFault]
  simp only [tstatBody, hform, hdet, htile, State.tileBad, List.contains_eq_mem, hecc, decide_true, if_true, Bool.false_eq_true,
    if_false]
  rfl

end

end Sys2Proof.Machine
end

section
namespace Sys2Proof.Proofs

open Sys2Proof Machine Certificates

/-- Settles O28: each instruction by the state of the entry that it names, and the image of an entry by its fields. That TARM
makes the entry good again, and that an error of the entry is ERR 0x1, is the model's choice (log entry 48). -/
theorem tileEntries : Obligations.TileEntries := by
  intro s t w n e he hseen
  refine ⟨?tarm, ?twait, ?tdone, ?tstat, ?image⟩
  case tarm =>
    rintro f ha rfl a b size base arms hr
    exact ⟨fun hk h1 h2 hfit hb => tarm_arms ha hseen (.of_spad hr hk h1 h2 hfit hb) he,
      fun hk h1 h2 hheld hb => tarm_arms ha hseen (.of_slots hr hk h1 h2 hheld hb) he,
      fun hk h1 h2 hfree hb => tarm_arms ha hseen (.of_fifo hr hk h1 h2 hfree hb) he⟩
  case twait =>
    rintro ph phw tile fm h rfl
    exact twait_cases h he
  case tdone =>
    rintro tile fm h rfl
    exact ⟨tdone_empties h he, tdone_drains h he, tdone_faults h he⟩
  case tstat =>
    rintro f kd h rfl hdet
    exact ⟨tstat_reads h he hdet, tstat_kwrites h he hdet, tstat_late h he hdet⟩
  case image =>
    intro hoor harr hcl hexp herr hsize hbase
    exact e.image_fields hoor harr hcl hexp herr hsize hbase

end Sys2Proof.Proofs
end

section
/-! SUPPORT. The waits on queues (R252), the conversion table (R253) and the entries of the tensor table (R246), for a lone
thread. -/

namespace Sys2Proof.Machine

open Certificates

/-! ## Fields of an image -/

/-- The two lowest bytes of a number. -/
theorem leNat_take_succ_succ (l : List Byte) (n : Nat) :
    ∃ r, leNat (l.take (n + 2)) = (l.getD 0 0).toNat + 256 * ((l.getD 1 0).toNat + 256 * r) ∧ (n = 0 → r = 0) := by
  rcases l with _ | ⟨x, _ | ⟨y, l⟩⟩
  · exact ⟨0, rfl, fun _ => rfl⟩
  · exact ⟨0, by simp [leNat], fun _ => rfl⟩
  · refine ⟨leNat (l.take n), rfl, ?_⟩
    rintro rfl
    rfl

/-- A halfword of an image. -/
theorem ofNat_field_two (b : List Byte) (off : Nat) : BitVec.ofNat 16 (field b off 2) = b.getD (off + 1) 0 ++ b.getD off 0 := by
  obtain ⟨r, hr, hzero⟩ := leNat_take_succ_succ (b.drop off) 0
  obtain rfl := hzero rfl
  have hlo := (b.getD off 0).isLt
  have hhi := (b.getD (off + 1) 0).isLt
  apply BitVec.eq_of_toNat_eq
  rw [BitVec.toNat_append, ← Nat.shiftLeft_add_eq_or_of_lt hlo, Nat.shiftLeft_eq, BitVec.toNat_ofNat, field, hr]
  simp only [List.getD_eq_getElem?_getD, List.getElem?_drop, Nat.add_zero] at hlo hhi ⊢
  omega

/-- VALID of an entry is bit 6 of its byte 1 (R243). -/
theorem tidValidBit_eq (b : List Byte) : tidValidBit b = bit (b.getD 1 0) 6 := by
  obtain ⟨r, hr, -⟩ := leNat_take_succ_succ b 6
  have hlo := (b.getD 0 0).isLt
  have hhi := (b.getD 1 0).isLt
  have hmod : leNat (b.take 8) / 2 ^ 14 % 2 = (b.getD 1 0).toNat / 2 ^ 6 % 2 := by rw [hr]; omega
  rw [tidValidBit, field, List.drop_zero, Nat.testBit_eq_decide_div_mod_eq, hmod, bit, ← BitVec.testBit_toNat,
    Nat.testBit_eq_decide_div_mod_eq]

/-! ## QFENCE and QWAIT (R252) -/

section
variable {s : State} {t : Thread} {w : Workgroup} {qmask : BitVec 6} {n : BitVec 8} {q : BitVec 3} {fm : Form}

/-- What QFENCE does for a thread of its group. -/
def qfenceBody (qmask : BitVec 6) (fm : Form) (s : State) (w : Workgroup) (t : Thread) : Res :=
  let ids := (s.opsOn w.id (fun q => bit qmask q)).map (·.id)
  if ids.isEmpty then .go s (t.onward (.qfence qmask fm))
  else .hold s { t with status := .blocked (.ops ids (pcAfter t.pc (Instr.qfence qmask fm).words)) }

theorem exec_qfence (qmask : BitVec 6) (fm : Form) (s : State) :
    exec (.qfence qmask fm) s = .next (s.forThreads (.qfence qmask fm) (qfenceBody qmask fm)) := rfl

/-- QFENCE goes on when the queues hold no operation of the workgroup, and waits for those that they hold. -/
theorem qfence_cases (h : (Instr.qfence qmask fm).Alone s t w) :
    let mine := s.ops.filter (fun o => o.wg == w.id && bit qmask o.q)
    (mine = [] → Acts (.qfence qmask fm) s t t s)
    ∧ (mine ≠ [] → Waits (.qfence qmask fm) s t (.ops (mine.map (·.id)) (t.pc + BitVec.ofNat 64 (4 * fm.words)))) := by
  intro mine
  have hmine : s.opsOn w.id (fun q => bit qmask q) = mine := rfl
  refine ⟨fun hnil => acts_self h (exec_qfence qmask fm s) ?_ rfl rfl, fun hne => waits_of_alone h (exec_qfence qmask fm s) ?_⟩
  · simp [qfenceBody, hmine, hnil]
  · simp only [qfenceBody, hmine, List.isEmpty_iff, List.map_eq_nil_iff, hne, if_false]
    rfl

/-- What QWAIT does for a thread of its group. -/
def qwaitBody (n : BitVec 8) (q : BitVec 3) (fm : Form) (s : State) (w : Workgroup) (t : Thread) : Res :=
  if (s.opsOn w.id (fun x => x == q.toNat)).length ≤ n.toNat then .go s (t.onward (.qwait n q fm))
  else .hold s { t with status := .blocked (.queue q.toNat n.toNat (pcAfter t.pc (Instr.qwait n q fm).words)) }

theorem exec_qwait (n : BitVec 8) (q : BitVec 3) (fm : Form) (s : State) :
    exec (.qwait n q fm) s = .next (s.forThreads (.qwait n q fm) (qwaitBody n q fm)) := rfl

/-- QWAIT goes on when the queue holds no more operations of the workgroup than it allows. -/
theorem qwait_cases (h : (Instr.qwait n q fm).Alone s t w) :
    let mine := s.ops.filter (fun o => o.wg == w.id && o.q == q.toNat)
    (mine.length ≤ n.toNat → Acts (.qwait n q fm) s t t s)
    ∧ (n.toNat < mine.length →
        Waits (.qwait n q fm) s t (.queue q.toNat n.toNat (t.pc + BitVec.ofNat 64 (4 * fm.words)))) := by
  intro mine
  have hmine : s.opsOn w.id (fun x => x == q.toNat) = mine := rfl
  refine ⟨fun hle => acts_self h (exec_qwait n q fm s) ?_ rfl rfl, fun hlt => waits_of_alone h (exec_qwait n q fm s) ?_⟩
  · rw [qwaitBody, hmine, if_pos hle]
  · rw [qwaitBody, hmine, if_neg (Nat.not_le.2 hlt)]
    rfl

end

section
variable {s : State} {t : Thread} {w : Workgroup} {f : V3} {b : List Byte}

/-! ## XLTLD (R253) -/

/-- What XLTLD does for a thread of its group. -/
def xltldBody (f : V3) (s : State) (w : Workgroup) (t : Thread) : Res :=
  s.inTurn t (
    if !s.gateHolds w .noXlt then .hold s (t.gated .noXlt [])
    else match w.spadRead (f.srcA w t).toNat 512 64 with
      | .error r => .fault s r
      | .ok b => t.done (s.modWg w.id (fun w => { w with xlt := (fields b 0 2 256).map (BitVec.ofNat 16) })) (.xltld f))

theorem exec_xltld (f : V3) (s : State) : exec (.xltld f) s = .next (s.forThreads (.xltld f) (xltldBody f)) := rfl

/-- The 256 halfwords of an operand. -/
theorem fields_two (b : List Byte) (n : Nat) : (fields b 0 2 n).map (BitVec.ofNat 16)
    = (List.range n).map (fun j => b.getD (2 * j + 1) 0 ++ b.getD (2 * j) 0) := by
  rw [fields, List.map_map]
  refine List.map_congr_left fun j _ => ?_
  rw [Function.comp, Nat.zero_add, ofNat_field_two]

/-- A workgroup whose conversion table is that of an operand. -/
def Workgroup.withXlt (b : List Byte) (y : Workgroup) : Workgroup :=
  { y with xlt := (List.range 256).map (fun j => b.getD (2 * j + 1) 0 ++ b.getD (2 * j) 0) }

/-- XLTLD loads its table while no conversion copy of the workgroup is queued. -/
theorem xltld_loads (h : (Instr.xltld f).Alone s t w) (hseen : t.seen = none) (hb : InSpad w (f.srcA w t).toNat 512 64 b)
    (hops : ∀ o ∈ s.ops, o.wg = w.id → o.body.isXlt = false) :
    Acts (.xltld f) s t t (s.modWg w.id (Workgroup.withXlt b)) := by
  have hgate : s.gateHolds w .noXlt = true := by
    have hnone : s.ops.any (fun o => o.wg == w.id && o.body.isXlt) = false :=
      List.any_eq_false.2 fun o ho => by simpa using hops o ho
    simp [State.gateHolds, hnone]
  refine acts_of_wgs h (exec_xltld f s) (g := Workgroup.withXlt b) (fun _ => ⟨rfl, rfl, rfl⟩) rfl ?_ ⟨rfl, rfl, rfl, rfl⟩
  simp only [xltldBody, State.inTurn_alone h, hgate, Workgroup.spadRead_inSpad hb, fields_two, Thread.done, hseen, Bool.not_true,
    Bool.false_eq_true, if_false, Option.isSome_none]
  rfl

/-! ## TIDSET and TIDGET (R246) -/

/-- The number of an entry that A names, where A[31:12] is zero. -/
theorem tidOf_eq (a : Word) : tidOf a = if bits a 31 12 = 0 then some a.toNat else none := by
  simp [tidOf]

/-- The place of an entry. -/
theorem State.titAddr_eq {d : CtxDesc} (hd : (s.ctx w.ctxn).desc = some d) {a : Word} (ha : bits a 31 12 = 0) :
    s.titAddr w a.toNat = d.tit + 256 * a.toNat := by
  have hlt : a.toNat < 4096 := by
    have hzero := congrArg BitVec.toNat ha
    have hword := a.isLt
    rw [toNat_bits] at hzero
    change _ = 0 at hzero
    omega
  rw [State.titAddr, hd, Option.map_some, Option.getD_some, Nat.mod_eq_of_lt hlt]

/-- A store in one plain block is performed at once. -/
theorem State.attempt_store_plain {pa : Nat} (hp : s.isCmp pa = false) (x : State) (vf : Nat) (by' : Writer) (keys : List Key)
    (dest : Option RmwDest) (site : Dword × Word × BitVec 128) :
    s.attempt (x.newHeld vf by' keys pa (.store b) dest site) = .done (s.putBytes pa b) (memGetN s.mem pa b.length) := by
  simp only [State.attempt, State.newHeld, hp, Bool.false_and, Bool.false_eq_true, if_false,
    State.physWrite_store_plain s _ b _ hp]

/-- The write of an entry in a plain frame. -/
theorem State.writeEntry_plain {pa : Nat} (hp : s.isCmp pa = false) (i : Instr) :
    s.writeEntry i w t pa b = .go (s.bumpId.putBytes pa b) (t.onward i) := by
  have hp' : s.bumpId.isCmp pa = false := hp
  simp only [State.writeEntry, State.attempt_store_plain hp']

/-- What TIDSET does for a thread of its group. -/
def tidsetBody (f : V3) (s : State) (w : Workgroup) (t : Thread) : Res :=
  match tidOf (f.srcA w t) with
  | none => .fault s (trapOf 0x0F)
  | some tid => match w.spadRead (f.srcB w t).toNat 256 16 with
    | .error r => .fault s r
    | .ok b => if tidValidBit b && !tensorOk b then .fault s (trapOf 0x0F) else s.writeEntry (.tidset f) w t (s.titAddr w tid) b

theorem exec_tidset (f : V3) (s : State) : exec (.tidset f) s = .next (s.forThreads (.tidset f) (tidsetBody f)) := rfl

/-- TIDSET stores an entry that is not VALID, or valid (R244). -/
theorem tidset_stores {d : CtxDesc} (hd : (s.ctx w.ctxn).desc = some d) (ha : bits (f.srcA w t) 31 12 = 0)
    (h : (Instr.tidset f).Alone s t w) (hb : InSpad w (f.srcB w t).toNat 256 16 b) (hm : s.mem.wf = true)
    (hp : s.isCmp (d.tit + 256 * (f.srcA w t).toNat) = false) (hok : bit (b.getD 1 0) 6 = false ∨ tensorOk b = true) :
    StoresAt (.tidset f) s { t with pc := t.pc + BitVec.ofNat 64 (4 * f.fm.words) } (d.tit + 256 * (f.srcA w t).toNat) b := by
  have hvalid : (tidValidBit b && !tensorOk b) = false := by
    rw [tidValidBit_eq]
    rcases hok with hok | hok
    · rw [hok, Bool.false_and]
    · rw [hok, Bool.not_true, Bool.and_false]
  refine storesAt_of_alone h (exec_tidset f s) ?_ rfl hm
  simp only [tidsetBody, tidOf_eq, ha, if_true, Workgroup.spadRead_inSpad hb, hvalid, Bool.false_eq_true, if_false,
    State.titAddr_eq hd ha, State.writeEntry_plain hp]
  rfl

/-- What TIDGET does for a thread of its group. -/
def tidgetBody (f : V3) (s : State) (w : Workgroup) (t : Thread) : Res :=
  match tidOf (f.srcA w t) with
  | none => .fault s (trapOf 0x0F)
  | some tid =>
    let off := (f.srcB w t).toNat
    match w.spadWord off 256 16 with
    | .error r => .fault s r
    | .ok _ => match s.physRead (s.titAddr w tid) 256 with
      | none => .fault (s.logBad (vfOfCtx w.ctxn) (s.titAddr w tid)) (trapOf 0x0C)
      | some b => .go ((s.drainQueue t.key).modWg w.id (fun w => w.spadPut off b)) (t.onward (.tidget f))

theorem exec_tidget (f : V3) (s : State) : exec (.tidget f) s = .next (s.forThreads (.tidget f) (tidgetBody f)) := rfl

theorem Workgroup.spadWord_within {off n align : Nat} (ha : off % align = 0) (hn : off + n ≤ w.spadSize) :
    w.spadWord off n align = .ok (memGetN w.spad off n) := by
  simp [Workgroup.spadWord, ha, Nat.not_lt.2 hn]

theorem keepsSteps_spadPut (off : Nat) (b : List Byte) : KeepsSteps (fun w => w.spadPut off b) := fun _ => ⟨rfl, rfl, rfl⟩

/-- The errors that a write to the scratchpad leaves, as the statements write them (R195). -/
theorem Workgroup.spadPut_eq (w : Workgroup) (off : Nat) (b : List Byte) : w.spadPut off b = { w with
    spad := memSetN w.spad off b, spadErr := w.spadErr.filter (fun a => decide (a < off ∨ off + b.length ≤ a)) } := by
  simp only [Workgroup.spadPut, Bool.decide_or]

/-- TIDGET reads an entry that lies in a plain block, and writes it in the scratchpad. -/
theorem tidget_stores {d : CtxDesc} (hd : (s.ctx w.ctxn).desc = some d) (ha : bits (f.srcA w t) 31 12 = 0)
    (h : (Instr.tidget f).Alone s t w) (halign : (f.srcB w t).toNat % 16 = 0) (hwithin : (f.srcB w t).toNat + 256 ≤ w.spadSize)
    (hdrained : Drained s t) (hpa : (d.tit + 256 * (f.srcA w t).toNat) % 256 = 0)
    (hp : s.isCmp (d.tit + 256 * (f.srcA w t).toNat) = false)
    (hclean : ∀ a ∈ s.poison, a < d.tit + 256 * (f.srcA w t).toNat ∨ d.tit + 256 * (f.srcA w t).toNat + 256 ≤ a) :
    StoresSpad (.tidget f) s w { t with pc := t.pc + BitVec.ofNat 64 (4 * f.fm.words) } (f.srcB w t).toNat
      ((List.range 256).map (fun i => memGet s.mem (d.tit + 256 * (f.srcA w t).toNat + i))) := by
  have hbody : tidgetBody f s w t = .go (s.modWg w.id (fun y => y.spadPut (f.srcB w t).toNat
      ((List.range 256).map (fun i => memGet s.mem (d.tit + 256 * (f.srcA w t).toNat + i))))) (t.onward (.tidget f)) := by
    simp only [tidgetBody, tidOf_eq, ha, if_true, Workgroup.spadWord_within halign hwithin, State.titAddr_eq hd ha,
      State.physRead_plain hp (by omega) hclean, State.drainQueue_drained hdrained]
  obtain ⟨s', hexec, hwent⟩ := acts_of_wgs h (exec_tidget f s) (keepsSteps_spadPut _ _) rfl hbody ⟨rfl, rfl, rfl, rfl⟩
  simp only [Workgroup.spadPut_eq] at hwent
  exact ⟨s', hexec, hwent⟩

/-- TIDSET and TIDGET of an entry outside of the table (R246). -/
theorem tidset_outside (ha : bits (f.srcA w t) 31 12 ≠ 0) (h : (Instr.tidset f).Alone s t w) :
    Raises (.tidset f) s t { code := 0x0F } := by
  refine raises_trap h (exec_tidset f s) ?_ (by decide)
  simp only [tidsetBody, tidOf_eq, ha, if_false]

theorem tidget_outside (ha : bits (f.srcA w t) 31 12 ≠ 0) (h : (Instr.tidget f).Alone s t w) :
    Raises (.tidget f) s t { code := 0x0F } := by
  refine raises_trap h (exec_tidget f s) ?_ (by decide)
  simp only [tidgetBody, tidOf_eq, ha, if_false]

end

end Sys2Proof.Machine
end

section
namespace Sys2Proof.Proofs

open Sys2Proof Machine Certificates

/-- Settles O29: the queues by how many operations of the workgroup they hold, the tables by their operand in the scratchpad and,
for an entry of the tensor table, by its number. -/
theorem queuesAndTables : Obligations.QueuesAndTables := by
  intro s t w hseen
  refine ⟨fun qmask fm h => qfence_cases h, fun n q fm h => qwait_cases h, fun f b h hb hops => xltld_loads h hseen hb hops,
    ?entries, fun f ha => ⟨tidset_outside ha, tidget_outside ha⟩⟩
  intro f d hd ha pa
  exact ⟨fun b h hb hm hp _ hok => tidset_stores hd ha h hb hm hp hok,
    fun h halign hwithin hdrained hpa hp hclean => tidget_stores hd ha h halign hwithin hdrained hpa hp hclean⟩

end Sys2Proof.Proofs
end

section
/-! SUPPORT. Copies as their issue leaves them (R247 to R250): the checks that one passes, the operation that it becomes, and the
elements that it moves. -/

namespace Sys2Proof.Machine

open Certificates

/-! ## The issue (R247 to R250) -/

/-- The tile at which the bytes of a copy arrive (R247). -/
def CopyDesc.counts (d : CopyDesc) : Nat := if d.out = true then d.ctile else d.dtile

/-- A copy that finds room on its queue and passes the checks of R247 to R250, with the indices of a gather and the elements that
it moves. -/
structure State.CopyPasses (s : State) (w : Workgroup) (q a : Nat) (gather : Bool) (b : List Byte) (d : CopyDesc) (x : Tensor)
    (idx : Option (List Int)) (dt ct : Tile) (ms : List Move) : Prop where
  room : s.queueLen w.core q < if q = 4 then 16 else 32
  operand : InSpad w a 64 64 b
  desc : copyDesc b = d
  ok : d.ok = true
  tensor : s.tensor w d.tid = .ok x
  indices : (if gather then (gatherIndices w d x).map some else Except.ok none) = .ok idx
  data : w.tiles[d.dtile]? = some dt
  count : w.tiles[d.counts]? = some ct
  ready : d.out = true → dt.state = .ready ∧ dt.err = 0 ∧ Ecc.tile w.id d.dtile ∉ s.ecc
  fits : d.fits x dt.kind = true
  within : d.doff + d.nibbles x / 2 ≤ dt.bytes
  filling : ct.state = .filling
  claim : ct.claimed + d.nibbles x / 2 ≤ ct.expected
  moves : s.movesFrom w d x dt (copyCoords d x idx) = .ok ms

/-- The state once a copy has claimed `n` bytes and joined its queue. -/
def State.copyQueued (s : State) (w : Workgroup) (t : Thread) (q : Nat) (d : CopyDesc) (n oor : Nat) (ms : List Move) : State :=
  { s.modTile w.id d.counts (fun e => { e with claimed := e.claimed + n }) with
    ops := s.ops ++ [{ id := s.fresh, core := w.core, q, wg := w.id, issuer := t.tidx, started := false, err := 0
                       body := .copy (joinMeta ms) (if d.xlt = true then some w.xlt else none) d.dtile d.counts d.out d.scl d.stag
                         n oor }]
    fresh := s.fresh + 1 }

/-- A copy that moves something joins its queue. -/
theorem State.queueCopy_queues {d : CopyDesc} {ms : List Move} (h : d.out = true → ∃ m ∈ ms, m.dst ≠ none) (s : State)
    (w : Workgroup) (t : Thread) (q n oor : Nat) : s.queueCopy w t q d n oor ms = s.copyQueued w t q d n oor ms := by
  have hmoves : (d.out && ms.all (fun m => m.dst.isNone)) = false := by
    refine Bool.eq_false_iff.2 fun hnone => ?_
    obtain ⟨hout, hall⟩ := Bool.and_eq_true_iff.1 hnone
    obtain ⟨m, hm, hdst⟩ := h hout
    exact hdst (Option.isNone_iff_eq_none.1 (List.all_eq_true.1 hall m hm))
  simp only [State.queueCopy, hmoves, Bool.false_eq_true, if_false]
  rfl

section
variable {s : State} {t : Thread} {w : Workgroup} {q a : Nat} {gather : Bool} {b : List Byte} {d : CopyDesc} {x : Tensor}
  {idx : Option (List Int)} {dt ct : Tile} {ms : List Move} (h : s.CopyPasses w q a gather b d x idx dt ct ms)
include h

theorem State.copyChecks_passes (hseen : t.seen = none) (i : Instr) : s.copyChecks i w t q gather d
    = .go (s.queueCopy w t q d (d.nibbles x / 2) (idx.elim 0 (badIndices x)) ms) (t.onward i) := by
  have hdata : w.tile d.dtile = some dt := h.data
  have hcount : w.tile (if d.out then d.ctile else d.dtile) = some ct := h.count
  have hwithin : ¬ dt.bytes < d.doff + d.nibbles x / 2 := Nat.not_lt.2 h.within
  have hclaim : ¬ ct.expected < ct.claimed + d.nibbles x / 2 := Nat.not_lt.2 h.claim
  simp only [State.copyChecks, h.tensor, h.indices, hdata, h.fits, hwithin, hcount, h.filling, hclaim, h.moves, Thread.done,
    hseen, Bool.not_true, Bool.false_or, decide_false, Bool.false_eq_true, if_false, bne_self_eq_false, Option.isSome_none]

/-- A copy that passes is issued at once. -/
theorem State.copyIssue_passes (hseen : t.seen = none) (i : Instr) : s.copyIssue i w t q gather a
    = .go (s.queueCopy w t q d (d.nibbles x / 2) (idx.elim 0 (badIndices x)) ms) (t.onward i) := by
  have hdata : w.tile d.dtile = some dt := h.data
  have hroom : s.gateHolds w (.queueRoom w.core q) = true := by simpa [State.gateHolds] using h.room
  have hwaits : (d.out && (w.tile d.dtile).any (fun e => e.state != .ready)) = false := by
    cases hout : d.out
    · rfl
    · simp [hdata, (h.ready hout).1]
  have herr : (if d.out then s.tileErr w [d.dtile] else none) = none := by
    cases hout : d.out
    · rfl
    · obtain ⟨-, herr, hecc⟩ := h.ready hout
      rw [if_pos rfl, State.tileErr_one h.data, if_neg hecc, if_pos herr]
  simp only [State.copyIssue, hroom, hseen, Workgroup.spadRead_inSpad h.operand, h.desc, h.ok, hwaits, herr,
    State.copyChecks_passes h hseen, Bool.not_true, Bool.false_eq_true, if_false]

end

/-- What a copy does for a thread of its group (R249, R256). -/
def copyBody (i : Instr) (f : V3) (gather : Bool) (s : State) (w : Workgroup) (t : Thread) : Res :=
  s.inTurn t (s.copyIssue i w t f.d.toNat gather (f.srcA w t).toNat)

theorem exec_copy {i : Instr} {f : V3} {rel : BitVec 3} {gather : Bool}
    (hi : i = .tcopy f rel ∧ gather = false ∨ i = .tcopyg f rel ∧ gather = true) (s : State) :
    exec i s = .next (s.forThreads i (copyBody i f gather)) := by
  rcases hi with ⟨rfl, rfl⟩ | ⟨rfl, rfl⟩ <;> rfl

/-- A copy of a lone thread that passes its checks and moves something. -/
theorem copy_acts {s : State} {t : Thread} {w : Workgroup} {i : Instr} {f : V3} {rel : BitVec 3} {gather : Bool} {b : List Byte}
    {d : CopyDesc} {x : Tensor} {idx : Option (List Int)} {dt ct : Tile} {ms : List Move}
    (hi : i = .tcopy f rel ∧ gather = false ∨ i = .tcopyg f rel ∧ gather = true) (ha : i.Alone s t w) (hseen : t.seen = none)
    (h : s.CopyPasses w f.d.toNat (f.srcA w t).toNat gather b d x idx dt ct ms)
    (hmoves : d.out = true → ∃ m ∈ ms, m.dst ≠ none) :
    Acts i s t t { s.copyQueued w t f.d.toNat d (d.nibbles x / 2) (idx.elim 0 (badIndices x)) ms with fresh := s.fresh } := by
  have hbody : copyBody i f gather s w t
      = .go (s.copyQueued w t f.d.toNat d (d.nibbles x / 2) (idx.elim 0 (badIndices x)) ms) (t.onward i) := by
    rw [copyBody, State.inTurn_alone ha, State.copyIssue_passes h hseen, State.queueCopy_queues hmoves]
  have hacts : Acts i s t t (s.copyQueued w t f.d.toNat d (d.nibbles x / 2) (idx.elim 0 (badIndices x)) ms) :=
    acts_of_wgs ha (exec_copy hi s) (keepsSteps_modTile d.counts _) rfl hbody ⟨rfl, rfl, rfl, rfl⟩
  obtain ⟨s', hexec, hwent⟩ := hacts
  exact ⟨s', hexec, went_fresh hwent s.fresh⟩

/-! ## The elements (R248 to R250) -/

/-- Each element that a copy moves is that of its place. -/
theorem State.forall₂_movesFrom {s : State} {w : Workgroup} {d : CopyDesc} {x : Tensor} {tl : Tile}
    {cs : List (Nat × List Int × Bool)}
    {ms : List Move} (h : s.movesFrom w d x tl cs = .ok ms) :
    List.Forall₂ (fun c m => s.oneMove w d x tl c.1 c.2.1 c.2.2 = .ok m) cs ms := by
  induction cs generalizing ms with
  | nil =>
    obtain rfl : [] = ms := Except.ok.inj h
    exact .nil
  | cons c r ih =>
    obtain ⟨k, y, z⟩ := c
    rw [State.movesFrom] at h
    split at h
    · cases h
    · next m hm =>
      split at h
      · cases h
      · next l hl =>
        obtain rfl : m :: l = ms := Except.ok.inj h
        exact .cons hm (ih hl)

theorem placeIndex_eq_rowMajor (l p : List Nat) : placeIndex l p = rowMajor l p := by
  induction l generalizing p with
  | nil => cases p <;> rfl
  | cons b l ih =>
    cases p with
    | nil => rfl
    | cons j p => rw [placeIndex, rowMajor, ih]

/-- The `k`-th place of a box has the index `k` in row-major order. -/
theorem placeIndex_boxPlaces {l p : List Nat} {k : Nat} (h : (boxPlaces l)[k]? = some p) : placeIndex l p = k := by
  have hmap := congrArg (·[k]?) (map_rowMajor_boxPlaces l)
  simp only [List.getElem?_map, h, Option.map_some] at hmap
  rw [placeIndex_eq_rowMajor]
  exact (List.getElem?_eq_some_iff.1 hmap.symm).2.symm.trans (by simp)

theorem length_boxPlaces (l : List Nat) : (boxPlaces l).length = l.prod := by
  simpa using congrArg List.length (map_rowMajor_boxPlaces l)

/-- The bytes that an element of a copy takes up in its tile (R248). -/
def CopyDesc.tileSize (d : CopyDesc) (x : Tensor) : Nat := if d.xlt = true then 2 else fmtBits x.fmt / 8

/-- The place of a byte of a tile's range, in the scratchpad or in its slots (R239). -/
def Tile.place (tl : Tile) (n : Nat) : Loc :=
  if tl.kind = .spad then .spad ((if tl.kind = .spad then 64 * tl.base else 16384 * tl.base) + n)
  else .slot ((if tl.kind = .spad then 64 * tl.base else 16384 * tl.base) + n)

theorem tileLoc_eq_place {tl : Tile} (h : tl.kind ≠ .fifo) (n : Nat) : tileLoc tl n = tl.place n := by
  unfold tileLoc Tile.place
  cases hk : tl.kind
  case fifo => exact absurd hk h
  all_goals rfl

theorem elemBytes_eq {fmt : Nat} (h : fmt ≠ 9) : elemBytes fmt = fmtBits fmt / 8 := by
  simp [elemBytes, h]

/-- The address of a tensor's element (R244). -/
theorem elemAddr_eq {x : Tensor} (h : x.fmt ≠ 9) (y : List Nat) : elemAddr x y
    = (x.base + BitVec.ofNat 80 ((List.zipWith (· * ·) y x.stride).sum * (fmtBits x.fmt / 8)), none) := by
  simp [elemAddr, h, elemBytes_eq h, strideSum, List.zip, List.map_zipWith]

/-- What a copy into a tile writes where its element lies outside of the tensor, or its index is bad (R248, R250). -/
def CopyDesc.padding (d : CopyDesc) (x : Tensor) (z : Bool) : Nat :=
  if z = true then 0 else d.pad % 2 ^ (if d.xlt = true then 16 else fmtBits x.fmt)

section
variable {s : State} {w : Workgroup} {d : CopyDesc} {x : Tensor} {tl : Tile} {k : Nat} {c : List Int} {z : Bool} {m : Move}
  (h : s.oneMove w d x tl k c z = .ok m) (hout : d.out = false)
include h hout

/-- An element outside of the tensor has no source (R248, R250). -/
theorem oneMove_padding (hc : z = true ∨ inside x c = none) : m.src = none ∧ m.pad = d.padding x z := by
  have hnone : (if z then none else inside x c) = none := by
    rcases hc with rfl | hc
    · rfl
    · rw [hc, ite_self]
  simp only [State.oneMove, hnone, hout, Bool.false_eq_true, if_false] at h
  obtain rfl := Except.ok.inj h
  exact ⟨rfl, rfl⟩

variable (hfmt : x.fmt ≠ 9)
include hfmt

/-- An element inside of the tensor has its source at its coordinates (R244, R248). -/
theorem oneMove_source (hz : z = false) {y : List Nat} (hc : inside x c = some y) : ∃ l, m.src = some l
    ∧ s.elemLoc w false d.raw (fmtBits x.fmt / 8)
        (x.base + BitVec.ofNat 80 ((List.zipWith (· * ·) y x.stride).sum * (fmtBits x.fmt / 8))) = .ok l := by
  simp only [State.oneMove, hz, hc, hout, elemAddr_eq hfmt, elemBytes_eq hfmt, Bool.false_eq_true, if_false] at h
  split at h
  · cases h
  · next l hl =>
    obtain rfl := Except.ok.inj h
    exact ⟨l, rfl, hl⟩

/-- An element of a copy into a tile goes whole to its place there (R248). -/
theorem oneMove_place (hkind : tl.kind ≠ .fifo) : m.dst = some (tl.place (d.doff + k * d.tileSize x)) ∧ m.dstHalf = none := by
  have hne : (x.fmt == 9) = false := by simpa using hfmt
  have hsize : (if d.xlt then 2 else elemBytes x.fmt) = d.tileSize x := by rw [elemBytes_eq hfmt]; rfl
  simp only [State.oneMove, hne, hout, hsize, tileLoc_eq_place hkind, Bool.false_eq_true, if_false] at h
  split at h
  · obtain rfl := Except.ok.inj h
    exact ⟨rfl, rfl⟩
  · split at h
    · cases h
    · obtain rfl := Except.ok.inj h
      exact ⟨rfl, rfl⟩

end

/-- The place in the tile of the `k`-th element of a box (R248). -/
theorem CopyDesc.tileIndex_eq {d : CopyDesc} {p : List Nat} {k : Nat} (h : (boxPlaces d.box)[k]? = some p) :
    d.tileIndex p = if d.tr = true ∨ d.tr16 = true then placeIndex (swap01 d.box) (swap01 p) else k := by
  simp only [CopyDesc.tileIndex, placeIndex_boxPlaces h, Bool.or_eq_true]

/-- The elements of a copy stand in the order of its box. -/
theorem length_copyCoords (d : CopyDesc) (x : Tensor) (idx : Option (List Int)) : (copyCoords d x idx).length = d.box.prod := by
  rw [copyCoords, List.length_map, length_boxPlaces]

theorem copyCoords_tileIndex {d : CopyDesc} {x : Tensor} {idx : Option (List Int)} {k : Nat} {p : List Nat}
    {c : Nat × List Int × Bool} (hp : (boxPlaces d.box)[k]? = some p) (hc : (copyCoords d x idx)[k]? = some c) :
    c.1 = d.tileIndex p := by
  rw [copyCoords, List.getElem?_map, hp, Option.map_some] at hc
  rw [← Option.some.inj hc]

/-- The move of a copy's `k`-th element. -/
theorem State.oneMove_of_movesFrom {s : State} {w : Workgroup} {d : CopyDesc} {x : Tensor} {tl : Tile}
    {cs : List (Nat × List Int × Bool)}
    {ms : List Move} (h : s.movesFrom w d x tl cs = .ok ms) {k : Nat} {c : Nat × List Int × Bool} {m : Move}
    (hc : cs[k]? = some c) (hm : ms[k]? = some m) : s.oneMove w d x tl c.1 c.2.1 c.2.2 = .ok m := by
  obtain ⟨hk, rfl⟩ := List.getElem?_eq_some_iff.1 hc
  obtain ⟨hk', rfl⟩ := List.getElem?_eq_some_iff.1 hm
  exact (State.forall₂_movesFrom h).get hk hk'

end Sys2Proof.Machine
end

section
namespace Sys2Proof.Proofs

open Sys2Proof Machine Certificates

/-- The issue of a copy, and the elements of one into a tile. -/
theorem copies : Certificates.Copies := by
  refine ⟨?issue, ?elements⟩
  case issue =>
    intro s t w f rel i gather b x idx dt ct ms hi ha hseen q d ctn n hq hlen hop hok hx hplain hgather hdt hct hready hfits
      hwithin hfill hclaim hms hmoves
    have hroom : s.queueLen w.core q < if q = 4 then 16 else 32 := by rw [if_neg (by omega)]; exact hlen
    have hidx : (if gather then (gatherIndices w d x).map some else Except.ok none) = .ok idx := by
      cases gather
      · rw [hplain rfl]
        rfl
      · obtain ⟨l, rfl, hl⟩ := hgather rfl
        rw [if_pos rfl, hl]
        rfl
    have hbad : idx.elim 0 (badIndices x)
        = ((idx.getD []).filter (fun j => decide (j < 0 ∨ (x.ext.getD (x.rank - 1) 0 : Int) ≤ j))).length := by
      cases idx
      · rfl
      · simp [badIndices]
    have hacts := copy_acts hi ha hseen
      ⟨hroom, hop, rfl, hok, hx, hidx, hdt, hct, hready, hfits, hwithin, hfill, hclaim, hms⟩ hmoves
    rw [hbad] at hacts
    exact hacts
  case elements =>
    intro s w d x tl idx ms cs hms hout hfmt hkind size start at'
    have hlen := (State.forall₂_movesFrom hms).length_eq.symm.trans (length_copyCoords d x idx)
    refine ⟨hlen, fun k hk p c z m hp hc hm => ?_⟩
    obtain ⟨⟨j, c', z'⟩, hcs, hcz⟩ := Option.map_eq_some_iff.1 hc
    obtain ⟨rfl, rfl⟩ : c' = c ∧ z' = z := Prod.mk.inj hcz
    have hj : j = d.tileIndex p := copyCoords_tileIndex hp hcs
    have hone := State.oneMove_of_movesFrom hms hcs hm
    obtain ⟨hdst, hhalf⟩ := oneMove_place hone hout hfmt hkind
    refine ⟨?_, hhalf, oneMove_padding hone hout, fun hz y hy => oneMove_source hone hout hfmt hz hy⟩
    rw [hdst, hj, CopyDesc.tileIndex_eq hp, Tile.place, ← Nat.add_assoc]
    rfl

end Sys2Proof.Proofs
end

section
/-! SUPPORT. The copy at the head of a queue (R242, R248, R251): its start, and its completion where it reads plain main memory
and writes in the scratchpad. -/

namespace Sys2Proof.Machine

open Certificates

/-! ## The start (R251) -/

/-- With no source on another package nothing is asked for. -/
theorem State.requestMoves_local {ms : List Move} (h : needRemote ms = false) (s : State) (m : Mover) :
    s.requestMoves m ms = s := by
  have hlocal : ∀ mv ∈ ms, ∀ pkg pa, mv.src ≠ some (.remote pkg pa) := fun mv hmv pkg pa hsrc => by
    have hnone := List.any_eq_false.1 h mv hmv
    rw [hsrc] at hnone
    exact hnone rfl
  have hask : ∀ n : Nat, (ms.foldl (fun (a : State × Nat) mv => (a.1.askMove m a.2 mv, a.2 + 1)) (s, n)).1 = s := by
    clear h
    induction ms with
    | nil => exact fun _ => rfl
    | cons mv ms ih =>
      intro n
      have hmv : s.askMove m n mv = s := by
        unfold State.askMove
        split
        · next hsrc _ => exact absurd hsrc (hlocal mv List.mem_cons_self _ _)
        · next hsrc _ => exact absurd hsrc (hlocal mv List.mem_cons_self _ _)
        · rfl
      rw [List.foldl_cons, hmv]
      exact ih (fun x hx => hlocal x (List.mem_cons_of_mem mv hx)) (n + 1)
  have hunits : rawUnits ms = List.dedup [] := by
    refine congrArg List.dedup (List.filterMap_eq_nil_iff.2 fun mv hmv => ?_)
    split
    · next hsrc => exact absurd hsrc (hlocal mv hmv _ _)
    · rfl
  unfold State.requestMoves
  split
  · rfl
  · simp only [hask, hunits, List.dedup_nil, List.foldl_nil]
    split <;> rfl

theorem execCopyStart_local {s : State} {core q : Nat} {o : Op} (hq : q < 4) (h : s.headOp core q = some o) {ms : List Move}
    {x : Option (List (BitVec 16))} {dt ct : Nat} {out scl : Bool} {stag : BitVec 16} {n oor : Nat}
    (hb : o.body = .copy ms x dt ct out scl stag n oor) (hst : o.started = false) (hms : needRemote ms = false) :
    exec (.copyStart core q) s
      = .next { s with ops := s.ops.map (fun x => if x.id = o.id then { o with started := true } else x) } := by
  have hstart : s.startOp o = s.setOp { o with started := true } := by
    unfold State.startOp
    dsimp only
    split
    · next hbody _ =>
      rw [hb] at hbody
      obtain ⟨rfl, -⟩ := OpBody.copy.inj hbody
      exact State.requestMoves_local hms _ _
    · rfl
  have hexec : exec (.copyStart core q) s = .next (s.startOp o) := by
    show execCopyStart core q s = _
    simp only [execCopyStart, Nat.not_le.2 hq, if_false, h, hst, Bool.false_eq_true]
  rw [hexec, hstart, State.setOp_eq]

/-! ## An element of plain main memory (R242, R248) -/

/-- A move from a place of main memory to one of the scratchpad. -/
def loadMove (size : Nat) (x : Nat × Nat) : Move :=
  { src := some (.main x.1), pad := 0, dst := some (.spad x.2), size, srcHalf := none, dstHalf := none }

/-- What such a move stores, and where. -/
def State.loadRun (s : State) (size : Nat) (x : Nat × Nat) : Nat × List Byte := (x.2, memGetN s.mem x.1 size)

/-- Bytes of plain main memory that an engine of a core can read. -/
structure State.Readable (s : State) (core pa n : Nat) : Prop extends s.PlainAt pa n where
  pos : 0 < n
  link : s.reaches (dieOf core) (homeDie pa) = true

section
variable {s : State} {o : Op} {size ctxn : Nat} {x : Nat × Nat}

theorem State.moveValue_loadMove (h : s.Readable o.core x.1 size) :
    s.moveValue (o.mover ctxn none) (loadMove size x) = (memGetN s.mem x.1 size, false) := by
  have hread : s.readPlace (o.mover ctxn none) (.main x.1) size = some (memGetN s.mem x.1 size) := by
    simp only [State.readPlace, Op.mover, h.link, if_true, State.physRead_plainAt h.toPlainAt h.pos]
  simp only [State.moveValue, loadMove, hread]
  rfl

/-- The write of such a move. -/
theorem State.onePart_loadMove (h : s.Readable o.core x.1 size) : s.onePart (o.mover ctxn none) [loadMove size x]
    = (s.modWg o.wg (fun w => w.spadPut x.2 (memGetN s.mem x.1 size))).opArrives o.id (2 * size) 0 := by
  have hvalue := State.moveValue_loadMove (ctxn := ctxn) h
  have hread : s.readSources (o.mover ctxn none) [loadMove size x] = (s, 0) := by
    have hone : s.readSource (o.mover ctxn none) (loadMove size x) = (s, 0) := by
      rw [State.readSource, hvalue]
      rfl
    simp only [State.readSources, List.foldl_cons, List.foldl_nil, hone]
    rfl
  have hblock : s.blockOf (loadMove size x) = none := rfl
  have hwritten : s.written (o.mover ctxn none) (loadMove size x) = (none, memGetN s.mem x.1 size) := by
    rw [State.written, hvalue]
    rfl
  have hnibs : ([loadMove size x].map (o.mover ctxn none).nibs).sum = 2 * size := rfl
  unfold State.onePart
  simp only [hread, hblock, hwritten, hnibs]
  rfl

end

/-! ## The moves of a copy (R242) -/

/-- Whatever arrives at a tile after a change, `n` bytes have arrived before it. -/
def Counts (g : Tile → Tile) (n : Nat) : Prop := ∀ m, arrivedErr m 0 ∘ g = arrivedErr (n + m) 0

theorem counts_none : Counts (fun e => e) 0 := fun m => by rw [Nat.zero_add]; rfl

theorem Counts.arrive {g : Tile → Tile} {n : Nat} (h : Counts g n) (k : Nat) : Counts (arrivedErr k 0 ∘ g) (n + k) := fun m => by
  rw [← Function.comp_assoc, arrivedErr_comp, h, Nat.add_assoc]

section
variable {s : State} {o o' : Op} (h : s.ops.find? (fun x => x.id == o.id) = some o') {ms : List Move} {dt ct : Nat}
  {stag : BitVec 16} {bytes oor : Nat} (hb : o.body = .copy ms none dt ct false false stag bytes oor) {c : Nat}
  (hc : o.counted = 2 * min bytes c)
include h hb hc

/-- The arrival of the bytes of a move, which an operation counts up to its size (R242). -/
theorem State.opArrives_counts {runs : List (Nat × List Byte)} {g : Tile → Tile} (hg : Counts g (min bytes c)) (k : Nat) :
    ∃ g', Counts g' (min bytes (c + k)) ∧ (s.withOp o (Workgroup.filled runs ct g)).opArrives o.id (2 * k) 0
      = s.withOp { o with counted := 2 * min bytes (c + k) } (Workgroup.filled runs ct g') := by
  have hfind : (s.withOp o (Workgroup.filled runs ct g)).ops.find? (fun x => x.id == o.id) = some o := State.find?_setOp h
  have hn : min (2 * bytes) (2 * min bytes c + 2 * k) = 2 * min bytes (c + k) := by omega
  have hdiff : 2 * min bytes (c + k) / 2 - 2 * min bytes c / 2 = min bytes (c + k) - min bytes c := by omega
  have hsum : min bytes c + (min bytes (c + k) - min bytes c) = min bytes (c + k) := by omega
  have hcounts := hg.arrive (min bytes (c + k) - min bytes c)
  rw [hsum] at hcounts
  refine ⟨_, hcounts, ?_⟩
  rw [State.opArrives_copy hfind hb, hc, hn, hdiff, ← Workgroup.modTile_comp_filled,
    State.setOp_withOp s (o := o) (o' := { o with counted := 2 * min bytes (c + k), err := nextErr o.err 0 }) rfl rfl]
  exact State.modWg_withOp s { o with counted := 2 * min bytes (c + k) } (Workgroup.filled_keepsId runs ct g) _

end

/-- Such a move is a write of its own. -/
theorem State.runMoves_loadMove (m : Mover) (fuel : Nat) (s : State) (size : Nat) (x : Nat × Nat) (r : List Move) :
    State.runMoves m (fuel + 1) s (loadMove size x :: r) = State.runMoves m fuel (s.onePart m [loadMove size x]) r := by
  have hblock : s.blockOf (loadMove size x) = none := rfl
  have hsame : s.sameWrite (loadMove size x) = fun _ => false := rfl
  have halone : ((r.take 1).takeWhile (s.sameWrite (loadMove size x))).length = 0 := by
    rw [hsame]
    cases r <;> rfl
  simp only [State.runMoves, hblock, Option.isSome_none, Bool.false_eq_true, if_false, halone, List.take_zero, List.drop_zero]

/-- The moves store the bytes of their sources, one after another, and their bytes arrive. -/
theorem State.runMoves_loadMoves {s : State} {o o' : Op} (h : s.ops.find? (fun x => x.id == o.id) = some o') {ms : List Move}
    {dt ct : Nat} {stag : BitVec 16} {bytes oor c ctxn fuel size : Nat}
    (hb : o.body = .copy ms none dt ct false false stag bytes oor) (hc : o.counted = 2 * min bytes c)
    {runs : List (Nat × List Byte)} {g : Tile → Tile} (hg : Counts g (min bytes c)) {todo : List (Nat × Nat)}
    (hfuel : todo.length ≤ fuel) (hread : ∀ x ∈ todo, s.Readable o.core x.1 size) :
    ∃ g' n, n ≤ bytes ∧ Counts g' n
      ∧ State.runMoves (o.mover ctxn none) fuel (s.withOp o (Workgroup.filled runs ct g)) (todo.map (loadMove size))
        = s.withOp { o with counted := 2 * n } (Workgroup.filled (runs ++ todo.map (s.loadRun size)) ct g') := by
  induction todo generalizing o c runs g fuel with
  | nil =>
    have hstay : ({ o with counted := 2 * min bytes c } : Op) = o := by rw [← hc]
    refine ⟨g, min bytes c, Nat.min_le_left _ _, hg, ?_⟩
    rw [hstay, List.map_nil, List.map_nil, List.append_nil]
    cases fuel <;> rfl
  | cons x r ih =>
    obtain ⟨fuel, rfl⟩ : ∃ k, fuel = k + 1 := ⟨fuel - 1, by simp at hfuel; omega⟩
    have hx : (s.withOp o (Workgroup.filled runs ct g)).Readable o.core x.1 size :=
      have hs := hread x List.mem_cons_self
      ⟨⟨hs.plain, hs.clean⟩, hs.pos, hs.link⟩
    have hput : (fun w : Workgroup => w.spadPut x.2 (memGetN s.mem x.1 size)) ∘ Workgroup.filled runs ct g
        = Workgroup.filled (runs ++ [s.loadRun size x]) ct g :=
      funext fun w => Workgroup.spadPut_filled runs ct g (s.loadRun size x) w
    obtain ⟨g₁, hg₁, harrives⟩ := State.opArrives_counts h hb hc (runs := runs ++ [s.loadRun size x]) hg size
    have hstep : (s.withOp o (Workgroup.filled runs ct g)).onePart (o.mover ctxn none) [loadMove size x]
        = s.withOp { o with counted := 2 * min bytes (c + size) } (Workgroup.filled (runs ++ [s.loadRun size x]) ct g₁) := by
      rw [State.onePart_loadMove hx, State.modWg_withOp s o (Workgroup.filled_keepsId runs ct g)]
      exact (congrArg (fun f => (s.withOp o f).opArrives o.id (2 * size) 0) hput).trans harrives
    obtain ⟨g', n, hn, hg', hrest⟩ := ih (o := { o with counted := 2 * min bytes (c + size) }) (fuel := fuel)
      (runs := runs ++ [s.loadRun size x]) h hb rfl hg₁ (by simpa using hfuel) (fun y hy => hread y (List.mem_cons_of_mem x hy))
    refine ⟨g', n, hn, hg', ?_⟩
    rw [List.map_cons, State.runMoves_loadMove, hstep, List.map_cons]
    rw [List.append_assoc] at hrest
    exact hrest

/-! ## The end (R242, R250; log entry 63) -/

/-- The elements outside of a copy's tensor that its tile counts (R250). -/
def addOor (oor : Nat) (e : Tile) : Tile := { e with oor := min 0xFFFF (e.oor + oor) }

theorem addOor_comp_arrivedErr (oor n err : Nat) : addOor oor ∘ arrivedErr n err = arrivedErr n err ∘ addOor oor := by
  funext e
  by_cases h : e.state = .filling ∧ e.expected ≤ e.arrived + n
  · simp [arrivedErr, addOor, arrived, h]
  · simp [arrivedErr, addOor, arrived, h]

/-- What arrives last at a tile completes what has arrived before, whether OOR grows at that tile or at another. -/
theorem modify_addOor_arrive {g : Tile → Tile} {n m : Nat} (hg : Counts g n) (l : List Tile) (dt ct oor : Nat) :
    ((l.modify ct g).modify dt (addOor oor)).modify ct (arrivedErr m 0)
      = (l.modify dt (addOor oor)).modify ct (fun e => arrived e (n + m)) := by
  have hlast : ∀ e, arrivedErr m 0 (g e) = arrivedErr (n + m) 0 e := congrFun (hg m)
  have hcomm : ∀ k e, arrivedErr k 0 (addOor oor e) = addOor oor (arrivedErr k 0 e) :=
    fun k => congrFun (addOor_comp_arrivedErr oor k 0).symm
  rw [← arrivedErr_zero]
  refine List.ext_getElem? fun j => ?_
  simp only [List.getElem?_modify]
  cases l[j]? with
  | none => rfl
  | some e => by_cases hct : ct = j <;> by_cases hdt : dt = j <;> simp [hct, hdt, hlast, hcomm]

/-- A workgroup whose copy has ended: what its scratchpad holds, the tile that counts elements out of range, and the tile at
which the bytes have arrived. -/
def Workgroup.copied (runs : List (Nat × List Byte)) (dt ct n oor : Nat) (w : Workgroup) : Workgroup :=
  { w.filled runs ct (fun e => e) with tiles := (w.tiles.modify dt (addOor oor)).modify ct (fun e => arrived e n) }

theorem Workgroup.copied_keepsId (runs : List (Nat × List Byte)) (dt ct n oor : Nat) :
    KeepsId (Workgroup.copied runs dt ct n oor) := Workgroup.filled_keepsId runs ct (fun e => e)

theorem Workgroup.copied_eq (runs : List (Nat × List Byte)) (dt ct n oor : Nat) (w : Workgroup) :
    w.copied runs dt ct n oor = { w with
      spad := runs.foldl (fun m x => memSetN m x.1 x.2) w.spad, spadErr := (w.copied runs dt ct n oor).spadErr
      tiles := (w.tiles.modify dt (addOor oor)).modify ct (fun e => arrived e n) } := by
  have hfilled := w.filled_eq runs ct (fun e => e)
  unfold Workgroup.copied
  rw [hfilled]

/-- The end of a copy, `n` of whose bytes have arrived. -/
theorem State.endCopy_counts {s : State} {o : Op} {dt ct bytes oor n : Nat} (hc : o.counted = 2 * n) (hn : n ≤ bytes)
    {g : Tile → Tile} (hg : Counts g n) (runs : List (Nat × List Byte)) :
    (s.withOp o (Workgroup.filled runs ct g)).endCopy o 0 dt ct false bytes oor
      = { s.modWg o.wg (Workgroup.copied runs dt ct bytes oor) with ops := s.ops.filter (fun x => x.id != o.id) } := by
  have hleft : bytes - o.counted / 2 = bytes - n := by omega
  have hid := Workgroup.filled_keepsId runs ct g
  have hwg : Workgroup.modTile ct (arrivedErr (bytes - n) 0) ∘ Workgroup.modTile dt (addOor oor) ∘ Workgroup.filled runs ct g
      = Workgroup.copied runs dt ct bytes oor := by
    funext w
    have htiles := modify_addOor_arrive (m := bytes - n) hg w.tiles dt ct oor
    rw [Nat.add_sub_cancel' hn] at htiles
    simp only [Function.comp, Workgroup.modTile, Workgroup.filled, Workgroup.copied, htiles]
  have hend : ((s.withOp o (Workgroup.filled runs ct g)).modWg o.wg (Workgroup.modTile dt (addOor oor))).arrive
      o.wg ct (bytes - n) 0 = s.withOp o (Workgroup.copied runs dt ct bytes oor) := by
    rw [State.modWg_withOp s o hid, State.arrive_modTile, State.modWg_withOp s o, hwg]
    exact fun w => hid w
  calc (s.withOp o (Workgroup.filled runs ct g)).endCopy o 0 dt ct false bytes oor
      = (s.withOp o (Workgroup.copied runs dt ct bytes oor)).endOp o [] := by
        rw [← hend, ← hleft]
        rfl
    _ = { s.modWg o.wg (Workgroup.copied runs dt ct bytes oor) with ops := (s.setOp o).ops.filter (fun x => x.id != o.id) } := rfl
    _ = _ := by rw [State.filter_setOp]

/-! ## The completion (R242) -/

theorem State.withOp_unchanged (s : State) (o : Op) (ct : Nat) :
    s.withOp o (Workgroup.filled [] ct (fun e => e)) = s.setOp o := by
  have hmodify : ∀ l : List Tile, l.modify ct (fun e => e) = l := List.modify_id ct
  have hsame : ∀ w : Workgroup, w.filled [] ct (fun e => e) = w := fun w => by
    rw [Workgroup.filled, hmodify]
    rfl
  simp [State.withOp, State.modWg, hsame]

/-- A copy that has given up its moves, and has counted some nibbles (R242). -/
def Op.moving (o : Op) (dt ct : Nat) (stag : BitVec 16) (bytes oor counted : Nat) : Op :=
  { o with body := .copy [] none dt ct false false stag bytes oor, counted }

section
variable {s : State} {core q : Nat} {o : Op} {w : Workgroup} {todo : List (Nat × Nat)} {dt ct bytes oor size : Nat}
  {stag : BitVec 16} (hhead : s.headOp core q = some o) (hw : s.wg o.wg = some w)
  (hb : o.body = .copy (todo.map (loadMove size)) none dt ct false false stag bytes oor) (hcounted : o.counted = 0)
  (hwaits : s.opWaits o = false) (hread : ∀ x ∈ todo, s.Readable core x.1 size)
include hhead hw hb hcounted hwaits hread

/-- A copy from plain main memory to the scratchpad runs to its end. -/
theorem State.runCopy_loadMoves : s.runCopy o
    = { s.modWg o.wg (Workgroup.copied (todo.map (s.loadRun size)) dt ct bytes oor) with
        ops := s.ops.filter (fun x => x.id != o.id) } := by
  have hread' : ∀ x ∈ todo, s.Readable o.core x.1 size := by rw [State.headOp_core hhead]; exact hread
  obtain ⟨o', hfind⟩ : ∃ o', s.ops.find? (fun x => x.id == o.id) = some o' :=
    Option.isSome_iff_exists.1 (List.find?_isSome.2 ⟨o, List.mem_of_find?_eq_some hhead, beq_self_eq_true o.id⟩)
  obtain ⟨g, n, hn, hg, hmoves⟩ := State.runMoves_loadMoves (o := o.moving dt ct stag bytes oor 0) (c := 0) (ctxn := w.ctxn)
    (runs := []) hfind rfl (by rw [Nat.min_zero]; rfl) (by rw [Nat.min_zero]; exact counts_none) (Nat.le_refl _) hread'
  have hrun : (s.setOp { o with body := .copy [] none dt ct false false stag bytes oor }).moveAll (o.mover w.ctxn none)
      (todo.map (loadMove size))
        = s.withOp (o.moving dt ct stag bytes oor (2 * n)) (Workgroup.filled (todo.map (s.loadRun size)) ct g) := by
    have hstart : ({ o with body := .copy [] none dt ct false false stag bytes oor } : Op) = o.moving dt ct stag bytes oor 0 := by
      rw [Op.moving, ← hcounted]
    rw [State.withOp_unchanged, List.nil_append] at hmoves
    rw [hstart, State.moveAll, List.length_map]
    exact hmoves
  have hfound : (s.withOp (o.moving dt ct stag bytes oor (2 * n)) (Workgroup.filled (todo.map (s.loadRun size)) ct g)).ops.find?
      (fun x => x.id == o.id) = some (o.moving dt ct stag bytes oor (2 * n)) :=
    State.find?_setOp (o := o.moving dt ct stag bytes oor (2 * n)) hfind
  have hfree : (s.withOp (o.moving dt ct stag bytes oor (2 * n)) (Workgroup.filled (todo.map (s.loadRun size)) ct g)).opWaits
      (o.moving dt ct stag bytes oor (2 * n)) = false := hwaits
  simp only [State.runCopy, hb, hw, hrun, hfound, hfree, Bool.false_eq_true, if_false]
  exact State.endCopy_counts (o := o.moving dt ct stag bytes oor (2 * n)) rfl hn hg _

theorem execCopyComplete_loadMoves (hq : q < 4) (hst : o.started = true) : exec (.copyComplete core q) s
    = .next { s.modWg o.wg (Workgroup.copied (todo.map (s.loadRun size)) dt ct bytes oor) with
        ops := s.ops.filter (fun x => x.id != o.id) } := by
  have hdue : s.dueCopy core q = some o := by
    simp [State.dueCopy, hq, hhead, hst, hwaits]
  show execCopyComplete core q s = _
  simp only [execCopyComplete, hdue, State.runCopy_loadMoves hhead hw hb hcounted hwaits hread]

end

/-- The places of `count` elements, of which the `k`-th comes from `src k`, and which stand one after another in the scratchpad
(R248). -/
def rowLoads (src : Nat → Nat) (off size count : Nat) : List (Nat × Nat) :=
  (List.range count).map (fun k => (src k, off + k * size))

theorem holds_rowLoads {m : Memory} (hm : m.wf = true) (s : State) (src : Nat → Nat) (off size count : Nat) :
    Holds m (((rowLoads src off size count).map (s.loadRun size)).foldl (fun m x => memSetN m x.1 x.2) m)
      off (count * size) (fun i => memGet s.mem (src (i / size) + i % size)) := by
  have hlen : ∀ k, (memGetN s.mem (src k) size).length = size := fun k => length_memGetN _ _ _
  rw [rowLoads, List.foldl_map, List.foldl_map]
  simp only [State.loadRun]
  rw [foldl_memSetN_range hlen]
  refine holds_memSetN_of_getD hm off (length_flatMap_range hlen count) fun i hi => ?_
  have hpos : 0 < size := Nat.pos_of_ne_zero fun h0 => by simp [h0] at hi
  have hrow : i / size < count := Nat.div_lt_of_lt_mul (by rw [Nat.mul_comm]; exact hi)
  have hbyte := getD_flatMap_range hlen 0 hrow (Nat.mod_lt i hpos)
  rw [Nat.div_add_mod'] at hbyte
  rw [hbyte, getD_memGetN _ _ (Nat.mod_lt i hpos)]

end Sys2Proof.Machine
end

section
namespace Sys2Proof.Proofs

open Sys2Proof Machine Certificates

/-- The copy at the head of a queue. -/
theorem copyEngine : Certificates.CopyEngine := by
  intro s core q o w hq hhead hw
  refine ⟨fun ms x dt ct out scl stag n oor hb hst hms => execCopyStart_local hq hhead hb hst hms, ?completion⟩
  intro src off size count dt ct n oor stag hb hst hcounted hwaits hsize hspad hplain
  have hmoves : o.body = .copy ((rowLoads src off size count).map (loadMove size)) none dt ct false false stag n oor := by
    rw [hb, rowLoads, List.map_map]
    rfl
  have hread : ∀ x ∈ rowLoads src off size count, s.Readable core x.1 size := by
    intro x hx
    obtain ⟨k, hk, rfl⟩ := List.mem_map.1 hx
    obtain ⟨hcmp, hlink, hclean⟩ := hplain k (List.mem_range.1 hk)
    exact ⟨⟨hcmp, hclean⟩, hsize, hlink⟩
  have hid := Workgroup.copied_keepsId ((rowLoads src off size count).map (s.loadRun size)) dt ct n oor
  refine ⟨_, _, execCopyComplete_loadMoves hhead hw hmoves hcounted hwaits hread hq hst, State.wg_modWg_same hid hw, ?_, ?_, rfl,
    fun k hk => State.wg_modWg_other hid s hk⟩
  · rw [Workgroup.copied_eq]
    exact holds_rowLoads hspad s src off size count
  · rw [Workgroup.copied_eq]
    rfl

/-- Settles O30: the issue by the checks that the copy passes, each element by its place in the box, and the completion by the
writes of the copy one after another. That OOR grows at the end is the model's choice (log entry 63). -/
theorem copyOperations : Obligations.CopyOperations := ⟨copies, copyEngine⟩

end Sys2Proof.Proofs
end
